-- ==== Sys2Proof/Word.lean ====
section
/-! DEFINITION. The machine's plain words: the 64-bit instruction and register word and the byte (R9, R155). -/

namespace Sys2Proof

/-- A 64-bit word: an instruction word (R155) or a scalar register (R17). -/
abbrev Word := BitVec 64

/-- A byte of memory (R5). -/
abbrev Byte := BitVec 8

end Sys2Proof
end

