-- ==== Sys2Proof/Syntax.lean ====
section
/-! DEFINITION. The steps of the machine as syntax: one constructor per row of spec/opcode_table.json. The rows up to
`svfma` are instruction words (R155 to R175), with the operand fields of their formats; the rest are the events that
the table lists beside them, with what the event carries. -/

namespace Sys2Proof

/-- The opcode spaces (R157, R167 to R174). -/
inductive Space | s | lw | mx | vn | gs | st
deriving DecidableEq, Repr

/-- The four sequencers of a cell (R33). -/
inductive Seq | s | l | c | w
deriving DecidableEq, Repr

/-- The token fields KD, K1, K2, K3 of formats ENGINE, PATTERN and STAMPED (R162). -/
structure Toks where
  kd : BitVec 5
  k1 : BitVec 5
  k2 : BitVec 5
  k3 : BitVec 5
deriving DecidableEq, Repr

/-- STAMP and the token fields of format STAMPED (R163). -/
structure Stamp where
  stamp : BitVec 16
  toks  : Toks
deriving DecidableEq, Repr

/-- The fields of format REG as the VN, GS and ST lane instructions use them (R271, Table 2); USE is 0. -/
structure VecF where
  d    : BitVec 6
  a    : BitVec 6
  b    : BitVec 6
  c    : BitVec 6
  /-- FN[6:3], the sub-function -/
  sub  : BitVec 4
  /-- FN[2:0], the lane type -/
  t    : BitVec 3
  rm   : BitVec 2
  /-- SEL, the governing mask -/
  msk  : BitVec 3
  /-- MOD[7:5]: peek bits of C, B and A, from the high bit -/
  peek : BitVec 3
  zm   : BitVec 1
  part : BitVec 2
  sat  : BitVec 1
  u    : BitVec 1
deriving DecidableEq, Repr

/-- What every Claex message carries in its header besides TYPE and LEN, which its contents fix (R413), with the connection it
came on. -/
structure HostHdr where
  conn : Nat
  gen  : BitVec 4
  seq  : BitVec 32
  ack  : BitVec 32
  qnum : BitVec 16
  flags : BitVec 8 := 0
  /-- word 1, bits 63 to 56, which must be 0 -/
  mbz  : BitVec 8 := 0
deriving DecidableEq, Repr

/-- What identifies a connection of the host port: the source MAC address of raw frames, or the source address and port of
UDP (R412). -/
inductive ConnId
  | mac (src : BitVec 48)
  | udp (src : BitVec 128) (port : BitVec 16)
deriving DecidableEq, Repr

/-- How a frame is encapsulated: raw Ethernet with its EtherType, UDP over IPv6 with its destination port, or IPv4 (R412). -/
inductive Encap
  | ether (typ : BitVec 16) (src : BitVec 48)
  | udp6 (dport : BitVec 16) (src : BitVec 128) (sport : BitVec 16)
  | ipv4
deriving DecidableEq, Repr

/-- A frame at the host port: its encapsulation, its length, whether its check sequence is good, and the bytes of its
messages (R412, R413). -/
structure Frame where
  encap : Encap
  len   : Nat
  good  : Bool
  data  : List Byte
deriving DecidableEq, Repr

/-- A 64-byte command entry and the queue it was consumed from (R422). -/
structure Cmd where
  queue : Nat
  w0 : Word
  w1 : Word
  w2 : Word
  w3 : Word
  w4 : Word
  w5 : Word
  w6 : Word
  w7 : Word
deriving DecidableEq, Repr

/-- A lighthouse request: the asking core, its tag and its argument (R448). -/
structure LhReq where
  core : Nat
  tag  : BitVec 8
  arg  : BitVec 40
  /-- its core has restarted since it was sent: the answer is discarded (R448, R486) -/
  mute : Bool := false
deriving DecidableEq, Repr

/-- A request of another package to a tensor homed here (R469): the frame word it names, the byte offset in the frame,
and what it asks: bytes to read, or bytes to write, or an atomic. -/
structure PeerReq where
  pkg    : Nat
  ctx    : Nat
  tens   : Nat
  tile   : Nat
  frame  : Word
  off    : Nat
  /-- bytes to read; 0 for a write or an atomic -/
  nread  : Nat
  /-- bytes to write; empty for a read -/
  data   : List Byte
  /-- 0 plain; 1 + the AMO operation of R194; 10 FADDW; 11 CAS, whose bytes are the expected value and the new one; 12 and 13 a
  write of the low and the high 4-bit element of a byte. A plain request that reads and writes nothing asks for the entry. -/
  atomic : Nat
deriving DecidableEq, Repr

/-- A partial result of another package for a collective round (R473, R494): the parameters and, per rank of that
package, its contribution. -/
structure CollMsg where
  pkg   : Nat
  gid   : BitVec 16
  round : BitVec 32
  kind  : BitVec 3
  op    : BitVec 3
  fmt   : BitVec 2
  count : Nat
  nmemb : Nat
  root  : Nat
  parts : List (Nat × List Word)
deriving DecidableEq, Repr

/-- One step of the machine: an instruction word or an event, one constructor per row of spec/opcode_table.json. -/
inductive Instr where
  -- the common block and control transfer (R167, R168, R198 to R202, R215)
  | waitc (n : BitVec 32)
  | endw
  | alignf
  | start
  | slack (n : BitVec 16)
  | turn (n : BitVec 16)
  | nop
  | jmp (off : BitVec 32)
  | loop (lvl : BitVec 3) (off : BitVec 12) (n : BitVec 32)
  | call (a : BitVec 6) (off : BitVec 32)
  | ret (a : BitVec 6)
  | br (a b : BitVec 6) (cnd : BitVec 3) (off : BitVec 32)
  | brt (a : BitVec 6) (cnd : BitVec 3) (toff joff : BitVec 12) (jdist : BitVec 14)
  | trap (code : BitVec 16)
  | rett
  -- integer register forms (R184, R185)
  | add (d a b : BitVec 6)
  | sub (d a b : BitVec 6)
  | mul (d a b : BitVec 6)
  | mulh (d a b : BitVec 6)
  | mulhu (d a b : BitVec 6)
  | div (d a b : BitVec 6)
  | divu (d a b : BitVec 6)
  | rem (d a b : BitVec 6)
  | remu (d a b : BitVec 6)
  | and (d a b : BitVec 6)
  | or (d a b : BitVec 6)
  | xor (d a b : BitVec 6)
  | andn (d a b : BitVec 6)
  | sll (d a b : BitVec 6)
  | srl (d a b : BitVec 6)
  | sra (d a b : BitVec 6)
  | ror (d a b : BitVec 6)
  | min (d a b : BitVec 6)
  | max (d a b : BitVec 6)
  | minu (d a b : BitVec 6)
  | maxu (d a b : BitVec 6)
  | slt (d a b : BitVec 6)
  | sltu (d a b : BitVec 6)
  | clz (d a : BitVec 6)
  | ctz (d a : BitVec 6)
  | popc (d a : BitVec 6)
  -- immediate forms (R186, R187)
  | addi (d a : BitVec 6) (imm : BitVec 32)
  | andi (d a : BitVec 6) (imm : BitVec 32)
  | ori (d a : BitVec 6) (imm : BitVec 32)
  | xori (d a : BitVec 6) (imm : BitVec 32)
  | slli (d a : BitVec 6) (sh : BitVec 6)
  | srli (d a : BitVec 6) (sh : BitVec 6)
  | srai (d a : BitVec 6) (sh : BitVec 6)
  | rori (d a : BitVec 6) (sh : BitVec 6)
  | slti (d a : BitVec 6) (imm : BitVec 32)
  | sltiu (d a : BitVec 6) (imm : BitVec 32)
  | muli (d a : BitVec 6) (imm : BitVec 32)
  | li (d : BitVec 6) (hi : BitVec 1) (imm : BitVec 40)
  | lih (d : BitVec 6) (imm : BitVec 40)
  -- tensor addresses (R188 to R190)
  | tamk (d a b : BitVec 6)
  | tcoord (d a b : BitVec 6) (dim : BitVec 3)
  | tdim (d a : BitVec 6) (sel : BitVec 7)
  -- scalar access and atomics (R191 to R197)
  | ld (d a : BitVec 6) (sub : BitVec 3) (imm : BitVec 32)
  | st (d a : BitVec 6) (sz : BitVec 2) (imm : BitVec 32)
  | ldAcq (d a : BitVec 6) (sub : BitVec 3) (imm : BitVec 32)
  | stRel (d a : BitVec 6) (sz : BitVec 2) (imm : BitVec 32)
  | amo (d a b : BitVec 6) (op : BitVec 4) (use : BitVec 3) (w : BitVec 1)
  | cas (d a b c : BitVec 6) (f : BitVec 6) (use : BitVec 3) (w : BitVec 1)
  | faddw (a b : BitVec 6)
  | faddr (d a : BitVec 6)
  -- phases, fences, barriers, tokens (R203 to R209, R216)
  | phase (a : BitVec 6) (scope : BitVec 3)
  | fence (scope : BitVec 3)
  | bar (d a b : BitVec 6) (wait : BitVec 1)
  | tokw (k1 k2 k3 : BitVec 5)
  | synci
  -- queues, engines, format queue (R210 to R212)
  | qpush (q : BitVec 4) (a : BitVec 6)
  | qpop (q : BitVec 4) (d a : BitVec 6)
  | qpeek (q : BitVec 4) (d a : BitVec 6)
  | qcnt (q : BitVec 4) (d : BitVec 6)
  | engJoin (d : BitVec 6) (k : Toks)
  | engTload (d a b : BitVec 6) (k : Toks)
  | engTcopy (d a b : BitVec 6) (k : Toks)
  | engTstore (d a b : BitVec 6) (k : Toks)
  | engTfill (d a b : BitVec 6) (k : Toks)
  | fpush (a : BitVec 6)
  -- time, CSRs, the management row (R213, R214, R351, R352)
  | rdtide (d : BitVec 6) (fn : BitVec 2)
  | csrr (d : BitVec 6) (csr : BitVec 12)
  | csrw (csr : BitVec 12) (a : BitVec 6)
  | pcsrr (d : BitVec 6) (site : BitVec 8) (reg : BitVec 12)
  | pcsrw (site : BitVec 8) (reg : BitVec 12) (a : BitVec 6)
  | registerWrite (core : Nat) (site : BitVec 8) (reg : BitVec 12) (v : Word)
  | mboxs (d a b : BitVec 6)
  | mboxr (d : BitVec 6)
  | mwait (n : BitVec 32)
  -- L/W words (R219 to R244)
  | brq (q : BitVec 4) (cnd : BitVec 3) (off : BitVec 32)
  | dset (ds : BitVec 3) (a : BitVec 6) (w : BitVec 3) (k : Toks)
  | dclr (ds : BitVec 3) (k : Toks)
  | dld (ds : BitVec 3) (a : BitVec 6) (k : Toks)
  | rdq (ds : BitVec 3) (q : BitVec 4) (k : Toks)
  | rds (ds : BitVec 3) (a : BitVec 6) (k : Toks)
  | wrq (ds : BitVec 3) (q : BitVec 4) (k : Toks)
  | wrs (ds : BitVec 3) (a : BitVec 6) (k : Toks)
  | cpy (ds dt : BitVec 3) (k : Toks)
  | gath (ds : BitVec 3) (q : BitVec 4) (a b : BitVec 6) (xf : BitVec 8) (k : Toks)
  | scat (ds : BitVec 3) (q : BitVec 4) (a b : BitVec 6) (xf : BitVec 8) (k : Toks)
  | pref (ds : BitVec 3) (k : Toks)
  | push (q : BitVec 4) (ch : BitVec 8) (k : Toks)
  | pushR (a : BitVec 6) (ch : BitVec 8) (k : Toks)
  | movq (qd qs : BitVec 4) (k : Toks)
  | arrv (a b : BitVec 6) (k : Toks)
  | bwait (a b : BitVec 6) (k : Toks)
  -- collectives (R342 to R349)
  | collAr (ds dt : BitVec 3) (op : BitVec 3) (fmt : BitVec 2) (a : BitVec 6) (k : Toks)
  | collRs (ds dt : BitVec 3) (op : BitVec 3) (fmt : BitVec 2) (a : BitVec 6) (k : Toks)
  | collAg (ds dt : BitVec 3) (fmt : BitVec 2) (a : BitVec 6) (k : Toks)
  | collBc (ds dt : BitVec 3) (fmt : BitVec 2) (a b : BitVec 6) (k : Toks)
  | collAa (ds dt : BitVec 3) (fmt : BitVec 2) (a : BitVec 6) (k : Toks)
  | collAb (a : BitVec 6) (k : Toks)
  -- MX commands (R246 to R266)
  | mload (t : BitVec 3) (x : Stamp)
  | msel (mask : BitVec 8) (x : Stamp)
  | mma (q : BitVec 3) (x : Stamp)
  | mmas (q : BitVec 3) (x : Stamp)
  | zclr (mask : BitVec 8) (x : Stamp)
  | zrd (q t : BitVec 3) (s : BitVec 5) (x : Stamp)
  | zrdB16 (q t : BitVec 3) (s : BitVec 5) (x : Stamp)
  | zwr (q t : BitVec 3) (s : BitVec 5) (x : Stamp)
  | zpush (t : BitVec 3) (ch : BitVec 8) (x : Stamp)
  | zpushB16 (t : BitVec 3) (ch : BitVec 8) (x : Stamp)
  -- VN words (R269 to R301)
  | vadd (f : VecF)
  | vsub (f : VecF)
  | vmul (f : VecF)
  | vfma (f : VecF)
  | vfms (f : VecF)
  | vdiv (f : VecF)
  | vsqrt (f : VecF)
  | vmin (f : VecF)
  | vmax (f : VecF)
  | vabs (f : VecF)
  | vneg (f : VecF)
  | vcmpeq (f : VecF)
  | vcmpne (f : VecF)
  | vcmplt (f : VecF)
  | vcmple (f : VecF)
  | vsel (f : VecF)
  | vand (f : VecF)
  | vor (f : VecF)
  | vxor (f : VecF)
  | vnot (f : VecF)
  | vshl (f : VecF)
  | vshr (f : VecF)
  | vsra (f : VecF)
  | viadd (f : VecF)
  | visub (f : VecF)
  | vimul (f : VecF)
  | vimin (f : VecF)
  | vimax (f : VecF)
  | vcvt (f : VecF)
  | vrcp (f : VecF)
  | vrsqrt (f : VecF)
  | vexp2 (f : VecF)
  | vlog2 (f : VecF)
  | vtanh (f : VecF)
  | vsigm (f : VecF)
  | vsin (f : VecF)
  | vcos (f : VecF)
  | vredsum (f : VecF)
  | vredmax (f : VecF)
  | vredmin (f : VecF)
  | vperm (f : VecF)
  | vbcast (f : VecF)
  | vrot (f : VecF)
  | vmov (f : VecF)
  | vld (d a : BitVec 6) (imm : BitVec 32)
  | vst (d a : BitVec 6) (imm : BitVec 32)
  | vidx (f : VecF)
  | vli (d : BitVec 6) (t : BitVec 3) (imm : BitVec 32)
  | dot16 (f : VecF)
  | vquant (f : VecF)
  | vdeq (f : VecF)
  | vnmean (f : VecF)
  | vnvar (f : VecF)
  | vnapply (f : VecF)
  | vmset (f : VecF)
  | vmand (f : VecF)
  | vmor (f : VecF)
  | vmnot (f : VecF)
  | vmcnt (f : VecF)
  -- GS words (R304 to R325); queue fields hold q8 to q15 as 0 to 7 or q0 to q7, register fields a0 to a15
  | gsetBlock (a : BitVec 4) (k : Toks)
  | gsetBatch (a : BitVec 4) (k : Toks)
  | gsetWalk (a : BitVec 4) (k : Toks)
  | gsetBar (a : BitVec 4) (k : Toks)
  | gload (a b : BitVec 4) (k : Toks)
  | grule (a : BitVec 4) (k : Toks)
  | grow (q : BitVec 3) (a b : BitVec 4) (mk : BitVec 1) (k : Toks)
  | gseg (q qs : BitVec 3) (b : BitVec 4) (mk : BitVec 1) (k : Toks)
  | gscat (qs : BitVec 3) (a b : BitVec 4) (k : Toks)
  | walk (q : BitVec 3) (a b : BitVec 4) (mk : BitVec 1) (k : Toks)
  | sample (q : BitVec 3) (a b : BitVec 4) (mk : BitVec 1) (k : Toks)
  | gidx (d : BitVec 6) (a b : BitVec 4)
  | gidxBd (d : BitVec 6) (a b c : BitVec 4)
  | gmov (f : VecF)
  | gvadd (f : VecF)
  | gvmul (f : VecF)
  | gvfma (f : VecF)
  | gvcvt (f : VecF)
  | gvld (d a : BitVec 6) (imm : BitVec 32)
  | gvst (d a : BitVec 6) (imm : BitVec 32)
  -- ST words (R329 to R338)
  | bld (q : BitVec 3) (a b : BitVec 4) (mk : BitVec 1) (k : Toks)
  | bst (qs : BitVec 3) (a b : BitVec 4) (k : Toks)
  | bfill (a b : BitVec 4) (k : Toks)
  | bcpy (a b : BitVec 4) (k : Toks)
  | bamo (qs : BitVec 3) (a b : BitVec 4) (op : BitVec 4) (d64 : BitVec 1) (k : Toks)
  | bred (q : BitVec 3) (a b : BitVec 4) (op : BitVec 3) (k : Toks)
  | vfpush (a : BitVec 6)
  | vfpushn (d a : BitVec 6)
  | vfpop (d : BitVec 6)
  | vfcnt (d : BitVec 6) (p : BitVec 1)
  | svadd (f : VecF)
  | svfma (f : VecF)
  -- events of a running region (R41 to R53, R121, R225, R253 to R263, R339)
  | predecode (key : Nat) (q : Seq)
  | regionFreeze (h : Nat)
  | stallRelease (key : Nat) (q : Seq)
  | regionStallResume (h : Nat)
  | stallTimeout (h : Nat)
  | startWaitTimeout (h : Nat)
  | queueWaitTimeout (op : Nat)
  | fifoWaitTimeout (key : Nat)
  | resultLanding (key : Nat)
  | pushDelivery (key : Nat)
  | mmaRowTake (key : Nat)
  | mmaRowLanding (key : Nat)
  | mloadLanding (key : Nat)
  | stripEntryLanding (key : Nat)
  | fifoTransit (key : Nat)
  | engineOpComplete (op : Nat)
  | memoryRequestApply (req : Nat)
  | memoryResponse (req : Nat)
  | atomicErrorResponse (req : Nat) (applied : Bool)
  | atomicTimeout (req : Nat)
  | phaseEnd (key : Nat)
  | taskDispatch (h : Nat) (ldie : Nat)
  | taskStart (key : Nat)
  | taskEnd (key : Nat)
  | planRetire (h : Nat)
  | planeSwap (h : Nat)
  | regionStop (h : Nat)
  | stubResume (h : Nat)
  | debugRequest (h ldie row col : Nat)
  | yieldRequest (h : Nat)
  | slackSave (h : Nat)
  | elasticYieldSave (h : Nat)
  | slackDistance (h : Nat)
  | forcedSave (h : Nat)
  | slackResume (h : Nat)
  | phyLinkLoss (site : BitVec 8) (module : Nat)
  -- the host port and command queues (R412 to R424)
  | hello (m : HostHdr) (w0 w1 : Word)
  | regwrQtail (m : HostHdr) (v : Word)
  | regwrQctlStop (m : HostHdr) (v : Word)
  | regwrQctlErr (m : HostHdr) (v : Word)
  | regwrQprog (m : HostHdr) (v : Word)
  | regrd (m : HostHdr) (reg : BitVec 8)
  | memwr (m : HostHdr) (taddr : Word) (data : List Byte)
  | memrd (m : HostHdr) (taddr : Word) (count : Word)
  | resp (conn : Nat) (rseq : BitVec 32) (status : BitVec 8) (value : Word)
  | event (queue : Nat) (w0 w1 : Word)
  | ack (m : HostHdr) (bitmap : List Bool)
  | ackTimer (conn : Nat)
  | messageResend (conn : Nat) (seq : BitVec 32)
  | commandConsume (queue : Nat)
  | nopCommand (c : Cmd)
  | launch (c : Cmd)
  | resume (c : Cmd)
  | endCommand (c : Cmd)
  | yield (c : Cmd)
  | debug (c : Cmd)
  | prio (c : Cmd)
  | qcreate (c : Cmd)
  | qdestroy (c : Cmd)
  | ccreate (c : Cmd)
  | cdestroy (c : Cmd)
  | queueSwitchIn (queue : Nat)
  | queueSwitchOut (queue : Nat)
  -- the region scheduler (R429 to R432) and leases (R441, R442)
  | regionDispatch (h : Nat)
  | ageStep (h : Nat)
  | quantumExpiry (h : Nat)
  | leaseAcquire (h : Nat)
  | rfe1Read
  | rfackRetry (h : Nat)
  | rfackFail (h : Nat)
  -- tile operations (R439), migration (R444, R445)
  | tileRead
  | map
  | mapz
  | discard
  | reclaim
  | unmap
  | migrate
  | fwdclr
  | install
  | remove
  | migrationSectorCopy (i : Nat)
  | switchover (i : Nat)
  -- other packages (R465 to R472)
  | staleFrame (req : Nat)
  | peerInvalidation (pkg : Nat) (frame : Word)
  | invalidationAck (pkg : Nat) (frame : Word)
  | fwdinvSelect (v : Word)
  | peerPinRequest (pkg ctx tens first count : Nat) (kind : BitVec 2)
  | peerLeaseTimeout (h : Nat)
  | peerRequest (r : PeerReq)
  | peerAccessTimeout (req : Nat)
  -- stratum roles and gates (R340, R446), mailboxes (R353, R448)
  | roleChangeStart (v : Word)
  | roleChangeAbort
  | roleDrainDone
  | gateRequest (core stratum : Nat)
  | gateApply (stratum : Nat)
  | deviceEventDeliver
  | lighthouseAnswerDeliver
  -- lighthouse requests (R448 to R461)
  | markfail (r : LhReq)
  | clearfail (r : LhReq)
  | grant (r : LhReq)
  | hbeat (r : LhReq)
  | margin (r : LhReq)
  | retrain (r : LhReq)
  | setboot (r : LhReq)
  | quote (r : LhReq)
  | heartbeatTimeout
  | forcedLevelTimeout
  | relockEnd
  | powerOnReset
  | moduleTrain (site : BitVec 8) (module : Nat) (ok : Bool)
  | coreTrap (core : Nat) (code arg : BitVec 16)
  | coreRestart
  | harbourRollback
  | clockStretch
  | overcurrent (rail : Nat)
  | thermalTrip (site : BitVec 8) (i j : Nat × BitVec 10)
  | sensorEvaluation (readings : List (Nat × List (BitVec 10)))
  | wlimEvaluation (base : Nat) (t0 t1 : Option (BitVec 10))
  | hoteRead (base : Nat)
  | ebbDue
  | ebbYield
  | ebb (measures : List (Nat × List (BitVec 32)))
  | pkgidWrite (v : Word)
  | reachLinkDown (link : Nat)
  -- collectives' events (R348, R349, R474, R494)
  | collPartial (m : CollMsg)
  | collAbort (pkg : Nat) (gid : BitVec 16) (round : BitVec 32)
  | collRoundTimeout (op : Nat)
  | collRoundEnd (op : Nat)
  | heldMessageDiscard
  | pcsrrTimeout (core : Nat)
  | unassignedOpcode (w : Word)
  | claexFrameDrop (f : Frame)
  | hostPortLinkChange (up : Bool)
  | packagePowerLoss
  | mwaitTimeout (core : Nat)
deriving DecidableEq, Repr

end Sys2Proof
end

