-- ==== Sys2Proof/Machine/Fields.lean ====
section
/-! DEFINITION. The rules on field values that are part of every encoding (R159 to R165): operand kinds by space,
lane types, rounding fields, peek bits, uses and scopes. A word that breaks one is refused by the decoder. -/

namespace Sys2Proof.Machine

/-- What a 6-bit register field names (R160, Table 3). -/
inductive Opd
  | v (n : Nat)
  | q (n : Nat)
  | a (n : Nat)
  | bad
deriving DecidableEq, Repr

/-- R160: the register field of a C space. MX words have no register fields. -/
def opd (sp : Space) (f : BitVec 6) : Opd :=
  let n := f.toNat
  if n < 16 then .v n
  else if n < 32 then (if sp = .vn then .v n else .bad)
  else if n < 48 then .q (n - 32)
  else .a (n - 48)

/-- A source in a vector position: a vector register, q8 to q15, or a0 to a15 broadcast (R161, R272). -/
def vecSrc (sp : Space) (f : BitVec 6) : Bool :=
  match opd sp f with
  | .v _ => true
  | .q n => decide (8 ≤ n)
  | .a _ => true
  | .bad => false

/-- A source that is a vector register or q8 to q15. -/
def vecSrcNoA (sp : Space) (f : BitVec 6) : Bool :=
  match opd sp f with
  | .v _ => true
  | .q n => decide (8 ≤ n)
  | _ => false

/-- A destination in a vector position: a vector register or q8 to q15 (R160, R161). -/
def vecDst (sp : Space) (f : BitVec 6) : Bool := vecSrcNoA sp f

/-- A 64-bit position: q0 to q7. -/
def queue64 (sp : Space) (f : BitVec 6) : Bool :=
  match opd sp f with
  | .q n => decide (n < 8)
  | _ => false

/-- A field that must name a0 to a15. -/
def isA (f : BitVec 6) : Bool := decide (48 ≤ f.toNat)

/-- R161: a peek bit is legal only for a field that names a queue. -/
def peekOk (sp : Space) (f : VecF) : Bool :=
  let isQ (x : BitVec 6) := match opd sp x with | .q _ => true | _ => false
  (!f.peek.getLsbD 0 || isQ f.a) && (!f.peek.getLsbD 1 || isQ f.b) && (!f.peek.getLsbD 2 || isQ f.c)

/-- Lane types: R269, Table 1. -/
def isFloatT (t : BitVec 3) : Bool := decide (t.toNat < 2)
def isFp8T (t : BitVec 3) : Bool := decide (t.toNat = 2 ∨ t.toNat = 3)
def isIntT (t : BitVec 3) : Bool := decide (4 ≤ t.toNat ∧ t.toNat ≤ 6)
def anyT (t : BitVec 3) : Bool := decide (t.toNat ≠ 7)

/-- What the entry of a lane instruction allows (R271, R275 Table 3, R302). -/
structure LaneRule where
  tOk   : Bool
  nsrc  : Nat
  rm    : Bool := false
  zm    : Bool := true
  sub   : Bool := false
  part  : Bool := false
  sat   : Bool := false
  u     : Bool := false
  mask  : Bool := true
deriving DecidableEq, Repr

/-- R159, R271: every field that the instruction does not use is 0. -/
def laneFields (r : LaneRule) (f : VecF) : Bool :=
  r.tOk && (r.rm || f.rm == 0) && (r.zm || f.zm == 0) && (r.sub || f.sub == 0) && (r.part || f.part == 0)
    && (r.sat || f.sat == 0) && (r.u || f.u == 0) && (r.mask || f.msk == 0)
    && (decide (1 ≤ r.nsrc) || f.a == 0) && (decide (2 ≤ r.nsrc) || f.b == 0) && (decide (3 ≤ r.nsrc) || f.c == 0)

/-- The sources of a lane instruction with n vector sources. -/
def laneSrcs (sp : Space) (n : Nat) (f : VecF) : Bool :=
  vecSrc sp f.a && (decide (n < 2) || vecSrc sp f.b) && (decide (n < 3) || vecSrc sp f.c) && peekOk sp f

/-- A lanewise instruction with vector sources and destination in a space; the GS and ST spaces have no masks, so SEL
and ZM are 0 there (R324, R336). -/
def laneOk (sp : Space) (r : LaneRule) (f : VecF) : Bool :=
  let r' := if sp = .vn then r else { r with zm := false, mask := false }
  laneFields r' f && laneSrcs sp r.nsrc f && vecDst sp f.d

/-- A float lanewise instruction of n sources, with or without a rounding field. -/
def floatOk (sp : Space) (n : Nat) (rm : Bool) (f : VecF) : Bool :=
  laneOk sp { tOk := isFloatT f.t, nsrc := n, rm := rm } f

/-- A mask destination: m1 to m7 (R270). -/
def maskDst (f : BitVec 6) : Bool := decide (1 ≤ f.toNat ∧ f.toNat < 8)

/-- A mask source: m0 to m7. -/
def maskSrc (f : BitVec 6) : Bool := decide (f.toNat < 8)

/-- R278. -/
def cmpOk (f : VecF) : Bool :=
  laneFields { tOk := anyT f.t, nsrc := 2, zm := false, u := isIntT f.t } f && laneSrcs .vn 2 f && maskDst f.d

/-- R282: SAT and U of the integer lane arithmetic. -/
def intArithOk (f : VecF) : Bool :=
  laneOk .vn { tOk := isIntT f.t, nsrc := 2, sat := true, u := f.sat == 1 } f

/-- R283: lane counts and the settings of VCVT. -/
def lanesOf (bits : Nat) (t : BitVec 3) : Nat :=
  match t.toNat with
  | 0 | 4 => bits / 32
  | 1 | 5 => bits / 16
  | _ => bits / 8

def cvtOk (sp : Space) (f : VecF) : Bool :=
  let ts : BitVec 3 := f.sub.extractLsb' 0 3
  let ns := lanesOf 2048 ts
  let nd := lanesOf 2048 f.t
  let r := Nat.max ns nd / Nat.min ns nd
  laneOk sp
    { tOk := anyT f.t && anyT ts && !f.sub.getLsbD 3, nsrc := 1, rm := true, sub := true, part := true,
      sat := decide (f.t.toNat = 3) || (isIntT f.t && isIntT ts),
      u := isIntT f.t || isIntT ts } f
    && decide (f.part.toNat < r)

/-- R288. -/
def redOk (sum : Bool) (f : VecF) : Bool :=
  laneFields { tOk := isFloatT f.t || isIntT f.t, nsrc := 1, rm := sum && isFloatT f.t, zm := false, u := isIntT f.t } f
    && laneSrcs .vn 1 f && (vecDst .vn f.d || queue64 .vn f.d)

/-- R291: the three forms of VMOV and GMOV. -/
def movOk (sp : Space) (f : VecF) : Bool :=
  let masks := decide (sp = .vn)
  anyT f.t && f.sub == 0 && f.rm == 0 && f.part == 0 && f.sat == 0 && f.u == 0 && f.c == 0 && peekOk sp f
    && (masks || (f.msk == 0 && f.zm == 0))
    && ((vecDst sp f.d && vecSrc sp f.a && f.b == 0)
        || (queue64 sp f.d && vecSrcNoA sp f.a && isA f.b && f.msk == 0 && f.zm == 0)
        || (vecDst sp f.d && queue64 sp f.a && isA f.b))

/-- R294: DOT16 uses FN[2:0] for its formats. R273 lets it zero the excluded lanes. Log 20. -/
def dotOk (f : VecF) : Bool := laneOk .vn { tOk := true, nsrc := 2, rm := true } f

/-- R295. -/
def quantOk (f : VecF) : Bool :=
  laneOk .vn { tOk := isFloatT f.t, nsrc := 1, sub := decide (f.sub.toNat < 3), zm := false, mask := false } f

/-- R296. -/
def deqOk (f : VecF) : Bool :=
  laneOk .vn { tOk := isFloatT f.t, nsrc := 1, rm := true, sub := decide (f.sub.toNat < 3) } f

/-- R300. -/
def msetOk (f : VecF) : Bool :=
  laneFields { tOk := anyT f.t, nsrc := 1, zm := false, mask := false, sub := decide (f.sub.toNat < 3) } f
    && peekOk .vn f && maskDst f.d && (if f.sub.toNat = 2 then isA f.a else vecSrc .vn f.a)

/-- R301. -/
def mlogicOk (n : Nat) (f : VecF) : Bool :=
  laneFields { tOk := f.t == 0, nsrc := n, zm := false, mask := false } f && f.peek == 0
    && maskDst f.d && maskSrc f.a && maskSrc f.b

def mcntOk (f : VecF) : Bool :=
  laneFields { tOk := anyT f.t, nsrc := 1, zm := false, mask := false } f && f.peek == 0
    && maskSrc f.a && (vecDst .vn f.d || queue64 .vn f.d)

/-- R293: VLD, VST, GVLD, GVST: A names a0 to a15, D a vector register or q8 to q15. -/
def vmemOk (sp : Space) (d a : BitVec 6) : Bool := vecDst sp d && isA a

/-- R123, Table 10: the operations admitted for a use; operation 9 stands for CAS. -/
def useAdmits (use : Nat) (op : Nat) : Bool :=
  match use with
  | 0 => true
  | 1 => decide (op < 8)
  | 2 => decide (op = 8 ∨ op = 2 ∨ op = 1 ∨ op = 0 ∨ op = 9)
  | 3 => decide (op = 0)
  | 4 => decide (op = 9)
  | _ => false

/-- R190, Table 3. -/
def tdimSel (sel : BitVec 7) : Bool :=
  let n := sel.toNat
  decide (n ≤ 4 ∨ (8 ≤ n ∧ n ≤ 12) ∨ (16 ≤ n ∧ n ≤ 20))

/-- R345: the reduction operations admitted for a format. -/
def collOpOk (op : BitVec 3) (fmt : BitVec 2) : Bool :=
  match op.toNat with
  | 0 => true
  | 1 => decide (fmt.toNat < 2)
  | 2 => true
  | 3 => true
  | 4 => decide (2 ≤ fmt.toNat)
  | 5 => decide (2 ≤ fmt.toNat)
  | _ => false

/-- R158 to R165: the field rules of each word. Events carry no encoding and obey none. -/
def fieldsOk : Instr → Bool
  | .loop lvl _ n => decide (lvl.toNat < 4) && n != 0
  | .br _ _ cnd _ => decide (cnd.toNat < 6)
  | .brt _ cnd _ _ jdist => decide (cnd.toNat < 6) && jdist != 0
  | .tcoord _ _ _ dim => decide (dim.toNat < 5)
  | .tdim _ _ sel => tdimSel sel
  | .ld _ _ sub _ => sub != 7
  | .ldAcq _ _ sub _ => sub != 7
  | .amo d _ _ op use _ => decide (op.toNat < 9) && useAdmits use.toNat op.toNat && (use != 1 || d == 0)
  | .cas _ _ _ _ _ use _ => useAdmits use.toNat 9
  | .phase _ scope => decide (1 ≤ scope.toNat ∧ scope.toNat ≤ 3)
  | .fence scope => decide (scope.toNat < 5)
  | .qpop q d a => if q.toNat < 8 then a == 0 else d == 0
  | .qpeek q d a => if q.toNat < 8 then a == 0 else d == 0
  | .rdtide _ fn => decide (fn.toNat < 3)
  | .brq _ cnd _ => decide (cnd.toNat < 4)
  | .dset _ _ _ k => k.kd == 0
  | .dclr _ k => k.kd == 0
  | .dld _ _ k => k.kd == 0
  | .gath _ _ _ _ xf _ => decide (xf.extractLsb' 2 2 = (0 : BitVec 2) ∧ xf.extractLsb' 4 3 ≠ (7 : BitVec 3)) && !xf.getLsbD 7
  | .scat _ _ _ _ xf _ => decide (xf.extractLsb' 2 2 ≠ (3 : BitVec 2) ∧ xf.extractLsb' 4 3 ≠ (7 : BitVec 3)) && !xf.getLsbD 7
  | .push _ _ k => k.kd == 0
  | .pushR _ _ k => k.kd == 0
  | .movq _ _ k => k.kd == 0
  | .arrv _ _ k => k.kd == 0
  | .collAr _ _ op fmt _ _ => collOpOk op fmt
  | .collRs _ _ op fmt _ _ => collOpOk op fmt
  | .msel _ x => x.toks.kd == 0
  | .vadd f => floatOk .vn 2 true f
  | .vsub f => floatOk .vn 2 true f
  | .vmul f => floatOk .vn 2 true f
  | .vfma f => floatOk .vn 3 true f
  | .vfms f => floatOk .vn 3 true f
  | .vdiv f => floatOk .vn 2 true f
  | .vsqrt f => floatOk .vn 1 true f
  | .vmin f => floatOk .vn 2 false f
  | .vmax f => floatOk .vn 2 false f
  | .vabs f => floatOk .vn 1 false f
  | .vneg f => floatOk .vn 1 false f
  | .vcmpeq f => cmpOk f
  | .vcmpne f => cmpOk f
  | .vcmplt f => cmpOk f
  | .vcmple f => cmpOk f
  | .vsel f => laneOk .vn { tOk := anyT f.t, nsrc := 2, zm := false } f
  | .vand f => laneOk .vn { tOk := anyT f.t, nsrc := 2 } f
  | .vor f => laneOk .vn { tOk := anyT f.t, nsrc := 2 } f
  | .vxor f => laneOk .vn { tOk := anyT f.t, nsrc := 2 } f
  | .vnot f => laneOk .vn { tOk := anyT f.t, nsrc := 1 } f
  | .vshl f => laneOk .vn { tOk := isIntT f.t, nsrc := 2 } f
  | .vshr f => laneOk .vn { tOk := isIntT f.t, nsrc := 2 } f
  | .vsra f => laneOk .vn { tOk := isIntT f.t, nsrc := 2 } f
  | .viadd f => intArithOk f
  | .visub f => intArithOk f
  | .vimul f => intArithOk f
  | .vimin f => laneOk .vn { tOk := isIntT f.t, nsrc := 2, u := true } f
  | .vimax f => laneOk .vn { tOk := isIntT f.t, nsrc := 2, u := true } f
  | .vcvt f => cvtOk .vn f
  | .vrcp f => floatOk .vn 1 true f
  | .vrsqrt f => floatOk .vn 1 true f
  | .vexp2 f => floatOk .vn 1 true f
  | .vlog2 f => floatOk .vn 1 true f
  | .vtanh f => floatOk .vn 1 false f
  | .vsigm f => floatOk .vn 1 false f
  | .vsin f => floatOk .vn 1 true f
  | .vcos f => floatOk .vn 1 true f
  | .vredsum f => redOk true f
  | .vredmax f => redOk false f
  | .vredmin f => redOk false f
  | .vperm f => laneOk .vn { tOk := anyT f.t, nsrc := 2 } f
  | .vbcast f => laneOk .vn { tOk := anyT f.t, nsrc := 2 } f && isA f.b
  | .vrot f => laneOk .vn { tOk := anyT f.t, nsrc := 2, sub := decide (f.sub.toNat < 2) } f && isA f.b
  | .vmov f => movOk .vn f
  | .vld d a _ => vmemOk .vn d a
  | .vst d a _ => vmemOk .vn d a
  | .vidx f => laneOk .vn { tOk := isIntT f.t, nsrc := 1 } f && isA f.a
  | .vli d t imm => vecDst .vn d && anyT t
      && (match t.toNat with
          | 1 | 5 => imm.extractLsb' 16 16 == (0 : BitVec 16)
          | 2 | 3 | 6 => imm.extractLsb' 8 24 == (0 : BitVec 24)
          | _ => true)
  | .dot16 f => dotOk f
  | .vquant f => quantOk f
  | .vdeq f => deqOk f
  | .vnmean f => laneOk .vn { tOk := isFloatT f.t, nsrc := 1, zm := false } f
  | .vnvar f => laneOk .vn { tOk := isFloatT f.t, nsrc := 2, zm := false } f
  | .vnapply f => laneOk .vn { tOk := isFloatT f.t, nsrc := 3 } f
  | .vmset f => msetOk f
  | .vmand f => mlogicOk 2 f
  | .vmor f => mlogicOk 2 f
  | .vmnot f => mlogicOk 1 f
  | .vmcnt f => mcntOk f
  | .gsetBlock _ k => k.kd == 0
  | .gsetBatch _ k => k.kd == 0
  | .gsetWalk _ k => k.kd == 0
  | .gsetBar _ k => k.kd == 0
  | .gseg q qs _ _ _ => q != qs
  | .gidx d _ _ => decide (d.toNat < 16) || queue64 .gs d
  | .gidxBd d _ _ _ => decide (d.toNat < 16) || queue64 .gs d
  | .gmov f => movOk .gs f
  | .gvadd f => floatOk .gs 2 true f
  | .gvmul f => floatOk .gs 2 true f
  | .gvfma f => floatOk .gs 3 true f
  | .gvcvt f => cvtOk .gs f
  | .gvld d a _ => vmemOk .gs d a
  | .gvst d a _ => vmemOk .gs d a
  | .bamo _ _ _ op d64 _ => decide (op.toNat < 9) && (op != 8 || d64 == 0)
  | .bred _ _ _ op _ => decide (op.toNat < 5)
  | .vfpush a => vecSrcNoA .st a
  | .vfpushn d a => vecSrcNoA .st a && (decide (d.toNat < 16) || queue64 .st d)
  | .vfpop d => vecDst .st d
  | .vfcnt d _ => decide (d.toNat < 16) || queue64 .st d
  | .svadd f => floatOk .st 2 true f
  | .svfma f => floatOk .st 3 true f
  | _ => true

end Sys2Proof.Machine
end

