-- ==== Sys2Proof/WellFormed.lean ====
section
/-! DEFINITION. Well-formed instructions: those whose field values R159 to R165 admit. -/

namespace Sys2Proof

/-- The field rules hold (R159 to R165); the rules are `Machine.fieldsOk`. -/
abbrev Instr.WellFormed (i : Instr) : Prop := Machine.fieldsOk i = true

end Sys2Proof
end

