-- ==== Sys2Proof/Decode.lean ====
section
/-! DEFINITION. The decoder of instruction words (R155 to R175), total on any word of any space, and the encoder,
written from the same encoding tables. -/

namespace Sys2Proof

/-- Why a word names no instruction (R165). -/
inductive Reject
  /-- OP is unassigned in the stream's space (R175) -/
  | unassigned
  /-- a field or code that must be 0 is not (R159) -/
  | mustBeZero
  /-- a field holds an illegal value (R160 to R164) -/
  | illegalField
deriving DecidableEq, Repr

/-! ## Fields of the word (R155, R158) -/

def idleOf (w : Word) : BitVec 10 := w.extractLsb' 54 10
def opOf (w : Word) : BitVec 7 := w.extractLsb' 47 7
/-- REG, IMM, ENGINE: D. BRANCH and JOIN: A. -/
def fD (w : Word) : BitVec 6 := w.extractLsb' 41 6
/-- REG, IMM, ENGINE: A. BRANCH: B. -/
def fA (w : Word) : BitVec 6 := w.extractLsb' 35 6
def fB (w : Word) : BitVec 6 := w.extractLsb' 29 6
def fC (w : Word) : BitVec 6 := w.extractLsb' 23 6
/-- FN of REG -/
def fFn (w : Word) : BitVec 7 := w.extractLsb' 16 7
/-- FN of ENGINE -/
def fFnE (w : Word) : BitVec 7 := w.extractLsb' 22 7
def fFl (w : Word) : BitVec 2 := w.extractLsb' 20 2
/-- SUB and CND of BRANCH -/
def fSub (w : Word) : BitVec 3 := w.extractLsb' 32 3
def fImm (w : Word) : BitVec 32 := w.extractLsb' 0 32
/-- PATTERN: DS, Q, A, B, XF -/
def fDs (w : Word) : BitVec 3 := w.extractLsb' 44 3
def fQ (w : Word) : BitVec 4 := w.extractLsb' 40 4
def fPa (w : Word) : BitVec 6 := w.extractLsb' 34 6
def fPb (w : Word) : BitVec 6 := w.extractLsb' 28 6
def fXf (w : Word) : BitVec 8 := w.extractLsb' 20 8
def fToks (w : Word) : Toks :=
  { kd := w.extractLsb' 15 5, k1 := w.extractLsb' 10 5, k2 := w.extractLsb' 5 5, k3 := w.extractLsb' 0 5 }
/-- STAMPED: OPS -/
def fOps (w : Word) : BitVec 11 := w.extractLsb' 36 11
def fStamp (w : Word) : Stamp := { stamp := w.extractLsb' 20 16, toks := fToks w }
def fVec (w : Word) : VecF :=
  { d := fD w, a := fA w, b := fB w, c := fC w, sub := w.extractLsb' 19 4, t := w.extractLsb' 16 3,
    rm := w.extractLsb' 14 2, msk := w.extractLsb' 11 3, peek := w.extractLsb' 5 3, zm := w.extractLsb' 4 1,
    part := w.extractLsb' 2 2, sat := w.extractLsb' 1 1, u := w.extractLsb' 0 1 }
/-- Bits lo to lo + n - 1 are 0. -/
def zeroBits (w : Word) (lo n : Nat) : Bool := w.extractLsb' lo n == 0

/-- The instruction, if the must-be-zero bits hold (R159). -/
def need (ok : Bool) (i : Instr) : Except Reject Instr := if ok then .ok i else .error .mustBeZero

/-- A field that must name a0 to a15 (R304, R329): its number. -/
def aReg (f : BitVec 6) : BitVec 4 := f.extractLsb' 0 4
def namesA (f : BitVec 6) : Bool := f.extractLsb' 4 2 == (3 : BitVec 2)
/-- A field that must name q8 to q15, or q0 to q7 (R304, R329). -/
def namesQ8 (f : BitVec 6) : Bool := f.extractLsb' 3 3 == (5 : BitVec 3)
def namesQ0 (f : BitVec 6) : Bool := f.extractLsb' 3 3 == (4 : BitVec 3)
def qLow (f : BitVec 6) : BitVec 3 := f.extractLsb' 0 3

/-- The instruction, if the fields hold legal values, else a refusal by name. -/
def legal (ok : Bool) (i : Instr) : Except Reject Instr := if ok then .ok i else .error .illegalField

/-! ## The common block, JMP and LOOP (R167, R168) -/

/-- None: OP is not in the common rows. -/
def decodeCommon (w : Word) : Option (Except Reject Instr) :=
  let nz := zeroBits w 32 15
  match (opOf w).toNat with
  | 0x01 => some (need nz (.waitc (fImm w)))
  | 0x02 => some (need (zeroBits w 0 47) .endw)
  | 0x03 => some (need (zeroBits w 0 47) .alignf)
  | 0x04 => some (need (zeroBits w 0 47) .start)
  | 0x05 => some (need (zeroBits w 16 31) (.slack (w.extractLsb' 0 16)))
  | 0x06 => some (need (zeroBits w 16 31) (.turn (w.extractLsb' 0 16)))
  | 0x07 => some (need (zeroBits w 0 47) .nop)
  | 0x08 => some (need (zeroBits w 32 15) (.jmp (fImm w)))
  | 0x09 => some (.ok (.loop (w.extractLsb' 44 3) (w.extractLsb' 32 12) (fImm w)))
  | _ => none

/-- The S space with the management row (R169, Table 6). -/
def decodeS (w : Word) : Except Reject Instr :=
  let d := fD w
  let a := fA w
  let b := fB w
  let g3 := zeroBits w 0 29
  let g2 := zeroBits w 0 35
  let im := zeroBits w 32 3
  let sh := zeroBits w 6 29
  match (opOf w).toNat with
  | 0x0A => need (zeroBits w 32 9) (.call d (fImm w))
  | 0x0B => need (zeroBits w 0 41) (.ret d)
  | 0x0C => .ok (.br d a (fSub w) (fImm w))
  | 0x0D => .ok (.brt d (w.extractLsb' 38 3) (w.extractLsb' 26 12) (w.extractLsb' 14 12) (w.extractLsb' 0 14))
  | 0x0E => need (zeroBits w 16 31) (.trap (w.extractLsb' 0 16))
  | 0x0F => need (zeroBits w 0 47) .rett
  | 0x10 => need g3 (.add d a b)
  | 0x11 => need g3 (.sub d a b)
  | 0x12 => need g3 (.mul d a b)
  | 0x13 => need g3 (.mulh d a b)
  | 0x14 => need g3 (.mulhu d a b)
  | 0x15 => need g3 (.div d a b)
  | 0x16 => need g3 (.divu d a b)
  | 0x17 => need g3 (.rem d a b)
  | 0x18 => need g3 (.remu d a b)
  | 0x19 => need g3 (.and d a b)
  | 0x1A => need g3 (.or d a b)
  | 0x1B => need g3 (.xor d a b)
  | 0x1C => need g3 (.andn d a b)
  | 0x1D => need g3 (.sll d a b)
  | 0x1E => need g3 (.srl d a b)
  | 0x1F => need g3 (.sra d a b)
  | 0x20 => need g3 (.ror d a b)
  | 0x21 => need g3 (.min d a b)
  | 0x22 => need g3 (.max d a b)
  | 0x23 => need g3 (.minu d a b)
  | 0x24 => need g3 (.maxu d a b)
  | 0x25 => need g3 (.slt d a b)
  | 0x26 => need g3 (.sltu d a b)
  | 0x27 => need g2 (.clz d a)
  | 0x28 => need g2 (.ctz d a)
  | 0x29 => need g2 (.popc d a)
  | 0x2A => need im (.addi d a (fImm w))
  | 0x2B => need im (.andi d a (fImm w))
  | 0x2C => need im (.ori d a (fImm w))
  | 0x2D => need im (.xori d a (fImm w))
  | 0x2E => need sh (.slli d a (w.extractLsb' 0 6))
  | 0x2F => need sh (.srli d a (w.extractLsb' 0 6))
  | 0x30 => need sh (.srai d a (w.extractLsb' 0 6))
  | 0x31 => need sh (.rori d a (w.extractLsb' 0 6))
  | 0x32 => need im (.slti d a (fImm w))
  | 0x33 => need im (.sltiu d a (fImm w))
  | 0x34 => need im (.muli d a (fImm w))
  | 0x35 => .ok (.li d (w.extractLsb' 40 1) (w.extractLsb' 0 40))
  | 0x36 => need (zeroBits w 40 1) (.lih d (w.extractLsb' 0 40))
  | 0x38 => need g3 (.tamk d a b)
  | 0x39 => need (zeroBits w 0 16 && zeroBits w 19 10) (.tcoord d a b (w.extractLsb' 16 3))
  | 0x3A => need (zeroBits w 0 16 && zeroBits w 23 12) (.tdim d a (fFn w))
  | 0x40 => .ok (.ld d a (fSub w) (fImm w))
  | 0x41 => need (zeroBits w 34 1) (.st d a (w.extractLsb' 32 2) (fImm w))
  | 0x42 => .ok (.ldAcq d a (fSub w) (fImm w))
  | 0x43 => need (zeroBits w 34 1) (.stRel d a (w.extractLsb' 32 2) (fImm w))
  | 0x44 => need (zeroBits w 1 7 && zeroBits w 11 5 && zeroBits w 20 9)
      (.amo d a b (w.extractLsb' 16 4) (w.extractLsb' 8 3) (w.extractLsb' 0 1))
  | 0x45 => need (zeroBits w 1 7 && zeroBits w 11 5 && zeroBits w 22 1)
      (.cas d a b (fC w) (w.extractLsb' 16 6) (w.extractLsb' 8 3) (w.extractLsb' 0 1))
  | 0x46 => need (g3 && zeroBits w 41 6) (.faddw a b)
  | 0x47 => need g2 (.faddr d a)
  | 0x48 => need (zeroBits w 0 11 && zeroBits w 14 21 && zeroBits w 41 6) (.phase a (w.extractLsb' 11 3))
  | 0x49 => need (zeroBits w 0 11 && zeroBits w 14 33) (.fence (w.extractLsb' 11 3))
  | 0x4A => need (zeroBits w 1 28) (.bar d a b (w.extractLsb' 0 1))
  | 0x4B => need (zeroBits w 15 32) (.tokw (w.extractLsb' 10 5) (w.extractLsb' 5 5) (w.extractLsb' 0 5))
  | 0x4C => need (zeroBits w 0 47) .synci
  | 0x50 => need (zeroBits w 0 16 && zeroBits w 20 15 && zeroBits w 41 6) (.qpush (w.extractLsb' 16 4) a)
  | 0x51 => need (zeroBits w 0 16 && zeroBits w 20 15) (.qpop (w.extractLsb' 16 4) d a)
  | 0x52 => need (zeroBits w 0 16 && zeroBits w 20 15) (.qpeek (w.extractLsb' 16 4) d a)
  | 0x53 => need (zeroBits w 0 16 && zeroBits w 20 21) (.qcnt (w.extractLsb' 16 4) d)
  | 0x54 =>
    if fFl w != 0 then .error .mustBeZero
    else match (fFnE w).toNat with
      | 1 => need (zeroBits w 29 12) (.engJoin d (fToks w))
      | 4 => .ok (.engTload d a b (fToks w))
      | 5 => .ok (.engTcopy d a b (fToks w))
      | 6 => .ok (.engTstore d a b (fToks w))
      | 8 => .ok (.engTfill d a b (fToks w))
      | _ => .error .illegalField
  | 0x55 => need (zeroBits w 0 35 && zeroBits w 41 6) (.fpush a)
  | 0x58 => need (zeroBits w 0 16 && zeroBits w 18 23) (.rdtide d (w.extractLsb' 16 2))
  | 0x59 => need (zeroBits w 12 29) (.csrr d (w.extractLsb' 0 12))
  | 0x5A => need (zeroBits w 12 23 && zeroBits w 41 6) (.csrw (w.extractLsb' 0 12) a)
  | 0x60 => need (zeroBits w 20 21) (.pcsrr d (w.extractLsb' 12 8) (w.extractLsb' 0 12))
  | 0x61 => need (zeroBits w 20 15 && zeroBits w 41 6) (.pcsrw (w.extractLsb' 12 8) (w.extractLsb' 0 12) a)
  | 0x62 => need g3 (.mboxs d a b)
  | 0x63 => need (zeroBits w 0 41) (.mboxr d)
  | 0x64 => need (zeroBits w 32 15) (.mwait (fImm w))
  | _ => .error .unassigned

/-- The L/W space (R170, Table 7; fields of R228 Table 3 and R345 Table 6). -/
def decodeLW (w : Word) : Except Reject Instr :=
  let ds := fDs w
  let q := fQ w
  let a := fPa w
  let b := fPb w
  let xf := fXf w
  let k := fToks w
  let zQ := zeroBits w 40 4
  let zA := zeroBits w 34 6
  let zB := zeroBits w 28 6
  let zX := zeroBits w 20 8
  match (opOf w).toNat with
  | 0x0A => need (zeroBits w 35 6 && zeroBits w 45 2) (.brq (w.extractLsb' 41 4) (fSub w) (fImm w))
  | 0x10 => need (zQ && zB && zeroBits w 23 5) (.dset ds a (w.extractLsb' 20 3) k)
  | 0x11 => need (zQ && zA && zB && zX) (.dclr ds k)
  | 0x12 => need (zQ && zB && zX) (.dld ds a k)
  | 0x13 => need (zA && zB && zX) (.rdq ds q k)
  | 0x14 => need (zQ && zB && zX) (.rds ds a k)
  | 0x15 => need (zA && zB && zX) (.wrq ds q k)
  | 0x16 => need (zQ && zB && zX) (.wrs ds a k)
  | 0x17 => need (zQ && zA && zB && zeroBits w 23 5) (.cpy ds (w.extractLsb' 20 3) k)
  | 0x18 => .ok (.gath ds q a b xf k)
  | 0x19 => .ok (.scat ds q a b xf k)
  | 0x1A => need (zQ && zA && zB && zX) (.pref ds k)
  | 0x1B =>
    if w.getLsbD 44 then need (zeroBits w 45 2 && zQ && zB) (.pushR a xf k)
    else need (zeroBits w 45 2 && zA && zB) (.push q xf k)
  | 0x1C => need (zeroBits w 44 3 && zA && zB && zeroBits w 24 4) (.movq (w.extractLsb' 20 4) q k)
  | 0x1D => need (zeroBits w 44 3 && zQ && zX) (.arrv a b k)
  | 0x1E => need (zeroBits w 44 3 && zQ && zX) (.bwait a b k)
  | 0x20 => need (zQ && zB) (.collAr ds (w.extractLsb' 20 3) (w.extractLsb' 23 3) (w.extractLsb' 26 2) a k)
  | 0x21 => need (zQ && zB) (.collRs ds (w.extractLsb' 20 3) (w.extractLsb' 23 3) (w.extractLsb' 26 2) a k)
  | 0x22 => need (zQ && zB && zeroBits w 23 3) (.collAg ds (w.extractLsb' 20 3) (w.extractLsb' 26 2) a k)
  | 0x23 => need (zQ && zeroBits w 23 3) (.collBc ds (w.extractLsb' 20 3) (w.extractLsb' 26 2) a b k)
  | 0x24 => need (zQ && zB && zeroBits w 23 3) (.collAa ds (w.extractLsb' 20 3) (w.extractLsb' 26 2) a k)
  | 0x25 => need (zeroBits w 44 3 && zQ && zB && zX) (.collAb a k)
  | _ => .error .unassigned

/-- The MX space (R171, Table 8; OPS subfields of R252 to R264). -/
def decodeMX (w : Word) : Except Reject Instr :=
  let x := fStamp w
  let o := fOps w
  match (opOf w).toNat with
  | 0x10 => need (zeroBits w 39 8) (.mload (o.extractLsb' 0 3) x)
  | 0x11 => need (zeroBits w 44 3) (.msel (o.extractLsb' 0 8) x)
  | 0x12 => need (zeroBits w 39 8) (.mma (o.extractLsb' 0 3) x)
  | 0x13 => need (zeroBits w 39 8) (.mmas (o.extractLsb' 0 3) x)
  | 0x14 => need (zeroBits w 44 3) (.zclr (o.extractLsb' 0 8) x)
  | 0x15 => .ok (.zrd (o.extractLsb' 8 3) (o.extractLsb' 5 3) (o.extractLsb' 0 5) x)
  | 0x16 => .ok (.zwr (o.extractLsb' 8 3) (o.extractLsb' 5 3) (o.extractLsb' 0 5) x)
  | 0x17 => .ok (.zpush (o.extractLsb' 8 3) (o.extractLsb' 0 8) x)
  | 0x18 => .ok (.zrdB16 (o.extractLsb' 8 3) (o.extractLsb' 5 3) (o.extractLsb' 0 5) x)
  | 0x19 => .ok (.zpushB16 (o.extractLsb' 8 3) (o.extractLsb' 0 8) x)
  | _ => .error .unassigned

/-- The VN space (R172, Table 9); USE is 0 in every word (R271). -/
def decodeVN (w : Word) : Except Reject Instr :=
  let f := fVec w
  let z := zeroBits w 8 3
  match (opOf w).toNat with
  | 0x10 => need z (.vadd f)
  | 0x11 => need z (.vsub f)
  | 0x12 => need z (.vmul f)
  | 0x13 => need z (.vfma f)
  | 0x14 => need z (.vfms f)
  | 0x15 => need z (.vdiv f)
  | 0x16 => need z (.vsqrt f)
  | 0x17 => need z (.vmin f)
  | 0x18 => need z (.vmax f)
  | 0x19 => need z (.vabs f)
  | 0x1A => need z (.vneg f)
  | 0x1B => need z (.vcmpeq f)
  | 0x1C => need z (.vcmpne f)
  | 0x1D => need z (.vcmplt f)
  | 0x1E => need z (.vcmple f)
  | 0x1F => need z (.vsel f)
  | 0x20 => need z (.vand f)
  | 0x21 => need z (.vor f)
  | 0x22 => need z (.vxor f)
  | 0x23 => need z (.vnot f)
  | 0x24 => need z (.vshl f)
  | 0x25 => need z (.vshr f)
  | 0x26 => need z (.vsra f)
  | 0x27 => need z (.viadd f)
  | 0x28 => need z (.visub f)
  | 0x29 => need z (.vimul f)
  | 0x2A => need z (.vimin f)
  | 0x2B => need z (.vimax f)
  | 0x2C => need z (.vcvt f)
  | 0x2D => need z (.vrcp f)
  | 0x2E => need z (.vrsqrt f)
  | 0x2F => need z (.vexp2 f)
  | 0x30 => need z (.vlog2 f)
  | 0x31 => need z (.vtanh f)
  | 0x32 => need z (.vsigm f)
  | 0x33 => need z (.vsin f)
  | 0x34 => need z (.vcos f)
  | 0x35 => need z (.vredsum f)
  | 0x36 => need z (.vredmax f)
  | 0x37 => need z (.vredmin f)
  | 0x38 => need z (.vperm f)
  | 0x39 => need z (.vbcast f)
  | 0x3A => need z (.vrot f)
  | 0x3B => need z (.vmov f)
  | 0x3C => need (zeroBits w 32 3) (.vld (fD w) (fA w) (fImm w))
  | 0x3D => need (zeroBits w 32 3) (.vst (fD w) (fA w) (fImm w))
  | 0x3E => need z (.vidx f)
  | 0x3F => need (zeroBits w 35 6) (.vli (fD w) (fSub w) (fImm w))
  | 0x40 => need z (.dot16 f)
  | 0x41 => need z (.vquant f)
  | 0x42 => need z (.vdeq f)
  | 0x43 => need z (.vnmean f)
  | 0x44 => need z (.vnvar f)
  | 0x45 => need z (.vnapply f)
  | 0x48 => need z (.vmset f)
  | 0x49 => need z (.vmand f)
  | 0x4A => need z (.vmor f)
  | 0x4B => need z (.vmnot f)
  | 0x4C => need z (.vmcnt f)
  | _ => .error .unassigned

/-- The GS space (R173, Table 10; fields of R304 Table 1 and R324, R325). -/
def decodeGS (w : Word) : Except Reject Instr :=
  let d := fD w
  let a := fA w
  let b := fB w
  let k := fToks w
  let f := fVec w
  let z := zeroBits w 8 3
  let mk : BitVec 1 := w.extractLsb' 20 1
  let zD := zeroBits w 41 6
  let zB := zeroBits w 29 6
  let zFn := zeroBits w 22 7
  let zFl := zeroBits w 20 2
  let zFl1 := zeroBits w 21 1
  match (opOf w).toNat with
  | 0x10 =>
    if !(zD && zB && zFl) then .error .mustBeZero
    else match (fFnE w).toNat with
      | 0 => legal (namesA a) (.gsetBlock (aReg a) k)
      | 1 => legal (namesA a) (.gsetBatch (aReg a) k)
      | 2 => legal (namesA a) (.gsetWalk (aReg a) k)
      | 3 => legal (namesA a) (.gsetBar (aReg a) k)
      | _ => .error .illegalField
  | 0x11 => legal (zD && zFn && zFl && namesA a && namesA b) (.gload (aReg a) (aReg b) k)
  | 0x12 => legal (zD && zB && zFn && zFl && namesA a) (.grule (aReg a) k)
  | 0x13 => legal (zFn && zFl1 && namesQ8 d && namesA a && namesA b) (.grow (qLow d) (aReg a) (aReg b) mk k)
  | 0x14 => legal (zFn && zFl1 && namesQ8 d && namesQ8 a && namesA b) (.gseg (qLow d) (qLow a) (aReg b) mk k)
  | 0x15 => legal (zFn && zFl && namesQ8 d && namesA a && namesA b) (.gscat (qLow d) (aReg a) (aReg b) k)
  | 0x16 => legal (zFn && zFl1 && namesQ0 d && namesA a && namesA b) (.walk (qLow d) (aReg a) (aReg b) mk k)
  | 0x17 => legal (zFn && zFl1 && namesQ0 d && namesA a && namesA b) (.sample (qLow d) (aReg a) (aReg b) mk k)
  | 0x18 =>
    if !zeroBits w 0 16 then .error .mustBeZero
    else match (fFn w).toNat with
      | 0 => legal (zeroBits w 23 6 && namesA a && namesA b) (.gidx d (aReg a) (aReg b))
      | 1 => legal (namesA a && namesA b && namesA (fC w)) (.gidxBd d (aReg a) (aReg b) (aReg (fC w)))
      | _ => .error .illegalField
  | 0x19 => need z (.gmov f)
  | 0x1A => need z (.gvadd f)
  | 0x1B => need z (.gvmul f)
  | 0x1C => need z (.gvfma f)
  | 0x1D => need z (.gvcvt f)
  | 0x1E => need (zeroBits w 32 3) (.gvld d a (fImm w))
  | 0x1F => need (zeroBits w 32 3) (.gvst d a (fImm w))
  | _ => .error .unassigned

/-- The ST space (R174, Table 11; fields of R329 Table 1 and R338 Table 3). -/
def decodeST (w : Word) : Except Reject Instr :=
  let d := fD w
  let a := fA w
  let b := fB w
  let k := fToks w
  let f := fVec w
  let z := zeroBits w 8 3
  let zD := zeroBits w 41 6
  let zFn := zeroBits w 22 7
  let zFl := zeroBits w 20 2
  let zFl1 := zeroBits w 21 1
  match (opOf w).toNat with
  | 0x10 => legal (zFn && zFl1 && namesQ8 d && namesA a && namesA b) (.bld (qLow d) (aReg a) (aReg b) (w.extractLsb' 20 1) k)
  | 0x11 => legal (zFn && zFl && namesQ8 d && namesA a && namesA b) (.bst (qLow d) (aReg a) (aReg b) k)
  | 0x12 => legal (zD && zFn && zFl && namesA a && namesA b) (.bfill (aReg a) (aReg b) k)
  | 0x13 => legal (zD && zFn && zFl && namesA a && namesA b) (.bcpy (aReg a) (aReg b) k)
  | 0x14 => legal (zeroBits w 26 3 && zFl1 && namesQ8 d && namesA a && namesA b)
      (.bamo (qLow d) (aReg a) (aReg b) (w.extractLsb' 22 4) (w.extractLsb' 20 1) k)
  | 0x15 => legal (zeroBits w 25 4 && zFl && namesQ0 d && namesA a && namesA b)
      (.bred (qLow d) (aReg a) (aReg b) (w.extractLsb' 22 3) k)
  | 0x18 => need (zeroBits w 0 35 && zD) (.vfpush a)
  | 0x19 => need (zeroBits w 0 35) (.vfpushn d a)
  | 0x1A => need (zeroBits w 0 41) (.vfpop d)
  | 0x1B => need (zeroBits w 0 16 && zeroBits w 17 24) (.vfcnt d (w.extractLsb' 16 1))
  | 0x1C => need z (.svadd f)
  | 0x1D => need z (.svfma f)
  | _ => .error .unassigned

/-- The opcode maps without the field rules. -/
def decodeRaw (sp : Space) (w : Word) : Except Reject Instr :=
  match decodeCommon w with
  | some r => r
  | none =>
    match sp with
    | .s => decodeS w
    | .lw => decodeLW w
    | .mx => decodeMX w
    | .vn => decodeVN w
    | .gs => decodeGS w
    | .st => decodeST w

/-- The instruction that a word names in a space, or why it names none (R157, R165). -/
def decode (sp : Space) (w : Word) : Except Reject Instr :=
  match decodeRaw sp w with
  | .ok i => if Machine.fieldsOk i then .ok i else .error .illegalField
  | .error r => .error r

/-- The spaces in the order of R169 to R174, for a word given without its stream. -/
def allSpaces : List Space := [.s, .lw, .mx, .vn, .gs, .st]

/-- The first space in which a word names an instruction, with that instruction. -/
def decodeAny (w : Word) : Option (Space × Instr) :=
  allSpaces.firstM fun sp => match decode sp w with
    | .ok i => some (sp, i)
    | .error _ => none

/-- The instruction that the decoder reads from a word numbered as the opcode table numbers it: one 64-bit word,
little-endian (R9), in the first space of R169 to R174 that assigns it. -/
def decodeTableWord (_nbits w : Nat) : Option Instr := (decodeAny (BitVec.ofNat 64 w)).map (·.2)

/-! ## The encoder -/

/-- The body formats of R158, Table 2, each packed behind its opcode. -/
def packG (op : BitVec 7) (d a b c : BitVec 6) (fn : BitVec 7) (rm : BitVec 2) (sel use : BitVec 3) (mod : BitVec 8) :
    BitVec 54 := op ++ d ++ a ++ b ++ c ++ fn ++ rm ++ sel ++ use ++ mod
def packI (op : BitVec 7) (d a : BitVec 6) (sub : BitVec 3) (imm : BitVec 32) : BitVec 54 := op ++ d ++ a ++ sub ++ imm
def packH (op : BitVec 7) (d : BitVec 6) (hi : BitVec 1) (imm : BitVec 40) : BitVec 54 := op ++ d ++ hi ++ imm
def packE (op : BitVec 7) (d a b : BitVec 6) (fn : BitVec 7) (fl : BitVec 2) (k : Toks) : BitVec 54 :=
  op ++ d ++ a ++ b ++ fn ++ fl ++ k.kd ++ k.k1 ++ k.k2 ++ k.k3
def packP (op : BitVec 7) (ds : BitVec 3) (q : BitVec 4) (a b : BitVec 6) (xf : BitVec 8) (k : Toks) : BitVec 54 :=
  op ++ ds ++ q ++ a ++ b ++ xf ++ k.kd ++ k.k1 ++ k.k2 ++ k.k3
def packT (op : BitVec 7) (ops : BitVec 11) (x : Stamp) : BitVec 54 :=
  op ++ ops ++ x.stamp ++ x.toks.kd ++ x.toks.k1 ++ x.toks.k2 ++ x.toks.k3
def packB (op : BitVec 7) (a b : BitVec 6) (cnd : BitVec 3) (off : BitVec 32) : BitVec 54 := op ++ a ++ b ++ cnd ++ off
def packJ (op : BitVec 7) (a : BitVec 6) (cnd : BitVec 3) (toff joff : BitVec 12) (jd : BitVec 14) : BitVec 54 :=
  op ++ a ++ cnd ++ toff ++ joff ++ jd
def packL (op : BitVec 7) (lvl : BitVec 3) (off : BitVec 12) (n : BitVec 32) : BitVec 54 := op ++ lvl ++ off ++ n
def packN (op : BitVec 7) (n : BitVec 32) : BitVec 54 := op ++ (0 : BitVec 15) ++ n
/-- Format REG as the lane instructions use it (R271, Table 2). -/
def packV (op : BitVec 7) (f : VecF) : BitVec 54 :=
  op ++ f.d ++ f.a ++ f.b ++ f.c ++ f.sub ++ f.t ++ f.rm ++ f.msk ++ (0 : BitVec 3) ++ f.peek ++ f.zm ++ f.part ++ f.sat
    ++ f.u
/-- The register field of a0 to a15, q8 to q15 and q0 to q7 in a C space (R160, Table 3). -/
def encA (n : BitVec 4) : BitVec 6 := (3 : BitVec 2) ++ n
def encQ8 (n : BitVec 3) : BitVec 6 := (5 : BitVec 3) ++ n
def encQ0 (n : BitVec 3) : BitVec 6 := (4 : BitVec 3) ++ n

/-- OP and body of an instruction word; none for an event. -/
def encodeBody : Instr → Option (BitVec 54)
  | .waitc n => some (packN 0x01 n)
  | .endw => some (packN 0x02 0)
  | .alignf => some (packN 0x03 0)
  | .start => some (packN 0x04 0)
  | .slack n => some (packN 0x05 ((0 : BitVec 16) ++ n))
  | .turn n => some (packN 0x06 ((0 : BitVec 16) ++ n))
  | .nop => some (packN 0x07 0)
  | .jmp off => some (packB 0x08 0 0 0 off)
  | .loop lvl off n => some (packL 0x09 lvl off n)
  | .call a off => some (packB 0x0A a 0 0 off)
  | .ret a => some (packB 0x0B a 0 0 0)
  | .br a b cnd off => some (packB 0x0C a b cnd off)
  | .brt a cnd toff joff jd => some (packJ 0x0D a cnd toff joff jd)
  | .trap n => some (packN 0x0E ((0 : BitVec 16) ++ n))
  | .rett => some (packN 0x0F 0)
  | .add d a b => some (packG 0x10 d a b 0 0 0 0 0 0)
  | .sub d a b => some (packG 0x11 d a b 0 0 0 0 0 0)
  | .mul d a b => some (packG 0x12 d a b 0 0 0 0 0 0)
  | .mulh d a b => some (packG 0x13 d a b 0 0 0 0 0 0)
  | .mulhu d a b => some (packG 0x14 d a b 0 0 0 0 0 0)
  | .div d a b => some (packG 0x15 d a b 0 0 0 0 0 0)
  | .divu d a b => some (packG 0x16 d a b 0 0 0 0 0 0)
  | .rem d a b => some (packG 0x17 d a b 0 0 0 0 0 0)
  | .remu d a b => some (packG 0x18 d a b 0 0 0 0 0 0)
  | .and d a b => some (packG 0x19 d a b 0 0 0 0 0 0)
  | .or d a b => some (packG 0x1A d a b 0 0 0 0 0 0)
  | .xor d a b => some (packG 0x1B d a b 0 0 0 0 0 0)
  | .andn d a b => some (packG 0x1C d a b 0 0 0 0 0 0)
  | .sll d a b => some (packG 0x1D d a b 0 0 0 0 0 0)
  | .srl d a b => some (packG 0x1E d a b 0 0 0 0 0 0)
  | .sra d a b => some (packG 0x1F d a b 0 0 0 0 0 0)
  | .ror d a b => some (packG 0x20 d a b 0 0 0 0 0 0)
  | .min d a b => some (packG 0x21 d a b 0 0 0 0 0 0)
  | .max d a b => some (packG 0x22 d a b 0 0 0 0 0 0)
  | .minu d a b => some (packG 0x23 d a b 0 0 0 0 0 0)
  | .maxu d a b => some (packG 0x24 d a b 0 0 0 0 0 0)
  | .slt d a b => some (packG 0x25 d a b 0 0 0 0 0 0)
  | .sltu d a b => some (packG 0x26 d a b 0 0 0 0 0 0)
  | .clz d a => some (packG 0x27 d a 0 0 0 0 0 0 0)
  | .ctz d a => some (packG 0x28 d a 0 0 0 0 0 0 0)
  | .popc d a => some (packG 0x29 d a 0 0 0 0 0 0 0)
  | .addi d a imm => some (packI 0x2A d a 0 imm)
  | .andi d a imm => some (packI 0x2B d a 0 imm)
  | .ori d a imm => some (packI 0x2C d a 0 imm)
  | .xori d a imm => some (packI 0x2D d a 0 imm)
  | .slli d a sh => some (packI 0x2E d a 0 ((0 : BitVec 26) ++ sh))
  | .srli d a sh => some (packI 0x2F d a 0 ((0 : BitVec 26) ++ sh))
  | .srai d a sh => some (packI 0x30 d a 0 ((0 : BitVec 26) ++ sh))
  | .rori d a sh => some (packI 0x31 d a 0 ((0 : BitVec 26) ++ sh))
  | .slti d a imm => some (packI 0x32 d a 0 imm)
  | .sltiu d a imm => some (packI 0x33 d a 0 imm)
  | .muli d a imm => some (packI 0x34 d a 0 imm)
  | .li d hi imm => some (packH 0x35 d hi imm)
  | .lih d imm => some (packH 0x36 d 0 imm)
  | .tamk d a b => some (packG 0x38 d a b 0 0 0 0 0 0)
  | .tcoord d a b dim => some (packG 0x39 d a b 0 ((0 : BitVec 4) ++ dim) 0 0 0 0)
  | .tdim d a sel => some (packG 0x3A d a 0 0 sel 0 0 0 0)
  | .ld d a sub imm => some (packI 0x40 d a sub imm)
  | .st d a sz imm => some (packI 0x41 d a ((0 : BitVec 1) ++ sz) imm)
  | .ldAcq d a sub imm => some (packI 0x42 d a sub imm)
  | .stRel d a sz imm => some (packI 0x43 d a ((0 : BitVec 1) ++ sz) imm)
  | .amo d a b op use w => some (packG 0x44 d a b 0 ((0 : BitVec 3) ++ op) 0 0 use ((0 : BitVec 7) ++ w))
  | .cas d a b c f use w => some (packG 0x45 d a b c ((0 : BitVec 1) ++ f) 0 0 use ((0 : BitVec 7) ++ w))
  | .faddw a b => some (packG 0x46 0 a b 0 0 0 0 0 0)
  | .faddr d a => some (packG 0x47 d a 0 0 0 0 0 0 0)
  | .phase a scope => some (packG 0x48 0 a 0 0 0 0 scope 0 0)
  | .fence scope => some (packG 0x49 0 0 0 0 0 0 scope 0 0)
  | .bar d a b wait => some (packG 0x4A d a b 0 0 0 0 0 ((0 : BitVec 7) ++ wait))
  | .tokw k1 k2 k3 => some (packE 0x4B 0 0 0 0 0 { kd := 0, k1 := k1, k2 := k2, k3 := k3 })
  | .synci => some (packN 0x4C 0)
  | .qpush q a => some (packG 0x50 0 a 0 0 ((0 : BitVec 3) ++ q) 0 0 0 0)
  | .qpop q d a => some (packG 0x51 d a 0 0 ((0 : BitVec 3) ++ q) 0 0 0 0)
  | .qpeek q d a => some (packG 0x52 d a 0 0 ((0 : BitVec 3) ++ q) 0 0 0 0)
  | .qcnt q d => some (packG 0x53 d 0 0 0 ((0 : BitVec 3) ++ q) 0 0 0 0)
  | .engJoin d k => some (packE 0x54 d 0 0 1 0 k)
  | .engTload d a b k => some (packE 0x54 d a b 4 0 k)
  | .engTcopy d a b k => some (packE 0x54 d a b 5 0 k)
  | .engTstore d a b k => some (packE 0x54 d a b 6 0 k)
  | .engTfill d a b k => some (packE 0x54 d a b 8 0 k)
  | .fpush a => some (packG 0x55 0 a 0 0 0 0 0 0 0)
  | .rdtide d fn => some (packG 0x58 d 0 0 0 ((0 : BitVec 5) ++ fn) 0 0 0 0)
  | .csrr d csr => some (packI 0x59 d 0 0 ((0 : BitVec 20) ++ csr))
  | .csrw csr a => some (packI 0x5A 0 a 0 ((0 : BitVec 20) ++ csr))
  | .pcsrr d site reg => some (packI 0x60 d 0 0 ((0 : BitVec 12) ++ site ++ reg))
  | .pcsrw site reg a => some (packI 0x61 0 a 0 ((0 : BitVec 12) ++ site ++ reg))
  | .mboxs d a b => some (packG 0x62 d a b 0 0 0 0 0 0)
  | .mboxr d => some (packG 0x63 d 0 0 0 0 0 0 0 0)
  | .mwait n => some (packN 0x64 n)
  | .brq q cnd off => some (packB 0x0A ((0 : BitVec 2) ++ q) 0 cnd off)
  | .dset ds a w k => some (packP 0x10 ds 0 a 0 ((0 : BitVec 5) ++ w) k)
  | .dclr ds k => some (packP 0x11 ds 0 0 0 0 k)
  | .dld ds a k => some (packP 0x12 ds 0 a 0 0 k)
  | .rdq ds q k => some (packP 0x13 ds q 0 0 0 k)
  | .rds ds a k => some (packP 0x14 ds 0 a 0 0 k)
  | .wrq ds q k => some (packP 0x15 ds q 0 0 0 k)
  | .wrs ds a k => some (packP 0x16 ds 0 a 0 0 k)
  | .cpy ds dt k => some (packP 0x17 ds 0 0 0 ((0 : BitVec 5) ++ dt) k)
  | .gath ds q a b xf k => some (packP 0x18 ds q a b xf k)
  | .scat ds q a b xf k => some (packP 0x19 ds q a b xf k)
  | .pref ds k => some (packP 0x1A ds 0 0 0 0 k)
  | .push q ch k => some (packP 0x1B 0 q 0 0 ch k)
  | .pushR a ch k => some (packP 0x1B 1 0 a 0 ch k)
  | .movq qd qs k => some (packP 0x1C 0 qs 0 0 ((0 : BitVec 4) ++ qd) k)
  | .arrv a b k => some (packP 0x1D 0 0 a b 0 k)
  | .bwait a b k => some (packP 0x1E 0 0 a b 0 k)
  | .collAr ds dt op fmt a k => some (packP 0x20 ds 0 a 0 (fmt ++ op ++ dt) k)
  | .collRs ds dt op fmt a k => some (packP 0x21 ds 0 a 0 (fmt ++ op ++ dt) k)
  | .collAg ds dt fmt a k => some (packP 0x22 ds 0 a 0 (fmt ++ (0 : BitVec 3) ++ dt) k)
  | .collBc ds dt fmt a b k => some (packP 0x23 ds 0 a b (fmt ++ (0 : BitVec 3) ++ dt) k)
  | .collAa ds dt fmt a k => some (packP 0x24 ds 0 a 0 (fmt ++ (0 : BitVec 3) ++ dt) k)
  | .collAb a k => some (packP 0x25 0 0 a 0 0 k)
  | .mload t x => some (packT 0x10 ((0 : BitVec 8) ++ t) x)
  | .msel m x => some (packT 0x11 ((0 : BitVec 3) ++ m) x)
  | .mma q x => some (packT 0x12 ((0 : BitVec 8) ++ q) x)
  | .mmas q x => some (packT 0x13 ((0 : BitVec 8) ++ q) x)
  | .zclr m x => some (packT 0x14 ((0 : BitVec 3) ++ m) x)
  | .zrd q t s x => some (packT 0x15 (q ++ t ++ s) x)
  | .zwr q t s x => some (packT 0x16 (q ++ t ++ s) x)
  | .zpush t ch x => some (packT 0x17 (t ++ ch) x)
  | .zrdB16 q t s x => some (packT 0x18 (q ++ t ++ s) x)
  | .zpushB16 t ch x => some (packT 0x19 (t ++ ch) x)
  | .vadd f => some (packV 0x10 f)
  | .vsub f => some (packV 0x11 f)
  | .vmul f => some (packV 0x12 f)
  | .vfma f => some (packV 0x13 f)
  | .vfms f => some (packV 0x14 f)
  | .vdiv f => some (packV 0x15 f)
  | .vsqrt f => some (packV 0x16 f)
  | .vmin f => some (packV 0x17 f)
  | .vmax f => some (packV 0x18 f)
  | .vabs f => some (packV 0x19 f)
  | .vneg f => some (packV 0x1A f)
  | .vcmpeq f => some (packV 0x1B f)
  | .vcmpne f => some (packV 0x1C f)
  | .vcmplt f => some (packV 0x1D f)
  | .vcmple f => some (packV 0x1E f)
  | .vsel f => some (packV 0x1F f)
  | .vand f => some (packV 0x20 f)
  | .vor f => some (packV 0x21 f)
  | .vxor f => some (packV 0x22 f)
  | .vnot f => some (packV 0x23 f)
  | .vshl f => some (packV 0x24 f)
  | .vshr f => some (packV 0x25 f)
  | .vsra f => some (packV 0x26 f)
  | .viadd f => some (packV 0x27 f)
  | .visub f => some (packV 0x28 f)
  | .vimul f => some (packV 0x29 f)
  | .vimin f => some (packV 0x2A f)
  | .vimax f => some (packV 0x2B f)
  | .vcvt f => some (packV 0x2C f)
  | .vrcp f => some (packV 0x2D f)
  | .vrsqrt f => some (packV 0x2E f)
  | .vexp2 f => some (packV 0x2F f)
  | .vlog2 f => some (packV 0x30 f)
  | .vtanh f => some (packV 0x31 f)
  | .vsigm f => some (packV 0x32 f)
  | .vsin f => some (packV 0x33 f)
  | .vcos f => some (packV 0x34 f)
  | .vredsum f => some (packV 0x35 f)
  | .vredmax f => some (packV 0x36 f)
  | .vredmin f => some (packV 0x37 f)
  | .vperm f => some (packV 0x38 f)
  | .vbcast f => some (packV 0x39 f)
  | .vrot f => some (packV 0x3A f)
  | .vmov f => some (packV 0x3B f)
  | .vidx f => some (packV 0x3E f)
  | .dot16 f => some (packV 0x40 f)
  | .vquant f => some (packV 0x41 f)
  | .vdeq f => some (packV 0x42 f)
  | .vnmean f => some (packV 0x43 f)
  | .vnvar f => some (packV 0x44 f)
  | .vnapply f => some (packV 0x45 f)
  | .vmset f => some (packV 0x48 f)
  | .vmand f => some (packV 0x49 f)
  | .vmor f => some (packV 0x4A f)
  | .vmnot f => some (packV 0x4B f)
  | .vmcnt f => some (packV 0x4C f)
  | .vld d a imm => some (packI 0x3C d a 0 imm)
  | .vst d a imm => some (packI 0x3D d a 0 imm)
  | .vli d t imm => some (packI 0x3F d 0 t imm)
  | .gsetBlock a k => some (packE 0x10 0 (encA a) 0 0 0 k)
  | .gsetBatch a k => some (packE 0x10 0 (encA a) 0 1 0 k)
  | .gsetWalk a k => some (packE 0x10 0 (encA a) 0 2 0 k)
  | .gsetBar a k => some (packE 0x10 0 (encA a) 0 3 0 k)
  | .gload a b k => some (packE 0x11 0 (encA a) (encA b) 0 0 k)
  | .grule a k => some (packE 0x12 0 (encA a) 0 0 0 k)
  | .grow q a b mk k => some (packE 0x13 (encQ8 q) (encA a) (encA b) 0 ((0 : BitVec 1) ++ mk) k)
  | .gseg q qs b mk k => some (packE 0x14 (encQ8 q) (encQ8 qs) (encA b) 0 ((0 : BitVec 1) ++ mk) k)
  | .gscat qs a b k => some (packE 0x15 (encQ8 qs) (encA a) (encA b) 0 0 k)
  | .walk q a b mk k => some (packE 0x16 (encQ0 q) (encA a) (encA b) 0 ((0 : BitVec 1) ++ mk) k)
  | .sample q a b mk k => some (packE 0x17 (encQ0 q) (encA a) (encA b) 0 ((0 : BitVec 1) ++ mk) k)
  | .gidx d a b => some (packG 0x18 d (encA a) (encA b) 0 0 0 0 0 0)
  | .gidxBd d a b c => some (packG 0x18 d (encA a) (encA b) (encA c) 1 0 0 0 0)
  | .gmov f => some (packV 0x19 f)
  | .gvadd f => some (packV 0x1A f)
  | .gvmul f => some (packV 0x1B f)
  | .gvfma f => some (packV 0x1C f)
  | .gvcvt f => some (packV 0x1D f)
  | .gvld d a imm => some (packI 0x1E d a 0 imm)
  | .gvst d a imm => some (packI 0x1F d a 0 imm)
  | .bld q a b mk k => some (packE 0x10 (encQ8 q) (encA a) (encA b) 0 ((0 : BitVec 1) ++ mk) k)
  | .bst q a b k => some (packE 0x11 (encQ8 q) (encA a) (encA b) 0 0 k)
  | .bfill a b k => some (packE 0x12 0 (encA a) (encA b) 0 0 k)
  | .bcpy a b k => some (packE 0x13 0 (encA a) (encA b) 0 0 k)
  | .bamo q a b op d64 k => some (packE 0x14 (encQ8 q) (encA a) (encA b) ((0 : BitVec 3) ++ op) ((0 : BitVec 1) ++ d64) k)
  | .bred q a b op k => some (packE 0x15 (encQ0 q) (encA a) (encA b) ((0 : BitVec 4) ++ op) 0 k)
  | .vfpush a => some (packG 0x18 0 a 0 0 0 0 0 0 0)
  | .vfpushn d a => some (packG 0x19 d a 0 0 0 0 0 0 0)
  | .vfpop d => some (packG 0x1A d 0 0 0 0 0 0 0 0)
  | .vfcnt d p => some (packG 0x1B d 0 0 0 ((0 : BitVec 6) ++ p) 0 0 0 0)
  | .svadd f => some (packV 0x1C f)
  | .svfma f => some (packV 0x1D f)
  | _ => none

/-- The word of an instruction with an issue distance (R155, R156). -/
def encode (idle : BitVec 10) (i : Instr) : Option Word := (encodeBody i).map (idle ++ ·)

/-- The space whose streams hold the instruction; none for the common block (R167, R168) and for events. -/
def spaceOf : Instr → Option Space
  | .call _ _ => some .s
  | .ret _ => some .s
  | .br _ _ _ _ => some .s
  | .brt _ _ _ _ _ => some .s
  | .trap _ => some .s
  | .rett => some .s
  | .add _ _ _ => some .s
  | .sub _ _ _ => some .s
  | .mul _ _ _ => some .s
  | .mulh _ _ _ => some .s
  | .mulhu _ _ _ => some .s
  | .div _ _ _ => some .s
  | .divu _ _ _ => some .s
  | .rem _ _ _ => some .s
  | .remu _ _ _ => some .s
  | .and _ _ _ => some .s
  | .or _ _ _ => some .s
  | .xor _ _ _ => some .s
  | .andn _ _ _ => some .s
  | .sll _ _ _ => some .s
  | .srl _ _ _ => some .s
  | .sra _ _ _ => some .s
  | .ror _ _ _ => some .s
  | .min _ _ _ => some .s
  | .max _ _ _ => some .s
  | .minu _ _ _ => some .s
  | .maxu _ _ _ => some .s
  | .slt _ _ _ => some .s
  | .sltu _ _ _ => some .s
  | .clz _ _ => some .s
  | .ctz _ _ => some .s
  | .popc _ _ => some .s
  | .addi _ _ _ => some .s
  | .andi _ _ _ => some .s
  | .ori _ _ _ => some .s
  | .xori _ _ _ => some .s
  | .slli _ _ _ => some .s
  | .srli _ _ _ => some .s
  | .srai _ _ _ => some .s
  | .rori _ _ _ => some .s
  | .slti _ _ _ => some .s
  | .sltiu _ _ _ => some .s
  | .muli _ _ _ => some .s
  | .li _ _ _ => some .s
  | .lih _ _ => some .s
  | .tamk _ _ _ => some .s
  | .tcoord _ _ _ _ => some .s
  | .tdim _ _ _ => some .s
  | .ld _ _ _ _ => some .s
  | .st _ _ _ _ => some .s
  | .ldAcq _ _ _ _ => some .s
  | .stRel _ _ _ _ => some .s
  | .amo _ _ _ _ _ _ => some .s
  | .cas _ _ _ _ _ _ _ => some .s
  | .faddw _ _ => some .s
  | .faddr _ _ => some .s
  | .phase _ _ => some .s
  | .fence _ => some .s
  | .bar _ _ _ _ => some .s
  | .tokw _ _ _ => some .s
  | .synci => some .s
  | .qpush _ _ => some .s
  | .qpop _ _ _ => some .s
  | .qpeek _ _ _ => some .s
  | .qcnt _ _ => some .s
  | .engJoin _ _ => some .s
  | .engTload _ _ _ _ => some .s
  | .engTcopy _ _ _ _ => some .s
  | .engTstore _ _ _ _ => some .s
  | .engTfill _ _ _ _ => some .s
  | .fpush _ => some .s
  | .rdtide _ _ => some .s
  | .csrr _ _ => some .s
  | .csrw _ _ => some .s
  | .pcsrr _ _ _ => some .s
  | .pcsrw _ _ _ => some .s
  | .mboxs _ _ _ => some .s
  | .mboxr _ => some .s
  | .mwait _ => some .s
  | .brq _ _ _ => some .lw
  | .dset _ _ _ _ => some .lw
  | .dclr _ _ => some .lw
  | .dld _ _ _ => some .lw
  | .rdq _ _ _ => some .lw
  | .rds _ _ _ => some .lw
  | .wrq _ _ _ => some .lw
  | .wrs _ _ _ => some .lw
  | .cpy _ _ _ => some .lw
  | .gath _ _ _ _ _ _ => some .lw
  | .scat _ _ _ _ _ _ => some .lw
  | .pref _ _ => some .lw
  | .push _ _ _ => some .lw
  | .pushR _ _ _ => some .lw
  | .movq _ _ _ => some .lw
  | .arrv _ _ _ => some .lw
  | .bwait _ _ _ => some .lw
  | .collAr _ _ _ _ _ _ => some .lw
  | .collRs _ _ _ _ _ _ => some .lw
  | .collAg _ _ _ _ _ => some .lw
  | .collBc _ _ _ _ _ _ => some .lw
  | .collAa _ _ _ _ _ => some .lw
  | .collAb _ _ => some .lw
  | .mload _ _ => some .mx
  | .msel _ _ => some .mx
  | .mma _ _ => some .mx
  | .mmas _ _ => some .mx
  | .zclr _ _ => some .mx
  | .zrd _ _ _ _ => some .mx
  | .zrdB16 _ _ _ _ => some .mx
  | .zwr _ _ _ _ => some .mx
  | .zpush _ _ _ => some .mx
  | .zpushB16 _ _ _ => some .mx
  | .vadd _ => some .vn
  | .vsub _ => some .vn
  | .vmul _ => some .vn
  | .vfma _ => some .vn
  | .vfms _ => some .vn
  | .vdiv _ => some .vn
  | .vsqrt _ => some .vn
  | .vmin _ => some .vn
  | .vmax _ => some .vn
  | .vabs _ => some .vn
  | .vneg _ => some .vn
  | .vcmpeq _ => some .vn
  | .vcmpne _ => some .vn
  | .vcmplt _ => some .vn
  | .vcmple _ => some .vn
  | .vsel _ => some .vn
  | .vand _ => some .vn
  | .vor _ => some .vn
  | .vxor _ => some .vn
  | .vnot _ => some .vn
  | .vshl _ => some .vn
  | .vshr _ => some .vn
  | .vsra _ => some .vn
  | .viadd _ => some .vn
  | .visub _ => some .vn
  | .vimul _ => some .vn
  | .vimin _ => some .vn
  | .vimax _ => some .vn
  | .vcvt _ => some .vn
  | .vrcp _ => some .vn
  | .vrsqrt _ => some .vn
  | .vexp2 _ => some .vn
  | .vlog2 _ => some .vn
  | .vtanh _ => some .vn
  | .vsigm _ => some .vn
  | .vsin _ => some .vn
  | .vcos _ => some .vn
  | .vredsum _ => some .vn
  | .vredmax _ => some .vn
  | .vredmin _ => some .vn
  | .vperm _ => some .vn
  | .vbcast _ => some .vn
  | .vrot _ => some .vn
  | .vmov _ => some .vn
  | .vidx _ => some .vn
  | .dot16 _ => some .vn
  | .vquant _ => some .vn
  | .vdeq _ => some .vn
  | .vnmean _ => some .vn
  | .vnvar _ => some .vn
  | .vnapply _ => some .vn
  | .vmset _ => some .vn
  | .vmand _ => some .vn
  | .vmor _ => some .vn
  | .vmnot _ => some .vn
  | .vmcnt _ => some .vn
  | .vld _ _ _ => some .vn
  | .vst _ _ _ => some .vn
  | .vli _ _ _ => some .vn
  | .gsetBlock _ _ => some .gs
  | .gsetBatch _ _ => some .gs
  | .gsetWalk _ _ => some .gs
  | .gsetBar _ _ => some .gs
  | .gload _ _ _ => some .gs
  | .grule _ _ => some .gs
  | .grow _ _ _ _ _ => some .gs
  | .gseg _ _ _ _ _ => some .gs
  | .gscat _ _ _ _ => some .gs
  | .walk _ _ _ _ _ => some .gs
  | .sample _ _ _ _ _ => some .gs
  | .gidx _ _ _ => some .gs
  | .gidxBd _ _ _ _ => some .gs
  | .gmov _ => some .gs
  | .gvadd _ => some .gs
  | .gvmul _ => some .gs
  | .gvfma _ => some .gs
  | .gvcvt _ => some .gs
  | .gvld _ _ _ => some .gs
  | .gvst _ _ _ => some .gs
  | .bld _ _ _ _ _ => some .st
  | .bst _ _ _ _ => some .st
  | .bfill _ _ _ => some .st
  | .bcpy _ _ _ => some .st
  | .bamo _ _ _ _ _ _ => some .st
  | .bred _ _ _ _ _ => some .st
  | .vfpush _ => some .st
  | .vfpushn _ _ => some .st
  | .vfpop _ => some .st
  | .vfcnt _ _ => some .st
  | .svadd _ => some .st
  | .svfma _ => some .st
  | _ => none

end Sys2Proof
end

