-- ==== Sys2Proof/Config.lean ====
section
/-! DEFINITION. What an implementation fixes, and the free values: constants without a body, so that no proof can
see a value of them. Each names the rule that leaves it open and its entry of the assumption log. -/

namespace Sys2Proof.Config

/-- Whether a SPECULATIVE CAS fails spuriously (R124, R195: not architectural). Log 6. -/
opaque spuriousCas : Nat → Bool

/-- The entry of the sector buffer that a miss replaces (R70: not architectural). Log 6. -/
opaque replacedSector : Nat → Nat

/-- Which of the partial sums that are left a SYS-scope floating SUM takes next, since the order in which packages combine is not
architectural (R347): by the round's name, the element and the number of choices made. Log 6. -/
opaque sumPick : Nat → Nat → Nat → Nat

/-- Whether an ECDSA P-521 signature verifies against the fused key (R450). Arguments: digest, r, s. Log 7. -/
opaque signatureGood : BitVec 512 → List Byte → List Byte → Bool

/-- The 132 bytes r ∥ s of a QUOTE signature made with the device key (R451). Log 7. -/
opaque quoteSignature : BitVec 512 → List Byte

/-- The HMAC-SHA-512 key that the lighthouse holds for the failed-site list (R454). Log 7. -/
opaque hmacKey : List Byte

/-- The fused minimum security version of an image KIND (R450). Log 7. -/
opaque fusedSvn : Nat → Nat

/-- The fused lower and upper voltage bounds of a rail, in mV (R458, R460). Log 5. -/
opaque fusedLow : Nat → Nat

/-- See `fusedLow`. -/
opaque fusedHigh : Nat → Nat

/-- The fused default level table (R458): entry n. Log 5. -/
opaque fusedLevel : Nat → Word

/-- A telemetry record of a dropped frame or of an APPLIED_ERR (R125, R412): its content is not stated. Log 6. -/
opaque telemetryRecord : Nat → Word

/-- The word offset of a cell's trap stub in its S image, by image tensor address, logical die, row and column: the
plan image has no field for it (R365, R394). Log 9. -/
opaque trapStub : Word → Nat → Nat → Nat → Option Nat

/-- The command ring of the administration queue, which is created at boot (R417); its place is not stated. Log 6. -/
opaque adminRing : Word

/-- The completion ring of the administration queue. Log 6. -/
opaque adminCring : Word

/-- LOG2N of the administration queue, less 4, modulo 12. Log 6. -/
opaque adminLg : Nat

/-- A value that the manual leaves free, by the counter that names it. Log 6. -/
opaque freeWord : Nat → Word

/-- Periods until words are fetched again after a SYNCI (R129, R216): not architectural. Log 11. -/
opaque fetchDelay : Nat → Nat

/-- By how much a stretched period is longer, in unstretched periods (R462): not stated. Log 79. -/
opaque stretchBy : Nat → Nat

/-- Periods after which a memory request or an engine operation moves on when no event moves it earlier. The time of
an access is not architectural; the number is the model's. DESIGN CHOICE, log 11. -/
def accessPeriods : Nat := 16

end Sys2Proof.Config
end

