-- ==== Sys2Proof/Machine/Sparse.lean ====
section
/-! DEFINITION. Sparse maps as plain data: lists of key and value pairs with strictly rising keys. A key that is not
listed has the default that the reader names. Register files, queues of a cell, tables and memory are held so. -/

namespace Sys2Proof.Machine

/-- A sparse map from numbers. -/
abbrev SMap (α : Type) := List (Nat × α)

/-- The value at a key, or the default. -/
def sget {α : Type} (d : α) : SMap α → Nat → α
  | [], _ => d
  | (k, v) :: m, x => if k = x then v else sget d m x

/-- The value at a key, if the key is listed. -/
def sfind {α : Type} : SMap α → Nat → Option α
  | [], _ => none
  | (k, v) :: m, x => if k = x then some v else sfind m x

/-- Writes a key, keeping the keys rising. -/
def sset {α : Type} : SMap α → Nat → α → SMap α
  | [], x, v => [(x, v)]
  | (k, w) :: m, x, v =>
    if x < k then (x, v) :: (k, w) :: m
    else if x = k then (x, v) :: m
    else (k, w) :: sset m x v

/-- Removes a key. -/
def sdel {α : Type} : SMap α → Nat → SMap α
  | [], _ => []
  | (k, w) :: m, x => if k = x then m else (k, w) :: sdel m x

/-- Writes a key of a map in canonical form: writing the default removes the entry. -/
def sput {α : Type} [DecidableEq α] (d : α) (m : SMap α) (x : Nat) (v : α) : SMap α :=
  if v = d then sdel m x else sset m x v

/-- Keys rise strictly from a lower bound, and no entry holds the default. -/
def canonFrom {α : Type} [DecidableEq α] (d : α) : Option Nat → SMap α → Bool
  | _, [] => true
  | lo, (k, v) :: m =>
    (match lo with
      | none => true
      | some l => decide (l < k)) && decide (v ≠ d) && canonFrom d (some k) m

/-- The canonical form: keys strictly rising, and no entry equal to the default. -/
def canon {α : Type} [DecidableEq α] (d : α) (m : SMap α) : Bool := canonFrom d none m

end Sys2Proof.Machine
end

