-- ==== Sys2Proof/Machine/State.lean ====
section
/-! DEFINITION. The state of one package as plain data (R1, R17, R28, R30, R63 and the register maps of every chapter):
its cells, regions, management cores, memory, queues of the host, registers of the switch dies, and the work in
progress. A structure's default values are its state after reset or after the clearing of R30. -/

namespace Sys2Proof.Machine

/-- Reasons for which the machine stops. -/
inductive Fault
  /-- Raised by `step` when the package has no power (R449, R462) and no input waits: no rule gives a step then. Safe:
  no claim about a powered package passes through it. -/
  | noPower
deriving DecidableEq, Repr

/-- Reasons for which an instruction has no meaning. -/
inductive Refusal
  /-- Raised by an arm of `exec` whose instruction is not modelled. Safe. -/
  | notModelled (mnemonic : String)
deriving DecidableEq, Repr

/-- A queue entry with its marker bit (R90, R223); entries of q0 to q7 use the low 64 bits. -/
structure QEntry where
  data : BitVec 2048 := 0
  mark : Bool := false
deriving DecidableEq, Repr

/-- The declared kind of a queue (R43). -/
inductive QKind | unused | sched | mem
deriving DecidableEq, Repr

/-- The feed of a queue: kind, producing stream or channel, consuming stream (R43, R394). -/
structure QFeed where
  kind : QKind := .unused
  prod : Seq := .s
  /-- the channel's number at its source cell, if a channel produces -/
  chan : Option Nat := none
  cons : Seq := .s
deriving DecidableEq, Repr

/-- A channel reserved from a cell (R395). -/
structure Chan where
  ch   : Nat := 0
  ldie : Nat := 0
  row  : Nat := 0
  col  : Nat := 0
  q    : Nat := 0
deriving DecidableEq, Repr

/-- Where an update in flight lands (R41, R359, R362). -/
inductive Target
  | a (r : Nat)
  | v (r : Nat)
  | m (r : Nat)
  | k (n : Nat)
  /-- the end of a schedule-fed RDQ, which adds a token (R230) -/
  | opEnd (kd : Nat)
  | q (n : Nat)
  | fq
  /-- bytes of the cell's own scratchpad, from an offset, under the byte mask of the latch -/
  | spad (off : Nat)
  /-- word i of descriptor d of L (false) or W (true) -/
  | desc (w : Bool) (d i : Nat)
  | csr (n : Nat)
  | cem
  /-- the push cursors of the tiles of a mask -/
  | pcur (mask : Nat)
  /-- one step of the push cursor of a tile -/
  | pcurStep (t : Nat)
  | zclr (mask : Nat)
  /-- 64 FP32 elements of tile t, row and first column -/
  | zent (t row col : Nat)
  /-- an arrival at the barrier at an offset of a cell (R208, R242), with the reply register, its landing cycle and
  WAIT; the latch value holds the byte count, the address and the word -/
  | arrive (key off d land : Nat) (wait : Bool)
  /-- bytes of a transfer that land on the barrier at an offset of a cell (R92, R235) -/
  | barLand (key off n : Nat)
  /-- the test of BWAIT (R243); the latch value is the parity -/
  | bwait (key off : Nat)
  /-- the completion test of BAR.W (R208); the latch value is the parity before -/
  | barw (key off : Nat)
  /-- the merge of a timed phase (R205) -/
  | merge
deriving DecidableEq, Repr

/-- An update in flight: where and when it lands. `per` counts in region clock periods (elastic work), otherwise in
TIDE; `ord` is the issue order. -/
structure Latch where
  due  : Nat
  per  : Bool := false
  tgt  : Target
  val  : BitVec 2048 := 0
  mask : BitVec 256 := 0
  mark : Bool := false
  ord  : Nat := 0
  seq  : Seq := .s
  pc   : Nat := 0
  /-- phase to which bytes of the shared window belong that enter the buffer at the landing (R210) -/
  ep   : Option Nat := none
  /-- the engine operation that it belongs to, or 0 -/
  op   : Nat := 0
deriving DecidableEq, Repr

/-- A push or move in flight, delivered into this cell at a TIDE (R52 to R54). -/
structure Inflight where
  due  : Nat
  q    : Nat
  data : BitVec 2048
  mark : Bool
  ord  : Nat
deriving DecidableEq, Repr

/-- An entry of a phase buffer: writer's cell index, aligned word, bytes, data, and the writer's phase (R108). -/
structure PbEntry where
  writer : Nat
  word   : Nat
  mask   : BitVec 8
  data   : Word
  ep     : Nat
deriving DecidableEq, Repr

/-- A pending PHASE of a cell (R107): subgroup word, scope, mode, issue TIDE, the phase it ends. -/
structure PhasePend where
  grp   : Word
  scope : Nat
  timed : Bool
  at_   : Nat
  ep    : Nat
  /-- its merge is made; an implied fence is awaited (R204) -/
  merged : Bool := false
deriving DecidableEq, Repr

/-- The mode of a stream (R35). -/
inductive SMode | none | timed | elastic
deriving DecidableEq, Repr

/-- Which stub a stream runs (R365, R375). -/
inductive Stub | none | trap | rebuild
deriving DecidableEq, Repr

/-- A word fetched at its pre-decode, 64 cycles ahead (R46, R129): its issue cycle, byte offset and contents, and
whether it was short there (R46, R492). -/
structure PreRes where
  cyc   : Nat
  pc    : Nat
  word  : Word
  short : Bool
  /-- issue cycles of the reads before it on its path, by queue; of the words that start operations under key 16 -/
  res   : SMap (List Nat) := []
  /-- it was not present (R216) -/
  absent : Bool := false
deriving DecidableEq, Repr

/-- A fence that has not completed (R206, R207): its scope, the cycle of a timed stream's next word, and the TIDE at which the
merge of a timed PHASE is made. -/
structure FenceT where
  scope : Nat
  next  : Nat
  asked : Bool
  merge : Nat := 0
  /-- its name, tick of issue and byte offset, for the time-out of R472 -/
  id    : Nat := 0
  born  : Nat := 0
  pc    : Nat := 0
deriving DecidableEq, Repr

/-- A loop counter (R202). -/
structure LoopCtr where
  act : Bool := false
  cnt : Nat := 0
deriving DecidableEq, Repr

/-- A pending join (R201). -/
structure Join where
  addr  : Nat
  cycle : Nat
deriving DecidableEq, Repr

/-- One sequencer's stream (R33 to R49, R201, R202, R362). -/
structure Stream where
  mode     : SMode := .none
  taskOnly : Bool := false
  /-- tensor address of the first word of its image -/
  img      : Word := 0
  nword    : Nat := 0
  base     : Nat := 0
  turns    : List Word := []
  /-- byte offset of the next word in the image -/
  pc       : Nat := 0
  /-- TIDE (timed) or region clock period (elastic, and ALIGNF) of the last issue -/
  last     : Nat := 0
  waitc    : Nat := 0
  /-- 0: ALIGNF is due, 1: START is due, 2: past START -/
  pos      : Nat := 0
  begun    : Bool := false
  joins    : List Join := []
  lp0      : LoopCtr := {}
  lp1      : LoopCtr := {}
  lp2      : LoopCtr := {}
  lp3      : LoopCtr := {}
  ended    : Bool := false
  /-- code of the fault that ended an elastic stream (R355), or 0 -/
  fcode    : Nat := 0
  /-- first period at which an elastic word that had to wait is tried again -/
  wake     : Nat := 0
  /-- reference tick at which the word now waiting began to wait, if it does -/
  since    : Option Nat := none
  /-- writes of others that its reads have returned (R114, R116) -/
  obs      : List Nat := []
  fences   : List FenceT := []
  /-- words fetched ahead of their issue (R129) -/
  pre      : SMap Word := []
  /-- period from which the words that a SYNCI discarded are there again (R216) -/
  fetchP   : Nat := 0
  /-- words pre-decoded and not yet issued -/
  resv     : List PreRes := []
  /-- an elastic BAR.W or BWAIT waits: owner, offset and parity of the barrier, and KD (R208, R243) -/
  bw       : Option (Nat × Nat × Nat × Nat) := none
  /-- cycles below this are pre-decoded -/
  preTo    : Nat := 0
  /-- targets that RET read at its pre-decode: cycle, byte offset and value -/
  retp     : List (Nat × Nat × Word) := []
  stub     : Stub := .none
  /-- held at a SLACK of this index (R370, R373) -/
  held     : Option Nat := none
  /-- runs its part of a task -/
  task     : Bool := false
deriving DecidableEq, Repr

/-- The bank-set header (R247). -/
structure BankHdr where
  valid  : Bool := false
  bfmt   : Nat := 0
  sfmt   : Nat := 0
  sparse : Bool := false
  k      : Nat := 0
  nsc    : Nat := 0
  live   : Nat := 0
  p      : Nat := 0
  nl     : Nat := 0
deriving DecidableEq, Repr

/-- An MLOAD in progress: its landing and the operand it read (R252, R253). -/
structure MloadRun where
  land : Nat
  per  : Bool
  t    : Nat
  hdr  : BankHdr
  bset : Nat
  bytes : List Byte
  kd   : Nat
  ord  : Nat
  pc   : Nat
deriving DecidableEq, Repr

/-- A row of A taken, with the cycle at which its contribution lands. -/
structure TakenRow where
  row  : Nat
  land : Nat
  e0   : BitVec 2048
  e1   : BitVec 2048
deriving DecidableEq, Repr

/-- An MMA or MMAS in progress (R256 to R260). -/
structure MmaRun where
  start : Nat
  per   : Bool
  ord   : Nat
  pc    : Nat
  q     : Nat
  mmas  : Bool
  cem   : BitVec 8
  afmt  : Nat
  wa    : Nat
  k     : Nat
  nsc   : Nat
  bset  : Nat
  rp    : Nat
  m     : Nat
  /-- next row to take -/
  next  : Nat
  rows  : List TakenRow
  /-- rows landed -/
  nland : Nat
  kd    : Nat
deriving DecidableEq, Repr

/-- A strip instruction in progress: ZRD, ZWR, ZPUSH (R263, R264). Kind 0 ZRD, 1 ZWR, 2 ZPUSH. -/
structure StripRun where
  kind  : Nat
  start : Nat
  per   : Bool
  ord   : Nat
  pc    : Nat
  q     : Nat
  t     : Nat
  s     : Nat
  ch    : Nat
  /-- entries still to send or to take -/
  next  : Nat
  count : Nat
  ents  : List (BitVec 2048)
  kd    : Nat
deriving DecidableEq, Repr

/-- A sector held in a cell's sector buffer (R70). -/
structure Sect where
  tens : Nat
  tile : Nat
  sec  : Nat
  data : BitVec 256
  /-- writes not yet at their home that the data include -/
  saw  : List Nat
deriving DecidableEq, Repr

/-- A timed word's access fault in the skid, or the primary access (R358): performed again on resumption. -/
structure Shadow where
  word  : Word
  pc    : Nat
  seq   : Seq
  tide  : Nat
  code  : Nat
  taddr : Word
  /-- operand values read at issue: base address, data or count -/
  va    : Word
  vb    : Word
  vdata : BitVec 2048
  land  : Nat
  primary : Bool
deriving DecidableEq, Repr

/-- A task of a loop-nest record on a cell (R59 to R61). -/
structure Task where
  nest    : Nat
  ord     : Nat
  /-- input tiles still to be copied -/
  inputs  : Nat
  started : Bool
  status  : Nat
deriving DecidableEq, Repr

/-- An entry of a vertical FIFO: data and the period from which the consumer sees it (R339). -/
structure FEntry where
  data : BitVec 512
  due  : Nat
deriving DecidableEq, Repr

/-- A vertical FIFO, held at its consumer (R337 to R341). -/
structure Fifo where
  ents    : List FEntry := []
  /-- periods at which slots freed by pops come back to the producer -/
  frees   : List Nat := []
  closing : Bool := false
  gated   : Bool := false
deriving DecidableEq, Repr

/-- The grammar and walk state (R310). -/
structure GsState where
  gbh    : Option (List Word) := none
  batchB : Nat := 1
  xbase  : Nat := 0
  gwalk  : Option (List Word) := none
  gsbar  : Word := 0
  rvlim  : Nat := 0
  rpos   : Nat := 0
  depth  : SMap Nat := []
  rv     : SMap (BitVec 32) := []
  frule  : BitVec 16 := 0
  fdep   : BitVec 4 := 0
  flt    : Bool := false
  rules  : BitVec 32 := 0
  rows   : BitVec 32 := 0
deriving DecidableEq, Repr

/-- The matrix state (R246, R247, R249, R255, R261, R264). Rows of z are keyed t × 128 + row, with 128 FP32 lanes; rows
of a plane (t × 4 + b) × 128 + row, with 128 nibbles; scales, exponents and NaN marks of a group (t × 4 + b) × 8 + g, with
128 columns; row indices t × 4 + b. -/
structure MxState where
  z      : SMap (BitVec 4096) := []
  pcur   : SMap Nat := []
  fq     : List Word := []
  cem    : BitVec 8 := 0xFF
  planes : SMap (BitVec 512) := []
  scale  : SMap (BitVec 2048) := []
  ebs    : SMap (List Int) := []
  nanm   : SMap (BitVec 128) := []
  ridx   : SMap (List Byte) := []
  hdrs   : SMap BankHdr := []
  mmas   : List MmaRun := []
  mloads : List MloadRun := []
  strips : List StripRun := []
deriving DecidableEq, Repr

/-- The per-cell CSRs (R86, R110, R125, R311, R369). -/
structure CellCsr where
  shwin    : Nat := 0
  shwinNew : Option Nat := none
  phconf   : BitVec 32 := 0
  aperr    : BitVec 32 := 0
  maxdepth : BitVec 4 := 8
  watcha   : Word := 0
  watchc   : Word := 0
  trapc    : Word := 0
  trapd    : Word := 0
  trappc   : Word := 0
  trapa    : Word := 0
deriving DecidableEq, Repr

/-- One compute or stratum cell (R17). The default is the cell cleared under R30. -/
structure Cell where
  /-- context that owns the contents; none before the first launch -/
  ctx   : Option Nat := none
  /-- handle of the region that holds the cell; 0 for none -/
  reg   : Nat := 0
  ldie  : Nat := 0
  a     : SMap Word := []
  v     : SMap (BitVec 2048) := []
  m     : SMap (BitVec 256) := []
  k     : SMap (BitVec 16) := []
  dl    : SMap Word := []
  dw    : SMap Word := []
  q     : SMap (List QEntry) := []
  feeds : SMap QFeed := []
  chans : List Chan := []
  /-- round of the latest collective by group identity (R348) -/
  rnds  : SMap Nat := []
  /-- the members of this package that its descriptor named then, by group identity -/
  rmem  : SMap (List Nat) := []
  spad  : SMap Byte := []
  /-- uncorrectable errors in its SRAM (R83): array and index. Array 0: an aligned word of the scratchpad; 1: half a
  row of z, (t × 128 + row) × 2 + half; 2: an entry of the rule-value file; 3: a row of a plane, keyed as `MxState.planes` -/
  ecc   : List (Nat × Nat) := []
  gs    : GsState := {}
  mx    : MxState := {}
  csr   : CellCsr := {}
  sect  : List Sect := []
  pwb   : List PbEntry := []
  inb   : List PbEntry := []
  ep    : Nat := 0
  phase : Option PhasePend := none
  /-- the FIFO below this stratum cell, whose consumer it is -/
  fifo  : Fifo := {}
  lat   : List Latch := []
  inc   : List Inflight := []
  shadow : List Shadow := []
  task  : Option Task := none
  slack : List (List Word) := []
  /-- word offset of the trap stub in the S image, if there is one -/
  stub  : Option Nat := none
  ss    : Stream := {}
  sl    : Stream := {}
  sc    : Stream := {}
  sw    : Stream := {}
  /-- the S stream set aside while its trap stub runs -/
  kept  : Option Stream := none
deriving DecidableEq, Repr

/-- A lease declaration (R97): tensor, first tile, count, kind (1 READ, 2 WRITE, 3 READWRITE), ZERO. -/
structure Lease where
  tens  : Nat
  first : Nat
  count : Nat
  kind  : Nat
  zero  : Bool
  /-- home package of a peer tensor (R468), if it is one -/
  peer  : Option Nat := none
deriving DecidableEq, Repr

/-- A logical die of a plan with its rectangle and binding (R20, R22, R31). -/
structure RDie where
  cls  : Nat := 0
  lcls : Nat := 0
  stk  : Nat := 0
  row0 : Nat := 0
  col0 : Nat := 0
  hgt  : Nat := 0
  wid  : Nat := 0
  /-- bound site slot -/
  site : Nat := 0
  rslot : Nat := 0
deriving DecidableEq, Repr

/-- A loop-nest record and the walker's position in it (R58 to R62). -/
structure Nest where
  words : List Word := []
  next  : Nat := 0
  live  : Nat := 0
  failn : Nat := 0
  /-- ordinal and status of the first failing task -/
  first : Option (Nat × Nat) := none
  done  : Bool := false
deriving DecidableEq, Repr

/-- A command whose completion is outstanding (R422, R423). -/
structure CmdRef where
  queue  : Nat
  tag    : BitVec 16
  opc    : Nat
  notify : Bool
deriving DecidableEq, Repr

/-- A fault or recoverable event detected in a region (R357, R361). -/
structure FaultRec where
  d     : Nat
  ldie  : Nat
  row   : Nat
  col   : Nat
  seq   : Seq
  engn  : Bool
  code  : Nat
  applied : Nat
  pc    : Nat
  taddr : Word
  arg   : BitVec 16
  shadow : Bool
  /-- order of detection, which is issue order within a sequencer -/
  ord   : Nat
deriving DecidableEq, Repr

/-- Where a region stands (R66, R356, R365, R373, R425, R430, R431). -/
inductive Stage
  /-- acquires leases -/
  | leases
  /-- waits for cells in the scheduler -/
  | cells
  /-- planes verified, swaps at a frame boundary -/
  | planes
  | running
  /-- stopped at H while trap stubs run -/
  | stubs
  /-- rebuild stubs of a slack resumption run -/
  | rebuild
  /-- waits for the boundary at which a resumption begins -/
  | resuming
  /-- KIND 1 record written -/
  | halted
  /-- parked by YIELD -/
  | parked
deriving DecidableEq, Repr

/-- A stall request (R47): freeze cycle, and the sequencer that asked. -/
structure StallReq where
  z   : Nat
  key : Nat
  seq : Seq
deriving DecidableEq, Repr

/-- An installed tensor descriptor (R75). -/
structure Desc where
  fmt  : Nat := 0
  rank : Nat := 1
  lord : List Nat := []
  ext  : List Nat := []
  tile : List Nat := []
  ttbase : Nat := 0
deriving DecidableEq, Repr

/-- A stream of a plan's cell record (R394). -/
structure ImgStream where
  mode : Nat := 0
  taskOnly : Bool := false
  nword : Nat := 0
  base : Nat := 0
  img : Nat := 0
  turns : List Word := []
deriving DecidableEq, Repr

/-- A cell record of a plan (R394, R395). -/
structure ImgCell where
  die : Nat
  row : Nat
  col : Nat
  slack : List (List Word)
  feeds : List QFeed
  strs : List ImgStream
  /-- scratchpad contents: offset and bytes -/
  init : List (Nat × List Byte)
  chans : List Chan
deriving DecidableEq, Repr

/-- A region (R31, R47 to R51, R356, R361, R373, R423, R429). -/
structure Region where
  handle : Nat := 0
  ctx    : Nat := 0
  cmd    : Option CmdRef := none
  yieldCmd : Option CmdRef := none
  debugs : List (CmdRef × Nat × Nat × Nat) := []
  /-- debug requests that have reached their die and wait for the region to run: logical die, row, column (R364) -/
  dbgHeld : List (Nat × Nat × Nat) := []
  endCmd : Option CmdRef := none
  /-- LAUNCH and RESUMEs of earlier runs that have not completed (R422) -/
  older  : List CmdRef := []
  slot   : Nat := 0
  prio   : Nat := 0
  ep     : Nat := 0
  age    : Nat := 0
  /-- reference tick at which the wait began, and of the last age step -/
  waitT  : Nat := 0
  ageT   : Nat := 0
  dispT  : Nat := 0
  image  : Word := 0
  nestoff : Nat := 0
  dies   : List RDie := []
  leases : List Lease := []
  /-- the leases are pinned -/
  pinned : Bool := false
  /-- residency faults are posted and not answered -/
  rfwait : Bool := false
  stage  : Stage := .leases
  /-- resumes the record of its slot, of this KIND; 0 for a launch -/
  resume : Nat := 0
  tide   : Nat := 0
  started : Bool := false
  /-- period of the frame boundary chosen for START (R40) or for a resumption -/
  startF : Option Nat := none
  /-- tick of the first boundary passed unused (R49) -/
  passT  : Option Nat := none
  frozen : Bool := false
  stalls : List StallReq := []
  /-- period at which a frozen region resumes -/
  relP   : Option Nat := none
  frzT   : Nat := 0
  stcyc  : BitVec 40 := 0
  stnum  : BitVec 24 := 0
  stallto : BitVec 32 := 0x186A0
  grant  : BitVec 3 := 0
  var    : BitVec 2 := 0
  turns  : BitVec 32 := 0
  maxslack : BitVec 25 := 0x40000
  slackd : BitVec 25 := 0
  yielddl : BitVec 32 := 0x186A0
  lastix : BitVec 16 := 0
  ypend  : Bool := false
  saves  : BitVec 32 := 0
  /-- TIDE and tick at which the yield request arrived -/
  yldTide : Nat := 0
  yldT   : Nat := 0
  /-- the yield request arrived while the region was frozen (R50) -/
  yldFrz : Bool := false
  /-- the slack cycle at which a yield is being served -/
  swait  : Option Nat := none
  /-- the SLACK (0) or TURN (1) that the timed streams agreed on: TIDE, which, index (R217, R370) -/
  agree  : Option (Nat × Nat × Nat) := none
  haltD  : Option Nat := none
  haltH  : Nat := 0
  /-- period at which elastic work stops when TIDE does not reach H -/
  stopP  : Option Nat := none
  ending : Bool := false
  forced : Bool := false
  faults : List FaultRec := []
  /-- code of a fault in a stub (R365, R375) -/
  stubCode : Nat := 0
  /-- period in which a stubbed region resumes (R367) -/
  resP   : Option Nat := none
  nests  : List Nest := []
  /-- yielded for the scheduler, to wait again -/
  park   : Bool := false
  /-- code of the first stream that a fault ended, in the order of R357 (R355) -/
  failc  : Nat := 0
  failr  : Option FaultRec := none
  /-- descriptors as they stood at the launch or the last resumption (R190) -/
  descs  : SMap Desc := []
  /-- the tiles of the save slot are pinned (R433) -/
  slotPin : Bool := false
  /-- tick at which pin requests were sent to other packages (R468) -/
  askT   : Option Nat := none
  /-- the pin requests sent: the lease's place in `leases`, the connection, the request's SEQ, and the home's answer: 0 none yet,
  1 granted, 2 refused (R468) -/
  asks   : List (Nat × Nat × Nat × Nat) := []
  /-- clusters and channels are reserved to it as they are freed (R430), and which -/
  reserved : Bool := false
  rsv    : List Nat := []
  /-- it yielded for the scheduler and waits: its binding is over (R21, R431) -/
  unbound : Bool := false
  /-- the channels of its plan: the source cell's place and the number (R395) -/
  chans  : List (Nat × Nat) := []
  /-- the queue that launched it -/
  queue  : Nat := 0
  /-- the sites whose shadow planes hold its plan and wait for their swap (R65) -/
  psites : List Nat := []
  /-- the cell records of its image (R64, R65) -/
  plan   : List ImgCell := []
  /-- the cells that its plan lists: logical die × 256 + row × 16 + column -/
  listed : List Nat := []
deriving DecidableEq, Repr

/-- The kinds of operations that access, copy, grammar, walk, bank and collective engines carry out
(R211, R224, R304, R329, R342), and the input-tile copies of tasks (R60). -/
inductive OpKind
  | rdq | rds | wrq | wrs | cpy | gath | scat | pref
  | tload | tcopy | tstore | tfill
  | gset | gload | grule | grow | gseg | gscat | walk | sample
  | bld | bst | bfill | bcpy | bamo | bred
  | coll | input
deriving DecidableEq, Repr

/-- A collective round at a member (R343 to R349). -/
structure Coll where
  kind  : Nat := 0
  op    : Nat := 0
  fmt   : Nat := 0
  gid   : Nat := 0
  nmemb : Nat := 0
  rank  : Nat := 0
  scope : Nat := 0
  tout  : Nat := 0
  desc  : Nat := 0
  round : Nat := 0
  root  : Nat := 0
  count : Nat := 0
  /-- member table: PKG, LDIE, ROW, COL -/
  memb  : List (Nat × Nat × Nat × Nat) := []
  /-- contributions present at this member, by rank -/
  parts : SMap (List Word) := []
  /-- own source read -/
  sent  : Bool := false
deriving DecidableEq, Repr

/-- An engine operation outstanding, with its operands latched at issue and its position (R224, R360). -/
structure Op where
  kind : OpKind
  key  : Nat
  seq  : Seq
  reg  : Nat
  pc   : Nat
  ord  : Nat
  ds   : List Word := []
  dt   : List Word := []
  q    : Nat := 0
  q2   : Nat := 0
  va   : Word := 0
  vb   : Word := 0
  fn   : Nat := 0
  mark : Bool := false
  kd   : Nat := 0
  /-- reply register (R211); 0 discards -/
  dst  : Nat := 0
  began : Bool := true
  /-- next element, entry, line, rule, row, segment or step -/
  pos  : Nat := 0
  /-- position inside it: lane, symbol, element of a row or entry of a segment -/
  sub  : Nat := 0
  /-- entry under assembly, or the entry taken -/
  ebuf : BitVec 2048 := 0
  lane : Nat := 0
  hold : Bool := false
  /-- accumulators and bytes in transit -/
  acc  : List Word := []
  /-- all units are done; only visibility is awaited (R121) -/
  units : Bool := false
  /-- reply value -/
  reply : Word := 0
  /-- what homes of peer tensors have answered to reads of the present unit: address, 1 + sector or 0, and value (R469) -/
  got  : List (Word × Nat × Nat) := []
  /-- elements that it has read before their turn (R112): address, width in bits, and value -/
  early : List (Word × Nat × Nat) := []
  /-- queue entries that a WRQ or SCAT is still to take (R225) -/
  left : Nat := 0
  /-- latched grammar and walk state, barrier address -/
  lim  : Nat := 0
  bar  : Word := 0
  coll : Coll := {}
  /-- reference tick of the last progress, and of the issue -/
  t0   : Nat := 0
  born : Nat := 0
  /-- period of its next unit when no event moves it earlier (log 11) -/
  due  : Nat := 0
deriving DecidableEq, Repr

/-- What a device-memory request asks (R191 to R197, R224). -/
inductive ReqKind
  | load
  | store
  | amo (op : Nat)
  | cas
  | faddw
  | faddr
deriving DecidableEq, Repr

/-- A device-memory request in flight (R105, R112 to R125). -/
structure Req where
  kind  : ReqKind
  key   : Nat
  seq   : Seq
  /-- the engine operation it belongs to, or 0 -/
  op    : Nat := 0
  /-- 0 for a cell's access; 1 + n for core n -/
  core  : Nat := 0
  reg   : Nat := 0
  ctx   : Nat := 0
  pc    : Nat := 0
  word  : Word := 0
  /-- tensor address -/
  addr  : Word
  n     : Nat
  /-- bytes to write, or operand -/
  data  : Nat := 0
  /-- expected value of a CAS -/
  data2 : Nat := 0
  use   : Nat := 0
  dst   : Nat := 0
  flag  : Nat := 0
  sext  : Bool := false
  bypass : Bool := false
  acq   : Bool := false
  rel   : Bool := false
  timed : Bool := false
  /-- it is for this whole sector of the tile in which `addr` lies (R211, R332) -/
  sec   : Option Nat := none
  /-- earlier requests of its sequencer to the same location, applied first (R105) -/
  after : List Nat := []
  /-- what a release waits for until it is visible at DIE scope (R114) -/
  relAfter : List Nat := []
  /-- further bytes of the sector of `addr` that the store writes with it: offset in the sector and byte (R89, R331) -/
  line  : List (Nat × Byte) := []
  /-- the barrier on which its bytes count once it is visible (R235, R317), or 0 -/
  bar   : Word := 0
  /-- a store has entered the outbound module of its die, as the out-th event (R115); 0 before -/
  out   : Nat := 0
  /-- applied at its home, the response is due -/
  applied : Bool := false
  value : Nat := 0
  /-- sectors fetched: tile, sector, data -/
  secs  : List (Nat × Nat × BitVec 256) := []
  noInstall : Bool := false
  saw   : List Nat := []
  /-- an access to a peer tensor: sent to the home, awaiting its answer. `out` is 1 + the link that it left by; before it is
  sent, the home was asked over that link for the tile's entry (R469) -/
  peer  : Bool := false
  /-- it was in flight on a link that went down (R465): no answer comes -/
  lost  : Bool := false
  stales : Nat := 0
  /-- operand values at issue, for the shadow list (R358) -/
  va    : Word := 0
  vb    : Word := 0
  born  : Nat := 0
  /-- period of its next move when no event moves it earlier (log 11) -/
  due   : Nat := 0
deriving DecidableEq, Repr

/-- A stop record (R361, R362): the header's fields and the state that the cell sections hold. -/
structure StopRec where
  kind : Nat
  code : Nat
  nsec : Nat
  stub : Nat
  dcyc : Nat
  hcyc : Nat
  ldie : Nat
  row  : Nat
  col  : Nat
  seq  : Nat
  engn : Bool
  applied : Nat
  slix : Nat
  pc   : Nat
  taddr : Word
  /-- the period of the stop, from which elastic remaining distances count -/
  per  : Nat
  reg  : Region
  /-- cells by logical die × 256 + row × 16 + column -/
  cells : SMap Cell
  ops  : SMap Op
deriving DecidableEq, Repr

/-- A message of the device to a host or to another package, kept until it is acknowledged (R416). -/
structure OutMsg where
  conn : Nat
  gen  : Nat := 0
  seq  : Nat
  typ  : Nat
  qnum : Nat := 0
  /-- the cumulative ACK that it carries -/
  ack  : Nat := 0
  data : List Word := []
  bytes : List Byte := []
  sentT : Nat := 0
deriving DecidableEq, Repr

/-- What a message from a host asks, after its header (R413 to R416). -/
inductive HostAsk
  | hello (w0 w1 : Word)
  | regwr (reg : Nat) (v : Word)
  | regrd (reg : Nat)
  | memwr (ta : Word) (data : List Byte)
  | memrd (ta count : Word)
  | ack (bitmap : List Bool)
  /-- RESP and EVENT, which ask nothing of the device -/
  | other
deriving DecidableEq, Repr

/-- A message from a host, with its header. -/
structure HostMsg where
  hdr : HostHdr
  ask : HostAsk
deriving DecidableEq, Repr

/-- A Claex connection (R412 to R416). -/
structure Conn where
  gen   : Nat := 0
  /-- next SEQ expected -/
  rx    : Nat := 0
  /-- messages received out of order -/
  held  : List HostMsg := []
  tx    : Nat := 0
  unack : List OutMsg := []
  /-- RESPs sent, to be sent again for a duplicate: SEQ and message -/
  resps : List (Nat × OutMsg) := []
  /-- tick of a receipt not yet acknowledged -/
  ackT  : Option Nat := none
  /-- tick of the last progress: an acknowledgement, or the first message kept (R464) -/
  progT : Nat := 0
  /-- a reach link whose HELLO was not answered in time sends no more until it is trained again -/
  dead  : Bool := false
deriving DecidableEq, Repr

/-- A command queue (R417 to R421). -/
structure HQueue where
  ctx  : Nat := 255
  prio : Nat := 0
  ring : Word := 0
  lg   : Nat := 4
  conn : Nat := 0
  cring : Word := 0
  desc : Word := 0
  tail : BitVec 16 := 0
  cons : BitVec 16 := 0
  dne  : BitVec 16 := 0
  stop : Bool := false
  err  : Bool := false
  errc : BitVec 8 := 0
  /-- switched in -/
  live : Bool := true
  /-- QDESTROY waiting -/
  dying : Option CmdRef := none
deriving DecidableEq, Repr

/-- A management core or the lighthouse core (R350 to R352, R449). -/
structure Core where
  /-- its stream: pc is a byte address of its image -/
  st     : Stream := { mode := .elastic }
  a      : SMap Word := []
  loc    : SMap Byte := []
  mbox   : List Word := []
  mtvec  : Word := 0
  mepc   : Word := 0
  mcause : Word := 0
  caps   : BitVec 2 := 0
  cresets : BitVec 32 := 0
  /-- held by boot or by a restart -/
  held   : Bool := true
  entry  : Nat := 0
  /-- results in flight of an elastic word -/
  lat    : List Latch := []
  sect   : List Sect := []
  /-- aligned words of its local memory with an uncorrectable error (R83) -/
  ecc    : List Nat := []
  /-- restarts since the watch began (R487) -/
  rst    : Nat := 0
  /-- requests in the lighthouse's mailbox that it sent before it restarted: their answers are discarded (R448, R486) -/
  stale  : Nat := 0
deriving DecidableEq, Repr

/-- The authentication code that the boot store keeps with the failed-site list (R454): the one that the lighthouse made over a
list, or other bytes. -/
inductive ListTag
  | made (l : List Byte)
  | raw (code : List Byte)
deriving DecidableEq, Repr

/-- A forwarding entry (R445, R470): old frame, new frame, acknowledgements due by package. -/
structure Fwd where
  old  : Word
  new  : Word
  pend : List Nat
deriving DecidableEq, Repr

/-- A live migration (R444). -/
structure Migr where
  ctx  : Nat
  tens : Nat
  tile : Nat
  dest : Word
  done : SMap Bool
  pass : Nat
  next : Nat
deriving DecidableEq, Repr

/-- An entry of the residency fault buffer (R442). -/
structure RfEntry where
  tens  : Nat
  ctx   : Nat
  kind  : Nat
  first : Nat
  count : Nat
  handle : Nat
deriving DecidableEq, Repr

/-- The status of one UCIe module (R455). -/
structure Module where
  trn  : Bool := false
  up   : Bool := false
  retr : BitVec 8 := 0
  corr : BitVec 24 := 0
  unc  : BitVec 8 := 0
  /-- a CLEARFAIL left it to a RETRAIN: boot does not train it (R454) -/
  skip : Bool := false
deriving DecidableEq, Repr

/-- A temperature sensor (R463). -/
structure Sensor where
  raw  : BitVec 10 := 0
  susp : Bool := false
  oor  : Bool := false
  stuck : Bool := false
  disag : Bool := false
  used : BitVec 10 := 0
  good : BitVec 10 := 0
  /-- evaluations in a row without a condition -/
  clean : Nat := 0
  hist : List (BitVec 10) := []
  /-- the medians of the valid neighbours, where there were any -/
  hmed : List (Option (BitVec 10)) := []
deriving DecidableEq, Repr

/-- The walk limit of an HBM4E stack (R479 to R481). -/
structure Hbt where
  temp : BitVec 10 := 0
  wlim : Nat := 0
  susp : Bool := false
  tticks : BitVec 32 := 0
  above : Nat := 0
  below : Nat := 0
  noread : Nat := 0
  /-- tick of the last evaluation -/
  evT   : Option Nat := none
deriving DecidableEq, Repr

/-- The hot-tile sampler of a cliff base (R482). -/
structure Hot where
  cnt   : Nat := 0
  ring  : List Word := []
  drops : BitVec 32 := 0
deriving DecidableEq, Repr

/-- A role change under way (R446): stratum, target role, step, status before. -/
structure RoleChg where
  strat : Nat
  role  : Nat
  step  : Nat
  core  : Nat
  gated : Bool := false
deriving DecidableEq, Repr

/-- The configuration planes of a die (R63): sparse bytes, section × 2^24 + offset. -/
structure Plane where
  active : SMap Byte := []
  shadow : SMap Byte := []
  /-- bytes of the shadow that do not take what is written, which R64's check finds -/
  stuck  : List Nat := []
deriving DecidableEq, Repr

/-- A collective message that is held for members that have not issued its round (R348, R474): when it came, whether it is an
abort, the message, the cells that it has reached, and the region whose members alone it concerns, of one sent inside the
package. -/
structure HeldMsg where
  at_  : Nat
  ab   : Bool
  msg  : CollMsg
  got  : List Nat := []
  reg  : Option Nat := none
deriving DecidableEq, Repr

/-- Periods in which the environment lets an elastic stream or a core issue no word: agent, sequencer, first period, and the
first one after. The manual gives an elastic word no issue cycle but the earliest (R56). -/
structure Pause where
  key   : Nat
  seq   : Seq
  lo    : Nat
  hi    : Nat
deriving DecidableEq, Repr

/-- The state of the package. -/
structure State where
  -- time (R6, R39, R213, R218)
  power  : Bool
  tick   : Nat
  sub    : Nat
  per    : Nat
  frame  : Nat
  pauseT : Option Nat
  -- levels (R217, R218, R457 to R463)
  grant  : BitVec 3
  armed  : BitVec 3
  /-- the variant that is in force: 0 spring, 1 mean, 2 neap (R457) -/
  clk    : Nat
  frozenP : Bool
  force  : Bool
  forceT : Nat
  loww   : Bool
  capn   : Bool
  stretch : BitVec 32
  hbT    : Option Nat
  lvls   : List Word
  mrg    : List Int
  rails  : List Nat
  /-- the voltages that the rails have once a relock pause is over (R459) -/
  railsT : List Nat
  sensors : SMap Sensor
  sensT  : Nat
  ltime  : List Nat
  relk   : BitVec 32
  fneap  : BitVec 32
  lowwt  : Nat
  -- the mix, sites and modules (R24 to R27, R453 to R456)
  mixa   : Word
  mixb   : Word
  mixc   : Word
  mixd   : Word
  failed : List Nat
  failedS : List Nat
  modules : SMap Module
  retrain : Option (LhReq × Nat)
  -- cells and regions
  cells  : SMap Cell
  regions : SMap Region
  records : SMap StopRec
  nextH  : Nat
  /-- configuration planes by site code (R63) -/
  planes : SMap Plane
  -- memory
  mem    : List Host.Cell
  bad    : List Nat
  tens   : SMap Desc
  tt     : SMap Word
  owners : SMap (Nat × Nat × Nat)
  fwds   : List Fwd
  migs   : List Migr
  reqs   : SMap Req
  ops    : SMap Op
  ptc    : SMap Word
  rfbuf  : List RfEntry
  rfwaitq : List RfEntry
  rfgen  : BitVec 32
  role   : Option RoleChg
  srst   : Word
  gates  : List (Nat × Nat)
  hot    : SMap Hot
  hbt    : SMap Hbt
  /-- SLACK of the first ebb in a die's life, by site code × 4 + rail, kept in the boot store (R483) -/
  slack0 : SMap (BitVec 16)
  -- privileged registers held as words (R351), keyed by site code × 4096 + number
  pregs  : SMap Word
  -- host
  conns  : SMap Conn
  /-- the connections of the host port by what identifies them (R412) -/
  ids    : List (ConnId × Nat)
  queues : SMap HQueue
  ctxs   : List Nat
  cache  : List (Nat × Word × Word)
  peers  : List (Nat × Nat × Nat × Nat × Nat)
  /-- pin requests of other packages that wait for a role change (R441, R468): what they name, as in `peers`, and the kind -/
  pinq   : List ((Nat × Nat × Nat × Nat × Nat) × BitVec 2)
  /-- collective messages held (R474) -/
  held   : List HeldMsg
  rxhold : List HostMsg
  -- cores, lighthouse, boot
  cores  : SMap Core
  lhans  : List (Nat × Word)
  devq   : List (Nat × Word)
  meas   : List (BitVec 512)
  boot   : Bool
  recovery : Bool
  bslots : SMap (List Byte)
  pref   : SMap Nat
  flist  : List Byte
  /-- what authenticates the failed-site list -/
  ftag   : ListTag
  watchT : Option Nat
  fresh  : Bool
  rstT   : Option Nat
  ebbDue : Option Nat
  ebbRun : Option Nat
  ebbT   : Nat
  -- the model's own fields: what comes next, names and free values
  /-- what the environment or the order of events puts next: after how many steps of the machine's own, and what -/
  inputs : List (Nat × Instr)
  /-- what holds elastic words back (log 80) -/
  pauses : List Pause
  /-- elements that engine operations read before their turn: the operation's name and the element (log 95) -/
  looks  : List (Nat × Nat)
  /-- flits and frames that the FEC of a module or a reach link corrects: the reference tick, the site code, and the module, or 31 + n
  for reach link n of a switch die (R455, R465, log 97) -/
  fecs   : List (Nat × Nat × Nat)
  /-- the words of the lighthouse's ROM, which the manual does not give (log 2) -/
  rom    : List Byte
  /-- commands consumed from queues, not yet carried out -/
  cmds   : List Cmd
  cur    : Nat
  curSeq : Seq
  curIdle : Nat
  curWord : Word
  nextId : Nat
  freeCtr : Nat
  outputs : List OutMsg
deriving DecidableEq, Repr

/-- What a byte of device memory that nothing has written reads as: 0. DESIGN CHOICE, log 1: the manual does not give
the contents of memory after power-on. Unsafe. -/
def memDefault : Byte := 0

/-- Memory is in canonical form: addresses strictly rising, no entry equal to what an unlisted address reads. -/
abbrev Memory.wf (m : List Host.Cell) : Prop := canon memDefault m = true

/-- The management cores and the lighthouse core before boot: every core is held (R452). POWER and MIX are fixed at
boot (R448): core 7 holds POWER, cores 0 to 6 MIX. -/
def coresReset : SMap Core :=
  [(0, { caps := 2 }), (1, { caps := 2 }), (2, { caps := 2 }), (3, { caps := 2 }), (4, { caps := 2 }),
   (5, { caps := 2 }), (6, { caps := 2 }), (7, { caps := 1 }), (8, { caps := 0 })]

/-- The fused default level table (R458). Log 5. -/
def lvlsReset : List Word := (List.range 8).map Config.fusedLevel

/-- The package right after power-on reset, before boot (R452 runs as the event POWER_ON_RESET, which is the first thing
due). Values that the manual does not give are those of logs 1 to 5. -/
def State.reset : State where
  power := true
  tick := 0
  sub := 0
  per := 0
  frame := 0
  pauseT := none
  grant := 0
  armed := 0
  clk := 2
  frozenP := false
  force := false
  forceT := 0
  loww := true
  capn := false
  stretch := 0
  hbT := none
  lvls := lvlsReset
  mrg := [0, 0, 0, 0]
  rails := [0, 0, 0, 0]
  railsT := [0, 0, 0, 0]
  sensors := []
  sensT := 0
  ltime := [0, 0, 0, 0, 0, 0, 0, 0]
  relk := 0
  fneap := 0
  lowwt := 0
  mixa := 0x0739CD6B58C6318C
  mixb := 0xBBBBBBBBBBBBBBBB
  mixc := 0
  mixd := 0xF00000
  failed := []
  failedS := []
  modules := []
  retrain := none
  cells := []
  regions := []
  records := []
  nextH := 1
  planes := []
  mem := []
  bad := []
  tens := []
  tt := []
  owners := []
  fwds := []
  migs := []
  reqs := []
  ops := []
  ptc := []
  rfbuf := []
  rfwaitq := []
  rfgen := 0
  role := none
  srst := 0
  gates := []
  hot := []
  hbt := []
  slack0 := []
  pregs := []
  conns := []
  ids := []
  queues := []
  ctxs := [255]
  cache := []
  peers := []
  pinq := []
  held := []
  rxhold := []
  cores := coresReset
  lhans := []
  devq := []
  meas := [0, 0, 0, 0]
  boot := true
  recovery := false
  bslots := []
  pref := []
  flist := []
  ftag := .made []
  watchT := none
  fresh := false
  rstT := none
  ebbDue := none
  ebbRun := none
  ebbT := 0
  inputs := []
  pauses := []
  looks := []
  fecs := []
  rom := []
  cmds := []
  cur := 0
  curSeq := .s
  curIdle := 0
  curWord := 0
  nextId := 1
  freeCtr := 0
  outputs := []

end Sys2Proof.Machine
end

