-- ==== Sys2Proof/Machine/Ops.lean ====
section
/-! DEFINITION. Named operations over the state: cells, regions, streams, registers, latches, and the ONE operation that
takes an exception (R354 to R358, R449), with the return from one beside it (R215, R367, R449). -/

namespace Sys2Proof.Machine

-- Cells, regions, cores ---------------------------------------------------------------------------------------------

/-- Agents with this key and above are cores: 100000 + n is core n, 100008 the lighthouse core (R350). -/
def coreKey : Nat := 100000

/-- The key of the lighthouse core. -/
def lightKey : Nat := coreKey + 8

/-- Whether an agent is a core. -/
def isCore (key : Nat) : Bool := decide (coreKey ≤ key)

/-- The contents of a cell; a cell not listed is cleared (R30). -/
def cellAt (s : State) (key : Nat) : Cell := sget {} s.cells key

/-- Writes a cell. -/
def setCell (s : State) (key : Nat) (c : Cell) : State := { s with cells := sset s.cells key c }

/-- A region by handle. -/
def regAt (s : State) (h : Nat) : Region := sget {} s.regions h

/-- Writes a region. -/
def setReg (s : State) (h : Nat) (r : Region) : State := { s with regions := sset s.regions h r }

/-- A core. -/
def coreAt (s : State) (n : Nat) : Core := sget {} s.cores n

/-- Writes a core. -/
def setCore (s : State) (n : Nat) (c : Core) : State := { s with cores := sset s.cores n c }

/-- Cell classes: 0 MX, 1 VN, 2 GS, 3 ST (R13, R22). Compute cells have keys slot × 192 + row × 16 + column, stratum
cells 2304 + (m × 4 + k) × 16 + row × 4 + column. -/
def classOf (key : Nat) : Nat :=
  if key < 1152 then 0 else if key < 1728 then 1 else if key < 2304 then 2 else 3

/-- Row of a cell in its mesh (R7). -/
def rowOf (key : Nat) : Nat := if key < 2304 then (key % 192) / 16 else ((key - 2304) % 16) / 4

/-- Column of a cell in its mesh (R7). -/
def colOf (key : Nat) : Nat := if key < 2304 then key % 16 else (key - 2304) % 4

/-- The site slot of a cell; a stratum cell's is that of its cliff base (R13). -/
def slotOf (key : Nat) : Nat := if key < 2304 then key / 192 else 12 + (key - 2304) / 64

/-- The stratum number k of a stratum cell (R7). -/
def stkOf (key : Nat) : Nat := if key < 2304 then 0 else ((key - 2304) / 16) % 4

/-- The die, for the rules that speak of one die: a compute die or a cliff stack (R103). -/
def dieOf (key : Nat) : Nat := slotOf key

/-- Cluster number (R7, R15). -/
def clusOf (key : Nat) : Nat := if key < 2304 then (rowOf key / 6) * 2 + colOf key / 8 else 0

/-- Index within the cluster (R7, R15). -/
def cidxOf (key : Nat) : Nat :=
  if key < 2304 then (rowOf key % 6) * 8 + colOf key % 8 else rowOf key * 4 + colOf key

/-- The key of the cell at a row and column of the same mesh. -/
def sameMesh (key row col : Nat) : Nat :=
  if key < 2304 then (key / 192) * 192 + row * 16 + col
  else 2304 + ((key - 2304) / 16) * 16 + row * 4 + col

/-- The key of the cell of an index in the cluster of a cell, if the index names one (R16). -/
def clusterCell (key idx : Nat) : Option Nat :=
  if key < 2304 then
    if idx < 48 then some (sameMesh key ((clusOf key / 2) * 6 + idx / 8) ((clusOf key % 2) * 8 + idx % 8)) else none
  else if idx < 16 then some (sameMesh key (idx / 4) (idx % 4)) else none

/-- Hops between two cells of one mesh (R84). -/
def hops (k1 k2 : Nat) : Nat :=
  (Nat.max (rowOf k1) (rowOf k2) - Nat.min (rowOf k1) (rowOf k2))
    + (Nat.max (colOf k1) (colOf k2) - Nat.min (colOf k1) (colOf k2))

/-- The key of the cell of a bound logical die. -/
def keyOn (d : RDie) (row col : Nat) : Nat :=
  if d.cls = 3 then 2304 + ((d.site - 12) * 4 + d.stk) * 16 + row * 4 + col else d.site * 192 + row * 16 + col

/-- The keys of a logical die's rectangle, in row-major order. -/
def dieCells (d : RDie) : List Nat :=
  (List.range d.hgt).flatMap fun r => (List.range d.wid).map fun c => keyOn d (d.row0 + r) (d.col0 + c)

/-- The keys of a region's cells, in the order of R357. -/
def regCells (r : Region) : List Nat := r.dies.flatMap dieCells

/-- Scratchpad size by class (R17). -/
def spadSize (key : Nat) : Nat :=
  if isCore key then 262144
  else match classOf key with
    | 0 => 131072
    | 1 => 262144
    | 2 => 524288
    | _ => 65536

/-- Position of a sequencer in the order S, L, C, W. -/
def seqIx : Seq → Nat
  | .s => 0
  | .l => 1
  | .c => 2
  | .w => 3

/-- The stream of a sequencer. -/
def Cell.stream (c : Cell) : Seq → Stream
  | .s => c.ss
  | .l => c.sl
  | .c => c.sc
  | .w => c.sw

/-- Replaces the stream of a sequencer. -/
def Cell.setStream (c : Cell) (q : Seq) (st : Stream) : Cell :=
  match q with
  | .s => { c with ss := st }
  | .l => { c with sl := st }
  | .c => { c with sc := st }
  | .w => { c with sw := st }

/-- The stream of an agent. -/
def streamAt (s : State) (key : Nat) (q : Seq) : Stream :=
  if isCore key then (coreAt s (key - coreKey)).st else (cellAt s key).stream q

/-- Replaces the stream of an agent. -/
def setStreamAt (s : State) (key : Nat) (q : Seq) (st : Stream) : State :=
  if isCore key then
    let n := key - coreKey
    setCore s n { coreAt s n with st := st }
  else setCell s key ((cellAt s key).setStream q st)

/-- The region of an agent. -/
def regOf (s : State) (key : Nat) : Region := regAt s (cellAt s key).reg

/-- The context of an agent: that of its region; the management context for a core (R350). -/
def ctxOf (s : State) (key : Nat) : Nat := if isCore key then 255 else (regOf s key).ctx

/-- The opcode space of a sequencer (R33, R157). -/
def seqSpace (key : Nat) (q : Seq) : Space :=
  match q with
  | .s => .s
  | .l => .lw
  | .w => .lw
  | .c => match classOf key with
    | 0 => .mx
    | 1 => .vn
    | 2 => .gs
    | _ => .st

-- Registers ----------------------------------------------------------------------------------------------------------

/-- Reads a scalar register; a0 reads zero (R160). -/
def readA (s : State) (key : Nat) (r : Nat) : Word :=
  if r = 0 then 0
  else if isCore key then sget 0 (coreAt s (key - coreKey)).a r
  else sget 0 (cellAt s key).a r

/-- Writes a scalar register; a write to a0 is discarded (R183). -/
def writeA (s : State) (key : Nat) (r : Nat) (v : Word) : State :=
  if r = 0 then s
  else if isCore key then
    let n := key - coreKey
    let c := coreAt s n
    setCore s n { c with a := sset c.a r v }
  else
    let c := cellAt s key
    setCell s key { c with a := sset c.a r v }

/-- A mask register; m0 is all ones (R270). -/
def Cell.readM (c : Cell) (n : Nat) : BitVec 256 := if n = 0 then BitVec.allOnes 256 else sget 0 c.m n

/-- Whether a write to a scalar register of the agent is still in flight for an elastic word (R56, R183, R226): a load, an
atomic or an ENG whose reply it takes, or a result that has not landed. A trap stub reads the registers as they stand at H: the latches and the engine
operations of the halt do not hold it (R366). -/
def pendingA (s : State) (key : Nat) (r : Nat) : Bool :=
  decide (r ≠ 0) &&
    (s.reqs.any (fun q => decide (q.2.key = key) && decide (q.2.op = 0) && (decide (q.2.dst = r) || decide (q.2.flag = r)))
      || (decide ((cellAt s key).ss.stub ≠ .trap)
        && (s.ops.any (fun o => decide (o.2.key = key) && decide (o.2.dst = r))
          || (cellAt s key).lat.any (fun l => decide (l.tgt = .a r)))))

/-- The acquires of a sequencer that have not returned (R113); one of a tensor of another package orders nothing (R119). -/
def acquires (s : State) (key : Nat) (q : Seq) : List Nat :=
  (s.reqs.filter fun r => r.2.acq && !r.2.peer && decide (r.2.key = key) && decide (r.2.seq = q)).map (·.1)

/-- R113: an acquire of the sequencer has not returned; no access and no engine operation that follows it is performed, but
what R119 and R124 except. -/
def acquiring (s : State) (key : Nat) (q : Seq) : Bool := !(acquires s key q).isEmpty

/-- Whether any write to a scalar register of the cell is in flight (R226). -/
def anyPendingA (s : State) (key : Nat) : Bool := (List.range 64).any fun r => pendingA s key r

-- Names and free values ----------------------------------------------------------------------------------------------

/-- The next name for a request, an operation or an issue. -/
def fresh (s : State) : Nat × State := (s.nextId, { s with nextId := s.nextId + 1 })

/-- The next free value's number. -/
def freeNum (s : State) : Nat × State := (s.freeCtr, { s with freeCtr := s.freeCtr + 1 })

-- Latches (R41) --------------------------------------------------------------------------------------------------------

/-- Adds an update in flight to a cell. -/
def addLatch (s : State) (key : Nat) (l : Latch) : State :=
  let c := cellAt s key
  let s := { s with nextId := s.nextId + 1 }
  setCell s key { c with lat := c.lat ++ [{ l with ord := s.nextId - 1 }] }

/-- Whether the stream issues in counted cycles now (R36); a stub runs in elastic mode (R365, R375). -/
def Stream.counted (st : Stream) : Bool :=
  match st.mode, st.stub with
  | .timed, .none => true
  | _, _ => false

-- Faults (R354 to R358) ------------------------------------------------------------------------------------------------

/-- The codes of Table 1 of chapter 13. -/
def cIllegal : Nat := 1
def cSched : Nat := 2
def cAddr : Nat := 3
def cFormat : Nat := 4
def cLease : Nat := 5
def cMemErr : Nat := 6
def cArith : Nat := 7
def cBarrier : Nat := 8
def cRuleDepth : Nat := 9
def cRuleOrder : Nat := 10
def cPhaseOv : Nat := 11
def cTokOv : Nat := 12
def cAtomic : Nat := 13
def cStall : Nat := 14
def cLink : Nat := 15
def cSlackState : Nat := 16
def cSlackDist : Nat := 17
def cCap : Nat := 18
def cTrap : Nat := 0x20
def cDebug : Nat := 0x21
def cWatch : Nat := 0x22

/-- R354, Table 1: the fault ends an elastic task or stream. -/
def endsClass (code : Nat) : Bool :=
  decide (code = 1 ∨ (3 ≤ code ∧ code ≤ 10) ∨ code = 14)

/-- A fault: its code, its address, and what a shadow entry keeps (R357, R358). -/
structure Flt where
  code    : Nat
  taddr   : Word := 0
  arg     : BitVec 16 := 0
  applied : Nat := 0
  engn    : Bool := false
  /-- the access may become a shadow entry, with these operand values and landing cycle -/
  shadow  : Option (Word × Word × BitVec 2048 × Nat) := none
deriving DecidableEq, Repr

/-- Who raises it: the agent and the byte offset of the word. -/
structure Who where
  key : Nat
  seq : Seq
  pc  : Nat
  word : Word := 0
  /-- the cycle of detection, where it is the one before the present TIDE -/
  cyc  : Option Nat := none
deriving DecidableEq, Repr

/-- Faults that may become shadow entries in the skid (R358). -/
def shadowClass (code : Nat) : Bool :=
  decide (code = cAddr ∨ code = cLease ∨ code = cFormat ∨ code = cMemErr ∨ code = cBarrier)

/-- Stops a stream: it issues no more. -/
def Stream.stop (st : Stream) (code : Nat) : Stream := { st with ended := true, fcode := code, fences := [] }

/-- The order of R357: detection cycle, logical die, cell, sequencer, and the order of issue. -/
def faultBefore (a b : FaultRec) : Bool :=
  let x := [a.d, a.ldie, a.row, a.col, seqIx a.seq, a.ord]
  let y := [b.d, b.ldie, b.row, b.col, seqIx b.seq, b.ord]
  (x.zip y).foldr (fun p r => decide (p.1 < p.2) || (decide (p.1 = p.2) && r)) false

/-- A fault as a region records it: its detection cycle, place and word (R357). -/
def faultRec (s : State) (h : Nat) (w : Who) (f : Flt) (sh : Bool) : FaultRec :=
  let r := regAt s h
  { d := w.cyc.getD (if r.started then r.tide else 0), ldie := (cellAt s w.key).ldie, row := rowOf w.key, col := colOf w.key,
    seq := w.seq, engn := f.engn, code := f.code, applied := f.applied, pc := w.pc, taddr := f.taddr, arg := f.arg, shadow := sh,
    ord := s.nextId }

/-- The first fault that ended a stream of the region, in the order of R357 (R355). -/
def firstEnd (r : Region) (f : FaultRec) : FaultRec :=
  match r.failr with
  | some g => if faultBefore f g then f else g
  | none => f

/-- A fault of the class "ends" in an elastic stream (R56, R61, R355): the stream ends with the code, or the task fails
and its sequencers stop; the task's end is the event TASK_END. -/
def endElastic (s : State) (w : Who) (code : Nat) : State :=
  let c := cellAt s w.key
  let st := c.stream w.seq
  if st.task then
    match c.task with
    | some t =>
      let halt (x : Stream) : Stream := if x.task then { x with ended := true } else x
      setCell s w.key
        { c with task := some { t with status := if t.status = 0 then code else t.status },
                 ss := halt c.ss, sl := halt c.sl, sc := halt c.sc, sw := halt c.sw }
    | none => s
  else if st.fcode ≠ 0 then s
  else
    let r := regAt s c.reg
    let e := firstEnd r (faultRec s c.reg w { code := code } false)
    setCell { setReg s c.reg { r with failc := e.code, failr := some e } with nextId := s.nextId + 1 } w.key
      (c.setStream w.seq (st.stop code))

/-- A cell has a timed stream. -/
def Cell.anyTimed (c : Cell) : Bool :=
  decide (c.ss.mode = .timed) || decide (c.sl.mode = .timed) || decide (c.sc.mode = .timed) || decide (c.sw.mode = .timed)

/-- Whether a region has a timed stream. -/
def hasTimed (s : State) (r : Region) : Bool := (regCells r).any fun k => (cellAt s k).anyTimed

/-- Raises the halt line of a region (R356, R377, R424): D and H, or the stop period when TIDE cannot reach H: before START, while it
is frozen, and while it waits at a slack point. -/
def raiseHalt (s : State) (h : Nat) (cyc : Option Nat) : State :=
  let r := regAt s h
  match r.haltD, cyc with
  | some _, _ => s
  | none, some d => setReg s h { r with haltD := some d, haltH := d + 64 }
  | none, none =>
    if !r.started then
      setReg s h { r with haltD := some 0, haltH := 0, stopP := some (s.per + 64), startF := none }
    else if r.frozen then
      setReg s h { r with haltD := some r.tide, haltH := r.tide, stopP := some (s.per + 64) }
    else if r.swait.isSome && hasTimed s r then
      setReg s h { r with haltD := some r.tide, haltH := r.tide, stopP := some s.per }
    else setReg s h { r with haltD := some r.tide, haltH := r.tide + 64 }

/-- The freeze cycle of a region's stall requests (R47). -/
def freezeAt (r : Region) : Option Nat :=
  match r.stalls with
  | [] => none
  | x :: l => some (l.foldl (fun m y => Nat.min m y.z) x.z)

/-- Whether a region freezes now. -/
def freezeDue (r : Region) : Bool :=
  decide (r.stage = .running) && r.started && !r.frozen && r.stopP.isNone && r.swait.isNone
    && (match r.haltD with
      | some _ => decide (r.tide < r.haltH)
      | none => true)
    && match freezeAt r with
      | some z => decide (z ≤ r.tide)
      | none => false

/-- The timed work of a region goes on at its TIDE: it is not frozen there, nor has it come to H (R47, R359). -/
def Region.goes (r : Region) : Bool := !r.frozen && !freezeDue r && (r.haltD.isNone || decide (r.tide < r.haltH))

/-- Records a fault or event among those detected (R357). -/
def recordFault (s : State) (h : Nat) (w : Who) (f : Flt) (sh : Bool) : State :=
  let r := regAt s h
  { setReg s h { r with faults := r.faults ++ [faultRec s h w f sh] } with nextId := s.nextId + 1 }

/-- Adds the access to the shadow list of its cell (R358). -/
def addShadow (s : State) (w : Who) (f : Flt) (primary : Bool) : State :=
  match f.shadow with
  | none => s
  | some (va, vb, vd, land) =>
    let c := cellAt s w.key
    let r := regOf s w.key
    let e : Shadow :=
      { word := w.word, pc := w.pc, seq := w.seq, tide := w.cyc.getD r.tide, code := f.code, taddr := f.taddr, va := va, vb := vb,
        vdata := vd, land := land, primary := primary }
    setCell s w.key { c with shadow := c.shadow ++ [e] }

/-- A package reset: only the boot store, its preferences and the failed-site list survive (R27, R449, R452). What the
environment puts next and what has been sent are no state of the package. -/
def packageReset (s : State) : State :=
  { State.reset with outputs := s.outputs, inputs := s.inputs, pauses := s.pauses, looks := s.looks, fecs := s.fecs, rom := s.rom,
                     bslots := s.bslots, pref := s.pref, flist := s.flist, ftag := s.ftag, fresh := s.fresh, slack0 := s.slack0 }

/-- R448, R486. Answers of the lighthouse to a core that restarts are discarded: those that wait, and those to the requests that it
sent before and that are not answered yet. -/
def muteCore (s : State) (n : Nat) : State :=
  setCore
    { s with lhans := s.lhans.filter (fun a => decide (a.1 ≠ n)),
             retrain := s.retrain.map fun x => if x.1.core = n then ({ x.1 with mute := true }, x.2) else x }
    n { coreAt s n with stale := ((coreAt s 8).mbox.filter fun w => decide ((w.extractLsb' 56 8).toNat = n + 1)).length }

/-- A fault on a core: the handler's entry (R449). A fault in the handler restarts a harbour core at its image entry; on
the lighthouse core it resets the package. -/
def coreFault (s : State) (n : Nat) (pc : Nat) (f : Flt) : State :=
  let c := coreAt s n
  if c.mcause.getLsbD 63 then
    if n = 8 then packageReset s
    else
      let s := muteCore s n
      let c := coreAt s n
      setCore s n
        { c with st := { c.st with pc := c.entry, since := none, pre := [] }, mcause := c.mcause &&& 0x7FFFFFFFFFFFFFFF,
                 cresets := if c.cresets = 0xFFFFFFFF then c.cresets else c.cresets + 1, rst := c.rst + 1 }
  else
    let cause : Word := BitVec.ofNat 64 (f.code + f.arg.toNat * 65536) ||| 0x8000000000000000
    setCore s n
      { c with mepc := BitVec.ofNat 64 pc, mcause := cause, st := { c.st with pc := c.mtvec.toNat, since := none } }

/-- TAKING AN EXCEPTION, for every agent (R354 to R358, R365, R375, R449): a core enters its handler; a fault in a stub
is kept for the record, and the stubs stop at the end of the period; an elastic fault of the class "ends" ends its stream or task; every other fault raises the
halt line, or is a shadow entry or secondary in the skid. -/
def takeFault (s : State) (w : Who) (f : Flt) : State :=
  if isCore w.key then coreFault s (w.key - coreKey) w.pc f
  else
    let c := cellAt s w.key
    let h := c.reg
    let r := regAt s h
    let st := c.stream w.seq
    if st.stub = .trap ∨ st.stub = .rebuild then
      let s := if r.stubCode = 0 then setReg s h { r with stubCode := f.code, stopP := some (s.per + 1) } else s
      recordFault s h w f false
    else if !st.counted && endsClass f.code then endElastic s w f.code
    else
      match r.haltD with
      | none => raiseHalt (addShadow (recordFault s h w f false) w f true) h w.cyc
      | some d =>
        if w.cyc.getD r.tide ≤ d then addShadow (recordFault s h w f false) w f true
        else if shadowClass f.code && f.shadow.isSome && decide ((c.shadow.filter (!·.primary)).length < 32) then
          addShadow (recordFault s h w f true) w f false
        else recordFault s h w f false

/-- The S stream set aside for a trap stub comes back. -/
def Cell.unstub (c : Cell) : Cell :=
  match c.kept with
  | some st => { c with ss := st, kept := none }
  | none => c

/-- A timed stream is pre-decoded again from a TIDE on (R367). -/
def Stream.preAgain (st : Stream) (t : Nat) : Stream := { st with preTo := t, resv := [], retp := [] }

/-- Every stream of a cell, as it goes on at a TIDE, is pre-decoded again. -/
def Cell.preAgain (c : Cell) (t : Nat) : Cell :=
  { c with ss := c.ss.preAgain t, sl := c.sl.preAgain t, sc := c.sc.preAgain t, sw := c.sw.preAgain t }

/-- A stopped region is to resume in a period: its own S streams take the stubs' places, and what the timed streams issue from
TIDE on is pre-decoded again in the 64 periods before (R367). -/
def resumeAfter (s : State) (h p : Nat) : State :=
  let r := regAt s h
  let s := (regCells r).foldl (fun s k => setCell s k ((cellAt s k).unstub.preAgain r.tide)) s
  setReg s h { regAt s h with resP := some p }

/-- THE RETURN FROM AN EXCEPTION (R215, R367, R449): on a core in its handler, PC := MEPC and the handler mark clears; in
a trap stub, the stub ends, and the last one of the region fixes the period of resumption, 64 after the next frame
boundary. The answer is none where neither holds. -/
def returnFault (s : State) (key : Nat) (q : Seq) : Option State :=
  if isCore key then
    let n := key - coreKey
    let c := coreAt s n
    if c.mcause.getLsbD 63 then
      some (setCore s n { c with mcause := c.mcause &&& 0x7FFFFFFFFFFFFFFF, st := { c.st with pc := c.mepc.toNat } })
    else none
  else
    let c := cellAt s key
    let st := c.stream q
    if st.stub = .trap then
      let s := setCell s key (c.setStream q { st with ended := true })
      let r := regAt s c.reg
      let left := (regCells r).any fun k =>
        let x := cellAt s k
        x.kept.isSome && !x.ss.ended
      if left then some s
      else some (resumeAfter s c.reg (s.per + (256 - s.frame) + 64))
    else none

-- Issue of a word ------------------------------------------------------------------------------------------------------

/-- How the issue of a word ends: done, done with a transfer to a byte offset, a fault without effect, a fault whose word
has had the effect given, or a wait for operands. -/
inductive Res
  | ok (s : State)
  | goto (s : State) (pc : Nat)
  | fault (f : Flt)
  | okFault (s : State) (f : Flt)
  | wait

/-- What a word sees of its agent at issue. -/
structure Ctx where
  key   : Nat
  seq   : Seq
  st    : Stream
  timed : Bool
  core  : Bool
  /-- TIDE at issue -/
  t     : Nat
  /-- byte offset of the word -/
  pc    : Nat
deriving DecidableEq, Repr

/-- The result of a scalar word: a timed word's lands at issue + latency, an elastic word's at once (R41, R56, R182). -/
def landA (s : State) (c : Ctx) (r : BitVec 6) (v : Word) (latency : Nat) : State :=
  if c.timed && !c.core then
    if r = 0 then s
    else addLatch s c.key
      { due := c.t + latency, tgt := .a r.toNat, val := v.setWidth 2048, seq := c.seq, pc := c.pc }
  else writeA s c.key r.toNat v

/-- Where a word is legal (R182, R227, R266, R302, R350, R365, R375, R404). -/
structure Legal where
  spaces  : List Space := []
  timed   : Bool := true
  elastic : Bool := true
  core    : Bool := false
  trap    : Bool := true
  rebuild : Bool := true
  start   : Bool := false
  /-- sequencer of L and W that may issue it -/
  wOnly   : Bool := false
  /-- the management row: cores alone -/
  mgmt    : Bool := false
  /-- it accesses memory as it issues, or starts an engine operation, so that an acquire of its sequencer holds it (R113) -/
  acc     : Bool := false
deriving DecidableEq, Repr

/-- A field error or a word in the wrong place. -/
def illegal : Res := .fault { code := cIllegal }

/-- The schedule-miss fault. -/
def schedMiss : Res := .fault { code := cSched }

/-- The condition under which the agent's stream may issue at all. The lighthouse core issues the words of its ROM (log 2). -/
def canIssue (s : State) (key : Nat) (q : Seq) : Bool :=
  let st := streamAt s key q
  if isCore key then !(coreAt s (key - coreKey)).held && st.begun && !st.ended && decide (key ≠ lightKey ∨ st.pc + 8 ≤ s.rom.length)
  else decide (st.mode ≠ .none) && st.begun && !st.ended

/-- Whether a word is legal for its agent. -/
def legalFor (lg : Legal) (c : Ctx) : Bool :=
  (lg.spaces.isEmpty || lg.spaces.contains (seqSpace c.key c.seq))
    && (if c.core then lg.core || lg.mgmt else !lg.mgmt)
    && (if c.timed then lg.timed else lg.elastic)
    && (decide (c.st.stub ≠ .trap) || lg.trap)
    && (decide (c.st.stub ≠ .rebuild) || lg.rebuild)
    && (!lg.wOnly || decide (c.seq = .w))

/-- The join check of R201 before the effect of the word at a byte offset, in a cycle: the joins left, or none where the
stream misses its schedule. -/
def popJoins (y t : Nat) : List Join → Option (List Join)
  | [] => some []
  | j :: js =>
    if y = j.addr ∨ j.cycle ≤ t then
      if y = j.addr ∧ t = j.cycle then popJoins y t js else none
    else some (j :: js)

/-- The target that a RET read at its pre-decode (R200): by its cycle and its byte offset. -/
def Stream.retAt (st : Stream) (cyc pc : Nat) : Option Word :=
  (st.retp.find? fun p => decide (p.1 = cyc ∧ p.2.1 = pc)).map (·.2.2)

/-- The stream after the issue of a word: the next word follows, the last issue is now. Past START the pre-decoded words whose cycle
has come are over. -/
def Stream.advance (st : Stream) (now : Nat) (js : List Join) : Stream :=
  { st with pc := st.pc + 8, last := now, waitc := 0, wake := 0, since := none, joins := js,
            pos := if st.counted then st.pos else 2,
            bw := none,
            resv := st.resv.filter (fun x => !(decide (x.cyc ≤ now) && decide (st.mode = .timed) && decide (st.pos = 2))) }

/-- The region of an elastic plan counts from its first issue (R40). -/
def touchStart (s : State) (key : Nat) : State :=
  if isCore key then s
  else
    let h := (cellAt s key).reg
    let r := regAt s h
    if r.started then s
    else if hasTimed s r then s
    else if r.stage = .running then setReg s h { r with started := true, tide := 0 } else s

/-- The agent whose word runs, as the word sees it. -/
def ctxAt (s : State) : Ctx :=
  let st := streamAt s s.cur s.curSeq
  { key := s.cur, seq := s.curSeq, st := st, timed := st.counted && !isCore s.cur, core := isCore s.cur,
    t := if isCore s.cur then s.per else (regOf s s.cur).tide, pc := st.pc }

/-- A word that has to wait for its operands is tried again in the next period (R56); its wait counts from now. -/
def waitWord (s : State) (c : Ctx) : State :=
  setStreamAt s c.key c.seq
    { c.st with wake := s.per + 1, since := some (match c.st.since with | some x => x | none => s.tick) }

/-- The cycle that an issue is counted from: TIDE in a timed stream past START, otherwise the period. -/
def issueNow (s : State) (c : Ctx) : Nat := if c.timed && decide (c.st.pos = 2) then c.t else s.per

/-- THE ISSUE OF A WORD (R36, R56, R165, R166, R201): the agent's stream moves past the word, then the word has its
effect, or faults without one, or waits; a word that waits has not issued, and the region has not begun (R40). -/
def runWord (lg : Legal) (regs : List (BitVec 6)) (body : Ctx → State → Res) (s0 : State) : State :=
  if !canIssue s0 s0.cur s0.curSeq then s0
  else
    let s := touchStart s0 s0.cur
    let c := ctxAt s
    let who : Who := { key := c.key, seq := c.seq, pc := c.pc, word := s.curWord }
    match (if c.timed then popJoins c.pc c.t c.st.joins else some c.st.joins) with
    | none => takeFault (setStreamAt s c.key c.seq (c.st.advance (issueNow s c) c.st.joins)) who { code := cSched }
    | some js =>
      let s1 := setStreamAt s c.key c.seq (c.st.advance (issueNow s c) js)
      if !legalFor lg c || (c.timed && !lg.start && decide (s.curIdle = 0))
          || (c.timed && decide (c.st.pos < 2) && !lg.start) then
        takeFault s1 who { code := cIllegal }
      else if !c.timed && (regs.any (fun r => pendingA s c.key r.toNat) || (lg.acc && acquiring s c.key c.seq)) then
        waitWord s0 c
      else
        match body c s1 with
        | .ok t => t
        | .goto t pc => setStreamAt t c.key c.seq { streamAt t c.key c.seq with pc := pc }
        | .fault f => takeFault s1 who f
        | .okFault t f => takeFault t who f
        | .wait => waitWord s0 c

/-- The answer of a meaning: the machine always goes on. -/
abbrev Out := Host.Outcome State Fault Refusal

/-- A word's meaning. -/
def word (lg : Legal) (regs : List (BitVec 6)) (body : Ctx → State → Res) (s : State) : Out :=
  .next (runWord lg regs body s)

end Sys2Proof.Machine
end

