-- ==== Sys2Proof/Machine/Sha.lean ====
section
/-! DEFINITION. SHA-512 and HMAC-SHA-512, which R450, R451 and R454 name without giving their algorithms: those of FIPS 180-4
and FIPS 198-1. PRESUMED, log 7. -/

namespace Sys2Proof.Machine

/-- The 80 round constants: the first 64 bits of the fractional parts of the cube roots of the first 80 primes. -/
def shaK : List (BitVec 64) :=
  [0x428A2F98D728AE22, 0x7137449123EF65CD, 0xB5C0FBCFEC4D3B2F, 0xE9B5DBA58189DBBC,
      0x3956C25BF348B538, 0x59F111F1B605D019, 0x923F82A4AF194F9B, 0xAB1C5ED5DA6D8118,
      0xD807AA98A3030242, 0x12835B0145706FBE, 0x243185BE4EE4B28C, 0x550C7DC3D5FFB4E2,
      0x72BE5D74F27B896F, 0x80DEB1FE3B1696B1, 0x9BDC06A725C71235, 0xC19BF174CF692694,
      0xE49B69C19EF14AD2, 0xEFBE4786384F25E3, 0x0FC19DC68B8CD5B5, 0x240CA1CC77AC9C65]
    ++ [0x2DE92C6F592B0275, 0x4A7484AA6EA6E483, 0x5CB0A9DCBD41FBD4, 0x76F988DA831153B5,
      0x983E5152EE66DFAB, 0xA831C66D2DB43210, 0xB00327C898FB213F, 0xBF597FC7BEEF0EE4,
      0xC6E00BF33DA88FC2, 0xD5A79147930AA725, 0x06CA6351E003826F, 0x142929670A0E6E70,
      0x27B70A8546D22FFC, 0x2E1B21385C26C926, 0x4D2C6DFC5AC42AED, 0x53380D139D95B3DF,
      0x650A73548BAF63DE, 0x766A0ABB3C77B2A8, 0x81C2C92E47EDAEE6, 0x92722C851482353B]
    ++ [0xA2BFE8A14CF10364, 0xA81A664BBC423001, 0xC24B8B70D0F89791, 0xC76C51A30654BE30,
      0xD192E819D6EF5218, 0xD69906245565A910, 0xF40E35855771202A, 0x106AA07032BBD1B8,
      0x19A4C116B8D2D0C8, 0x1E376C085141AB53, 0x2748774CDF8EEB99, 0x34B0BCB5E19B48A8,
      0x391C0CB3C5C95A63, 0x4ED8AA4AE3418ACB, 0x5B9CCA4F7763E373, 0x682E6FF3D6B2B8A3,
      0x748F82EE5DEFB2FC, 0x78A5636F43172F60, 0x84C87814A1F0AB72, 0x8CC702081A6439EC]
    ++ [0x90BEFFFA23631E28, 0xA4506CEBDE82BDE9, 0xBEF9A3F7B2C67915, 0xC67178F2E372532B,
      0xCA273ECEEA26619C, 0xD186B8C721C0C207, 0xEADA7DD6CDE0EB1E, 0xF57D4F7FEE6ED178,
      0x06F067AA72176FBA, 0x0A637DC5A2C898A6, 0x113F9804BEF90DAE, 0x1B710B35131C471B,
      0x28DB77F523047D84, 0x32CAAB7B40C72493, 0x3C9EBE0A15C9BEBC, 0x431D67C49C100D4C,
      0x4CC5D4BECB3E42B6, 0x597F299CFC657E2A, 0x5FCB6FAB3AD6FAEC, 0x6C44198C4A475817]

/-- The initial hash value: the first 64 bits of the fractional parts of the square roots of the first 8 primes. -/
def shaInit : List (BitVec 64) :=
  [0x6A09E667F3BCC908, 0xBB67AE8584CAA73B, 0x3C6EF372FE94F82B, 0xA54FF53A5F1D36F1,
   0x510E527FADE682D1, 0x9B05688C2B3E6C1F, 0x1F83D9ABFB41BD6B, 0x5BE0CD19137E2179]

/-- The bytes of a list from the first on, as one number with the first byte highest. -/
def bigEnd (l : List Byte) : Nat := l.foldl (fun n b => n * 256 + b.toNat) 0

/-- The last n bytes of a number, the highest first. -/
def bigBytes (n x : Nat) : List Byte := (List.range n).map fun i => BitVec.ofNat 8 (x / 256 ^ (n - 1 - i))

/-- A message padded to whole blocks of 128 bytes: 0x80, zeros, and its length in bits as 16 bytes. -/
def shaPad (m : List Byte) : List Byte :=
  m ++ [0x80] ++ List.replicate ((239 - m.length % 128) % 128) 0 ++ bigBytes 16 (8 * m.length)

/-- The n words of a list of bytes. -/
def shaWords : Nat → List Byte → List (BitVec 64)
  | 0, _ => []
  | n + 1, l => BitVec.ofNat 64 (bigEnd (l.take 8)) :: shaWords n (l.drop 8)

/-- The schedule from a window of 16 words on, with the round constants that are left: each round's word with its constant. -/
def shaSched : List (BitVec 64) → List (BitVec 64) → List (BitVec 64)
  | [], _ => []
  | k :: ks, w =>
    let x := w.getD 0 0
    let y := w.getD 1 0
    let z := w.getD 14 0
    let s0 := y.rotateRight 1 ^^^ y.rotateRight 8 ^^^ y >>> 7
    let s1 := z.rotateRight 19 ^^^ z.rotateRight 61 ^^^ z >>> 6
    (k + x) :: shaSched ks (w.drop 1 ++ [x + s0 + w.getD 9 0 + s1])

/-- The eight working words of a hash. -/
structure Sha where
  a : BitVec 64
  b : BitVec 64
  c : BitVec 64
  d : BitVec 64
  e : BitVec 64
  f : BitVec 64
  g : BitVec 64
  h : BitVec 64
deriving DecidableEq, Repr

/-- One round. -/
def shaRound (v : Sha) (kw : BitVec 64) : Sha :=
  let s1 := v.e.rotateRight 14 ^^^ v.e.rotateRight 18 ^^^ v.e.rotateRight 41
  let ch := (v.e &&& v.f) ^^^ (~~~v.e &&& v.g)
  let t1 := v.h + s1 + ch + kw
  let s0 := v.a.rotateRight 28 ^^^ v.a.rotateRight 34 ^^^ v.a.rotateRight 39
  let maj := (v.a &&& v.b) ^^^ (v.a &&& v.c) ^^^ (v.b &&& v.c)
  { a := t1 + (s0 + maj), b := v.a, c := v.b, d := v.c, e := v.d + t1, f := v.e, g := v.f, h := v.g }

/-- The hash after a block of 128 bytes. -/
def shaBlock (v : Sha) (m : List Byte) : Sha :=
  let x := (shaSched shaK (shaWords 16 m)).foldl shaRound v
  { a := v.a + x.a, b := v.b + x.b, c := v.c + x.c, d := v.d + x.d, e := v.e + x.e, f := v.f + x.f, g := v.g + x.g, h := v.h + x.h }

/-- The hash after n blocks. -/
def shaBlocks : Nat → Sha → List Byte → Sha
  | 0, v, _ => v
  | n + 1, v, l => shaBlocks n (shaBlock v (l.take 128)) (l.drop 128)

/-- The 64 bytes of a digest, in the order in which the standard writes them. -/
def shaBytes (m : List Byte) : List Byte :=
  let p := shaPad m
  let g (i : Nat) : BitVec 64 := shaInit.getD i 0
  let v := shaBlocks (p.length / 128) { a := g 0, b := g 1, c := g 2, d := g 3, e := g 4, f := g 5, g := g 6, h := g 7 } p
  [v.a, v.b, v.c, v.d, v.e, v.f, v.g, v.h].flatMap fun w => bigBytes 8 w.toNat

/-- SHA-512 as a 512-bit value whose little-endian bytes are the digest's bytes in order. DESIGN CHOICE, log 7. -/
def sha512 (m : List Byte) : BitVec 512 := BitVec.ofNat 512 ((shaBytes m).foldr (fun b n => b.toNat + 256 * n) 0)

/-- A key of HMAC: 128 bytes, a longer one being hashed. -/
def hmacPad (key : List Byte) : List Byte :=
  let k := if 128 < key.length then shaBytes key else key
  k ++ List.replicate (128 - k.length) 0

/-- HMAC-SHA-512 of a message. -/
def hmac512 (key m : List Byte) : List Byte :=
  let k := hmacPad key
  shaBytes (k.map (· ^^^ 0x5C) ++ shaBytes (k.map (· ^^^ 0x36) ++ m))

end Sys2Proof.Machine
end

