-- ==== Sys2Proof/Machine/Mem.lean ====
section
/-! DEFINITION. Memory: bytes, scratchpads with their windows and phase buffers (R84 to R86, R108 to R110), barrier
objects (R91 to R93), tensors and their layout (R72 to R79), tiles and frames (R81, R99, R100, R437), leases (R98), and
device memory requests (R70, R105, R112 to R125). -/

namespace Sys2Proof.Machine

-- Bytes (R5) ---------------------------------------------------------------------------------------------------------

/-- The n low bytes of a number, lowest first. -/
def toBytes : Nat → Nat → List Byte
  | 0, _ => []
  | n + 1, v => BitVec.ofNat 8 v :: toBytes n (v / 256)

/-- The number whose little-endian bytes are given. -/
def ofBytes : List Byte → Nat
  | [] => 0
  | b :: bs => b.toNat + 256 * ofBytes bs

/-- Sign extension of the low w bits of a number to 64 bits. -/
def sextNat (w v : Nat) : Word :=
  let x := v % 2 ^ w
  if 2 ^ (w - 1) ≤ x then BitVec.ofNat 64 (2 ^ 64 + x - 2 ^ w) else BitVec.ofNat 64 x

/-- The signed value of the low w bits of a number. -/
def sintNat (w v : Nat) : Int :=
  let x := v % 2 ^ w
  if 2 ^ (w - 1) ≤ x then (x : Int) - (2 ^ w : Nat) else (x : Int)

/-- The w-bit two's complement of an integer. -/
def ofInt (w : Nat) (i : Int) : Nat := (i % ((2 ^ w : Nat) : Int)).toNat

/-- Bits hi to lo of a word. -/
def bits (w : Word) (hi lo : Nat) : Nat := (w.toNat / 2 ^ lo) % 2 ^ (hi + 1 - lo)

-- Physical memory (R69, R81) -----------------------------------------------------------------------------------------

/-- Reads one byte of device memory; an unlisted byte reads 0 (log 1). -/
def memByte (s : State) (a : Nat) : Byte := sget memDefault s.mem a

/-- Writes one byte of device memory, keeping the canonical form. -/
def memPut (m : List Host.Cell) (a : Nat) (b : Byte) : List Host.Cell := sput memDefault m a b

/-- Writes bytes from an address on. -/
def memPuts (m : List Host.Cell) (a : Nat) : List Byte → List Host.Cell
  | [] => m
  | b :: bs => memPuts (memPut m a b) (a + 1) bs

/-- Reads n bytes from an address on. -/
def memBytes (s : State) (a : Nat) : Nat → List Byte
  | 0 => []
  | n + 1 => memByte s a :: memBytes s (a + 1) n

/-- The frame number of a frame word: base, medium and frame (R437, R438). -/
def frameOf (e : Word) : Nat := (bits e 20 18 * 8 + bits e 23 21) * 2 ^ 20 + bits e 43 24

/-- The address of a byte of a frame. -/
def physOf (e : Word) (off : Nat) : Nat := frameOf e * 65536 + off

-- Tensors (R72 to R78) ------------------------------------------------------------------------------------------------

/-- The tensor id of a tensor address. -/
def tidOf (a : Word) : Nat := bits a 63 48

/-- The linear index of a tensor address. -/
def idxOf (a : Word) : Nat := bits a 47 0

/-- A tensor address with an index. -/
def taddr (tens idx : Nat) : Word := BitVec.ofNat 64 (tens * 2 ^ 48 + idx % 2 ^ 48)

/-- Storage bits of an element (R76). -/
def fmtBits (fmt : Nat) : Nat :=
  match fmt with
  | 0 | 1 | 9 | 10 | 13 => 8
  | 2 | 3 | 11 => 16
  | 4 | 5 | 12 => 32
  | 6 => 64
  | 7 | 8 => 4
  | 14 => 256
  | _ => 8

/-- The product of a list. -/
def prod (l : List Nat) : Nat := l.foldl (· * ·) 1

/-- Element count (R75). -/
def Desc.count (d : Desc) : Nat := prod d.ext

/-- Tile counts per dimension: G_d of R78. -/
def Desc.grid (d : Desc) : List Nat := (d.ext.zip d.tile).map fun p => (p.1 + p.2 - 1) / p.2

/-- Tile count. -/
def Desc.ntiles (d : Desc) : Nat := prod d.grid

/-- Tile size in bytes. -/
def Desc.tileBytes (d : Desc) : Nat := prod d.tile * fmtBits d.fmt / 8

/-- Coordinates of a linear index (R78). -/
def coords : List Nat → Nat → List Nat
  | [], _ => []
  | e :: es, i => (i % e) :: coords es (i / e)

/-- The tile number of coordinates (R78): fold of quotient and scale. -/
def tileNum : List Nat → List Nat → List Nat → Nat → Nat
  | c :: cs, t :: ts, g :: gs, scale => (c / t) * scale + tileNum cs ts gs (scale * g)
  | _, _, _, _ => 0

/-- The element offset in layout order (R78): positions from outermost to position 0. -/
def layoutOff (lord tile u : List Nat) (rank : Nat) : Nat :=
  ((List.range rank).reverse).foldl
    (fun off j => let d := lord.getD j 0; off * tile.getD d 1 + u.getD d 0) 0

/-- Tile and bit offset within the tile of a linear index (R78). -/
def Desc.locate (d : Desc) (i : Nat) : Nat × Nat :=
  let c := coords d.ext i
  let u := (c.zip d.tile).map fun p => p.1 % p.2
  (tileNum c d.tile d.grid 1, layoutOff d.lord d.tile u d.rank * fmtBits d.fmt)

/-- The linear index of the element at an element offset of a tile, or none for a position outside the extents
(R79). -/
def Desc.elemAt (d : Desc) (tile off : Nat) : Option Nat :=
  let rec unlay : List Nat → Nat → List (Nat × Nat)
    | [], _ => []
    | dim :: ds, o => let t := d.tile.getD dim 1; (dim, o % t) :: unlay ds (o / t)
  let us := unlay (d.lord.take d.rank) off
  let tcs := coords d.grid tile
  let c := (List.range 5).map fun j => tcs.getD j 0 * d.tile.getD j 1 + sget 0 us j
  if (c.zip d.ext).all (fun p => decide (p.1 < p.2)) then
    some (((c.zip d.ext).reverse).foldl (fun acc p => acc * p.2 + p.1) 0)
  else none

/-- The key of a tile-table entry: table space, tensor and tile. -/
def ttKey (ts tens tile : Nat) : Nat := (ts * 65536 + tens) * 2 ^ 32 + tile

/-- State of an entry (R99): 0 ABSENT, 1 RESIDENT, 2 MIGRATING, 3 DISCARDED. -/
def entState (e : Word) : Nat := bits e 1 0

/-- The pins of an entry. -/
def entPins (e : Word) : Nat := bits e 15 4

/-- The generation of an entry. -/
def entGen (e : Word) : Nat := bits e 63 48

/-- An entry from its fields. -/
def mkEntry (st pins base med frame gen : Nat) : Word :=
  BitVec.ofNat 64 (st % 4 + (pins % 4096) * 16 + (base % 8) * 2 ^ 18 + (med % 8) * 2 ^ 21 + (frame % 2 ^ 20) * 2 ^ 24
    + (gen % 65536) * 2 ^ 48)

/-- An entry with another state, its generation raised (R437). -/
def entSetState (e : Word) (st : Nat) : Word :=
  mkEntry st (entPins e) (bits e 20 18) (bits e 23 21) (bits e 43 24) (entGen e + 1)

/-- The default of a privileged register whose reset value is not 0 (R351, R427, R436, R465, R466): by site and
number. -/
def pregDefault (site num : Nat) : Word :=
  if site = 0x20 then
    if num = 0x3FF then 4
    else if 0x400 ≤ num ∧ num < 0x800 then
      match num % 4 with
      | 0 => 0x70002710
      | 1 => 0x186A000040000
      | 2 => 0x186A000000000
      | _ => 0
    else if num = 0x70 then 0xFFFF
    else if 0x180 ≤ num ∧ num < 0x1C0 ∧ num % 2 = 1 then 0xFFFF
    else 0
  else if 0x20 ≤ site ∧ site ≤ 0x23 ∧ 0x80 ≤ num ∧ num < 0x84 then 0xFFFF0000
  else 0

/-- A privileged register held as a word. -/
def preg (s : State) (site num : Nat) : Word :=
  match sfind s.pregs (site * 4096 + num) with
  | some v => v
  | none => pregDefault site num

/-- Writes a privileged register held as a word. -/
def setPreg (s : State) (site num : Nat) (v : Word) : State :=
  { s with pregs := sset s.pregs (site * 4096 + num) v }

/-- The table space of a context: a tensor of the management context; 0 where it has none (R436). The tables stay in their
space: what CTBL no longer names is out of force, and in force again when a context names it (log 92). -/
def tsOf (s : State) (ctx : Nat) : Nat := bits (preg s 0x20 (0x403 + 4 * ctx)) 15 0

/-- The context's tensor-table length (R74, R436); without a table space it has no table. -/
def tableLen (s : State) (ctx : Nat) : Nat := if tsOf s ctx = 0 then 0 else bits (preg s 0x20 (0x403 + 4 * ctx)) 31 16

/-- The installed descriptor of a context's tensor (R75). -/
def descOf (s : State) (ctx tens : Nat) : Option Desc :=
  if tsOf s ctx = 0 then none else sfind s.tens (tsOf s ctx * 65536 + tens)

/-- The tile-table entry of a tile (R437). -/
def entryOf (s : State) (ctx tens tile : Nat) : Word :=
  if tsOf s ctx = 0 then 0 else sget 0 s.tt (ttKey (tsOf s ctx) tens tile)

/-- The byte of memory at which a byte of a context's table space lies, where the space is resident (R436). -/
def tsByte (s : State) (ctx off : Nat) : Option Nat :=
  match descOf s 255 (tsOf s ctx) with
  | none => none
  | some td =>
    let loc := td.locate off
    let te := entryOf s 255 (tsOf s ctx) loc.1
    if entState te = 1 then some (physOf te (loc.2 / 8)) else none

/-- The boot store as a UINT8 tensor of the management context (R452, R485): slot i of KIND k lies at byte
(2 × (k − 1) + i) × 2^24, and the preferences and the failed-site list in a last tile; the layout is the model's (log 13). -/
def bootDesc : Desc :=
  { fmt := 0, rank := 1, lord := [0, 0, 0, 0, 0], ext := [6 * 2 ^ 24 + 65536, 1, 1, 1, 1], tile := [65536, 1, 1, 1, 1], ttbase := 0 }

/-- Whether a tensor of a context is the boot store. -/
def isBoot (ctx tens : Nat) : Bool := decide (ctx = 255 ∧ tens = 0xFFFE)

/-- R74 on the id alone: the descriptor, if the id names one. -/
def descFor (s : State) (ctx tens : Nat) : Option Desc :=
  if isBoot ctx tens then some bootDesc
  else if tens = 0 ∨ tens = 0xFFFF ∨ tableLen s ctx ≤ tens then none else descOf s ctx tens

/-- Writes an entry of a tile table, in the table and, where the table space is resident, in its bytes (R436). -/
def setEntry (s : State) (ctx tens tile : Nat) (e : Word) : State :=
  if tsOf s ctx = 0 then s
  else
    let s := { s with tt := sput 0 s.tt (ttKey (tsOf s ctx) tens tile) e }
    match descOf s ctx tens with
    | none => s
    | some d =>
      match tsByte s ctx (d.ttbase * 8 + tile * 8) with
      | some a => { s with mem := memPuts s.mem a (toBytes 8 e.toNat) }
      | none => s

/-- The peer-map entry of a tensor (R466): home package, tensor and context there. -/
def peerOf (s : State) (ctx tens : Nat) : Option (Nat × Nat × Nat) :=
  (List.range 32).foldl
    (fun r n =>
      match r with
      | some x => some x
      | none =>
        let a := preg s 0x20 (0x180 + 2 * n)
        if a.getLsbD 24 && decide (bits a 15 0 = tens) && decide (bits a 23 16 = ctx) then
          let b := preg s 0x20 (0x181 + 2 * n)
          some (bits b 15 0, bits b 31 16, bits b 39 32)
        else none) none

/-- R485: a tile of the boot store lies in a slot that is not preferred. -/
def bootWritable (s : State) (tile : Nat) : Bool := decide (tile < 1536) && decide (tile / 256 % 2 ≠ sget 0 s.pref (tile / 512 + 1) % 2)

/-- Whether a tensor of the management context is the table space of a context (R436). -/
def isTable (s : State) (tens : Nat) : Bool :=
  s.pregs.any fun p => decide (0x20403 ≤ p.1 ∧ p.1 < 0x20803 ∧ p.1 % 4 = 3) && decide (bits p.2 15 0 = tens)

/-- R98: the region's leases cover a tile with a kind that permits the access. Cores need none; to them the table spaces
and the preferred boot slots are READ (R350, R436, R485). -/
def leased (s : State) (key ctx tens tile : Nat) (wr : Bool) : Bool :=
  if isCore key then
    if isBoot ctx tens then !wr || bootWritable s tile
    else !wr || !isTable s tens
  else
    (regAt s (cellAt s key).reg).leases.any fun l =>
      decide (l.tens = tens) && decide (l.first ≤ tile) && decide (tile < l.first + l.count)
        && (if wr then decide (2 ≤ l.kind) else decide (l.kind ≠ 2))

/-- Whether the base of a tile's frame is marked failed (R488). -/
def baseFailed (s : State) (e : Word) : Bool := decide (entState e ≠ 0) && s.failed.contains (12 + bits e 20 18)

/-- Whether an access of a sector meets a failed base (R488), or data of the frame with an uncorrectable error (R83); of a
DISCARDED tile no data are read (R99). -/
def sectorBad (s : State) (e : Word) (off : Nat) : Bool :=
  baseFailed s e || (decide (entState e = 1 ∨ entState e = 2) && s.bad.contains (physOf e (off / 32 * 32)))

/-- The authentication code of the failed-site list (R454). -/
def tagBytes (t : ListTag) : List Byte :=
  match t with
  | .made l => hmac512 Config.hmacKey l
  | .raw b => b

/-- A byte of the boot store's last tile: the preference byte of KIND k at k − 1, the code of the failed-site list from 64 and the
list from 128 on, then 0xFF; the layout is the model's (log 13). -/
def bootMisc (s : State) (i : Nat) : Byte :=
  if i < 3 then BitVec.ofNat 8 (sget 0 s.pref (i + 1))
  else if i < 64 then 0
  else if i < 128 then (tagBytes s.ftag).getD (i - 64) 0
  else s.flist.getD (i - 128) 0xFF

/-- A byte of the boot store (R452). -/
def bootByte (s : State) (tile off : Nat) : Byte :=
  if tile = 1536 then bootMisc s off else (sget [] s.bslots (tile / 256)).getD (tile % 256 * 65536 + off) 0

/-- Reads n bytes of a tile at its home (R99): zeros where DISCARDED or ABSENT. -/
def homeRead (s : State) (ctx tens tile off n : Nat) : List Byte :=
  if isBoot ctx tens then (List.range n).map fun i => bootByte s tile (off + i)
  else
  let e := entryOf s ctx tens tile
  if entState e = 1 ∨ entState e = 2 then memBytes s (physOf e off) n else List.replicate n 0

/-- Sectors of memory that n bytes from an address on replace whole have no error any more: nothing of them is merged (R83). -/
def healMem (s : State) (a n : Nat) : State := { s with bad := s.bad.filter fun x => !(decide (a ≤ x) && decide (x + 32 ≤ a + n)) }

/-- What is written to sectors of the source frame of a live migration, by whichever tile lies in the frame, clears their bits
(R438, R444). -/
def migTouch (s : State) (frame off n : Nat) : State :=
  { s with migs := s.migs.map fun m =>
      if frameOf (entryOf s m.ctx m.tens m.tile) = frame then
        { m with done := (List.range ((off + n + 31) / 32 - off / 32)).foldl (fun d j => sdel d (off / 32 + j)) m.done }
      else m }

/-- R100: the zero-fill of a DISCARDED tile, which becomes RESIDENT, its generation raised (R437). -/
def zeroFill (s : State) (ctx tens tile : Nat) : State :=
  let e := entryOf s ctx tens tile
  if entState e = 3 then
    let base := physOf e 0
    let s := { s with migs := s.migs.map fun (m : Migr) => if frameOf (entryOf s m.ctx m.tens m.tile) = frameOf e then { m with done := [] } else m }
    let s := { s with mem := s.mem.filter (fun p => !(decide (base ≤ p.1) && decide (p.1 < base + 65536))),
                      bad := s.bad.filter fun a => !(decide (base ≤ a) && decide (a < base + 65536)) }
    setEntry s ctx tens tile (entSetState e 1)
  else s

/-- R482: the sampler of the base counts a request that its ports apply. -/
def hotSample (s : State) (ctx tens tile : Nat) : State :=
  let e := entryOf s ctx tens tile
  if entState e = 0 then s
  else
  let b := bits e 20 18
  let h := sget {} s.hot b
  let ctl := preg s (0xC + b) 0xA8
  let n := h.cnt + 1
  let h := { h with cnt := n }
  if ctl.getLsbD 0 && decide (n % 2 ^ (bits ctl 4 1 + 8) = 0) then
    let smp : Word := BitVec.ofNat 64 (tens + ctx * 2 ^ 16 + bits e 23 21 * 2 ^ 24 + tile * 2 ^ 32)
    let h := if h.ring.length < 64 then { h with ring := h.ring ++ [smp] }
             else { h with drops := if h.drops = 0xFFFFFFFF then h.drops else h.drops + 1 }
    { s with hot := sset s.hot b h }
  else { s with hot := sset s.hot b h }

/-- Writes bytes of a tile at its home (R99, R100). -/
def homeWrite (s : State) (ctx tens tile off : Nat) (bs : List Byte) : State :=
  if isBoot ctx tens then
    let l := sget [] s.bslots (tile / 256)
    let at_ := tile % 256 * 65536 + off
    { s with bslots := sset s.bslots (tile / 256) ((l ++ List.replicate (at_ - l.length) 0).take at_ ++ bs ++ l.drop (at_ + bs.length)) }
  else
  let s := zeroFill s ctx tens tile
  let e := entryOf s ctx tens tile
  let s := migTouch s (frameOf e) off bs.length
  healMem { s with mem := memPuts s.mem (physOf e off) bs } (physOf e off) bs.length

/-- Writes a 4-bit element at a bit offset of a tile (R76). -/
def homeWriteNib (s : State) (ctx tens tile bitOff v : Nat) : State :=
  let old := (homeRead s ctx tens tile (bitOff / 8) 1).headD 0
  let nb := if bitOff % 8 = 0 then old.toNat / 16 * 16 + v % 16 else old.toNat % 16 + (v % 16) * 16
  homeWrite s ctx tens tile (bitOff / 8) [BitVec.ofNat 8 nb]

-- Scratchpads (R73, R84 to R86, R108, R109) -----------------------------------------------------------------------------

/-- The cell index of a cluster scratchpad address. -/
def spIdx (a : Word) : Nat := bits a 47 42

/-- The byte offset of a cluster scratchpad address. -/
def spOff (a : Word) : Nat := bits a 41 0

/-- R16, R74: the owner of a cluster scratchpad range of n bytes that an agent may access, or none. A core names only
its local memory (R350). -/
def spOwner (s : State) (key : Nat) (a : Word) (n : Nat) : Option Nat :=
  if isCore key then
    if spIdx a = 0 ∧ spOff a + n ≤ spadSize key then some key else none
  else
    match clusterCell key (spIdx a) with
    | none => none
    | some o =>
      if (cellAt s o).reg ≠ (cellAt s key).reg then none
      else if spadSize o < spOff a + n then none
      else if o ≠ key ∧ (cellAt s o).csr.shwin * 1024 < spOff a + n then none
      else some o

/-- The latest write of a writer to a byte in a phase buffer, if it holds one. -/
def pbFind (buf : List PbEntry) (writer off : Nat) : Option Byte :=
  buf.foldl
    (fun r e => if e.writer = writer ∧ e.word = off / 8 ∧ e.mask.getLsbD (off % 8) then
        some (e.data.extractLsb' (8 * (off % 8)) 8) else r) none

/-- One byte of a scratchpad as a cell reads it (R109). -/
def spadByte (s : State) (x y off : Nat) : Byte :=
  if isCore y then sget 0 (coreAt s (y - coreKey)).loc off
  else
    let c := cellAt s y
    let r := sget 0 c.spad off
    match (if x = y then pbFind c.pwb (cidxOf y) off else pbFind c.inb (cidxOf x) off) with
    | some b => b
    | none => r

/-- The aligned words of a scratchpad, or of a core's local memory, that have an uncorrectable error. -/
def badWords (s : State) (y : Nat) : List Nat :=
  if isCore y then (coreAt s (y - coreKey)).ecc else ((cellAt s y).ecc.filter fun x => decide (x.1 = 0)).map (·.2)

/-- R83: bytes of a cell's scratchpad lie in a word with an uncorrectable error; the grain of an SRAM's errors is the model's
(log 89). -/
def spadBad (s : State) (y off n : Nat) : Bool :=
  (badWords s y).any fun i => decide (off < 8 * i + 8) && decide (8 * i < off + n)

/-- R83: a store of n bytes merges with a word that has an uncorrectable error. -/
def spadMergeBad (s : State) (y off n : Nat) : Bool :=
  (badWords s y).any fun i => decide (off < 8 * i + 8) && decide (8 * i < off + n) && !(decide (off ≤ 8 * i) && decide (8 * i + 8 ≤ off + n))

/-- A word that a store replaces whole has no error any more. -/
def spadHeal (s : State) (y off n : Nat) : State :=
  if (badWords s y).isEmpty then s
  else if isCore y then
    let k := coreAt s (y - coreKey)
    setCore s (y - coreKey) { k with ecc := k.ecc.filter fun i => !(decide (off ≤ 8 * i) && decide (8 * i + 8 ≤ off + n)) }
  else
    let c := cellAt s y
    setCell s y { c with ecc := c.ecc.filter fun x => !(decide (x.1 = 0) && decide (off ≤ 8 * x.2) && decide (8 * x.2 + 8 ≤ off + n)) }

/-- n bytes of a scratchpad as a cell reads them. -/
def spadBytes (s : State) (x y off : Nat) : Nat → List Byte
  | 0 => []
  | n + 1 => spadByte s x y off :: spadBytes s x y (off + 1) n

/-- Puts a byte into a phase buffer (R108), or answers none where none of its 2,048 entries is free. DEDUCED, log 38: an entry
holds a word of one writer in one phase. -/
def pbPut (buf : List PbEntry) (writer ep off : Nat) (b : Byte) : Option (List PbEntry) :=
  let i := off % 8
  let d : Word := (b.setWidth 64) <<< (8 * i)
  let m : BitVec 8 := 1 <<< i
  let clr : Word := ~~~((0xFF : Word) <<< (8 * i))
  if buf.any (fun e => decide (e.writer = writer ∧ e.word = off / 8 ∧ e.ep = ep)) then
    some (buf.map fun e =>
      if e.writer = writer ∧ e.word = off / 8 ∧ e.ep = ep then { e with mask := e.mask ||| m, data := (e.data &&& clr) ||| d }
      else e)
  else
    if buf.length < 2048 then some (buf ++ [{ writer := writer, word := off / 8, mask := m, data := d, ep := ep }]) else none

/-- Writes a byte of a cell's merged or private scratchpad. -/
def spadPut (s : State) (y off : Nat) (b : Byte) : State :=
  if isCore y then
    let c := coreAt s (y - coreKey)
    setCore s (y - coreKey) { c with loc := sput 0 c.loc off b }
  else
    let c := cellAt s y
    setCell s y { c with spad := sput 0 c.spad off b }

/-- Stores bytes of cell x into the scratchpad of cell y (R85, R108): shared bytes enter a phase buffer in the phase that x
is in, private bytes take effect. None where a buffer is full. -/
def spadStore (s : State) (x y off : Nat) : List Byte → Option State
  | [] => some s
  | b :: bs =>
    let c := cellAt s y
    if !isCore y && decide (off < c.csr.shwin * 1024) then
      if x = y then
        match pbPut c.pwb (cidxOf y) c.ep off b with
        | some l => spadStore (setCell s y { c with pwb := l }) x y (off + 1) bs
        | none => none
      else
        match pbPut c.inb (cidxOf x) (cellAt s x).ep off b with
        | some l => spadStore (setCell s y { c with inb := l }) x y (off + 1) bs
        | none => none
    else spadStore (spadPut s y off b) x y (off + 1) bs

/-- An engine operation's write of bytes into a scratchpad, or its fault's code (R83, R108). -/
def spadWrite (s : State) (x y off : Nat) (bs : List Byte) : Except Nat State :=
  if spadMergeBad s y off bs.length then .error cMemErr
  else match spadStore (spadHeal s y off bs.length) x y off bs with
    | some t => .ok t
    | none => .error cPhaseOv

/-- A store of a word of cell x: an elastic one acts at once; a timed one's private bytes take effect at issue + d
(R127), its shared bytes enter the buffer at issue. None where a buffer is full. DESIGN CHOICE, log 102: a timed store too reaches the
buffer, the inbound buffer of another cell among them, in its issue cycle. -/
def storeAt (s : State) (c : Ctx) (y off : Nat) (bs : List Byte) (d : Nat) : Option State :=
  if c.timed && decide (y = c.key) then
    let win := (cellAt s y).csr.shwin * 1024
    let nsh := Nat.min bs.length (win - off)
    match spadStore s c.key y off (bs.take nsh) with
    | none => none
    | some s =>
      let rest := bs.drop nsh
      if rest.isEmpty then some s
      else some (addLatch s y { due := c.t + d, tgt := .spad (off + nsh), val := BitVec.ofNat 2048 (ofBytes rest),
                                mask := BitVec.ofNat 256 (2 ^ rest.length - 1), seq := c.seq, pc := c.pc })
  else spadStore s c.key y off bs

/-- Applies the entries of one writer up to a phase to the merged contents. -/
def pbApply (sp : SMap Byte) (buf : List PbEntry) (writer ep : Nat) : SMap Byte :=
  buf.foldl
    (fun sp e =>
      if e.writer = writer ∧ e.ep ≤ ep then
        (List.range 8).foldl
          (fun sp i => if e.mask.getLsbD i then sput 0 sp (e.word * 8 + i) (e.data.extractLsb' (8 * i) 8) else sp) sp
      else sp) sp

/-- The merge of R110 for one owner: its own buffer, then each writer in ascending index; the words that two or more
writers wrote are counted in PHCONF. `parts` gives the writers that take part with the phase each ends. -/
def mergeCell (c : Cell) (own ownEp : Nat) (parts : List (Nat × Nat)) : Cell :=
  let sp := pbApply c.spad c.pwb own ownEp
  let sp := parts.foldl (fun sp p => pbApply sp c.inb p.1 p.2) sp
  let hitO := c.pwb.filter (fun e => decide (e.ep ≤ ownEp))
  let hitI := c.inb.filter (fun e => parts.any (fun p => decide (p.1 = e.writer ∧ e.ep ≤ p.2)))
  let pairs : List (Nat × Nat) := ((hitO ++ hitI).map fun e => (e.writer, e.word)).eraseDups
  let words : List Nat := (pairs.map (·.2)).eraseDups
  let conf := (words.filter fun (w : Nat) => decide (2 ≤ (pairs.filter (fun (p : Nat × Nat) => decide (p.2 = w))).length)).length
  { c with spad := sp,
           pwb := c.pwb.filter (fun e => !decide (e.ep ≤ ownEp)),
           inb := c.inb.filter (fun e => !parts.any (fun p => decide (p.1 = e.writer ∧ e.ep ≤ p.2))),
           csr := { c.csr with phconf := BitVec.ofNat 32 (Nat.min (c.csr.phconf.toNat + conf) 0xFFFFFFFF),
                               shwin := c.csr.shwinNew.getD c.csr.shwin, shwinNew := none } }

-- Barrier objects (R91 to R93) -------------------------------------------------------------------------------------------

/-- The barrier word at an offset of a cell: the merged contents, at the owner's port. -/
def barWord (s : State) (y off : Nat) : Word :=
  BitVec.ofNat 64 (ofBytes ((List.range 8).map fun i => sget 0 (cellAt s y).spad (off + i)))

/-- Writes the barrier word. -/
def setBarWord (s : State) (y off : Nat) (w : Word) : State :=
  let c := cellAt s y
  setCell s y { c with spad := (List.range 8).foldl (fun sp i => sput 0 sp (off + i) (w.extractLsb' (8 * i) 8)) c.spad }

/-- add28 of R92. -/
def add28 (p : Nat) (x : Int) : Option Nat :=
  let v := sintNat 28 p + x
  if v < -(2 ^ 27) ∨ 2 ^ 27 - 1 < v then none else some (ofInt 28 v)

/-- complete(obj) of R92 on PEND, REM, EXP, PAR. -/
def barPack (pend rem exp par : Nat) : Word :=
  if rem = 0 ∧ pend = 0 then BitVec.ofNat 64 (exp * 2 ^ 28 + exp * 2 ^ 44 + (1 - par) * 2 ^ 60)
  else BitVec.ofNat 64 (pend + rem * 2 ^ 28 + exp * 2 ^ 44 + par * 2 ^ 60)

/-- check(obj) of R92. -/
def barOk (w : Word) : Bool := decide (bits w 63 61 = 0 ∧ bits w 59 44 ≠ 0)

/-- arrive(obj, n) of R92; none is a barrier fault. -/
def arriveWord (w : Word) (n : Int) : Option Word :=
  if !barOk w || decide (bits w 43 28 = 0) then none
  else match add28 (bits w 27 0) n with
    | none => none
    | some p => some (barPack p (bits w 43 28 - 1) (bits w 59 44) (bits w 60 60))

/-- land(obj, n) of R92; none is a barrier fault. -/
def landWord (w : Word) (n : Nat) : Option Word :=
  if !barOk w then none
  else match add28 (bits w 27 0) (-(n : Int)) with
    | none => none
    | some p => some (barPack p (bits w 43 28) (bits w 59 44) (bits w 60 60))

/-- The address conditions of R208: the owner's key and the offset. -/
def barAddr (s : State) (key : Nat) (a : Word) : Option (Nat × Nat) :=
  if tidOf a ≠ 0xFFFF ∨ a.toNat % 8 ≠ 0 then none
  else match spOwner s key a 8 with
    | none => none
    | some o => if (cellAt s o).csr.shwin * 1024 < spOff a + 8 then none else some (o, spOff a)

/-- n bytes land on the barrier at an offset of a cell (R92), or the fault's code: a barrier fault, or an uncorrectable error in the
barrier (R83). -/
def landOn (s : State) (y off n : Nat) : Except Nat State :=
  if spadBad s y off 8 then .error cMemErr
  else match landWord (barWord s y off) n with
    | some w => .ok (setBarWord s y off w)
    | none => .error cBarrier

/-- An arrival of n bytes at the barrier at an offset of a cell (R92): the state, or the fault's code. -/
def arriveOn (s : State) (y off : Nat) (n : Int) : Except Nat State :=
  if spadBad s y off 8 then .error cMemErr
  else match arriveWord (barWord s y off) n with
    | some w => .ok (setBarWord s y off w)
    | none => .error cBarrier

/-- A landing of n bytes on the barrier at an address of a cell's cluster (R235); no check of the window is made. -/
def barLanded (s : State) (key : Nat) (a : Word) (n : Nat) : Except Nat State :=
  if a = 0 ∨ n = 0 then .ok s
  else match clusterCell key (spIdx a) with
    | none => .ok s
    | some y => landOn s y (spOff a) n

/-- An operation stops at a fault: it is over, what it has read or sent and not yet landed is lost, and it adds no token
(R224). -/
def opStopped (s : State) (id : Nat) : State :=
  { s with ops := sdel s.ops id,
           reqs := s.reqs.filter fun p => decide (p.2.op ≠ id) || p.2.applied || decide (p.2.out ≠ 0),
           cells := s.cells.map fun p =>
             if p.2.lat.any fun l => decide (l.op = id) then (p.1, { p.2 with lat := p.2.lat.filter fun l => decide (l.op ≠ id) }) else p }

-- Tokens (R120) ------------------------------------------------------------------------------------------------------------

/-- A token count. -/
def tok (s : State) (key n : Nat) : Nat := (sget 0 (cellAt s key).k n).toNat

/-- The demand of the three consumer fields on a register. -/
def demand (k : Toks) (n : Nat) : Nat :=
  (if k.k1.toNat = n then 1 else 0) + (if k.k2.toNat = n then 1 else 0) + (if k.k3.toNat = n then 1 else 0)

/-- The registers that the consumer fields name. -/
def tokRegs (k : Toks) : List Nat := ([k.k1.toNat, k.k2.toNat, k.k3.toNat].filter (· ≠ 0)).eraseDups

/-- Consumes the tokens that a word names (R120, R162), or none where a count is below the demand. -/
def takeToks (s : State) (key : Nat) (k : Toks) : Option State :=
  if (tokRegs k).all (fun n => decide (demand k n ≤ tok s key n)) then
    let c := cellAt s key
    some (setCell s key
      { c with k := (tokRegs k).foldl (fun m n => sset m n (BitVec.ofNat 16 (tok s key n - demand k n))) c.k })
  else none

/-- Adds 1 to a token count (R120); beyond 65,535 the count stays and the fault is the answer. -/
def addTok (s : State) (key n : Nat) : State × Bool :=
  if n = 0 then (s, true)
  else
    let c := cellAt s key
    if tok s key n = 65535 then (s, false)
    else (setCell s key { c with k := sset c.k n (BitVec.ofNat 16 (tok s key n + 1)) }, true)

/-- Adds a token at a TIDE (timed), or now. -/
def addTokAt (s : State) (c : Ctx) (n due : Nat) : State :=
  if n = 0 then s
  else if c.timed then addLatch s c.key { due := due, tgt := .k n, seq := c.seq, pc := c.pc }
  else (addTok s c.key n).1

/-- A token shortage: a schedule miss in a timed stream, a wait otherwise (R42, R56). -/
def tokShort (c : Ctx) : Res := if c.timed then schedMiss else .wait

-- Device-memory requests (R70, R105, R112 to R125) --------------------------------------------------------------------------

/-- The sectors of a range of n bytes from a byte offset: first and last. -/
def secRange (off n : Nat) : Nat × Nat := (off / 32, (off + n - 1) / 32)

/-- Where an access of n bytes at a tensor address lies: tile and byte offset. -/
def placeOf (d : Desc) (addr : Word) : Nat × Nat :=
  let p := d.locate (idxOf addr)
  (p.1, p.2 / 8)

/-- Where a request lies: its tile, first byte and length; a request for a whole sector lies there. -/
def reqPlace (d : Desc) (r : Req) : Nat × Nat × Nat :=
  let p := placeOf d r.addr
  match r.sec with
  | some k => (p.1, 32 * k, 32)
  | none => (p.1, p.2, r.n)

/-- Whether two requests touch one sector. -/
def sameSector (s : State) (a b : Req) : Bool :=
  decide (a.ctx = b.ctx) && decide (tidOf a.addr = tidOf b.addr) &&
    match descFor s a.ctx (tidOf a.addr) with
    | none => false
    | some d =>
      let pa := reqPlace d a
      let pb := reqPlace d b
      let ra := secRange pa.2.1 pa.2.2
      let rb := secRange pb.2.1 pb.2.2
      decide (pa.1 = pb.1) && decide (ra.1 ≤ rb.2) && decide (rb.1 ≤ ra.2)

/-- Whether a request reads a value. -/
def Req.reads (r : Req) : Bool :=
  match r.kind with
  | .store | .faddw => false
  | _ => true

/-- Whether two requests touch one location: bytes of one tile in common, or, for a line, the same sector. -/
def sameBytes (s : State) (a b : Req) : Bool :=
  sameSector s a b &&
    (!a.line.isEmpty || !b.line.isEmpty ||
      match descFor s a.ctx (tidOf a.addr) with
      | none => false
      | some d =>
        let pa := reqPlace d a
        let pb := reqPlace d b
        decide (pa.2.1 < pb.2.1 + pb.2.2) && decide (pb.2.1 < pa.2.1 + pa.2.2))

/-- Whether two atomics of one sequencer to one location may be applied in either order (R124). -/
def swappable (a b : Req) : Bool :=
  match a.kind, b.kind with
  | .amo _, .amo _ => (decide (a.use = 1) && decide (b.use = 1)) || (decide (a.use = 3) && decide (b.use = 3))
  | .faddw, .faddw => true
  | _, _ => false

/-- The requests that are performed before a new one of the same sequencer: its own to the same location, and the writes to it
that its reads have returned (R105). -/
def orderBefore (s : State) (r : Req) : List Nat :=
  let seen := if r.op = 0 then (streamAt s r.key r.seq).obs else []
  (s.reqs.filter fun p =>
      ((decide (p.2.key = r.key) && decide (p.2.seq = r.seq) && decide (p.2.op = r.op)) || seen.contains p.1)
        && sameBytes s p.2 r && !swappable p.2 r).map (·.1)

/-- What a release waits for (R114): every earlier access of its sequencer, and those of the cell's completed operations;
NONORDER atomics (R124) and peer accesses (R119) are excepted. -/
def relBefore (s : State) (r : Req) : List Nat :=
  if !r.rel ∨ r.peer then []
  else (s.reqs.filter fun p =>
    decide (p.2.key = r.key) && decide (p.2.use ≠ 2) && !p.2.peer &&
      (if p.2.op = 0 then decide (p.2.seq = r.seq) else !(s.ops.any fun o => decide (o.1 = p.2.op)))).map (·.1)

/-- Marks the cell's outstanding reads of a sector so that they neither enter the buffer nor are served from it: a store, an
atomic or an invalidation has overtaken them (R70, R71, R105). -/
def overtake (s : State) (key : Nat) (f : Req → Bool) : State :=
  { s with reqs := s.reqs.map fun p => if p.2.key = key ∧ p.2.kind = .load ∧ f p.2 then (p.1, { p.2 with noInstall := true }) else p }

/-- The sector buffer of an agent. -/
def sectsOf (s : State) (key : Nat) : List Sect :=
  if isCore key then (coreAt s (key - coreKey)).sect else (cellAt s key).sect

/-- Replaces the sector buffer of an agent. -/
def setSects (s : State) (key : Nat) (l : List Sect) : State :=
  if isCore key then
    let n := key - coreKey
    setCore s n { coreAt s n with sect := l }
  else setCell s key { cellAt s key with sect := l }

/-- R71: the whole sector buffer is invalidated; a read that has been performed does not enter it. -/
def dropSects (s : State) (key : Nat) : State := overtake (setSects s key []) key (·.applied)

/-- Puts bytes into a 256-bit sector from a byte offset. -/
def sectorPut (d : BitVec 256) (off : Nat) (bs : List Byte) : BitVec 256 :=
  let sh := 8 * off
  let msk : BitVec 256 := BitVec.ofNat 256 ((2 ^ (8 * bs.length) - 1) * 2 ^ sh)
  (d &&& ~~~msk) ||| BitVec.ofNat 256 (ofBytes bs * 2 ^ sh)

/-- The bytes of [off, off + n) that lie in a sector, as (offset in sector, first byte index, count). -/
def cutSector (sec off n : Nat) : Nat × Nat × Nat :=
  let lo := Nat.max off (sec * 32)
  let hi := Nat.min (off + n) (sec * 32 + 32)
  (lo - sec * 32, lo - off, hi - lo)

/-- An atomic drops the cell's entry of its sector (R70). -/
def sectDrop (s : State) (key tens tile off n : Nat) : State :=
  setSects s key ((sectsOf s key).filter fun e =>
    !(decide (e.tens = tens ∧ e.tile = tile ∧ (secRange off n).1 ≤ e.sec ∧ e.sec ≤ (secRange off n).2)))

/-- A new sector in the buffer; with 64 entries one is replaced, which one is not architectural (R70). -/
def sectAdd (s : State) (key : Nat) (e : Sect) : State :=
  let l := (sectsOf s key).filter fun x => !(decide (x.tens = e.tens ∧ x.tile = e.tile ∧ x.sec = e.sec))
  if l.length < 64 then setSects s key (l ++ [e])
  else
    let (n, s) := freeNum s
    setSects s key (l.eraseIdx (Config.replacedSector n % 64) ++ [e])

/-- A combined read (R70): a read of the cell that has its sector and enters the buffer with it. -/
def combined (s : State) (key tens tile sec : Nat) : Option (BitVec 256 × List Nat) :=
  s.reqs.findSome? fun p =>
    let q := p.2
    if q.key = key ∧ q.kind = .load ∧ q.applied ∧ !q.noInstall ∧ !q.bypass ∧ tidOf q.addr = tens then
      (q.secs.find? fun x => decide (x.1 = tile ∧ x.2.1 = sec)).map fun x => (x.2.2, q.saw)
    else none

/-- A sector that was read enters the buffer, if no later read has entered it; another read of it that is still to return
does not enter it after (R70, R105). -/
def sectFill (s : State) (key : Nat) (e : Sect) : State :=
  let s := { s with reqs := s.reqs.map fun p =>
    if p.2.key = key ∧ p.2.kind = .load ∧ p.2.applied ∧ tidOf p.2.addr = e.tens
        ∧ p.2.secs.any (fun x => decide (x.1 = e.tile ∧ x.2.1 = e.sec)) then (p.1, { p.2 with noInstall := true }) else p }
  if (sectsOf s key).any fun x => decide (x.tens = e.tens ∧ x.tile = e.tile ∧ x.sec = e.sec) then s else sectAdd s key e

/-- Reads a range from the buffer, if every sector of it is there. -/
def sectRead (s : State) (key tens tile off n : Nat) : Option (List Byte × List Nat) :=
  let (lo, hi) := secRange off n
  (List.range (hi + 1 - lo)).foldl
    (fun r j =>
      match r with
      | none => none
      | some (bs, ids) =>
        match (sectsOf s key).find? (fun e => decide (e.tens = tens ∧ e.tile = tile ∧ e.sec = lo + j)) with
        | none => none
        | some e =>
          let (o, _, m) := cutSector (lo + j) off n
          some (bs ++ toBytes m (e.data.toNat / 2 ^ (8 * o)), ids ++ e.saw)) (some ([], []))

/-- Inserts a request by the order in which stores entered the outbound module. -/
def insOut (p : Nat × Req) : List (Nat × Req) → List (Nat × Req)
  | [] => [p]
  | x :: xs => if p.2.out < x.2.out then p :: x :: xs else x :: insOut p xs

/-- Whether a request touches a sector of a tile. -/
def touches (s : State) (q : Req) (ctx tens tile sec : Nat) : Bool :=
  decide (q.ctx = ctx) && decide (tidOf q.addr = tens) &&
    match descFor s ctx tens with
    | none => false
    | some d =>
      let pl := reqPlace d q
      decide (pl.1 = tile) && decide ((secRange pl.2.1 pl.2.2).1 ≤ sec) && decide (sec ≤ (secRange pl.2.1 pl.2.2).2)

/-- The stores of a die that have entered its outbound module and are not at their home, in that order (R115). -/
def dieStores (s : State) (die : Nat) : List (Nat × Req) :=
  s.reqs.foldl (fun l p => if p.2.kind = .store ∧ p.2.out ≠ 0 ∧ !isCore p.2.key ∧ dieOf p.2.key = die then insOut p l else l) []

/-- A sector with the bytes of a store in it; `sext` marks the store of a 4-bit element (R76). -/
def storePatch (d : Desc) (r : Req) (sec : Nat) (old : BitVec 256) : BitVec 256 :=
  if r.sext then
    let bo := (d.locate (idxOf r.addr)).2 % 256
    (old &&& ~~~BitVec.ofNat 256 (15 * 2 ^ bo)) ||| BitVec.ofNat 256 ((r.data % 16) * 2 ^ bo)
  else
    let (o, i, m) := cutSector sec (placeOf d r.addr).2 r.n
    r.line.foldl (fun v p => sectorPut v p.1 [p.2]) (sectorPut old o (((toBytes r.n r.data).drop i).take m))

/-- A sector under the stores of a list, oldest first, with the names of those that touch it. -/
def patched (s : State) (ctx tens tile sec : Nat) (l : List (Nat × Req)) (v : BitVec 256 × List Nat) : BitVec 256 × List Nat :=
  match descFor s ctx tens with
  | none => v
  | some d =>
    l.foldl (fun r p => if touches s p.2 ctx tens tile sec then (storePatch d p.2 sec r.1, r.2 ++ [p.1]) else r) v

/-- One sector as an agent's die reads it now: the home's bytes under the writes of the die that have entered its
outbound module (R115), with the names of those writes. -/
def dieSector (s : State) (key ctx tens tile sec : Nat) : BitVec 256 × List Nat :=
  let base := BitVec.ofNat 256 (ofBytes (homeRead s ctx tens tile (sec * 32) 32))
  if isCore key then (base, []) else patched s ctx tens tile sec (dieStores s (dieOf key)) (base, [])

/-- A sector as an access of a cell reads it: what its die reads, under those of the cell's own stores, issued before the
access of this name, that have not left it (R105, R106). -/
def cellSector (s : State) (id key ctx tens tile sec : Nat) : BitVec 256 × List Nat :=
  patched s ctx tens tile sec
    (s.reqs.filter fun p =>
      decide (p.1 < id) && decide (p.2.key = key) && decide (p.2.kind = .store) && decide (p.2.out = 0) && !isCore key)
    (dieSector s key ctx tens tile sec)

/-- The entry of a sector that its cell reads at the home again, though the buffer holds it, holds what was read (R106). -/
def sectRenew (s : State) (key ctx tens tile sec : Nat) : State :=
  let x := cellSector s s.nextId key ctx tens tile sec
  setSects s key ((sectsOf s key).map fun e => if e.tens = tens ∧ e.tile = tile ∧ e.sec = sec then { e with data := x.1, saw := x.2 } else e)

/-- A store of a cell updates the matching entries of its buffer (R70), which then show it, and outstanding reads of its
sectors do not enter the buffer. The store is the request sent last. -/
def sectStoreReq (s : State) (r : Req) : State :=
  match descFor s r.ctx (tidOf r.addr) with
  | none => s
  | some d =>
    let s := setSects s r.key ((sectsOf s r.key).map fun e =>
      if e.tens = tidOf r.addr ∧ touches s r r.ctx e.tens e.tile e.sec then
        { e with data := storePatch d r e.sec e.data, saw := e.saw ++ [s.nextId - 1] }
      else e)
    overtake s r.key fun q => sameSector s q r

/-- A store at its home (R99, R100). -/
def homeStore (s : State) (r : Req) : State :=
  match descFor s r.ctx (tidOf r.addr) with
  | none => s
  | some d =>
    let p := d.locate (idxOf r.addr)
    if r.sext then homeWriteNib s r.ctx (tidOf r.addr) p.1 p.2 r.data
    else
      let s := r.line.foldl (fun s x => homeWrite s r.ctx (tidOf r.addr) p.1 (p.2 / 256 * 32 + x.1) [x.2])
        (homeWrite s r.ctx (tidOf r.addr) p.1 (p.2 / 8) (toBytes r.n r.data))
      if r.line.length = 31 then healMem s (physOf (entryOf s r.ctx (tidOf r.addr) p.1) (p.2 / 256 * 32)) 32 else s

/-- The checks of R74 and R77 on a scalar access of n bytes: the descriptor and place, or the fault code. DESIGN CHOICE, log
72: an access of 2 bytes or more to a byte tensor covers consecutive bytes of the tile from its first element's, and its
last element lies in the same tile. -/
def scalarPlace (s : State) (ctx : Nat) (ea : Word) (n : Nat) : Except Nat (Desc × Nat × Nat) :=
  match descFor s ctx (tidOf ea) with
  | none => .error cAddr
  | some d =>
    if d.count ≤ idxOf ea then .error cAddr
    else
      let p := placeOf d ea
      if d.fmt = 0 ∨ d.fmt = 1 then
        if d.count < idxOf ea + n then .error cAddr
        else if d.tileBytes < p.2 + n then .error cFormat
        else if (d.locate (idxOf ea + n - 1)).1 ≠ p.1 then .error cFormat
        else .ok (d, p)
      else if fmtBits d.fmt ≠ 8 * n ∨ d.fmt = 14 then .error cFormat
      else .ok (d, p)

/-- Sends a request: it takes a name and the order of R105 and R114. -/
def sendReq (s : State) (r : Req) : State :=
  let after := orderBefore s r
  let rel := relBefore s r
  let (id, s) := fresh s
  { s with reqs := sset s.reqs id { r with after := after ++ r.after, relAfter := rel ++ r.relAfter, born := s.tick,
                                           due := s.per + Config.accessPeriods } }

end Sys2Proof.Machine
end

