-- ==== Sys2Proof/Machine/Fetch.lean ====
section
/-! DEFINITION. Fetching words (R129) and the readiness of streams (R33, R36, R40, R56). -/

namespace Sys2Proof.Machine

/-- One byte of a tensor of a context, at its home, or 0 where the address names nothing. -/
def tensByte (s : State) (ctx : Nat) (a : Word) (i : Nat) : Byte :=
  match descFor s ctx (tidOf a) with
  | none => 0
  | some d =>
    let p := d.locate ((idxOf a + i) % 2 ^ 48)
    (homeRead s ctx (tidOf a) p.1 (p.2 / 8) 1).headD 0

/-- Eight bytes of a tensor of a context, little-endian. -/
def tensWord (s : State) (ctx : Nat) (a : Word) (off : Nat) : Word :=
  BitVec.ofNat 64 (ofBytes ((List.range 8).map fun j => tensByte s ctx a (off + j)))

/-- The prefetched copy of the next word: in a timed stream that of its pre-decode (R129, R402), otherwise one fetched before. -/
def preWord (st : Stream) : Option Word :=
  match (if st.mode = .timed ∧ st.pos = 2 then
      st.resv.find? fun x => decide (x.pc = st.pc) && decide (x.cyc = st.last + bits x.word 63 54 + st.waitc)
    else none) with
  | some x => some x.word
  | none => sfind st.pre st.pc

/-- The bytes that a core fetches from: the body of its image, those of its boot slot after the header, LEN of them (R450); of the
lighthouse core its ROM (R452, log 2). -/
def coreBody (s : State) (key : Nat) (st : Stream) : List Byte :=
  if key = lightKey then s.rom else
  let img := sget [] s.bslots st.img.toNat
  (img.drop 256).take (ofBytes ((img.drop 12).take 4))

/-- The next word of an agent: a prefetched word if there is one, otherwise the word in memory; 0, which is unassigned in
every space, beyond the image. A core fetches from the image it was started from (log 10). -/
def fetchWord (s : State) (key : Nat) (q : Seq) : Word :=
  let st := streamAt s key q
  match preWord st with
  | some w => w
  | none =>
    if isCore key then BitVec.ofNat 64 (ofBytes (((coreBody s key st).drop st.pc).take 8))
    else if st.nword * 8 ≤ st.pc then 0
    else tensWord s (ctxOf s key) st.img st.pc

/-- Data that a fetch of an image's word from device memory reads have an uncorrectable error (R83). -/
def wordBad (s : State) (key : Nat) (q : Seq) (pc : Nat) : Bool :=
  let st := streamAt s key q
  let ctx := ctxOf s key
  !isCore key && decide (pc < st.nword * 8) &&
    match descFor s ctx (tidOf st.img) with
    | none => false
    | some d => (List.range 8).any fun i =>
        let p := d.locate ((idxOf st.img + pc + i) % 2 ^ 48)
        sectorBad s (entryOf s ctx (tidOf st.img) p.1) (p.2 / 8)

/-- The next word of an agent cannot be fetched: its data have an uncorrectable error, and no copy was fetched before (R83). -/
def fetchBad (s : State) (key : Nat) (q : Seq) : Bool :=
  (preWord (streamAt s key q)).isNone && wordBad s key q (streamAt s key q).pc

/-- R83. The word to be issued cannot be fetched: the stream faults at its issue with the word's address. -/
def fetchFault (s : State) : Out :=
  word { core := true, start := true } []
    (fun c _ => .fault { code := cMemErr, taddr := taddr (tidOf c.st.img) (idxOf c.st.img + c.pc) }) s

/-- The IDLE field of a word (R36). -/
def idleNat (w : Word) : Nat := bits w 63 54

/-- The cycle of a timed stream's next issue, past START (R36). -/
def nextIssue (st : Stream) (w : Word) : Nat := st.last + idleNat w + st.waitc

/-- Whether the stages of a region let a stream issue: every stream while it runs, stubs while they run; a fault in one stops them at
the end of its period (R357, R375). -/
def stageLets (per : Nat) (r : Region) (st : Stream) : Bool :=
  let go := decide (r.stubCode = 0) || r.stopP.any fun p => decide (per < p)
  match r.stage with
  | .running => decide (st.stub = .none)
  | .stubs => decide (st.stub = .trap) && go
  | .rebuild => decide (st.stub = .rebuild) && go
  | _ => false

/-- The instruction that an agent's next word decodes to in its space, or why it names none (R165, R175). -/
def decodeAt (s : State) (key : Nat) (q : Seq) : Except Reject Instr := decode (seqSpace key q) (fetchWord s key q)

/-- R119: a base register names a tensor of another package. -/
def peerBase (s : State) (key : Nat) (a : BitVec 6) : Bool := (peerOf s (ctxOf s key) (tidOf (readA s key a.toNat))).isSome

/-- The next word of a stream may be performed before its pending fences complete: a NONORDER atomic (R116, R124), or an
access to another package, which only FENCE.SYS orders (R119). -/
def passesFence (s : State) (key : Nat) (q : Seq) : Bool :=
  let peer (a : BitVec 6) : Bool :=
    ((streamAt s key q).fences.all fun f => decide (f.scope < 4)) && peerBase s key a
  match decodeAt s key q with
  | .ok (.amo _ a _ _ use _) => use == 2 || peer a
  | .ok (.cas _ a _ _ _ use _) => use == 2 || peer a
  | .ok (.ld _ a _ _) | .ok (.ldAcq _ a _ _) | .ok (.st _ a _ _) | .ok (.stRel _ a _ _) | .ok (.faddw a _) | .ok (.faddr _ a) => peer a
  | _ => false

/-- The environment holds an elastic word back in this period (R56, log 80). -/
def paused (s : State) (key : Nat) (q : Seq) : Bool :=
  s.pauses.any fun p => decide (p.key = key ∧ p.seq = q ∧ p.lo ≤ s.per ∧ s.per < p.hi)

/-- Whether the agent's next word issues in this period. -/
def ready (s : State) (key : Nat) (q : Seq) : Bool :=
  canIssue s key q && s.pauseT.isNone &&
    let st := streamAt s key q
    let w := fetchWord s key q
    if isCore key then
      (decide (st.pos = 0) || decide (st.last + Nat.max 1 (idleNat w) + st.waitc ≤ s.per)) && decide (st.wake ≤ s.per)
        && decide (st.fetchP ≤ s.per) && (st.fences.isEmpty || passesFence s key q) && !paused s key q
    else
      let r := regOf s key
      stageLets s.per r st &&
        if st.counted then
          !r.frozen && r.swait.isNone &&
            (if st.pos = 0 then decide (s.per = st.last + idleNat w) && r.haltD.isNone
             else if st.pos = 1 then decide (r.startF = some s.per) && r.haltD.isNone
             else decide (r.tide = nextIssue st w) && r.started && (r.haltD.isNone || decide (r.tide < r.haltH)))
        else
          st.held.isNone && decide (st.wake ≤ s.per) && decide (st.fetchP ≤ s.per)
            && (st.fences.isEmpty || passesFence s key q) && st.bw.isNone
            && (decide (q ≠ .s) || (cellAt s key).phase.isNone)
            && (decide (st.pos = 0) || decide (st.last + Nat.max 1 (idleNat w) + st.waitc ≤ s.per)) && !paused s key q

/-- The four sequencers in order. -/
def seqs : List Seq := [.s, .l, .c, .w]

/-- The agents of the package in order: cells by key with S, L, C, W, then the cores. -/
def agents (s : State) : List (Nat × Seq) :=
  ((s.cells.filter fun p => decide (p.2.reg ≠ 0)).flatMap fun p => seqs.map fun q => (p.1, q))
    ++ s.cores.map fun p => (coreKey + p.1, Seq.s)

/-- The first agent whose word issues now. -/
def readyAgent (s : State) : Option (Nat × Seq) := (agents s).find? fun a => ready s a.1 a.2

/-- The state in which an agent's word runs: the agent, its word and the word's IDLE are named. -/
def atAgent (s : State) (key : Nat) (q : Seq) : State :=
  let w := fetchWord s key q
  { s with cur := key, curSeq := q, curIdle := idleNat w, curWord := w }

end Sys2Proof.Machine
end

