-- ==== Sys2Proof/Machine/Flags.lean ====
section
/-! DEFINITION. Conditions. The machine has no flag register: branches compare registers (R164, R199, R201), and
comparisons of lanes write mask registers (R278, in Vector.lean). -/

namespace Sys2Proof.Machine

/-- The conditions of BR (R164): EQ, NE, LT, GE, LTU, GEU. -/
def condBr (cnd : Nat) (a b : Word) : Bool :=
  match cnd with
  | 0 => a == b
  | 1 => a != b
  | 2 => a.slt b
  | 3 => !a.slt b
  | 4 => a.ult b
  | 5 => !a.ult b
  | _ => false

/-- The conditions of BRT (R164, R201): EQZ, NEZ, LTZ, GEZ, GTZ, LEZ. -/
def condBrt (cnd : Nat) (a : Word) : Bool :=
  match cnd with
  | 0 => a == 0
  | 1 => a != 0
  | 2 => a.slt 0
  | 3 => !a.slt 0
  | 4 => (0 : Word).slt a
  | 5 => !(0 : Word).slt a
  | _ => false

end Sys2Proof.Machine
end

