-- ==== Sys2Proof/Machine/Level.lean ====
section
/-! DEFINITION. Power levels: the level table, the rails, and the moment at which a level takes effect (R217, R218,
R457 to R461, R478). -/

namespace Sys2Proof.Machine

/-- An entry of the level table (R458). -/
def lvlEntry (s : State) (n : Nat) : Word := s.lvls.getD n 2

/-- The variant of a level: 0 spring, 1 mean, 2 neap (R457, R458). -/
def varOf (s : State) (n : Nat) : Nat := bits (lvlEntry s n) 1 0

/-- The rail voltages of a level with the margins (R458, R460). -/
def railsOf (s : State) (n : Nat) : List Nat :=
  (List.range 4).map fun r => ((bits (lvlEntry s n) (11 + 10 * r) (2 + 10 * r) : Int) + s.mrg.getD r 0).toNat

/-- A level takes effect: GRANT, the rails, and, where the clock changes, the relock pause of 400 ticks (R218, R459,
R478). Rails that rise do so before that pause, rails that fall after it. -/
def setLevel (s : State) (n : Nat) : State :=
  let v := varOf s n
  let volts := railsOf s n
  let s := { s with grant := BitVec.ofNat 3 n, railsT := volts }
  if v = s.clk then { s with rails := volts }
  else
    { s with rails := (List.range 4).map (fun r => Nat.max (s.rails.getD r 0) (volts.getD r 0)), clk := v,
             pauseT := some (s.tick + 400), relk := if s.relk = 0xFFFFFFFF then s.relk else s.relk + 1 }

/-- Level 0 is set by FORCE (R461): the armed level is dropped. -/
def setForced (s : State) : State :=
  { setLevel s 0 with armed := 0, force := false }

/-- The level in force at a TURN (R217, R218, R461): FORCE sets level 0, otherwise an armed level is taken. -/
def turnLevel (s : State) : State :=
  if s.force then { setForced s with fneap := if s.fneap = 0xFFFFFFFF then s.fneap else s.fneap + 1 }
  else if s.armed ≠ s.grant then setLevel s s.armed.toNat
  else s

/-- Whether a region is on its dies: it runs, stands at a stop with its stubs, or is coming back (R364). -/
def Region.onDies (r : Region) : Bool :=
  match r.stage with
  | .running | .stubs | .rebuild | .resuming => true
  | _ => false

/-- Whether a stream is timed and has not executed END. -/
def Stream.timing (st : Stream) : Bool := decide (st.mode = .timed) && !st.ended

/-- Whether a region of the package has a timed stream that has not executed END (R218), the S streams that trap stubs
stand in for among them. -/
def anyTimed (s : State) : Bool :=
  s.regions.any fun r =>
    r.2.onDies &&
      (regCells r.2).any fun k =>
        let c := cellAt s k
        [c.kept.getD c.ss, c.sl, c.sc, c.sw].any Stream.timing

end Sys2Proof.Machine
end

