-- ==== Sys2Proof/Machine/Control.lean ====
section
/-! DEFINITION. The common block and transfers of control (R36 to R40, R167, R168, R198 to R202, R215, R217, R244,
R370). -/

namespace Sys2Proof.Machine

/-- Replaces the running word's stream in the state after its advance. -/
def onStream (s : State) (c : Ctx) (f : Stream → Stream) : State :=
  setStreamAt s c.key c.seq (f (streamAt s c.key c.seq))

/-- Whether a byte offset lies in the stream's image (R157). -/
def inImage (s : State) (c : Ctx) (pc : Nat) : Bool :=
  decide (pc % 8 = 0) &&
    (if c.core then decide (pc + 8 ≤ (coreBody s c.key c.st).length) || (sfind c.st.pre pc).isSome
     else decide (pc < c.st.nword * 8) || (sfind c.st.pre pc).isSome)

/-- The target x + 8 × o of a signed word offset (R157). -/
def target (c : Ctx) (o : Word) : Nat := (BitVec.ofNat 64 c.pc + (o <<< 3)).toNat

/-- A transfer to a byte offset, illegal outside the image (R157). -/
def jumpTo (s : State) (c : Ctx) (pc : Nat) : Res := if inImage s c pc then .goto s pc else illegal

/-- R37. WAITC adds its count to the next word's issue cycle. -/
def execWaitc (n : BitVec 32) (s : State) : Out :=
  word { core := true } [] (fun c s => .ok (onStream s c fun st => { st with waitc := n.toNat })) s

/-- R40, R61, R167, R201. END stops the stream's issue; with a join pending it misses the schedule. -/
def execEndw (s : State) : Out :=
  word { core := true, trap := false } []
    (fun c s =>
      if c.timed && !(streamAt s c.key c.seq).joins.isEmpty then schedMiss
      else .ok (onStream s c fun st => { st with ended := true })) s

/-- The timed streams of a region that have not ended: their cells and sequencers. -/
def timedOf (s : State) (r : Region) : List (Nat × Seq) :=
  (regCells r).flatMap fun k => (seqs.filter fun q =>
    decide (((cellAt s k).stream q).mode = .timed) && !((cellAt s k).stream q).ended).map fun q => (k, q)

/-- The first frame boundary at least n periods from now. -/
def boundaryAfter (s : State) (n : Nat) : Nat := s.per + n + (256 - (s.frame + n) % 256) % 256

/-- R40. ALIGNF is the first word of a timed stream. When every timed stream of the region has issued it, the region takes
the first frame boundary at least 64 periods later. -/
def execAlignf (s : State) : Out :=
  word { elastic := false, start := true, trap := false, rebuild := false } []
    (fun c s =>
      if c.st.pos ≠ 0 ∨ s.curIdle = 0 then illegal
      else
        let s := onStream s c fun st => { st with pos := 1 }
        let h := (cellAt s c.key).reg
        let r := regAt s h
        if (timedOf s r).all fun p => decide (1 ≤ ((cellAt s p.1).stream p.2).pos) then
          .ok (setReg s h { r with startF := some (boundaryAfter s 64) })
        else .ok s) s

/-- R40. START follows ALIGNF with IDLE 0; it sets TIDE := 0 and clears the join stack (R201). -/
def execStart (s : State) : Out :=
  word { elastic := false, start := true, trap := false, rebuild := false } []
    (fun c s =>
      if c.st.pos ≠ 1 ∨ s.curIdle ≠ 0 then illegal
      else
        let s := onStream s c fun st => { st with pos := 2, last := 0, joins := [] }
        let h := (cellAt s c.key).reg
        .ok (setReg s h { regAt s h with started := true, tide := 0 })) s

/-- NOP (R167). -/
def execNop (s : State) : Out := word { core := true } [] (fun _ s => .ok s) s

/-- R198. JMP. -/
def execJmp (off : BitVec 32) (s : State) : Out :=
  word { core := true } [] (fun c s => jumpTo s c (target c (off.signExtend 64))) s

/-- The loop counter of a level. -/
def Stream.lp (st : Stream) (l : Nat) : LoopCtr :=
  match l with
  | 0 => st.lp0
  | 1 => st.lp1
  | 2 => st.lp2
  | _ => st.lp3

/-- Replaces the loop counter of a level. -/
def Stream.setLp (st : Stream) (l : Nat) (x : LoopCtr) : Stream :=
  match l with
  | 0 => { st with lp0 := x }
  | 1 => { st with lp1 := x }
  | 2 => { st with lp2 := x }
  | _ => { st with lp3 := x }

/-- R202. LOOP: the body executes N times. -/
def execLoop (lvl : BitVec 3) (off : BitVec 12) (n : BitVec 32) (s : State) : Out :=
  word { core := true, trap := false } []
    (fun c s =>
      if 4 ≤ lvl.toNat ∨ n = 0 then illegal
      else
        let st := streamAt s c.key c.seq
        let l := st.lp lvl.toNat
        let cnt := if l.act then l.cnt else n.toNat - 1
        if 0 < cnt then
          jumpTo (onStream s c fun st => st.setLp lvl.toNat { act := true, cnt := cnt - 1 }) c (target c (off.signExtend 64))
        else .ok (onStream s c fun st => st.setLp lvl.toNat { act := false, cnt := 0 })) s

/-- R200. CALL writes the address of the next word into its link register, which lands at issue + 1. -/
def execCall (a : BitVec 6) (off : BitVec 32) (s : State) : Out :=
  word { spaces := [.s], core := true } [a]
    (fun c s => jumpTo (landA s c a (BitVec.ofNat 64 (c.pc + 8)) 1) c (target c (off.signExtend 64))) s

/-- R200. RET; in a timed stream the register was read at the word's pre-decode. -/
def execRet (a : BitVec 6) (s : State) : Out :=
  word { spaces := [.s], core := true } [a]
    (fun c s =>
      let v := if c.timed then
          (c.st.retAt c.t c.pc).getD (readA s c.key a.toNat)
        else readA s c.key a.toNat
      jumpTo s c v.toNat) s

/-- R199, R38. BR is legal in elastic streams only. -/
def execBr (a b : BitVec 6) (cnd : BitVec 3) (off : BitVec 32) (s : State) : Out :=
  word { spaces := [.s], timed := false, core := true } [a, b]
    (fun c s =>
      if 6 ≤ cnd.toNat then illegal
      else if condBr cnd.toNat (readA s c.key a.toNat) (readA s c.key b.toNat) then jumpTo s c (target c (off.signExtend 64))
      else .ok s) s

/-- R201. BRT pushes the join and takes the taken arm or the next word. -/
def execBrt (a : BitVec 6) (cnd : BitVec 3) (toff joff : BitVec 12) (jdist : BitVec 14) (s : State) : Out :=
  word { spaces := [.s], elastic := false, trap := false, rebuild := false } []
    (fun c s =>
      let st := streamAt s c.key c.seq
      let j := target c (joff.signExtend 64)
      if 6 ≤ cnd.toNat ∨ jdist = 0 ∨ 4 ≤ st.joins.length ∨ !inImage s c j then illegal
      else
        let s' := onStream s c fun st => { st with joins := { addr := j, cycle := c.t + jdist.toNat } :: st.joins }
        if condBrt cnd.toNat (readA s c.key a.toNat) then jumpTo s' c (target c (toff.signExtend 64)) else .ok s') s

/-- R215. TRAP raises the recoverable trap with its code; on a core it enters the handler (R449). -/
def execTrap (code : BitVec 16) (s : State) : Out :=
  word { spaces := [.s], core := true, trap := false, rebuild := false } []
    (fun _ _ => .fault { code := cTrap, arg := code }) s

/-- R215. RETT ends a trap stub or a core's handler; elsewhere it is illegal. -/
def execRett (s : State) : Out :=
  word { spaces := [.s], core := true, rebuild := false } []
    (fun c s =>
      match returnFault s c.key c.seq with
      | some t => .ok t
      | none => illegal) s

/-- Whether every other timed stream of the region that has not ended issues, now, a word that the test admits; where one
has issued already, the region's agreement tells. -/
def agreed (s : State) (c : Ctx) (kind n : Nat) (same : Nat → Seq → Bool) : Bool :=
  let r := regOf s c.key
  match r.agree with
  | some (t, k, i) => if t = c.t then decide (k = kind ∧ i = n) else others r
  | none => others r
where
  others (r : Region) : Bool :=
    (timedOf s r).all fun p =>
      (decide (p.1 = c.key) && decide (p.2 = c.seq))
        || (let st := (cellAt s p.1).stream p.2
            decide (st.pos = 2) && decide (nextIssue st (fetchWord s p.1 p.2) = c.t) && same p.1 p.2)

/-- Whether the next word of a stream is this instruction. -/
def nextIs (s : State) (i : Instr) (key : Nat) (q : Seq) : Bool :=
  match decodeAt s key q with
  | .ok j => decide (j = i)
  | .error _ => false

/-- R217. TURN: at a shared TIDE the region takes the level in force and each stream its continuation. -/
def execTurn (n : BitVec 16) (s : State) : Out :=
  word { elastic := false, trap := false, rebuild := false } []
    (fun c s =>
      match c.st.turns[n.toNat]? with
      | none => illegal
      | some e =>
        if !agreed s c 1 n.toNat (nextIs s (.turn n)) then schedMiss
        else
          let h := (cellAt s c.key).reg
          let first := !decide ((regAt s h).agree = some (c.t, 1, n.toNat))
          let s := if first then
              let s := turnLevel s
              let r := regAt s h
              setReg s h { r with agree := some (c.t, 1, n.toNat), grant := s.grant,
                                  var := BitVec.ofNat 2 (varOf s s.grant.toNat),
                                  turns := if r.turns = 0xFFFFFFFF then r.turns else r.turns + 1 }
            else s
          let v := (regAt s h).var.toNat
          jumpTo s c (8 * bits e (16 * v + 15) (16 * v))) s

/-- The joins of a stream that stay pending after its own SLACK at t (R201). -/
def slackJoins (st : Stream) (t : Nat) : List Join :=
  if st.mode = .timed ∧ st.last ≠ t then (popJoins st.pc t st.joins).getD st.joins else st.joins

/-- R371 for one cell at slack point t: what makes it fail. What is an elastic stream's is waited for (R373). -/
def slackBad (s : State) (t key : Nat) : Bool :=
  let c := cellAt s key
  (c.feeds.any fun f => decide (f.2.kind = .sched) && !(sget [] c.q f.1).isEmpty)
    || !c.mx.fq.isEmpty
    || seqs.any (fun q => !(slackJoins (c.stream q) t).isEmpty)
    || c.lat.any (fun l => !l.per && decide (t < l.due))
    || c.inc.any (fun l => decide (t < l.due))
    || c.fifo.ents.any (fun e => decide (s.per < e.due)) || !c.fifo.ents.isEmpty
    || c.mx.mloads.any (fun m => !m.per && decide (t < m.land))
    || c.mx.mmas.any (fun m => !m.per && (decide (m.next < 128) || m.rows.any fun x => decide (t < x.land)))
    || c.mx.strips.any (fun x => !x.per)
    || s.ops.any (fun o => decide (o.2.key = key) && decide ((c.stream o.2.seq).mode = .timed))

/-- R371: at a slack point every cell of the region that does not meet the conditions raises SLACK_STATE, once: with its first timed
stream's word, and one that has none with no word. The word that is issuing is named. -/
def slackFaults (s : State) (c : Ctx) : State :=
  (regCells (regOf s c.key)).foldl
    (fun s k =>
      if !slackBad s c.t k then s
      else
        let x := cellAt s k
        let w : Who :=
          if k = c.key then { key := k, seq := c.seq, pc := c.pc }
          else match seqs.find? fun q => decide ((x.stream q).mode = .timed) && !(x.stream q).ended with
            | some q => { key := k, seq := q, pc := (x.stream q).pc }
            | none => { key := k, seq := .s, pc := 0 }
        takeFault s w { code := cSlackState }) s

/-- R370. SLACK: the slack point of the timed streams; an elastic stream outside a task is held while a yield is being
served; in a task no effect. -/
def execSlack (n : BitVec 16) (s : State) : Out :=
  word { trap := false, rebuild := false } []
    (fun c s =>
      if n = 0xFFFF ∨ (cellAt s c.key).slack.length ≤ n.toNat then illegal
      else
        let h := (cellAt s c.key).reg
        if c.timed then
          if !agreed s c 0 n.toNat (nextIs s (.slack n)) then schedMiss
          else
            let r := regAt s h
            let first := !decide (r.agree = some (c.t, 0, n.toNat))
            let s := setReg s h { r with agree := some (c.t, 0, n.toNat), slackd := 0, lastix := n }
            .ok (if first then slackFaults s c else s)
        else if c.st.task then .ok s
        else if (regAt s h).swait.isSome then
          .ok (onStream s c fun st => { st with held := some n.toNat })
        else .ok s) s

end Sys2Proof.Machine
end

