-- ==== Sys2Proof/Machine/Num.lean ====
section
/-! DEFINITION. Numbers: the floating-point formats and their one rounding function (R133 to R142), the elementwise
operations, wide accumulation (R94 to R96, R152), DOT16 (R150) and VQUANT (R151). -/

namespace Sys2Proof.Machine

/-- A floating-point format (R133, Table 2): fraction bits, exponent bits, bias, largest finite pattern, and whether it
has infinities. -/
structure FFmt where
  m    : Nat
  eb   : Nat
  bias : Nat
  maxF : Nat
  hasInf : Bool
  nan  : Nat
deriving DecidableEq, Repr

def fp32 : FFmt := { m := 23, eb := 8, bias := 127, maxF := 0x7F7FFFFF, hasInf := true, nan := 0x7FC00000 }
def bf16 : FFmt := { m := 7, eb := 8, bias := 127, maxF := 0x7F7F, hasInf := true, nan := 0x7FC0 }
def e4m3 : FFmt := { m := 3, eb := 4, bias := 7, maxF := 0x7E, hasInf := false, nan := 0x7F }
def e5m2 : FFmt := { m := 2, eb := 5, bias := 15, maxF := 0x7B, hasInf := true, nan := 0x7E }

/-- Smallest normal exponent. -/
def FFmt.emin (f : FFmt) : Int := 1 - (f.bias : Int)

/-- A value: NaN, an infinity, or (−1)^s × m × 2^e; m = 0 is a signed zero. -/
inductive FNum
  | nan
  | inf (s : Bool)
  | fin (s : Bool) (m : Nat) (e : Int)
deriving DecidableEq, Repr

/-- The value of a bit pattern (R133). -/
def FFmt.dec (f : FFmt) (w : Nat) : FNum :=
  let s := decide ((w / 2 ^ (f.m + f.eb)) % 2 = 1)
  let e := (w / 2 ^ f.m) % 2 ^ f.eb
  let m := w % 2 ^ f.m
  if f.hasInf ∧ e = 2 ^ f.eb - 1 then (if m = 0 then .inf s else .nan)
  else if !f.hasInf ∧ e = 2 ^ f.eb - 1 ∧ m = 2 ^ f.m - 1 then .nan
  else if e = 0 then .fin s m (f.emin - f.m)
  else .fin s (m + 2 ^ f.m) ((e : Int) - f.bias - f.m)

/-- The sign bit of a format. -/
def FFmt.sgn (f : FFmt) (s : Bool) : Nat := if s then 2 ^ (f.m + f.eb) else 0

/-- The pattern of an infinity; E4M3 has none and gives ±448 (R141). -/
def FFmt.infBits (f : FFmt) (s : Bool) : Nat := f.sgn s + (if f.hasInf then (2 ^ f.eb - 1) * 2 ^ f.m else f.maxF)

/-- Rounds lo, or lo + 1, from what is dropped: `rem` of `2 ^ sh` (R138). Modes: 0 RNE, 1 RTZ, 2 RDN, 3 RUP. -/
def pickRound (rm : Nat) (s : Bool) (lo rem sh : Nat) : Nat :=
  if rem = 0 then lo
  else match rm with
    | 0 => let half := 2 ^ (sh - 1)
           if rem < half then lo else if half < rem then lo + 1 else lo + lo % 2
    | 1 => lo
    | 2 => if s then lo + 1 else lo
    | _ => if s then lo else lo + 1

/-- m × 2^e as a multiple of 2^q, rounded in a mode. -/
def roundAt (rm : Nat) (s : Bool) (m : Nat) (e q : Int) : Nat :=
  if q ≤ e then m * 2 ^ (e - q).toNat
  else
    let sh := (q - e).toNat
    pickRound rm s (m / 2 ^ sh) (m % 2 ^ sh) sh

/-- overflow(s, F, rm) of R138. -/
def FFmt.overflow (f : FFmt) (s : Bool) (rm : Nat) : Nat :=
  if !f.hasInf then f.sgn s + f.maxF
  else match rm with
    | 0 => f.infBits s
    | 1 => f.sgn s + f.maxF
    | 2 => if s then f.infBits s else f.sgn s + f.maxF
    | _ => if s then f.sgn s + f.maxF else f.infBits s

/-- round(v, F, rm) of R138, as a bit pattern. -/
def FFmt.round (f : FFmt) (rm : Nat) : FNum → Nat
  | .nan => f.nan
  | .inf s => f.infBits s
  | .fin s m e =>
    if m = 0 then f.sgn s
    else
      let ex := max ((Nat.log2 m : Int) + e) f.emin
      let q := ex - f.m
      let k := roundAt rm s m e q
      let big := decide (2 ^ (f.m + 1) ≤ k)
      let k' := if big then k / 2 else k
      let q' := if big then q + 1 else q
      let bitsOf := if k' < 2 ^ f.m then (k' : Int) else (q' + f.m + f.bias) * 2 ^ f.m + (k' - 2 ^ f.m : Nat)
      if (f.maxF : Int) < bitsOf then f.overflow s rm else f.sgn s + bitsOf.toNat

/-- The same value with the sign turned. -/
def FNum.neg : FNum → FNum
  | .nan => .nan
  | .inf s => .inf !s
  | .fin s m e => .fin (!s) m e

/-- The magnitude. -/
def FNum.abs : FNum → FNum
  | .nan => .nan
  | .inf _ => .inf false
  | .fin _ m e => .fin false m e

/-- The sign. -/
def FNum.sign : FNum → Bool
  | .nan => false
  | .inf s => s
  | .fin s _ _ => s

def FNum.isNan : FNum → Bool
  | .nan => true
  | _ => false

def FNum.isFin : FNum → Bool
  | .fin .. => true
  | _ => false

def FNum.isZero : FNum → Bool
  | .fin _ 0 _ => true
  | _ => false

/-- A finite value as a multiple of 2^q, where 2^q divides it. -/
def scaled (s : Bool) (m : Nat) (e q : Int) : Int :=
  let v : Int := (m : Int) * (2 ^ (e - q).toNat : Nat)
  if s then -v else v

/-- A value from an integer multiple of 2^q. -/
def FNum.ofScaled (i q : Int) : FNum := .fin (decide (i < 0)) i.natAbs q

/-- The exact sum (R139, R140); the sign of an exact zero depends on the mode. -/
def FNum.add (rm : Nat) : FNum → FNum → FNum
  | .nan, _ => .nan
  | _, .nan => .nan
  | .inf a, .inf b => if a = b then .inf a else .nan
  | .inf a, _ => .inf a
  | _, .inf b => .inf b
  | .fin s1 m1 e1, .fin s2 m2 e2 =>
    let q := min e1 e2
    let i := scaled s1 m1 e1 q + scaled s2 m2 e2 q
    if i = 0 then
      if m1 = 0 ∧ m2 = 0 ∧ s1 = s2 then .fin s1 0 q else .fin (decide (rm = 2)) 0 q
    else .ofScaled i q

/-- The exact product (R139, R140). -/
def FNum.mul : FNum → FNum → FNum
  | .nan, _ => .nan
  | _, .nan => .nan
  | .inf a, .inf b => .inf (a != b)
  | .inf a, .fin b m _ => if m = 0 then .nan else .inf (a != b)
  | .fin a m _, .inf b => if m = 0 then .nan else .inf (a != b)
  | .fin a m1 e1, .fin b m2 e2 => .fin (a != b) (m1 * m2) (e1 + e2)

/-- A quotient or root that is not exact: one more bit, set, stands for what lies below. -/
def inexact (s : Bool) (m : Nat) (e : Int) (exact : Bool) : FNum :=
  .fin s (2 * m + (if exact then 0 else 1)) (e - 1)

/-- The quotient to more bits than any format keeps, with the rest in a last bit (R139, R140). -/
def FNum.div : FNum → FNum → FNum
  | .nan, _ => .nan
  | _, .nan => .nan
  | .inf _, .inf _ => .nan
  | .inf a, .fin b _ _ => .inf (a != b)
  | .fin a _ _, .inf b => .fin (a != b) 0 0
  | .fin a m1 e1, .fin b m2 e2 =>
    if m2 = 0 then (if m1 = 0 then .nan else .inf (a != b))
    else if m1 = 0 then .fin (a != b) 0 0
    else
      let k := Nat.log2 m2 + 80
      let n := m1 * 2 ^ k
      inexact (a != b) (n / m2) (e1 - e2 - k) (decide (n % m2 = 0))

/-- The integer square root by bits from bit b − 1 down. -/
def isqrtAux (n : Nat) : Nat → Nat → Nat
  | 0, r => r
  | b + 1, r => let t := r + 2 ^ b
                isqrtAux n b (if t * t ≤ n then t else r)

/-- floor(sqrt n). -/
def isqrt (n : Nat) : Nat := isqrtAux n (Nat.log2 n / 2 + 1) 0

/-- The square root (R140). -/
def FNum.sqrt : FNum → FNum
  | .nan => .nan
  | .inf s => if s then .nan else .inf false
  | .fin s m e =>
    if m = 0 then .fin s 0 0
    else if s then .nan
    else
      let k : Nat := 160 + (e % 2).toNat
      let n := m * 2 ^ k
      let r := isqrt n
      inexact false r ((e - k) / 2) (decide (r * r = n))

/-- The reciprocal (R143, Table 4). -/
def FNum.rcp (x : FNum) : FNum := FNum.div (.fin false 1 0) x

/-- The reciprocal square root (R143, Table 4). -/
def FNum.rsqrt : FNum → FNum
  | .nan => .nan
  | .inf s => if s then .nan else .fin false 0 0
  | .fin s m e =>
    if m = 0 then .inf s
    else if s then .nan
    else
      let m := m * 2 ^ (e % 2).toNat
      let e := e - (e % 2)
      let k := Nat.log2 m + 100
      let n := 2 ^ (2 * k) / m
      let r := isqrt n
      inexact false r (-(k : Int) - e / 2) (decide (r * r * m = 2 ^ (2 * k)))

/-- Less than, by value; false with a NaN (R140). -/
def FNum.lt : FNum → FNum → Bool
  | .nan, _ => false
  | _, .nan => false
  | .inf a, .inf b => a && !b
  | .inf a, _ => a
  | _, .inf b => !b
  | .fin s1 m1 e1, .fin s2 m2 e2 =>
    let q := min e1 e2
    decide (scaled s1 m1 e1 q < scaled s2 m2 e2 q)

/-- Equal by value; false with a NaN, and −0.0 equals +0.0 (R140). -/
def FNum.eqv (a b : FNum) : Bool := !a.isNan && !b.isNan && !a.lt b && !b.lt a

/-- MIN (R140): NaN if either is; −0.0 is less than +0.0. -/
def FNum.min2 (a b : FNum) : FNum :=
  if a.isNan || b.isNan then .nan
  else if a.lt b then a else if b.lt a then b else if a.sign then a else b

/-- MAX (R140). -/
def FNum.max2 (a b : FNum) : FNum :=
  if a.isNan || b.isNan then .nan
  else if a.lt b then b else if b.lt a then a else if a.sign then b else a

/-- A finite value rounded to an integer in a mode. -/
def roundInt (rm : Nat) (s : Bool) (m : Nat) (e : Int) : Int :=
  let k := roundAt rm s m e 0
  if s then -(k : Int) else (k : Int)

/-- Clamps to a range. -/
def satI (lo hi i : Int) : Int := if i < lo then lo else if hi < i then hi else i

/-- A conversion to an integer range (R142). -/
def FNum.toInt (rm : Nat) (lo hi : Int) : FNum → Int
  | .nan => 0
  | .inf s => if s then lo else hi
  | .fin s m e =>
    if 0 < e ∧ m ≠ 0 ∧ 64 < e + (Nat.log2 m : Int) then (if s then lo else hi) else satI lo hi (roundInt rm s m e)

/-- An integer as a value. -/
def FNum.ofInt (i : Int) : FNum := .fin (decide (i < 0)) i.natAbs 0

/-- A conversion between floating-point formats (R141); `sat` names E5M2 saturation. -/
def cvtFF (f g : FFmt) (rm : Nat) (sat : Bool) (w : Nat) : Nat :=
  let r := g.round rm (f.dec w)
  if sat ∧ g = e5m2 ∧ g.dec r ≠ .nan ∧ g.maxF < r % 2 ^ (g.m + g.eb) then g.sgn (g.dec r).sign + g.maxF else r

/-- An FP32 value as a result: a NaN is the canonical one (R135). -/
def f32canon (x : Nat) : Nat := fp32.round 0 (fp32.dec x)

/-- One FP32 step with RNE of a word operation on patterns. -/
def f32add (a b : Nat) : Nat := fp32.round 0 (FNum.add 0 (fp32.dec a) (fp32.dec b))
def f32sub (a b : Nat) : Nat := fp32.round 0 (FNum.add 0 (fp32.dec a) (fp32.dec b).neg)
def f32mul (a b : Nat) : Nat := fp32.round 0 (FNum.mul (fp32.dec a) (fp32.dec b))
def f32div (a b : Nat) : Nat := fp32.round 0 (FNum.div (fp32.dec a) (fp32.dec b))

/-- floor(log2 |x|) of a non-zero finite value. -/
def ilog (m : Nat) (e : Int) : Int := (Nat.log2 m : Int) + e

/-- floor(m × 2^e × 2^p) for a non-negative finite value: truncation on a grid. -/
def truncAt (m : Nat) (e p : Int) : Nat :=
  if 0 ≤ e + p then m * 2 ^ (e + p).toNat else m / 2 ^ (-(e + p)).toNat

-- Reductions (R144) ----------------------------------------------------------------------------------------------------

/-- One level of the tree: neighbouring members combine, an absent one passes the other. -/
def pairUp {α : Type} (f : α → α → α) : List (Option α) → List (Option α)
  | some a :: some b :: l => some (f a b) :: pairUp f l
  | some a :: none :: l => some a :: pairUp f l
  | none :: some b :: l => some b :: pairUp f l
  | none :: none :: l => none :: pairUp f l
  | [x] => [x]
  | [] => []

/-- The fixed pairwise tree over a number of levels. -/
def treeRed {α : Type} (f : α → α → α) : Nat → List (Option α) → Option α
  | 0, l => l.head?.join
  | n + 1, l => treeRed f n (pairUp f l)

-- DOT16 (R150) ----------------------------------------------------------------------------------------------------------

/-- R150: the dot product of the pairs, rounded once. -/
def dot16 (f : FFmt) (rm : Nat) (ps : List (FNum × FNum)) : Nat :=
  let prods := ps.map fun p => p.1.mul p.2
  if ps.any (fun p => p.1.isNan || p.2.isNan) || prods.any FNum.isNan then f.nan
  else
    let pinf := prods.any fun p => decide (p = .inf false)
    let ninf := prods.any fun p => decide (p = .inf true)
    if pinf && ninf then f.nan
    else if pinf then f.infBits false
    else if ninf then f.infBits true
    else
      let logs := prods.filterMap fun p => match p with
        | .fin _ m e => if m = 0 then none else some (ilog m e)
        | _ => none
      match logs with
      | [] => 0
      | l :: ls =>
        let emax := ls.foldl max l
        let t : Int := prods.foldl (fun acc p => match p with
          | .fin s m e => let v : Int := truncAt m e (22 - emax)
                          if s then acc - v else acc + v
          | _ => acc) 0
        if t = 0 then 0 else f.round rm (.ofScaled t (emax - 22))

-- VQUANT (R151) ---------------------------------------------------------------------------------------------------------

/-- One candidate of R151: the integers and the exact error in units of 2^-600. -/
def quantTry (xs : List (Bool × Nat × Int)) (lo hi c : Int) : List Int × Int :=
  let qs := xs.map fun x => satI lo hi (roundInt 0 x.1 x.2.1 (x.2.2 - c))
  let err := (xs.zip qs).foldl (fun acc p =>
    let d := scaled p.1.1 p.1.2.1 p.1.2.2 (-300) - p.2 * (2 ^ (c + 300).toNat : Nat)
    acc + d * d) 0
  (qs, err)

/-- R151: the integers and the scale code of one block. Offsets D: 1, 2, 6. -/
def vquant (xs : List FNum) (lo hi d : Int) : List Int × Nat :=
  let fs := xs.filterMap fun x => match x with
    | .fin s m e => some (s, m, e)
    | _ => none
  if fs.length ≠ xs.length then (xs.map fun _ => 0, 0xFF)
  else
    match fs.filterMap (fun x => if x.2.1 = 0 then none else some (ilog x.2.1 x.2.2)) with
    | [] => (xs.map fun _ => 0, 0x7F)
    | l :: ls =>
      let e := ls.foldl max l - d
      let c1 := satI (-127) 127 (e + 1)
      let c2 := satI (-127) 127 e
      let c3 := satI (-127) 127 (e - 1)
      let r1 := quantTry fs lo hi c1
      let r2 := quantTry fs lo hi c2
      let r3 := quantTry fs lo hi c3
      let b := if r2.2 < r1.2 then (c2, r2) else (c1, r1)
      let b := if r3.2 < b.2.2 then (c3, r3) else b
      (b.2.1, (b.1 + 127).toNat)

-- Wide cells (R94 to R96, R152) --------------------------------------------------------------------------------------------

/-- The addend of FADDW (R95): the grid integer mod 2^256, or none for NaN and the infinities. -/
def wideOf (w : Nat) : Option Nat :=
  match fp32.dec w with
  | .fin s m e => let q := truncAt m e 112
                  some (Sys2Proof.Machine.ofInt 256 (if s then -(q : Int) else (q : Int)))
  | _ => none

/-- The result of FADDR (R96). -/
def faddrOf (w : Nat) : Nat :=
  let i := sintNat 256 w
  if i = 0 then 0 else fp32.round 0 (.ofScaled i (-112))

end Sys2Proof.Machine
end

