-- ==== Sys2Proof/Machine/Operands.lean ====
section
/-! DEFINITION. Operand forms: queues (R43 to R45, R90, R161, R222 to R225), vector positions (R160, R272, R273), and
stream patterns (R219 to R222). -/

namespace Sys2Proof.Machine

-- Queues --------------------------------------------------------------------------------------------------------------

/-- Capacity of a queue (R43). -/
def qCap (q : Nat) : Nat := if q < 8 then 16 else 8

/-- Entry width of a queue in bits (R43). -/
def qBits (q : Nat) : Nat := if q < 8 then 64 else 2048

/-- The entries of a queue, oldest first. -/
def qEnts (s : State) (key q : Nat) : List QEntry := sget [] (cellAt s key).q q

/-- Replaces the entries of a queue. -/
def setQ (s : State) (key q : Nat) (l : List QEntry) : State :=
  let c := cellAt s key
  setCell s key { c with q := sset c.q q l }

/-- The declaration of a queue (R43). -/
def qFeed (s : State) (key q : Nat) : QFeed := sget {} (cellAt s key).feeds q

/-- R43: the stream is the declared consumer. -/
def consumer (s : State) (c : Ctx) (q : Nat) : Bool :=
  let f := qFeed s c.key q
  decide (f.kind ≠ .unused) && decide (f.cons = c.seq)

/-- R43: the stream is the declared producer. -/
def producer (s : State) (c : Ctx) (q : Nat) : Bool :=
  let f := qFeed s c.key q
  decide (f.kind ≠ .unused) && f.chan.isNone && decide (f.prod = c.seq)

/-- The queue that an engine operation takes entries from, if it still takes any (R225). -/
def Op.source (o : Op) : Option Nat :=
  if o.units then none
  else match o.kind with
    | .wrq | .scat => if o.left = 0 then none else some o.q
    | .gseg | .gscat | .bst | .bamo => some o.q2
    | _ => none

/-- The queue that an engine operation still writes entries to (R225). -/
def Op.sink (o : Op) : Option Nat :=
  if o.units then none
  else match o.kind with
    | .rdq | .gath | .grow | .gseg | .walk | .sample | .bld | .bred => some o.q
    | _ => none

/-- R225: an earlier operation of the stream still takes entries of the queue. -/
def busyRead (s : State) (c : Ctx) (q : Nat) : Bool :=
  s.ops.any fun o => decide (o.2.key = c.key) && decide (o.2.seq = c.seq) && decide (o.2.source = some q)

/-- R225: an earlier operation of the stream still delivers entries to the queue. -/
def busyWrite (s : State) (c : Ctx) (q : Nat) : Bool :=
  s.ops.any fun o => decide (o.2.key = c.key) && decide (o.2.seq = c.seq) && decide (o.2.sink = some q)

/-- What a read or write of operands gives: a value, an illegal role, or a shortage. -/
inductive Got (α : Type)
  | ok (a : α)
  | ill
  | short

/-- A shortage as the end of a word: a schedule miss in a timed stream, a wait otherwise (R42, R44, R45, R56). -/
def shortRes (c : Ctx) : Res := if c.timed then schedMiss else .wait

/-- Continues a word with operands that were got. -/
def Got.then {α : Type} (g : Got α) (c : Ctx) (k : α → Res) : Res :=
  match g with
  | .ok a => k a
  | .ill => illegal
  | .short => shortRes c

/-- Takes or peeks the oldest entry of a queue (R43 to R45, R161, R225). -/
def takeEntry (s : State) (c : Ctx) (q : Nat) (peek : Bool) : Got (QEntry × State) :=
  if !consumer s c q then .ill
  else if busyRead s c q then .short
  else match qEnts s c.key q with
    | [] => .short
    | e :: es => .ok (e, if peek then s else setQ s c.key q es)

/-- Whether a word may write an entry: the role, and space for an elastic stream (R43, R44, R56). The full queue of a
timed stream is found at the landing. -/
def canPush (s : State) (c : Ctx) (q : Nat) : Got Unit :=
  if !producer s c q then .ill
  else if c.timed then .ok ()
  else if busyWrite s c q || decide (qCap q ≤ (qEnts s c.key q).length) then .short
  else .ok ()

/-- An entry from data: bits above the queue's width are not there. -/
def mkQEntry (q : Nat) (v : BitVec 2048) (mark : Bool) : QEntry :=
  { data := if q < 8 then (v.setWidth 64).setWidth 2048 else v, mark := mark }

/-- A word's entry enters a queue: at issue + latency in a timed stream, at once in an elastic one. -/
def landQ (s : State) (c : Ctx) (q : Nat) (e : QEntry) (latency : Nat) : State :=
  if c.timed then
    addLatch s c.key { due := c.t + latency, tgt := .q q, val := e.data, mark := e.mark, seq := c.seq, pc := c.pc }
  else setQ s c.key q (qEnts s c.key q ++ [e])

-- Vectors -------------------------------------------------------------------------------------------------------------

/-- The low n lanes of w bits of a number, lane 0 first (R90, R269). -/
def unpackL (w : Nat) : Nat → Nat → List Nat
  | 0, _ => []
  | n + 1, v => v % 2 ^ w :: unpackL w n (v / 2 ^ w)

/-- Lanes of w bits packed, lane 0 lowest. -/
def packL (w : Nat) : List Nat → Nat
  | [] => 0
  | x :: xs => x % 2 ^ w + 2 ^ w * packL w xs

/-- Lane width of a lane type (R269, Table 1). -/
def laneW (t : BitVec 3) : Nat :=
  match t.toNat with
  | 0 | 4 => 32
  | 1 | 5 => 16
  | _ => 8

/-- Vector width of a space: 2,048 bits in VN, 512 bits in GS and ST (R17, R160). -/
def vecBits (sp : Space) : Nat := if sp = .vn then 2048 else 512

/-- The low n bits of a vector. -/
def lowBits (n : Nat) (v : BitVec 2048) : BitVec 2048 := BitVec.ofNat 2048 (v.toNat % 2 ^ n)

/-- A vector register. -/
def readV (s : State) (key r : Nat) : BitVec 2048 := sget 0 (cellAt s key).v r

/-- Bytes of a vector chosen by a byte mask replace those of another. -/
def mergeV (old new : BitVec 2048) (mask : BitVec 256) : BitVec 2048 :=
  if mask = BitVec.allOnes 256 then new
  else BitVec.ofNat 2048 (packL 8
    (((unpackL 8 256 old.toNat).zip (unpackL 8 256 new.toNat)).zipIdx.map fun p =>
      if mask.getLsbD p.2 then p.1.2 else p.1.1))

/-- Writes the bytes of a mask of a vector register. -/
def writeV (s : State) (key r : Nat) (v : BitVec 2048) (mask : BitVec 256) : State :=
  let c := cellAt s key
  setCell s key { c with v := sset c.v r (mergeV (sget 0 c.v r) v mask) }

/-- A result for a vector register: the bytes of the mask, over what it holds just before the landing (R41, R273). -/
def landV (s : State) (c : Ctx) (r : Nat) (v : BitVec 2048) (mask : BitVec 256) (latency : Nat) : State :=
  if c.timed then
    addLatch s c.key { due := c.t + latency, tgt := .v r, val := v, mask := mask, seq := c.seq, pc := c.pc }
  else writeV s c.key r v mask

/-- Writes a mask register; m0 is no destination (R270). -/
def writeM (s : State) (key r : Nat) (v : BitVec 256) : State :=
  let c := cellAt s key
  setCell s key { c with m := sset c.m r v }

/-- A result for a mask register. -/
def landM (s : State) (c : Ctx) (r : Nat) (v : BitVec 256) (latency : Nat) : State :=
  if c.timed then
    addLatch s c.key { due := c.t + latency, tgt := .m r, val := v.setWidth 2048, seq := c.seq, pc := c.pc }
  else writeM s c.key r v

/-- The byte mask of lanes of w bits. -/
def byteMask (w : Nat) (lanes : List Bool) : BitVec 256 :=
  BitVec.ofNat 256 (packL (w / 8) (lanes.map fun b => if b then 2 ^ (w / 8) - 1 else 0))

/-- Reads one source in a vector position: a register, an entry, or a broadcast scalar (R160, R161, R272). -/
def readSrc (sp : Space) (w : Nat) (s : State) (c : Ctx) (f : BitVec 6) (peek : Bool) : Got (BitVec 2048 × State) :=
  match opd sp f with
  | .v n => .ok (lowBits (vecBits sp) (readV s c.key n), s)
  | .q n =>
    match takeEntry s c n peek with
    | .ok (e, t) => .ok (lowBits (vecBits sp) (if e.mark then 0 else e.data), t)
    | .ill => .ill
    | .short => .short
  | .a n =>
    let x := (readA s c.key n).toNat
    .ok (BitVec.ofNat 2048 (packL w (List.replicate (vecBits sp / w) x)), s)
  | .bad => .ill

/-- Reads sources in the order A, B, C (R161). -/
def readSrcs (sp : Space) (w : Nat) (c : Ctx) : State → List (BitVec 6 × Bool) → Got (List (BitVec 2048) × State)
  | s, [] => .ok ([], s)
  | s, (f, pk) :: fs =>
    match readSrc sp w s c f pk with
    | .ok (v, s1) =>
      match readSrcs sp w c s1 fs with
      | .ok (vs, s2) => .ok (v :: vs, s2)
      | .ill => .ill
      | .short => .short
    | .ill => .ill
    | .short => .short

/-- The sources of a lane instruction with n of them, with their peek bits. -/
def vecSrcs (f : VecF) (n : Nat) : List (BitVec 6 × Bool) :=
  [(f.a, f.peek.getLsbD 0), (f.b, f.peek.getLsbD 1), (f.c, f.peek.getLsbD 2)].take n

/-- The a registers among sources, which an elastic word waits for (R56). -/
def aFields (sp : Space) (l : List (BitVec 6 × Bool)) : List (BitVec 6) :=
  l.filterMap fun p => match opd sp p.1 with
    | .a n => some (BitVec.ofNat 6 n)
    | _ => none

/-- Whether a field names a queue. -/
def fieldQueue (sp : Space) (f : BitVec 6) : Option Nat :=
  match opd sp f with
  | .q n => some n
  | _ => none

/-- The destination may be written (R43, R160, R272). -/
def dstReady (sp : Space) (s : State) (c : Ctx) (d : BitVec 6) : Got Unit :=
  match opd sp d with
  | .v _ => .ok ()
  | .q n => canPush s c n
  | _ => .ill

/-- Writes a vector destination: the bytes of a mask of a register, or one entry whose other bytes are 0 (R272, R273). -/
def landVec (sp : Space) (s : State) (c : Ctx) (d : BitVec 6) (v : BitVec 2048) (mask : BitVec 256) (latency : Nat) : State :=
  match opd sp d with
  | .v n => landV s c n v mask latency
  | .q n => landQ s c n (mkQEntry n v false) latency
  | _ => s

/-- Bytes of a vector of a space. -/
def fullMask (sp : Space) : BitVec 256 := if sp = .vn then BitVec.allOnes 256 else BitVec.ofNat 256 (2 ^ 64 - 1)

/-- The frame of a lane word: sources got, destination ready, then its effect. An elastic word waits for the a registers among
some fields (R56). -/
def lanesOver (fs : List (BitVec 6 × Bool)) (sp : Space) (f : VecF) (nsrc w : Nat) (k : Ctx → State → List (BitVec 2048) → Res)
    (s : State) : Out :=
  word { spaces := [sp] } (aFields sp fs)
    (fun c s =>
      (readSrcs sp w c s (vecSrcs f nsrc)).then c fun (vs, s1) => (dstReady sp s c f.d).then c fun _ => k c s1 vs) s

/-- A lane word whose a registers are among its sources. -/
def lanesWord (sp : Space) (f : VecF) (nsrc w : Nat) (k : Ctx → State → List (BitVec 2048) → Res) (s : State) : Out :=
  lanesOver (vecSrcs f nsrc) sp f nsrc w k s

/-- The fields of a word of one source with a lane index in B. -/
def indexSrcs (f : VecF) : List (BitVec 6 × Bool) := vecSrcs f 1 ++ [(f.b, false)]

/-- R273: a lanewise result under its mask. -/
def landLanes (sp : Space) (f : VecF) (w : Nat) (c : Ctx) (s : State) (res : List Nat) (latency : Nat) : State :=
  let mk := if sp = .vn then (cellAt s c.key).readM f.msk.toNat else BitVec.allOnes 256
  let isQ := (fieldQueue sp f.d).isSome
  let all := f.zm == 1 || isQ
  let ls := res.zipIdx.map fun p => if mk.getLsbD p.2 then p.1 else 0
  let on := res.zipIdx.map fun p => all || mk.getLsbD p.2
  landVec sp s c f.d (BitVec.ofNat 2048 (packL w ls)) (byteMask w on) latency

/-- A lanewise word: f of the lanes of its sources. -/
def laneWord (sp : Space) (f : VecF) (nsrc latency : Nat) (fn : List Nat → Nat) (s : State) : Out :=
  let w := laneW f.t
  let n := vecBits sp / w
  lanesWord sp f nsrc w
    (fun c s vs =>
      let cols := vs.map fun v => unpackL w n v.toNat
      let res := (List.range n).map fun j => fn (cols.map fun l => l.getD j 0)
      .ok (landLanes sp f w c s res latency)) s

-- Stream patterns (R219 to R222) -----------------------------------------------------------------------------------------

/-- Word i of a descriptor. -/
def dw (ws : List Word) (i : Nat) : Word := ws.getD i 0

/-- Trip counts N0 to N3. -/
def patN (ws : List Word) : List Nat := [bits (dw ws 1) 31 0, bits (dw ws 1) 63 32, bits (dw ws 2) 31 0, bits (dw ws 2) 63 32]

/-- Strides S0 to S3. -/
def patS (ws : List Word) : List Int :=
  [sintNat 32 (bits (dw ws 3) 31 0), sintNat 32 (bits (dw ws 3) 63 32), sintNat 32 (bits (dw ws 4) 31 0),
   sintNat 32 (bits (dw ws 4) 63 32)]

/-- Element count (R220). -/
def patCount (ws : List Word) : Nat := prod (patN ws)

/-- The exact signed offset of element k. -/
def patOff (ws : List Word) (k : Nat) : Int :=
  ((coords (patN ws) k).zip (patS ws)).foldl (fun acc p => acc + (p.1 : Int) * p.2) 0

/-- Whether element k begins a row (R220). -/
def patRow (ws : List Word) (k : Nat) : Bool := decide (k % (patN ws).headD 1 = 0)

def patEsz (ws : List Word) : Nat := bits (dw ws 5) 2 0
def patMark (ws : List Word) : Bool := (dw ws 5).getLsbD 3
def patAlign (ws : List Word) : Bool := (dw ws 5).getLsbD 4
def patBar (ws : List Word) : Word := dw ws 6

/-- Element width in bits: from the tensor's format, or from a size code (R219). -/
def elemBits (s : State) (ctx : Nat) (base : Word) (esz : Nat) : Nat :=
  if tidOf base = 0xFFFF then 8 * 2 ^ (esz - 1)
  else match descFor s ctx (tidOf base) with
    | some d => fmtBits d.fmt
    | none => 8

/-- An address at an element offset from a base (R220). -/
def offAddr (base : Word) (off : Int) (ebits : Nat) : Word :=
  if tidOf base = 0xFFFF then
    BitVec.ofNat 64 (bits base 63 42 * 2 ^ 42 + (((spOff base : Int) + off * (ebits / 8 : Nat)) % (2 ^ 42 : Nat)).toNat)
  else taddr (tidOf base) (((idxOf base : Int) + off) % (2 ^ 48 : Nat)).toNat

/-- The element width of a pattern. -/
def patBits (s : State) (ctx : Nat) (ws : List Word) : Nat := elemBits s ctx (dw ws 0) (patEsz ws)

/-- The address of element k. -/
def patAddr (s : State) (ctx : Nat) (ws : List Word) (k : Nat) : Word :=
  offAddr (dw ws 0) (patOff ws k) (patBits s ctx ws)

/-- The tensor id of a base names a descriptor, or the base is a scratchpad's. -/
def baseKnown (s : State) (ctx : Nat) (base : Word) : Bool :=
  decide (tidOf base = 0xFFFF) || (descFor s ctx (tidOf base)).isSome

/-- The checks of R221 at issue: the fault's code, or 0. -/
def patCheck (s : State) (key ctx : Nat) (ws : List Word) : Nat :=
  let sp := decide (tidOf (dw ws 0) = 0xFFFF)
  if bits (dw ws 5) 63 5 ≠ 0 ∨ dw ws 7 ≠ 0 ∨ patEsz ws = 7 ∨ 2 ^ 40 ≤ patCount ws then cIllegal
  else if (patEsz ws = 0) = sp then cFormat
  else if patBar ws ≠ 0 ∧ (barAddr s key (patBar ws)).isNone then cAddr
  else if !baseKnown s ctx (dw ws 0) then cAddr
  else 0

/-- The eight words of a descriptor register of a sequencer (R219). -/
def readDesc (s : State) (key : Nat) (q : Seq) (d : Nat) : List Word :=
  let m := if q = .w then (cellAt s key).dw else (cellAt s key).dl
  (List.range 8).map fun i => sget 0 m (d * 8 + i)

/-- Writes word i of a descriptor register. -/
def writeDesc (s : State) (key : Nat) (wseq : Bool) (d i : Nat) (v : Word) : State :=
  let c := cellAt s key
  setCell s key (if wseq then { c with dw := sset c.dw (d * 8 + i) v } else { c with dl := sset c.dl (d * 8 + i) v })

end Sys2Proof.Machine
end

