-- ==== Sys2Proof/Machine/ScalarMem.lean ====
section
/-! DEFINITION. Scalar access to memory: TCOORD, TDIM, loads, stores, acquires, releases, atomics and wide accumulation
(R189 to R197), with the address watch of R364 and R369. A word's body takes its operand values, so that an access of
the shadow list can be performed again with the values it read (R367). -/

namespace Sys2Proof.Machine

/-- R369, Table 11: the watch of the cell matches one of the addresses that an access covers. -/
def watchHit (s : State) (key : Nat) (wr : Bool) (addrs : List Word) : Bool :=
  if isCore key then false
  else
    let k := (cellAt s key).csr
    let m : Word := (k.watchc >>> 16) ||| 0xFFFF000000000000
    k.watchc.getLsbD 0 && (if wr then k.watchc.getLsbD 2 else k.watchc.getLsbD 1)
      && addrs.any fun a => decide (a &&& m = k.watcha &&& m)

/-- R364: after an access that the watch matches, the word raises WATCH; the access itself has taken place. -/
def watched (s : State) (c : Ctx) (wr : Bool) (ea : Word) (addrs : List Word) (r : Res) : Res :=
  match r with
  | .ok t => if watchHit s c.key wr addrs then .okFault t { code := cWatch, taddr := ea } else .ok t
  | x => x

/-- The effective address of LD and ST (R191). -/
def scalarEa (base : Word) (imm : BitVec 32) : Word := offAddr base (imm.signExtend 64).toInt 8

/-- The addresses of n bytes of a scratchpad, or of the elements of a scalar access of n bytes (R369). -/
def accessAddrs (s : State) (ctx : Nat) (ea : Word) (n : Nat) : List Word :=
  if tidOf ea = 0xFFFF then (List.range n).map fun (i : Nat) => offAddr ea (i : Int) 8
  else match descFor s ctx (tidOf ea) with
    | some d => if d.fmt < 2 then (List.range n).map fun (i : Nat) => offAddr ea (i : Int) 8 else [ea]
    | none => [ea]

/-- An access fault with what the shadow list keeps (R358). -/
def accFault (c : Ctx) (code : Nat) (ea va vb : Word) (vd : BitVec 2048) (latency : Nat) : Res :=
  .fault { code := code, taddr := ea, shadow := some (va, vb, vd, c.t + latency) }

/-- Fills a request with its agent and sends it. It is performed after the acquires of its sequencer (R113), and a release after
what its sequencer has observed (R114); R119 and R124 except peers and NONORDER. -/
def issueReq (s : State) (c : Ctx) (r : Req) : State :=
  sendReq s { r with key := c.key, seq := c.seq, reg := (if isCore c.key then 0 else (cellAt s c.key).reg),
                     core := (if isCore c.key then c.key - coreKey + 1 else 0), ctx := ctxOf s c.key, pc := c.pc,
                     word := s.curWord, timed := c.timed,
                     peer := (peerOf s (ctxOf s c.key) (tidOf r.addr)).isSome,
                     relAfter := if (peerOf s (ctxOf s c.key) (tidOf r.addr)).isSome ∨ r.use = 2 then []
                                 else acquires s c.key c.seq ++ if r.rel then c.st.obs else [] }

/-- Notes the writes that a read has returned (R114, R116). -/
def observe (s : State) (c : Ctx) (ids : List Nat) : State :=
  if ids.isEmpty then s else onStream s c fun st => { st with obs := (st.obs ++ ids).eraseDups }

/-- A relaxed read may be served from the buffer: no acquire is to return (R113), and no earlier read of its location by its
sequencer is to be performed (R105). -/
def bufferServes (s : State) (c : Ctx) (ea : Word) (n : Nat) : Bool :=
  !acquiring s c.key c.seq && !(s.reqs.any fun p =>
    decide (p.2.key = c.key) && decide (p.2.seq = c.seq) && decide (p.2.op = 0) && decide (p.2.kind = .load) && !p.2.applied
      && sameBytes s p.2 { kind := .load, key := c.key, seq := c.seq, ctx := ctxOf s c.key, addr := ea, n := n })

/-- LD and LD.ACQ (R191 to R193, R113). -/
def ldBody (acq : Bool) (d : BitVec 6) (sub : BitVec 3) (imm : BitVec 32) (base : Word) (c : Ctx) (s : State) : Res :=
  let n := 2 ^ (sub.toNat % 4)
  let sx := sub.getLsbD 2
  let ea := scalarEa base imm
  if sub = 7 then illegal
  else if tidOf ea = 0xFFFF then
    if acq then illegal
    else match spOwner s c.key ea n with
      | none => accFault c cAddr ea base 0 0 4
      | some o =>
        let lat := if o = c.key then 4 else 10 + hops c.key o
        let x := ofBytes (spadBytes s c.key o (spOff ea) n)
        let v := if sx then sextNat (8 * n) x else BitVec.ofNat 64 x
        if spadBad s o (spOff ea) n then accFault c cMemErr ea base 0 0 lat
        else watched s c false ea (accessAddrs s 0 ea n) (.ok (landA s c d v lat))
  else if c.timed then illegal
  else
    let ctx := ctxOf s c.key
    match scalarPlace s ctx ea n with
    | .error code => .fault { code := code, taddr := ea }
    | .ok (_, tile, off) =>
      if !leased s c.key ctx (tidOf ea) tile false then .fault { code := cLease, taddr := ea }
      else
        watched s c false ea (accessAddrs s ctx ea n)
          (match (if acq ∨ !bufferServes s c ea n then none else sectRead s c.key (tidOf ea) tile off n) with
            | some (bs, ids) =>
              let x := ofBytes bs
              .ok (landA (observe s c ids) c d (if sx then sextNat (8 * n) x else BitVec.ofNat 64 x) 0)
            | none =>
              .ok (issueReq (if acq then dropSects s c.key else s) c
                { kind := .load, key := 0, seq := .s, addr := ea, n := n, dst := d.toNat, sext := sx, bypass := acq, acq := acq }))

/-- ST and ST.REL (R191 to R193, R108, R114). -/
def stBody (rel : Bool) (sz : BitVec 2) (imm : BitVec 32) (base data : Word) (c : Ctx) (s : State) : Res :=
  let n := 2 ^ sz.toNat
  let ea := scalarEa base imm
  let bs := toBytes n data.toNat
  if tidOf ea = 0xFFFF then
    if rel then illegal
    else match spOwner s c.key ea n with
      | none => accFault c cAddr ea base data 0 1
      | some o =>
        if spadMergeBad s o (spOff ea) n then accFault c cMemErr ea base data 0 1
        else watched s c true ea (accessAddrs s 0 ea n)
          (match storeAt (spadHeal s o (spOff ea) n) c o (spOff ea) bs 1 with
            | some t => .ok t
            | none => .fault { code := cPhaseOv, taddr := ea })
  else
    let ctx := ctxOf s c.key
    match scalarPlace s ctx ea n with
    | .error code => accFault c code ea base data 0 1
    | .ok (_, tile, _) =>
      if !leased s c.key ctx (tidOf ea) tile true then accFault c cLease ea base data 0 1
      else
        let q : Req := { kind := .store, key := c.key, seq := c.seq, ctx := ctx, addr := ea, n := n, data := data.toNat % 2 ^ (8 * n),
                         rel := rel, va := base, vb := data }
        watched s c true ea (accessAddrs s ctx ea n) (.ok (sectStoreReq (issueReq s c q) q))

/-- R194: the place of an atomic of n bytes, or the fault's code. -/
def atomicPlace (s : State) (ctx : Nat) (ea : Word) (n : Nat) : Except Nat (Desc × Nat × Nat) :=
  match scalarPlace s ctx ea n with
  | .error e => .error e
  | .ok (d, p) =>
    if d.fmt < 2 then (if p.2 % n = 0 then .ok (d, p) else .error cFormat)
    else if (n = 4 ∧ (d.fmt = 4 ∨ d.fmt = 5)) ∨ (n = 8 ∧ d.fmt = 6) then .ok (d, p)
    else .error cFormat

/-- An atomic leaves the cell: its sector leaves the buffer (R70), and outstanding reads of it do not enter it. -/
def atomicLeaves (s : State) (c : Ctx) (ea : Word) (tile off n : Nat) : State :=
  overtake (sectDrop s c.key (tidOf ea) tile off n) c.key fun r => touches s r (ctxOf s c.key) (tidOf ea) tile (off / 32)

/-- AMO and CAS (R123 to R125, R194 to R196). -/
def atomicBody (kind : ReqKind) (d f : BitVec 6) (use w : Nat) (a b e : Word) (c : Ctx) (s : State) : Res :=
  let n := if w = 1 then 4 else 8
  let ctx := ctxOf s c.key
  if c.timed ∧ (d ≠ 0 ∨ f ≠ 0) then illegal
  else if use = 1 ∧ d ≠ 0 then illegal
  else if tidOf a = 0xFFFF then accFault c cAddr a a b (e.setWidth 2048) 1
  else match atomicPlace s ctx a n with
    | .error code => accFault c code a a b (e.setWidth 2048) 1
    | .ok (_, tile, off) =>
      if !leased s c.key ctx (tidOf a) tile true then accFault c cLease a a b (e.setWidth 2048) 1
      else
        let s1 := issueReq s c { kind := kind, key := 0, seq := .s, addr := a, n := n, data := b.toNat % 2 ^ (8 * n),
                                 data2 := e.toNat % 2 ^ (8 * n), use := use, dst := d.toNat, flag := f.toNat,
                                 bypass := true, va := a, vb := b }
        watched s c true a (accessAddrs s ctx a n) (.ok (atomicLeaves s1 c a tile off n))

/-- R94: the place of a wide cell, or the fault's code. -/
def widePlace (s : State) (ctx : Nat) (ea : Word) : Except Nat (Nat × Nat) :=
  if tidOf ea = 0xFFFF then .error cAddr
  else match descFor s ctx (tidOf ea) with
    | none => .error cAddr
    | some d => if d.fmt ≠ 14 then .error cFormat
                else if d.count ≤ idxOf ea then .error cAddr else .ok (placeOf d ea)

/-- FADDW (R95, R197). -/
def faddwBody (a b : Word) (c : Ctx) (s : State) : Res :=
  match wideOf (b.toNat % 2 ^ 32) with
  | none => .fault { code := cArith, taddr := a }
  | some q =>
    match widePlace s (ctxOf s c.key) a with
    | .error code => accFault c code a a b 0 1
    | .ok (tile, off) =>
      if !leased s c.key (ctxOf s c.key) (tidOf a) tile true then accFault c cLease a a b 0 1
      else
        let s1 := issueReq s c { kind := .faddw, key := 0, seq := .s, addr := a, n := 32, data := q, use := 1,
                                 bypass := true, va := a, vb := b }
        watched s c true a [a] (.ok (atomicLeaves s1 c a tile off 32))

/-- The descriptor of a tensor as it stood at the plan's launch or last resumption (R190); a core sees it now. -/
def launchDesc (s : State) (key : Nat) (tens : Nat) : Option Desc :=
  if isCore key then descFor s 255 tens
  else if tens = 0 ∨ tens = 0xFFFF ∨ tableLen s (ctxOf s key) ≤ tens then none
  else sfind (regOf s key).descs tens

/-- R189. TCOORD steps a tensor address along a dimension. -/
def execTcoord (d a b : BitVec 6) (dim : BitVec 3) (s : State) : Out :=
  word { spaces := [.s], core := true } [d, a, b]
    (fun c s =>
      let x := readA s c.key a.toNat
      if 5 ≤ dim.toNat then illegal
      else match launchDesc s c.key (tidOf x) with
        | none => .fault { code := cAddr, taddr := x }
        | some ds =>
          let i := (idxOf x : Int) + (readA s c.key b.toNat).toInt * (prod (ds.ext.take dim.toNat) : Nat)
          .ok (landA s c d (taddr (tidOf x) (i % (2 ^ 48 : Nat)).toNat) 3)) s

/-- R190, Table 3: the descriptor field of a selector. -/
def descField (ds : Desc) (sel : Nat) : Nat :=
  if sel < 5 then ds.ext.getD sel 0
  else if 8 ≤ sel ∧ sel < 13 then ds.tile.getD (sel - 8) 0
  else match sel with
    | 16 => ds.count
    | 17 => ds.ntiles
    | 18 => ds.tileBytes
    | 19 => ds.fmt
    | _ => ds.rank

/-- R190. TDIM reads a descriptor field. -/
def execTdim (d a : BitVec 6) (sel : BitVec 7) (s : State) : Out :=
  word { spaces := [.s], core := true } [d, a]
    (fun c s =>
      let x := readA s c.key a.toNat
      if !tdimSel sel then illegal
      else match launchDesc s c.key (tidOf x) with
        | none => .fault { code := cAddr, taddr := x }
        | some ds => .ok (landA s c d (BitVec.ofNat 64 (descField ds sel.toNat)) 3)) s

/-- A base register names a scratchpad. -/
def spadBase (s : State) (key : Nat) (a : BitVec 6) : Bool := decide (tidOf (readA s key a.toNat) = 0xFFFF)

/-- The scalar accesses to memory. An acquire holds those of a scratchpad at their issue; one of device memory is a request that
waits for it (R113, R119, R124). -/
def lgMem (acc : Bool) : Legal := { spaces := [.s], core := true, acc := acc }

/-- R191, R192. LD. -/
def execLd (d a : BitVec 6) (sub : BitVec 3) (imm : BitVec 32) (s : State) : Out :=
  word (lgMem (spadBase s s.cur a)) [d, a] (fun c s => ldBody false d sub imm (readA s c.key a.toNat) c s) s

/-- R191, R192. ST. -/
def execSt (d a : BitVec 6) (sz : BitVec 2) (imm : BitVec 32) (s : State) : Out :=
  word (lgMem (spadBase s s.cur a)) [d, a]
    (fun c s => stBody false sz imm (readA s c.key a.toNat) (readA s c.key d.toNat) c s) s

/-- R193, R113. LD.ACQ. -/
def execLdAcq (d a : BitVec 6) (sub : BitVec 3) (imm : BitVec 32) (s : State) : Out :=
  word { lgMem (spadBase s s.cur a) with timed := false } [d, a]
    (fun c s => ldBody true d sub imm (readA s c.key a.toNat) c s) s

/-- R193, R114. ST.REL. -/
def execStRel (d a : BitVec 6) (sz : BitVec 2) (imm : BitVec 32) (s : State) : Out :=
  word (lgMem (spadBase s s.cur a)) [d, a]
    (fun c s => stBody true sz imm (readA s c.key a.toNat) (readA s c.key d.toNat) c s) s

/-- R194. AMO. -/
def execAmo (d a b : BitVec 6) (op : BitVec 4) (use : BitVec 3) (w : BitVec 1) (s : State) : Out :=
  word (lgMem false) [d, a, b]
    (fun c s =>
      if 9 ≤ op.toNat ∨ !useAdmits use.toNat op.toNat then illegal
      else atomicBody (.amo op.toNat) d 0 use.toNat w.toNat (readA s c.key a.toNat) (readA s c.key b.toNat) 0 c s) s

/-- R195. CAS: b is the expected value, c the new one. -/
def execCas (d a b c f : BitVec 6) (use : BitVec 3) (w : BitVec 1) (s : State) : Out :=
  word (lgMem false) [d, a, b, c, f]
    (fun x s =>
      if !useAdmits use.toNat 9 then illegal
      else atomicBody .cas d f use.toNat w.toNat (readA s x.key a.toNat) (readA s x.key c.toNat) (readA s x.key b.toNat) x s) s

/-- R197. FADDW. -/
def execFaddw (a b : BitVec 6) (s : State) : Out :=
  word (lgMem (spadBase s s.cur a)) [a, b]
    (fun c s => faddwBody (readA s c.key a.toNat) (readA s c.key b.toNat) c s) s

/-- R197. FADDR. -/
def execFaddr (d a : BitVec 6) (s : State) : Out :=
  word { lgMem (spadBase s s.cur a) with timed := false } [d, a]
    (fun c s =>
      let x := readA s c.key a.toNat
      match widePlace s (ctxOf s c.key) x with
      | .error code => .fault { code := code, taddr := x }
      | .ok (tile, _) =>
        if !leased s c.key (ctxOf s c.key) (tidOf x) tile false then .fault { code := cLease, taddr := x }
        else watched s c false x [x]
          (.ok (issueReq s c { kind := .faddr, key := 0, seq := .s, addr := x, n := 32, dst := d.toNat, bypass := true }))) s

end Sys2Proof.Machine
end

