-- ==== Sys2Proof/Machine/Sync.lean ====
section
/-! DEFINITION. Phases, fences, barriers, tokens and SYNCI (R107, R110, R116, R203 to R209, R216). -/

namespace Sys2Proof.Machine

-- Subgroups (R32, R203) --------------------------------------------------------------------------------------------------

/-- Height and width of a subgroup word (R203, Table 5); none where a code is illegal. -/
def grpSize (w : Word) : Option (Nat × Nat) :=
  let h := match bits w 10 8 with
    | 0 => some 1
    | 1 => some 2
    | 2 => some 3
    | 3 => some 6
    | 4 => some 12
    | 5 => some 4
    | _ => none
  let v := match bits w 13 11 with
    | 0 => some 1
    | 1 => some 2
    | 2 => some 4
    | 3 => some 8
    | 4 => some 16
    | _ => none
  match h, v with
  | some a, some b => some (a, b)
  | _, _ => none

/-- R31: a rectangle that a region or subgroup may have on a die of a class. -/
def rectOk (cls row col h w : Nat) : Bool :=
  if cls = 3 then
    (h == 1 || h == 2 || h == 4) && (w == 1 || w == 2 || w == 4) && row % h == 0 && col % w == 0
      && decide (row + h ≤ 4) && decide (col + w ≤ 4)
  else
    (h == 1 || h == 2 || h == 3 || h == 6 || h == 12) && (w == 1 || w == 2 || w == 4 || w == 8 || w == 16)
      && row % h == 0 && col % w == 0 && decide (row + h ≤ 12) && decide (col + w ≤ 16)

/-- A rectangle lies inside the region's rectangle on a die. -/
def inDie (d : RDie) (row col h w : Nat) : Bool :=
  decide (d.row0 ≤ row ∧ row + h ≤ d.row0 + d.hgt ∧ d.col0 ≤ col ∧ col + w ≤ d.col0 + d.wid)

/-- The cells of a rectangle on a bound die, in row-major order. -/
def rectKeys (d : RDie) (row col h w : Nat) : List Nat :=
  (List.range h).flatMap fun i => (List.range w).map fun j => keyOn d (row + i) (col + j)

/-- The cells that a subgroup word names for a region, die by die, or none where a rule of R31, R32 or R203 is
broken. -/
def groupCells (r : Region) (w : Word) : Option (List Nat) :=
  match grpSize w with
  | none => none
  | some (h, v) =>
    let row := bits w 3 0
    let col := bits w 7 4
    if bits w 31 14 ≠ 0 then none
    else
      (List.range 32).foldl
        (fun acc n =>
          match acc with
          | none => none
          | some l =>
            if !w.getLsbD (32 + n) then some l
            else match r.dies[n]? with
              | none => none
              | some d =>
                if rectOk d.cls row col h v && inDie d row col h v then some (l ++ rectKeys d row col h v) else none)
        (some [])

/-- R107, R203: the cells of a PHASE, or none where it is illegal. -/
def phaseCells (s : State) (key : Nat) (w : Word) (scope : Nat) : Option (List Nat) :=
  let c := cellAt s key
  let r := regAt s c.reg
  match groupCells r w with
  | none => none
  | some l =>
    let own := decide (bits w 63 32 = 2 ^ c.ldie)
    let okScope := match scope with
      | 1 => own && l.all fun k => decide (clusOf k = clusOf key)
      | 2 => own
      | 3 => true
      | _ => false
    if l.contains key && okScope && l.all (fun k => decide ((cellAt s k).ss.mode = c.ss.mode)) && decide (c.ss.mode ≠ .none)
    then some l else none

-- The merge (R110) ---------------------------------------------------------------------------------------------------------

/-- The merge of one cell of a phase: the writers of its cluster that take part, in ascending index. -/
def mergeOne (s : State) (l : List Nat) (ep : Nat → Nat) (k : Nat) : State :=
  let c := cellAt s k
  let parts := (List.range 48).filterMap fun i =>
    match clusterCell k i with
    | some x => if x ≠ k ∧ l.contains x then some (i, ep x) else none
    | none => none
  setCell s k (mergeCell c (cidxOf k) (ep k) parts)

/-- The merge of every cell of a pending phase; the sector buffers are invalidated (R71). -/
def mergeAll (s : State) (l : List Nat) : State :=
  let ep (k : Nat) : Nat := match (cellAt s k).phase with
    | some p => p.ep
    | none => 0
  let t := l.foldl (fun t k => dropSects (mergeOne t l ep k) k) s
  l.foldl
    (fun t k =>
      let c := cellAt t k
      setCell t k { c with phase := c.phase.map fun p => { p with merged := true } }) t

-- Fences (R116 to R119, R124) ------------------------------------------------------------------------------------------------

/-- Whether one request is visible at a scope, or has returned. A NONORDER atomic is excepted; peer accesses concern SYS
alone. -/
def reqDone (r : Req) (scope : Nat) : Bool :=
  decide (r.use = 2) || (r.peer && decide (scope < 4))
    || (decide (scope < 3) &&
        (match r.kind with
          | .store => decide (r.out ≠ 0) && !isCore r.key
          | _ => r.applied && decide (r.dst = 0 ∧ r.flag = 0)))

/-- R116: the fence of a sequencer is complete. -/
def fenceDone (s : State) (key : Nat) (q : Seq) (scope : Nat) : Bool :=
  let st := streamAt s key q
  s.reqs.all fun p =>
    let r := p.2
    let own := decide (r.key = key) && decide (r.seq = q) && decide (r.op = 0)
    let eng := decide (r.key = key) && decide (r.op ≠ 0) && !(s.ops.any fun o => decide (o.1 = r.op))
    let seen := st.obs.contains p.1
    !(own || eng || seen) || reqDone r scope

/-- R206, R207. FENCE: in an elastic stream the next word issues when it is complete, but a NONORDER atomic or a peer access
(R116, R119, R124); a timed stream may go on 56 cycles later. -/
def execFence (scope : BitVec 3) (s : State) : Out :=
  word { spaces := [.s], core := true } []
    (fun c s =>
      if 5 ≤ scope.toNat then illegal
      else if c.timed then
        let n := c.t + idleNat (fetchWord s c.key c.seq)
        if n < c.t + 56 then illegal
        else .ok (onStream { s with nextId := s.nextId + 1 } c fun st =>
          { st with fences := st.fences ++ [{ scope := scope.toNat, next := n, asked := false, id := s.nextId, born := s.tick, pc := c.pc }] })
      else if fenceDone s c.key c.seq scope.toNat then
        .ok (dropSects (onStream s c fun st => { st with obs := if 3 ≤ scope.toNat then [] else st.obs }) c.key)
      else .ok (onStream { s with nextId := s.nextId + 1 } c fun st =>
        { st with fences := st.fences ++ [{ scope := scope.toNat, next := 0, asked := true, id := s.nextId, born := s.tick, pc := c.pc }] })) s

/-- PL of R205. -/
def phaseLat (scope : Nat) : Nat := if scope = 1 then 16 else 64

/-- R205: another cell of the subgroup issues the matching PHASE at the same TIDE. -/
def phaseMate (s : State) (w : Word) (scope t k : Nat) : Bool :=
  (match (cellAt s k).phase with
    | some p => decide (p.grp = w ∧ p.scope = scope ∧ p.timed ∧ p.at_ = t)
    | none => false)
  || (let st := (cellAt s k).ss
      decide (st.pos = 2) && !st.ended && decide (nextIssue st (fetchWord s k .s) = t)
        && match decodeAt s k .s with
          | .ok (.phase a sc) => decide (readA s k a.toNat = w) && decide (sc.toNat = scope)
          | _ => false)

/-- R107, R203 to R205. PHASE. -/
def execPhase (a : BitVec 6) (scope : BitVec 3) (s : State) : Out :=
  word { spaces := [.s], trap := false, rebuild := false } [a]
    (fun c s =>
      let w := readA s c.key a.toNat
      match phaseCells s c.key w scope.toNat with
      | none => illegal
      | some l =>
        let x := cellAt s c.key
        let pend : PhasePend := { grp := w, scope := scope.toNat, timed := c.timed, at_ := c.t, ep := x.ep }
        let s1 := setCell s c.key { x with phase := some pend, ep := x.ep + 1 }
        if c.timed then
          let n := c.t + idleNat (fetchWord s c.key c.seq)
          let pl := phaseLat scope.toNat
          if n < c.t + pl then illegal
          else if !l.all (fun k => decide (k = c.key) || phaseMate s w scope.toNat c.t k) then schedMiss
          else
            let s2 := addLatch s1 c.key { due := c.t + pl, tgt := .merge, seq := .s, pc := c.pc }
            .ok (if scope = 1 then s2
                 else onStream s2 c fun st => { st with fences := st.fences ++ [{ scope := scope.toNat, next := n, asked := false, merge := c.t + pl }] })
        else
          let clash := (regCells (regAt s x.reg)).any fun k =>
            decide (k ≠ c.key) && match (cellAt s k).phase with
              | some p => !p.timed && !p.merged && decide (p.grp ≠ w ∨ p.scope ≠ scope.toNat)
                  && (match phaseCells s k p.grp p.scope with | some m => m.contains c.key | none => false)
              | none => false
          if clash then .fault { code := cBarrier } else .ok s1) s

-- Barriers (R91 to R93, R208, R242, R243) -------------------------------------------------------------------------------------

/-- The latency of a load of a barrier word (R208, Table 1 of chapter 7). -/
def barLat (key o : Nat) : Nat := if o = key then 4 else 10 + hops key o

/-- The value of an arrival latch: byte count, address, word. -/
def arriveVal (n a w : Word) : BitVec 2048 := BitVec.ofNat 2048 (n.toNat + a.toNat * 2 ^ 64 + w.toNat * 2 ^ 128)

/-- R208, R243: the barrier that an elastic stream waits for has turned. -/
def barOpen (s : State) (st : Stream) : Bool :=
  match st.bw with
  | none => true
  | some (k, off, par, _) => decide (bits (barWord s k off) 60 60 ≠ par)

/-- BAR and ARRV (R208, R242): the arrival at the owner's port, in a timed stream at issue + hops. -/
def arriveBody (d : BitVec 6) (wait : Bool) (a n : Word) (c : Ctx) (s : State) : Res :=
  match barAddr s c.key a with
  | none => accFault c cAddr a a n 0 4
  | some (o, off) =>
    if spadBad s o off 8 then accFault c cMemErr a a n 0 4
    else if c.timed then
      watched s c true a (accessAddrs s 0 a 8)
        (.ok (addLatch s c.key
          { due := c.t + hops c.key o, tgt := .arrive o off d.toNat (c.t + barLat c.key o) wait, val := arriveVal n a s.curWord,
            seq := c.seq, pc := c.pc }))
    else
      let w := barWord s o off
      match arriveWord w n.toInt with
      | none => .fault { code := cBarrier, taddr := a }
      | some w' =>
        let par := bits w 60 60
        let s1 := landA (setBarWord s o off w') c d (BitVec.ofNat 64 par) 0
        watched s c true a (accessAddrs s 0 a 8) (.ok (if wait then onStream s1 c fun st => { st with bw := some (o, off, par, 0) } else s1))

/-- R208. BAR. -/
def execBar (d a b : BitVec 6) (wait : BitVec 1) (s : State) : Out :=
  word { spaces := [.s], trap := false, rebuild := false, acc := true } [d, a, b]
    (fun c s => arriveBody d (wait == 1) (readA s c.key a.toNat) (readA s c.key b.toNat) c s) s

-- Tokens and SYNCI (R120, R209, R216) --------------------------------------------------------------------------------------------

/-- R209. TOKW. -/
def execTokw (k1 k2 k3 : BitVec 5) (s : State) : Out :=
  word { spaces := [.s], trap := false } []
    (fun c s =>
      match takeToks s c.key { kd := 0, k1 := k1, k2 := k2, k3 := k3 } with
      | some t => .ok t
      | none => tokShort c) s

/-- The words that a stream has fetched are discarded; they are there again from a period on (R216). -/
def Stream.refetch (st : Stream) (p : Nat) : Stream := { st with pre := [], fetchP := p }

/-- R129, R216. SYNCI discards the prefetched words of the cell's sequencers and its sector buffer; words that a timed
stream has pre-decoded execute as fetched. -/
def execSynci (s : State) : Out :=
  word { spaces := [.s], core := true } []
    (fun c s =>
      let (n, s) := freeNum s
      let p := s.per + Config.fetchDelay n
      let t := dropSects s c.key
      .ok (if c.core then onStream t c fun st => st.refetch p
           else
             let x := cellAt t c.key
             setCell t c.key { x with ss := x.ss.refetch p, sl := x.sl.refetch p, sc := x.sc.refetch p, sw := x.sw.refetch p })) s

end Sys2Proof.Machine
end

