-- ==== Sys2Proof/Machine/Queue.lean ====
section
/-! DEFINITION. Queue words, engine starts and the format queue of the S space (R210 to R212). -/

namespace Sys2Proof.Machine

/-- The S words of this file: cells alone, outside trap stubs (R350, R365). -/
def lgQ : Legal := { spaces := [.s], trap := false }

/-- The addresses of n bytes of the cell's own scratchpad. -/
def spadAddrs (key off n : Nat) : List Word := (List.range n).map fun i => taddr 0xFFFF (cidxOf key * 2 ^ 42 + off + i)

/-- The address of a byte offset of the cell's own scratchpad (R73, R369). -/
def ownAddr (key : Nat) (x : Word) : Word := taddr 0xFFFF (cidxOf key * 2 ^ 42 + x.toNat % 2 ^ 42)

/-- R210. QPUSH. -/
def execQpush (q : BitVec 4) (a : BitVec 6) (s : State) : Out :=
  word { lgQ with acc := true } [a]
    (fun c s =>
      let n := q.toNat
      let x := readA s c.key a.toNat
      (canPush s c n).then c fun _ =>
        if n < 8 then .ok (landQ s c n (mkQEntry n (x.setWidth 2048) false) 1)
        else if spadSize c.key < x.toNat + 256 then accFault c cAddr (ownAddr c.key x) x 0 0 4
        else if spadBad s c.key x.toNat 256 then accFault c cMemErr (ownAddr c.key x) x 0 0 4
        else
          let v := BitVec.ofNat 2048 (ofBytes (spadBytes s c.key c.key x.toNat 256))
          watched s c false (ownAddr c.key x) (spadAddrs c.key x.toNat 256) (.ok (landQ s c n (mkQEntry n v false) 4))) s

/-- R210: an entry of q8 to q15 is written to the cell's own scratchpad, at issue + 4 in a timed stream. -/
def entryToSpad (s : State) (c : Ctx) (off : Nat) (v : BitVec 2048) : Option State :=
  if c.timed then
    some (addLatch s c.key { due := c.t + 4, tgt := .spad off, val := v, mask := BitVec.allOnes 256, seq := c.seq, pc := c.pc,
                             ep := some (cellAt s c.key).ep })
  else spadStore s c.key c.key off (toBytes 256 v.toNat)

/-- R210. QPOP and QPEEK. -/
def takeWord (q : BitVec 4) (d a : BitVec 6) (peek : Bool) (s : State) : Out :=
  word { lgQ with acc := true } [d, a]
    (fun c s =>
      let n := q.toNat
      (takeEntry s c n peek).then c fun (e, t) =>
        let v := if e.mark then 0 else e.data
        if n < 8 then .ok (landA t c d (v.setWidth 64) 1)
        else
          let x := readA s c.key a.toNat
          if spadSize c.key < x.toNat + 256 then accFault c cAddr (ownAddr c.key x) x 0 v 4
          else if spadMergeBad s c.key x.toNat 256 then accFault c cMemErr (ownAddr c.key x) x 0 v 4
          else
            watched s c true (ownAddr c.key x) (spadAddrs c.key x.toNat 256)
              (match entryToSpad (spadHeal t c.key x.toNat 256) c x.toNat v with
                | some u => .ok u
                | none => .fault { code := cPhaseOv, taddr := ownAddr c.key x })) s

/-- R210. QPOP. -/
def execQpop (q : BitVec 4) (d a : BitVec 6) (s : State) : Out := takeWord q d a false s

/-- R210. QPEEK. -/
def execQpeek (q : BitVec 4) (d a : BitVec 6) (s : State) : Out := takeWord q d a true s

/-- R210. QCNT: any queue that is not unused. -/
def execQcnt (q : BitVec 4) (d : BitVec 6) (s : State) : Out :=
  word lgQ [d]
    (fun c s =>
      if (qFeed s c.key q.toNat).kind = .unused then illegal
      else .ok (landA s c d (BitVec.ofNat 64 (qEnts s c.key q.toNat).length) 1)) s

-- Engine operations ------------------------------------------------------------------------------------------------------

/-- Starts an engine operation of the running word (R211, R224). -/
def startOp (s : State) (c : Ctx) (o : Op) : State :=
  let (id, s) := fresh s
  { s with ops := sset s.ops id { o with key := c.key, seq := c.seq, reg := (cellAt s c.key).reg, pc := c.pc, ord := id,
                                         t0 := s.tick, born := s.tick, due := s.per + Config.accessPeriods } }

/-- Whether a kind of operation is started by ENG. -/
def OpKind.isEng : OpKind → Bool
  | .tload | .tcopy | .tstore | .tfill => true
  | _ => false

/-- The ENG operations of a cell outstanding (R211). -/
def engCount (s : State) (key : Nat) : Nat := (s.ops.filter fun o => decide (o.2.key = key) && o.2.kind.isEng).length

/-- R211. ENG of one function. An acquire does not hold one on a tensor of another package (R119). -/
def engWord (kind : OpKind) (d a b : BitVec 6) (k : Toks) (s : State) : Out :=
  word { lgQ with acc := !(peerBase s s.cur a || peerBase s s.cur b) } [d, a, b]
    (fun c s =>
      if c.timed && decide (d ≠ 0) then illegal
      else if !c.timed && decide (64 ≤ engCount s c.key) then .wait
      else match takeToks s c.key k with
        | none => tokShort c
        | some t =>
          .ok (startOp t c { kind := kind, key := 0, seq := .s, reg := 0, pc := 0, ord := 0, va := readA s c.key a.toNat,
                             vb := readA s c.key b.toNat, kd := k.kd.toNat, dst := d.toNat })) s

/-- R211. ENG JOIN completes as it begins: its token is there at once, for words of the same cycle too (R120). An elastic one
issues when the earlier writes to a registers have landed, which the token's consumer then sees (R226; log 80). -/
def execEngJoin (d : BitVec 6) (k : Toks) (s : State) : Out :=
  word lgQ [d]
    (fun c s =>
      if c.timed && decide (d ≠ 0) then illegal
      else if !c.timed && (decide (64 ≤ engCount s c.key) || anyPendingA s c.key) then .wait
      else match takeToks s c.key k with
        | none => tokShort c
        | some t =>
          let (u, ok) := addTok t c.key k.kd.toNat
          let u := landA u c d 0 1
          if ok then .ok u else .okFault u { code := cTokOv, engn := true }) s

/-- R211. ENG TLOAD. -/
def execEngTload (d a b : BitVec 6) (k : Toks) (s : State) : Out := engWord .tload d a b k s

/-- R211. ENG TCOPY. -/
def execEngTcopy (d a b : BitVec 6) (k : Toks) (s : State) : Out := engWord .tcopy d a b k s

/-- R211. ENG TSTORE. -/
def execEngTstore (d a b : BitVec 6) (k : Toks) (s : State) : Out := engWord .tstore d a b k s

/-- R211. ENG TFILL. -/
def execEngTfill (d a b : BitVec 6) (k : Toks) (s : State) : Out := engWord .tfill d a b k s

/-- R212. FPUSH appends to FQ of an MX cell, at issue + 1. DESIGN CHOICE, log 73: a full FQ is judged by what it holds at the
issue. -/
def execFpush (a : BitVec 6) (s : State) : Out :=
  word lgQ [a]
    (fun c s =>
      if classOf c.key ≠ 0 then illegal
      else if 16 ≤ (cellAt s c.key).mx.fq.length then shortRes c
      else
        let v := readA s c.key a.toNat
        if c.timed then .ok (addLatch s c.key { due := c.t + 1, tgt := .fq, val := v.setWidth 2048, seq := c.seq, pc := c.pc })
        else
          let x := cellAt s c.key
          .ok (setCell s c.key { x with mx := { x.mx with fq := x.mx.fq ++ [v] } })) s

end Sys2Proof.Machine
end

