-- ==== Sys2Proof/Machine/Access.lean ====
section
/-! DEFINITION. Words of the load and write sequencers (R219 to R244). -/

namespace Sys2Proof.Machine

/-- L and W words legal in both modes (R227). -/
def lgLW : Legal := { spaces := [.lw] }

/-- An elastic word issues once its tokens are there and its unit has room; nothing of it is checked before (R56, R120). -/
def gated (k : Toks) (full : Ctx → State → Bool) (f : Ctx → State → Res) (c : Ctx) (s : State) : Res :=
  if !c.timed && (full c s || (takeToks s c.key k).isNone) then .wait else f c s

/-- Continues a word once its tokens are consumed (R120, R162, R228). -/
def withToks (s : State) (c : Ctx) (k : Toks) (f : State → Res) : Res :=
  match takeToks s c.key k with
  | some t => f t
  | none => tokShort c

/-- A fault of a code that `patCheck` and its kin give; 0 goes on. -/
def orFault (code : Nat) (ta : Word) (r : Res) : Res := if code = 0 then r else .fault { code := code, taddr := ta }

/-- The operations of R224 and R342. -/
def OpKind.isAcc : OpKind → Bool
  | .rdq | .rds | .wrq | .wrs | .cpy | .gath | .scat | .pref | .coll => true
  | _ => false

/-- The access operations of a stream outstanding (R224). -/
def accCount (s : State) (key : Nat) (q : Seq) : Nat :=
  (s.ops.filter fun o => decide (o.2.key = key) && decide (o.2.seq = q) && o.2.kind.isAcc).length

/-- The limit of R224: 16 access operations of a stream. -/
def accFull (c : Ctx) (s : State) : Bool := decide (16 ≤ accCount s c.key c.seq)

/-- Starts an access operation. -/
def startAcc (s : State) (c : Ctx) (k : Toks) (o : Op) : Res :=
  withToks s c k fun t => .ok (startOp t c { o with kd := k.kd.toNat })

/-- A new operation over a pattern. -/
def patOp (kind : OpKind) (ws : List Word) : Op :=
  { kind := kind, key := 0, seq := .s, reg := 0, pc := 0, ord := 0, ds := ws, bar := patBar ws }

/-- A write of words of a descriptor register, usable at issue + d in a timed stream (R227). -/
def landDesc (s : State) (c : Ctx) (d : Nat) (ws : List (Nat × Word)) (latency : Nat) : State :=
  let w := decide (c.seq = .w)
  ws.foldl
    (fun s p =>
      if c.timed then
        addLatch s c.key { due := c.t + latency, tgt := .desc w d p.1, val := p.2.setWidth 2048, seq := c.seq, pc := c.pc }
      else writeDesc s c.key w d p.1 p.2) s

/-- R229. DSET. -/
def execDset (ds : BitVec 3) (a : BitVec 6) (w : BitVec 3) (k : Toks) (s : State) : Out :=
  word lgLW [a]
    (fun c s => withToks s c k fun t => .ok (landDesc t c ds.toNat [(w.toNat, readA s c.key a.toNat)] 1)) s

/-- R229. DCLR. -/
def execDclr (ds : BitVec 3) (k : Toks) (s : State) : Out :=
  word lgLW []
    (fun c s => withToks s c k fun t => .ok (landDesc t c ds.toNat ((List.range 8).map fun i => (i, 0)) 1)) s

/-- R229. DLD, with its address given. -/
def dldBody (ds : BitVec 3) (a : Word) (c : Ctx) (s : State) : Res :=
  let off := spOff a
  if tidOf a ≠ 0xFFFF ∨ spIdx a ≠ cidxOf c.key ∨ off % 8 ≠ 0 ∨ spadSize c.key < off + 64 then accFault c cAddr a a 0 0 4
  else if spadBad s c.key off 64 then accFault c cMemErr a a 0 0 4
  else
    let ws := (List.range 8).map fun j => (j, BitVec.ofNat 64 (ofBytes (spadBytes s c.key c.key (off + 8 * j) 8)))
    watched s c false a (spadAddrs c.key off 64) (.ok (landDesc s c ds.toNat ws 4))

/-- R229. DLD. -/
def execDld (ds : BitVec 3) (a : BitVec 6) (k : Toks) (s : State) : Out :=
  word lgLW [a] (fun c s => withToks s c k fun t => dldBody ds (readA s c.key a.toNat) c t) s

/-- R222: elements that go into a queue are no wider than its entries; none is a WIDE256 of a tensor. -/
def tooWide (q : Nat) (base : Word) (ebits : Nat) : Bool :=
  decide (qBits q < ebits) || (decide (ebits = 256) && decide (tidOf base ≠ 0xFFFF))

/-- Queue entries that elements in rows take, in all (R222): with ROWALIGN each row begins an entry. -/
def packEntries (lanes rows row : Nat) (align : Bool) : Nat :=
  if align then rows * ((row + lanes - 1) / lanes) else (rows * row + lanes - 1) / lanes

/-- R222, R230. RDQ. Into a schedule-fed queue the engine reads entry j at issue + j (`hold`, `lim`). -/
def execRdq (ds : BitVec 3) (q : BitVec 4) (k : Toks) (s : State) : Out :=
  word lgLW []
    (gated k accFull fun c s =>
      let ws := readDesc s c.key c.seq ds.toNat
      let n := q.toNat
      let sched := decide ((qFeed s c.key n).kind = .sched)
      let own := decide (tidOf (dw ws 0) = 0xFFFF ∧ spIdx (dw ws 0) = cidxOf c.key)
      if !producer s c n then illegal
      else orFault (patCheck s c.key (ctxOf s c.key) ws) (dw ws 0)
        (if tooWide n (dw ws 0) (patBits s (ctxOf s c.key) ws) then .fault { code := cFormat, taddr := dw ws 0 }
         else if sched && !(c.timed && own) then illegal
         else startAcc s c k { patOp .rdq ws with q := n, mark := patMark ws, hold := sched, lim := c.t })) s

/-- Bytes that count packed elements take. -/
def packedBytes (count ebits : Nat) : Nat := (count * ebits + 7) / 8

/-- RDS and WRS (R231): a packed scratchpad range and a pattern. An empty range raises no address fault (R102). -/
def packWord (kind : OpKind) (ds : BitVec 3) (a : BitVec 6) (k : Toks) (s : State) : Out :=
  word lgLW [a]
    (gated k accFull fun c s =>
      let ws := readDesc s c.key c.seq ds.toNat
      let x := readA s c.key a.toNat
      let n := packedBytes (patCount ws) (patBits s (ctxOf s c.key) ws)
      orFault (patCheck s c.key (ctxOf s c.key) ws) (dw ws 0)
        (if n ≠ 0 ∧ (tidOf x ≠ 0xFFFF ∨ (spOwner s c.key x n).isNone) then .fault { code := cAddr, taddr := x }
         else startAcc s c k { patOp kind ws with va := x })) s

/-- R231. RDS. -/
def execRds (ds : BitVec 3) (a : BitVec 6) (k : Toks) (s : State) : Out := packWord .rds ds a k s

/-- R231. WRS. -/
def execWrs (ds : BitVec 3) (a : BitVec 6) (k : Toks) (s : State) : Out := packWord .wrs ds a k s

/-- R232. WRQ. -/
def execWrq (ds : BitVec 3) (q : BitVec 4) (k : Toks) (s : State) : Out :=
  word lgLW []
    (gated k accFull fun c s =>
      let ws := readDesc s c.key c.seq ds.toNat
      let n := q.toNat
      if !consumer s c n then illegal
      else orFault (patCheck s c.key (ctxOf s c.key) ws) (dw ws 0)
        (if qBits n < patBits s (ctxOf s c.key) ws then .fault { code := cFormat, taddr := dw ws 0 }
         else startAcc s c k
           { patOp .wrq ws with q := n, left := packEntries (qBits n / patBits s (ctxOf s c.key) ws) (patCount ws / (patN ws).headD 1)
                                                  ((patN ws).headD 1) (patAlign ws) })) s

/-- R233. CPY. -/
def execCpy (ds dt : BitVec 3) (k : Toks) (s : State) : Out :=
  word lgLW []
    (gated k accFull fun c s =>
      let ws := readDesc s c.key c.seq ds.toNat
      let wt := readDesc s c.key c.seq dt.toNat
      let ctx := ctxOf s c.key
      orFault (patCheck s c.key ctx ws) (dw ws 0)
        (orFault (patCheck s c.key ctx wt) (dw wt 0)
          (if patCount ws ≠ patCount wt ∨ patBits s ctx ws ≠ patBits s ctx wt then .fault { code := cFormat, taddr := dw ws 0 }
           else startAcc s c k { patOp .cpy ws with dt := wt }))) s

/-- R236: the format checks on the index pattern and the table. -/
def rowCheck (s : State) (c : Ctx) (ws : List Word) (a b : Word) (tesz : Nat) : Nat :=
  let ctx := ctxOf s c.key
  let idxOk :=
    if tidOf (dw ws 0) = 0xFFFF then decide (patEsz ws = 3 ∨ patEsz ws = 4)
    else match descFor s ctx (tidOf (dw ws 0)) with
      | some d => decide (d.fmt = 4 ∨ d.fmt = 5 ∨ d.fmt = 6)
      | none => false
  let chk := patCheck s c.key ctx ws
  if chk ≠ 0 then chk
  else if bits b 31 0 = 0 then cIllegal
  else if !idxOk then cFormat
  else if (tesz = 0) = (tidOf a = 0xFFFF) then cFormat
  else if !baseKnown s ctx a then cAddr
  else 0

/-- R236, R237. GATH. -/
def execGath (ds : BitVec 3) (q : BitVec 4) (a b : BitVec 6) (xf : BitVec 8) (k : Toks) (s : State) : Out :=
  word lgLW [a, b]
    (gated k accFull fun c s =>
      let ws := readDesc s c.key c.seq ds.toNat
      let n := q.toNat
      let x := readA s c.key a.toNat
      let y := readA s c.key b.toNat
      let tesz := (xf.extractLsb' 4 3).toNat
      if !producer s c n ∨ (qFeed s c.key n).kind ≠ .mem ∨ tesz = 7 then illegal
      else orFault (rowCheck s c ws x y tesz) x
        (if tooWide n x (elemBits s (ctxOf s c.key) x tesz) then .fault { code := cFormat, taddr := x }
         else startAcc s c k { patOp .gath ws with q := n, va := x, vb := y, fn := xf.toNat, mark := patMark ws })) s

/-- R238: the format that an operation of SCAT asks of its table. -/
def scatFmtOk (s : State) (ctx : Nat) (a : Word) (opk : Nat) : Bool :=
  if opk = 0 then true
  else if tidOf a = 0xFFFF then false
  else match descFor s ctx (tidOf a) with
    | some d => if opk = 1 then decide (d.fmt = 14) else decide (d.fmt = 4 ∨ d.fmt = 5 ∨ d.fmt = 6)
    | none => false

/-- The lane width of a SCAT (R238). -/
def scatBits (s : State) (ctx : Nat) (a : Word) (opk tesz : Nat) : Nat := if opk = 1 then 32 else elemBits s ctx a tesz

/-- R236, R238. SCAT. -/
def execScat (ds : BitVec 3) (q : BitVec 4) (a b : BitVec 6) (xf : BitVec 8) (k : Toks) (s : State) : Out :=
  word lgLW [a, b]
    (gated k accFull fun c s =>
      let ws := readDesc s c.key c.seq ds.toNat
      let n := q.toNat
      let x := readA s c.key a.toNat
      let y := readA s c.key b.toNat
      let tesz := (xf.extractLsb' 4 3).toNat
      let opk := (xf.extractLsb' 2 2).toNat
      if !consumer s c n ∨ tesz = 7 ∨ opk = 3 then illegal
      else orFault (rowCheck s c ws x y tesz) x
        (if !scatFmtOk s (ctxOf s c.key) x opk ∨ qBits n < scatBits s (ctxOf s c.key) x opk tesz then
           .fault { code := cFormat, taddr := x }
         else startAcc s c k
           { patOp .scat ws with q := n, va := x, vb := y, fn := xf.toNat,
                                 left := packEntries (qBits n / scatBits s (ctxOf s c.key) x opk tesz) (patCount ws) (bits y 31 0)
                                   (xf.getLsbD 0) })) s

/-- R234. PREF. -/
def execPref (ds : BitVec 3) (k : Toks) (s : State) : Out :=
  word lgLW []
    (gated k accFull fun c s =>
      let ws := readDesc s c.key c.seq ds.toNat
      orFault (patCheck s c.key (ctxOf s c.key) ws) (dw ws 0) (startAcc s c k { patOp .pref ws with bar := 0 })) s

-- Timed transfers (R52 to R54, R240, R241) ------------------------------------------------------------------------------------

/-- The hop count h of R19. -/
def pushHops (key : Nat) : Nat := if key < 2304 then 15 - colOf key else (3 - colOf key) + (stkOf key + 1)

/-- The latency class of a site slot: 0 W, 1 E (R13, Table 1). -/
def siteClass (slot : Nat) : Nat :=
  [0, 0, 0, 1, 1, 1, 0, 0, 1, 0, 1, 1, 0, 0, 0, 0, 1, 1, 1, 1].getD slot 0

/-- The latency of a push between two cells (R52, R54). -/
def pushLat (k1 k2 : Nat) (sameDie : Bool) : Nat :=
  if sameDie then Nat.max 1 (hops k1 k2)
  else pushHops k1 + (if siteClass (slotOf k1) = siteClass (slotOf k2) then 40 else 52) + pushHops k2

/-- The channel of a number reserved from a cell (R240, R395). -/
def chanOf (s : State) (key ch : Nat) : Option Chan := (cellAt s key).chans.find? fun x => decide (x.ch = ch)

/-- The cell that a channel ends at. -/
def chanDest (s : State) (key : Nat) (ch : Chan) : Option Nat :=
  match (regOf s key).dies[ch.ldie]? with
  | some d => some (keyOn d ch.row ch.col)
  | none => none

/-- Sends an entry over a channel: it is delivered at a TIDE (R52 to R54). -/
def sendChan (s : State) (key dest : Nat) (ch : Chan) (v : BitVec 2048) (mark : Bool) (t : Nat) : State :=
  let lat := pushLat key dest (decide ((cellAt s key).ldie = ch.ldie))
  let x := cellAt s dest
  let s := { s with nextId := s.nextId + 1 }
  setCell s dest { x with inc := x.inc ++ [{ due := t + lat, q := ch.q, data := v, mark := mark, ord := s.nextId - 1 }] }

/-- The words of PUSH: timed, W only (R227). -/
def lgPush : Legal := { spaces := [.lw], elastic := false, wOnly := true }

/-- R240. PUSH of a queue entry. -/
def execPush (q : BitVec 4) (ch : BitVec 8) (k : Toks) (s : State) : Out :=
  word lgPush []
    (fun c s =>
      let n := q.toNat
      match chanOf s c.key ch.toNat with
      | none => illegal
      | some x =>
        match chanDest s c.key x with
        | none => illegal
        | some dest =>
          if qBits x.q ≠ qBits n then illegal
          else (takeEntry s c n false).then c fun (e, t) =>
            withToks t c k fun u => .ok (sendChan u c.key dest x e.data e.mark c.t)) s

/-- R240. PUSH of a register. -/
def execPushR (a : BitVec 6) (ch : BitVec 8) (k : Toks) (s : State) : Out :=
  word lgPush [a]
    (fun c s =>
      match chanOf s c.key ch.toNat with
      | none => illegal
      | some x =>
        match chanDest s c.key x with
        | none => illegal
        | some dest =>
          if qBits x.q ≠ 64 then illegal
          else withToks s c k fun t => .ok (sendChan t c.key dest x ((readA s c.key a.toNat).setWidth 2048) false c.t)) s

/-- R241. MOVQ. DESIGN CHOICE, log 85: a marker moves with its bit; log 76: a timed one lands at issue + 1, among the entries of an
earlier RDQ of the stream that is still filling the queue. -/
def execMovq (qd qs : BitVec 4) (k : Toks) (s : State) : Out :=
  word lgLW []
    (gated k (fun _ _ => false) fun c s =>
      let n := qs.toNat
      let m := qd.toNat
      let want := if c.timed then QKind.sched else QKind.mem
      if qBits n ≠ qBits m ∨ !producer s c m ∨ (qFeed s c.key m).kind ≠ want then illegal
      else (takeEntry s c n false).then c fun (e, t) => (canPush s c m).then c fun _ =>
        withToks t c k fun u => .ok (landQ u c m e 1)) s

-- Barriers and queue branches (R242 to R244) -------------------------------------------------------------------------------------

/-- A word whose tokens were consumed first keeps their consumption when it faults (R242). -/
def Res.kept (t : State) (r : Res) : Res :=
  match r with
  | .fault f => .okFault t f
  | x => x

/-- R242. ARRV. -/
def execArrv (a b : BitVec 6) (k : Toks) (s : State) : Out :=
  word lgLW [a, b]
    (fun c s => withToks s c k fun t => (arriveBody 0 false (readA s c.key a.toNat) (readA s c.key b.toNat) c t).kept t) s

/-- R243. BWAIT. -/
def execBwait (a b : BitVec 6) (k : Toks) (s : State) : Out :=
  word lgLW [a, b]
    (gated k (fun _ _ => false) fun c s =>
      let x := readA s c.key a.toNat
      let p := bits (readA s c.key b.toNat) 0 0
      if c.timed ∧ k.kd ≠ 0 then illegal
      else match barAddr s c.key x with
        | none => .fault { code := cAddr, taddr := x }
        | some (o, off) =>
          if spadBad s o off 8 then .fault { code := cMemErr, taddr := x }
          else withToks s c k fun t =>
            watched s c false x (accessAddrs s 0 x 8)
              (if c.timed then
                 .ok (addLatch t c.key { due := c.t + hops c.key o, tgt := .bwait o off, val := BitVec.ofNat 2048 p,
                                         seq := c.seq, pc := c.pc })
               else .ok (onStream t c fun st => { st with bw := some (o, off, p, k.kd.toNat) }))) s

/-- R244. BRQ. -/
def execBrq (q : BitVec 4) (cnd : BitVec 3) (off : BitVec 32) (s : State) : Out :=
  word { spaces := [.lw], timed := false } []
    (fun c s =>
      let n := q.toNat
      let go (t : State) : Res := jumpTo t c (target c (off.signExtend 64))
      if 4 ≤ cnd.toNat ∨ !consumer s c n then illegal
      else if busyRead s c n then .wait
      else match cnd.toNat, qEnts s c.key n with
        | 0, [] => .wait
        | 0, e :: es => if e.mark then go (setQ s c.key n es) else .ok s
        | 1, [] => .wait
        | 1, e :: _ => if e.mark then .ok s else go s
        | 2, l => if l.isEmpty then go s else .ok s
        | _, l => if l.isEmpty then .ok s else go s) s

end Sys2Proof.Machine
end

