-- ==== Sys2Proof/Machine/NumFun.lean ====
section
/-! DEFINITION. The special functions, correctly rounded (R143, R284 to R287): exact values are carried in fixed point
with 400 fraction bits, far beyond what a result of 24 significant bits can need (log 8). -/

namespace Sys2Proof.Machine

/-- Fraction bits of the fixed point. -/
def fxBits : Nat := 400

/-- 1 in the fixed point. -/
def fxOne : Nat := 2 ^ fxBits

/-- Σ z^(2k+1) / (2k+1) from the k-th term on: p is z^(2k+1). -/
def atanhSum (z2 : Nat) : Nat → Nat → Nat → Nat
  | 0, _, _ => 0
  | n + 1, p, d => p / d + atanhSum z2 n (p * z2 / fxOne) (d + 2)

/-- ln((1 + z) / (1 − z)) for z below 1/2, as 2 artanh z. -/
def lnOf (z : Nat) : Nat := 2 * atanhSum (z * z / fxOne) 210 z 1

/-- ln 2. -/
def ln2Fx : Nat := lnOf (fxOne / 3)

/-- Σ y^k / k! from the term t = y^k / k! on. -/
def expSum (y : Nat) : Nat → Nat → Nat → Nat
  | 0, _, _ => 0
  | n + 1, t, k => t + expSum y n (t * y / fxOne / k) (k + 1)

/-- 2^f for a fraction f. -/
def exp2Fx (f : Nat) : Nat := expSum (f * ln2Fx / fxOne) 110 fxOne 1

/-- arctan(1/n) by its alternating series. -/
def atanInv (n : Nat) : Nat → Nat → Nat → Int
  | 0, _, _ => 0
  | k + 1, p, d => (p / d : Nat) - atanInv n k (p / (n * n)) (d + 2)

/-- π, by Machin's formula. -/
def piFx : Nat := (16 * atanInv 5 100 (fxOne / 5) 1 - 4 * atanInv 239 40 (fxOne / 239) 1).toNat

/-- The alternating sine series from the term t = u^k / k! on. -/
def sinSum (u2 : Nat) : Nat → Nat → Nat → Int
  | 0, _, _ => 0
  | n + 1, t, k => (t : Int) - sinSum u2 n (t * u2 / fxOne / ((k + 1) * (k + 2))) (k + 2)

/-- sin(π t) for t in [0, 1/2]. -/
def sinPiFx (t : Nat) : Nat := let u := t * piFx / fxOne
                               (sinSum (u * u / fxOne) 60 u 1).toNat

/-- 2^x (R143, Table 4). -/
def FNum.exp2 : FNum → FNum
  | .nan => .nan
  | .inf s => if s then .fin false 0 0 else .inf false
  | .fin s m e =>
    if m = 0 then .fin false 1 0
    else if 12 < ilog m e then (if s then .fin false 1 (-5000) else .fin false 1 5000)
    else if 0 ≤ e then
      let i : Int := (m * 2 ^ e.toNat : Nat)
      .fin false 1 (if s then -i else i)
    else
      let x := scaled s m e (-(fxBits : Int))
      let i := x / (fxOne : Int)
      let f := (x % (fxOne : Int)).toNat
      if f = 0 then .fin false 1 i else inexact false (exp2Fx f) (i - fxBits) false

/-- log2 x (R143, Table 4). -/
def FNum.log2 : FNum → FNum
  | .nan => .nan
  | .inf s => if s then .nan else .inf false
  | .fin s m e =>
    if m = 0 then .inf true
    else if s then .nan
    else
      let l := Nat.log2 m
      let i := e + l
      let y := m * 2 ^ (fxBits - l)
      if y = fxOne then .ofInt i
      else
        let v : Int := i * (fxOne : Int) + (lnOf ((y - fxOne) * fxOne / (y + fxOne)) * fxOne / ln2Fx : Nat)
        inexact (decide (v < 0)) v.natAbs (-(fxBits : Int)) false

/-- sin(π x) of a multiple of 2^-400 reduced to [0, 2); zero where it is exactly 0, ±1 where exact. -/
def sinPiOf (x : Int) : FNum :=
  let r := (x % (2 * fxOne : Nat)).toNat
  let neg := decide (fxOne ≤ r)
  let t := r % fxOne
  let t := if fxOne / 2 < t then fxOne - t else t
  if t = 0 then .fin false 0 0
  else if t = fxOne / 2 then .fin neg 1 0
  else inexact neg (sinPiFx t) (-(fxBits : Int)) false

/-- sin(π x) (R285). -/
def FNum.sinPi : FNum → FNum
  | .fin s m e =>
    if m = 0 then .fin s 0 0
    else if 1 ≤ e then .fin false 0 0
    else sinPiOf (scaled s m e (-(fxBits : Int)))
  | _ => .nan

/-- cos(π x) (R285). -/
def FNum.cosPi : FNum → FNum
  | .fin s m e =>
    if 1 ≤ e ∨ m = 0 then .fin false 1 0
    else sinPiOf (scaled s m e (-(fxBits : Int)) + (fxOne / 2 : Nat))
  | _ => .nan

/-- exp2 as an FP32 step with RNE. -/
def f32exp2 (a : Nat) : Nat := fp32.round 0 (fp32.dec a).exp2

/-- rcp as an FP32 step with RNE. -/
def f32rcp (a : Nat) : Nat := fp32.round 0 (fp32.dec a).rcp

/-- The sign of an FP32 pattern turned. -/
def f32neg (a : Nat) : Nat := if a < 2 ^ 31 then a + 2 ^ 31 else a - 2 ^ 31

/-- R286: the logistic function's fixed sequence on an FP32 pattern. -/
def f32sigm (x : Nat) : Nat :=
  let t := f32mul x 0x3FB8AA3B
  let u := f32exp2 (f32neg t)
  let s := f32add 0x3F800000 u
  f32rcp s

/-- R287: the hyperbolic tangent's fixed sequence on an FP32 pattern. -/
def f32tanh (x : Nat) : Nat :=
  let v := fp32.dec x
  let ab := x % 2 ^ 31
  let sg := x / 2 ^ 31 * 2 ^ 31
  if v.isNan then fp32.nan
  else if ab < 0x39800000 then x
  else if 0x41200000 ≤ ab then sg + 0x3F800000
  else
    let t := f32mul ab 0x4038AA3B
    let u := f32exp2 t
    let s := f32add 0x3F800000 u
    let q := f32rcp s
    let m := f32sub 0x3F800000 (f32mul 0x40000000 q)
    if sg = 0 then m else f32neg m

end Sys2Proof.Machine
end

