-- ==== Sys2Proof/Machine/Vector.lean ====
section
/-! DEFINITION. Lane arithmetic of the C spaces and the words of the VN space (R269 to R303). -/

namespace Sys2Proof.Machine

/-- The format of a float or FP8 lane type (R269). -/
def laneFmt (t : BitVec 3) : FFmt :=
  match t.toNat with
  | 0 => fp32
  | 1 => bf16
  | 2 => e4m3
  | _ => e5m2

/-- Argument i of a lane function. -/
def arg (l : List Nat) (i : Nat) : Nat := l.getD i 0

/-- A lane as a signed or unsigned integer. -/
def laneInt (w : Nat) (u : Bool) (x : Nat) : Int := if u then (x % 2 ^ w : Nat) else sintNat w x

/-- The range of an integer lane (R131). -/
def laneLo (w : Nat) (u : Bool) : Int := if u then 0 else -(2 ^ (w - 1) : Nat)
def laneHi (w : Nat) (u : Bool) : Int := if u then (2 ^ w : Nat) - 1 else (2 ^ (w - 1) : Nat) - 1

-- Lane functions (R277 to R283) -----------------------------------------------------------------------------------------

def lfAdd (f : FFmt) (rm : Nat) (a b : Nat) : Nat := f.round rm (FNum.add rm (f.dec a) (f.dec b))
def lfSub (f : FFmt) (rm : Nat) (a b : Nat) : Nat := f.round rm (FNum.add rm (f.dec a) (f.dec b).neg)
def lfMul (f : FFmt) (rm : Nat) (a b : Nat) : Nat := f.round rm (FNum.mul (f.dec a) (f.dec b))
def lfFma (f : FFmt) (rm : Nat) (a b c : Nat) : Nat := f.round rm (FNum.add rm (FNum.mul (f.dec a) (f.dec b)) (f.dec c))
def lfFms (f : FFmt) (rm : Nat) (a b c : Nat) : Nat := f.round rm (FNum.add rm (FNum.mul (f.dec a) (f.dec b)) (f.dec c).neg)
def lfDiv (f : FFmt) (rm : Nat) (a b : Nat) : Nat := f.round rm (FNum.div (f.dec a) (f.dec b))
def lfOne (g : FNum → FNum) (f : FFmt) (rm : Nat) (a : Nat) : Nat := f.round rm (g (f.dec a))

/-- BF16 lanes of a function with FP32 steps (R286, R287). -/
def viaF32 (f : FFmt) (g : Nat → Nat) (a : Nat) : Nat := cvtFF fp32 f 0 false (g (cvtFF f fp32 0 false a))

/-- R278: the comparison of two lanes. Kinds: 0 EQ, 1 NE, 2 LT, 3 LE. -/
def laneCmp (t : BitVec 3) (u : Bool) (kind a b : Nat) : Bool :=
  if t.toNat < 4 then
    let x := (laneFmt t).dec a
    let y := (laneFmt t).dec b
    match kind with
    | 0 => x.eqv y
    | 1 => !x.eqv y
    | 2 => x.lt y
    | _ => x.lt y || x.eqv y
  else
    let x := laneInt (laneW t) u a
    let y := laneInt (laneW t) u b
    match kind with
    | 0 => decide (x = y)
    | 1 => decide (x ≠ y)
    | 2 => decide (x < y)
    | _ => decide (x ≤ y)

/-- R281: shifts by the other operand; kinds 0 VSHL, 1 VSHR, 2 VSRA. -/
def laneShift (w kind a s : Nat) : Nat :=
  match kind with
  | 0 => if w ≤ s then 0 else (a * 2 ^ s) % 2 ^ w
  | 1 => if w ≤ s then 0 else a / 2 ^ s
  | _ => ofInt w (sintNat w a / (2 ^ Nat.min s w : Nat))

/-- R282: an exact result reduced to the lane. -/
def laneReduce (w : Nat) (sat u : Bool) (i : Int) : Nat :=
  ofInt w (if sat then satI (laneLo w u) (laneHi w u) i else i)

/-- R283: the value of one lane converted from type ts to td. DESIGN CHOICE, log 88: SAT has no effect on an integer that becomes
E5M2, which R142 rounds. -/
def cvtLane (td ts : BitVec 3) (rm : Nat) (sat u : Bool) (x : Nat) : Nat :=
  let wd := laneW td
  let ws := laneW ts
  if td.toNat < 4 then
    if ts.toNat < 4 then cvtFF (laneFmt ts) (laneFmt td) rm sat x
    else (laneFmt td).round rm (.ofInt (laneInt ws u x))
  else if ts.toNat < 4 then ofInt wd (FNum.toInt rm (laneLo wd u) (laneHi wd u) ((laneFmt ts).dec x))
  else laneReduce wd sat u (laneInt ws u x)

-- Words in any C space -------------------------------------------------------------------------------------------------------

/-- The governing mask of a lane word; only VN has masks (R270). -/
def govMask (sp : Space) (s : State) (key : Nat) (f : VecF) : BitVec 256 :=
  if sp = .vn then (cellAt s key).readM f.msk.toNat else BitVec.allOnes 256

/-- R273 with lanes that receive nothing (R283). -/
def landLanesO (sp : Space) (f : VecF) (w : Nat) (c : Ctx) (s : State) (res : List (Option Nat)) (latency : Nat) : State :=
  let mk := govMask sp s c.key f
  let all := f.zm == 1 || (fieldQueue sp f.d).isSome
  let ls := res.zipIdx.map fun p => if mk.getLsbD p.2 then p.1.getD 0 else 0
  let on := res.zipIdx.map fun p => all || (mk.getLsbD p.2 && p.1.isSome)
  landVec sp s c f.d (BitVec.ofNat 2048 (packL w ls)) (byteMask w on) latency

/-- R283. VCVT and GVCVT. -/
def cvtWord (sp : Space) (f : VecF) (latency : Nat) (s : State) : Out :=
  let ts : BitVec 3 := f.sub.extractLsb' 0 3
  let ws := laneW ts
  let wd := laneW f.t
  let ns := vecBits sp / ws
  let nd := vecBits sp / wd
  let part := f.part.toNat
  lanesWord sp f 1 ws
    (fun c s vs =>
      if Nat.max ns nd / Nat.min ns nd ≤ part then illegal
      else
        let src := unpackL ws ns (vs.getD 0 0).toNat
        let cv (x : Nat) : Nat := cvtLane f.t ts f.rm.toNat (f.sat == 1) (f.u == 1) x
        let res : List (Option Nat) := (List.range nd).map fun j =>
          if ns ≤ nd then (if part * ns ≤ j ∧ j < part * ns + ns then some (cv (src.getD (j - part * ns) 0)) else none)
          else some (cv (src.getD (part * nd + j) 0))
        .ok (landLanesO sp f wd c s res latency)) s

/-- R291, R324. VMOV and GMOV: copy, extract and insert. -/
def movWord (sp : Space) (f : VecF) (latency : Nat) (s : State) : Out :=
  let w := laneW f.t
  let n := vecBits sp / w
  let q64 (x : BitVec 6) : Bool := match fieldQueue sp x with
    | some q => decide (q < 8)
    | none => false
  if q64 f.d then
    lanesOver (indexSrcs f) sp f 1 w
      (fun c s vs =>
        let k := (readA s c.key (f.b.toNat - 48)).toNat % n
        let v := (unpackL w n (vs.getD 0 0).toNat).getD k 0
        .ok (landVec sp s c f.d (BitVec.ofNat 2048 v) (fullMask sp) latency)) s
  else if q64 f.a then
    lanesOver (indexSrcs f) sp f 1 w
      (fun c s vs =>
        let k := (readA s c.key (f.b.toNat - 48)).toNat % n
        let res : List (Option Nat) := (List.range n).map fun j => if j = k then some ((vs.getD 0 0).toNat % 2 ^ w) else none
        .ok (landLanesO sp f w c s res latency)) s
  else laneWord sp f 1 latency (fun l => arg l 0) s

/-- The effective address of VLD, VST, GVLD and GVST (R293, R325). -/
def vecAddr (s : State) (key : Nat) (base : Word) (imm : BitVec 32) (n align : Nat) : Option (Word × Nat) :=
  let ea := offAddr base (imm.signExtend 64).toInt 8
  if tidOf base ≠ 0xFFFF ∨ spOff ea % align ≠ 0 then none
  else match spOwner s key ea n with
    | some o => some (ea, o)
    | none => none

/-- VLD and GVLD with the base given (R293, R325). -/
def vldBody (sp : Space) (d : BitVec 6) (imm : BitVec 32) (base : Word) (c : Ctx) (s : State) : Res :=
  let n := vecBits sp / 8
  match vecAddr s c.key base imm n (if sp = .vn then 32 else 64) with
  | none => accFault c cAddr (offAddr base (imm.signExtend 64).toInt 8) base 0 0 4
  | some (ea, o) =>
    let lat := if o = c.key then 4 else 10 + hops c.key o
    (dstReady sp s c d).then c fun _ =>
      if spadBad s o (spOff ea) n then accFault c cMemErr ea base 0 0 lat
      else
        let v := BitVec.ofNat 2048 (ofBytes (spadBytes s c.key o (spOff ea) n))
        watched s c false ea (accessAddrs s 0 ea n) (.ok (landVec sp s c d v (fullMask sp) lat))

/-- VST and GVST with the base and the data given (R293, R325). -/
def vstBody (sp : Space) (imm : BitVec 32) (base : Word) (v : BitVec 2048) (c : Ctx) (s : State) : Res :=
  let n := vecBits sp / 8
  match vecAddr s c.key base imm n (if sp = .vn then 32 else 64) with
  | none => accFault c cAddr (offAddr base (imm.signExtend 64).toInt 8) base 0 v 1
  | some (ea, o) =>
    watched s c true ea (accessAddrs s 0 ea n)
      (match storeAt (spadHeal s o (spOff ea) n) c o (spOff ea) (toBytes n v.toNat) 1 with
        | some t => .ok t
        | none => .fault { code := cPhaseOv, taddr := ea })

/-- VLD and GVLD. -/
def vldWord (sp : Space) (d a : BitVec 6) (imm : BitVec 32) (s : State) : Out :=
  word { spaces := [sp] } [BitVec.ofNat 6 (a.toNat - 48)] (fun c s => vldBody sp d imm (readA s c.key (a.toNat - 48)) c s) s

/-- VST and GVST. -/
def vstWord (sp : Space) (d a : BitVec 6) (imm : BitVec 32) (s : State) : Out :=
  word { spaces := [sp] } (BitVec.ofNat 6 (a.toNat - 48) :: aFields sp [(d, false)])
    (fun c s => (readSrc sp 8 s c d false).then c fun (v, t) => vstBody sp imm (readA s c.key (a.toNat - 48)) v c t) s

-- Words of the VN space ------------------------------------------------------------------------------------------------------

/-- A float lanewise word of two operands. -/
def vf2 (f : VecF) (latency : Nat) (g : FFmt → Nat → Nat → Nat → Nat) (s : State) : Out :=
  laneWord .vn f 2 latency (fun l => g (laneFmt f.t) f.rm.toNat (arg l 0) (arg l 1)) s

/-- A float lanewise word of one operand. -/
def vf1 (f : VecF) (latency : Nat) (g : FFmt → Nat → Nat → Nat) (s : State) : Out :=
  laneWord .vn f 1 latency (fun l => g (laneFmt f.t) f.rm.toNat (arg l 0)) s

/-- R277. VADD: a + b. -/
def execVadd (f : VecF) (s : State) : Out := vf2 f 4 lfAdd s

/-- R277. VSUB: a − b. -/
def execVsub (f : VecF) (s : State) : Out := vf2 f 4 lfSub s

/-- R277. VMUL: a × b. -/
def execVmul (f : VecF) (s : State) : Out := vf2 f 4 lfMul s

/-- R277. VFMA: a × b + c, rounded once. -/
def execVfma (f : VecF) (s : State) : Out :=
  laneWord .vn f 3 4 (fun l => lfFma (laneFmt f.t) f.rm.toNat (arg l 0) (arg l 1) (arg l 2)) s

/-- R277. VFMS: a × b − c, rounded once. -/
def execVfms (f : VecF) (s : State) : Out :=
  laneWord .vn f 3 4 (fun l => lfFms (laneFmt f.t) f.rm.toNat (arg l 0) (arg l 1) (arg l 2)) s

/-- R277. VDIV: a / b. -/
def execVdiv (f : VecF) (s : State) : Out := vf2 f 12 lfDiv s

/-- R277. VSQRT. -/
def execVsqrt (f : VecF) (s : State) : Out := vf1 f 12 (lfOne FNum.sqrt) s

/-- R277. VMIN. -/
def execVmin (f : VecF) (s : State) : Out := vf2 f 4 (fun g _ a b => g.round 0 (FNum.min2 (g.dec a) (g.dec b))) s

/-- R277. VMAX. -/
def execVmax (f : VecF) (s : State) : Out := vf2 f 4 (fun g _ a b => g.round 0 (FNum.max2 (g.dec a) (g.dec b))) s

/-- R277. VABS. -/
def execVabs (f : VecF) (s : State) : Out := vf1 f 2 (fun g _ a => g.round 0 (g.dec a).abs) s

/-- R277. VNEG. -/
def execVneg (f : VecF) (s : State) : Out := vf1 f 2 (fun g _ a => g.round 0 (g.dec a).neg) s

/-- R278: a comparison writes a mask. -/
def vcmpWord (kind : Nat) (f : VecF) (s : State) : Out :=
  let w := laneW f.t
  let n := 2048 / w
  word { spaces := [.vn] } (aFields .vn (vecSrcs f 2))
    (fun c s =>
      (readSrcs .vn w c s (vecSrcs f 2)).then c fun (vs, s1) =>
        let mk := govMask .vn s1 c.key f
        let a := unpackL w n (vs.getD 0 0).toNat
        let b := unpackL w n (vs.getD 1 0).toNat
        let bs := ((a.zip b).zipIdx.map fun p => mk.getLsbD p.2 && laneCmp f.t (f.u == 1) kind p.1.1 p.1.2)
        .ok (landM s1 c f.d.toNat (BitVec.ofNat 256 (packL 1 (bs.map fun x => if x then 1 else 0))) 2)) s

/-- R278. VCMPEQ. -/
def execVcmpeq (f : VecF) (s : State) : Out := vcmpWord 0 f s

/-- R278. VCMPNE. -/
def execVcmpne (f : VecF) (s : State) : Out := vcmpWord 1 f s

/-- R278. VCMPLT. -/
def execVcmplt (f : VecF) (s : State) : Out := vcmpWord 2 f s

/-- R278. VCMPLE. -/
def execVcmple (f : VecF) (s : State) : Out := vcmpWord 3 f s

/-- R279. VSEL. -/
def execVsel (f : VecF) (s : State) : Out :=
  let w := laneW f.t
  let n := 2048 / w
  lanesWord .vn f 2 w
    (fun c s vs =>
      let mk := govMask .vn s c.key f
      let a := unpackL w n (vs.getD 0 0).toNat
      let b := unpackL w n (vs.getD 1 0).toNat
      let res := (a.zip b).zipIdx.map fun p => if mk.getLsbD p.2 then p.1.1 else p.1.2
      .ok (landVec .vn s c f.d (BitVec.ofNat 2048 (packL w res)) (fullMask .vn) 2)) s

/-- R280. VAND. -/
def execVand (f : VecF) (s : State) : Out := laneWord .vn f 2 2 (fun l => arg l 0 &&& arg l 1) s

/-- R280. VOR. -/
def execVor (f : VecF) (s : State) : Out := laneWord .vn f 2 2 (fun l => arg l 0 ||| arg l 1) s

/-- R280. VXOR. -/
def execVxor (f : VecF) (s : State) : Out := laneWord .vn f 2 2 (fun l => arg l 0 ^^^ arg l 1) s

/-- R280. VNOT. -/
def execVnot (f : VecF) (s : State) : Out := laneWord .vn f 1 2 (fun l => 2 ^ laneW f.t - 1 - arg l 0) s

/-- R281. VSHL. -/
def execVshl (f : VecF) (s : State) : Out := laneWord .vn f 2 2 (fun l => laneShift (laneW f.t) 0 (arg l 0) (arg l 1)) s

/-- R281. VSHR. -/
def execVshr (f : VecF) (s : State) : Out := laneWord .vn f 2 2 (fun l => laneShift (laneW f.t) 1 (arg l 0) (arg l 1)) s

/-- R281. VSRA. -/
def execVsra (f : VecF) (s : State) : Out := laneWord .vn f 2 2 (fun l => laneShift (laneW f.t) 2 (arg l 0) (arg l 1)) s

/-- R282: integer arithmetic of two lanes. -/
def vi2 (f : VecF) (latency : Nat) (g : Int → Int → Int) (s : State) : Out :=
  let w := laneW f.t
  let u := f.u == 1
  laneWord .vn f 2 latency (fun l => laneReduce w (f.sat == 1) u (g (laneInt w u (arg l 0)) (laneInt w u (arg l 1)))) s

/-- R282. VIADD. -/
def execViadd (f : VecF) (s : State) : Out := vi2 f 2 (fun a b => a + b) s

/-- R282. VISUB. -/
def execVisub (f : VecF) (s : State) : Out := vi2 f 2 (fun a b => a - b) s

/-- R282. VIMUL. -/
def execVimul (f : VecF) (s : State) : Out := vi2 f 3 (fun a b => a * b) s

/-- R282. VIMIN. -/
def execVimin (f : VecF) (s : State) : Out := vi2 f 2 (fun a b => min a b) s

/-- R282. VIMAX. -/
def execVimax (f : VecF) (s : State) : Out := vi2 f 2 (fun a b => max a b) s

/-- R283. VCVT. -/
def execVcvt (f : VecF) (s : State) : Out := cvtWord .vn f 3 s

/-- R284. VRCP. -/
def execVrcp (f : VecF) (s : State) : Out := vf1 f 8 (lfOne FNum.rcp) s

/-- R284. VRSQRT. -/
def execVrsqrt (f : VecF) (s : State) : Out := vf1 f 8 (lfOne FNum.rsqrt) s

/-- R284. VEXP2. -/
def execVexp2 (f : VecF) (s : State) : Out := vf1 f 8 (lfOne FNum.exp2) s

/-- R284. VLOG2. -/
def execVlog2 (f : VecF) (s : State) : Out := vf1 f 8 (lfOne FNum.log2) s

/-- R287. VTANH. -/
def execVtanh (f : VecF) (s : State) : Out := vf1 f 8 (fun g _ a => viaF32 g f32tanh a) s

/-- R286. VSIGM. -/
def execVsigm (f : VecF) (s : State) : Out := vf1 f 8 (fun g _ a => viaF32 g f32sigm a) s

/-- R285. VSIN. -/
def execVsin (f : VecF) (s : State) : Out := vf1 f 8 (lfOne FNum.sinPi) s

/-- R285. VCOS. -/
def execVcos (f : VecF) (s : State) : Out := vf1 f 8 (lfOne FNum.cosPi) s

/-- The lanes of A that the mask admits. -/
def admitted (mk : BitVec 256) (ls : List Nat) : List (Option Nat) :=
  ls.zipIdx.map fun p => if mk.getLsbD p.2 then some p.1 else none

/-- R144: the FP32 sum of lanes in the fixed tree, each addition rounded in a mode; lanes of BF16 are widened. -/
def treeSum (t : BitVec 3) (rm : Nat) (ls : List (Option Nat)) : Nat :=
  let xs := ls.map fun o => o.map fun x => cvtFF (laneFmt t) fp32 0 false x
  (treeRed (fun a b => lfAdd fp32 rm a b) 8 xs).getD 0

/-- R288: a reduction writes bits 31 to 0 of its destination. -/
def redWord (g : List (Option Nat) → Nat) (f : VecF) (s : State) : Out :=
  let w := laneW f.t
  lanesWord .vn f 1 w
    (fun c s vs =>
      let r := g (admitted (govMask .vn s c.key f) (unpackL w (2048 / w) (vs.getD 0 0).toNat))
      .ok (landVec .vn s c f.d (BitVec.ofNat 2048 (r % 2 ^ 32)) (fullMask .vn) 7)) s

/-- R288, R144: the extreme lane of a type. -/
def redExt (mx : Bool) (f : VecF) (ls : List (Option Nat)) : Nat :=
  let w := laneW f.t
  if isFloatT f.t then
    let g := laneFmt f.t
    match treeRed (fun a b => if mx then FNum.max2 a b else FNum.min2 a b) 8 (ls.map fun o => o.map g.dec) with
    | some x => g.round 0 x
    | none => g.infBits mx
  else
    let u := f.u == 1
    let r := treeRed (fun (a b : Int) => if mx then max a b else min a b) 8 (ls.map fun o => o.map (laneInt w u))
    ofInt 32 (r.getD (if mx then laneLo w u else laneHi w u))

/-- R288. VREDSUM. -/
def execVredsum (f : VecF) (s : State) : Out :=
  redWord (fun ls =>
    if isFloatT f.t then treeSum f.t f.rm.toNat ls
    else ofInt 32 ((treeRed (fun (a b : Int) => a + b) 8 (ls.map fun o => o.map (laneInt (laneW f.t) (f.u == 1)))).getD 0)) f s

/-- R288. VREDMAX. -/
def execVredmax (f : VecF) (s : State) : Out := redWord (redExt true f) f s

/-- R288. VREDMIN. -/
def execVredmin (f : VecF) (s : State) : Out := redWord (redExt false f) f s

/-- R289. VPERM. -/
def execVperm (f : VecF) (s : State) : Out :=
  let w := laneW f.t
  let n := 2048 / w
  lanesWord .vn f 2 w
    (fun c s vs =>
      let a := unpackL w n (vs.getD 0 0).toNat
      .ok (landLanes .vn f w c s ((unpackL w n (vs.getD 1 0).toNat).map fun i => a.getD i 0) 3)) s

/-- R290. VBCAST. -/
def execVbcast (f : VecF) (s : State) : Out :=
  let w := laneW f.t
  let n := 2048 / w
  lanesOver (indexSrcs f) .vn f 1 w
    (fun c s vs =>
      let k := (readA s c.key (f.b.toNat - 48)).toNat % n
      let x := (unpackL w n (vs.getD 0 0).toNat).getD k 0
      .ok (landLanes .vn f w c s (List.replicate n x) 2)) s

/-- R290. VROT. -/
def execVrot (f : VecF) (s : State) : Out :=
  let w := laneW f.t
  let n := 2048 / w
  lanesOver (indexSrcs f) .vn f 1 w
    (fun c s vs =>
      let k := (readA s c.key (f.b.toNat - 48)).toNat % n
      let a := unpackL w n (vs.getD 0 0).toNat
      .ok (landLanes .vn f w c s
        ((List.range n).map fun j => if f.sub.toNat = 1 then a.getD (j + k) 0 else a.getD ((j + k) % n) 0) 3)) s

/-- R291. VMOV. -/
def execVmov (f : VecF) (s : State) : Out := movWord .vn f 2 s

/-- R293. VLD. -/
def execVld (d a : BitVec 6) (imm : BitVec 32) (s : State) : Out := vldWord .vn d a imm s

/-- R293. VST. -/
def execVst (d a : BitVec 6) (imm : BitVec 32) (s : State) : Out := vstWord .vn d a imm s

/-- R292. VIDX. -/
def execVidx (f : VecF) (s : State) : Out :=
  let w := laneW f.t
  let n := 2048 / w
  word { spaces := [.vn] } [BitVec.ofNat 6 (f.a.toNat - 48)]
    (fun c s =>
      (dstReady .vn s c f.d).then c fun _ =>
        let x := (readA s c.key (f.a.toNat - 48)).toNat
        .ok (landLanes .vn f w c s ((List.range n).map fun j => (j + x) % 2 ^ w) 2)) s

/-- R292. VLI. -/
def execVli (d : BitVec 6) (t : BitVec 3) (imm : BitVec 32) (s : State) : Out :=
  let w := laneW t
  word { spaces := [.vn] } []
    (fun c s =>
      (dstReady .vn s c d).then c fun _ =>
        .ok (landVec .vn s c d (BitVec.ofNat 2048 (packL w (List.replicate (2048 / w) imm.toNat))) (fullMask .vn) 2)) s

/-- R294. DOT16: outputs in lanes 0 to 15 of the result type; every bit above is 0. -/
def execDot16 (f : VecF) (s : State) : Out :=
  let fa := if f.t.getLsbD 0 then e5m2 else e4m3
  let fb := if f.t.getLsbD 1 then e5m2 else e4m3
  let fr := if f.t.getLsbD 2 then bf16 else fp32
  let w := if f.t.getLsbD 2 then 16 else 32
  lanesWord .vn f 2 8
    (fun c s vs =>
      let a := (unpackL 8 256 (vs.getD 0 0).toNat).map fa.dec
      let b := (unpackL 8 256 (vs.getD 1 0).toNat).map fb.dec
      let ps := a.zip b
      let mk := govMask .vn s c.key f
      let all := f.zm == 1 || (fieldQueue .vn f.d).isSome
      let outs := (List.range 16).map fun g => dot16 fr f.rm.toNat ((ps.drop (16 * g)).take 16)
      let ls := outs.zipIdx.map fun p => if mk.getLsbD p.2 then p.1 else 0
      let on := (outs.zipIdx.map fun p => all || mk.getLsbD p.2) ++ List.replicate (2048 / w - 16) true
      .ok (landVec .vn s c f.d (BitVec.ofNat 2048 (packL w ls)) (byteMask w on) 6)) s

/-- The target of VQUANT and VDEQ: range, offset D, bits of an element (R151, R295). -/
def quantTarget (sub : BitVec 4) : Int × Int × Int × Nat :=
  match sub.toNat with
  | 0 => (-4, 3, 1, 4)
  | 1 => (-8, 7, 2, 4)
  | _ => (-128, 127, 6, 8)

/-- Blocks of 32. -/
def blocks32 {α : Type} (n : Nat) (l : List α) : List (List α) := (List.range n).map fun b => (l.drop (32 * b)).take 32

/-- R295. VQUANT. -/
def execVquant (f : VecF) (s : State) : Out :=
  let w := laneW f.t
  let (lo, hi, d, eb) := quantTarget f.sub
  lanesWord .vn f 1 w
    (fun c s vs =>
      let xs := (unpackL w (2048 / w) (vs.getD 0 0).toNat).map (laneFmt f.t).dec
      let rs := (blocks32 (2048 / w / 32) xs).map fun b => vquant b lo hi d
      let q := packL eb ((rs.flatMap (·.1)).map (ofInt eb))
      let codes := packL 8 (rs.map (·.2))
      .ok (landVec .vn s c f.d (BitVec.ofNat 2048 (q + codes * 2 ^ 1024)) (fullMask .vn) 10)) s

/-- R296. VDEQ. DESIGN CHOICE, log 96: a source a0 to a15 is broadcast over lanes of 8 bits; the manual gives A no lane type. -/
def execVdeq (f : VecF) (s : State) : Out :=
  let w := laneW f.t
  let n := 2048 / w
  let (_, _, _, eb) := quantTarget f.sub
  lanesWord .vn f 1 8
    (fun c s vs =>
      let v := (vs.getD 0 0).toNat
      let q := unpackL eb n v
      let codes := unpackL 8 (n / 32) (v / 2 ^ 1024)
      if f.sub = 0 ∧ q.any (fun x => decide ((x / 8) % 2 ≠ (x / 4) % 2)) then .fault { code := cFormat }
      else
        let g := laneFmt f.t
        let res := q.zipIdx.map fun p =>
          let code := codes.getD (p.2 / 32) 0
          if code = 0xFF then g.nan
          else
            let i := sintNat eb p.1
            g.round f.rm.toNat (.fin (decide (i < 0)) i.natAbs ((code : Int) - 127))
        .ok (landLanes .vn f w c s res 4)) s

/-- All 64 FP32 lanes hold one value (R297, R298). -/
def splat32 (x : Nat) : BitVec 2048 := BitVec.ofNat 2048 (packL 32 (List.replicate 64 x))

/-- The mean of a tree sum over a count; none admitted gives the canonical NaN (R297, R298). -/
def meanOf (sum cnt : Nat) : Nat := if cnt = 0 then fp32.nan else fp32.round 0 (FNum.div (fp32.dec sum) (.ofInt cnt))

/-- R297. VNMEAN. -/
def execVnmean (f : VecF) (s : State) : Out :=
  let w := laneW f.t
  lanesWord .vn f 1 w
    (fun c s vs =>
      let ls := admitted (govMask .vn s c.key f) (unpackL w (2048 / w) (vs.getD 0 0).toNat)
      let m := meanOf (treeSum f.t 0 ls) (ls.filter Option.isSome).length
      .ok (landVec .vn s c f.d (splat32 m) (fullMask .vn) 9)) s

/-- Lane 0 of a source as FP32, of an a register its low 32 bits (R272, R298, R299). -/
def fp32Lane0 (s : State) (c : Ctx) (f : BitVec 6) (v : BitVec 2048) : Nat :=
  match opd .vn f with
  | .a n => (readA s c.key n).toNat % 2 ^ 32
  | _ => v.toNat % 2 ^ 32

/-- R298. VNVAR. -/
def execVnvar (f : VecF) (s : State) : Out :=
  let w := laneW f.t
  lanesWord .vn f 2 w
    (fun c s vs =>
      let mu := fp32Lane0 s c f.b (vs.getD 1 0)
      let ls := admitted (govMask .vn s c.key f) (unpackL w (2048 / w) (vs.getD 0 0).toNat)
      let sq := ls.map fun o => o.map fun x =>
        let e := f32sub (cvtFF (laneFmt f.t) fp32 0 false x) mu
        f32mul e e
      let m := meanOf (treeSum 0 0 sq) (ls.filter Option.isSome).length
      .ok (landVec .vn s c f.d (splat32 m) (fullMask .vn) 10)) s

/-- R299. VNAPPLY. -/
def execVnapply (f : VecF) (s : State) : Out :=
  let w := laneW f.t
  lanesWord .vn f 3 w
    (fun c s vs =>
      let mu := fp32Lane0 s c f.b (vs.getD 1 0)
      let r := fp32Lane0 s c f.c (vs.getD 2 0)
      let g := laneFmt f.t
      let res := (unpackL w (2048 / w) (vs.getD 0 0).toNat).map fun x =>
        g.round 0 (FNum.mul (fp32.dec (f32sub (cvtFF g fp32 0 false x) mu)) (fp32.dec r))
      .ok (landLanes .vn f w c s res 5)) s

/-- R300. VMSET. -/
def execVmset (f : VecF) (s : State) : Out :=
  let w := laneW f.t
  let n := 2048 / w
  let toMask (l : List Bool) : BitVec 256 := BitVec.ofNat 256 (packL 1 (l.map fun x => if x then 1 else 0))
  word { spaces := [.vn] } (if f.sub.toNat = 2 then [BitVec.ofNat 6 (f.a.toNat - 48)] else aFields .vn (vecSrcs f 1))
    (fun c s =>
      if f.sub.toNat = 2 then
        let x := (readA s c.key (f.a.toNat - 48)).toNat
        .ok (landM s c f.d.toNat (toMask ((List.range n).map fun j => decide (j < x))) 2)
      else
        (readSrcs .vn w c s (vecSrcs f 1)).then c fun (vs, s1) =>
          let ls := unpackL w n (vs.getD 0 0).toNat
          .ok (landM s1 c f.d.toNat
            (toMask (ls.map fun x => if f.sub.toNat = 0 then decide (x ≠ 0) else decide (2 ^ (w - 1) ≤ x))) 2)) s

/-- R301: mask logic. -/
def maskWord (f : VecF) (g : BitVec 256 → BitVec 256 → BitVec 256) (s : State) : Out :=
  word { spaces := [.vn] } []
    (fun c s =>
      let x := cellAt s c.key
      .ok (landM s c f.d.toNat (g (x.readM f.a.toNat) (x.readM f.b.toNat)) 1)) s

/-- R301. VMAND. -/
def execVmand (f : VecF) (s : State) : Out := maskWord f (fun a b => a &&& b) s

/-- R301. VMOR. -/
def execVmor (f : VecF) (s : State) : Out := maskWord f (fun a b => a ||| b) s

/-- R301. VMNOT. -/
def execVmnot (f : VecF) (s : State) : Out := maskWord f (fun a _ => ~~~a) s

/-- R301. VMCNT. -/
def execVmcnt (f : VecF) (s : State) : Out :=
  word { spaces := [.vn] } []
    (fun c s =>
      (dstReady .vn s c f.d).then c fun _ =>
        let m := (cellAt s c.key).readM f.a.toNat
        let n := ((List.range (2048 / laneW f.t)).filter fun j => m.getLsbD j).length
        .ok (landVec .vn s c f.d (BitVec.ofNat 2048 n) (fullMask .vn) 2)) s

end Sys2Proof.Machine
end

