-- ==== Sys2Proof/Machine/Gather.lean ====
section
/-! DEFINITION. Words of the GS space (R304 to R325): the starts of engine commands, and the 512-bit lane words. What a
command does after it has begun is in Engines.lean. -/

namespace Sys2Proof.Machine

/-- Engine commands are legal only in elastic C streams (R304). -/
def lgGs : Legal := { spaces := [.gs], timed := false }

/-- A register field of a GS or ST command: a0 to a15. -/
def aReg (s : State) (key : Nat) (f : BitVec 4) : Word := readA s key f.toNat

/-- The operations of some kinds that a cell has outstanding (R305, R330). -/
def kindCount (s : State) (key : Nat) (p : OpKind → Bool) : Nat :=
  (s.ops.filter fun o => decide (o.2.key = key) && p o.2.kind).length

/-- The limit of a unit's outstanding commands (R305, R330). -/
def cmdFull (n : Nat) (p : OpKind → Bool) (c : Ctx) (s : State) : Bool := decide (n ≤ kindCount s c.key p)

/-- Starts a command of a C stream. -/
def startCmd (s : State) (c : Ctx) (k : Toks) (o : Op) : Res :=
  withToks s c k fun t => .ok (startOp t c { o with kd := k.kd.toNat })

/-- A command without a pattern. -/
def newOp (kind : OpKind) : Op := { kind := kind, key := 0, seq := .s, reg := 0, pc := 0, ord := 0 }

/-- The grammar engine's commands, which run one at a time (R305). -/
def OpKind.isGram : OpKind → Bool
  | .gset | .grule | .grow | .gseg => true
  | _ => false

/-- The access path's commands (R305). -/
def OpKind.isPath : OpKind → Bool
  | .gload | .gscat => true
  | _ => false

/-- The walk port's commands (R305). -/
def OpKind.isWalk : OpKind → Bool
  | .walk | .sample => true
  | _ => false

/-- R304: a destination queue is memory-fed with the C stream as producer. -/
def memDst (s : State) (c : Ctx) (q : Nat) : Bool := producer s c q && decide ((qFeed s c.key q).kind = .mem)

/-- R312: GSET of one selector. -/
def gsetWord (fn : Nat) (a : BitVec 4) (k : Toks) (s : State) : Out :=
  word lgGs [a.setWidth 6]
    (gated k (fun _ _ => false) fun c s => startCmd s c k { newOp .gset with fn := fn, va := aReg s c.key a }) s

/-- R312. GSET FN 0. -/
def execGsetBlock (a : BitVec 4) (k : Toks) (s : State) : Out := gsetWord 0 a k s

/-- R312. GSET FN 1. -/
def execGsetBatch (a : BitVec 4) (k : Toks) (s : State) : Out := gsetWord 1 a k s

/-- R312. GSET FN 2. -/
def execGsetWalk (a : BitVec 4) (k : Toks) (s : State) : Out := gsetWord 2 a k s

/-- R312. GSET FN 3. -/
def execGsetBar (a : BitVec 4) (k : Toks) (s : State) : Out := gsetWord 3 a k s

/-- R318. GLOAD. -/
def execGload (a b : BitVec 4) (k : Toks) (s : State) : Out :=
  word lgGs [a.setWidth 6, b.setWidth 6]
    (gated k (cmdFull 16 OpKind.isPath) fun c s =>
      let x := aReg s c.key a
      let y := aReg s c.key b
      match descFor s (ctxOf s c.key) (tidOf x) with
      | none => .fault { code := cAddr, taddr := x }
      | some d =>
        if bits y 63 51 ≠ 0 ∨ 2 ≤ d.fmt then .fault { code := cFormat, taddr := x }
        else if spadSize c.key < bits y 50 32 + bits y 31 0 then .fault { code := cAddr, taddr := x }
        else startCmd s c k { newOp .gload with va := x, vb := y }) s

/-- R313. GRULE. -/
def execGrule (a : BitVec 4) (k : Toks) (s : State) : Out :=
  word lgGs [a.setWidth 6] (fun c s => startCmd s c k { newOp .grule with va := aReg s c.key a }) s

/-- R314. GROW. -/
def execGrow (q : BitVec 3) (a b : BitVec 4) (mk : BitVec 1) (k : Toks) (s : State) : Out :=
  word lgGs [a.setWidth 6, b.setWidth 6]
    (gated k (fun _ _ => false) fun c s =>
      if !memDst s c (8 + q.toNat) then illegal
      else startCmd s c k
        { newOp .grow with q := 8 + q.toNat, va := aReg s c.key a, vb := aReg s c.key b, mark := mk == 1 }) s

/-- R316. GSEG. -/
def execGseg (q qs : BitVec 3) (b : BitVec 4) (mk : BitVec 1) (k : Toks) (s : State) : Out :=
  word lgGs [b.setWidth 6]
    (gated k (fun _ _ => false) fun c s =>
      if !memDst s c (8 + q.toNat) ∨ !consumer s c (8 + qs.toNat) ∨ q = qs then illegal
      else startCmd s c k
        { newOp .gseg with q := 8 + q.toNat, q2 := 8 + qs.toNat, vb := aReg s c.key b, mark := mk == 1 }) s

/-- R317. GSCAT: B and GSBAR are latched at issue. -/
def execGscat (qs : BitVec 3) (a b : BitVec 4) (k : Toks) (s : State) : Out :=
  word lgGs [a.setWidth 6, b.setWidth 6]
    (gated k (cmdFull 16 OpKind.isPath) fun c s =>
      let x := aReg s c.key a
      let g := (cellAt s c.key).gs
      if !consumer s c (8 + qs.toNat) then illegal
      else if tidOf x = 0xFFFF then .fault { code := cAddr, taddr := x }
      else match descFor s (ctxOf s c.key) (tidOf x) with
        | none => .fault { code := cAddr, taddr := x }
        | some d =>
          if d.fmt ≠ 14 then .fault { code := cFormat, taddr := x }
          else startCmd s c k
            { newOp .gscat with q2 := 8 + qs.toNat, va := x, vb := aReg s c.key b, lim := g.batchB, bar := g.gsbar }) s

/-- R321: the formats of the walk descriptor's tensors. -/
def walkFmtOk (s : State) (ctx : Nat) (w0 : Word) : Except Nat Unit :=
  match descFor s ctx (bits w0 15 0), descFor s ctx (bits w0 31 16) with
  | some o, some n =>
    if (o.fmt = 4 ∨ o.fmt = 6) ∧ (n.fmt = 4 ∨ n.fmt = 5 ∨ n.fmt = 6) then .ok () else .error cFormat
  | _, _ => .error cAddr

/-- R321, R322. WALK and SAMPLE. -/
def walkWord (kind : OpKind) (q : BitVec 3) (a b : BitVec 4) (mk : BitVec 1) (k : Toks) (s : State) : Out :=
  word lgGs [a.setWidth 6, b.setWidth 6]
    (gated k (cmdFull 64 OpKind.isWalk) fun c s =>
      if !memDst s c q.toNat then illegal
      else match (cellAt s c.key).gs.gwalk with
        | none => .fault { code := cFormat }
        | some ws =>
          match walkFmtOk s (ctxOf s c.key) (dw ws 0) with
          | .error e => .fault { code := e, taddr := taddr (bits (dw ws 0) 15 0) 0 }
          | .ok _ =>
            startCmd s c k
              { newOp kind with q := q.toNat, va := aReg s c.key a, vb := aReg s c.key b, ds := ws, mark := mk == 1 }) s

/-- R322. WALK. -/
def execWalk (q : BitVec 3) (a b : BitVec 4) (mk : BitVec 1) (k : Toks) (s : State) : Out := walkWord .walk q a b mk k s

/-- R322. SAMPLE. -/
def execSample (q : BitVec 3) (a b : BitVec 4) (mk : BitVec 1) (k : Toks) (s : State) : Out := walkWord .sample q a b mk k s

-- The mixing function (R320) ---------------------------------------------------------------------------------------------

/-- M64(k, s). -/
def m64 (k s : Word) : Word :=
  let z := k + s * 0xD1B54A32D192ED03
  let z := (z ^^^ (z >>> 31)) * 0xA4C29B1F5E3D8C67
  let z := (z ^^^ (z >>> 29)) * 0x8F1E63A5C27B94D1
  z ^^^ (z >>> 32)

/-- bounded(h, n). -/
def bounded (h : Word) (n : Nat) : Word :=
  if n = 0 then BitVec.allOnes 64 else BitVec.ofNat 64 ((h.toNat / 2 ^ 32) * n / 2 ^ 32)

/-- R325: the result of GIDX in its destination. -/
def gidxLand (s : State) (c : Ctx) (d : BitVec 6) (v : Word) : State :=
  landVec .gs s c d (v.setWidth 2048) (fullMask .gs) 4

/-- R325. GIDX. -/
def execGidx (d : BitVec 6) (a b : BitVec 4) (s : State) : Out :=
  word { spaces := [.gs] } [a.setWidth 6, b.setWidth 6]
    (fun c s => (dstReady .gs s c d).then c fun _ => .ok (gidxLand s c d (m64 (aReg s c.key a) (aReg s c.key b)))) s

/-- R325. GIDX.BD. -/
def execGidxBd (d : BitVec 6) (a b c : BitVec 4) (s : State) : Out :=
  word { spaces := [.gs] } [a.setWidth 6, b.setWidth 6, c.setWidth 6]
    (fun x s =>
      let n := aReg s x.key c
      if bits n 63 32 ≠ 0 then .fault { code := cFormat }
      else (dstReady .gs s x d).then x fun _ =>
        .ok (gidxLand s x d (bounded (m64 (aReg s x.key a) (aReg s x.key b)) n.toNat))) s

/-- R324. GMOV. -/
def execGmov (f : VecF) (s : State) : Out := movWord .gs f 2 s

/-- R324. GVADD. -/
def execGvadd (f : VecF) (s : State) : Out :=
  laneWord .gs f 2 4 (fun l => lfAdd (laneFmt f.t) f.rm.toNat (arg l 0) (arg l 1)) s

/-- R324. GVMUL. -/
def execGvmul (f : VecF) (s : State) : Out :=
  laneWord .gs f 2 4 (fun l => lfMul (laneFmt f.t) f.rm.toNat (arg l 0) (arg l 1)) s

/-- R324. GVFMA. -/
def execGvfma (f : VecF) (s : State) : Out :=
  laneWord .gs f 3 4 (fun l => lfFma (laneFmt f.t) f.rm.toNat (arg l 0) (arg l 1) (arg l 2)) s

/-- R324. GVCVT. -/
def execGvcvt (f : VecF) (s : State) : Out := cvtWord .gs f 3 s

/-- R324. GVLD. -/
def execGvld (d a : BitVec 6) (imm : BitVec 32) (s : State) : Out := vldWord .gs d a imm s

/-- R324. GVST. -/
def execGvst (d a : BitVec 6) (imm : BitVec 32) (s : State) : Out := vstWord .gs d a imm s

end Sys2Proof.Machine
end

