-- ==== Sys2Proof/Machine/Stratum.lean ====
section
/-! DEFINITION. Words of the ST space (R329 to R341): the starts of bank operations, the vertical register FIFOs, and the
512-bit lane words. What a bank operation does after its start is in Engines.lean. -/

namespace Sys2Proof.Machine

/-- Engine commands are legal only in elastic C streams (R329). -/
def lgSt : Legal := { spaces := [.st], timed := false }

/-- Bank operations share the limit of 16 (R330). -/
def OpKind.isBank : OpKind → Bool
  | .bld | .bst | .bfill | .bcpy | .bamo | .bred => true
  | _ => false

/-- The start of a bank operation on a tensor of a format that a test admits. -/
def bankStart (s : State) (c : Ctx) (k : Toks) (a : Word) (fmtOk : Nat → Bool) (cntOk : Bool) (o : Op) : Res :=
  match descFor s (ctxOf s c.key) (tidOf a) with
  | none => .fault { code := cAddr, taddr := a }
  | some d =>
    if !fmtOk d.fmt || !cntOk then .fault { code := cFormat, taddr := a }
    else startCmd s c k o

/-- R331. BLD. -/
def execBld (q : BitVec 3) (a b : BitVec 4) (mk : BitVec 1) (k : Toks) (s : State) : Out :=
  word lgSt [a.setWidth 6, b.setWidth 6]
    (gated k (cmdFull 16 OpKind.isBank) fun c s =>
      let x := aReg s c.key a
      let n := aReg s c.key b
      if !memDst s c (8 + q.toNat) then illegal
      else bankStart s c k x (fun f => decide (f < 2)) (decide (bits n 63 32 = 0))
        { newOp .bld with q := 8 + q.toNat, va := x, vb := n, mark := mk == 1 }) s

/-- R331. BST. -/
def execBst (qs : BitVec 3) (a b : BitVec 4) (k : Toks) (s : State) : Out :=
  word lgSt [a.setWidth 6, b.setWidth 6]
    (gated k (cmdFull 16 OpKind.isBank) fun c s =>
      let x := aReg s c.key a
      let n := aReg s c.key b
      if !consumer s c (8 + qs.toNat) then illegal
      else bankStart s c k x (fun f => decide (f < 2)) (decide (bits n 63 32 = 0))
        { newOp .bst with q2 := 8 + qs.toNat, va := x, vb := n }) s

/-- R332. BFILL. -/
def execBfill (a b : BitVec 4) (k : Toks) (s : State) : Out :=
  word lgSt [a.setWidth 6, b.setWidth 6]
    (gated k (cmdFull 16 OpKind.isBank) fun c s =>
      let x := aReg s c.key a
      bankStart s c k x (fun _ => true) true { newOp .bfill with va := x, vb := aReg s c.key b }) s

/-- R332. BCPY: equal formats and tile extents. -/
def execBcpy (a b : BitVec 4) (k : Toks) (s : State) : Out :=
  word lgSt [a.setWidth 6, b.setWidth 6]
    (gated k (cmdFull 16 OpKind.isBank) fun c s =>
      let x := aReg s c.key a
      let y := aReg s c.key b
      match descFor s (ctxOf s c.key) (tidOf y) with
      | none => .fault { code := cAddr, taddr := y }
      | some dy =>
        let same := match descFor s (ctxOf s c.key) (tidOf x) with
          | some dx => decide (dx.fmt = dy.fmt ∧ dx.tile = dy.tile)
          | none => true
        bankStart s c k x (fun _ => true) same { newOp .bcpy with va := x, vb := y }) s

/-- R333: the formats of BAMO. -/
def bamoFmt (op d64 fmt : Nat) : Bool :=
  if op = 8 then decide (fmt = 14) else if d64 = 1 then decide (fmt = 6) else decide (fmt = 4 ∨ fmt = 5)

/-- R333. BAMO. -/
def execBamo (qs : BitVec 3) (a b : BitVec 4) (op : BitVec 4) (d64 : BitVec 1) (k : Toks) (s : State) : Out :=
  word lgSt [a.setWidth 6, b.setWidth 6]
    (gated k (cmdFull 16 OpKind.isBank) fun c s =>
      let x := aReg s c.key a
      if !consumer s c (8 + qs.toNat) ∨ 8 < op.toNat ∨ (op.toNat = 8 ∧ d64 = 1) then illegal
      else bankStart s c k x (bamoFmt op.toNat d64.toNat) true
        { newOp .bamo with q2 := 8 + qs.toNat, va := x, vb := aReg s c.key b, fn := op.toNat, mark := d64 == 1 }) s

/-- R334: the formats of BRED. -/
def bredFmt (op fmt : Nat) : Bool :=
  match op with
  | 0 | 1 | 2 => decide (fmt = 12)
  | 3 => decide (fmt = 5)
  | _ => decide (fmt = 6)

/-- R334. BRED: the word has no MARK. -/
def execBred (q : BitVec 3) (a b : BitVec 4) (op : BitVec 3) (k : Toks) (s : State) : Out :=
  word lgSt [a.setWidth 6, b.setWidth 6]
    (gated k (cmdFull 16 OpKind.isBank) fun c s =>
      let x := aReg s c.key a
      let n := aReg s c.key b
      if !memDst s c q.toNat ∨ 4 < op.toNat then illegal
      else bankStart s c k x (bredFmt op.toNat) (decide (n.toNat ≤ 2 ^ 24))
        { newOp .bred with q := q.toNat, va := x, vb := n, fn := op.toNat }) s

-- Vertical register FIFOs (R337 to R341) -------------------------------------------------------------------------------------

/-- The consumer cell of the FIFO above a stratum cell, or none (R337). -/
def upPort (key : Nat) : Option Nat := if stkOf key < 3 then some (key + 16) else none

/-- The producer cell of the FIFO below a stratum cell, or none (R337). -/
def downPort (key : Nat) : Option Nat := if 0 < stkOf key then some (key - 16) else none

/-- The other cell of a port belongs to the region of the cell (R337). -/
def portLive (s : State) (key : Nat) (p : Option Nat) : Bool :=
  match p with
  | some k => decide ((cellAt s k).reg = (cellAt s key).reg) && decide ((cellAt s key).reg ≠ 0)
  | none => false

/-- The FIFO whose consumer is a cell. -/
def fifoAt (s : State) (key : Nat) : Fifo := (cellAt s key).fifo

/-- Replaces the FIFO of a consumer. -/
def setFifo (s : State) (key : Nat) (f : Fifo) : State := setCell s key { cellAt s key with fifo := f }

/-- Free slots in a period (R339): pushed and not yet popped entries, and slots still on the way back, are not free. -/
def Fifo.free (f : Fifo) (per : Nat) : Nat := 8 - f.ents.length - (f.frees.filter fun t => decide (per < t)).length

/-- Entries present to the consumer in a period (R339). -/
def Fifo.present (f : Fifo) (per : Nat) : Nat := (f.ents.filter fun e => decide (e.due ≤ per)).length

/-- Appends an entry in a period. -/
def Fifo.push (f : Fifo) (per : Nat) (v : BitVec 2048) : Fifo :=
  { f with ents := f.ents ++ [{ data := v.setWidth 512, due := per + 2 }] }

/-- R338. VFPUSH waits while the FIFO is full, closing or gated. -/
def execVfpush (a : BitVec 6) (s : State) : Out :=
  word lgSt (aFields .st [(a, false)])
    (fun c s =>
      if !portLive s c.key (upPort c.key) then illegal
      else
        let f := fifoAt s (c.key + 16)
        (readSrc .st 32 s c a false).then c fun (v, t) =>
          if f.closing ∨ f.gated ∨ f.free s.per = 0 then .wait
          else .ok (setFifo t (c.key + 16) (f.push s.per v))) s

/-- R338. VFPUSHN: 0 PUSHED, 1 FULL, 2 GATED. -/
def execVfpushn (d a : BitVec 6) (s : State) : Out :=
  word lgSt (aFields .st [(a, false)])
    (fun c s =>
      if !portLive s c.key (upPort c.key) then illegal
      else
        let f := fifoAt s (c.key + 16)
        let st := if f.closing ∨ f.gated then 2 else if f.free s.per = 0 then 1 else 0
        (readSrc .st 32 s c a (decide (st ≠ 0))).then c fun (v, t) => (dstReady .st s c d).then c fun _ =>
          let t := if st = 0 then setFifo t (c.key + 16) (f.push s.per v) else t
          .ok (landVec .st t c d (BitVec.ofNat 2048 st) (fullMask .st) 1)) s

/-- R338. VFPOP removes the oldest present entry of the FIFO below. -/
def execVfpop (d : BitVec 6) (s : State) : Out :=
  word lgSt []
    (fun c s =>
      if !portLive s c.key (downPort c.key) then illegal
      else
        let f := fifoAt s c.key
        (dstReady .st s c d).then c fun _ =>
          match f.ents with
          | [] => .wait
          | e :: es =>
            if s.per < e.due then .wait
            else
              let t := setFifo s c.key { f with ents := es, frees := f.frees ++ [s.per + 2] }
              .ok (landVec .st t c d (e.data.setWidth 2048) (fullMask .st) 1)) s

/-- The port word of R338, Table 4. -/
def portWord (s : State) (cons : Nat) (down : Bool) : Nat :=
  let f := fifoAt s cons
  (if down then f.present s.per else f.free s.per) + (if f.closing then 256 else 0) + (if f.gated then 512 else 0)

/-- R338. VFCNT. -/
def execVfcnt (d : BitVec 6) (p : BitVec 1) (s : State) : Out :=
  word { spaces := [.st] } []
    (fun c s =>
      let down := p == 1
      let port := if down then downPort c.key else upPort c.key
      if !portLive s c.key port then illegal
      else (dstReady .st s c d).then c fun _ =>
        .ok (landVec .st s c d (BitVec.ofNat 2048 (portWord s (if down then c.key else c.key + 16) down)) (fullMask .st) 1)) s

/-- R336. SVADD. -/
def execSvadd (f : VecF) (s : State) : Out :=
  laneWord .st f 2 4 (fun l => lfAdd (laneFmt f.t) f.rm.toNat (arg l 0) (arg l 1)) s

/-- R336. SVFMA. -/
def execSvfma (f : VecF) (s : State) : Out :=
  laneWord .st f 3 4 (fun l => lfFma (laneFmt f.t) f.rm.toNat (arg l 0) (arg l 1) (arg l 2)) s

end Sys2Proof.Machine
end

