-- ==== Sys2Proof/Machine/Tiles.lean ====
section
/-! DEFINITION. The tile table from the driver's side: descriptors and their installation (R75, R439), frames (R438), tile
operations (R439), migration (R444, R445), the mix (R25, R26), device events (R353, R435), and stratum roles with their
gates (R340, R446). -/

namespace Sys2Proof.Machine

-- Descriptors (R75) ----------------------------------------------------------------------------------------------------

/-- Whether a list is a permutation of 0 to n − 1. -/
def isPerm (n : Nat) (l : List Nat) : Bool := decide (l.length = n) && (List.range n).all fun i => l.contains i

/-- The descriptor that eight words describe, or none where a condition of R75 is broken. DEDUCED, log 91: an extent or a tile
extent above the rank that is not 1 breaks Table 2 and is refused. -/
def parseDesc (w : List Word) : Option Desc :=
  let w0 := w.getD 0 0
  let fmt := bits w0 3 0
  let rank := bits w0 6 4
  let lord := (List.range 5).map fun j => bits w0 (3 * j + 10) (3 * j + 8)
  let ext := (List.range 5).map fun d => bits (w.getD (1 + d) 0) 31 0
  let tile := (List.range 5).map fun d => let t := bits (w.getD (1 + d) 0) 47 32; if t = 0 then 65536 else t
  let w6 := w.getD 6 0
  let d : Desc := { fmt := fmt, rank := rank, lord := lord, ext := ext, tile := tile, ttbase := bits w6 47 3 }
  let zeros := decide (bits w0 63 23 = 0 ∧ bits w6 2 0 = 0 ∧ bits w6 63 48 = 0 ∧ w.getD 7 0 = 0)
    && (List.range 5).all fun i => decide (bits (w.getD (1 + i) 0) 63 48 = 0)
  let outer := (List.range 5).all fun i => decide (i < rank) || (decide (ext.getD i 0 = 1 ∧ tile.getD i 0 = 1 ∧ lord.getD i 0 = 0))
  if zeros && outer && decide (1 ≤ rank ∧ rank ≤ 5) && decide (fmt ≠ 15) && isPerm rank (lord.take rank)
      && decide (d.count < 2 ^ 48) && decide (d.ntiles < 2 ^ 32)
      && decide (prod d.tile * fmtBits fmt % 256 = 0 ∧ prod d.tile * fmtBits fmt ≤ 8 * 65536)
  then some d else none

/-- Writes bytes of a context's table space, where it is resident (R436). -/
def tsPut (s : State) (ctx off : Nat) (bs : List Byte) : State :=
  match tsByte s ctx off with
  | some a => { s with mem := memPuts s.mem a bs }
  | none => s

/-- VALID := 0 in the descriptor of a tensor; its other bits stay (R439, Table 4). -/
def tsInvalid (s : State) (ctx t : Nat) : State :=
  match tsByte s ctx (64 * t) with
  | some a => { s with mem := memPut s.mem a (memByte s a &&& 0x7F) }
  | none => s

-- The mix (R25, R26) -----------------------------------------------------------------------------------------------------

/-- A word with bits hi to lo replaced. -/
def putBits (w : Word) (hi lo v : Nat) : Word :=
  BitVec.ofNat 64 (w.toNat - bits w hi lo * 2 ^ lo + (v % 2 ^ (hi + 1 - lo)) * 2 ^ lo)

/-- R25: an update of the mix raises MIXGEN. -/
def mixUpdate (s : State) : State := { s with mixa := putBits s.mixa 63 60 (bits s.mixa 63 60 + 1) }

/-- The role that MIXC shows for stratum i (R25, Table 7). -/
def roleOf (s : State) (i : Nat) : Nat := bits s.mixc (2 * i + 1) (2 * i)

/-- Whether stratum i is unavailable: it is marked failed, or its base is (R25, Table 7). -/
def stratumMarked (s : State) (i : Nat) : Bool := s.failedS.contains i || s.failed.contains (12 + i / 4)

/-- MIXC shows a role for stratum i, in one update of the mix; of a stratum that is marked or lost it goes on showing 0b11. -/
def setRole (s : State) (i r : Nat) : State :=
  mixUpdate { s with mixc := putBits s.mixc (2 * i + 1) (2 * i) (if stratumMarked s i ∨ roleOf s i = 3 then 3 else r) }

/-- The largest number of compute strata of one stack at a variant (R26). -/
def roleLimit (var : Nat) : Nat := if var = 0 then 2 else if var = 1 then 3 else 4

/-- Whether stratum i is in compute role, or changes to it or from it: a change that is abandoned shows the old role again
(R26, R446, log 78). -/
def computes (s : State) (i : Nat) : Bool :=
  decide (roleOf s i = 1) || match s.role with
    | some r => decide (r.strat = i)
    | none => false

/-- The strata of a stack that compute, or change to computing or from it. -/
def computeCount (s : State) (base : Nat) : Nat := ((List.range 4).filter fun k => computes s (4 * base + k)).length

/-- The compute strata of one stack that the level in force allows, and the level that is armed: MIXC never shows more
than a level allows, so a change has to fit both (R26, log 78). -/
def roleRoom (s : State) : Nat := Nat.min (roleLimit (varOf s s.grant.toNat)) (roleLimit (varOf s s.armed.toNat))

-- Device events (R353, R435) -----------------------------------------------------------------------------------------------

/-- Posts a device event for a core's mailbox; it waits in S0 until there is room. -/
def postEvent (s : State) (core evt h m l : Nat) : State :=
  { s with devq := s.devq ++ [(core, BitVec.ofNat 64 (0x0A * 2 ^ 56 + (evt % 256) * 2 ^ 48 + (h % 65536) * 2 ^ 32 + (m % 65536) * 2 ^ 16 + l % 65536))] }

/-- The core whose mailbox takes the events of R435, which the manual calls the harbour mailbox: core 0 (log 12). -/
def harbourCore : Nat := 0

-- Frames (R438) --------------------------------------------------------------------------------------------------------------

/-- Capacity of one stack in bytes for an HCAP code: GB are powers of 1,000 (R6, R25). -/
def hcapBytes (c : Nat) : Nat := [0, 16, 24, 32, 48, 64].getD c 0 * 1000000000

/-- Frames of one stack: floor of the capacity by 65,536 (R438). -/
def hcapFrames (c : Nat) : Nat := hcapBytes c / 65536

/-- R438: a frame word names a frame that a tile may take. -/
def frameValid (s : State) (f : Word) : Bool :=
  let m := bits f 20 18
  let med := bits f 23 21
  let fr := bits f 43 24
  (if med < 2 then
      decide (bits s.mixb (8 * m + 3 + med) (8 * m + 3 + med) = 1) && decide (fr < hcapFrames (bits s.mixb (8 * m + 7) (8 * m + 5)))
   else if 4 ≤ med then
      let r := roleOf s (4 * m + (med - 4))
      decide (r < 2) && decide (fr < 2048) && !(decide (r = 1) && decide (fr % 128 = 0))
   else false)
    && !(s.fwds.any fun x => decide (frameOf x.old = frameOf f)) && !(s.migs.any fun x => decide (frameOf x.dest = frameOf f))

/-- The stratum that a frame word names, if it names a bank. -/
def bankOf (f : Word) : Option (Nat × Nat) :=
  if 4 ≤ bits f 23 21 then some (4 * bits f 20 18 + (bits f 23 21 - 4), bits f 43 24) else none

/-- Sets the owner tag of a bank (R438). -/
def tagBank (s : State) (f : Word) (o : Option (Nat × Nat × Nat)) : State :=
  if (bankOf f).isNone then s
  else match o with
    | some x => { s with owners := sset s.owners (frameOf f) x }
    | none => { s with owners := sdel s.owners (frameOf f) }

/-- An entry in a frame with a state, its generation raised. -/
def entPlace (e : Word) (st : Nat) (f : Word) : Word :=
  mkEntry st (entPins e) (bits f 20 18) (bits f 23 21) (bits f 43 24) (entGen e + 1)

/-- An ABSENT entry, its generation raised (R437). -/
def entAbsent (e : Word) : Word := mkEntry 0 (entPins e) 0 0 0 (entGen e + 1)

-- Tile operations (R439) -------------------------------------------------------------------------------------------------------

/-- The tile that TOPA names: context, tensor, tile. -/
def topTile (s : State) : Nat × Nat × Nat :=
  let a := preg s 0x20 0x100
  (bits a 23 16, bits a 15 0, bits a 55 24)

/-- The operand TOPB. -/
def topB (s : State) : Word := preg s 0x20 0x101

/-- Ends a tile operation: TOPR and TOPE. -/
def topEnd (s : State) (status : Nat) : State :=
  let (c, t, i) := topTile s
  setPreg (setPreg s 0x20 0x103 (BitVec.ofNat 64 status)) 0x20 0x104 (entryOf s c t i)

/-- TOPA names an installed tile. -/
def topNamed (s : State) : Bool :=
  let (c, t, i) := topTile s
  match descFor s c t with
  | some d => decide (i < d.ntiles)
  | none => false

/-- A tile operation with the checks of R439 in order: GEN, PINNED, STATE, FRAME, FULL. -/
def topRun (s : State) (pinned : Bool) (from_ : Nat) (frame full : Bool) (f : State → Word → State) : State :=
  let (c, t, i) := topTile s
  let e := entryOf s c t i
  if !topNamed s then topEnd s 6
  else if bits (topB s) 63 48 ≠ entGen e then topEnd s 1
  else if pinned && decide (entPins e ≠ 0) then topEnd s 3
  else if entState e ≠ from_ then topEnd s 2
  else if frame && !frameValid s (topB s) then topEnd s 4
  else if full then topEnd s 5
  else topEnd (f s e) 0

/-- Replaces the entry of the tile that TOPA names. -/
def topSet (s : State) (e : Word) : State := let (c, t, i) := topTile s; setEntry s c t i e

/-- READ. -/
def topRead (s : State) : State := topEnd s (if topNamed s then 0 else 6)

/-- MAP. -/
def topMap (s : State) : State := topRun s false 0 true false fun s e => topSet (tagBank s (topB s) (some (topTile s))) (entPlace e 1 (topB s))

/-- MAPZ. -/
def topMapz (s : State) : State := topRun s false 0 true false fun s e => topSet (tagBank s (topB s) (some (topTile s))) (entPlace e 3 (topB s))

/-- DISCARD. -/
def topDiscard (s : State) : State := topRun s true 1 false false fun s e => topSet s (entSetState e 3)

/-- RECLAIM. -/
def topReclaim (s : State) : State := topRun s true 3 false false fun s e => topSet (tagBank s e none) (entAbsent e)

/-- UNMAP. -/
def topUnmap (s : State) : State := topRun s true 1 false false fun s e => topSet (tagBank s e none) (entAbsent e)

/-- MIGRATE is accepted: the entry shows MIGRATING and the record holds the destination (R444). -/
def topMigrate (s : State) : State :=
  let (c, t, i) := topTile s
  let e := entryOf s c t i
  let full := decide (64 ≤ s.migs.length)
    || decide (256 ≤ (s.fwds.filter fun x => decide (bits x.old 20 18 = bits e 20 18)).length)
  topRun s false 1 true full fun s e =>
    let s := tagBank s (topB s) (some (c, t, i))
    topSet { s with migs := s.migs ++ [{ ctx := c, tens := t, tile := i, dest := topB s, done := [], pass := 0, next := 0 }] }
      (entSetState e 2)

/-- FWDCLR: the forwarding entry of the old frame is removed (R445). -/
def topFwdclr (s : State) : State :=
  let f := frameOf (topB s)
  if s.fwds.any (fun x => decide (frameOf x.old = f)) then
    topEnd { s with fwds := s.fwds.filter fun x => decide (frameOf x.old ≠ f) } 0
  else topEnd s 6

/-- INSTALL: the descriptor of TDESC0 to TDESC7; every tile-table entry becomes 0. -/
def topInstall (s : State) : State :=
  let (c, t, _) := topTile s
  let ws := (List.range 8).map fun i => preg s 0x20 (0x120 + i)
  if t = 0 ∨ t = 0xFFFF ∨ tableLen s c ≤ t then topEnd s 6
  else if (descOf s c t).isSome then topEnd s 2
  else match parseDesc ws with
    | none => topEnd s 8
    | some d =>
      let lo := ttKey (tsOf s c) t 0
      let s := { s with tens := sset s.tens (tsOf s c * 65536 + t) d,
                        tt := s.tt.filter fun p => !(decide (lo ≤ p.1) && decide (p.1 < lo + 2 ^ 32)) }
      let s := tsPut s c (64 * t) (ws.zipIdx.flatMap fun p => toBytes 8 (if p.2 = 0 then (p.1 ||| 0x80).toNat else p.1.toNat))
      let s := (List.range d.ntiles).foldl (fun s i => tsPut s c (d.ttbase * 8 + i * 8) (toBytes 8 0)) s
      topEnd s 0

/-- REMOVE: the descriptor of a tensor whose tiles are all ABSENT becomes invalid. -/
def topRemove (s : State) : State :=
  let (c, t, i) := topTile s
  if t = 0 ∨ t = 0xFFFF ∨ tableLen s c ≤ t then topEnd s 6
  else match descOf s c t with
    | none => topEnd s 2
    | some d =>
      let lo := ttKey (tsOf s c) t 0
      let used := s.tt.any fun p => decide (lo ≤ p.1) && decide (p.1 < lo + 2 ^ 32) && decide (entState p.2 ≠ 0)
      if d.ntiles ≤ i then topEnd s 6
      else if bits (topB s) 63 48 ≠ entGen (entryOf s c t i) then topEnd s 1
      else if used then topEnd s 2
      else
        let u := tsInvalid s c t
        topEnd { u with tens := sdel u.tens (tsOf u c * 65536 + t) } 0

/-- A write to TOPGO starts an operation; operations 10 to 15 answer BADOP. -/
def topGo (s : State) (op : Nat) : State :=
  match op with
  | 0 => topRead s
  | 1 => topMap s
  | 2 => topMapz s
  | 3 => topDiscard s
  | 4 => topReclaim s
  | 5 => topUnmap s
  | 6 => topMigrate s
  | 7 => topFwdclr s
  | 8 => topInstall s
  | 9 => topRemove s
  | _ => topEnd s 7

/-- R439. TILE_READ. -/
def execTileRead (s : State) : Host.Outcome State Fault Refusal := .next (topRead s)

/-- R439. MAP. -/
def execMap (s : State) : Host.Outcome State Fault Refusal := .next (topMap s)

/-- R439. MAPZ. -/
def execMapz (s : State) : Host.Outcome State Fault Refusal := .next (topMapz s)

/-- R439. DISCARD. -/
def execDiscard (s : State) : Host.Outcome State Fault Refusal := .next (topDiscard s)

/-- R439. RECLAIM. -/
def execReclaim (s : State) : Host.Outcome State Fault Refusal := .next (topReclaim s)

/-- R439. UNMAP. -/
def execUnmap (s : State) : Host.Outcome State Fault Refusal := .next (topUnmap s)

/-- R444. MIGRATE. -/
def execMigrate (s : State) : Host.Outcome State Fault Refusal := .next (topMigrate s)

/-- R445. FWDCLR. -/
def execFwdclr (s : State) : Host.Outcome State Fault Refusal := .next (topFwdclr s)

/-- R439. INSTALL. -/
def execInstall (s : State) : Host.Outcome State Fault Refusal := .next (topInstall s)

/-- R439. REMOVE. -/
def execRemove (s : State) : Host.Outcome State Fault Refusal := .next (topRemove s)

-- Migration (R444, R470) ---------------------------------------------------------------------------------------------------------

/-- The numbers of the packages that have a link up (R464, R465). -/
def linkedPkgs (s : State) : List Nat :=
  ((List.range 16).filterMap fun j =>
    let w := preg s (0x20 + j / 4) (0x80 + j % 4)
    if w.getLsbD 0 then some (bits w 31 16) else none).eraseDups

/-- The lowest-numbered link that is up to a package (R465). -/
def linkTo (s : State) (pkg : Nat) : Option Nat :=
  (List.range 16).find? fun j =>
    let w := preg s (0x20 + j / 4) (0x80 + j % 4)
    w.getLsbD 0 && decide (bits w 31 16 = pkg)

/-- A connection. -/
def connAt (s : State) (n : Nat) : Conn := sget {} s.conns n

/-- Replaces a connection. -/
def setConn (s : State) (n : Nat) (c : Conn) : State := { s with conns := sset s.conns n c }

/-- Message types (R413). -/
def tHello : Nat := 0
def tResp : Nat := 3
def tEvent : Nat := 6
def tAck : Nat := 7

/-- Sends a message on a connection; it carries the cumulative ACK and, but for an ACK, is kept until acknowledged. -/
def sendOn (s : State) (conn : Nat) (c : Conn) (typ qnum : Nat) (data : List Word) (bytes : List Byte) : State :=
  let m : OutMsg := { conn := conn, gen := c.gen, seq := c.tx, typ := typ, qnum := qnum, ack := if c.gen < 2 then 0 else c.rx, data := data,
                      bytes := bytes, sentT := s.tick }
  if typ = tAck then { setConn s conn { c with ackT := none } with outputs := s.outputs ++ [m] }
  else
    { setConn s conn { c with tx := (c.tx + 1) % 2 ^ 32, ackT := none, progT := if c.unack.isEmpty then s.tick else c.progT,
                              unack := if c.gen < 2 then c.unack else c.unack ++ [m] } with outputs := s.outputs ++ [m] }

/-- Sends a message on a connection, if there is one. -/
def sendHost (s : State) (conn typ qnum : Nat) (data : List Word) (bytes : List Byte) : State :=
  match sfind s.conns conn with
  | none => s
  | some c => sendOn s conn c typ qnum data bytes

/-- A message to another package, over the link of R465; without one it is lost. -/
def sendPkg (s : State) (pkg typ : Nat) (data : List Word) (bytes : List Byte) : State :=
  match linkTo s pkg with
  | none => s
  | some j => sendOn s (1000 + j) ((sfind s.conns (1000 + j)).getD { gen := 3 }) typ 0 data bytes

/-- R467: whether a tensor of a context is exported, and for writing. -/
def exported (s : State) (ctx tens : Nat) : Option Bool :=
  (List.range 8).foldl
    (fun r n =>
      match r with
      | some x => some x
      | none =>
        let w := preg s 0x20 (0x1C8 + n)
        if w.getLsbD 24 && decide (bits w 7 0 = ctx) && decide (bits w 23 8 = tens) then some (w.getLsbD 25) else none) none

/-- Copies one sector from a frame to another. -/
def copySector (s : State) (src dst : Word) (k : Nat) : State :=
  healMem { s with mem := memPuts s.mem (physOf dst (32 * k)) (memBytes s (physOf src (32 * k)) 32) } (physOf dst (32 * k)) 32

/-- The first sector at or after k whose bit is 0. -/
def nextClear (m : Migr) : Nat → Nat → Nat
  | 0, k => k
  | n + 1, k => if 2048 ≤ k then 2048 else if sget false m.done k then nextClear m n (k + 1) else k

/-- Abandons a migration: the entry is RESIDENT in the source frame, its generation raised (R444). -/
def migAbandon (s : State) (i : Nat) (m : Migr) : State :=
  let e := entryOf s m.ctx m.tens m.tile
  setEntry (tagBank { s with migs := s.migs.eraseIdx i } m.dest none) m.ctx m.tens m.tile (entSetState e 1)

/-- The base of a migration's destination is marked failed: a copy into it meets a memory error (R444, R488). -/
def destFailed (s : State) (m : Migr) : Bool := s.failed.contains (12 + bits m.dest 20 18)

/-- R444. The copy engine copies the next sector whose bit is 0 and sets the bit; past the last sector the pass ends. -/
def execMigrationSectorCopy (i : Nat) (s : State) : Host.Outcome State Fault Refusal :=
  .next
    (match s.migs[i]? with
      | none => s
      | some m =>
        if 4 ≤ m.pass then s
        else
          let e := entryOf s m.ctx m.tens m.tile
          let k := nextClear m 2048 m.next
          if 2048 ≤ k then { s with migs := s.migs.set i { m with pass := m.pass + 1, next := 0 } }
          else if sectorBad s e (32 * k) ∨ destFailed s m then migAbandon s i m
          else
            { copySector s e m.dest k with migs := s.migs.set i { m with done := sset m.done k true, next := k + 1 } })

/-- R444, R470. After four passes the remaining sectors are copied and the tile switches over, in one step: the entry, the
forwarding entry, the peer caches of other packages and the owner tags. -/
def execSwitchover (i : Nat) (s : State) : Host.Outcome State Fault Refusal :=
  .next
    (match s.migs[i]? with
      | none => s
      | some m =>
        if m.pass < 4 then s
        else
          let e := entryOf s m.ctx m.tens m.tile
          let left := (List.range 2048).filter fun k => !sget false m.done k
          if left.any (fun k => sectorBad s e (32 * k) || destFailed s m) then migAbandon s i m
          else
            let s := left.foldl (fun s k => copySector s e m.dest k) s
            let old := mkEntry 0 0 (bits e 20 18) (bits e 23 21) (bits e 43 24) 0
            let pk := if (exported s m.ctx m.tens).isSome then linkedPkgs s else []
            let s := { tagBank s e none with migs := s.migs.eraseIdx i, fwds := s.fwds ++ [{ old := old, new := m.dest, pend := pk }] }
            let s := setEntry s m.ctx m.tens m.tile (entPlace e 1 m.dest)
            pk.foldl (fun s p => sendPkg s p 101 [old] []) s)

-- Stratum roles and gates (R340, R446) ---------------------------------------------------------------------------------------------

/-- The cells of stratum i. -/
def stratumCells (i : Nat) : List Nat := (List.range 16).map fun c => 2304 + i * 16 + c

/-- A FIFO's contents under the gate state of another: that of its stratum, which no save or launch changes (R340). -/
def Fifo.gateAs (f g : Fifo) : Fifo := { f with closing := g.closing, gated := g.gated }

/-- Changes the FIFOs whose consumers lie in stratum i. -/
def onFifos (s : State) (i : Nat) (f : Fifo → Fifo) : State :=
  (stratumCells i).foldl (fun s k => setCell s k { cellAt s k with fifo := f (cellAt s k).fifo }) s

/-- A gate request of a core reaches stratum i: every FIFO into it shows CLOSING (R340). -/
def gateAsk (s : State) (core i : Nat) : State :=
  onFifos { s with gates := s.gates ++ [(core, i)] } i fun f => { f with closing := true }

/-- R340. GATE_REQUEST. -/
def execGateRequest (core stratum : Nat) (s : State) : Host.Outcome State Fault Refusal :=
  .next (if 32 ≤ stratum ∨ s.gates.any (fun g => decide (g.2 = stratum)) then s else gateAsk s core stratum)

/-- Whether a region is bound to its cells and has yet to run on them: its LAUNCH or RESUME waits, its planes wait for their
swap, or it is halted with KIND 1 (R21, R340; log 90). -/
def Region.willRun (r : Region) : Bool :=
  match r.stage with
  | .planes | .halted => true
  | .leases | .cells => !r.unbound
  | _ => false

/-- Whether a cell has a stream or task that has not ended (R340): in a running region, or in one that is bound and will run. -/
def cellBusy (s : State) (k : Nat) : Bool :=
  let c := cellAt s k
  (decide (c.reg ≠ 0) && (c.task.isSome || [Seq.s, .l, .c, .w].any fun q =>
    decide ((c.stream q).mode ≠ .none) && !(c.stream q).ended))
  || s.regions.any fun r => r.2.willRun && (regCells r.2).contains k

/-- The conditions of R340 for applying the gate of stratum i. -/
def gateReady (s : State) (i : Nat) : Bool :=
  s.gates.any (fun g => decide (g.2 = i)) && (stratumCells i).all fun k =>
    (cellAt s k).fifo.ents.isEmpty && (decide (i % 4 = 3) || (cellAt s (k + 16)).fifo.ents.isEmpty) && !cellBusy s k

/-- R340. The gate is applied: GATED shows, CLOSING clears, and the gate-done event is posted. -/
def execGateApply (stratum : Nat) (s : State) : Host.Outcome State Fault Refusal :=
  .next
    (if !gateReady s stratum then s
     else
       let core := match s.gates.find? (fun g => decide (g.2 = stratum)) with
         | some g => g.1
         | none => 0
       let s := onFifos { s with gates := s.gates.filter fun g => decide (g.2 ≠ stratum) } stratum
         fun f => { f with closing := false, gated := true }
       let s := { s with role := s.role.map fun r => if r.strat = stratum ∧ r.role = 0 then { r with gated := true } else r }
       postEvent s core 1 0 0 stratum)

/-- SRST of R446. -/
def srstWord (status strat step : Nat) : Word := BitVec.ofNat 64 (status + strat * 2 ^ 8 + step * 2 ^ 13)

/-- The core whose word runs. -/
def askingCore (s : State) : Nat := if 100000 ≤ s.cur then s.cur - 100000 else 0

/-- R446. A core's write to SROLE starts a change. -/
def roleStart (core : Nat) (s : State) (v : Word) : State :=
  let i := bits v 4 0
  let tgt := bits v 5 5
  let cur := roleOf s i
  if cur = 3 ∨ cur = 2 ∨ cur = tgt ∨ s.role.isSome then { s with srst := putBits s.srst 7 0 3 }
  else if tgt = 1 ∧ roleRoom s < computeCount s (i / 4) + 1 then { s with srst := srstWord 1 i 0 }
  else
    let s := setRole { s with srst := srstWord 0xFF i 1, role := some { strat := i, role := tgt, step := 1, core := core } } i 2
    if tgt = 0 then gateAsk s core i else s

/-- R446. ROLE_CHANGE_START. -/
def execRoleChangeStart (v : Word) (s : State) : Host.Outcome State Fault Refusal := .next (roleStart (askingCore s) s v)

/-- The cells of a stratum cleared as under R30. -/
def clearStratum (s : State) (i : Nat) : State := (stratumCells i).foldl (fun s k => setCell s k {}) s

/-- The change ends without effect: the old role shows again (R446). -/
def roleBack (s : State) (r : RoleChg) (status : Nat) : State :=
  setRole { s with role := none, srst := srstWord status r.strat 0 } r.strat (1 - r.role)

/-- R446. ABORT in drain. -/
def roleAbort (s : State) : State :=
  match s.role with
  | none => s
  | some r =>
    if r.step ≠ 1 then s
    else
      let s := roleBack s r 4
      if r.role = 0 then
        let s := { s with gates := s.gates.filter fun g => decide (g.2 ≠ r.strat) }
        if r.gated then clearStratum s r.strat else onFifos s r.strat fun f => { f with closing := false }
      else s

/-- R446. ROLE_CHANGE_ABORT. -/
def execRoleChangeAbort (s : State) : Host.Outcome State Fault Refusal := .next (roleAbort s)

/-- The frame words of the affected banks of stratum i: bank 128 × index (R446). -/
def affected (i : Nat) : List Word :=
  (List.range 16).map fun j => mkEntry 0 0 (i / 4) (4 + i % 4) (128 * j) 0

/-- The bank in which a request's place lies. -/
def reqBank (s : State) (r : Req) : Option (Nat × Nat) :=
  match descOf s r.ctx (tidOf r.addr) with
  | none => none
  | some d => bankOf (entryOf s r.ctx (tidOf r.addr) (placeOf d r.addr).1)

/-- The drain of R446 is over. -/
def drainDone (s : State) (r : RoleChg) : Bool :=
  let busy := s.reqs.any fun q =>
    match reqBank s q.2 with
    | some (i, b) => decide (i = r.strat) && (decide (r.role = 0) || decide (b % 128 = 0))
    | none => false
  !busy &&
    if r.role = 1 then
      (affected r.strat).all fun f =>
        match sfind s.owners (frameOf f) with
        | some (c, t, i) => decide (entPins (entryOf s c t i) = 0)
        | none => true
    else r.gated && !(s.devq.any fun e => decide (bits e.2 55 48 = 1 ∧ bits e.2 4 0 = r.strat))

/-- Zeros a frame. -/
def zeroFrame (s : State) (f : Word) : State :=
  let a := physOf f 0
  healMem { s with mem := s.mem.filter fun p => !(decide (a ≤ p.1) && decide (p.1 < a + 65536)) } a 65536

/-- The flush of R446 for a change to compute: DISCARDED tiles become ABSENT; another tile makes the change BUSY. -/
def flushBanks (s : State) : List Word → State × Bool
  | [] => (s, true)
  | f :: fs =>
    match sfind s.owners (frameOf f) with
    | none => flushBanks s fs
    | some (c, t, i) =>
      let e := entryOf s c t i
      if entState e = 3 then flushBanks (setEntry (tagBank s f none) c t i (entAbsent e)) fs else (s, false)

/-- R446. ROLE_DRAIN_DONE: flush and re-enumeration. -/
def execRoleDrainDone (s : State) : Host.Outcome State Fault Refusal :=
  .next
    (match s.role with
      | none => s
      | some r =>
        if r.step ≠ 1 || !drainDone s r then s
        else
          let (s, ok) := if r.role = 1 then flushBanks s (affected r.strat) else (s, true)
          if !ok then roleBack s r 2
          else
            let s := (affected r.strat).foldl zeroFrame s
            let s := if r.role = 1 then clearStratum s r.strat else s
            setRole { s with role := none, srst := srstWord 0 r.strat 0 } r.strat r.role)

end Sys2Proof.Machine
end

