-- ==== Sys2Proof/Machine/Engines.lean ====
section
/-! DEFINITION. What engine operations do after their start, one unit at a time: an element, entry, line, rule, row,
segment or step (R121, R222 to R238, R305 to R323, R329 to R334, R360). -/

namespace Sys2Proof.Machine

/-- How a unit of an operation ends: it is done, it waits, or it meets a fault. -/
inductive Adv
  | go (s : State) (o : Op)
  | wait
  | bad (s : State) (code : Nat) (ta : Word)

/-- The context of an operation's cell. -/
def opCtx (s : State) (o : Op) : Nat := ctxOf s o.key

-- Reading and writing one element ------------------------------------------------------------------------------------------

/-- The data that a package outside the model answers with: free bits (R469, log 6). -/
def freeBits (s : State) (w : Nat) : Nat × State :=
  let (n, s) := freeNum s
  (((List.range ((w + 63) / 64)).foldl (fun acc i => acc + (Config.freeWord (n + i)).toNat * 2 ^ (64 * i)) 0) % 2 ^ w,
   { s with freeCtr := s.freeCtr + w / 64 })

/-- The key of a peer tile in the translation cache of a switch die (R469). -/
def ptcKey (link ctx tens tile : Nat) : Nat := (link / 4 * 256 + ctx) * 2 ^ 48 + tens * 2 ^ 32 + tile

/-- No fault's code: the unit waits for what the home of a peer tensor answers to a read of n bytes at an address (k = 0), or of
sector k − 1 of the address's tile (R469). -/
def askCode (a : Word) (k n : Nat) : Nat := 65536 + (a.toNat * 65536 + k) * 64 + n

/-- The read that a code of `askCode` stands for, or none for a fault's code. -/
def askOf (c : Nat) : Option (Word × Nat × Nat) :=
  if c < 65536 then none
  else some (BitVec.ofNat 64 ((c - 65536) / 64 / 65536), (c - 65536) / 64 % 65536, (c - 65536) % 64)

/-- What the home of a peer tensor has answered to a read of the present unit of an operation. -/
def gotOf (o : Op) (a : Word) (k : Nat) : Option Nat :=
  (o.got.find? fun g => decide (g.1 = a ∧ g.2.1 = k)).map (·.2.2)

/-- The writes that an operation's reads have returned count for the fences of its cell (R114, R116). -/
def engObserve (s : State) (key : Nat) (ids : List Nat) : State :=
  if ids.isEmpty then s
  else
    let c := cellAt s key
    let f (st : Stream) : Stream := { st with obs := (st.obs ++ ids).eraseDups }
    setCell s key { c with ss := f c.ss, sl := f c.sl, sc := f c.sc, sw := f c.sw }

/-- An element as it stands in memory is used, or is an invalid INT3 container (R132). -/
def intake (fmt v : Nat) (s : State) : Except Nat (Nat × State) :=
  if fmt = 8 ∧ v / 8 % 2 ≠ v / 4 % 2 then .error cFormat else .ok (v, s)

/-- Reads one element for an operation (R74, R83, R98, R109, R70): through the sector buffer of the cell, or, for a bank
operation, at its home (R334, R335). -/
def engReadAt (home : Bool) (s : State) (o : Op) (a : Word) (eb : Nat) : Except Nat (Nat × State) :=
  let ctx := opCtx s o
  let t := tidOf a
  if t = 0xFFFF then
    match spOwner s o.key a (eb / 8) with
    | none => .error cAddr
    | some y =>
      if spadBad s y (spOff a) (eb / 8) then .error cMemErr else .ok (ofBytes (spadBytes s o.key y (spOff a) (eb / 8)), s)
  else match descFor s ctx t with
    | none => .error cAddr
    | some d =>
      if d.count ≤ idxOf a then .error cAddr
      else
        let (tile, bo) := d.locate (idxOf a)
        let sec := bo / 256
        let el (v : BitVec 256) : Nat := (v.toNat / 2 ^ (bo % 256)) % 2 ^ eb
        if !leased s o.key ctx t tile false then .error cLease
        else if (peerOf s ctx t).isSome then
          (match gotOf o a 0 with
            | some v => intake d.fmt (v % 2 ^ eb) s
            | none => .error (askCode a 0 ((eb + 7) / 8)))
        else match (if home then none else (sectsOf s o.key).find? fun e => decide (e.tens = t ∧ e.tile = tile ∧ e.sec = sec)) with
          | some e => intake d.fmt (el e.data) (engObserve s o.key e.saw)
          | none =>
            if sectorBad s (entryOf s ctx t tile) (bo / 8) then .error cMemErr
            else if home then
              let (v, ids) := dieSector s o.key ctx t tile sec
              intake d.fmt (el v) (engObserve (hotSample s ctx t tile) o.key ids)
            else
              let own := (combined s o.key t tile sec).isNone
              let (v, ids) := (combined s o.key t tile sec).getD (cellSector s s.nextId o.key ctx t tile sec)
              let s := sectFill (if own then hotSample s ctx t tile else s) o.key { tens := t, tile := tile, sec := sec, data := v, saw := ids }
              intake d.fmt (el v) (engObserve s o.key ids)

/-- Reads one element for an operation of the cell, unless the operation has read it before its turn (R112). -/
def engRead (s : State) (o : Op) (a : Word) (eb : Nat) : Except Nat (Nat × State) :=
  match o.early.find? fun x => decide (x.1 = a ∧ x.2.1 = eb) with
  | some x => .ok (x.2.2, s)
  | none => engReadAt false s o a eb

/-- A landing of n bytes on the barrier of an operation (R235), or its fault's code. -/
def opLand (s : State) (o : Op) (n : Nat) : Except Nat State := barLanded s o.key o.bar n

/-- Bytes that element k of count counts for on the barrier: two 4-bit elements make one byte. DESIGN CHOICE, log 75: the last
of an odd number of 4-bit elements counts for one. -/
def landCount (eb k count : Nat) : Nat := if 8 ≤ eb then eb / 8 else if k % 2 = 1 ∨ k + 1 = count then 1 else 0

/-- The bytes of n elements from element k of count on. -/
def landSpan (eb k n count : Nat) : Nat := (List.range n).foldl (fun b i => b + landCount eb (k + i) count) 0

/-- R121: the writes of an operation are visible at DIE scope, its reads have returned, and its accesses to other packages
are answered. -/
def opVisible (s : State) (id : Nat) : Bool :=
  s.reqs.all fun p => decide (p.2.op ≠ id) || (!p.2.peer && (if p.2.kind = .store then decide (p.2.out ≠ 0) else p.2.applied))

/-- The request of an operation. -/
def opReq (s : State) (id : Nat) (o : Op) (kind : ReqKind) (a : Word) : Req :=
  { kind := kind, key := o.key, seq := o.seq, op := id, reg := o.reg, ctx := opCtx s o, pc := o.pc, addr := a, n := 1, bar := o.bar,
    peer := (peerOf s (opCtx s o) (tidOf a)).isSome }

/-- Writes one element for an operation; `land` bytes count on its barrier once the write is visible. -/
def engWrite (s : State) (id : Nat) (o : Op) (a : Word) (eb v land : Nat) : Except Nat State :=
  let ctx := opCtx s o
  let t := tidOf a
  if t = 0xFFFF then
    match spOwner s o.key a (eb / 8) with
    | none => .error cAddr
    | some y =>
      match spadWrite s o.key y (spOff a) (toBytes (eb / 8) v) with
      | .error c => .error c
      | .ok s => opLand s o land
  else match descFor s ctx t with
    | none => .error cAddr
    | some d =>
      if d.count ≤ idxOf a then .error cAddr
      else if !leased s o.key ctx t (d.locate (idxOf a)).1 true then .error cLease
      else
        let r := { opReq s id o .store a with n := Nat.max 1 (eb / 8), data := v, data2 := land, sext := decide (eb = 4) }
        .ok (sectStoreReq (sendReq s r) r)

/-- Applies one atomic addition without a reply for an operation (R123, R124, R317, R333). -/
def engAtomic (s : State) (id : Nat) (o : Op) (kind : ReqKind) (a : Word) (n v land : Nat) : Except Nat State :=
  let ctx := opCtx s o
  let t := tidOf a
  match descFor s ctx t with
  | none => .error cAddr
  | some d =>
    if d.count ≤ idxOf a then .error cAddr
    else
      let (tile, bo) := d.locate (idxOf a)
      if !leased s o.key ctx t tile true then .error cLease
      else
        let r := { opReq s id o kind a with n := n, data := v, data2 := land, use := 1 }
        let s := sectDrop (sendReq s r) o.key t tile (bo / 8) n
        .ok (overtake s o.key fun q => sameSector s q r)

/-- FADDW of an FP32 lane (R95): a NaN or infinite lane does not leave the cell. -/
def engFaddw (s : State) (id : Nat) (o : Op) (a : Word) (v land : Nat) : Except Nat State :=
  match wideOf v with
  | none => .error cArith
  | some q => engAtomic s id o .faddw a 32 q land

-- Queues of operations (R225) ------------------------------------------------------------------------------------------------

/-- No earlier operation of the stream still delivers into the queue, and it has room. -/
def canEmit (s : State) (o : Op) : Bool :=
  !(s.ops.any fun x => decide (x.2.key = o.key) && decide (x.2.seq = o.seq) && decide (x.2.sink = some o.q) && decide (x.2.ord < o.ord))
    && decide ((qEnts s o.key o.q).length < qCap o.q)

/-- Appends an entry to the operation's destination. -/
def emit (s : State) (o : Op) (v : BitVec 2048) (mark : Bool) : State :=
  setQ s o.key o.q (qEnts s o.key o.q ++ [mkQEntry o.q v mark])

/-- The oldest entry of the operation's source, if it is the operation's turn and there is one. -/
def takeNext (s : State) (o : Op) (q : Nat) : Option (QEntry × State) :=
  if s.ops.any fun x => decide (x.2.key = o.key) && decide (x.2.seq = o.seq) && decide (x.2.source = some q) && decide (x.2.ord < o.ord)
  then none
  else match qEnts s o.key q with
    | [] => none
    | e :: es => some (e, setQ s o.key q es)

/-- The last steps of an operation that delivers entries: its marker, then its end. -/
def finish (s : State) (o : Op) : Adv :=
  if o.mark then
    if canEmit s o then .go (emit s o 0 true) { o with mark := false, units := true } else .wait
  else .go s { o with units := true }

/-- Puts element bits into a lane of the entry under assembly. -/
def putLane (o : Op) (eb v : Nat) : Op :=
  { o with ebuf := o.ebuf ||| BitVec.ofNat 2048 ((v % 2 ^ eb) * 2 ^ (o.lane * eb)), lane := o.lane + 1 }

/-- Emits the entry under assembly, which ends before element k of count. -/
def emitBuf (s : State) (o : Op) (eb k count : Nat) : Adv :=
  if canEmit s o then
    match opLand (emit s o o.ebuf false) o (landSpan eb (k - o.lane) o.lane count) with
    | .ok s => .go s { o with ebuf := 0, lane := 0 }
    | .error c => .bad s c o.bar
  else .wait

/-- Takes the next entry of a source whose markers are format faults. -/
def takeBuf (s : State) (o : Op) (q : Nat) : Adv :=
  match takeNext s o q with
  | none => .wait
  | some (e, s) => if e.mark then .bad s cFormat 0 else .go s { o with ebuf := e.data, lane := 0, hold := true, left := o.left - 1 }

-- Access operations (R230 to R238) ----------------------------------------------------------------------------------------------

/-- RDQ into a memory-fed queue (R222, R230). -/
def rdqUnit (s : State) (o : Op) : Adv :=
  let eb := patBits s (opCtx s o) o.ds
  let lanes := qBits o.q / eb
  let n := patCount o.ds
  if o.pos = n then (if 0 < o.lane then emitBuf s o eb o.pos n else finish s o)
  else if o.lane = lanes ∨ (patAlign o.ds ∧ patRow o.ds o.pos ∧ 0 < o.lane) then emitBuf s o eb o.pos n
  else
    let a := patAddr s (opCtx s o) o.ds o.pos
    match engRead s o a eb with
    | .error c => .bad s c a
    | .ok (v, s) => .go s { putLane o eb v with pos := o.pos + 1 }

/-- The elements of one entry of a schedule-fed RDQ: values from element k on, with lanes filled so far. -/
def rdqEntry (s : State) (o : Op) (eb : Nat) : Nat → Op → Except Nat (Op × State)
  | 0, p => .ok (p, s)
  | n + 1, p =>
    if p.pos = patCount o.ds ∨ p.lane = qBits o.q / eb ∨ (patAlign o.ds ∧ patRow o.ds p.pos ∧ 0 < p.lane) then .ok (p, s)
    else match engRead s o (patAddr s (opCtx s o) o.ds p.pos) eb with
      | .error c => .error c
      | .ok (v, s) => rdqEntry s o eb n { putLane p eb v with pos := p.pos + 1 }

/-- The end of a schedule-fed RDQ, in the cycle of its last landing; until then it is outstanding (R224). -/
def rdqEnd (s : State) (id : Nat) (o : Op) (due : Nat) : State :=
  addLatch s o.key { due := due, tgt := .opEnd o.kd, seq := o.seq, pc := o.pc, op := id }

/-- The bytes of an entry land on the barrier of their operation in the cycle in which the entry lands (R235). -/
def latchLand (s : State) (id : Nat) (o : Op) (due n : Nat) : State :=
  if o.bar = 0 ∨ n = 0 then s
  else match clusterCell o.key (spIdx o.bar) with
    | none => s
    | some y => addLatch s o.key { due := due, tgt := .barLand y (spOff o.bar) n, seq := o.seq, pc := o.pc, op := id }

/-- RDQ into a schedule-fed queue (R230): entry j is read at issue + j and lands at issue + 4 + j. DESIGN CHOICE, log 76: two of
them into one queue that overlap each land their entries at those cycles, so that their entries may interleave. -/
def rdqSchedUnit (s : State) (id : Nat) (o : Op) : Adv :=
  let eb := patBits s (opCtx s o) o.ds
  let t := o.lim + o.sub
  if (regAt s o.reg).tide < t then .wait
  else
    let lat (s : State) (v : BitVec 2048) (mk : Bool) : State :=
      addLatch s o.key { due := t + 4, tgt := .q o.q, val := v, mark := mk, seq := o.seq, pc := o.pc, op := id }
    if o.pos = patCount o.ds then
      .go (rdqEnd (if o.mark then lat s 0 true else s) id o (t + 4)) { o with units := true }
    else match rdqEntry s o eb (qBits o.q / eb + 1) { o with ebuf := 0, lane := 0 } with
      | .error c => .bad s c (patAddr s (opCtx s o) o.ds o.pos)
      | .ok (p, s) =>
        let s := latchLand (lat s p.ebuf false) id o (t + 4) (landSpan eb o.pos (p.pos - o.pos) (patCount o.ds))
        if p.pos = patCount o.ds ∧ !o.mark then .go (rdqEnd s id o (t + 4)) { o with units := true }
        else .go s { p with ebuf := 0, lane := 0, sub := o.sub + 1 }

/-- The address of packed element k from a scratchpad address (R231). -/
def packAddr (base : Word) (k eb : Nat) : Word := offAddr base ((k * eb / 8 : Nat) : Int) 8

/-- RDS (R231). -/
def rdsUnit (s : State) (id : Nat) (o : Op) : Adv :=
  let eb := patBits s (opCtx s o) o.ds
  let n := patCount o.ds
  if o.pos = n then .go s { o with units := true }
  else
    let a := patAddr s (opCtx s o) o.ds o.pos
    match engRead s o a eb with
    | .error c => .bad s c a
    | .ok (v, s) =>
      let dst := packAddr o.va o.pos eb
      if eb = 4 then
        let b := (match engRead s o dst 8 with | .ok (x, _) => x | .error _ => 0)
        let nb := if o.pos % 2 = 0 then b / 16 * 16 + v else b % 16 + v * 16
        match engWrite s id o dst 8 nb (landCount 4 o.pos n) with
        | .error c => .bad s c dst
        | .ok s => .go s { o with pos := o.pos + 1 }
      else match engWrite s id o dst eb v (eb / 8) with
        | .error c => .bad s c dst
        | .ok s => .go s { o with pos := o.pos + 1 }

/-- WRS (R231). -/
def wrsUnit (s : State) (id : Nat) (o : Op) : Adv :=
  let eb := patBits s (opCtx s o) o.ds
  let n := patCount o.ds
  if o.pos = n then .go s { o with units := true }
  else
    let src := packAddr o.va o.pos eb
    match engRead s o src (Nat.max 8 eb) with
    | .error c => .bad s c src
    | .ok (x, s) =>
      let v := if eb = 4 then (x / 16 ^ (o.pos % 2)) % 16 else x
      let a := patAddr s (opCtx s o) o.ds o.pos
      match engWrite s id o a eb v (landCount eb o.pos n) with
      | .error c => .bad s c a
      | .ok s => .go s { o with pos := o.pos + 1 }

/-- WRQ (R222, R232). -/
def wrqUnit (s : State) (id : Nat) (o : Op) : Adv :=
  let eb := patBits s (opCtx s o) o.ds
  let n := patCount o.ds
  if o.pos = n then .go s { o with units := true }
  else if o.hold ∧ (o.lane = qBits o.q / eb ∨ (patAlign o.ds ∧ patRow o.ds o.pos ∧ 0 < o.lane)) then .go s { o with hold := false }
  else if !o.hold then takeBuf s o o.q
  else
    let a := patAddr s (opCtx s o) o.ds o.pos
    match engWrite s id o a eb ((o.ebuf.toNat / 2 ^ (o.lane * eb)) % 2 ^ eb) (landCount eb o.pos n) with
    | .error c => .bad s c a
    | .ok s => .go s { o with pos := o.pos + 1, lane := o.lane + 1 }

/-- CPY (R233). -/
def cpyUnit (s : State) (id : Nat) (o : Op) : Adv :=
  let eb := patBits s (opCtx s o) o.ds
  let n := patCount o.ds
  if o.pos = n then .go s { o with units := true }
  else
    let a := patAddr s (opCtx s o) o.ds o.pos
    let b := patAddr s (opCtx s o) o.dt o.pos
    match engRead s o a eb with
    | .error c => .bad s c a
    | .ok (v, s) =>
      match engWrite s id o b eb v (landCount eb o.pos n) with
      | .error c => .bad s c b
      | .ok s => .go s { o with pos := o.pos + 1 }

/-- The value of a row index of a pattern (R236). -/
def rowIndex (s : State) (o : Op) (eb v : Nat) : Int :=
  let signed :=
    if tidOf (dw o.ds 0) = 0xFFFF then true
    else match descFor s (opCtx s o) (tidOf (dw o.ds 0)) with
      | some d => decide (d.fmt ≠ 4)
      | none => true
  if signed then sintNat eb v else (v : Int)

/-- Reads the next row index: the row is skipped, visited, or out of range (R236). The row goes to `acc` as a flag and an
offset. -/
def rowLoad (s : State) (o : Op) : Adv :=
  let eb := patBits s (opCtx s o) o.ds
  let a := patAddr s (opCtx s o) o.ds o.pos
  match engRead s o a eb with
  | .error c => .bad s c a
  | .ok (v, s) =>
    let x := rowIndex s o eb v
    if x < 0 then
      if o.fn / 2 % 2 = 1 then .go s { o with acc := [0, 1], sub := 0 } else .bad s cAddr o.va
    else .go s { o with acc := [BitVec.ofNat 64 x.toNat, 0], sub := 0 }

/-- The address of element j of the row held in `acc`. -/
def rowAddr (s : State) (o : Op) : Word :=
  let x : Nat := (o.acc.getD 0 0).toNat
  offAddr o.va ((x * bits o.vb 63 32 + o.sub : Nat) : Int) (elemBits s (opCtx s o) o.va (o.fn / 16 % 8))

/-- After an element of a row: the next element, or the next row. -/
def rowNext (o : Op) : Op :=
  if o.sub + 1 = bits o.vb 31 0 then { o with pos := o.pos + 1, sub := 0, acc := [] } else { o with sub := o.sub + 1 }

/-- GATH (R236, R237). -/
def gathUnit (s : State) (o : Op) : Adv :=
  let eb := elemBits s (opCtx s o) o.va (o.fn / 16 % 8)
  let row := bits o.vb 31 0
  let k := o.pos * row + o.sub
  let n := patCount o.ds * row
  if o.pos = patCount o.ds then (if 0 < o.lane then emitBuf s o eb k n else finish s o)
  else if o.acc.isEmpty then rowLoad s o
  else if o.lane = qBits o.q / eb ∨ (o.fn % 2 = 1 ∧ o.sub = 0 ∧ 0 < o.lane) then emitBuf s o eb k n
  else if o.acc.getD 1 0 = 1 then .go s (rowNext (putLane o eb 0))
  else
    let a := rowAddr s o
    match engRead s o a eb with
    | .error c => .bad s c a
    | .ok (v, s) => .go s (rowNext (putLane o eb v))

/-- The last unit of a SCAT: an odd 4-bit element counts on the barrier when all is visible (R235). -/
def scatEnd (s : State) (id : Nat) (o : Op) (eb : Nat) : Adv :=
  if o.bar = 0 ∨ 8 ≤ eb ∨ o.lim % 2 = 0 then .go s { o with units := true }
  else if !opVisible s id then .wait
  else match opLand s o 1 with
    | .ok s => .go s { o with units := true }
    | .error c => .bad s c o.bar

/-- SCAT (R236, R238); `lim` counts the elements written. -/
def scatUnit (s : State) (id : Nat) (o : Op) : Adv :=
  let opk := o.fn / 4 % 4
  let tb := elemBits s (opCtx s o) o.va (o.fn / 16 % 8)
  let eb := if opk = 1 then 32 else tb
  if o.pos = patCount o.ds then scatEnd s id o eb
  else if o.acc.isEmpty then rowLoad s o
  else if o.hold ∧ (o.lane = qBits o.q / eb ∨ (o.fn % 2 = 1 ∧ o.sub = 0 ∧ 0 < o.lane)) then .go s { o with hold := false }
  else if !o.hold then takeBuf s o o.q
  else
    let v := (o.ebuf.toNat / 2 ^ (o.lane * eb)) % 2 ^ eb
    let o' := { rowNext o with lane := o.lane + 1 }
    if o.acc.getD 1 0 = 1 then .go s o'
    else
      let a := rowAddr s o
      let res : Except Nat State :=
        if opk = 0 then engWrite s id o a eb v (if 8 ≤ eb then eb / 8 else o.lim % 2)
        else if opk = 1 then engFaddw s id o a v 32
        else engAtomic s id o (.amo 0) a (eb / 8) v (eb / 8)
      match res with
      | .error c => .bad s c a
      | .ok s => .go s { o' with lim := o.lim + 1 }

-- Whole tiles (R60, R79, R211, R332) -------------------------------------------------------------------------------------------------

/-- The sector `sec` of a tile with 0 at every position outside the extents (R79). -/
def maskSector (d : Desc) (tile sec v : Nat) : Nat :=
  let w := fmtBits d.fmt
  packL w ((unpackL w (256 / w) v).zipIdx.map fun p => if (d.elemAt tile (sec * (256 / w) + p.2)).isSome then p.1 else 0)

/-- The place of the tile that contains the element an address names. -/
def tilePlace (s : State) (o : Op) (a : Word) (wr : Bool) : Except Nat (Desc × Nat) :=
  match (if tidOf a = 0xFFFF then none else descFor s (opCtx s o) (tidOf a)) with
  | none => .error cAddr
  | some d =>
    if d.count ≤ idxOf a then .error cAddr
    else
      let tile := (d.locate (idxOf a)).1
      if !leased s o.key (opCtx s o) (tidOf a) tile wr then .error cLease else .ok (d, tile)

/-- One sector of a tile as a copy engine reads it. DESIGN CHOICE, log 103: a whole sector is moved as it stands, and the containers of
an INT3 tensor are not checked. -/
def tileRead (s : State) (o : Op) (a : Word) (sec : Nat) : Except Nat (Nat × State) :=
  match tilePlace s o a false with
  | .error c => .error c
  | .ok (d, tile) =>
    let ctx := opCtx s o
    let t := tidOf a
    if (peerOf s ctx t).isSome then
      (match gotOf o a (sec + 1) with
        | some v => .ok (maskSector d tile sec v, s)
        | none => .error (askCode a (sec + 1) 32))
    else if sectorBad s (entryOf s ctx t tile) (32 * sec) then .error cMemErr
    else
      let (v, ids) := dieSector s o.key ctx t tile sec
      .ok (maskSector d tile sec v.toNat, engObserve (hotSample s ctx t tile) o.key ids)

/-- No store of the die to a sector is on its way to the home. -/
def sectorClear (s : State) (key ctx tens tile sec : Nat) : Bool :=
  !((dieStores s (dieOf key)).any fun p => touches s p.2 ctx tens tile sec)

/-- One sector of a tile is written at its home, once no store of the die is on its way to it; to a peer tile it is sent. -/
def tileWrite (s : State) (id : Nat) (o : Op) (a : Word) (sec v : Nat) : Except Nat (Option State) :=
  match tilePlace s o a true with
  | .error c => .error c
  | .ok (d, tile) =>
    let ctx := opCtx s o
    let t := tidOf a
    if (peerOf s ctx t).isSome then
      .ok (some (sendReq s { opReq s id o .store a with n := 32, data := maskSector d tile sec v, sec := some sec }))
    else if baseFailed s (entryOf s ctx t tile) then .error cMemErr
    else if !sectorClear s o.key ctx t tile sec then .ok none
    else
      let x := maskSector d tile sec v
      let s := hotSample (homeWrite s ctx t tile (32 * sec) (toBytes 32 x)) ctx t tile
      let s := setSects s o.key ((sectsOf s o.key).map fun e =>
        if e.tens = t ∧ e.tile = tile ∧ e.sec = sec then { e with data := BitVec.ofNat 256 x } else e)
      .ok (some (overtake s o.key fun q => touches s q ctx t tile sec))

/-- One sector from a tile to a tile; the number of sectors is that of the destination. DESIGN CHOICE, log 103: bytes keep their places
whatever the two LORD say. -/
def copyUnit (s : State) (id : Nat) (o : Op) (src dst : Word) : Adv :=
  match tilePlace s o dst true with
  | .error c => .bad s c dst
  | .ok (d, _) =>
    if d.tileBytes / 32 ≤ o.pos then .go s { o with units := true, reply := BitVec.ofNat 64 d.tileBytes }
    else match tileRead s o src o.pos with
      | .error c => .bad s c src
      | .ok (v, s) =>
        match tileWrite s id o dst o.pos v with
        | .error c => .bad s c dst
        | .ok none => .wait
        | .ok (some s) => .go s { o with pos := o.pos + 1 }

/-- One sector of a tile filled with a value (R211, R332). -/
def fillUnit (s : State) (id : Nat) (o : Op) (dst : Word) (v : Word) : Adv :=
  match tilePlace s o dst true with
  | .error c => .bad s c dst
  | .ok (d, _) =>
    if d.tileBytes / 32 ≤ o.pos then .go s { o with units := true, reply := BitVec.ofNat 64 d.tileBytes }
    else
      let w := fmtBits d.fmt
      let x := if d.fmt = 14 then ofInt 256 v.toInt else packL w (List.replicate (256 / w) v.toNat)
      match tileWrite s id o dst o.pos x with
      | .error c => .bad s c dst
      | .ok none => .wait
      | .ok (some s) => .go s { o with pos := o.pos + 1 }

/-- The input tile of a task goes into the private window of its cell (R58). -/
def inputPlace (s : State) (o : Op) : Bool :=
  decide (o.kind ≠ .input) || decide ((cellAt s o.key).csr.shwin * 1024 ≤ spOff o.vb)

/-- One sector of a tile into a scratchpad: TLOAD and the input tiles of a task. -/
def tloadUnit (s : State) (o : Op) : Adv :=
  match tilePlace s o o.va false with
  | .error c => .bad s c o.va
  | .ok (d, _) =>
    let n := d.tileBytes
    if tidOf o.vb ≠ 0xFFFF ∨ !inputPlace s o then .bad s cAddr o.vb
    else match spOwner s o.key o.vb n with
      | none => .bad s cAddr o.vb
      | some y =>
        if n / 32 ≤ o.pos then .go s { o with units := true, reply := BitVec.ofNat 64 n }
        else match tileRead s o o.va o.pos with
          | .error c => .bad s c o.va
          | .ok (v, s) =>
            match spadWrite s o.key y (spOff o.vb + 32 * o.pos) (toBytes 32 v) with
            | .error c => .bad s c o.vb
            | .ok s => .go s { o with pos := o.pos + 1 }

/-- TSTORE: one sector of a scratchpad range into a tile. -/
def tstoreUnit (s : State) (id : Nat) (o : Op) : Adv :=
  match tilePlace s o o.va true with
  | .error c => .bad s c o.va
  | .ok (d, _) =>
    let n := d.tileBytes
    if tidOf o.vb ≠ 0xFFFF then .bad s cAddr o.vb
    else match spOwner s o.key o.vb n with
      | none => .bad s cAddr o.vb
      | some y =>
        if n / 32 ≤ o.pos then .go s { o with units := true, reply := BitVec.ofNat 64 n }
        else if spadBad s y (spOff o.vb + 32 * o.pos) 32 then .bad s cMemErr o.vb
        else match tileWrite s id o o.va o.pos (ofBytes (spadBytes s o.key y (spOff o.vb + 32 * o.pos) 32)) with
          | .error c => .bad s c o.va
          | .ok none => .wait
          | .ok (some s) => .go s { o with pos := o.pos + 1 }

/-- TCOPY and BCPY need equal formats and tile extents (R211, R332). -/
def sameShape (s : State) (o : Op) (a b : Word) : Bool :=
  match descFor s (opCtx s o) (tidOf a), descFor s (opCtx s o) (tidOf b) with
  | some x, some y => decide (x.fmt = y.fmt ∧ x.tile = y.tile)
  | _, _ => true

/-- TCOPY. -/
def tcopyUnit (s : State) (id : Nat) (o : Op) : Adv :=
  if tidOf o.va ≠ 0xFFFF ∧ tidOf o.vb ≠ 0xFFFF ∧ !sameShape s o o.va o.vb then .bad s cFormat o.va else copyUnit s id o o.va o.vb

-- The grammar engine (R306 to R318) -----------------------------------------------------------------------------------------------------

/-- A 32-bit word of the cell's own scratchpad, or the fault: it lies outside, or has an uncorrectable error (R83). -/
def w32 (s : State) (key off : Nat) : Except Nat Nat :=
  if spadSize key < off + 4 then .error cAddr
  else if spadBad s key off 4 then .error cMemErr
  else .ok (ofBytes (spadBytes s key key off 4))

/-- Replaces the grammar state of a cell. -/
def setGs (s : State) (key : Nat) (g : GsState) : State := setCell s key { cellAt s key with gs := g }

/-- R306, Table 2: a block header. -/
def headerOk (h : List Word) : Bool :=
  let w0 := h.getD 0 0
  let w2 := h.getD 2 0
  let w3 := h.getD 3 0
  decide (bits w0 16 0 ≤ 65536 ∧ bits w0 63 18 = 0 ∧ bits w2 31 19 = 0 ∧ bits w2 63 51 = 0 ∧ bits w3 63 51 = 0)
    && decide (bits w2 18 0 % 4 = 0 ∧ bits w2 50 32 % 4 = 0 ∧ bits w3 50 32 % 4 = 0)
    && (decide (bits w0 17 17 = 0) || decide (bits w2 50 32 = 0))
    && decide (h.getD 4 0 = 0 ∧ h.getD 5 0 = 0 ∧ h.getD 6 0 = 0 ∧ h.getD 7 0 = 0)

/-- R321, Table 8: a walk descriptor. -/
def walkOk (h : List Word) : Bool :=
  let w0 := h.getD 0 0
  let w1 := h.getD 1 0
  decide (bits w0 63 32 = 0 ∧ 1 ≤ bits w1 15 0 ∧ 1 ≤ bits w1 24 16 ∧ bits w1 24 16 ≤ 256 ∧ bits w1 63 25 = 0)
    && decide (h.getD 2 0 = 0 ∧ h.getD 3 0 = 0)

/-- n words of the cell's own scratchpad. -/
def spadWords (s : State) (key off n : Nat) : List Word :=
  (List.range n).map fun j => BitVec.ofNat 64 (ofBytes (spadBytes s key key (off + 8 * j) 8))

/-- GSET (R312). -/
def gsetUnit (s : State) (o : Op) : Adv :=
  let g := (cellAt s o.key).gs
  let v := o.va
  let done (g : GsState) : Adv := .go (setGs s o.key g) { o with units := true }
  match o.fn with
  | 0 =>
    let off := bits v 18 0
    if bits v 63 19 ≠ 0 ∨ off % 64 ≠ 0 then .bad s cFormat 0
    else if spadSize o.key < off + 64 then .bad s cAddr 0
    else if spadBad s o.key off 64 then .bad s cMemErr 0
    else
      let h := spadWords s o.key off 8
      if headerOk h then done { g with gbh := some h, rvlim := 0, rpos := 0 } else .bad s cFormat 0
  | 1 =>
    if bits v 4 0 = 0 ∨ 16 < bits v 4 0 ∨ bits v 31 5 ≠ 0 ∨ bits v 50 32 % 4 ≠ 0 ∨ bits v 63 51 ≠ 0 then .bad s cFormat 0
    else done { g with batchB := bits v 4 0, xbase := bits v 50 32, rvlim := 0, rpos := 0 }
  | 2 =>
    let off := bits v 18 0
    if bits v 63 19 ≠ 0 ∨ off % 32 ≠ 0 then .bad s cFormat 0
    else if spadSize o.key < off + 32 then .bad s cAddr 0
    else if spadBad s o.key off 32 then .bad s cMemErr 0
    else
      let h := spadWords s o.key off 4
      if walkOk h then done { g with gwalk := some h } else .bad s cFormat 0
  | _ =>
    if v ≠ 0 ∧ (barAddr s o.key v).isNone then .bad s cAddr v else done { g with gsbar := v }

/-- The block that GBH latches. -/
structure Block where
  nrule : Nat
  pat   : Bool
  nrow  : Nat
  ncol  : Nat
  sym   : Nat
  val   : Nat
  rsym  : Nat
  row   : Nat

/-- The fields of a latched header. -/
def blockOf (h : List Word) : Block :=
  { nrule := bits (h.getD 0 0) 16 0, pat := (h.getD 0 0).getLsbD 17, nrow := bits (h.getD 1 0) 31 0,
    ncol := bits (h.getD 1 0) 63 32, sym := bits (h.getD 2 0) 18 0, val := bits (h.getD 2 0) 50 32,
    rsym := bits (h.getD 3 0) 31 0, row := bits (h.getD 3 0) 50 32 }

/-- term(p, s, b) of R313: the FP32 value, or the fault. -/
def gterm (s : State) (o : Op) (g : GsState) (b : Block) (p sy vec : Nat) : Except Nat Nat :=
  if 2 ^ 31 ≤ sy then
    let n := (sy - 2 ^ 31) * g.batchB + vec
    if (cellAt s o.key).ecc.contains (2, n) then .error cMemErr else .ok (sget 0 g.rv n).toNat
  else if b.ncol ≤ sy then .error cAddr
  else match w32 s o.key (g.xbase + 4 * (sy * g.batchB + vec)) with
    | .error e => .error e
    | .ok v =>
      if b.pat then .ok v
      else match w32 s o.key (b.val + 4 * p) with
        | .error e => .error e
        | .ok c => .ok (f32mul c v)

/-- The sums of a symbol's terms into the accumulators of all vectors. -/
def gadd (s : State) (o : Op) (g : GsState) (b : Block) (p sy : Nat) (first : Bool) : List Nat → Nat → Except Nat (List Nat)
  | [], _ => .ok []
  | a :: as, vec =>
    match gterm s o g b p sy vec with
    | .error c => .error c
    | .ok t =>
      match gadd s o g b p sy first as (vec + 1) with
      | .error c => .error c
      | .ok r => .ok ((if first then t else f32add a t) :: r)

/-- How a run over symbols ends: the accumulators and the largest depth, or a fault with the rule id it names. -/
inductive GRun
  | ok (acc : List Nat) (cd : Nat)
  | bad (code id : Nat)

/-- The symbols at positions p, p + 1, …: references at or above lim are rule-order faults (R313, R314). -/
def grun (s : State) (o : Op) (g : GsState) (b : Block) (lim : Nat) : Nat → Nat → Bool → List Nat → Nat → GRun
  | 0, _, _, acc, cd => .ok acc cd
  | n + 1, p, first, acc, cd =>
    match w32 s o.key (b.sym + 4 * p) with
    | .error e => .bad e 0
    | .ok sy =>
      let ref := decide (2 ^ 31 ≤ sy)
      let id := sy - 2 ^ 31
      if ref && decide (lim ≤ id) then .bad cRuleOrder id
      else
        let cd := if ref then Nat.max cd (sget 0 g.depth id + 1) else cd
        match gadd s o g b p sy first acc 0 with
        | .error c => .bad c 0
        | .ok acc => grun s o g b lim n (p + 1) false acc cd

/-- A grammar fault leaves its mark in GRSTAT (R311). DESIGN CHOICE, log 104: FRULE shows the low 16 bits of a larger id. -/
def gfault (s : State) (o : Op) (code rule dep : Nat) : Adv :=
  let g := (cellAt s o.key).gs
  .bad (setGs s o.key { g with flt := true, frule := BitVec.ofNat 16 rule, fdep := BitVec.ofNat 4 dep }) code 0

/-- A saturating 32-bit count. -/
def satInc (v : BitVec 32) : BitVec 32 := if v = 0xFFFFFFFF then v else v + 1

/-- Rule values that are written have no error any more (R83). -/
def healRv (s : State) (key first n : Nat) : State :=
  let c := cellAt s key
  if c.ecc.isEmpty then s
  else setCell s key { c with ecc := c.ecc.filter fun x => !(decide (x.1 = 2) && decide (first ≤ x.2) && decide (x.2 < first + n)) }

/-- GRULE: one rule (R313). DESIGN CHOICE, log 104: with GBH invalid, where no rule is being evaluated, FRULE shows RVLIM. -/
def gruleUnit (s : State) (o : Op) : Adv :=
  let g := (cellAt s o.key).gs
  match g.gbh with
  | none => gfault s o cFormat g.rvlim 0
  | some h =>
    let b := blockOf h
    if o.va.toNat ≤ o.pos then .go s { o with units := true }
    else
      let n := g.rvlim
      if Nat.min b.nrule (65536 / g.batchB) ≤ n then gfault s o cFormat n 0
      else match w32 s o.key (b.sym + 4 * g.rpos) with
        | .error e => gfault s o e n 0
        | .ok hd =>
          let len := hd % 65536
          let dep := hd / 65536 % 16
          if hd / 2 ^ 20 ≠ 0 ∨ len = 0 ∨ dep = 0 ∨ b.rsym < g.rpos + 1 + len then gfault s o cFormat n 0
          else if o.lim < dep then gfault s o cRuleDepth n dep
          else match grun s o g b n len (g.rpos + 1) true (List.replicate g.batchB 0) 1 with
            | .bad c id => gfault s o c (if c = cRuleOrder then id else n) 0
            | .ok acc cd =>
              if cd ≠ dep then gfault s o cFormat n 0
              else
                let rv := acc.zipIdx.foldl (fun m p => sput (0 : BitVec 32) m (n * g.batchB + p.2) (BitVec.ofNat 32 (f32canon p.1))) g.rv
                let g := { g with
                  rv := rv, depth := sset g.depth n dep, rpos := g.rpos + 1 + len, rvlim := n + 1, rules := satInc g.rules }
                .go (setGs (healRv s o.key (n * g.batchB) g.batchB) o.key g)
                  { o with pos := o.pos + 1 }

/-- GROW: one row (R314). -/
def growUnit (s : State) (o : Op) : Adv :=
  let g := (cellAt s o.key).gs
  match g.gbh with
  | none => gfault s o cFormat 0 0
  | some h =>
    let b := blockOf h
    if o.vb.toNat ≤ o.pos then finish s o
    else
      let rw := o.va.toNat + o.pos
      if b.nrow ≤ rw then gfault s o cAddr 0 0
      else match w32 s o.key (b.row + 4 * rw), w32 s o.key (b.row + 4 * rw + 4) with
        | .ok p0, .ok p1 =>
          if p0 < b.rsym ∨ p1 < p0 then gfault s o cFormat 0 0
          else match grun s o g b g.rvlim (p1 - p0) p0 true (List.replicate g.batchB 0) 1 with
            | .bad c id => gfault s o c (if c = cRuleOrder then id else 0) 0
            | .ok acc _ =>
              if canEmit s o then
                .go (setGs (emit s o (BitVec.ofNat 2048 (packL 32 (acc.map f32canon))) false) o.key { g with rows := satInc g.rows })
                  { o with pos := o.pos + 1 }
              else .wait
        | .error e, _ | _, .error e => gfault s o e 0 0

/-- GSEG (R316): at its beginning the segment count is read and the array checked; at the beginning of a segment its length is
read; then one entry is taken, or one entry appended. `acc` holds the count and the length. -/
def gsegUnit (s : State) (o : Op) : Adv :=
  let off := o.vb.toNat
  let size := spadSize o.key
  match o.acc with
  | [] =>
    if off % 4 ≠ 0 then .bad s cFormat 0
    else (match w32 s o.key off with
      | .error e => .bad s e 0
      | .ok nseg => if size < off + 4 + 4 * nseg then .bad s cAddr 0 else .go s { o with acc := [BitVec.ofNat 64 nseg] })
  | [nseg] =>
    if nseg.toNat ≤ o.pos then finish s o
    else (match w32 s o.key (off + 4 + 4 * o.pos) with
      | .error e => .bad s e 0
      | .ok len => .go s { o with acc := [nseg, BitVec.ofNat 64 len] })
  | nseg :: len :: _ =>
        if o.sub < len.toNat then
          match takeNext s o o.q2 with
          | none => .wait
          | some (e, s) =>
            if e.mark then .bad s cFormat 0
            else
              let v := unpackL 32 16 e.data.toNat
              let a := if o.sub = 0 then v.map f32canon else ((unpackL 32 16 o.ebuf.toNat).zip v).map fun p => f32add p.1 p.2
              .go s { o with ebuf := BitVec.ofNat 2048 (packL 32 a), sub := o.sub + 1 }
        else if canEmit s o then .go (emit s o o.ebuf false) { o with ebuf := 0, sub := 0, pos := o.pos + 1, acc := [nseg] }
        else .wait

/-- GSCAT: one lane (R317). -/
def gscatUnit (s : State) (id : Nat) (o : Op) : Adv :=
  if bits o.vb 31 0 ≤ o.pos then .go s { o with units := true }
  else if !o.hold then takeBuf s o o.q2
  else if o.lim ≤ o.lane then .go s { o with hold := false, pos := o.pos + 1 }
  else
    let v := (o.ebuf.toNat / 2 ^ (32 * o.lane)) % 2 ^ 32
    let a := taddr (tidOf o.va) (idxOf o.va + o.pos * bits o.vb 63 32 + o.lane)
    match engFaddw s id o a v 32 with
      | .error c => .bad s c a
      | .ok s => .go s { o with lane := o.lane + 1 }

/-- GLOAD: one byte (R318). -/
def gloadUnit (s : State) (o : Op) : Adv :=
  if bits o.vb 31 0 ≤ o.pos then .go s { o with units := true }
  else
    let a := taddr (tidOf o.va) (idxOf o.va + o.pos)
    match engRead s o a 8 with
    | .error c => .bad s c a
    | .ok (v, s) =>
      match spadWrite s o.key o.key (bits o.vb 50 32 + o.pos) [BitVec.ofNat 8 v] with
      | .error c => .bad s c 0
      | .ok s => .go s { o with pos := o.pos + 1 }

-- Walks and samples (R321 to R323) ----------------------------------------------------------------------------------------------------------

/-- An integer element of OFF or NBR, read at its home (R323). -/
def graphElem (s : State) (o : Op) (tens : Nat) (i : Int) : Except Nat (Int × State) :=
  match descFor s (opCtx s o) tens with
  | none => .error cAddr
  | some d =>
    if i < 0 ∨ (d.count : Int) ≤ i then .error cAddr
    else
      let eb := fmtBits d.fmt
      match engReadAt true s o (taddr tens i.toNat) eb with
      | .error c => .error c
      | .ok (v, s) => .ok (if d.fmt = 4 then (v : Int) else sintNat eb v, s)

/-- OFF[v] and the degree of a node (R322). -/
def nodeOf (s : State) (o : Op) (v : Int) : Except Nat (Int × Nat × State) :=
  let offt := bits (dw o.ds 0) 15 0
  match descFor s (opCtx s o) offt with
  | none => .error cAddr
  | some d =>
    if v < 0 ∨ (d.count : Int) - 1 ≤ v then .error cAddr
    else match graphElem s o offt v with
      | .error c => .error c
      | .ok (a, s) =>
        match graphElem s o offt (v + 1) with
        | .error c => .error c
        | .ok (b, s) => if b - a < 0 ∨ (2 ^ 32 : Int) ≤ b - a then .error cFormat else .ok (a, (b - a).toNat, s)

/-- A neighbour of node v drawn with a seed, with o and deg of v; none for a node of degree 0. -/
def drawFrom (s : State) (o : Op) (v a : Int) (deg : Nat) (seed : Word) : Except Nat (Option Int × State) :=
  if deg = 0 then .ok (none, s)
  else match graphElem s o (bits (dw o.ds 0) 31 16) (a + (bounded (m64 (BitVec.ofNat 64 (ofInt 64 v)) seed) deg).toNat) with
    | .error c => .error c
    | .ok (x, s) => .ok (some x, s)

/-- A neighbour of a node drawn with a seed. -/
def drawNode (s : State) (o : Op) (v : Int) (seed : Word) : Except Nat (Option Int × State) :=
  match nodeOf s o v with
  | .error c => .error c
  | .ok (a, deg, s) => drawFrom s o v a deg seed

/-- WALK: one step (R322). The node stands in `reply`. -/
def walkUnit (s : State) (o : Op) : Adv :=
  let o := if o.pos = 0 ∧ !o.hold then { o with reply := o.va, hold := true } else o
  if bits (dw o.ds 1) 15 0 ≤ o.pos then finish s o
  else if !canEmit s o then .wait
  else
    let v := o.reply.toInt
    match (if v = -1 then .ok (none, s) else drawNode s o v (o.vb + BitVec.ofNat 64 (o.pos + 1))) with
    | .error c => .bad s c (taddr (bits (dw o.ds 0) 15 0) 0)
    | .ok (x, s) =>
      let w : Word := match x with
        | some i => BitVec.ofInt 64 i
        | none => BitVec.allOnes 64
      .go (emit s o (w.setWidth 2048) false) { o with reply := w, pos := o.pos + 1 }

/-- SAMPLE (R322): o and deg of the node are read once, into `acc`; then one draw. -/
def sampleUnit (s : State) (o : Op) : Adv :=
  let at_ := taddr (bits (dw o.ds 0) 15 0) 0
  match o.acc with
  | a :: deg :: _ =>
    if bits (dw o.ds 1) 24 16 ≤ o.pos then finish s o
    else if !canEmit s o then .wait
    else (match drawFrom s o o.va.toInt a.toInt deg.toNat (o.vb + BitVec.ofNat 64 o.pos) with
      | .error c => .bad s c at_
      | .ok (x, s) =>
        let w : Word := match x with
          | some i => BitVec.ofInt 64 i
          | none => BitVec.allOnes 64
        .go (emit s o (w.setWidth 2048) false) { o with pos := o.pos + 1 })
  | _ =>
    match nodeOf s o o.va.toInt with
    | .error c => .bad s c at_
    | .ok (a, deg, s) => .go s { o with acc := [BitVec.ofInt 64 a, BitVec.ofNat 64 deg] }

-- Bank operations (R331 to R334) --------------------------------------------------------------------------------------------------------------

/-- The bytes of line i of a byte tensor, lowest first. -/
def lineRead (s : State) (o : Op) (i : Nat) : Nat → Except Nat (List Nat × State)
  | 0 => .ok ([], s)
  | n + 1 =>
    match lineRead s o i n with
    | .error c => .error c
    | .ok (l, s) =>
      match engReadAt true s o (taddr (tidOf o.va) (idxOf o.va + 64 * i + n)) 8 with
      | .error c => .error c
      | .ok (v, s) => .ok (l ++ [v], s)

/-- BLD: one line (R331). -/
def bldUnit (s : State) (o : Op) : Adv :=
  if o.vb.toNat ≤ o.pos then finish s o
  else if !canEmit s o then .wait
  else match lineRead s o o.pos 64 with
    | .error c => .bad s c (taddr (tidOf o.va) (idxOf o.va + 64 * o.pos))
    | .ok (l, s) => .go (emit s o (BitVec.ofNat 2048 (packL 8 l)) false) { o with pos := o.pos + 1 }

/-- The first n bytes of line i, lowest first: tile, sector, offset in the sector and address; a byte outside the tensor or the
leases is a fault. -/
def linePlaces (s : State) (o : Op) (i : Nat) : Nat → Except Nat (List (Nat × Nat × Nat × Word))
  | 0 => .ok []
  | n + 1 =>
    match linePlaces s o i n with
    | .error c => .error c
    | .ok l =>
      let a := taddr (tidOf o.va) (idxOf o.va + 64 * i + n)
      match descFor s (opCtx s o) (tidOf a) with
      | none => .error cAddr
      | some d =>
        if d.count ≤ idxOf a then .error cAddr
        else
          let (tile, bo) := d.locate (idxOf a)
          if !leased s o.key (opCtx s o) (tidOf a) tile true then .error cLease
          else .ok (l ++ [(tile, bo / 256, bo / 8 % 32, a)])

/-- The low 64 bytes of an entry written as line i: the bytes of one sector are one update (R89, R331). -/
def lineWrite (s : State) (id : Nat) (o : Op) (i v : Nat) : Except Nat State :=
  match linePlaces s o i 64 with
  | .error c => .error c
  | .ok l =>
    let xs := l.zipIdx.map fun p => (p.1, v / 2 ^ (8 * p.2) % 256)
    .ok ((xs.map fun x => (x.1.1, x.1.2.1)).eraseDups.foldl
      (fun s e =>
        match xs.filter fun x => decide ((x.1.1, x.1.2.1) = e) with
        | [] => s
        | x :: rest =>
          let r := { opReq s id o .store x.1.2.2.2 with
            data := x.2, line := rest.map fun y => (y.1.2.2.1, BitVec.ofNat 8 y.2) }
          sectStoreReq (sendReq s r) r) s)

/-- BST: one line (R331). -/
def bstUnit (s : State) (id : Nat) (o : Op) : Adv :=
  if o.vb.toNat ≤ o.pos then .go s { o with units := true }
  else if !o.hold then takeBuf s o o.q2
  else match lineWrite s id o o.pos o.ebuf.toNat with
    | .error c => .bad s c (taddr (tidOf o.va) (idxOf o.va + 64 * o.pos))
    | .ok s => .go s { o with pos := o.pos + 1, hold := false }

/-- BAMO: one lane (R333). -/
def bamoUnit (s : State) (id : Nat) (o : Op) : Adv :=
  let w := if o.mark then 64 else 32
  if bits o.vb 31 0 ≤ o.pos then .go s { o with units := true }
  else if !o.hold then takeBuf s o o.q2
  else if 512 / w ≤ o.lane then .go s { o with hold := false, pos := o.pos + 1 }
  else
    let v := (o.ebuf.toNat / 2 ^ (w * o.lane)) % 2 ^ w
    let a := taddr (tidOf o.va) (idxOf o.va + o.pos * bits o.vb 63 32 + o.lane)
    let res : Except Nat State :=
      if o.fn = 8 then engFaddw s id o a v 0
      else engAtomic s id o (.amo o.fn) a (w / 8) v 0
    match res with
    | .error c => .bad s c a
    | .ok s => .go s { o with lane := o.lane + 1 }

/-- Combines two values of a BRED (R334). -/
def bredJoin (op : Nat) (a b : Word) : Word :=
  match op with
  | 0 => BitVec.ofNat 64 (f32add a.toNat b.toNat)
  | 1 => BitVec.ofNat 64 (fp32.round 0 (FNum.max2 (fp32.dec a.toNat) (fp32.dec b.toNat)))
  | 2 => BitVec.ofNat 64 (fp32.round 0 (FNum.min2 (fp32.dec a.toNat) (fp32.dec b.toNat)))
  | _ => a + b

/-- Adds lane k to the partial results of the tree of R144: newest first, joined while the pairs below are full. -/
def bredPush (op : Nat) : Nat → Nat → List Word → Word → List Word
  | 0, _, acc, v => v :: acc
  | n + 1, k, acc, v =>
    if k % 2 = 1 then
      match acc with
      | a :: as => bredPush op n (k / 2) as (bredJoin op a v)
      | [] => [v]
    else v :: acc

/-- The result of the tree: lanes at or above n are absent. A NaN is canonical, of one lane too (R135). -/
def bredEnd (op : Nat) : List Word → Word
  | [] => match op with
    | 1 => 0xFF800000
    | 2 => 0x7F800000
    | _ => 0
  | a :: as =>
    let v := as.foldl (fun v x => bredJoin op x v) a
    if op < 3 then BitVec.ofNat 64 (f32canon v.toNat) else v

/-- BRED: one element, then the entry (R334). -/
def bredUnit (s : State) (o : Op) : Adv :=
  if o.vb.toNat ≤ o.pos then
    if canEmit s o then .go (emit s o ((bredEnd o.fn o.acc).setWidth 2048) false) { o with units := true } else .wait
  else
    let a := taddr (tidOf o.va) (idxOf o.va + o.pos)
    let eb := if o.fn = 4 then 64 else 32
    match engReadAt true s o a eb with
    | .error c => .bad s c a
    | .ok (v, s) =>
      let x := if o.fn = 3 then sextNat 32 v else BitVec.ofNat 64 v
      .go s { o with acc := bredPush o.fn 64 o.pos o.acc x, pos := o.pos + 1 }

-- One unit of any operation --------------------------------------------------------------------------------------------------------------------

/-- R305: a grammar command begins once the commands before it have completed. -/
def gramTurn (s : State) (o : Op) : Bool :=
  !(s.ops.any fun x => decide (x.2.key = o.key) && x.2.kind.isGram && decide (x.2.ord < o.ord))

/-- One unit of an operation. Collectives have events of their own. DESIGN CHOICE, log 77: of what PREF may load it loads nothing,
and it is done at once. -/
def opUnit (s : State) (id : Nat) (o : Op) : Adv :=
  match o.kind with
  | .rdq => if o.hold then rdqSchedUnit s id o else rdqUnit s o
  | .rds => rdsUnit s id o
  | .wrq => wrqUnit s id o
  | .wrs => wrsUnit s id o
  | .cpy => cpyUnit s id o
  | .gath => gathUnit s o
  | .scat => scatUnit s id o
  | .pref => .go s { o with units := true }
  | .tload => tloadUnit s o
  | .tcopy => tcopyUnit s id o
  | .tstore => tstoreUnit s id o
  | .tfill => fillUnit s id o o.va o.vb
  | .gset => if gramTurn s o then gsetUnit s o else .wait
  | .grule =>
    if gramTurn s o then
      gruleUnit s (if o.pos = 0 ∧ o.lim = 0 then { o with lim := (cellAt s o.key).csr.maxdepth.toNat } else o)
    else .wait
  | .grow => if gramTurn s o then growUnit s o else .wait
  | .gseg => if gramTurn s o then gsegUnit s o else .wait
  | .gload => gloadUnit s o
  | .gscat => gscatUnit s id o
  | .walk => walkUnit s o
  | .sample => sampleUnit s o
  | .bld => bldUnit s o
  | .bst => bstUnit s id o
  | .bfill => fillUnit s id o o.va o.vb
  | .bcpy => copyUnit s id o o.va o.vb
  | .bamo => bamoUnit s id o
  | .bred => bredUnit s o
  | .coll => .wait
  | .input => tloadUnit s o

/-- Whether the operations of a region go on: while it runs or its rebuild stubs do. -/
def opLive (s : State) (o : Op) : Bool :=
  match (regAt s o.reg).stage with
  | .running | .rebuild => true
  | _ => false

/-- A fault of the class "ends" while a task's input tiles are copied fails the task before it starts (R60, R61). -/
def inputFault (s : State) (o : Op) (code : Nat) : State :=
  let s := { s with ops := s.ops.filter fun p => !(decide (p.2.key = o.key) && decide (p.2.kind = .input)) }
  let c := cellAt s o.key
  setCell s o.key { c with task := c.task.map fun t => { t with inputs := 0, status := code } }

/-- A faulting operation is over. The grammar engine begins a command only after the one before it has completed (R305),
so those behind a faulting one never begin. -/
def dropOp (s : State) (id : Nat) (o : Op) : State :=
  { s with ops := (sdel s.ops id).filter fun p => !(o.kind.isGram && p.2.kind.isGram && decide (p.2.key = o.key) && decide (o.ord < p.2.ord)) }

/-- A fault of an operation is raised against its word; the operation is over and adds no token (R224, R304, R330). -/
def opFault (s : State) (id : Nat) (o : Op) (code : Nat) (ta : Word) : State :=
  if o.kind = .input ∧ endsClass code then inputFault s o code
  else takeFault (dropOp s id o) { key := o.key, seq := o.seq, pc := o.pc }
    { code := code, taddr := ta, engn := true, applied := if code = cLink then 2 else 0 }

/-- The entries of the tiles that the next step of a WALK or SAMPLE reads: those of OFF, and of the neighbour that it draws. -/
def stepTiles (s : State) (o : Op) : List Word :=
  let ent (tens i : Nat) : Word := match descFor s (opCtx s o) tens with
    | some d => entryOf s (opCtx s o) tens (d.locate i).1
    | none => 0
  let offt := bits (dw o.ds 0) 15 0
  let nbr := bits (dw o.ds 0) 31 16
  let draw (v a : Int) (deg : Nat) (seed : Word) : List Word :=
    if deg = 0 then [] else [ent nbr (a + (bounded (m64 (BitVec.ofNat 64 (ofInt 64 v)) seed) deg).toNat).toNat]
  match o.kind, o.acc with
  | .walk, _ =>
    let v := (if o.pos = 0 ∧ !o.hold then o.va else o.reply).toInt
    if v < 0 then []
    else match nodeOf s o v with
      | .ok (a, deg, _) => ent offt v.toNat :: ent offt (v.toNat + 1) :: draw v a deg (o.vb + BitVec.ofNat 64 (o.pos + 1))
      | .error _ => []
  | .sample, a :: deg :: _ => draw o.va.toInt a.toInt deg.toNat (o.vb + BitVec.ofNat 64 o.pos)
  | .sample, _ => if o.va.toInt < 0 then [] else [ent offt o.va.toNat, ent offt (o.va.toNat + 1)]
  | _, _ => []

/-- R481. A walk engine begins a step in every region clock period, in every second, or in every fourth, by the walk limit of its
stack; of tiles in two stacks both limits hold (log 25). -/
def walkTurn (s : State) (o : Op) : Bool :=
  (stepTiles s o).all fun e =>
    decide (entState e = 0 ∨ 2 ≤ bits e 23 21) ||
      decide (s.per % 2 ^ (sget {} s.hbt (2 * bits e 20 18 + bits e 23 21)).wlim = 0)

/-- An operation's unit needs what the home of a peer tensor holds: the read is sent, if it has not been, and the unit is tried
again when the answer is there (R469). -/
def opAsk (s : State) (id : Nat) (o : Op) (a : Word) (k n : Nat) : State :=
  let sec := if k = 0 then none else some (k - 1)
  let s := { s with ops := sset s.ops id { o with due := s.per + 1 } }
  if s.reqs.any fun p => decide (p.2.op = id ∧ p.2.kind = .load ∧ p.2.addr = a ∧ p.2.sec = sec) then s
  else sendReq s { opReq s id o .load a with n := n, sec := sec }

/-- The addresses and widths of what an operation may read before its turn: the later elements of the pattern that an RDQ into a
memory-fed queue, an RDS or a CPY moves, the later indices of a GATH or SCAT, and the later elements of a GATH's present row. -/
def laterReads (s : State) (o : Op) (j : Nat) : List (Word × Nat) :=
  let ctx := opCtx s o
  let pat := if o.pos < j ∧ j < patCount o.ds then [(patAddr s ctx o.ds j, patBits s ctx o.ds)] else []
  match o.kind with
  | .rdq => if o.hold then [] else pat
  | .rds | .cpy | .scat => pat
  | .gath =>
    pat ++ (if o.acc.getD 1 1 = 0 ∧ o.sub < j ∧ j < bits o.vb 31 0 then
      [(rowAddr s { o with sub := j }, elemBits s ctx o.va (o.fn / 16 % 8))] else [])
  | _ => []

/-- R112: the reads of a pattern are performed in no particular order: an element that the environment names is read before its
turn (log 95). One that would fault is read in its turn. -/
def readEarly (s : State) (id : Nat) (o : Op) : State × Op :=
  (((s.looks.filter fun x => decide (x.1 = id)).flatMap fun x => laterReads s o x.2)).foldl
    (fun p x =>
      if p.2.early.any fun y => decide (y.1 = x.1 ∧ y.2.1 = x.2) then p
      else match engReadAt false p.1 p.2 x.1 x.2 with
        | .ok (v, s) => (s, { p.2 with early := p.2.early ++ [(x.1, x.2, v)] })
        | .error _ => p) (s, o)

/-- Advances an operation by one unit. -/
def opAdvance (s : State) (id : Nat) : State :=
  match sfind s.ops id with
  | none => s
  | some o =>
    if o.units ∨ !opLive s o then s
    else
      let (s, o) := readEarly s id o
      match opUnit s id o with
      | .go s o' =>
        if (sfind s.ops id).isNone then s
        else { s with ops := sset s.ops id { o' with t0 := s.tick, due := s.per + 1, got := [] } }
      | .wait => { s with ops := sset s.ops id { o with due := s.per + 1 } }
      | .bad t c ta =>
        match askOf c with
        | none => opFault t id o c ta
        | some (a, k, n) => opAsk s id o a k n

end Sys2Proof.Machine
end

