-- ==== Sys2Proof/Machine/Collective.lean ====
section
/-! DEFINITION. Collectives (R342 to R349, R473 to R475, R494): the COLL words, the comparison and the exchange of
contributions, and the ends of rounds. -/

namespace Sys2Proof.Machine

/-- COLL words are legal only in elastic W streams (R342). -/
def lgColl : Legal := { spaces := [.lw], timed := false, wOnly := true }

/-- Element width of a collective's format (R345). -/
def collBits (fmt : Nat) : Nat :=
  match fmt with
  | 1 => 16
  | 3 => 64
  | _ => 32

/-- R345: a pattern has the format named. -/
def collFmtOk (s : State) (ctx fmt : Nat) (ws : List Word) : Bool :=
  if tidOf (dw ws 0) = 0xFFFF then decide (8 * 2 ^ (patEsz ws - 1) = collBits fmt)
  else match descFor s ctx (tidOf (dw ws 0)) with
    | some d => decide (d.fmt = (match fmt with | 0 => 12 | 1 => 11 | 2 => 5 | _ => 6))
    | none => false

/-- The package's own number (R465). -/
def pkgOwn (s : State) : Nat := bits (preg s 0x20 0x70) 15 0

/-- The key of a cell that a member names in a region (R344). -/
def memberKey (r : Region) (m : Nat × Nat × Nat × Nat) : Option Nat :=
  match r.dies[m.2.1]? with
  | some d =>
    if d.row0 ≤ m.2.2.1 ∧ m.2.2.1 < d.row0 + d.hgt ∧ d.col0 ≤ m.2.2.2 ∧ m.2.2.2 < d.col0 + d.wid then some (keyOn d m.2.2.1 m.2.2.2)
    else none
  | none => none

/-- Whether a member belongs to this package. -/
def localMember (s : State) (scope : Nat) (m : Nat × Nat × Nat × Nat) : Bool := decide (scope = 3) || decide (m.1 = pkgOwn s)

/-- A group descriptor and its member table (R343, R344): the round's parameters, or the code of the fault. -/
def groupDesc (s : State) (key : Nat) (a : Word) : Except Nat Coll :=
  let c := cellAt s key
  let off := spOff a
  if tidOf a ≠ 0xFFFF ∨ spIdx a ≠ cidxOf key ∨ off % 64 ≠ 0 ∨ spadSize key < off + 64 ∨ off < c.csr.shwin * 1024 then .error cAddr
  else if spadBad s key off 64 then .error cMemErr
  else
    let w := spadWords s key off 8
    let w0 := dw w 0
    let n := bits w0 24 16
    let scope := bits w0 35 33
    let mo := bits (dw w 2) 18 0
    if n = 0 ∨ 256 < n ∨ n ≤ bits w0 32 25 ∨ (scope ≠ 3 ∧ scope ≠ 4) ∨ bits w0 63 36 ≠ 0 ∨ bits (dw w 1) 31 0 = 0
        ∨ bits (dw w 1) 63 32 ≠ 0 ∨ mo % 8 ≠ 0 ∨ bits (dw w 2) 63 19 ≠ 0 ∨ dw w 4 ≠ 0 ∨ dw w 5 ≠ 0 ∨ dw w 6 ≠ 0 ∨ dw w 7 ≠ 0
        ∨ spadSize key < mo + 8 * n then .error cFormat
    else if spadBad s key mo (8 * n) then .error cMemErr
    else
      let es := spadWords s key mo n
      let memb := es.map fun e => (bits e 15 0, bits e 20 16, bits e 24 21, bits e 28 25)
      let r := regAt s c.reg
      let okE := es.all (fun e => decide (bits e 63 29 = 0)) && memb.all fun m =>
        (decide (scope = 4) || decide (m.1 = 0)) && (!localMember s scope m || (memberKey r m).isSome)
      let rank := bits w0 32 25
      let self := match memb[rank]? with
        | some m => localMember s scope m && decide (memberKey r m = some key)
        | none => false
      if !okE || !self || decide (memb.eraseDups.length ≠ n) then .error cFormat
      else .ok { gid := bits w0 15 0, nmemb := n, rank := rank, scope := scope, tout := bits (dw w 1) 31 0, desc := off,
                 round := (bits (dw w 3) 63 32 + 1) % 2 ^ 32, memb := memb }

/-- Word 3 of a group descriptor (R343). -/
def statusWord (status fail round : Nat) : Word := BitVec.ofNat 64 (status + fail * 2 ^ 16 + round * 2 ^ 32)

/-- Writes word 3 of a descriptor in the private window of a cell. -/
def putStatus (s : State) (key off : Nat) (w : Word) : State :=
  ((toBytes 8 w.toNat).zipIdx).foldl (fun s p => spadPut s key (off + 24 + p.2) p.1) s

-- Matching members (R348) ---------------------------------------------------------------------------------------------------

/-- The rounds of a group identity and number that have not ended, with their names. -/
def roundOps (s : State) (gid round : Nat) : List (Nat × Op) :=
  s.ops.filter fun p => decide (p.2.kind = .coll ∧ p.2.coll.kind < 5 ∧ p.2.coll.gid = gid ∧ p.2.coll.round = round) && !p.2.units

/-- The outstanding operation of a member of a round, if it is of this package and has issued. -/
def mate (s : State) (o : Op) (m : Nat × Nat × Nat × Nat) : Option (Nat × Op) :=
  match memberKey (regAt s o.reg) m with
  | none => none
  | some k => (s.ops.find? fun p => decide (p.2.kind = .coll ∧ p.2.coll.kind < 5 ∧ p.2.key = k ∧ p.2.coll.gid = o.coll.gid
      ∧ p.2.coll.round = o.coll.round ∧ p.2.reg = o.reg))

/-- The lowest rank whose contribution a member lacks, or 0xFFFF. -/
def failRank (s : State) (o : Op) : Nat :=
  match (o.coll.memb.zipIdx.find? fun p =>
      !((sfind o.coll.parts p.2).isSome || (localMember s o.coll.scope p.1 && (mate s o p.1).isSome))) with
  | some p => p.2
  | none => 0xFFFF

/-- A round ends at a member: STATUS and FAILRANK are written; the operation completes under R121. -/
def collEnd (s : State) (id : Nat) (o : Op) (status fail : Nat) : State :=
  let s := putStatus s o.key o.coll.desc (statusWord status fail o.coll.round)
  { s with ops := sset s.ops id { o with units := true } }

/-- Ends rounds with a status, each with the FAILRANK it has now. -/
def endAll (s : State) (l : List (Nat × Op)) (status : Nat) : State :=
  let fr := l.map fun p => (p, failRank s p.2)
  fr.foldl (fun s p => collEnd s p.1.1 p.1.2 status p.2) s

/-- The packages of a group but this one. -/
def otherPkgs (s : State) (c : Coll) : List Nat :=
  if c.scope = 3 then [] else ((c.memb.map (·.1)).filter (· ≠ pkgOwn s)).eraseDups

/-- The cells of this package that a member table names in a region. -/
def localKeys (s : State) (reg : Nat) (c : Coll) : List Nat :=
  (c.memb.filter (localMember s c.scope)).filterMap (memberKey (regAt s reg))

/-- The current round of a cell for a group identity, if it has issued one (R348). -/
def cellRound (s : State) (gid key : Nat) : Option Nat := sfind (cellAt s key).rnds gid

/-- The cells that are members of a group, as the rounds issued so far show them: the cells that have issued one, and those that
its member table named (R348). -/
def roundCells (s : State) (gid : Nat) (reg : Option Nat) : List Nat :=
  ((s.cells.filter fun c => reg.all fun h => decide (c.2.reg = h)).flatMap fun c => sget [] c.2.rmem gid).eraseDups

/-- Some member here may still issue a round: none is known, or one that is known has not come to it. -/
def roundAwaited (s : State) (gid round : Nat) (reg : Option Nat) : Bool :=
  let l := roundCells s gid reg
  l.isEmpty || l.any fun k => match cellRound s gid k with
    | some r => decide (r < round)
    | none => true

/-- The bytes that held messages take (R474): 64 for the header and 8 for each word. -/
def heldBytes (l : List HeldMsg) : Nat :=
  l.foldl (fun n h => n + 64 + (h.msg.parts.foldl (fun m p => m + 8 * p.2.length) 0)) 0

/-- Holds a message for members that have not issued its round, where the buffer of 64 KiB has room (R348, R474). -/
def holdMsg (s : State) (h : HeldMsg) : State :=
  if !roundAwaited s h.msg.gid.toNat h.msg.round.toNat h.reg then s
  else
    let l := s.held ++ [h]
    if heldBytes l ≤ 65536 then { s with held := l } else s

/-- An abort as a message. -/
def abortMsg (pkg : Nat) (gid : BitVec 16) (round : BitVec 32) : CollMsg :=
  { pkg := pkg, gid := gid, round := round, kind := 0, op := 0, fmt := 0, count := 0, nmemb := 0, root := 0, parts := [] }

/-- A member's round ends, and it sends an abort to every other member that it can reach (R349, R494): those of its region that
have issued end now, one that has not is told when it issues (R348). -/
def collStop (s : State) (id : Nat) (o : Op) (status : Nat) : State :=
  let others := (roundOps s o.coll.gid o.coll.round).filter fun p => decide (p.1 ≠ id ∧ p.2.reg = o.reg)
  let fr := others.map fun p => (p, failRank s p.2)
  let s := collEnd s id o status (failRank s o)
  let s := fr.foldl (fun s p => collEnd s p.1.1 p.1.2 2 p.2) s
  let s := holdMsg s { at_ := s.tick, ab := true, msg := abortMsg (pkgOwn s) (BitVec.ofNat 16 o.coll.gid) (BitVec.ofNat 32 o.coll.round),
                       got := o.key :: others.map (·.2.key), reg := some o.reg }
  (otherPkgs s o.coll).foldl (fun s p => sendPkg s p 104 [BitVec.ofNat 64 o.coll.gid, BitVec.ofNat 64 o.coll.round] []) s

-- The words (R342, R345, R346) ------------------------------------------------------------------------------------------------

/-- The element counts of R346: the member's source count c and whether the count of dt fits. -/
def collCounts (kind n root rank : Nat) (cs cd : Nat) : Nat × Bool :=
  match kind with
  | 0 => (cs, decide (cd = cs))
  | 1 => (cs, decide (cs % n = 0 ∧ cd = cs / n))
  | 2 => (cs, decide (cd = n * cs))
  | 3 => if rank = root then (cs, decide (cd = cs ∧ root < n)) else (cd, decide (root < n))
  | _ => (cs, decide (cs % n = 0 ∧ cd = cs))

/-- COLL of one kind. -/
def collWord (kind : Nat) (ds dt op : BitVec 3) (fmt : BitVec 2) (a b : BitVec 6) (k : Toks) (s : State) : Out :=
  word lgColl [a, b]
    (gated k accFull fun c s =>
      let ctx := ctxOf s c.key
      let x := readA s c.key a.toNat
      let root := (readA s c.key b.toNat).toNat
      let ws := readDesc s c.key c.seq ds.toNat
      let wt := readDesc s c.key c.seq dt.toNat
      match groupDesc s c.key x with
      | .error e => .fault { code := e, taddr := x }
      | .ok g =>
        let reads := decide (kind ≠ 3 ∨ g.rank = root)
        let chk := if reads then patCheck s c.key ctx ws else 0
        orFault chk (dw ws 0)
          (orFault (patCheck s c.key ctx wt) (dw wt 0)
            (let cnt := collCounts kind g.nmemb root g.rank (patCount ws) (patCount wt)
             if (reads && !collFmtOk s ctx fmt.toNat ws) || !collFmtOk s ctx fmt.toNat wt || !cnt.2 then
               .fault { code := cFormat, taddr := dw wt 0 }
             else
               let mine := s.ops.filter fun p => decide (p.2.key = c.key ∧ p.2.kind = .coll) && !p.2.units
               if 4 ≤ mine.length ∨ mine.any (fun p => decide (p.2.coll.desc = g.desc)) then .wait
               else
                 let g := { g with kind := kind, op := op.toNat, fmt := fmt.toNat, root := if kind = 3 then root else 0, count := cnt.1 }
                 let o := { newOp .coll with ds := ws, dt := wt, coll := g, bar := if reads then patBar ws else patBar wt }
                 match startAcc s c k o with
                 | .ok t =>
                   let id := t.nextId - 1
                   let t := putStatus t c.key g.desc (statusWord 0xFF 0xFFFF g.round)
                   let cl := cellAt t c.key
                   let t := setCell t c.key
                     { cl with rnds := sset cl.rnds g.gid g.round, rmem := sset cl.rmem g.gid (localKeys t cl.reg g) }
                   let lost := (g.memb.zipIdx.find? fun p => !localMember t g.scope p.1 && (linkTo t p.1.1).isNone)
                   (match lost, sfind t.ops id with
                     | some p, some o => .ok (collEnd t id o 4 p.2)
                     | _, _ => .ok t)
                 | r => r))) s

/-- R345. COLL.AR. -/
def execCollAr (ds dt : BitVec 3) (op : BitVec 3) (fmt : BitVec 2) (a : BitVec 6) (k : Toks) (s : State) : Out :=
  collWord 0 ds dt op fmt a 0 k s

/-- R345. COLL.RS. -/
def execCollRs (ds dt : BitVec 3) (op : BitVec 3) (fmt : BitVec 2) (a : BitVec 6) (k : Toks) (s : State) : Out :=
  collWord 1 ds dt op fmt a 0 k s

/-- R345. COLL.AG. -/
def execCollAg (ds dt : BitVec 3) (fmt : BitVec 2) (a : BitVec 6) (k : Toks) (s : State) : Out :=
  collWord 2 ds dt 0 fmt a 0 k s

/-- R345. COLL.BC. -/
def execCollBc (ds dt : BitVec 3) (fmt : BitVec 2) (a b : BitVec 6) (k : Toks) (s : State) : Out :=
  collWord 3 ds dt 0 fmt a b k s

/-- R345. COLL.AA. -/
def execCollAa (ds dt : BitVec 3) (fmt : BitVec 2) (a : BitVec 6) (k : Toks) (s : State) : Out :=
  collWord 4 ds dt 0 fmt a 0 k s

/-- R349. COLL.AB ends the outstanding round on the descriptor, sends aborts, and completes. -/
def execCollAb (a : BitVec 6) (k : Toks) (s : State) : Out :=
  word lgColl [a]
    (gated k accFull fun c s =>
      let x := readA s c.key a.toNat
      match groupDesc s c.key x with
      | .error e => .fault { code := e, taddr := x }
      | .ok g =>
        match startAcc s c k { newOp .coll with coll := { g with kind := 5 }, units := true } with
        | .ok t =>
          (match t.ops.find? (fun p => decide (p.2.key = c.key ∧ p.2.kind = .coll ∧ p.2.coll.kind < 5 ∧ p.2.coll.desc = g.desc) && !p.2.units) with
            | some (id, o) => .ok (collStop t id o 2)
            | none => .ok t)
        | r => r) s

-- Reduction (R347) --------------------------------------------------------------------------------------------------------------

/-- The format of a floating collective. -/
def collF (fmt : Nat) : FFmt := if fmt = 1 then bf16 else fp32

/-- The FP32 sum of ranks in the tree of R144; ranks that are absent pass the other. -/
def rankSum (fmt : Nat) (l : List (Option Nat)) : Nat :=
  (treeRed f32add 8 (l.map fun o => o.map fun x => cvtFF (collF fmt) fp32 0 false x)).getD 0

/-- The lanes of the tree: ranks up to 256, those at or above N absent. -/
def rankLanes (vals : List (Nat × Nat × Nat)) (p : Nat → Bool) : List (Option Nat) :=
  (List.range 256).map fun r => (vals.find? fun v => decide (v.1 = r) && p v.2.1).map (·.2.2)

/-- SUMW: the exact sum of the truncated contributions, rounded once (R347). -/
def sumw (fmt : Nat) (l : List Nat) : Nat :=
  let f := collF fmt
  let ns := l.map f.dec
  let inf (sg : Bool) : Bool := ns.any fun n => match n with
    | .inf s => s == sg
    | _ => false
  if ns.any FNum.isNan || (inf true && inf false) then f.nan
  else if inf true then f.infBits true
  else if inf false then f.infBits false
  else
    let i : Int := ns.foldl (fun acc n => match n with
      | .fin s m e => let q := truncAt m e 112; if s then acc - (q : Int) else acc + (q : Int)
      | _ => acc) 0
    if i = 0 then 0 else f.round 0 (.ofScaled i (-112))

/-- The FP32 sum of the packages' partial sums (R347): as long as two or more are left, two of them are added; which two is open
(R3), and free by the round's name and the element. The first argument bounds the additions. -/
def pkgSum (name elem : Nat) : Nat → List Nat → Nat
  | 0, l => l.headD 0
  | n + 1, l =>
    match l with
    | [] => 0
    | [x] => x
    | [x, y] => f32add x y
    | l =>
      let i := Config.sumPick name elem (2 * n) % l.length
      let r := l.eraseIdx i
      let j := Config.sumPick name elem (2 * n + 1) % r.length
      pkgSum name elem n (f32add (l.getD i 0) (r.getD j 0) :: r.eraseIdx j)

/-- The reduction of one element: rank, package and value of every contribution (R347); the round's name and the element name the
order in which packages combine. -/
def collReduce (name elem op fmt scope : Nat) (vals : List (Nat × Nat × Nat)) : Nat :=
  let w := collBits fmt
  let l := vals.map (·.2.2)
  let float := decide (fmt < 2)
  let out (x : Nat) : Nat := if fmt = 1 then cvtFF fp32 bf16 0 false x else x
  match op with
  | 0 =>
    if !float then (l.foldl (· + ·) 0) % 2 ^ w
    else
      let pk := (vals.map (·.2.1)).eraseDups
      if scope = 3 ∨ pk.length ≤ 1 then out (rankSum fmt (rankLanes vals fun _ => true))
      else out (pkgSum name elem pk.length (pk.map fun p => rankSum fmt (rankLanes vals fun q => decide (q = p))))
  | 1 => sumw fmt l
  | 2 | 3 =>
    let mx := decide (op = 2)
    if float then
      match l.map (collF fmt).dec with
      | [] => 0
      | n :: ns => (collF fmt).round 0 (ns.foldl (fun a b => if mx then FNum.max2 a b else FNum.min2 a b) n)
    else
      match l with
      | [] => 0
      | x :: xs => xs.foldl (fun a b => if decide (sintNat w a < sintNat w b) = mx then b else a) x
  | 4 => l.foldl (fun a b => a &&& b) (2 ^ w - 1)
  | _ => l.foldl (fun a b => a ||| b) 0

/-- Element i of what rank j contributed. -/
def partElem (c : Coll) (j i : Nat) : Nat := ((sget [] c.parts j).getD i 0).toNat

/-- Element i of the reduction over all members, in a round of this name; a group of one member copies (R346). -/
def redElem (name : Nat) (c : Coll) (i : Nat) : Nat :=
  if c.nmemb = 1 then partElem c 0 i
  else collReduce name i c.op c.fmt c.scope (c.memb.zipIdx.map fun p => (p.2, p.1.1, partElem c p.2 i))

/-- The elements that a member receives (R346) in a round of this name. -/
def collResult (name : Nat) (c : Coll) : List Nat :=
  let n := c.nmemb
  match c.kind with
  | 0 => (List.range c.count).map (redElem name c)
  | 1 => (List.range (c.count / n)).map fun i => redElem name c (c.rank * (c.count / n) + i)
  | 2 => (List.range n).flatMap fun j => (List.range c.count).map (partElem c j)
  | 3 => (List.range c.count).map (partElem c c.root)
  | _ => (List.range n).flatMap fun j => (List.range (c.count / n)).map fun i => partElem c j (c.rank * (c.count / n) + i)

-- Progress (R348, R473, R494) --------------------------------------------------------------------------------------------------------

/-- The parameters that members compare. -/
def sameParams (a b : Coll) : Bool :=
  decide (a.kind = b.kind ∧ a.op = b.op ∧ a.fmt = b.fmt ∧ a.count = b.count ∧ a.nmemb = b.nmemb ∧ a.root = b.root)

/-- Reads the source of a member, element by element. -/
def collRead (s : State) (o : Op) : Nat → Except (Nat × Word) (List Word × State)
  | 0 => .ok ([], s)
  | n + 1 =>
    match collRead s o n with
    | .error e => .error e
    | .ok (l, s) =>
      let a := patAddr s (opCtx s o) o.ds n
      match engRead s o a (collBits o.coll.fmt) with
      | .error c => .error (c, a)
      | .ok (v, s) => .ok (l ++ [BitVec.ofNat 64 v], s)

/-- Adds contributions to a round. -/
def addParts (o : Op) (l : SMap (List Word)) : Op :=
  { o with coll := { o.coll with parts := l.foldl (fun m p => sset m p.1 p.2) o.coll.parts } }

/-- The message that carries a package's contributions (R494). -/
def partialMsg (s : State) (c : Coll) : List Word :=
  [BitVec.ofNat 64 c.gid, BitVec.ofNat 64 c.round, BitVec.ofNat 64 c.kind, BitVec.ofNat 64 c.op, BitVec.ofNat 64 c.fmt,
   BitVec.ofNat 64 c.count, BitVec.ofNat 64 c.nmemb, BitVec.ofNat 64 c.root]
    ++ (c.memb.zipIdx.filter fun p => localMember s c.scope p.1).flatMap fun p => BitVec.ofNat 64 p.2 :: sget [] c.parts p.2

/-- One step of a round: once every member of the package has issued, the members compare; then the member reads its source
and its contribution reaches the members of the package; the last of them sends the package's partial to the others. -/
def collUnit (s : State) (id : Nat) (o : Op) : State :=
  let c := o.coll
  let locals := c.memb.filter (localMember s c.scope)
  let mates := locals.filterMap (mate s o)
  if o.units ∨ o.coll.sent ∨ mates.length ≠ locals.length ∨ !opLive s o then s
  else if mates.any fun p => !sameParams p.2.coll c then endAll s (mates.filter fun p => !p.2.units) 3
  else
    let n := if c.kind = 3 ∧ c.rank ≠ c.root then 0 else c.count
    match collRead s o n with
    | .error (e, ta) =>
      (match askOf e with
        | none => opFault s id o e ta
        | some (a, k, n) => opAsk s id o a k n)
    | .ok (l, s) =>
      let known := mates.foldl (fun m p => p.2.coll.parts.foldl (fun m q => sset m q.1 q.2) m) c.parts
      let all := sset known c.rank l
      let s := mates.foldl
        (fun s p => match sfind s.ops p.1 with
          | some q =>
            let q := addParts q all
            { s with ops := sset s.ops p.1 (if p.1 = id then { q with coll := { q.coll with sent := true }, t0 := s.tick, got := [] } else q) }
          | none => s) s
      if mates.all (fun p => decide (p.1 = id) || p.2.coll.sent) then
        (otherPkgs s c).foldl (fun s p => sendPkg s p 105 (partialMsg s { c with parts := all }) []) s
      else s

/-- The package and its members lack nothing: every rank has contributed. -/
def collFull (o : Op) : Bool :=
  decide (o.kind = .coll ∧ o.coll.kind < 5) && !o.units && (List.range o.coll.nmemb).all fun j => (sfind o.coll.parts j).isSome

/-- Writes the result along dt. -/
def collWrite (s : State) (id : Nat) (o : Op) : List (Nat × Nat) → Except (Nat × Word) State
  | [] => .ok s
  | (v, i) :: l =>
    let a := patAddr s (opCtx s o) o.dt i
    let eb := collBits o.coll.fmt
    match engWrite s id o a eb v (eb / 8) with
    | .error c => .error (c, a)
    | .ok s => collWrite s id o l

/-- R348. COLL_ROUND_END: the result is written along dt, then STATUS and FAILRANK. -/
def execCollRoundEnd (op : Nat) (s : State) : Out :=
  .next
    (match sfind s.ops op with
      | none => s
      | some o =>
        if !collFull o || !opLive s o then s
        else
          let (name, s) := freeNum s
          match collWrite s op o (collResult name o.coll).zipIdx with
          | .error (c, a) => opFault s op o c a
          | .ok s => collEnd s op o 0 0xFFFF)

/-- R349. COLL_ROUND_TIMEOUT: TOUT reference ticks after its issue. -/
def execCollRoundTimeout (op : Nat) (s : State) : Out :=
  .next
    (match sfind s.ops op with
      | none => s
      | some o =>
        if o.kind = .coll ∧ o.coll.kind < 5 ∧ !o.units ∧ o.born + o.coll.tout ≤ s.tick then collStop s op o 1 else s)

/-- The operations that a message reaches: the round's operations at cells that it has not reached; a message of another package
concerns groups of SYS scope. -/
def msgOps (s : State) (h : HeldMsg) : List (Nat × Op) :=
  (roundOps s h.msg.gid.toNat h.msg.round.toNat).filter fun p =>
    !h.got.contains p.2.key && match h.reg with
      | some r => decide (p.2.reg = r)
      | none => decide (p.2.coll.scope = 4)

/-- A package's partial result reaches members (R473, R494). -/
def partialTo (s : State) (m : CollMsg) (l : List (Nat × Op)) : State :=
  let differs (p : Nat × Op) : Bool :=
    let c := p.2.coll
    !decide (c.kind = m.kind.toNat ∧ c.op = m.op.toNat ∧ c.fmt = m.fmt.toNat ∧ c.count = m.count ∧ c.nmemb = m.nmemb ∧ c.root = m.root)
  let s := endAll s (l.filter differs) 3
  (l.filter fun p => !differs p).foldl
    (fun s p =>
      let own := m.parts.filter fun q => match p.2.coll.memb[q.1]? with
        | some x => decide (x.1 = m.pkg) && decide (x.1 ≠ pkgOwn s)
        | none => false
      { s with ops := sset s.ops p.1 (addParts p.2 own) }) s

/-- A message reaches the members that have issued its round, and is held for those that have not (R348, R349, R474). -/
def msgArrive (s : State) (h : HeldMsg) : State :=
  let l := msgOps s h
  let t := if h.ab then endAll s l 2 else partialTo s h.msg l
  holdMsg t { h with got := h.got ++ l.map (·.2.key) }

/-- R494. COLL_PARTIAL. -/
def execCollPartial (m : CollMsg) (s : State) : Out := .next (msgArrive s { at_ := s.tick, ab := false, msg := m })

/-- R349. COLL_ABORT. -/
def execCollAbort (pkg : Nat) (gid : BitVec 16) (round : BitVec 32) (s : State) : Out :=
  .next (msgArrive s { at_ := s.tick, ab := true, msg := abortMsg pkg gid round })

/-- R474. HELD_MESSAGE_DISCARD: after 1,000,000 reference ticks. -/
def execHeldMessageDiscard (s : State) : Out := .next { s with held := s.held.filter fun h => decide (s.tick < h.at_ + 1000000) }

/-- The first held message that a member which has now issued its round takes, or that no member awaits any more. -/
def heldReady (s : State) : Option HeldMsg :=
  s.held.find? fun h => !(msgOps s h).isEmpty || !roundAwaited s h.msg.gid.toNat h.msg.round.toNat h.reg

/-- A held message reaches the members that have issued its round (R348). -/
def heldDeliver (s : State) : State :=
  match heldReady s with
  | none => s
  | some h => msgArrive { s with held := s.held.erase h } h

/-- R349. The rounds of a region whose members use a lost die or link end with LINK. -/
def linkRounds (s : State) (h : Nat) (lost : Nat → Bool) : State :=
  endAll s
    (s.ops.filter fun p => decide (p.2.kind = .coll ∧ p.2.coll.kind < 5 ∧ p.2.reg = h) && !p.2.units
      && (localKeys s h p.2.coll).any lost) 4

/-- R475: the rounds of a region that halts end ABORTED and their operations complete. A token count that would overflow is a
secondary fault, detected before the stop. -/
def haltRounds (s : State) (h : Nat) : State :=
  (s.ops.filter fun p => decide (p.2.kind = .coll ∧ p.2.reg = h)).foldl
    (fun s p => match sfind s.ops p.1 with
      | none => s
      | some o =>
        let s := if o.units ∨ o.coll.kind = 5 then s else collStop s p.1 o 2
        let s := { s with ops := sdel s.ops p.1 }
        let (s, ok) := addTok s o.key o.kd
        if ok then s
        else
          let r := regAt s h
          takeFault s { key := o.key, seq := o.seq, pc := o.pc, cyc := some (Nat.max (r.haltD.getD r.tide + 1) (r.haltH - 1)) }
            { code := cTokOv, engn := true }) s

end Sys2Proof.Machine
end

