-- ==== Sys2Proof/Machine/Matrix.lean ====
section
/-! DEFINITION. Words of the MX space and the matrix engine's events (R145 to R149, R246 to R268). -/

namespace Sys2Proof.Machine

-- Access to the matrix state --------------------------------------------------------------------------------------------

/-- Replaces the matrix state of a cell. -/
def setMx (s : State) (key : Nat) (f : MxState → MxState) : State :=
  let c := cellAt s key
  setCell s key { c with mx := f c.mx }

/-- A row of a tile: 128 FP32 elements. -/
def zRow (m : MxState) (t row : Nat) : List Nat := unpackL 32 128 (sget 0 m.z (t * 128 + row)).toNat

/-- Replaces a row of a tile. -/
def setZRow (m : MxState) (t row : Nat) (l : List Nat) : MxState :=
  { m with z := sset m.z (t * 128 + row) (BitVec.ofNat 4096 (packL 32 l)) }

/-- The present cycle of a command: the region clock period for elastic work, else the region's TIDE. -/
def nowFor (s : State) (key : Nat) (per : Bool) : Nat := if per then s.per else (regOf s key).tide

/-- Whether elastic work of a cell goes on (R356). -/
def working (s : State) (key : Nat) : Bool :=
  match (regOf s key).stage with
  | .running | .rebuild => true
  | _ => false

/-- A header. -/
def hdrAt (m : MxState) (t b : Nat) : BankHdr := sget {} m.hdrs (t * 4 + b)

-- Formats of A and B (R145, R146, R249) ------------------------------------------------------------------------------------

/-- The A format of a code. -/
def aFmt (n : Nat) : FFmt := match n with
  | 0 => e4m3
  | 1 => e5m2
  | _ => bf16

/-- Bits of an A element. -/
def aBits (n : Nat) : Nat := if n = 2 then 16 else 8

/-- Planes of a B format (R146, Table 5). -/
def bPlanes (n : Nat) : Nat := if n < 2 then 1 else if n < 4 then 2 else 3

/-- WB of a B format. -/
def bWidth (n : Nat) : Nat := if n < 2 then 4 else if n < 4 then 8 else 12

/-- Bits of a stored B element. -/
def bBits (n : Nat) : Nat := if n < 2 then 4 else if n < 4 then 8 else 16

/-- The B format of a code, for the floating ones. -/
def bFmt (n : Nat) : FFmt := match n with
  | 2 => e4m3
  | 3 => e5m2
  | _ => bf16

/-- R145: the block exponent of a group and its integers at a width; none where an element is NaN or infinite. -/
def blockInts (f : FFmt) (width : Nat) (xs : List Nat) : Option (Int × List Int) :=
  let vs := xs.map f.dec
  if vs.all FNum.isFin then
    let logs := vs.filterMap fun v => match v with
      | .fin _ m e => if m = 0 then none else some (max (ilog m e) f.emin)
      | _ => none
    let ex := match logs with
      | [] => f.emin
      | l :: ls => ls.foldl max l
    some (ex, vs.map fun v => match v with
      | .fin s m e => let k : Int := truncAt m e ((width : Int) - 2 - ex)
                      if s then -k else k
      | _ => 0)
  else none

-- Contributions (R148) ----------------------------------------------------------------------------------------------------

/-- The stored rows of a group, with their logical rows. -/
def groupRows (m : MxState) (t : Nat) (h : BankHdr) (b g : Nat) : List (Nat × Nat) :=
  if h.sparse then
    let idx := sget [] m.ridx (t * 4 + b)
    (List.range 16).filterMap fun i =>
      let r := 16 * g + i
      if 2 * r < h.k then
        let ib := (idx.getD (r / 2) 0).toNat
        some (r, 4 * (r / 2) + (if r % 2 = 0 then ib % 4 else (ib / 4) % 4))
      else none
  else (List.range 32).filterMap fun i => if 32 * g + i < h.k then some (32 * g + i, 32 * g + i) else none

/-- Row r of B as 128 integers, from its planes: the highest is signed (R146). -/
def bRow (m : MxState) (t b p r : Nat) : List Int :=
  let planes := (List.range p).map fun i => unpackL 4 128 (sget 0 m.planes ((t * 4 + b + i) * 128 + r)).toNat
  (List.range 128).map fun j =>
    let v := (List.range p).foldl (fun acc i => acc + (planes.getD i []).getD j 0 * 16 ^ i) 0
    sintNat (4 * p) v

/-- The scale of a group and column as a value (R134). -/
def scaleNum (sfmt x : Nat) : FNum :=
  if sfmt = 0 then (if x % 256 = 0xFF then .nan else .fin false 1 ((x % 256 : Nat) - 127)) else bf16.dec x

/-- The group value c of R148. -/
def groupVal (sumI : Int) (e : Int) (mark : Bool) (sc : FNum) : FNum :=
  if mark || !sc.isFin then .nan
  else
    let v := FNum.mul (.ofScaled sumI e) sc
    if v.isZero then .fin false 0 0 else fp32.dec (fp32.round 0 v)

/-- R148: a row of A added into a row of one tile. `ga` is the row's block form by group. -/
def addRow (m : MxState) (t row b wa : Nat) (ga : List (Option (Int × List Int))) : MxState :=
  let h := hdrAt m t b
  let z := (List.range h.nsc).foldl
    (fun z g =>
      if h.sparse && !(h.live.testBit g) then z
      else
        let rows := groupRows m t h b g
        let sc := unpackL 16 128 (sget 0 m.scale ((t * 4 + b) * 8 + g)).toNat
        let eb := sget [] m.ebs ((t * 4 + b) * 8 + g)
        let nm := sget 0 m.nanm ((t * 4 + b) * 8 + g)
        match ga.getD g none with
        | none => z.map fun _ => fp32.nan
        | some (ea, qa) =>
          let sums := rows.foldl
            (fun acc r =>
              let a := qa.getD (r.2 - 32 * g) 0
              if a = 0 then acc else List.zipWith (fun x y => x + a * y) acc (bRow m t b h.p r.1))
            (List.replicate 128 (0 : Int))
          (z.zip sums).zipIdx.map fun p =>
            let j := p.2
            let e := ea - ((wa : Int) - 2) + (if h.bfmt < 2 then 0 else eb.getD j 0 - ((bWidth h.bfmt : Int) - 2))
            let c := groupVal p.1.2 e (nm.getLsbD j) (scaleNum h.sfmt (sc.getD j 0))
            fp32.round 0 (FNum.add 0 (fp32.dec p.1.1) c))
    (zRow m t row)
  setZRow m t row z

/-- The block form of a taken row by groups of 32 (R145). -/
def rowGroups (r : MmaRun) (x : TakenRow) : List (Option (Int × List Int)) :=
  let ab := aBits r.afmt
  let n := 2048 / ab
  let els := (unpackL ab n x.e0.toNat ++ (if n < r.k then unpackL ab n x.e1.toNat else [])).take r.k
  (List.range r.nsc).map fun g => blockInts (aFmt r.afmt) r.wa ((els.drop (32 * g)).take 32)

/-- The contribution of a taken row to every enabled tile. -/
def contribute (m : MxState) (r : MmaRun) (x : TakenRow) : MxState :=
  let ga := rowGroups r x
  (List.range 8).foldl (fun m t => if r.cem.getLsbD t then addRow m t x.row r.bset r.wa ga else m) m

-- Errors in the engine's SRAM (R83) -------------------------------------------------------------------------------------------

/-- A half row of z in a range of rows of a tile has an uncorrectable error. -/
def zBad (c : Cell) (t row n : Nat) : Bool :=
  c.ecc.any fun x => decide (x.1 = 1) && decide (256 * t + 2 * row ≤ x.2) && decide (x.2 < 256 * t + 2 * (row + n))

/-- Errors of one array that a write of whole entries removes. -/
def Cell.heal (c : Cell) (arr : Nat) (f : Nat → Bool) : Cell := { c with ecc := c.ecc.filter fun x => !(decide (x.1 = arr) && f x.2) }

-- Timing of a command (R255, R258, R260) --------------------------------------------------------------------------------------

/-- Cycle of the take of row i. -/
def MmaRun.takeAt (r : MmaRun) (i : Nat) : Nat := r.start + (i / r.m) * r.rp + i % r.m

/-- Cycle at which row i lands. -/
def MmaRun.landAt (r : MmaRun) (i : Nat) : Nat := r.start + 24 + (i / r.m + 1) * r.rp

/-- Cycle until which the engine is held. -/
def MmaRun.engineEnd (r : MmaRun) : Nat := r.start + (128 / r.m) * r.rp

/-- Cycle of the last landing. -/
def MmaRun.lastLand (r : MmaRun) : Nat := r.engineEnd + 24

/-- Entries of a row of A (R257). -/
def MmaRun.epr (r : MmaRun) : Nat := if 2048 < r.k * aBits r.afmt then 2 else 1

/-- Whether a command holds bank set b of macro t; with CEM 0 it holds none. -/
def MmaRun.holds (r : MmaRun) (t b : Nat) : Bool :=
  r.cem.getLsbD t && decide (r.bset ≤ b ∧ b < r.bset + r.rp / r.wa)

/-- Whether a command still has rows to take or to land. -/
def MmaRun.active (r : MmaRun) : Bool := decide (r.next < 128) || !r.rows.isEmpty

/-- The contribution of a row reads data with an uncorrectable error: of the rows of z that it adds to, or of the planes of B. -/
def MmaRun.bad (r : MmaRun) (c : Cell) (row : Nat) : Bool :=
  (List.range 8).any (fun t => r.cem.getLsbD t && zBad c t row 1)
    || c.ecc.any fun x =>
      let t := x.2 / 512
      let h := hdrAt c.mx t r.bset
      decide (x.1 = 3) && r.holds t (x.2 / 128 % 4) && (List.range h.nsc).any fun g =>
        (!h.sparse || h.live.testBit g) && (groupRows c.mx t h r.bset g).any fun y => decide (y.1 = x.2 % 128)

/-- R246: the bank sets that an MLOAD writes. -/
def MloadRun.writes (l : MloadRun) (t b : Nat) : Bool := decide (l.t = t ∧ l.bset ≤ b ∧ b < l.bset + l.hdr.p)

/-- R265: an update of a tile by an earlier command has not landed. -/
def tileBusy (c : Cell) (t : Nat) : Bool :=
  c.mx.mmas.any (fun r => r.cem.getLsbD t && r.active)
    || c.mx.strips.any (fun x => decide (x.kind = 1 ∧ x.t = t))
    || c.lat.any (fun l => match l.tgt with
        | .zclr m => m.testBit t
        | .zent u _ _ => decide (u = t)
        | _ => false)

/-- A queue that commands of the C stream still take entries from (R225). -/
def mxReads (c : Cell) (q : Nat) : Bool :=
  c.mx.mmas.any (fun r => decide (r.q = q ∧ r.next < 128))
    || c.mx.strips.any (fun x => decide (x.kind = 1 ∧ x.q = q ∧ x.next < x.count))

/-- A queue that ZRDs still deliver to (R225). -/
def mxWrites (c : Cell) (q : Nat) : Bool := c.mx.strips.any fun x => decide (x.kind = 0 ∧ x.q = q)

-- Issue of MX words ----------------------------------------------------------------------------------------------------------

/-- MX words. -/
def lgMx : Legal := { spaces := [.mx] }

/-- The stamp of a word: TIDE[15:0] in a timed stream, 0 in an elastic one (R163). -/
def stampOk (c : Ctx) (x : Stamp) : Bool := decide (x.stamp.toNat = if c.timed then c.t % 65536 else 0)

/-- What a failing stamp raises (R163). -/
def stampFault (c : Ctx) : Flt := { code := if c.timed then cSched else cIllegal }

/-- A command of the stream can still fault: rows or strip entries are not all taken, or a load has not landed. A later
elastic command waits for it, since elastic results equal those of executing the commands one after another (R265). -/
def mxPending (m : MxState) : Bool :=
  !m.mloads.isEmpty || m.mmas.any (fun r => decide (r.next < 128)) || m.strips.any fun x => decide (x.kind = 1 ∧ x.next < x.count)

/-- An MX word that pops no format word: what makes the word illegal whatever its operands (R165, R263), elastic wait, stamp
(R163), tokens, effect. -/
def mxWord (x : Stamp) (ill : Ctx → State → Bool) (wait : Ctx → State → Bool) (k : Ctx → State → Res) (s : State) : Out :=
  word lgMx []
    (fun c s =>
      if ill c s || (!c.timed && !stampOk c x) then illegal
      else if !c.timed && (wait c s || mxPending (cellAt s c.key).mx || (takeToks s c.key x.toks).isNone) then .wait
      else if !stampOk c x then .fault (stampFault c)
      else withToks s c x.toks fun t => k c t) s

/-- R249, R250: the fields of a load word, or a format error. -/
def loadWordOk (w : Word) : Option BankHdr :=
  let bf := bits w 4 2
  let sp := w.getLsbD 6
  let k := bits w 14 7 + 1
  let nsc := bits w 18 15
  let live := bits w 28 21
  let p := bPlanes bf
  if bits w 1 0 ≠ 1 ∨ 5 ≤ bf ∨ bits w 63 46 ≠ 0 ∨ nsc ≠ (k + 31) / 32 ∨ (!sp ∧ 128 < k) ∨ (sp ∧ k % 4 ≠ 0)
      ∨ 4 < bits w 20 19 + p ∨ (sp ∧ live = 0) ∨ (sp ∧ 2 ^ nsc ≤ live) ∨ (!sp ∧ live ≠ 0) then none
  else some { valid := true, bfmt := bf, sfmt := bits w 5 5, sparse := sp, k := k, nsc := nsc, live := live, p := p,
              nl := ((List.range 8).filter fun g => live.testBit g).length }

/-- NB: the bytes of a source (R252). -/
def loadBytes (h : BankHdr) : Nat :=
  let ks := if h.sparse then h.k / 2 else h.k
  let d := ks * 128 * bBits h.bfmt / 8
  let sc := h.nsc * 128 * (if h.sfmt = 0 then 1 else 2)
  d + sc + (if h.sparse then h.k / 4 else 0)

/-- The end of a tile command's issue after its pop (R249): the effect, or a fault that leaves the word popped. -/
def afterPop (s : State) (r : Except Flt State) : Res :=
  match r with
  | .ok t => .ok t
  | .error f => .okFault s f

/-- Tokens of a tile command after its pop. -/
def popToks (s : State) (c : Ctx) (k : Toks) : Except Flt State :=
  match takeToks s c.key k with
  | some t => .ok t
  | none => .error { code := cSched }

/-- Pops the format word. -/
def popFq (s : State) (key : Nat) : State := setMx s key fun m => { m with fq := m.fq.drop 1 }

/-- R252. MLOAD. DESIGN CHOICE, log 86: of several checks that fail at one issue the first of the stamp, the load word, the source,
the conflicts and the tokens decides the fault. -/
def execMload (t : BitVec 3) (x : Stamp) (s : State) : Out :=
  word lgMx []
    (fun c s =>
      let cell := cellAt s c.key
      if !c.timed && !stampOk c x then illegal
      else match cell.mx.fq with
      | [] => shortRes c
      | w :: _ =>
        let s1 := popFq s c.key
        let now := if c.timed then c.t else s.per
        match loadWordOk w with
        | none =>
          if !c.timed && (mxPending cell.mx || (takeToks s c.key x.toks).isNone) then .wait
          else .okFault s1 (if stampOk c x then { code := cFormat } else stampFault c)
        | some h =>
          let nb := loadBytes h
          let src := bits w 45 29
          let land := now + 8 + (nb + 255) / 256
          let bset := bits w 20 19
          let clash := !cell.mx.mloads.isEmpty
            || cell.mx.mmas.any (fun r => r.active && (List.range h.p).any (fun i => r.holds t.toNat (bset + i))
                 && (!c.timed || decide (land ≤ r.lastLand)))
          if !c.timed && (clash || mxPending cell.mx || (takeToks s c.key x.toks).isNone) then .wait
          else
            afterPop s1
              (if !stampOk c x then .error (stampFault c)
               else if src % 32 ≠ 0 ∨ 131072 < src + nb then .error { code := cAddr, taddr := taddr 0xFFFF (cidxOf c.key * 2 ^ 42 + src) }
               else if spadBad s c.key src nb then .error { code := cMemErr, taddr := taddr 0xFFFF (cidxOf c.key * 2 ^ 42 + src) }
               else if clash then .error { code := cSched }
               else match popToks s1 c x.toks with
                | .error f => .error f
                | .ok u =>
                  let (id, u) := fresh u
                  .ok (setMx u c.key fun m =>
                    { m with mloads := m.mloads ++ [{ land := land, per := !c.timed, t := t.toNat, hdr := h, bset := bset,
                                                      bytes := spadBytes s c.key c.key src nb, kd := x.toks.kd.toNat,
                                                      ord := id, pc := c.pc }] }))) s

/-- R255. MSEL. -/
def execMsel (mask : BitVec 8) (x : Stamp) (s : State) : Out :=
  mxWord x (fun _ _ => x.toks.kd ≠ 0) (fun _ _ => false)
    (fun c s =>
      .ok (if c.timed then
             addLatch s c.key { due := c.t + 1, tgt := .cem, val := mask.setWidth 2048, seq := c.seq, pc := c.pc }
           else setMx s c.key fun m => { m with cem := mask })) s

/-- R249, R250: a compute word: AFMT, WA, K, NSC, BSET, or a format error. -/
def compWordOk (w : Word) (mmas : Bool) : Option (Nat × Nat × Nat × Nat × Nat) :=
  let k := bits w 13 6 + 1
  let nsc := bits w 17 14
  if bits w 1 0 ≠ 0 ∨ bits w 3 2 = 3 ∨ bits w 5 4 = 3 ∨ bits w 63 20 ≠ 0 ∨ nsc ≠ (k + 31) / 32
      ∨ (!mmas ∧ 128 < k) ∨ (mmas ∧ k < 4) then none
  else some (bits w 3 2, 8 + 4 * bits w 5 4, k, nsc, bits w 19 18)

/-- R251: the headers of the enabled macros at a bank set, or none where they break the rule; with no macro enabled, the
header of R255. -/
def headersOk (m : MxState) (cem : BitVec 8) (bset k nsc : Nat) (mmas : Bool) : Option BankHdr :=
  let hs := (List.range 8).filterMap fun t => if cem.getLsbD t then some (hdrAt m t bset) else none
  match hs with
  | [] => some { valid := true, p := 1, nl := 8, k := k, nsc := nsc }
  | h :: _ =>
    if hs.all (fun x => x.valid && (x.sparse == mmas) && decide (x.k = k ∧ x.nsc = nsc ∧ x.bfmt = h.bfmt ∧ x.sfmt = h.sfmt
        ∧ x.live = h.live)) then some h else none

/-- MMA and MMAS (R256 to R260). DESIGN CHOICE, log 86: of several checks that fail at one issue the first of the stamp, the
compute word and headers, the conflicts and the tokens decides the fault. -/
def mmaWord (mmas : Bool) (q : BitVec 3) (x : Stamp) (s : State) : Out :=
  word lgMx []
    (fun c s =>
      let cell := cellAt s c.key
      let qn := 8 + q.toNat
      let want := if c.timed then QKind.sched else QKind.mem
      if !consumer s c qn ∨ (qFeed s c.key qn).kind ≠ want ∨ (!c.timed ∧ !stampOk c x) then illegal
      else match cell.mx.fq with
      | [] => shortRes c
      | w :: _ =>
        let s1 := popFq s c.key
        let now := if c.timed then c.t else s.per
        let cem := cell.mx.cem
        let fields := compWordOk w mmas
        let hdr := match fields with
          | some (_, _, k, nsc, b) => headersOk cell.mx cem b k nsc mmas
          | none => none
        let run : Option MmaRun := match fields, hdr with
          | some (af, wa, k, nsc, b), some h =>
            some { start := now, per := !c.timed, ord := 0, pc := c.pc, q := qn, mmas := mmas, cem := cem, afmt := af, wa := wa,
                   k := k, nsc := nsc, bset := b, rp := wa * (if cem = 0 then 1 else h.p),
                   m := (if mmas ∧ cem ≠ 0 then 8 / h.nl else 1), next := 0, rows := [], nland := 0, kd := x.toks.kd.toNat }
          | _, _ => none
        let busy := cell.mx.mmas.any fun r => if r.per then r.active else decide (now < r.engineEnd)
        let clash := match run with
          | some r => cell.mx.mloads.any fun l =>
              (List.range 8).any fun t => (List.range 4).any fun b =>
                r.holds t b && l.writes t b && (!c.timed || decide (l.land ≤ r.lastLand))
          | none => false
        let tiles := (List.range 8).any fun t => cem.getLsbD t && tileBusy cell t
        if !c.timed && (busy || clash || tiles || mxPending cell.mx || mxReads cell qn || (takeToks s c.key x.toks).isNone) then .wait
        else
          afterPop s1
            (if !stampOk c x then .error (stampFault c)
             else match run with
              | none => .error { code := cFormat }
              | some r =>
                if busy || clash then .error { code := cSched }
                else match popToks s1 c x.toks with
                  | .error f => .error f
                  | .ok u =>
                    let (id, u) := fresh u
                    .ok (setMx u c.key fun m => { m with mmas := m.mmas ++ [{ r with ord := id }] }))) s

/-- R256. MMA. -/
def execMma (q : BitVec 3) (x : Stamp) (s : State) : Out := mmaWord false q x s

/-- R256. MMAS. -/
def execMmas (q : BitVec 3) (x : Stamp) (s : State) : Out := mmaWord true q x s

/-- Clears the tiles of a mask. -/
def clearTiles (m : MxState) (mask : Nat) : MxState := { m with z := m.z.filter fun p => !mask.testBit (p.1 / 128) }

/-- Cleared tiles have no errors. -/
def healTiles (s : State) (key mask : Nat) : State := setCell s key ((cellAt s key).heal 1 fun n => mask.testBit (n / 256))

/-- Clears the push cursors of the tiles of a mask. -/
def clearPcur (m : MxState) (mask : Nat) : MxState := { m with pcur := m.pcur.filter fun p => !mask.testBit p.1 }

/-- R262. ZCLR. -/
def execZclr (mask : BitVec 8) (x : Stamp) (s : State) : Out :=
  mxWord x (fun _ _ => false)
    (fun c s => (List.range 8).any fun t => mask.getLsbD t && tileBusy (cellAt s c.key) t)
    (fun c s =>
      if c.timed then
        let s1 := addLatch s c.key { due := c.t + 1, tgt := .zclr mask.toNat, seq := c.seq, pc := c.pc }
        let s2 := addLatch s1 c.key { due := c.t + 1, tgt := .pcur mask.toNat, seq := c.seq, pc := c.pc }
        .ok (addTokAt s2 c x.toks.kd.toNat (c.t + 1))
      else
        let t := setMx (healTiles s c.key mask.toNat) c.key fun m => clearPcur (clearTiles m mask.toNat) mask.toNat
        match addTok t c.key x.toks.kd.toNat with
        | (u, true) => .ok u
        | (u, false) => .okFault u { code := cTokOv }) s

/-- The entries of a strip (R263). -/
def stripEnts (m : MxState) (t strip : Nat) (b16 : Bool) : List (BitVec 2048) :=
  if b16 then
    (List.range 4).map fun e =>
      BitVec.ofNat 2048 (packL 16 ((zRow m t (4 * strip + e)).map fun v => cvtFF fp32 bf16 0 false v))
  else
    (List.range 8).map fun e => BitVec.ofNat 2048 (packL 32 (((zRow m t (4 * strip + e / 2)).drop (64 * (e % 2))).take 64))

/-- The queue of a strip instruction: the stream's role and the kind its mode asks for (R263). -/
def stripQueueOk (s : State) (c : Ctx) (q : Nat) (prod : Bool) : Bool :=
  (if prod then producer s c q else consumer s c q)
    && decide ((qFeed s c.key q).kind = if c.timed then QKind.sched else QKind.mem)

/-- ZRD and ZRD.B16 (R263). -/
def zrdWord (b16 : Bool) (q t : BitVec 3) (st : BitVec 5) (x : Stamp) (s : State) : Out :=
  let qn := 8 + q.toNat
  mxWord x (fun c s => !stripQueueOk s c qn true)
    (fun c s => tileBusy (cellAt s c.key) t.toNat || mxWrites (cellAt s c.key) qn)
    (fun c s =>
      let (id, s1) := fresh s
      let es := stripEnts (cellAt s c.key).mx t.toNat st.toNat b16
      if zBad (cellAt s c.key) t.toNat (4 * st.toNat) 4 then .okFault s { code := cMemErr } else .ok (setMx s1 c.key fun m =>
        { m with strips := m.strips ++ [{ kind := 0, start := (if c.timed then c.t else s.per), per := !c.timed, ord := id,
                                          pc := c.pc, q := qn, t := t.toNat, s := st.toNat, ch := 0, next := 0,
                                          count := es.length, ents := es, kd := x.toks.kd.toNat }] })) s

/-- R263. ZRD. -/
def execZrd (q t : BitVec 3) (st : BitVec 5) (x : Stamp) (s : State) : Out := zrdWord false q t st x s

/-- R263. ZRD.B16. -/
def execZrdB16 (q t : BitVec 3) (st : BitVec 5) (x : Stamp) (s : State) : Out := zrdWord true q t st x s

/-- R263. ZWR. -/
def execZwr (q t : BitVec 3) (st : BitVec 5) (x : Stamp) (s : State) : Out :=
  let qn := 8 + q.toNat
  mxWord x (fun c s => !stripQueueOk s c qn false)
    (fun c s => tileBusy (cellAt s c.key) t.toNat || mxReads (cellAt s c.key) qn)
    (fun c s =>
      let (id, s1) := fresh s
      .ok (setMx s1 c.key fun m =>
        { m with strips := m.strips ++ [{ kind := 1, start := (if c.timed then c.t else s.per), per := !c.timed, ord := id,
                                          pc := c.pc, q := qn, t := t.toNat, s := st.toNat, ch := 0, next := 0, count := 8,
                                          ents := [], kd := x.toks.kd.toNat }] })) s

/-- ZPUSH and ZPUSH.B16 (R264). -/
def zpushWord (b16 : Bool) (t : BitVec 3) (ch : BitVec 8) (x : Stamp) (s : State) : Out :=
  word { spaces := [.mx], elastic := false } []
    (fun c s =>
      match chanOf s c.key ch.toNat with
      | none => illegal
      | some xch =>
        match chanDest s c.key xch with
        | none => illegal
        | some dest =>
          if qBits xch.q ≠ 2048 then illegal
          else if !stampOk c x then .fault (stampFault c)
          else withToks s c x.toks fun s1 =>
            let m := (cellAt s c.key).mx
            let es := stripEnts m t.toNat (sget 0 m.pcur t.toNat % 32) b16
            if zBad (cellAt s c.key) t.toNat (4 * (sget 0 m.pcur t.toNat % 32)) 4 then .okFault s1 { code := cMemErr } else
            let s2 := es.zipIdx.foldl (fun s p => sendChan s c.key dest xch p.1 false (c.t + 2 + p.2)) s1
            let lat := pushLat c.key dest (decide ((cellAt s c.key).ldie = xch.ldie))
            let s3 := addLatch s2 c.key { due := c.t + 1, tgt := .pcurStep t.toNat, seq := c.seq, pc := c.pc }
            .ok (addTokAt s3 c x.toks.kd.toNat (c.t + 1 + es.length + lat))) s

/-- R264. ZPUSH. -/
def execZpush (t : BitVec 3) (ch : BitVec 8) (x : Stamp) (s : State) : Out := zpushWord false t ch x s

/-- R264. ZPUSH.B16. -/
def execZpushB16 (t : BitVec 3) (ch : BitVec 8) (x : Stamp) (s : State) : Out := zpushWord true t ch x s

-- Events of the matrix engine --------------------------------------------------------------------------------------------------

/-- Who a fault of a running command is raised against. -/
def whoC (key pc : Nat) : Who := { key := key, seq := .c, pc := pc }

/-- A token for a completed command, or the overflow fault (R120). -/
def tokenFor (s : State) (key kd : Nat) (w : Who) : State :=
  match addTok s key kd with
  | (t, true) => t
  | (t, false) => takeFault t w { code := cTokOv, engn := true }

/-- The index and contents of the first element of a list that a test admits. -/
def findAt {α : Type} (p : α → Bool) (l : List α) : Option (Nat × α) := (l.zipIdx.find? fun x => p x.1).map fun x => (x.2, x.1)

/-- Whether a row of a command is to be taken now; in an elastic stream the take waits for its entries. A timed command takes
nothing at the H of a stop (R359). -/
def takeDue (s : State) (key : Nat) (r : MmaRun) : Bool :=
  decide (r.next < 128) && decide (r.takeAt r.next ≤ nowFor s key r.per)
    && (if !r.per then (regOf s key).goes else (working s key && decide (r.epr ≤ (qEnts s key r.q).length)))

/-- R256 to R259: the take of one row. In an elastic stream the take waits for its entries, and what follows waits with
it. DESIGN CHOICE, log 87: a command whose take faults takes no further row; the rows taken land, and it is over when none is
left (a first take that faults leaves nothing: R382). -/
def mmaTake (s : State) (key : Nat) : State :=
  let c := cellAt s key
  match findAt (takeDue s key) c.mx.mmas with
  | none => s
  | some (i, r) =>
    let es := qEnts s key r.q
    if es.length < r.epr then
      if r.per then s
      else takeFault (setMx s key fun m => { m with mmas := if r.rows.isEmpty then m.mmas.eraseIdx i else m.mmas.set i { r with next := 128 } })
        (whoC key r.pc) { code := cSched }
    else
      let dat (n : Nat) : BitVec 2048 := match es[n]? with
        | some e => if e.mark then 0 else e.data
        | none => 0
      let late := nowFor s key r.per - r.takeAt r.next
      let r := { r with start := r.start + late }
      let row : TakenRow := { row := r.next, land := r.landAt r.next, e0 := dat 0, e1 := dat 1 }
      let r' := { r with next := r.next + 1, rows := r.rows ++ [row] }
      let s := setQ s key r.q (es.drop r.epr)
      let s := setMx s key fun m => { m with mmas := m.mmas.set i r' }
      if r.next = 127 ∧ r.kd ≠ 0 then
        addLatch s key { due := row.land, per := r.per, tgt := .k r.kd, seq := .c, pc := r.pc }
      else s

/-- The first row of a command's taken rows that has landed for a reader now (R261): its landing lies below the present
cycle. -/
def rowDue (s : State) (key : Nat) (r : MmaRun) : Bool :=
  match r.rows with
  | x :: _ => decide (x.land < nowFor s key r.per) && (!r.per || working s key)
  | [] => false

/-- A fault of a command leaves it without the token that its last landing would add (R266). -/
def Cell.noKd (c : Cell) (r : MmaRun) : Cell :=
  { c with lat := c.lat.filter fun l => !(decide (l.tgt = .k r.kd ∧ l.seq = .c ∧ l.pc = r.pc ∧ l.due = r.landAt 127)) }

/-- The landing of one row (R148, R258, R261). -/
def mmaLand (s : State) (key : Nat) (due : MmaRun → Bool) : State :=
  let c := cellAt s key
  match findAt due c.mx.mmas with
  | none => s
  | some (i, r) =>
    match r.rows with
    | [] => s
    | x :: xs =>
      let r' := { r with rows := xs, nland := r.nland + 1 }
      if r.bad c x.row then
        takeFault (setCell s key { c.noKd r with mx := { c.mx with mmas := c.mx.mmas.eraseIdx i } }) (whoC key r.pc)
          { code := cMemErr, engn := true }
      else
      let m := contribute c.mx r x
      setCell s key { c with mx := { m with mmas := if r'.active then m.mmas.set i r' else m.mmas.eraseIdx i } }

/-- Elements of a packed array of bytes. -/
def packedEls (bs : List Byte) (ebits n : Nat) : List Nat := unpackL ebits n (ofBytes bs)

/-- Splits a list into rows of 128. -/
def rows128 {α : Type} (n : Nat) (l : List α) : List (List α) := (List.range n).map fun i => (l.drop (128 * i)).take 128

/-- R253, R254: the expansion of an MLOAD; none where a container or an index byte is invalid. DESIGN CHOICE, log 93: the planes,
exponents and NaN marks of a dead group are those of what the source holds for it. -/
def expandB (m : MxState) (l : MloadRun) : Option MxState :=
  let h := l.hdr
  let ks := if h.sparse then h.k / 2 else h.k
  let eb := bBits h.bfmt
  let dlen := ks * 128 * eb / 8
  let els := rows128 ks (packedEls (l.bytes.take dlen) eb (ks * 128))
  let sw := if h.sfmt = 0 then 8 else 16
  let scs := rows128 h.nsc (packedEls (l.bytes.drop dlen) sw (h.nsc * 128))
  let idx := if h.sparse then (l.bytes.drop (dlen + h.nsc * 128 * sw / 8)).take (h.k / 4) else []
  let per := if h.sparse then 16 else 32
  let live (g : Nat) : Bool := !h.sparse || h.live.testBit g
  let badIdx := idx.zipIdx.any fun p =>
    live (p.2 / 8) && decide (16 ≤ p.1.toNat ∨ (p.1.toNat / 4) % 4 ≤ p.1.toNat % 4)
  let bad3 := decide (h.bfmt = 1) && els.zipIdx.any fun p =>
    live (p.2 / per) && p.1.any fun x => decide ((x / 8) % 2 ≠ (x / 4) % 2)
  if badIdx || bad3 then none
  else
    let k0 := l.t * 4 + l.bset
    let m := (List.range h.nsc).foldl
      (fun m g =>
        let rows := (els.drop (per * g)).take per
        let cols : List (Option (Int × List Int)) := (List.range 128).map fun j =>
          let xs := rows.map fun r => r.getD j 0
          if h.bfmt < 2 then some (0, xs.map fun x => sintNat 4 x) else blockInts (bFmt h.bfmt) (bWidth h.bfmt) xs
        let m := { m with
          scale := sset m.scale (k0 * 8 + g) (BitVec.ofNat 2048 (packL 16 (scs.getD g []))),
          ebs := sset m.ebs (k0 * 8 + g) (cols.map fun c => match c with
            | some x => x.1
            | none => 0),
          nanm := sset m.nanm (k0 * 8 + g) (BitVec.ofNat 128 (packL 1 (cols.map fun c => if c.isNone then 1 else 0))) }
        (List.range rows.length).foldl
          (fun m i =>
            (List.range h.p).foldl
              (fun m p =>
                let nibs := cols.map fun c => match c with
                  | some x => ofInt (4 * h.p) (x.2.getD i 0) / 16 ^ p % 16
                  | none => 0
                { m with planes := sset m.planes ((k0 + p) * 128 + per * g + i) (BitVec.ofNat 512 (packL 4 nibs)) }) m) m) m
    some { m with ridx := sset m.ridx k0 idx, hdrs := sset m.hdrs k0 h }

/-- R248: the headers of a macro whose planes overlap a range become invalid. -/
def invalidate (m : MxState) (t b p : Nat) : MxState :=
  { m with hdrs := m.hdrs.map fun x =>
      if x.1 / 4 = t ∧ x.1 % 4 < b + p ∧ b < x.1 % 4 + x.2.p then (x.1, { x.2 with valid := false }) else x }

/-- Whether an MLOAD lands now. -/
def loadDue (s : State) (key : Nat) (l : MloadRun) : Bool :=
  decide (l.land ≤ nowFor s key l.per) && (!l.per || working s key)

/-- The landing of an MLOAD (R248, R253). -/
def mloadLand (s : State) (key : Nat) : State :=
  let c := cellAt s key
  match findAt (loadDue s key) c.mx.mloads with
  | none => s
  | some (i, l) =>
    let m := invalidate { c.mx with mloads := c.mx.mloads.eraseIdx i } l.t l.bset l.hdr.p
    match expandB m l with
    | some m' =>
      let k0 := 128 * (4 * l.t + l.bset)
      let c := c.heal 3 fun n => decide (k0 ≤ n ∧ n < k0 + 128 * l.hdr.p ∧ n % 128 < if l.hdr.sparse then l.hdr.k / 2 else l.hdr.k)
      tokenFor (setCell s key { c with mx := m' }) key l.kd (whoC key l.pc)
    | none => takeFault (setCell s key { c with mx := m }) (whoC key l.pc) { code := cFormat }

/-- The cycle of the next entry of a strip instruction: a landing of ZRD, a take of ZWR. -/
def StripRun.nextAt (x : StripRun) : Nat := x.start + x.next + (if x.kind = 0 then 2 else 0)

/-- Whether an entry of a strip instruction is due; in an elastic stream it waits for its queue. -/
def stripDue (s : State) (key : Nat) (x : StripRun) : Bool :=
  let n := (qEnts s key x.q).length
  decide (x.nextAt ≤ nowFor s key x.per)
    && (if !x.per then decide (x.kind = 0) || (regOf s key).goes else (working s key && (if x.kind = 0 then decide (n < qCap x.q) else decide (0 < n))))

/-- One entry of a strip instruction (R263): ZRD delivers it, ZWR takes it and its elements land two cycles later. DESIGN CHOICE,
log 87: a strip whose entry faults has no further entries. -/
def stripStep (s : State) (key : Nat) : State :=
  let c := cellAt s key
  match findAt (stripDue s key) c.mx.strips with
  | none => s
  | some (i, x) =>
    let late := nowFor s key x.per - x.nextAt
    let x' := { x with start := x.start + late, next := x.next + 1 }
    let put (s : State) : State :=
      setMx s key fun m => { m with strips := if x'.next < x.count then m.strips.set i x' else m.strips.eraseIdx i }
    let drop (s : State) : State := setMx s key fun m => { m with strips := m.strips.eraseIdx i }
    let es := qEnts s key x.q
    if x.kind = 0 then
      if qCap x.q ≤ es.length then
        if x.per then s else takeFault (drop s) (whoC key x.pc) { code := cSched }
      else
        let s := put (setQ s key x.q (es ++ [{ data := x.ents.getD x.next 0 }]))
        if x'.next = x.count then tokenFor s key x.kd (whoC key x.pc) else s
    else
      match es with
      | [] => if x.per then s else takeFault (drop s) (whoC key x.pc) { code := cSched }
      | e :: rest =>
        if e.mark then takeFault (drop (setQ s key x.q rest)) (whoC key x.pc) { code := cFormat }
        else
          let land := nowFor s key x.per + 2
          let s := put (setQ s key x.q rest)
          let s := addLatch s key { due := land, per := x.per, tgt := .zent x.t (4 * x.s + x.next / 2) (64 * (x.next % 2)),
                                    val := e.data, seq := .c, pc := x.pc }
          if x'.next = x.count ∧ x.kd ≠ 0 then
            addLatch s key { due := land, per := x.per, tgt := .k x.kd, seq := .c, pc := x.pc }
          else s

/-- MMA_ROW_TAKE (R258, R259). -/
def execMmaRowTake (key : Nat) (s : State) : Out := .next (mmaTake s key)

/-- MMA_ROW_LANDING (R258, R261). -/
def execMmaRowLanding (key : Nat) (s : State) : Out := .next (mmaLand s key (rowDue s key))

/-- MLOAD_LANDING (R253). -/
def execMloadLanding (key : Nat) (s : State) : Out := .next (mloadLand s key)

/-- STRIP_ENTRY_LANDING (R263). -/
def execStripEntryLanding (key : Nat) (s : State) : Out := .next (stripStep s key)

end Sys2Proof.Machine
end

