-- ==== Sys2Proof/Machine/MemEvents.lean ====
section
/-! DEFINITION. Requests at their homes and their responses, and the end of engine operations (R70, R81 to R83, R89,
R99, R100, R105, R115, R121 to R125, R194 to R197, R225, R469). -/

namespace Sys2Proof.Machine

-- Requests ---------------------------------------------------------------------------------------------------------------

/-- Whether a request is an atomic. -/
def Req.atomic (r : Req) : Bool :=
  match r.kind with
  | .amo _ | .cas | .faddw => true
  | _ => false

/-- A request has its place in the order of its location: it is over, applied, or in the outbound module of its die
(R105, R115). -/
def reqPlaced (r : Req) : Bool := r.applied || (decide (r.kind = .store) && decide (r.out ≠ 0) && !r.peer)

/-- Everything that must be performed before a request is: what went before it at its location (R105), and what a release
waits for, visible at DIE scope or returned (R114). -/
def reqFree (s : State) (r : Req) : Bool :=
  (r.after.all fun i => match sfind s.reqs i with
    | some q => reqPlaced q
    | none => true)
  && r.relAfter.all fun i => match sfind s.reqs i with
    | some q => reqDone q 2
    | none => true

/-- The sectors of a request: tile, first and last. -/
def reqSectors (s : State) (r : Req) : Nat × Nat × Nat :=
  match descFor s r.ctx (tidOf r.addr) with
  | none => (0, 0, 0)
  | some d =>
    let p := reqPlace d r
    let q := secRange p.2.1 p.2.2
    (p.1, q.1, q.2)

/-- A store replaces a sector whole: a line, or an element of 32 bytes. -/
def wholeSector (s : State) (r : Req) : Bool :=
  decide (r.line.length = 31) || (decide (r.kind = .store) && decide (r.n = 32) &&
    match descFor s r.ctx (tidOf r.addr) with
    | some d => decide ((reqPlace d r).2.1 % 32 = 0)
    | none => false)

/-- An uncorrectable error in a sector of a request, or a failed base (R83, R488). A store that replaces a sector whole merges with
nothing. -/
def reqBad (s : State) (r : Req) : Bool :=
  let (tile, lo, hi) := reqSectors s r
  let e := entryOf s r.ctx (tidOf r.addr) tile
  if wholeSector s r then baseFailed s e else (List.range (hi + 1 - lo)).any fun j => sectorBad s e (32 * (lo + j))

/-- Removes a request. -/
def dropReq (s : State) (id : Nat) : State := { s with reqs := sdel s.reqs id }

/-- Replaces a request. -/
def setReq (s : State) (id : Nat) (r : Req) : State := { s with reqs := sset s.reqs id r }

/-- A request's fault is raised against its word; the request is over, and its operation stops: elements after it are not moved
(R224). In a timed stream a memory error may become a shadow entry (R358). -/
def reqFault (s : State) (id : Nat) (r : Req) (code applied : Nat) : State :=
  takeFault (if r.op = 0 then dropReq s id else opStopped (dropReq s id) r.op)
    { key := r.key, seq := r.seq, pc := r.pc, word := r.word }
    { code := code, taddr := r.addr, applied := applied, engn := decide (r.op ≠ 0),
      shadow := if r.timed ∧ r.op = 0 ∧ code = cMemErr then some (r.va, r.vb, BitVec.ofNat 2048 r.data2, (regAt s r.reg).tide) else none }

/-- Bytes of an operation's write count on its barrier once the write is visible (R235, R317), the operation over or not; a
barrier fault stops it (R224, R304). -/
def reqLand (s : State) (r : Req) : State :=
  if r.op = 0 ∨ r.data2 = 0 then s
  else match barLanded s r.key r.bar r.data2 with
    | .ok s => s
    | .error e => takeFault (opStopped s r.op) { key := r.key, seq := r.seq, pc := r.pc } { code := e, taddr := r.bar, engn := true }

/-- The sectors that a read gets (R70), each from the buffer, from a combined read, or from the home under the writes of its
die and its cell; one that a later store of the cell has overtaken reads the home (R105), and what bypasses the buffer sees its
die's writes alone. -/
def readSecs (s : State) (id : Nat) (r : Req) (tile lo n : Nat) : List (Nat × Nat × BitVec 256) × List Nat :=
  (List.range n).foldl
    (fun acc j =>
      let sec := lo + j
      let t := tidOf r.addr
      let (d, ids) :=
        if r.bypass then dieSector s r.key r.ctx t tile sec
        else if r.noInstall then cellSector s id r.key r.ctx t tile sec
        else match (sectsOf s r.key).find? fun e => decide (e.tens = t ∧ e.tile = tile ∧ e.sec = sec) with
          | some e => (e.data, e.saw)
          | none =>
            match combined s r.key t tile sec with
            | some x => x
            | none => cellSector s id r.key r.ctx t tile sec
      (acc.1 ++ [(tile, sec, d)], acc.2 ++ ids)) ([], [])

/-- A read sends a request of its own to the home: a sector is neither in the buffer nor combined with a read that is under way
(R70). -/
def reachesHome (s : State) (r : Req) (tile lo n : Nat) : Bool :=
  let t := tidOf r.addr
  r.bypass || r.noInstall || (List.range n).any fun j =>
    !((sectsOf s r.key).any fun e => decide (e.tens = t ∧ e.tile = tile ∧ e.sec = lo + j)) && (combined s r.key t tile (lo + j)).isNone

/-- The n bytes from a byte offset within consecutive sectors. -/
def secsValue (secs : List (Nat × Nat × BitVec 256)) (off n : Nat) : Nat :=
  let v := packL 256 (secs.map fun x => x.2.2.toNat)
  (v / 2 ^ (8 * (off % 32))) % 2 ^ (8 * n)

/-- The operations of AMO (R194) on w bits. -/
def amoOp (op w old b : Nat) : Nat :=
  let x := old % 2 ^ w
  let y := b % 2 ^ w
  let lt := decide (sintNat w x < sintNat w y)
  match op with
  | 0 => (x + y) % 2 ^ w
  | 1 => x &&& y
  | 2 => x ||| y
  | 3 => x ^^^ y
  | 4 => if lt then x else y
  | 5 => if lt then y else x
  | 6 => Nat.min x y
  | 7 => Nat.max x y
  | _ => y

/-- What an atomic leaves in its location and what it answers with: the value before, and whether a CAS stored. -/
def atomicResult (s : State) (r : Req) (old : Nat) : Nat × Nat × State :=
  let w := 8 * r.n
  match r.kind with
  | .amo op => (amoOp op w old r.data, old, s)
  | .cas =>
    let (k, s) := if r.use = 4 then freeNum s else (0, s)
    let ok := decide (old = r.data2) && !(decide (r.use = 4) && Config.spuriousCas k)
    (if ok then r.data else old, old + (if ok then 2 ^ 64 else 0), s)
  | .faddw => ((old + r.data) % 2 ^ 256, old, s)
  | _ => (old, old, s)

/-- An atomic is applied at its home, indivisibly (R89, R100, R124). -/
def applyAtomic (s : State) (id : Nat) (r : Req) : State :=
  match descFor s r.ctx (tidOf r.addr) with
  | none => s
  | some d =>
    let p := placeOf d r.addr
    let s := zeroFill s r.ctx (tidOf r.addr) p.1
    let old := ofBytes (homeRead s r.ctx (tidOf r.addr) p.1 p.2 r.n)
    let (new, val, s) := atomicResult s r old
    let s := homeWrite s r.ctx (tidOf r.addr) p.1 p.2 (toBytes r.n new)
    let s := hotSample s r.ctx (tidOf r.addr) p.1
    reqLand (setReq s id { r with applied := true, value := val, due := s.per + Config.accessPeriods }) r

/-- What a request to a peer tensor asks of the home, as `PeerReq` numbers it: bytes to read, bytes that go with it, and the
operation. -/
def peerOp (d : Desc) (r : Req) : Nat × List Byte × Nat :=
  match r.kind with
  | .load | .faddr => (r.n, [], 0)
  | .store => if r.sext then (0, toBytes 1 r.data, 12 + (d.locate (idxOf r.addr)).2 / 4 % 2) else (0, toBytes r.n r.data, 0)
  | .amo op => (0, toBytes r.n r.data, 1 + op)
  | .cas => (0, toBytes r.n r.data2 ++ toBytes r.n r.data, 11)
  | .faddw => (0, toBytes r.n r.data, 10)

/-- R469. A request to a peer tensor leaves over the link of R465 with the cached frame; without one the home is first asked for
the tile's entry. What the home answers is free (log 6). -/
def applyPeer (s : State) (id : Nat) (r : Req) : State :=
  match peerOf s r.ctx (tidOf r.addr), descFor s r.ctx (tidOf r.addr) with
  | some (pkg, rt, rc), some d =>
    (match linkTo s pkg with
      | none => s
      | some j =>
        let (tile, off, _) := reqPlace d r
        let k := ptcKey j r.ctx (tidOf r.addr) tile
        match sfind s.ptc k with
        | some f =>
          let (v, s) := freeBits s (8 * r.n)
          let v := if r.kind = .cas then v + 2 ^ 64 * (if v = r.data2 then 1 else 0) else v
          let (nread, bs, op) := peerOp d r
          let s := sendPkg s pkg 102 ([rc, rt, tile, off, f.toNat, nread, op, id].map (BitVec.ofNat 64)) bs
          setReq s id { r with applied := true, out := j + 1, value := v, due := s.per + Config.accessPeriods }
        | none =>
          if r.out = 0 then
            let s := sendPkg s pkg 102 ([rc, rt, tile, off, 0, 0, 0, id].map (BitVec.ofNat 64)) []
            setReq s id { r with out := j + 1, due := s.per + Config.accessPeriods }
          else
            let (n, s) := freeNum s
            setReq { s with ptc := sset s.ptc k (Config.freeWord n) } id { r with out := 0, due := s.per + 1 })
  | _, _ => s

/-- A request reaches its home. A store of a cell first enters the outbound module of its die, where its die sees it
(R115), and then its home; atomics and bypassing reads come after the stores of the die to their sector. -/
def applyReq (s : State) (id : Nat) (r : Req) : State :=
  let (tile, lo, hi) := reqSectors s r
  let t := tidOf r.addr
  let n := hi + 1 - lo
  let clear := (List.range n).all fun j => isCore r.key || sectorClear s r.key r.ctx t tile (lo + j)
  if r.applied ∨ r.lost ∨ !reqFree s r then s
  else if r.peer then applyPeer s id r
  else
    match r.kind with
    | .store =>
      if !isCore r.key ∧ r.out = 0 then
        let s := { s with nextId := s.nextId + 1 }
        reqLand (setReq s id { r with out := s.nextId - 1, due := s.per + Config.accessPeriods }) r
      else
        let earlier := !isCore r.key && (dieStores s (dieOf r.key)).any fun p =>
          decide (p.2.out < r.out) && (List.range n).any fun j => touches s p.2 r.ctx t tile (lo + j)
        if earlier then s
        else
          let s := zeroFill s r.ctx t tile
          if reqBad s r then reqFault s id r cMemErr 0
          else hotSample (homeStore (dropReq s id) r) r.ctx t tile
    | .load | .faddr =>
      if reqBad s r then reqFault s id r cMemErr 0
      else
        let own := reachesHome s r tile lo n
        let (secs, ids) := readSecs s id r tile lo n
        let s := if r.noInstall ∧ !r.bypass then secs.foldl (fun s x => sectRenew s r.key r.ctx t x.1 x.2.1) s else s
        let off := match descFor s r.ctx t with
          | some d => (placeOf d r.addr).2
          | none => 0
        let v := secsValue secs off r.n
        let v := if r.kind = .faddr then faddrOf v else v
        let s := setReq s id { r with applied := true, value := v, secs := secs, saw := ids, due := s.per + Config.accessPeriods }
        if own then hotSample s r.ctx t tile else s
    | _ =>
      if !clear then s
      else
        let s := zeroFill s r.ctx t tile
        if reqBad s r then reqFault s id r cMemErr 0 else applyAtomic s id r

/-- R105, R121. MEMORY_REQUEST_APPLY: a request is applied, or an engine operation goes on by one unit. -/
def execMemoryRequestApply (req : Nat) (s : State) : Out :=
  .next
    (match sfind s.reqs req with
      | some r => applyReq s req r
      | none =>
        match sfind s.ops req with
        | some o => if o.kind = .coll then collUnit s req o else if walkTurn s o then opAdvance s req else s
        | none => s)

/-- The value that a reply register takes. -/
def replyValue (r : Req) : Word :=
  match r.kind with
  | .load => if r.sext then sextNat (8 * r.n) r.value else BitVec.ofNat 64 (r.value % 2 ^ (8 * r.n))
  | .faddr => BitVec.ofNat 64 r.value
  | _ => sextNat (8 * r.n) r.value

/-- What a home answers to a read of an operation is there for its unit (R469). -/
def opGets (s : State) (r : Req) : State :=
  match (if r.peer ∧ r.kind = .load ∧ r.op ≠ 0 then sfind s.ops r.op else none) with
  | none => s
  | some o =>
    let k := match r.sec with
      | some x => x + 1
      | none => 0
    { s with ops := sset s.ops r.op { o with got := o.got ++ [(r.addr, k, r.value)], due := s.per + 1 } }

/-- A response is delivered: sectors enter the buffer (R70), reply registers are written, and the writes read are
observed (R114, R116). -/
def deliver (s : State) (id : Nat) (r : Req) : State :=
  let s := dropReq s id
  let s := opGets (if r.peer then reqLand s r else s) r
  if !r.reads then s
  else
    let s := if r.bypass ∨ r.noInstall then s
             else r.secs.foldl (fun s x => sectFill s r.key { tens := tidOf r.addr, tile := x.1, sec := x.2.1, data := x.2.2, saw := r.saw }) s
    let s := writeA s r.key r.dst (replyValue r)
    let s := if r.kind = .cas then writeA s r.key r.flag (BitVec.ofNat 64 (r.value / 2 ^ 64)) else s
    let s := if r.acq then dropSects s r.key else s
    if r.saw.isEmpty ∨ isCore r.key then s
    else
      let st := streamAt s r.key r.seq
      setStreamAt s r.key r.seq { st with obs := (st.obs ++ r.saw).eraseDups }

/-- R70. MEMORY_RESPONSE. -/
def execMemoryResponse (req : Nat) (s : State) : Out :=
  .next
    (match sfind s.reqs req with
      | some r => if r.applied ∧ !r.lost then deliver s req r else s
      | none => s)

/-- Remote atomics cross a UCIe module (R125): those of compute cells and cores, and those to another base or package. -/
def remoteReq (s : State) (r : Req) : Bool :=
  r.peer || isCore r.key || decide (r.key < 2304)
    || decide (bits (entryOf s r.ctx (tidOf r.addr) (reqSectors s r).1) 20 18 ≠ slotOf r.key - 12)

/-- A returning atomic (R123). -/
def Req.returning (r : Req) : Bool := decide (r.dst ≠ 0) || decide (r.flag ≠ 0)

/-- Adds 1 to APERR.CNT (R125). -/
def countAperr (s : State) (key : Nat) : State :=
  let c := cellAt s key
  setCell s key { c with csr := { c.csr with aperr := satInc c.csr.aperr } }

/-- R125. An error response to a remote atomic: APPLIED_ERR after its effect, or one that states that there was none. -/
def execAtomicErrorResponse (req : Nat) (applied : Bool) (s : State) : Out :=
  .next
    (match sfind s.reqs req with
      | none => s
      | some r =>
        if !r.atomic ∨ !remoteReq s r then s
        else if applied then
          let s1 := applyReq s req r
          match sfind s1.reqs req with
          | none => s1
          | some r1 =>
            if !r1.applied then s
            else if r1.returning then reqFault s1 req r1 cAtomic 1
            else if isCore r1.key then dropReq s1 req
            else
              let s2 := countAperr (if r1.peer then reqLand (dropReq s1 req) r1 else dropReq s1 req) r1.key
              let (k, s3) := freeNum s2
              let s4 := { s3 with outputs := s3.outputs ++ [{ conn := 2000, seq := 0, typ := 103, data := [Config.telemetryRecord k], sentT := s3.tick }] }
              postEvent s4 harbourCore 6 r1.reg 0xD 0
        else if r.applied then s
        else reqFault s req r cAtomic 0)

/-- R125. ATOMIC_TIMEOUT: no response within 200,000 reference ticks; whether it was applied is unknown. -/
def execAtomicTimeout (req : Nat) (s : State) : Out :=
  .next
    (match sfind s.reqs req with
      | none => s
      | some r => if r.atomic ∧ remoteReq s r ∧ r.born + 200000 ≤ s.tick then reqFault s req r cAtomic 2 else s)

/-- The FENCE.SYS of a stream that has waited for 200,000 reference ticks (R472). -/
def sysLate (s : State) (key : Nat) (q : Seq) : Option FenceT :=
  (streamAt s key q).fences.find? fun f =>
    decide (f.scope = 4 ∧ f.id ≠ 0 ∧ f.born + 200000 ≤ s.tick) && !fenceDone s key q f.scope

/-- The agents that have a stream: cells with their sequencers, and the cores. -/
def streamKeys (s : State) : List (Nat × Seq) :=
  s.cells.flatMap (fun p => [Seq.s, .l, .c, .w].map fun q => (p.1, q)) ++ s.cores.map fun p => (coreKey + p.1, Seq.s)

/-- A FENCE.SYS that has waited too long raises LINK, and is over (R472). -/
def fenceLink (s : State) (id : Nat) : State :=
  match (streamKeys s).findSome? fun p => (sysLate s p.1 p.2).bind fun f => if f.id = id then some (p, f) else none with
  | none => s
  | some ((key, q), f) =>
    let st := streamAt s key q
    takeFault (setStreamAt s key q { st with fences := st.fences.filter fun x => decide (x.id ≠ id) })
      { key := key, seq := q, pc := f.pc } { code := cLink }

/-- R472. PEER_ACCESS_TIMEOUT: a peer access without a response within 200,000 reference ticks, or a FENCE.SYS that has waited for
as long. -/
def execPeerAccessTimeout (req : Nat) (s : State) : Out :=
  .next
    (match sfind s.reqs req with
      | none => fenceLink s req
      | some r => if r.peer ∧ !r.atomic ∧ r.born + 200000 ≤ s.tick then reqFault s req r cLink 2 else s)

-- Ends of engine operations -----------------------------------------------------------------------------------------------

/-- The effects of an operation's completion: its reply, its token, the input tile of a task. -/
def opDone (s : State) (id : Nat) (o : Op) : State :=
  let s := { s with ops := sdel s.ops id }
  let s := writeA s o.key o.dst o.reply
  let s :=
    if o.kind = .input then
      let c := cellAt s o.key
      setCell s o.key { c with task := c.task.map fun t => { t with inputs := t.inputs - 1 } }
    else s
  let (s, ok) := addTok s o.key o.kd
  if ok then s else takeFault s { key := o.key, seq := o.seq, pc := o.pc } { code := cTokOv, engn := true }

/-- The writes to a registers that the S stream issued before an ENG operation have landed: what consumes the operation's token
sees them (R226). -/
def sWritten (s : State) (id : Nat) (o : Op) : Bool :=
  !o.kind.isEng ||
    (!(s.reqs.any fun p => decide (p.1 < id) && decide (p.2.key = o.key) && decide (p.2.seq = .s) && decide (p.2.op = 0)
        && (decide (p.2.dst ≠ 0) || decide (p.2.flag ≠ 0)))
      && !(s.ops.any fun p => decide (p.1 < id) && decide (p.2.key = o.key) && p.2.kind.isEng && decide (p.2.dst ≠ 0))
      && !((cellAt s o.key).lat.any fun l => decide (l.ord < id) && decide (l.seq = .s) && match l.tgt with
        | .a _ => true
        | _ => false))

/-- An operation completes now: all its units are done and visible. A schedule-fed RDQ ends at its last landing (R230). -/
def opOver (s : State) (id : Nat) (o : Op) : Bool :=
  o.units && opVisible s id && opLive s o && sWritten s id o && !(decide (o.kind = .rdq) && o.hold)

/-- R121. ENGINE_OP_COMPLETE. -/
def execEngineOpComplete (op : Nat) (s : State) : Out :=
  .next
    (match sfind s.ops op with
      | none => s
      | some o => if opOver s op o then opDone s op o else s)

/-- An operation waits for a queue. -/
def waitsQueue (s : State) (id : Nat) (o : Op) : Bool :=
  (o.source.isSome || o.sink.isSome) && !(o.kind.isGram && !gramTurn s o) && opLive s o && !(decide (o.kind = .rdq) && o.hold)
    && match opUnit s id o with
      | .wait => true
      | _ => false

/-- Every fault of a GROW leaves its mark in GRSTAT (R314). -/
def growMark (s : State) (o : Op) : State :=
  if o.kind = .grow then setGs s o.key { (cellAt s o.key).gs with flt := true, frule := 0, fdep := 0 } else s

/-- R225. QUEUE_WAIT_TIMEOUT: an operation without progress on a queue for longer than STALLTO reference ticks. -/
def execQueueWaitTimeout (op : Nat) (s : State) : Out :=
  .next
    (match sfind s.ops op with
      | none => s
      | some o =>
        if o.t0 + (regAt s o.reg).stallto.toNat < s.tick ∧ waitsQueue s op o then opFault (growMark s o) op o cStall 0 else s)

end Sys2Proof.Machine
end

