-- ==== Sys2Proof/Machine/Device.lean ====
section
/-! DEFINITION. The device's own accesses and answers: bytes of a context's tensors (R414, R416, R440), messages to hosts
and completion entries (R416, R423), pins and leases (R433, R436, R441, R443), and the release of regions (R30, R424,
R425, R432). -/

namespace Sys2Proof.Machine

-- Bytes of a context's tensors (R414, R416, R440) ----------------------------------------------------------------------

/-- The status of R414, R416 and R440 for n bytes from a tensor address on: 0 OK, 4 ADDR, 5 ABSENT. DESIGN CHOICE, log 89: bytes of a
sector with an uncorrectable error are answered as those of a failed base are. -/
def hostRange (s : State) (ctx : Nat) (a : Word) (n : Nat) : Nat :=
  match descFor s ctx (tidOf a) with
  | none => 4
  | some d =>
    let b := fmtBits d.fmt
    if d.fmt = 14 ∨ 8 * n % b ≠ 0 ∨ d.count < idxOf a + 8 * n / b then 4
    else if isBoot ctx (tidOf a) then 0
    else if (((List.range (8 * n / b)).map fun i => (d.locate (idxOf a + i)).1).eraseDups).any fun t =>
        let e := entryOf s ctx (tidOf a) t
        decide (entState e = 0) || s.failed.contains (12 + bits e 20 18) then 5
    else if !s.bad.isEmpty && (List.range (8 * n / b)).any (fun i =>
        let p := d.locate (idxOf a + i)
        sectorBad s (entryOf s ctx (tidOf a) p.1) (p.2 / 8)) then 5
    else 0

/-- n bytes of a tensor in linear-index order (R416). -/
def hostRead (s : State) (ctx : Nat) (a : Word) (n : Nat) : List Byte :=
  match descFor s ctx (tidOf a) with
  | none => List.replicate n 0
  | some d =>
    let b := fmtBits d.fmt
    let elem (i : Nat) : List Byte :=
      let p := d.locate (idxOf a + i)
      homeRead s ctx (tidOf a) p.1 (p.2 / 8) ((b + 7) / 8)
    let nib (i : Nat) : Nat :=
      let x := ((elem i).headD 0).toNat
      if (d.locate (idxOf a + i)).2 % 8 = 0 then x % 16 else x / 16
    if b = 4 then (List.range n).map fun j => BitVec.ofNat 8 (nib (2 * j) + 16 * nib (2 * j + 1))
    else (List.range (8 * n / b)).flatMap elem

/-- Writes bytes to a tensor in linear-index order (R416). -/
def hostWrite (s : State) (ctx : Nat) (a : Word) (bs : List Byte) : State :=
  match descFor s ctx (tidOf a) with
  | none => s
  | some d =>
    let b := fmtBits d.fmt
    (List.range (8 * bs.length / b)).foldl
      (fun s i =>
        let p := d.locate (idxOf a + i)
        if b = 4 then homeWriteNib s ctx (tidOf a) p.1 p.2 ((bs.getD (i / 2) 0).toNat / 16 ^ (i % 2))
        else homeWrite s ctx (tidOf a) p.1 (p.2 / 8) ((bs.drop (i * (b / 8))).take (b / 8))) s

/-- R482. The bases' samplers count an access of the host's side: one request for each sector of a tile (log 98). -/
def hostCount (s : State) (ctx : Nat) (a : Word) (n : Nat) : State :=
  match descFor s ctx (tidOf a) with
  | none => s
  | some d =>
    (((List.range (8 * n / fmtBits d.fmt)).map fun i => let p := d.locate (idxOf a + i); (p.1, p.2 / 256)).eraseDups).foldl
      (fun s p => hotSample s ctx (tidOf a) p.1) s

/-- The tensor address n bytes after one, in elements of the tensor. -/
def byteAfter (s : State) (ctx : Nat) (a : Word) (n : Nat) : Word :=
  match descFor s ctx (tidOf a) with
  | none => a
  | some d => taddr (tidOf a) (idxOf a + 8 * n / fmtBits d.fmt)

/-- Writes bytes where the place can be written; otherwise they are lost. -/
def hostPut (s : State) (ctx : Nat) (a : Word) (bs : List Byte) : State :=
  if hostRange s ctx a bs.length = 0 then hostCount (hostWrite s ctx a bs) ctx a bs.length else s

/-- The eight-byte words of a byte list. -/
def wordsOf : Nat → List Byte → List Word
  | 0, _ => []
  | n + 1, bs => BitVec.ofNat 64 (ofBytes (bs.take 8)) :: wordsOf n (bs.drop 8)

-- Messages to hosts (R414, R416) --------------------------------------------------------------------------------------------

/-- R416. RESP, which is kept for a duplicate of its request. -/
def sendResp (s : State) (conn rseq status : Nat) (value : Word) (bytes : List Byte) : State :=
  let data := [BitVec.ofNat 64 (rseq + status * 2 ^ 32), value]
  let m : OutMsg := { conn := conn, gen := (connAt s conn).gen, seq := (connAt s conn).tx, typ := tResp, data := data, bytes := bytes, sentT := s.tick }
  let s := sendHost s conn tResp 0 data bytes
  match sfind s.conns conn with
  | none => s
  | some c => setConn s conn { c with resps := (c.resps ++ [(rseq, m)]).drop (c.resps.length + 1 - 1024) }

-- Queues and completions (R418, R421, R423) ------------------------------------------------------------------------------

/-- A queue, if it exists. -/
def queueAt (s : State) (n : Nat) : Option HQueue := sfind s.queues n

/-- Word 4 of a queue's descriptor (R418). -/
def queueWord4 (q : HQueue) : Word :=
  BitVec.ofNat 64 (q.tail.toNat + q.cons.toNat * 2 ^ 16 + q.dne.toNat * 2 ^ 32 + (if q.err then 2 ^ 48 else 0) + q.errc.toNat * 2 ^ 49)

/-- Replaces a queue; the live state of one that is switched out stands in word 4 of its descriptor (R421). -/
def setQueue (s : State) (n : Nat) (q : HQueue) : State :=
  let s := { s with queues := sset s.queues n q }
  if q.live then s else hostPut s q.ctx (byteAfter s q.ctx q.desc 32) (toBytes 8 (queueWord4 q).toNat)

/-- The context of a queue, of which the management context is 255. -/
def queueCtx (s : State) (n : Nat) : Nat :=
  match queueAt s n with
  | some q => q.ctx
  | none => 255

/-- Statuses of Table 9 of chapter 20. -/
def stOk : Nat := 0
def stMix : Nat := 1
def stCrc : Nat := 2
def stPlan : Nat := 3
def stLease : Nat := 4
def stSave : Nat := 5
def stPrio : Nat := 6
def stHalted : Nat := 7
def stEnded : Nat := 8
def stFailed : Nat := 9
def stNoRegion : Nat := 10
def stBadCmd : Nat := 11
def stCtx : Nat := 12

/-- R423. A completion entry is written at index DONE of the completion ring; with NOTIFY it is also sent. -/
def complete (s : State) (c : CmdRef) (status handle fcode disc slot : Nat) : State :=
  match queueAt s c.queue with
  | none => s
  | some q =>
    let w0 : Word := BitVec.ofNat 64 (c.tag.toNat + (c.opc % 256) * 2 ^ 16 + status * 2 ^ 24 + (handle % 65536) * 2 ^ 32)
    let w1 : Word := BitVec.ofNat 64 (fcode % 65536 + (Nat.min disc 0xFFFFFFFF) * 2 ^ 16 + (slot % 2048) * 2 ^ 48)
    let s := hostPut s q.ctx (byteAfter s q.ctx q.cring (16 * (q.dne.toNat % 2 ^ q.lg))) (toBytes 8 w0.toNat ++ toBytes 8 w1.toNat)
    let s := setQueue s c.queue { q with dne := q.dne + 1 }
    if c.notify then sendHost s q.conn tEvent c.queue [BitVec.ofNat 64 c.queue, w0, w1] [] else s

/-- Completes a command if one is outstanding. -/
def completeOpt (s : State) (c : Option CmdRef) (status handle fcode disc slot : Nat) : State :=
  match c with
  | some x => complete s x status handle fcode disc slot
  | none => s

/-- The commands of a region that are outstanding until its run ends: its LAUNCH and its RESUMEs (R422). -/
def Region.runCmds (r : Region) : List CmdRef := r.older ++ r.cmd.toList

/-- R422. The LAUNCH and the RESUMEs of a region complete. -/
def completeRun (s : State) (r : Region) (status fcode disc slot : Nat) : State :=
  r.runCmds.foldl (fun s c => complete s c status r.handle fcode disc slot) s

/-- The key of a context's save slot. -/
def slotKey (ctx slot : Nat) : Nat := ctx * 4096 + slot

-- Pins (R433, R436, R437, R441, R443) ------------------------------------------------------------------------------------------

/-- Changes the pins of a tile by one. -/
def pinTile (s : State) (ctx tens tile : Nat) (up : Bool) : State :=
  let e := entryOf s ctx tens tile
  let p := if up then entPins e + 1 else entPins e - 1
  setEntry s ctx tens tile (mkEntry (entState e) p (bits e 20 18) (bits e 23 21) (bits e 43 24) (entGen e))

/-- The tiles of a lease. -/
def leaseTiles (l : Lease) : List Nat := (List.range l.count).map fun i => l.first + i

/-- Asks another package to pin a range (kind 1 to 3) or to release it (kind 0) (R468). -/
def sendPin (s : State) (pkg : Nat) (ctx tens first count kind : Nat) : State :=
  sendPkg s pkg 106 [BitVec.ofNat 64 ctx, BitVec.ofNat 64 tens, BitVec.ofNat 64 first, BitVec.ofNat 64 count, BitVec.ofNat 64 kind] []

/-- Releases one lease: each pin of a local tile, or the range at its home, unless the home refused it. -/
def unpinLease (s : State) (ctx : Nat) (l : Lease) (refused : Bool) : State :=
  match l.peer with
  | some p =>
    match peerOf s ctx l.tens with
    | some (_, rt, rc) => if refused then s else sendPin s p rc rt l.first l.count 0
    | none => s
  | none => (leaseTiles l).foldl (fun s t => pinTile s ctx l.tens t false) s

/-- R443. The leases of a region are released. -/
def releaseLeases (s : State) (h : Nat) : State :=
  let r := regAt s h
  if !r.pinned then s
  else
    let s := setReg s h { r with pinned := false, asks := [] }
    r.leases.zipIdx.foldl (fun s p => unpinLease s r.ctx p.1 (r.asks.any fun a => decide (a.1 = p.2 ∧ a.2.2.2 = 2))) s

/-- The save area of a context: tensor id, slot bytes as a power of 2, and slots (R427, R433). -/
def saveArea (s : State) (ctx : Nat) : Nat × Nat × Nat :=
  let w := preg s 0x20 (0x402 + 4 * ctx)
  (bits w 15 0, bits w 20 16, bits w 31 21)

/-- The tiles of a save slot (R433); of a save area of more than one dimension, every tile. -/
def slotTiles (s : State) (ctx slot : Nat) : List Nat :=
  let (t, lg, _) := saveArea s ctx
  match descFor s ctx t with
  | none => []
  | some d =>
    if d.rank = 1 then
      let lo := (d.locate (slot * 2 ^ lg)).1
      let hi := (d.locate ((slot + 1) * 2 ^ lg - 1)).1
      (List.range (hi + 1 - lo)).map fun i => lo + i
    else List.range d.ntiles

/-- Pins or releases the tiles of a region's save slot (R433). -/
def pinSlot (s : State) (h : Nat) (up : Bool) : State :=
  let r := regAt s h
  if r.slotPin = up then s
  else
    let t := (saveArea s r.ctx).1
    (slotTiles s r.ctx r.slot).foldl (fun s i => pinTile s r.ctx t i up) (setReg s h { r with slotPin := up })

/-- Whether a region of a context is live (R423). -/
def ctxLive (s : State) (ctx : Nat) : Bool := s.regions.any fun r => decide (r.2.ctx = ctx)

/-- The table space's tiles are pinned while any region of the context is live (R436). -/
def pinTable (s : State) (ctx : Nat) (up : Bool) : State :=
  match descOf s 255 (tsOf s ctx) with
  | none => s
  | some d => (List.range d.ntiles).foldl (fun s i => pinTile s 255 (tsOf s ctx) i up) s

-- Release of cells and regions (R30, R67, R424, R425) ------------------------------------------------------------------------

/-- A cell without the work of its region: its contents stay (R30). -/
def Cell.idle (c : Cell) : Cell :=
  { c with reg := 0, lat := [], inc := [], shadow := [], task := none, phase := none, kept := none, slack := [], stub := none,
           feeds := [], chans := [], rnds := [], rmem := [], pwb := [], inb := [], csr := { c.csr with shwinNew := none },
           mx := { c.mx with mmas := [], mloads := [], strips := [] }, ss := {}, sl := {}, sc := {}, sw := {} }

/-- The requests and engine operations of a cell are over. -/
def dropWork (s : State) (key : Nat) : State :=
  { s with reqs := s.reqs.filter (fun q => decide (q.2.key ≠ key)), ops := s.ops.filter fun o => decide (o.2.key ≠ key) }

/-- A shadow plane takes the active plane's contents again (R63). -/
def unload (s : State) (site : Nat) : State :=
  let p := sget {} s.planes site
  { s with planes := sset s.planes site { p with shadow := p.active } }

/-- R27, R31: the region's cells and channels are freed; planes loaded for it that have not swapped are as before (R63). -/
def freeCells (s : State) (h : Nat) : State :=
  let r := regAt s h
  let s := r.psites.foldl unload s
  let s := (regCells r).foldl
    (fun s k => if (cellAt s k).reg = h then setCell (dropWork s k) k (cellAt s k).idle else s) s
  setReg s h { r with reserved := false, rsv := [], psites := [] }

/-- Posts of residency faults that wait move into the buffer as far as it has room (R442). -/
def rfFill (s : State) : State :=
  let n := 64 - s.rfbuf.length
  let l := s.rfwaitq.take n
  { s with rfbuf := s.rfbuf ++ l, rfwaitq := s.rfwaitq.drop n, rfgen := s.rfgen + BitVec.ofNat 32 l.length }

/-- A region's posts leave the residency fault buffer (R442). -/
def rfDrop (s : State) (h : Nat) : State :=
  rfFill { s with rfbuf := s.rfbuf.filter (fun e => decide (e.handle ≠ h)), rfwaitq := s.rfwaitq.filter fun e => decide (e.handle ≠ h) }

/-- Takes a region from the live regions: its pins, its record and its posts go with it. -/
def dropRegion (s : State) (h : Nat) : State :=
  let r := regAt s h
  let s := pinSlot (releaseLeases (freeCells s h) h) h false
  let s := rfDrop { s with regions := sdel s.regions h, records := s.records.filter (fun p => decide (p.2.reg.handle ≠ h)),
                            held := s.held.filter fun m => decide (m.reg ≠ some h) } h
  if ctxLive s r.ctx then s else pinTable s r.ctx false

/-- The slot that a completion shows: that of the region's last record. -/
def lastSlot (s : State) (r : Region) : Nat :=
  if s.records.any (fun p => decide (p.2.reg.handle = r.handle)) then r.slot else 0

/-- Completes the DEBUGs that are outstanding. -/
def endDebugs (s : State) (h status : Nat) : State :=
  let r := regAt s h
  let sl := lastSlot s r
  r.debugs.foldl (fun s d => complete s d.1 status h 0 0 sl) (setReg s h { r with debugs := [] })

/-- R424. END has stopped the region: it is released; its LAUNCH or RESUME, an outstanding YIELD and the DEBUGs complete
with ENDED, and END with OK. -/
def endRegion (s : State) (h : Nat) : State :=
  let r := regAt s h
  let s := endDebugs s h stEnded
  let sl := lastSlot s r
  let s := dropRegion s h
  let s := completeRun s r stEnded 0 0 sl
  let s := completeOpt s r.yieldCmd stEnded h 0 0 sl
  completeOpt s r.endCmd stOk h 0 0 sl

/-- A launch or resumption ends with a status: a launched region is gone, a resumed one is parked or halted as before, with
the binding on which it last ran (R66, R425, R441, R468). -/
def refuseRun (s : State) (h status : Nat) : State :=
  let r := regAt s h
  let sl := lastSlot s r
  if r.resume = 0 then
    let s := completeRun (dropRegion s h) r status 0 0 sl
    r.debugs.foldl (fun s d => complete s d.1 stEnded h 0 0 sl) s
  else
    let s := rfDrop (freeCells (if r.resume = 1 then s else releaseLeases s h) h) h
    let r1 := regAt s h
    let s := setReg s h { r1 with stage := if r.resume = 1 then .halted else .parked, cmd := none, rfwait := false,
                                  askT := none, resume := 0, startF := none,
                                  dies := match sfind s.records (slotKey r.ctx r.slot) with
                                    | some rec => rec.reg.dies
                                    | none => r1.dies }
    completeOpt s r.cmd status h 0 0 sl

end Sys2Proof.Machine
end

