-- ==== Sys2Proof/Machine/System.lean ====
section
/-! DEFINITION. Time, CSRs, the privileged registers behind the management path, and mailboxes (R22, R24, R51, R86, R125,
R213, R214, R311, R351 to R353, R369, R427, R436, R439, R442, R447 to R470, R478 to R483). -/

namespace Sys2Proof.Machine

-- CSRs (R22, R24 to R26, R51, R86, R110, R125, R214, R311, R369) ------------------------------------------------------------

/-- A word from fields: each with its lowest bit and its value. -/
def fieldsW (l : List (Nat × Nat)) : Word := BitVec.ofNat 64 (l.foldl (fun n p => n + p.2 * 2 ^ p.1) 0)

/-- Latency class of a site slot: 0 W, 1 E (R13, R22). -/
def lclsOf (key : Nat) : Nat := siteClass (slotOf key)

/-- SELF (R22, Table 4a). -/
def selfCsr (s : State) (key : Nat) : Word :=
  let c := cellAt s key
  let slot := ((regAt s c.reg).dies.getD c.ldie {}).rslot
  fieldsW [(0, classOf key), (2, c.ldie % 64), (8, rowOf key), (12, colOf key), (16, clusOf key), (18, cidxOf key), (24, slot % 4)]

/-- PSITE (R22, Table 4b). -/
def psiteCsr (key : Nat) : Word := fieldsW [(0, slotOf key), (5, stkOf key), (7, lclsOf key)]

/-- WATCHC (R369, Table 11) and the other maps keep their reserved bits 0. -/
def watchMask : Word := 0xFFFFFFFFFFFF0007

/-- Removes the counts that a read clears (R8): PHCONF, APERR, GRCNT. -/
def csrClear (c : Cell) (n : Nat) : Cell :=
  if n = 0x31 then { c with csr := { c.csr with phconf := 0 } }
  else if n = 0x32 then { c with csr := { c.csr with aperr := 0 } }
  else if n = 0x52 then { c with gs := { c.gs with rules := 0, rows := 0 } }
  else c

/-- R214. The value of a CSR of a cell, if the number is assigned. -/
def csrValue (s : State) (key n : Nat) : Option Word :=
  let c := cellAt s key
  let r := regAt s c.reg
  match n with
  | 0x10 => some (selfCsr s key)
  | 0x11 => some (psiteCsr key)
  | 0x18 => some s.mixa
  | 0x19 => some s.mixb
  | 0x1A => some s.mixc
  | 0x1B => some s.mixd
  | 0x20 => some (BitVec.ofNat 64 r.tide)
  | 0x21 => some (fieldsW [(0, r.stcyc.toNat), (40, r.stnum.toNat)])
  | 0x22 => some (r.stallto.setWidth 64)
  | 0x23 => some (fieldsW [(0, r.grant.toNat), (3, r.var.toNat), (32, r.turns.toNat)])
  | 0x30 => some (BitVec.ofNat 64 c.csr.shwin)
  | 0x31 => some (c.csr.phconf.setWidth 64)
  | 0x32 => some (c.csr.aperr.setWidth 64)
  | 0x40 => some (r.maxslack.setWidth 64)
  | 0x41 => some (r.slackd.setWidth 64)
  | 0x42 => some (r.yielddl.setWidth 64)
  | 0x43 => some (fieldsW [(0, r.lastix.toNat), (16, if r.ypend then 1 else 0), (32, r.saves.toNat)])
  | 0x44 => some c.csr.trapc
  | 0x45 => some c.csr.trapd
  | 0x46 => some c.csr.trappc
  | 0x47 => some c.csr.trapa
  | 0x48 => some c.csr.watcha
  | 0x49 => some c.csr.watchc
  | 0x50 => some (c.csr.maxdepth.setWidth 64)
  | 0x51 => some (fieldsW [(0, c.gs.rvlim), (32, c.gs.frule.toNat), (48, c.gs.fdep.toNat), (63, if c.gs.flt then 1 else 0)])
  | 0x52 => some (fieldsW [(0, c.gs.rules.toNat), (32, c.gs.rows.toNat)])
  | _ => none

/-- R213. RDTIDE: TIDE, the reference ticks since power-on, or the frame counter. -/
def execRdtide (d : BitVec 6) (fn : BitVec 2) (s : State) : Out :=
  word { spaces := [.s], core := true } [d]
    (fun c s =>
      match fn.toNat with
      | 0 =>
        if c.core then let (k, s) := freeNum s; .ok (landA s c d (Config.freeWord k) 1)
        else .ok (landA s c d (BitVec.ofNat 64 (regOf s c.key).tide) 1)
      | 1 => .ok (landA s c d (BitVec.ofNat 64 s.tick) 1)
      | 2 => .ok (landA s c d (BitVec.ofNat 64 s.frame) 1)
      | _ => illegal) s

/-- R214. CSRR. A core reads the mix registers; what the region and cell CSRs hold on a core is not stated. -/
def execCsrr (d : BitVec 6) (csr : BitVec 12) (s : State) : Out :=
  word { spaces := [.s], core := true } [d]
    (fun c s =>
      let n := csr.toNat
      match csrValue s c.key n with
      | none => illegal
      | some v =>
        if c.core then
          if 0x18 ≤ n ∧ n ≤ 0x1B then .ok (landA s c d v 1)
          else let (k, s) := freeNum s; .ok (landA s c d (Config.freeWord k) 1)
        else .ok (landA (setCell s c.key (csrClear (cellAt s c.key) n)) c d v 1)) s

/-- The effect of a write to a writable CSR of a cell (R86, R311, R369). -/
def csrPut (s : State) (key n : Nat) (v : Word) : State :=
  let c := cellAt s key
  match n with
  | 0x30 => setCell s key { c with csr := { c.csr with shwinNew := some (bits v 6 0) } }
  | 0x48 => setCell s key { c with csr := { c.csr with watcha := v } }
  | 0x49 => setCell s key { c with csr := { c.csr with watchc := v &&& watchMask } }
  | 0x50 => setCell s key { c with csr := { c.csr with maxdepth := v.setWidth 4 } }
  | _ => s

/-- The conditions on a CSRW: a writable CSR and a value in its range (R86, R214, R311). -/
def csrWritable (key n : Nat) (v : Word) : Bool :=
  match n with
  | 0x30 => decide (bits v 6 0 ≤ 64) && decide (bits v 6 0 * 1024 ≤ spadSize key)
  | 0x48 => true
  | 0x49 => true
  | 0x50 => decide (bits v 3 0 ≠ 0)
  | _ => false

/-- R214. CSRW takes effect at issue + 1; SHWIN at the end of the cell's phase (R86). -/
def execCsrw (csr : BitVec 12) (a : BitVec 6) (s : State) : Out :=
  word { spaces := [.s], core := true } [a]
    (fun c s =>
      let n := csr.toNat
      let v := readA s c.key a.toNat
      if !csrWritable c.key n v then illegal
      else if c.core then .ok s
      else if c.timed then .ok (addLatch s c.key { due := c.t + 1, tgt := .csr n, val := v.setWidth 2048, seq := c.seq, pc := c.pc })
      else .ok (csrPut s c.key n v)) s

-- Privileged registers (R351) --------------------------------------------------------------------------------------------------

/-- Whether a site code is assigned (R351). -/
def siteOk (site : Nat) : Bool := decide (site < 0x14) || decide (0x20 ≤ site ∧ site < 0x24) || decide (site = 0xFF)

/-- Whether a die is fitted at a site code (R25); the switch dies and the core itself answer. -/
def siteFitted (s : State) (site : Nat) : Bool :=
  if site < 12 then s.mixa.getLsbD (5 * site + 2)
  else if site < 20 then s.mixb.getLsbD (8 * (site - 12))
  else true

/-- A register in its family: site and number. -/
inductive PReg
  | pwrst | pkgid | rlstat | ltime (n : Nat) | relocks | lowwt
  | topa | topb | topgo | topr | tope | tdesc
  | rfstat | rfe0 | rfe1 | rfack | srole | srst
  | peera (n : Nat) | peerb (n : Nat) | fwdinv | exp | meas (n j : Nat) | agemax
  | csq (c : Nat) | csl (c : Nat) | csav (c : Nat) | ctbl (c : Nat)
  | lvl (n : Nat) | mrg (r : Nat)
  | ts (i : Nat) | modul (m : Nat) | hbt (t : Nat) | hotctl | hotst | hote | mapcnt | eros
  | mtvec | mepc | mcause | caps | cresets
deriving DecidableEq, Repr

/-- The register that a site code and a number name (the tables of chapters 20 to 24). -/
def pregOf (site n : Nat) : Option PReg :=
  if site = 0xFF then
    match n with
    | 0x300 => some .mtvec
    | 0x301 => some .mepc
    | 0x302 => some .mcause
    | 0x810 => some .caps
    | 0x811 => some .cresets
    | _ => none
  else if !siteOk site then none
  else if 0x10 ≤ n ∧ n < 0x20 then some (.ts (n - 0x10))
  else if 0x40 ≤ n ∧ n < 0x5F then some (.modul (n - 0x40))
  else if 0xC0 ≤ n ∧ n < 0xC4 then some .eros
  else if 0x20 ≤ site ∧ 0x80 ≤ n ∧ n < 0x84 then some .rlstat
  else if 12 ≤ site ∧ site < 20 then
    match n with
    | 0xA0 => some (.hbt 0)
    | 0xA1 => some (.hbt 1)
    | 0xA8 => some .hotctl
    | 0xA9 => some .hotst
    | 0xAA => some .hote
    | 0xAB => some .mapcnt
    | _ => none
  else if site = 0x20 then
    if 0xF0 ≤ n ∧ n < 0xF8 then some (.ltime (n - 0xF0))
    else if 0x120 ≤ n ∧ n < 0x128 then some .tdesc
    else if 0x180 ≤ n ∧ n < 0x1C0 then some (if n % 2 = 0 then .peera ((n - 0x180) / 2) else .peerb ((n - 0x180) / 2))
    else if 0x1C8 ≤ n ∧ n < 0x1D0 then some .exp
    else if 0x200 ≤ n ∧ n < 0x220 then some (.meas ((n - 0x200) / 8) (n % 8))
    else if 0x400 ≤ n ∧ n < 0x800 then
      some (match n % 4 with
        | 0 => .csq ((n - 0x400) / 4)
        | 1 => .csl ((n - 0x400) / 4)
        | 2 => .csav ((n - 0x400) / 4)
        | _ => .ctbl ((n - 0x400) / 4))
    else if 0x820 ≤ n ∧ n < 0x828 then some (.lvl (n - 0x820))
    else if 0x830 ≤ n ∧ n < 0x834 then some (.mrg (n - 0x830))
    else match n with
      | 0x60 => some .pwrst
      | 0x70 => some .pkgid
      | 0xF8 => some .relocks
      | 0xF9 => some .lowwt
      | 0x100 => some .topa
      | 0x101 => some .topb
      | 0x102 => some .topgo
      | 0x103 => some .topr
      | 0x104 => some .tope
      | 0x110 => some .rfstat
      | 0x111 => some .rfe0
      | 0x112 => some .rfe1
      | 0x113 => some .rfack
      | 0x118 => some .srole
      | 0x119 => some .srst
      | 0x1C0 => some .fwdinv
      | 0x3FF => some .agemax
      | _ => none
  else none

/-- PWRST (R461, Table 5). -/
def pwrst (s : State) : Word :=
  let b (x : Bool) : Nat := if x then 1 else 0
  fieldsW [(0, s.grant.toNat), (3, s.armed.toNat), (6, b s.frozenP), (7, b s.force), (8, b s.loww), (9, b s.capn), (32, s.stretch.toNat)]

/-- TSi (R463, Table 6). -/
def tsWord (x : Sensor) : Word :=
  let b (x : Bool) : Nat := if x then 1 else 0
  fieldsW [(0, x.raw.toNat), (10, b x.susp), (11, b x.oor), (12, b x.stuck), (13, b x.disag), (16, x.used.toNat)]

/-- Module status (R455, Table 4). -/
def moduleWord (m : Module) : Word :=
  let b (x : Bool) : Nat := if x then 1 else 0
  fieldsW [(0, b m.trn), (1, b m.up), (8, m.retr.toNat), (16, m.corr.toNat), (40, m.unc.toNat)]

/-- MAPCNT of a cliff base (R482). -/
def mapCount (s : State) (base : Nat) : Nat :=
  (s.tt.filter fun p => decide (entState p.2 ≠ 0) && decide (bits p.2 20 18 = base)).length
    + (s.migs.filter fun m => decide (bits m.dest 20 18 = base)).length

/-- The oldest sample of a base's ring goes (R482). -/
def hotePop (s : State) (base : Nat) : State :=
  let h := sget {} s.hot base
  { s with hot := sset s.hot base { h with ring := h.ring.drop 1 } }

/-- The oldest entry of the residency fault buffer goes; a post that waited takes the room (R442). -/
def rfPop (s : State) : State := rfFill { s with rfbuf := s.rfbuf.drop 1 }

/-- The forwarding entry that FWDINV selects (R470). -/
def fwdSel (s : State) : Option Fwd :=
  s.fwds.find? fun x => decide (frameOf x.old = frameOf (preg s 0x20 0x1C0))

/-- R351. A privileged register's value and the state after its read (R8: RC fields clear). -/
def regRead (s : State) (core site n : Nat) (r : PReg) : Word × State :=
  let k := coreAt s core
  match r with
  | .pwrst => (pwrst s, s)
  | .pkgid | .topa | .topb | .topr | .tope | .tdesc | .peera _ | .peerb _ | .exp | .agemax | .csq _ | .csl _ | .csav _
  | .ctbl _ | .hotctl | .eros => (preg s site n, s)
  | .rlstat => let w := preg s site n; (w, setPreg s site n (putBits w 55 32 0))
  | .ltime i => (BitVec.ofNat 64 (s.ltime.getD i 0), s)
  | .relocks => (fieldsW [(0, s.relk.toNat), (32, s.fneap.toNat)], s)
  | .lowwt => (BitVec.ofNat 64 s.lowwt, s)
  | .topgo | .rfack | .srole => (0, s)
  | .rfstat => (fieldsW [(0, s.rfbuf.length), (32, s.rfgen.toNat)], s)
  | .rfe0 =>
    match s.rfbuf with
    | e :: _ => (fieldsW [(0, e.tens), (16, e.ctx), (24, e.kind), (32, e.first)], s)
    | [] => (0, s)
  | .rfe1 =>
    match s.rfbuf with
    | e :: _ => (fieldsW [(0, e.count), (32, e.handle)], rfPop s)
    | [] => (0, s)
  | .srst => (s.srst, s)
  | .fwdinv =>
    let hi := bits (preg s 0x20 0x1C0) 63 48
    match fwdSel s with
    | some f => (fieldsW [(0, f.pend.length), (8, 1), (48, hi)], s)
    | none => (fieldsW [(48, hi)], s)
  | .meas i j => ((s.meas.getD i 0).extractLsb' (64 * j) 64, s)
  | .lvl i => (lvlEntry s i, s)
  | .mrg i => (BitVec.ofInt 64 (s.mrg.getD i 0), s)
  | .ts i => (tsWord (sget {} s.sensors (site * 16 + i)), s)
  | .modul m =>
    let x := sget {} s.modules (site * 64 + m)
    (moduleWord x, { s with modules := sset s.modules (site * 64 + m) { x with corr := 0, unc := 0 } })
  | .hbt t =>
    let x := sget {} s.hbt (2 * (site - 12) + t)
    (fieldsW [(0, x.temp.toNat), (10, x.wlim), (12, if x.susp then 1 else 0), (16, x.tticks.toNat)],
     { s with hbt := sset s.hbt (2 * (site - 12) + t) { x with tticks := 0 } })
  | .hotst => let h := sget {} s.hot (site - 12); (fieldsW [(0, h.ring.length), (32, h.drops.toNat)], s)
  | .hote =>
    match (sget {} s.hot (site - 12)).ring with
    | w :: _ => (w, hotePop s (site - 12))
    | [] => (0, s)
  | .mapcnt => (BitVec.ofNat 64 (mapCount s (site - 12)), s)
  | .mtvec => (k.mtvec, s)
  | .mepc => (k.mepc, s)
  | .mcause => (k.mcause, s)
  | .caps => (k.caps.setWidth 64, s)
  | .cresets => (k.cresets.setWidth 64, s)

/-- R442. RFACK with RES = 0: the acquisition of a waiting region starts again. -/
def rfRetry (s : State) (h : Nat) : State :=
  match sfind s.regions h with
  | some r => if r.rfwait then setReg s h { r with rfwait := false } else s
  | none => s

/-- R442. RFACK with RES = 1: the LAUNCH or RESUME completes with LEASE. -/
def rfFail (s : State) (h : Nat) : State :=
  match sfind s.regions h with
  | some r => if r.rfwait then refuseRun s h stLease else s
  | none => s

/-- R465. The first write of a package number other than 0xFFFF stands. -/
def pkgidPut (s : State) (v : Word) : State :=
  if bits (preg s 0x20 0x70) 15 0 = 0xFFFF then setPreg s 0x20 0x70 (v &&& 0xFFFF) else s

/-- R470. A write of a frame word selects a forwarding entry. -/
def fwdinvPut (s : State) (v : Word) : State := setPreg s 0x20 0x1C0 v

/-- R351. The effect of a write to a privileged register; read-only fields and reserved bits ignore it (R8). DESIGN CHOICE, log
56: the low three bits of MTVEC, which must be 0 (R449), are stored as 0 whatever is written. -/
def regWrite (s : State) (core site n : Nat) (r : PReg) (v : Word) : State :=
  let k := coreAt s core
  let put (m : Word) : State := setPreg s site n (v &&& m)
  match r with
  | .pkgid => pkgidPut s v
  | .topa => put 0x00FFFFFFFFFFFFFF
  | .topb => put 0xFFFF0FFFFFFC0000
  | .topgo => topGo s (bits v 3 0)
  | .tdesc => put 0xFFFFFFFFFFFFFFFF
  | .rfack => if v.getLsbD 16 then rfFail s (bits v 15 0) else rfRetry s (bits v 15 0)
  | .srole => if v.getLsbD 6 then roleAbort s else roleStart core s v
  | .peera i | .peerb i =>
    let a := preg s 0x20 (0x180 + 2 * i)
    if ctxLive s (bits a 23 16) then s else put (if n % 2 = 0 then 0x1FFFFFF else 0xFFFFFFFFFF)
  | .fwdinv => fwdinvPut s v
  | .exp => put 0x3FFFFFF
  | .agemax => put 0xFF
  | .csq _ => put 0xF7FFFFFF
  | .csl _ => put 0xFFFFFFFF01FFFFFF
  | .csav _ => put 0xFFFFFFFFFFFFFFFF
  | .ctbl c => if ctxLive s c then s else put 0xFFFFFFFF
  | .hotctl => put 0x1F
  | .lvl i => { s with lvls := s.lvls.set i (v &&& 0x3FFFFFFFFFF) }
  | .mrg i => { s with mrg := s.mrg.set i v.toInt }
  | .mtvec => setCore s core { k with mtvec := v &&& 0xFFFFFFFFFFFFFFF8 } -- DESIGN CHOICE, log 56
  | .mepc => setCore s core { k with mepc := v }
  | _ => s

/-- R351. Reading or writing a privileged register: what stops the word. -/
def pregStop (s : State) (core site n : Nat) (f : PReg → Res) : Res :=
  if !siteOk site then illegal
  else if core ≠ 8 ∧ 0x800 ≤ n then .fault { code := cCap }
  else match pregOf site n with
    | none => illegal
    | some r => if siteFitted s site then f r else .wait

/-- R351. PCSRR. -/
def execPcsrr (d : BitVec 6) (site : BitVec 8) (reg : BitVec 12) (s : State) : Out :=
  word { mgmt := true } [d]
    (fun c s =>
      pregStop s (c.key - coreKey) site.toNat reg.toNat fun r =>
        let (v, t) := regRead s (c.key - coreKey) site.toNat reg.toNat r
        .ok (landA t c d v 1)) s

/-- R351. PCSRW. -/
def execPcsrw (site : BitVec 8) (reg : BitVec 12) (a : BitVec 6) (s : State) : Out :=
  word { mgmt := true } [a]
    (fun c s =>
      pregStop s (c.key - coreKey) site.toNat reg.toNat fun r =>
        .ok (regWrite s (c.key - coreKey) site.toNat reg.toNat r (readA s c.key a.toNat))) s

/-- R351. REGISTER_WRITE: the effect of a write of a core at its target. -/
def execRegisterWrite (core : Nat) (site : BitVec 8) (reg : BitVec 12) (v : Word) (s : State) : Out :=
  .next
    (if core ≠ 8 ∧ 0x800 ≤ reg.toNat then s
     else match pregOf site.toNat reg.toNat with
       | some r => if siteFitted s site.toNat then regWrite s core site.toNat reg.toNat r v else s
       | none => s)

/-- R442. RFE1_READ. -/
def execRfe1Read (s : State) : Out := .next (if s.rfbuf.isEmpty then s else rfPop s)

/-- R442. RFACK_RETRY. -/
def execRfackRetry (h : Nat) (s : State) : Out := .next (rfRetry s h)

/-- R442. RFACK_FAIL. -/
def execRfackFail (h : Nat) (s : State) : Out := .next (rfFail s h)

/-- R482. HOTE_READ. -/
def execHoteRead (base : Nat) (s : State) : Out := .next (if (sget {} s.hot base).ring.isEmpty then s else hotePop s base)

/-- R465. PKGID_WRITE. -/
def execPkgidWrite (v : Word) (s : State) : Out := .next (pkgidPut s v)

/-- R470. FWDINV_SELECT. -/
def execFwdinvSelect (v : Word) (s : State) : Out := .next (fwdinvPut s v)

/-- The next instruction of a core, if its next word names one. -/
def coreNext (s : State) (core : Nat) : Option Instr :=
  match decodeAt s (coreKey + core) .s with
  | .ok i => some i
  | .error _ => none

/-- Whether the word that a core waits at has waited n ticks. -/
def coreWaited (s : State) (core n : Nat) : Bool :=
  match (coreAt s core).st.since with
  | some t => decide (t + n ≤ s.tick)
  | none => false

/-- R351. PCSRR_TIMEOUT: no acknowledgement within 200,000 ticks raises LINK on the core. -/
def execPcsrrTimeout (core : Nat) (s : State) : Out :=
  .next
    (match coreNext s core with
      | some (.pcsrr _ _ _) | some (.pcsrw _ _ _) =>
        if coreWaited s core 200000 then coreFault s core (coreAt s core).st.pc { code := cLink } else s
      | _ => s)

-- Mailboxes (R352, R353) ---------------------------------------------------------------------------------------------------------

/-- The identity of a core. -/
def ident (core : Nat) : Nat := core + 1

/-- A message with its sender's identity. -/
def mailWord (id : Nat) (payload : Nat) : Word := BitVec.ofNat 64 (id * 2 ^ 56 + payload % 2 ^ 56)

/-- Puts a message into a mailbox. -/
def mailPut (s : State) (core : Nat) (w : Word) : State :=
  let k := coreAt s core
  setCore s core { k with mbox := k.mbox ++ [w] }

/-- Whether a mailbox has a free slot. -/
def mailRoom (s : State) (core : Nat) : Bool := decide ((coreAt s core).mbox.length < 64)

/-- R352. MBOXS. -/
def execMboxs (d a b : BitVec 6) (s : State) : Out :=
  word { mgmt := true } [d, a, b]
    (fun c s =>
      let me := c.key - coreKey
      let id := bits (readA s c.key a.toNat) 7 0
      if id = 0 ∨ 9 < id ∨ id = ident me then .ok (landA s c d 2 1)
      else if mailRoom s (id - 1) then
        .ok (landA (mailPut s (id - 1) (mailWord (ident me) (readA s c.key b.toNat).toNat)) c d 0 1)
      else .ok (landA s c d 1 1)) s

/-- R352. MBOXR. -/
def execMboxr (d : BitVec 6) (s : State) : Out :=
  word { mgmt := true } [d]
    (fun c s =>
      let me := c.key - coreKey
      let k := coreAt s me
      match k.mbox with
      | w :: l => .ok (landA (setCore s me { k with mbox := l }) c d w 1)
      | [] => .ok (landA s c d 0 1)) s

/-- R352. MWAIT. -/
def execMwait (n : BitVec 32) (s : State) : Out :=
  word { mgmt := true } []
    (fun c s =>
      let me := c.key - coreKey
      if !(coreAt s me).mbox.isEmpty then .ok s
      else match c.st.since with
        | some t => if n ≠ 0 ∧ t + n.toNat ≤ s.tick then .ok s else .wait
        | none => .wait) s

/-- R352. MWAIT_TIMEOUT: the count of an MWAIT has run out. -/
def execMwaitTimeout (core : Nat) (s : State) : Out :=
  .next
    (match coreNext s core with
      | some (.mwait n) =>
        if n ≠ 0 ∧ (coreAt s core).mbox.isEmpty ∧ coreWaited s core n.toNat then
          let k := coreAt s core
          setCore s core { k with st := k.st.advance s.per k.st.joins }
        else s
      | _ => s)

/-- The first of the messages that wait whose mailbox has room. -/
def firstRoom (s : State) : List (Nat × Word) → Option (Nat × Nat × Word)
  | [] => none
  | (c, w) :: l => if mailRoom s c then some (0, c, w) else (firstRoom s l).map fun x => (x.1 + 1, x.2)

/-- R353. DEVICE_EVENT_DELIVER: the first event that waits and whose mailbox has room. Events wait while their core
restarts (R486). -/
def execDeviceEventDeliver (s : State) : Out :=
  .next
    (match firstRoom s s.devq with
      | some (i, c, w) => if s.rstT.isSome then s else mailPut { s with devq := s.devq.eraseIdx i } c w
      | none => s)

/-- R448. LIGHTHOUSE_ANSWER_DELIVER. -/
def execLighthouseAnswerDeliver (s : State) : Out :=
  .next
    (match firstRoom s s.lhans with
      | some (i, c, w) => mailPut { s with lhans := s.lhans.eraseIdx i } c w
      | none => s)

end Sys2Proof.Machine
end

