-- ==== Sys2Proof/Machine/Firmware.lean ====
section
/-! DEFINITION. Boot, trust and power control (R447 to R463): images and measurements, boot and training, the failed-site
list, lighthouse requests, levels and heartbeats, and the restarts of cores (R485 to R487). -/

namespace Sys2Proof.Machine

-- Images and measurements (R450, R451) ---------------------------------------------------------------------------------

/-- The boot slot of a kind (R452): its index in the boot store. -/
def bootSlot (kind slot : Nat) : Nat := 2 * (kind - 1) + slot % 2

/-- Bytes of a boot slot. -/
def slotBytes (s : State) (i : Nat) : List Byte := sget [] s.bslots i

/-- Four little-endian bytes of an image header. -/
def hdrNat (im : List Byte) (off n : Nat) : Nat := ofBytes ((im.drop off).take n)

/-- LEN of an image. -/
def imgLen (im : List Byte) : Nat := hdrNat im 12 4

/-- The body of an image. -/
def imgBody (im : List Byte) : List Byte := (im.drop 256).take (imgLen im)

/-- R450. An image verifies for a kind. -/
def verifies (im : List Byte) (kind : Nat) : Bool :=
  let z (a n : Nat) : Bool := ((im.drop a).take n).all fun b => b == 0
  decide (256 + imgLen im ≤ im.length) && decide (hdrNat im 0 4 = 0x4C48494D) && decide (hdrNat im 4 1 = kind)
    && z 5 3 && z 24 40 && z 196 60 && (decide (kind = 3) || z 20 4) && decide (Config.fusedSvn kind ≤ hdrNat im 8 4)
    && Config.signatureGood (sha512 (im.take 64 ++ imgBody im)) ((im.drop 64).take 66) ((im.drop 130).take 66)

/-- The image that a slot holds: header and body. -/
def imgOf (s : State) (i : Nat) : List Byte := let im := slotBytes s i; im.take (256 + imgLen im)

/-- The slot that boot takes for a kind: the preferred one if it verifies, otherwise the other (R452). -/
def bootPick (s : State) (kind : Nat) : Option Nat :=
  let p := sget 0 s.pref kind % 2
  if verifies (slotBytes s (bootSlot kind p)) kind then some (bootSlot kind p)
  else if verifies (slotBytes s (bootSlot kind (1 - p))) kind then some (bootSlot kind (1 - p))
  else none

/-- MEASn := SHA-512(MEASn ∥ digest) (R451). -/
def measExtend (s : State) (n : Nat) (digest : BitVec 512) : State :=
  { s with meas := s.meas.set n (sha512 (toBytes 64 (s.meas.getD n 0).toNat ++ toBytes 64 digest.toNat)) }

/-- MEASn is extended with the image of a slot, or with 64 zero bytes. -/
def measImage (s : State) (n : Nat) (slot : Option Nat) : State :=
  measExtend s n (match slot with
    | some i => sha512 (imgOf s i)
    | none => 0)

-- The failed-site list (R27, R454) ------------------------------------------------------------------------------------------

/-- The marks of the list's bytes: a site code, or 0x80 + i for stratum i; the encoding is the model's (log 13). -/
def markBytes (failed failedS : List Nat) : List Byte :=
  failed.map (BitVec.ofNat 8) ++ failedS.map fun i => BitVec.ofNat 8 (0x80 + i)

/-- A byte of the list names a site or a stratum. -/
def markOk (b : Byte) : Bool :=
  let n := b.toNat
  decide (n < 20) || decide (0x20 ≤ n ∧ n < 0x24) || decide (0x80 ≤ n ∧ n < 0xA0)

/-- R454. A list authenticates: its code is the HMAC of the list under the lighthouse's key. -/
def listGood (l : List Byte) (t : ListTag) : Bool := decide (t = .made l) || decide (tagBytes t = hmac512 Config.hmacKey l)

/-- Every site code but S0. -/
def allSites : List Nat := List.range 20 ++ [0x21, 0x22, 0x23]

/-- The bits of the mix that a failed site does not show: GOOD and TRN (R454). -/
def clearSite (s : State) (site : Nat) : State :=
  if site < 12 then { s with mixa := putBits s.mixa (5 * site + 4) (5 * site + 3) 0 }
  else if site < 20 then
    let m := site - 12
    (List.range 4).foldl
      (fun s k => { s with mixc := putBits s.mixc (2 * (4 * m + k) + 1) (2 * (4 * m + k)) 3 })
      { s with mixb := putBits s.mixb (8 * m + 2) (8 * m + 1) 0 }
  else { s with mixd := putBits (putBits s.mixd (site - 0x20 + 20) (site - 0x20 + 20) 0) (site - 0x20 + 24) (site - 0x20 + 24) 0 }

/-- A stratum marked failed shows 0b11. -/
def clearStrat (s : State) (i : Nat) : State := { s with mixc := putBits s.mixc (2 * i + 1) (2 * i) 3 }

-- Training (R453, R455, R456) --------------------------------------------------------------------------------------------------

/-- Modules of a site code (R14); numbers 31 to 34 of a switch die stand for its reach links. -/
def moduleCount (site : Nat) : Nat := if site < 12 then 8 else if site < 20 then 16 else 31

/-- Whether a site is fitted and not marked failed. -/
def siteGood (s : State) (site : Nat) : Bool := siteFitted s site && !s.failed.contains site

/-- The order of training (R452, R453): S0's modules, the other switch-to-switch modules, the sites in slot order, the
other modules of S1 to S3, and the reach links. -/
def trainOrder : List (Nat × Nat) :=
  (List.range 31).map (fun m => (0x20, m))
    ++ [0x21, 0x22, 0x23].flatMap (fun j => [(j, 28), (j, 29), (j, 30)])
    ++ (List.range 20).flatMap (fun n => (List.range (moduleCount n)).map fun m => (n, m))
    ++ [0x21, 0x22, 0x23].flatMap (fun j => (List.range 28).map fun m => (j, m))
    ++ [0x20, 0x21, 0x22, 0x23].flatMap (fun j => (List.range 4).map fun n => (j, 31 + n))

/-- A module's status. -/
def moduleAt (s : State) (site m : Nat) : Module := sget {} s.modules (site * 64 + m)

/-- The module that boot trains next: not one of a site that waits for a RETRAIN (R454). -/
def nextModule (s : State) : Option (Nat × Nat) :=
  trainOrder.find? fun p => siteGood s p.1 && !(moduleAt s p.1 p.2).skip && decide ((moduleAt s p.1 p.2).retr = 0)

/-- Whether every module of a site is trained. -/
def siteTrained (s : State) (site : Nat) : Bool := (List.range (moduleCount site)).all fun m => (moduleAt s site m).trn

/-- Whether every module of a site is up. -/
def siteUp (s : State) (site : Nat) : Bool := (List.range (moduleCount site)).all fun m => (moduleAt s site m).up

/-- Low-water service ends for good when every site that is fitted and not marked failed is trained (R456). -/
def lowWater (s : State) : State :=
  let late := (List.range 20 ++ [0x20, 0x21, 0x22, 0x23]).any fun n => siteGood s n && !siteTrained s n
  { s with loww := s.loww && late }

/-- One update of the mix, if it shows something else than before (R25). -/
def mixChange (s t : State) : State :=
  if t.mixa = s.mixa ∧ t.mixb = s.mixb ∧ t.mixc = s.mixc ∧ t.mixd = s.mixd then t else mixUpdate t

/-- The strata of a cliff base that is good and trained show memory-only again, gated as after boot (R454). -/
def strataBack (s : State) (m : Nat) : State :=
  (List.range 4).foldl
    (fun s k =>
      let i := 4 * m + k
      if roleOf s i = 3 ∧ !s.failedS.contains i then
        let chg := s.role.any fun r => decide (r.strat = i)
        clearStratum { s with mixc := putBits s.mixc (2 * i + 1) (2 * i) (if chg then 2 else 0) } i
      else s) s

/-- The mix shows that a site has completed its training, in one update, or that it is trained no more (R25, R453). -/
def enterSite (s0 : State) (site : Nat) : State :=
  let s := s0
  let t := if siteTrained s site then 1 else 0
  let u := if siteTrained s site && siteUp s site then 1 else 0
  let s :=
    if site < 12 then { s with mixa := putBits s.mixa (5 * site + 4) (5 * site + 4) t, mixd := putBits s.mixd site site u }
    else if site < 20 then
      let s := { s with mixb := putBits s.mixb (8 * (site - 12) + 2) (8 * (site - 12) + 2) t, mixd := putBits s.mixd site site u }
      if t = 1 then strataBack s (site - 12) else s
    else { s with mixd := putBits s.mixd (site - 0x20 + 24) (site - 0x20 + 24) t }
  lowWater (if t = 1 then mixUpdate s else mixChange s0 s)

/-- A core starts at the entry of an image. -/
def startCore (s : State) (n slot : Nat) : State :=
  let k := coreAt s n
  let e := hdrNat (slotBytes s slot) 16 4
  setCore s n
    { k with held := false, entry := e, mcause := k.mcause &&& 0x7FFFFFFFFFFFFFFF,
             st := { mode := .elastic, begun := true, img := BitVec.ofNat 64 slot, pc := e, last := s.per } }

/-- The management cores start at level 0, core 7 with its first heartbeat interval (R452, R461). -/
def startCores (s : State) : State :=
  let s := match bootPick s 2 with
    | some i => if s.recovery then s else (List.range 7).foldl (fun s n => startCore s n i) s
    | none => s
  match bootPick s 3 with
  | some i => { startCore s 7 i with hbT := some s.tick }
  | none => s

/-- An answer of the lighthouse to a request (R448); one to a core that restarts is discarded (R486). -/
def lhAnswer (s : State) (r : LhReq) (req status result : Nat) : State :=
  if r.mute || (s.rstT.isSome && decide (r.core < 7)) then s
  else
  { s with lhans := s.lhans ++ [(r.core, mailWord 9 (req * 2 ^ 48 + r.tag.toNat * 2 ^ 40 + status * 2 ^ 32 + result))] }

/-- The result of one module's training. -/
def trainedModule (s : State) (site m : Nat) (ok : Bool) : State :=
  let x := moduleAt s site m
  let y : Module := { x with trn := ok, up := ok, retr := if x.retr = 255 then 255 else x.retr + 1 }
  let s := { s with modules := sset s.modules (site * 64 + m) y }
  if 31 ≤ m then
    let w := preg s site (0x80 + (m - 31))
    let j := 1000 + 4 * (site - 0x20) + (m - 31)
    setPreg { s with conns := s.conns.filter fun p => !(decide (p.1 = j) && p.2.dead) } site (0x80 + (m - 31))
      (putBits w 1 1 (if ok then 1 else 0))
  else s

/-- R453, R455. MODULE_TRAIN: a module's training has ended, within its three attempts or without success. -/
def execModuleTrain (site : BitVec 8) (module : Nat) (ok : Bool) (s : State) : Out :=
  .next
    (if s.boot then s
     else match s.retrain with
       | some (r, m) =>
         if bits (r.arg.setWidth 64) 7 0 = site.toNat ∧ m = module then
           let s := trainedModule s site.toNat m ok
           if m + 1 < moduleCount site.toNat then { s with retrain := some (r, m + 1) }
           else
             let s := enterSite { s with retrain := none } site.toNat
             lhAnswer s r 6 (if siteTrained s site.toNat then 0 else 3) 0
         else s
       | none =>
         if nextModule s = some (site.toNat, module) then
           let s := trainedModule s site.toNat module ok
           if module = 30 ∧ site = 0x20 then startCores (enterSite s 0x20)
           else if 31 ≤ module then s
           else if site.toNat < 20 then (if module + 1 = moduleCount site.toNat then enterSite s site.toNat else s)
           else if module = 27 then enterSite s site.toNat
           else s
         else s)

-- Boot (R452) ------------------------------------------------------------------------------------------------------------------

/-- The level table of a power-controller image (R458). -/
def imgLevels (im : List Byte) : List Word := wordsOf 8 ((imgBody im).drop (hdrNat im 20 4))

/-- The voltage of a rail in a table entry. -/
def lvlRail (w : Word) (r : Nat) : Nat := bits w (11 + 10 * r) (2 + 10 * r)

/-- R458. The table is accepted. -/
def levelsGood (l : List Word) : Bool :=
  decide (l.length = 8) && decide (bits (l.getD 0 0) 1 0 = 2)
    && l.all (fun w => decide (bits w 1 0 ≠ 3) && decide (bits w 63 42 = 0)
        && (List.range 4).all fun r => decide (Config.fusedLow r ≤ lvlRail w r ∧ lvlRail w r ≤ Config.fusedHigh r))
    && l.all fun a => l.all fun b => !decide (bits a 1 0 < bits b 1 0) || (List.range 4).all fun r => decide (lvlRail b r ≤ lvlRail a r)

/-- SLACK0 of every EROS register, as the boot store keeps it (R483). -/
def slack0Back (s : State) : State :=
  s.slack0.foldl (fun s p => setPreg s (p.1 / 4) (0xC0 + p.1 % 4) (fieldsW [(32, p.2.toNat)])) s

/-- The cores at boot (R448, R452): the lighthouse core runs its ROM from its first word on (log 2), every other core is held. -/
def bootCores (s : State) : State :=
  let s := { s with cores := coresReset }
  setCore s 8 { coreAt s 8 with held := false, st := { mode := .elastic, begun := true, last := s.per } }

/-- R487. The harbour image that boot takes stands in the slot that became preferred since the boot before. -/
def freshBoot (s : State) : Bool := s.fresh && decide (bootPick s 2 = some (bootSlot 2 (sget 0 s.pref 2 % 2)))

/-- R452. POWER_ON_RESET: the lighthouse ROM boots up to the training of S0's modules, with which the cores start. -/
def execPowerOnReset (s : State) : Out :=
  .next
    (if s.power && !s.boot then s
     else
       let s := slack0Back (packageReset s)
       let good := listGood s.flist s.ftag
       let marks := (s.flist.filter markOk).map (·.toNat)
       let sites := if good then marks.filter (· < 0x80) else allSites
       let strata := if good then (marks.filter (0x80 ≤ ·)).map (· - 0x80) else []
       let s := sites.foldl clearSite { s with failed := sites, failedS := strata }
       let s := strata.foldl clearStrat s
       let s := measImage s 0 (bootPick s 1)
       let s := match bootPick s 2 with
         | some i => measImage s 1 (some i)
         | none => { s with recovery := true }
       let s := match bootPick s 3 with
         | some i =>
           let s := measImage s 2 (some i)
           let l := imgLevels (slotBytes s i)
           if levelsGood l then { s with lvls := l } else s
         | none => s
       let s := measExtend s 3 (sha512 s.flist)
       let s := { bootCores s with boot := false, ebbDue := some s.tick, rails := railsOf s 0, railsT := railsOf s 0, clk := varOf s 0 }
       { s with watchT := if freshBoot s then some s.tick else none, fresh := false })

-- Lighthouse requests (R448) ------------------------------------------------------------------------------------------------------

/-- A request with its capability: bit 0 POWER, bit 1 MIX; without it the answer is DENIED. -/
def lhServe (s : State) (r : LhReq) (req cap : Nat) (f : State → Nat × State) : State :=
  if (coreAt s r.core).caps.getLsbD cap then
    let (st, t) := f s
    lhAnswer t r req st 0
  else lhAnswer s r req 1 0

/-- The bits of a request's argument. -/
def argBits (r : LhReq) (hi lo : Nat) : Nat := bits (r.arg.setWidth 64) hi lo

/-- Whether a region is bound to a site, or to a stratum of it (R454): from its launch or RESUME to its retirement or
pre-emption (R21). It is bound to the sites of its dies, and to no switch die (log 54). -/
def boundTo (s : State) (site : Nat) (strat : Option Nat) : Bool :=
  s.regions.any fun p =>
    let r := p.2
    (match r.stage with
      | .parked => false
      | _ => !r.unbound)
    && r.dies.any fun d => decide (d.site = site) && (match strat with
      | some k => decide (d.cls = 3 ∧ d.stk = k)
      | none => true)

/-- LNKOK of a site; a switch die shows SWTRN. -/
def lnkOk (s : State) (site : Nat) : Bool :=
  if site < 20 then s.mixd.getLsbD site else s.mixd.getLsbD (site - 0x20 + 24)

/-- The marks as the boot store keeps them, with their authentication code (R454). -/
def saveMarks (s : State) : State :=
  let l := markBytes s.failed s.failedS
  { s with flist := l, ftag := .made l }

/-- R454, R488. MARKFAIL. -/
def execMarkfail (r : LhReq) (s : State) : Out :=
  .next <| lhServe s r 1 1 fun s =>
    let site := argBits r 7 0
    let st := decide (argBits r 8 8 = 1)
    let k := argBits r 10 9
    if !siteOk site ∨ site = 0xFF ∨ (st ∧ (site < 12 ∨ 20 ≤ site)) then (2, s)
    else if boundTo s site (if st then some k else none) && lnkOk s site then (4, s)
    else if !st && decide (12 ≤ site ∧ site < 20) && decide (mapCount s (site - 12) ≠ 0) && lnkOk s site then (4, s)
    else if st then
      let i := 4 * (site - 12) + k
      (0, saveMarks (mixUpdate (clearStrat { s with failedS := if s.failedS.contains i then s.failedS else s.failedS ++ [i] } i)))
    else (0, lowWater (saveMarks (mixUpdate (clearSite { s with failed := if s.failed.contains site then s.failed else s.failed ++ [site] } site))))

/-- The site is untrained until a RETRAIN; boot does not come back to it (R454). -/
def untrain (s : State) (site : Nat) : State :=
  { s with modules := (List.range (moduleCount site)).foldl
             (fun l m => sset l (site * 64 + m) { moduleAt s site m with trn := false, up := false, skip := true }) s.modules }

/-- R454. CLEARFAIL. -/
def execClearfail (r : LhReq) (s : State) : Out :=
  .next <| lhServe s r 2 1 fun s =>
    let site := argBits r 7 0
    let st := decide (argBits r 8 8 = 1)
    let i := 4 * (site - 12) + argBits r 10 9
    if !siteOk site ∨ site = 0xFF ∨ (st ∧ (site < 12 ∨ 20 ≤ site)) then (2, s)
    else if st then
      if !s.failedS.contains i then (0, s)
      else
        let s := { s with failedS := s.failedS.filter (· ≠ i) }
        let s := if s.mixb.getLsbD (8 * (site - 12) + 1) then clearStratum { s with mixc := putBits s.mixc (2 * i + 1) (2 * i) 0 } i else s
        (0, saveMarks (mixUpdate s))
    else if !s.failed.contains site then (0, s)
    else
      let s := untrain { s with failed := s.failed.filter (· ≠ site) } site
      let s :=
        if site < 12 then { s with mixa := putBits s.mixa (5 * site + 4) (5 * site + 3) 1 }
        else if site < 20 then { s with mixb := putBits s.mixb (8 * (site - 12) + 2) (8 * (site - 12) + 1) 1 }
        else { s with mixd := putBits (putBits s.mixd (site - 0x20 + 20) (site - 0x20 + 20) 1) (site - 0x20 + 24) (site - 0x20 + 24) 0 }
      (0, lowWater (saveMarks (mixUpdate s)))

/-- R218. A level that is armed takes effect at once where no timed stream runs. -/
def levelNow (s : State) : State :=
  if s.armed ≠ s.grant && !s.force && !anyTimed s then setLevel s s.armed.toNat else s

/-- R459. GRANT. -/
def execGrant (r : LhReq) (s : State) : Out :=
  .next <| lhServe s r 3 0 fun s =>
    let n := argBits r 2 0
    let v := varOf s n
    if s.frozenP then (4, s)
    else if (s.loww || s.capn) && decide (v ≠ 2) then (3, s)
    else if (List.range 8).any fun m => decide (roleLimit v < computeCount s m) then (3, s)
    else if v = s.clk then (0, { setLevel s n with armed := BitVec.ofNat 3 n })
    else (0, levelNow { s with armed := BitVec.ofNat 3 n })

/-- R461. HBEAT. -/
def execHbeat (r : LhReq) (s : State) : Out :=
  .next <| lhServe s r 4 0 fun s => (0, { s with frozenP := false, hbT := some s.tick })

/-- R460. MARGIN. -/
def execMargin (r : LhReq) (s : State) : Out :=
  .next <| lhServe s r 5 0 fun s =>
    let rail := argBits r 1 0
    let mv := sintNat 8 (argBits r 9 2)
    let fits := s.lvls.all fun w =>
      let x : Int := (lvlRail w rail : Int) + mv
      decide ((Config.fusedLow rail : Int) ≤ x ∧ x ≤ (Config.fusedHigh rail : Int))
    if mv < -25 ∨ 50 < mv ∨ !fits then (3, s) else (0, { s with mrg := s.mrg.set rail mv })

/-- R455. RETRAIN: the modules are trained again, one by one; the answer comes with the last. -/
def execRetrain (r : LhReq) (s : State) : Out :=
  .next
    (let site := argBits r 7 0
     if !(coreAt s r.core).caps.getLsbD 1 then lhAnswer s r 6 1 0
     else if !siteOk site ∨ site = 0xFF ∨ s.failed.contains site then lhAnswer s r 6 2 0
     else if boundTo s site none ∨ s.retrain.isSome then lhAnswer s r 6 4 0
     else { s with retrain := some (r, 0) })

/-- FORCE is set (R461, R463). -/
def setForce (s : State) : State := if s.force then s else { s with force := true, forceT := s.tick }

/-- R486. Cores 0 to 6 begin to restart from a slot: they are held, answers to them are discarded. -/
def restartCores (s : State) (slot : Nat) : State :=
  let s := (List.range 7).foldl (fun s n => let s := muteCore s n; setCore s n { coreAt s n with held := true, rst := 0 }) s
  measImage { s with rstT := some s.tick, watchT := some s.tick } 1 (some slot)

/-- R452, R461, R486. SETBOOT. -/
def execSetboot (r : LhReq) (s : State) : Out :=
  .next <| lhServe s r 7 1 fun s =>
    let kind := argBits r 1 0
    let slot := argBits r 2 2
    let now := decide (argBits r 3 3 = 1)
    if kind = 0 ∨ (kind = 1 ∧ now) then (2, s)
    else if !verifies (slotBytes s (bootSlot kind slot)) kind then (2, s)
    else
      let changed := decide (sget 0 s.pref kind % 2 ≠ slot)
      let s := { s with pref := sset s.pref kind slot, fresh := s.fresh || (changed && decide (kind = 2)) }
      if !now then (0, s)
      else if kind = 3 then
        let s := measImage (startCore (muteCore s 7) 7 (bootSlot 3 slot)) 2 (some (bootSlot 3 slot))
        (0, setForce { s with frozenP := true, hbT := some s.tick })
      else (0, restartCores s (bootSlot 2 slot))

/-- R451. QUOTE. -/
def execQuote (r : LhReq) (s : State) : Out :=
  .next <| lhServe s r 8 1 fun s =>
    let body := (s.meas.flatMap fun m => toBytes 64 m.toNat) ++ toBytes 8 r.arg.toNat
    let bs := body ++ (Config.quoteSignature (sha512 body)).take 132
    let all := bs ++ List.replicate (512 - bs.length) 0
    let k := coreAt s r.core
    (0, setCore s r.core { k with loc := (all.zipIdx).foldl (fun m p => sput 0 m (0x3FE00 + p.2) p.1) k.loc })

/-- A request of a word in the lighthouse's mailbox. -/
def lhReqOf (w : Word) : Nat × LhReq :=
  (bits w 55 48, { core := bits w 63 56 - 1, tag := BitVec.ofNat 8 (bits w 47 40), arg := BitVec.ofNat 40 (bits w 39 0) })

-- Heartbeats, forced levels, the relock pause (R218, R461, R462) -------------------------------------------------------------------

/-- Whether a heartbeat is overdue. -/
def heartbeatLate (s : State) : Bool :=
  match s.hbT with
  | some t => decide (t + 1000000 ≤ s.tick)
  | none => false

/-- R461. HEARTBEAT_TIMEOUT. -/
def execHeartbeatTimeout (s : State) : Out :=
  .next (if heartbeatLate s then setForce { s with frozenP := true, hbT := none } else s)

/-- Whether a forced level takes effect without a TURN (R218, R461). -/
def forceNow (s : State) : Bool := s.force && (!anyTimed s || decide (s.forceT + 1000000 ≤ s.tick))

/-- R218, R461. FORCED_LEVEL_TIMEOUT. -/
def execForcedLevelTimeout (s : State) : Out := .next (if forceNow s then setForced s else s)

/-- R218, R459. RELOCK_END: rails that fall are lowered now. -/
def execRelockEnd (s : State) : Out :=
  .next
    (match s.pauseT with
      | some t => if t ≤ s.tick then { s with pauseT := none, rails := s.railsT } else s
      | none => s)

/-- The package loses power: only the boot store remains (R449). -/
def powerOff (s : State) : State := { packageReset s with power := false }

/-- R462. OVERCURRENT. -/
def execOvercurrent (rail : Nat) (s : State) : Out := .next (if rail < 4 then powerOff s else s)

/-- The neighbours of a sensor in its grid (R463). -/
def sensorNbrs (i : Nat) : List Nat :=
  (List.range 16).filter fun j =>
    (decide (i / 4 = j / 4) && (decide (i = j + 1) || decide (j = i + 1))) || decide (i = j + 4) || decide (j = i + 4)

/-- A reading of at least 110 °C (R462, R463). -/
def tripHot (raw : BitVec 10) : Bool := decide (600 ≤ raw.toNat)

/-- R462. THERMAL_TRIP: two adjacent sensors of one die, each given with its reading, are at 110 °C or more together. -/
def execThermalTrip (site : BitVec 8) (i j : Nat × BitVec 10) (s : State) : Out :=
  .next
    (if siteOk site.toNat && decide (site ≠ 0xFF) && (sensorNbrs i.1).contains j.1 && tripHot i.2 && tripHot j.2 then powerOff s else s)

/-- Whether two adjacent sensors of a die read at least 110 °C (R462). -/
def tripDie (l : List (BitVec 10)) : Bool :=
  (List.range 16).any fun i => (sensorNbrs i).any fun j => tripHot (l.getD i 0) && tripHot (l.getD j 0)

/-- R449. PACKAGE_POWER_LOSS. -/
def execPackagePowerLoss (s : State) : Out := .next (powerOff s)

-- Sensors (R463) ----------------------------------------------------------------------------------------------------------------------

/-- Inserts into a list in rising order. -/
def insNat (x : Nat) : List Nat → List Nat
  | [] => [x]
  | y :: l => if x ≤ y then x :: y :: l else y :: insNat x l

/-- The median; with an even count the upper middle value. -/
def median (l : List Nat) : Option Nat := (l.foldr insNat [])[l.length / 2]?

/-- Whether a reading lies outside −40 °C to 150 °C. -/
def outOfRange (raw : BitVec 10) : Bool := decide (760 < raw.toNat)

/-- The distance of two readings. -/
def rawDist (a b : Nat) : Nat := Nat.max a b - Nat.min a b

/-- A sensor of a die. -/
def sensorAt (s : State) (site i : Nat) : Sensor := sget {} s.sensors (site * 16 + i)

/-- Whether fewer than 8 sensors of a die are valid. -/
def dieBlind (s : State) (site : Nat) : Bool := decide (8 < ((List.range 16).filter fun i => (sensorAt s site i).susp).length)

/-- One sensor's evaluation, given its die's sensors before and the readings. -/
def senseOne (old : Nat → Sensor) (read : Nat → BitVec 10) (i : Nat) : Sensor :=
  let x := old i
  let raw := read i
  let med := median (((sensorNbrs i).filter fun j => !(old j).susp && !outOfRange (read j)).map fun j => (read j).toNat)
  let oor := outOfRange raw
  let stuck := match x.hist.getLast?, x.hmed.getLast?, med with
    | some h, some (some m), some n => decide (1000 ≤ x.hist.length) && decide (raw = h) && decide (8 < rawDist n m.toNat)
    | _, _, _ => false
  let disag := match med with
    | some n => decide (32 < rawDist raw.toNat n)
    | none => false
  let any := oor || stuck || disag
  let clean := if any then 0 else x.clean + 1
  let susp := any || (x.susp && decide (clean < 10000))
  let good := if susp then x.good else raw
  let used := if susp then BitVec.ofNat 10 (Nat.max (med.getD 0) x.good.toNat) else raw
  { raw := raw, susp := susp, oor := susp && (oor || x.oor), stuck := susp && (stuck || x.stuck),
    disag := susp && (disag || x.disag), used := used, good := good, clean := clean,
    hist := (raw :: x.hist).take 1000, hmed := (med.map (BitVec.ofNat 10) :: x.hmed).take 1000 }

/-- A die whose sensors are read: its site code and its sixteen readings. -/
def dieRead (p : Nat × List (BitVec 10)) : Bool := siteOk p.1 && decide (p.1 ≠ 0xFF) && decide (p.2.length = 16)

/-- R463. SENSOR_EVALUATION: the readings of each die by site code; two adjacent ones of at least 110 °C remove power (R462). -/
def execSensorEvaluation (readings : List (Nat × List (BitVec 10))) (s : State) : Out :=
  .next
    (if s.tick < s.sensT + 100000 then s
     else if readings.any (fun p => dieRead p && tripDie p.2) then powerOff s
     else
       let upd (m : SMap Sensor) (p : Nat × List (BitVec 10)) : SMap Sensor :=
         if dieRead p then
           (List.range 16).foldl
             (fun m i => sset m (p.1 * 16 + i) (senseOne (sensorAt s p.1) (fun j => p.2.getD j 0) i)) m
         else m
       let t := { s with sensors := readings.foldl upd s.sensors, sensT := s.tick }
       let bad := allSites.any (dieBlind t) || dieBlind t 0x20
       let t := { t with capn := bad }
       if bad && decide (varOf t t.grant.toNat ≠ 2) then setForce t else t)

-- Cores (R449, R486, R487) ---------------------------------------------------------------------------------------------------------------

/-- R449. CORE_TRAP: a fault or TRAP enters the core's handler, or restarts it. -/
def execCoreTrap (core : Nat) (code arg : BitVec 16) (s : State) : Out :=
  .next
    (if 9 ≤ core ∨ (coreAt s core).held then s
     else coreFault s core (coreAt s core).st.pc { code := code.toNat, arg := arg })

/-- R486. CORE_RESTART from the preferred harbour slot. -/
def execCoreRestart (s : State) : Out :=
  .next
    (match bootPick s 2 with
      | some i => if s.boot || s.recovery then s else restartCores s i
      | none => s)

/-- R487. The watch sees a third restart of one of cores 0 to 6. -/
def watchTripped (s : State) : Bool :=
  match s.watchT with
  | some t => decide (s.tick < t + 1000000000) && (List.range 7).any fun n => decide (3 ≤ (coreAt s n).rst)
  | none => false

/-- R487. HARBOUR_ROLLBACK: the other slot, if it verifies. -/
def execHarbourRollback (s : State) : Out :=
  .next
    (if !watchTripped s then s
     else
       let o := 1 - sget 0 s.pref 2 % 2
       if verifies (slotBytes s (bootSlot 2 o)) 2 then restartCores { s with pref := sset s.pref 2 o, fresh := true } (bootSlot 2 o) else s)

/-- R26. HOST_PORT_LINK_CHANGE: MIXD.HOSTUP follows the link. -/
def execHostPortLinkChange (up : Bool) (s : State) : Out :=
  .next
    (if s.mixd.getLsbD 44 = up then s else mixUpdate { s with mixd := putBits s.mixd 44 44 (if up then 1 else 0) })

end Sys2Proof.Machine
end

