-- ==== Sys2Proof/Machine/Peer.lean ====
section
/-! DEFINITION. Other packages (R464 to R472): pins at the home, peer requests, stale frames, invalidations and links. -/

namespace Sys2Proof.Machine

/-- The tiles of an entry of the pin list: package, context, tensor, first tile, count. -/
def peerTiles (p : Nat × Nat × Nat × Nat × Nat) : List Nat := (List.range p.2.2.2.2).map fun i => p.2.2.2.1 + i

/-- Releases the pins of an entry of the list. -/
def peerUnpin (s : State) (p : Nat × Nat × Nat × Nat × Nat) : State :=
  (peerTiles p).foldl (fun s t => pinTile s p.2.1 p.2.2.1 t false) s

/-- R468. The home refuses a pin request. -/
def pinRefused (s : State) (ctx tens first count kind : Nat) : Bool :=
  match exported s ctx tens, descFor s ctx tens with
  | some wr, some d =>
    (decide (2 ≤ kind) && !wr) || decide (d.ntiles < first + count)
      || (List.range count).any fun i =>
        let e := entryOf s ctx tens (first + i)
        decide (entState e = 0) || decide (entPins e = 4095)
  | _, _ => true

/-- A tile whose frame lies in a stratum that is changing its role (R441, R446). -/
def roleHeld (s : State) (e : Word) : Bool :=
  match bankOf e with
  | some (i, _) => decide (entState e ≠ 0) && decide (roleOf s i = 2)
  | none => false

/-- A range that a pin request names touches a stratum that changes its role (R441). -/
def pinHeld (s : State) (p : Nat × Nat × Nat × Nat × Nat) : Bool := (peerTiles p).any fun t => roleHeld s (entryOf s p.2.1 p.2.2.1 t)

/-- The answer to a pin request: refused, or with its pins taken (R468). -/
def pinAnswer (s : State) (p : Nat × Nat × Nat × Nat × Nat) (kind : BitVec 2) : State :=
  let (pkg, ctx, tens, first, count) := p
  let answer (s : State) (st : Nat) : State :=
    sendPkg s pkg 107 [BitVec.ofNat 64 ctx, BitVec.ofNat 64 tens, BitVec.ofNat 64 first, BitVec.ofNat 64 count, BitVec.ofNat 64 st] []
  if pinRefused s ctx tens first count kind.toNat then answer s 4
  else answer ((peerTiles p).foldl (fun s t => pinTile s ctx tens t true) { s with peers := s.peers ++ [p] }) 0

/-- The first pin request that waited for a role change, and waits no more, is answered (R441, R468). -/
def pinNext (s : State) : State :=
  match s.pinq.find? fun x => !pinHeld s x.1 with
  | some x => pinAnswer { s with pinq := s.pinq.erase x } x.1 x.2
  | none => s

/-- R468. PEER_PIN_REQUEST of another package; kind 0 releases a range. A request that touches a stratum changing its role
is answered when the change is over. -/
def execPeerPinRequest (pkg ctx tens first count : Nat) (kind : BitVec 2) (s : State) : Out :=
  .next
    (let p := (pkg, ctx, tens, first, count)
     if kind = 0 then
       if s.peers.contains p then peerUnpin { s with peers := s.peers.erase p } p
       else { s with pinq := s.pinq.filter fun x => !decide (x.1 = p) }
     else if pinHeld s p then { s with pinq := s.pinq ++ [(p, kind)] }
     else pinAnswer s p kind)

/-- R468. PEER_LEASE_TIMEOUT: no answer within 200,000 ticks, or a refusal, completes the launch with LEASE. -/
def execPeerLeaseTimeout (h : Nat) (s : State) : Out :=
  .next
    (match sfind s.regions h with
      | some r =>
        if r.stage = .leases ∧ r.askT.isSome then refuseRun s h stLease else s
      | none => s)

/-- The value of an atomic of another package at its home: what it leaves, and the value before. -/
def peerAtomic (q : PeerReq) (old : Nat) : Nat :=
  let n := q.data.length
  let b := ofBytes q.data
  if q.atomic = 12 then old / 16 * 16 + b % 16
  else if q.atomic = 13 then old % 16 + b % 16 * 16
  else if q.atomic = 10 then (old + b) % 2 ^ 256
  else if q.atomic = 11 then
    if old = b % 2 ^ (4 * n) then b / 2 ^ (4 * n) else old
  else amoOp (q.atomic - 1) (8 * n) old b

/-- The bytes that an atomic of another package works on. -/
def peerWidth (q : PeerReq) : Nat := if q.atomic = 11 then q.data.length / 2 else q.data.length

/-- A peer request applied to its tile, with the bytes answered. -/
def peerApply (s : State) (q : PeerReq) : State × List Byte :=
  if q.nread ≠ 0 then (s, homeRead s q.ctx q.tens q.tile q.off q.nread)
  else if q.atomic = 0 then (homeWrite s q.ctx q.tens q.tile q.off q.data, [])
  else
    let s := zeroFill s q.ctx q.tens q.tile
    let old := homeRead s q.ctx q.tens q.tile q.off (peerWidth q)
    (homeWrite s q.ctx q.tens q.tile q.off (toBytes (peerWidth q) (peerAtomic q (ofBytes old))), if 12 ≤ q.atomic then [] else old)

/-- A package asks for the entry of a tile: its request names no operation (R469). -/
def asksEntry (q : PeerReq) : Bool := decide (q.nread = 0 ∧ q.atomic = 0) && q.data.isEmpty

/-- R469. PEER_REQUEST: a request for the tile's entry is answered with it; any other is applied if the frame is the tile's, forwarded once through a forwarding entry, otherwise answered
STALE_FRAME (status 1). Without an export or a pin it is answered with an error (status 2). -/
def execPeerRequest (r : PeerReq) (s : State) : Out :=
  .next
    (let e := entryOf s r.ctx r.tens r.tile
     let ans (s : State) (st : Nat) (bs : List Byte) : State :=
       sendPkg s r.pkg 108 [BitVec.ofNat 64 r.ctx, BitVec.ofNat 64 r.tens, BitVec.ofNat 64 r.tile, BitVec.ofNat 64 st] bs
     let pinned := s.peers.any fun p =>
       decide (p.1 = r.pkg ∧ p.2.1 = r.ctx ∧ p.2.2.1 = r.tens) && (peerTiles p).contains r.tile
     let live := decide (entState e ≠ 0) && (decide (frameOf r.frame = frameOf e)
       || s.fwds.any fun f => decide (frameOf f.old = frameOf r.frame))
     if (exported s r.ctx r.tens).isNone || !pinned then ans s 2 []
     else if asksEntry r then ans s 0 (toBytes 8 e.toNat)
     else if !live then ans s 1 []
     else if sectorBad s e r.off then ans s 2 []
     else
       let (s, bs) := peerApply s r
       ans (hotSample s r.ctx r.tens r.tile) 0 bs)

/-- The cached translations of a request's tile are dropped. -/
def dropPtc (s : State) (ctx tens tile : Nat) : State :=
  { s with ptc := s.ptc.filter fun p => !(decide (p.1 % 2 ^ 56 = ptcKey 0 ctx tens tile)) }

/-- R469. STALE_FRAME: the cached entry is dropped and the request is sent again; the eighth in succession raises LINK. -/
def execStaleFrame (req : Nat) (s : State) : Out :=
  .next
    (match sfind s.reqs req with
      | none => s
      | some r =>
        if !(r.peer && r.applied && !r.lost) then s
        else
          let s := dropPtc s r.ctx (tidOf r.addr) (reqSectors s r).1
          if 7 ≤ r.stales then reqFault s req r cLink 0
          else setReq s req { r with applied := false, out := 0, stales := r.stales + 1, due := s.per + 1 })

/-- R470. PEER_INVALIDATION: matching entries leave the caches of all four switch dies, and the home is answered. -/
def execPeerInvalidation (pkg : Nat) (frame : Word) (s : State) : Out :=
  .next
    (let ofPkg (k : Nat) : Bool := match peerOf s (k / 2 ^ 48 % 256) (k / 2 ^ 32 % 2 ^ 16) with
       | some (p, _, _) => decide (p = pkg)
       | none => false
     let s := { s with ptc := s.ptc.filter fun p => !(ofPkg p.1 && decide (frameOf p.2 = frameOf frame)) }
     sendPkg s pkg 109 [frame] [])

/-- R470. INVALIDATION_ACK lowers the count of the forwarding entry. -/
def execInvalidationAck (pkg : Nat) (frame : Word) (s : State) : Out :=
  .next
    { s with fwds := s.fwds.map fun f => if frameOf f.old = frameOf frame then { f with pend := f.pend.erase pkg } else f }

/-- The effects of the loss of the last link to a package (R468, R470). -/
def pkgLost (s : State) (pkg : Nat) : State :=
  let mine := s.peers.filter fun p => decide (p.1 = pkg)
  let s := mine.foldl peerUnpin { s with peers := s.peers.filter (fun p => decide (p.1 ≠ pkg)), pinq := s.pinq.filter fun x => decide (x.1.1 ≠ pkg) }
  let ofPkg (k : Nat) : Bool := match peerOf s (k / 2 ^ 48 % 256) (k / 2 ^ 32 % 2 ^ 16) with
    | some (p, _, _) => decide (p = pkg)
    | none => false
  { s with fwds := s.fwds.map (fun f => { f with pend := f.pend.filter (· ≠ pkg) }),
           ptc := s.ptc.filter fun p => !ofPkg p.1 }

/-- The rounds that use a link to a package and have not ended (R349). -/
def roundsWith (s : State) (pkg : Nat) : List (Nat × Op) :=
  s.ops.filter fun p => decide (p.2.kind = .coll ∧ p.2.coll.kind < 5 ∧ p.2.coll.scope = 4) && !p.2.units
    && p.2.coll.memb.any fun m => decide (m.1 = pkg)

/-- The requests in flight on a link that goes down are lost; the time-outs of R475 govern them (R465). -/
def linkLost (l : SMap Req) (link : Nat) : SMap Req :=
  l.map fun p => if p.2.peer ∧ p.2.out = link + 1 then (p.1, { p.2 with lost := true }) else p

/-- R464, R465. REACH_LINK_DOWN: RLSTAT and the mix show it, what was in flight on the link is lost, and the rounds that use it
end with LINK (R349). -/
def execReachLinkDown (link : Nat) (s : State) : Out :=
  .next
    (let site := 0x20 + link / 4
     let w := preg s site (0x80 + link % 4)
     if 16 ≤ link ∨ !w.getLsbD 0 then s
     else
       let pkg := bits w 31 16
       let downs := bits w 63 56
       let w' := putBits (putBits (putBits (putBits w 0 0 0) 11 8 0) 31 16 0xFFFF) 63 56 (if downs = 255 then 255 else downs + 1)
       let used := decide (linkTo s pkg = some link)
       let s := mixUpdate { setPreg s site (0x80 + link % 4) w' with mixd := putBits s.mixd (28 + link) (28 + link) 0,
                                                                     conns := sdel s.conns (1000 + link),
                                                                     reqs := linkLost s.reqs link }
       let s := if used then endAll s (roundsWith s pkg) 4 else s
       if (linkTo s pkg).isNone then pkgLost s pkg else s)

/-- Whether a reach link has made no progress for 1,000,000 ticks: messages wait for their acknowledgement (R464). -/
def reachStuck (s : State) (link : Nat) : Bool :=
  match sfind s.conns (1000 + link) with
  | some c => !c.unack.isEmpty && !c.dead && decide (c.progT + 1000000 ≤ s.tick)
  | none => false

/-- R464. A reach link without progress is declared down; one that waits for its peer's HELLO sends its own no more. -/
def reachLate (s : State) (link : Nat) : Out :=
  if !reachStuck s link then .next s
  else if (preg s (0x20 + link / 4) (0x80 + link % 4)).getLsbD 0 then execReachLinkDown link s
  else .next (setConn s (1000 + link) { dead := true })

/-- Whether a link that is trained sends its HELLO: the package has a number, and no exchange is under way (R416, R464). -/
def reachHelloDue (s : State) (link : Nat) : Bool :=
  let w := preg s (0x20 + link / 4) (0x80 + link % 4)
  w.getLsbD 1 && !w.getLsbD 0 && (sfind s.conns (1000 + link)).isNone && decide (pkgOwn s ≠ 0xFFFF)

/-- The HELLO of a reach link, on its connection (R416, Table 2a). -/
def reachHello (s : State) (link : Nat) (c : Conn) : State :=
  sendOn s (1000 + link) c tHello 0
    [fieldsW [(0, 0x133), (16, pkgOwn s), (32, link)], BitVec.ofNat 64 ((c.tx + 1) % 2 ^ 32)] []

/-- A reach link comes up (R464 to R416): both ends have exchanged HELLO with package numbers that differ. -/
def linkUp (s : State) (link pkg plink : Nat) : State :=
  let site := 0x20 + link / 4
  let own := pkgOwn s
  if 16 ≤ link ∨ own = 0xFFFF ∨ pkg = 0xFFFF ∨ own = pkg ∨ (preg s site (0x80 + link % 4)).getLsbD 0 then s
  else
    let w := preg s site (0x80 + link % 4)
    let w' := putBits (putBits (putBits w 0 0 1) 11 8 plink) 31 16 pkg
    mixUpdate { setPreg s site (0x80 + link % 4) w' with mixd := putBits s.mixd (28 + link) (28 + link) 1 }

end Sys2Proof.Machine
end

