-- ==== Sys2Proof/Machine/Landing.lean ====
section
/-! DEFINITION. What lands in a running region: results, deliveries, FIFO transits, merges of elastic phases (R41, R44,
R52 to R55, R93, R110, R204, R208, R243, R268, R339, R359), and the pre-decode of timed streams with the stalls that it asks
for (R46 to R50, R207, R492). -/

namespace Sys2Proof.Machine

-- Landings (R41, R359) -------------------------------------------------------------------------------------------------

/-- The classes of landings in a period: operations at a barrier's port, the test of BWAIT among them, end their cycle (0);
accumulators show after their landing cycle (1); everything else is there for the words of the cycle (2). -/
def Latch.cls (l : Latch) : Nat :=
  match l.tgt with
  | .arrive _ _ _ _ _ | .barLand _ _ _ | .bwait _ _ => 0
  | .zclr _ | .zent _ _ _ => 1
  | _ => 2

/-- A landing comes before an arrival of the same cell (R93). -/
def Latch.rank (l : Latch) : Nat :=
  match l.tgt with
  | .barLand _ _ _ => 0
  | _ => 1

/-- The first value of its clock at which a latch has its effect. -/
def Latch.at_ (l : Latch) : Nat := if l.cls < 2 then l.due + 1 else l.due

/-- A queue landing waits while a memory-fed queue is full (R44). -/
def landBlocked (s : State) (key : Nat) (l : Latch) : Bool :=
  match l.tgt with
  | .q n => decide ((qFeed s key n).kind = .mem) && decide (qCap n ≤ (qEnts s key n).length)
  | _ => false

/-- Whether a latch has its effect now, or, at a stop (R359), by the TIDE of the stop. -/
def latchDue (s : State) (key : Nat) (stop : Bool) (l : Latch) : Bool :=
  !landBlocked s key l &&
    (if stop then !l.per && decide (l.due ≤ (regOf s key).tide)
     else decide (l.at_ ≤ nowFor s key l.per))

/-- Who a latch's word was. What happens at a barrier's port is detected in the landing cycle itself. -/
def latchWho (key : Nat) (l : Latch) : Who :=
  { key := key, seq := l.seq, pc := l.pc, cyc := if l.cls = 0 ∧ !l.per then some l.due else none }

/-- The bytes of a scratchpad latch go to their places one by one: private bytes take effect, shared bytes enter the buffer
of their phase, or none where it is full. -/
def landBytes (s : State) (key off : Nat) (l : Latch) : Option State :=
  (List.range 256).foldl
    (fun acc i =>
      acc.bind fun s =>
        if !l.mask.getLsbD i then some s
        else
          let b : Byte := l.val.extractLsb' (8 * i) 8
          match l.ep with
          | none => some (spadPut s key (off + i) b)
          | some e =>
            let c := cellAt s key
            if off + i < c.csr.shwin * 1024 then
              (pbPut c.pwb (cidxOf key) e (off + i) b).map fun p => setCell s key { c with pwb := p }
            else some (spadPut s key (off + i) b)) (some s)

/-- Writes the bytes of a scratchpad latch; a store that finds the buffer full is not buffered, and faults once (R108). -/
def landSpad (s : State) (key off : Nat) (l : Latch) : State :=
  match landBytes s key off l with
  | some t => t
  | none => takeFault s (latchWho key l) { code := cPhaseOv, taddr := taddr 0xFFFF (cidxOf key * 2 ^ 42 + off) }

/-- An arrival at the owner's port (R92, R208, R242): the word before gives the reply, and with WAIT the test follows at the
reply's landing. -/
def landArrive (s : State) (key o off d land : Nat) (wait : Bool) (l : Latch) : State :=
  let n : Word := l.val.extractLsb' 0 64
  let a : Word := l.val.extractLsb' 64 64
  let par : BitVec 2048 := BitVec.ofNat 2048 (bits (barWord s o off) 60 60)
  match arriveOn s o off n.toInt with
  | .error e =>
    takeFault s { latchWho key l with word := l.val.extractLsb' 128 64 }
      { code := e, taddr := a, shadow := some (a, n, 0, land) }
  | .ok s =>
    let s := if d = 0 then s else addLatch s key { due := land, tgt := .a d, val := par, seq := l.seq, pc := l.pc }
    if wait then addLatch s key { due := land, tgt := .barw o off, val := par, seq := l.seq, pc := l.pc } else s

/-- The merge of a timed phase (R205): the first cell merges all, and each cell's phase is over. -/
def landMerge (s : State) (key : Nat) : State :=
  let c := cellAt s key
  match c.phase with
  | none => s
  | some p =>
    let s :=
      if p.merged then s
      else match phaseCells s key p.grp p.scope with
        | some l => mergeAll s l
        | none => s
    setCell s key { cellAt s key with phase := none }

/-- The test of a timed BWAIT or BAR.W (R208, R243): the barrier has turned, or the stream misses its schedule. -/
def landTest (s : State) (key o off : Nat) (l : Latch) : State :=
  if spadBad s o off 8 then takeFault s (latchWho key l) { code := cMemErr, taddr := taddr 0xFFFF (cidxOf o * 2 ^ 42 + off) }
  else if bits (barWord s o off) 60 60 = l.val.toNat then takeFault s (latchWho key l) { code := cSched } else s

/-- One latch has its effect. -/
def landOne (s : State) (key : Nat) (l : Latch) : State :=
  match l.tgt with
  | .a r => writeA s key r (l.val.setWidth 64)
  | .v r => writeV s key r l.val l.mask
  | .m r => writeM s key r (l.val.setWidth 256)
  | .k n =>
    let (s, ok) := addTok s key n
    if ok then s else takeFault s (latchWho key l) { code := cTokOv }
  | .opEnd n =>
    let (s, ok) := addTok { s with ops := sdel s.ops l.op } key n
    if ok then s else takeFault s (latchWho key l) { code := cTokOv, engn := true }
  | .q n =>
    let es := qEnts s key n
    if qCap n ≤ es.length then
      takeFault (if l.op = 0 then s else opStopped s l.op) (latchWho key l) { code := cSched, engn := decide (l.op ≠ 0) }
    else setQ s key n (es ++ [mkQEntry n l.val l.mark])
  | .fq => setMx s key fun m => { m with fq := m.fq ++ [l.val.setWidth 64] }
  | .spad off => landSpad s key off l
  | .desc w d i => writeDesc s key w d i (l.val.setWidth 64)
  | .csr n => csrPut s key n (l.val.setWidth 64)
  | .cem => setMx s key fun m => { m with cem := l.val.setWidth 8 }
  | .pcur mask => setMx s key fun m => clearPcur m mask
  | .pcurStep t => setMx s key fun m => { m with pcur := sput 0 m.pcur t ((sget 0 m.pcur t + 1) % 32) }
  | .zclr mask => setMx (healTiles s key mask) key fun m => clearTiles m mask
  | .zent t row col =>
    setMx (setCell s key ((cellAt s key).heal 1 fun n => decide (n = 256 * t + 2 * row + col / 64))) key fun m =>
      setZRow m t row ((zRow m t row).take col ++ unpackL 32 64 l.val.toNat ++ (zRow m t row).drop (col + 64))
  | .arrive o off d land wait => landArrive s key o off d land wait l
  | .barLand o off n =>
    (match landOn s o off n with
      | .ok s => s
      | .error e => takeFault (if l.op = 0 then s else opStopped s l.op) (latchWho key l) { code := e, engn := true })
  | .bwait o off | .barw o off => landTest s key o off l
  | .merge => landMerge s key

/-- Whether a latch comes before another: by class, landing, rank and order. -/
def Latch.before (x y : Latch) : Bool :=
  (([x.cls, x.due, x.rank, x.ord]).zip [y.cls, y.due, y.rank, y.ord]).foldr
    (fun p r => decide (p.1 < p.2) || (decide (p.1 = p.2) && r)) false

/-- Inserts a latch. -/
def insLatch (x : Latch) : List Latch → List Latch
  | [] => [x]
  | y :: l => if x.before y then x :: y :: l else y :: insLatch x l

/-- The next latch of a cell that has its effect. -/
def nextLatch (s : State) (key : Nat) (stop : Bool) : Option Latch :=
  (((cellAt s key).lat.filter (latchDue s key stop)).foldr insLatch []).head?

/-- Takes a latch from a cell and gives it its effect. -/
def applyLatch (s : State) (key : Nat) (l : Latch) : State :=
  let c := cellAt s key
  landOne (setCell s key { c with lat := c.lat.filter fun x => !decide (x.ord = l.ord) }) key l

/-- The latches of one class that have their effect now, in order; a queue landing that a full queue holds back waits. -/
def landAll (s : State) (key : Nat) (cls : Nat) (stop : Bool) : Nat → State
  | 0 => s
  | n + 1 =>
    match nextLatch s key stop with
    | some l => if l.cls = cls then landAll (applyLatch s key l) key cls stop n else s
    | none => s

/-- Whether a cell's landings go on: its region runs, or its rebuild stubs do. While trap stubs run nothing lands (R366). -/
def landsNow (s : State) (key : Nat) : Bool :=
  match (regOf s key).stage with
  | .running | .rebuild => decide ((cellAt s key).reg ≠ 0)
  | _ => false

/-- R41, R303. RESULT_LANDING: the updates of a cell that have their effect now, class by class; those of the accumulators
one by one, since rows of the matrix engine land between them. -/
def execResultLanding (key : Nat) (s : State) : Out :=
  .next
    (if !landsNow s key then s
     else match nextLatch s key false with
       | none => s
       | some l => landAll s key l.cls false (if l.cls = 1 then 1 else (cellAt s key).lat.length))

/-- The next delivery of a cell by its TIDE. -/
def nextDelivery (s : State) (key : Nat) : Option Inflight :=
  (cellAt s key).inc.foldl
    (fun b x =>
      if (regOf s key).tide < x.due then b
      else match b with
        | none => some x
        | some y => if x.due < y.due ∨ (x.due = y.due ∧ x.ord < y.ord) then some x else some y) none

/-- R53, R55. PUSH_DELIVERY: the oldest delivery that is due; into a full queue it is a schedule miss here, and is lost. -/
def execPushDelivery (key : Nat) (s : State) : Out :=
  .next
    (if !landsNow s key then s
     else match nextDelivery s key with
       | none => s
       | some x =>
         let c := cellAt s key
         let s := setCell s key { c with inc := c.inc.filter fun y => !decide (y.ord = x.ord) }
         let es := qEnts s key x.q
         if qCap x.q ≤ es.length then
           let q := (qFeed s key x.q).cons
           takeFault s { key := key, seq := q, pc := (c.stream q).pc } { code := cSched }
         else setQ s key x.q (es ++ [mkQEntry x.q x.data x.mark]))

/-- R339. FIFO_TRANSIT: slots whose way back is over. -/
def execFifoTransit (key : Nat) (s : State) : Out :=
  .next (let f := fifoAt s key; setFifo s key { f with frees := f.frees.filter fun t => decide (s.per < t) })

/-- The stream of a stratum cell waits at a VFPUSH or VFPOP for longer than STALLTO (R339). -/
def fifoLate (s : State) (key : Nat) : Bool :=
  let st := (cellAt s key).sc
  decide (classOf key = 3) && canIssue s key .c &&
    match st.since, decodeAt s key .c with
    | some t, .ok (.vfpush _) | some t, .ok (.vfpop _) => decide (t + (regOf s key).stallto.toNat < s.tick)
    | _, _ => false

/-- R339. FIFO_WAIT_TIMEOUT. -/
def execFifoWaitTimeout (key : Nat) (s : State) : Out :=
  .next
    (if fifoLate s key then takeFault s { key := key, seq := .c, pc := (cellAt s key).sc.pc } { code := cStall } else s)

-- Elastic phases (R107, R110, R204) ----------------------------------------------------------------------------------------

/-- A cell has issued a PHASE that its subgroup has not merged yet, and which matches another (R107). -/
def phaseMatches (s : State) (p : PhasePend) (k : Nat) : Bool :=
  match (cellAt s k).phase with
  | some x => !x.timed && !x.merged && decide (x.grp = p.grp ∧ x.scope = p.scope)
  | none => false

/-- The cells of an elastic phase that every cell of its subgroup has reached, whose merge is made now. -/
def phaseReady (s : State) (key : Nat) : Option (List Nat) :=
  match (cellAt s key).phase with
  | none => none
  | some p =>
    if p.timed || p.merged then none
    else match phaseCells s key p.grp p.scope with
      | none => none
      | some l => if l.all (phaseMatches s p) then some l else none

/-- The implied fence of a cell's merged phase is complete. -/
def phaseFenced (s : State) (key : Nat) : Bool :=
  match (cellAt s key).phase with
  | none => false
  | some p => !p.timed && p.merged && (decide (p.scope = 1) || fenceDone s key .s p.scope)

/-- The elastic phase of a cell is over: its S stream may go on in the next period. -/
def phaseOver (s : State) (k : Nat) : State :=
  let c := cellAt s k
  setCell s k { c with phase := none, ss := { c.ss with last := s.per } }

/-- The end of the implied fence of a phase: at PKG scope what the stream has observed is visible, and the sector buffer is
invalidated (R71). -/
def phaseFenceOver (s : State) (k : Nat) : State :=
  let c := cellAt s k
  let pkg := c.phase.any fun p => decide (3 ≤ p.scope)
  dropSects (phaseOver (setCell s k { c with ss := { c.ss with obs := if pkg then [] else c.ss.obs } }) k) k

/-- R204. PHASE_END: when every cell has reached the phase its merge is made; a cell goes on then, or, for scopes DIE and PKG,
when its implied fence is complete. -/
def execPhaseEnd (key : Nat) (s : State) : Out :=
  .next
    (match phaseReady s key with
      | some l =>
        let s := mergeAll s l
        l.foldl (fun s k => if (cellAt s k).phase.any (fun p => decide (p.scope = 1)) then phaseOver s k else s) s
      | none => if phaseFenced s key then phaseFenceOver s key else s)

-- Pre-decode (R46, R49, R492) ------------------------------------------------------------------------------------------------

/-- The queues among the first n sources of a VN, GS or ST lane word, with their peek bits (R222, R271). -/
def vecQueues (sp : Space) (f : VecF) (n : Nat) : List (Nat × Bool) :=
  (vecSrcs f n).filterMap fun p => (fieldQueue sp p.1).map fun q => (q, p.2)

/-- The queues that an instruction reads at its issue, with whether it only peeks (R46). -/
def queueReads (sp : Space) (i : Instr) : List (Nat × Bool) :=
  match i with
  | .qpop q _ _ => [(q.toNat, false)]
  | .qpeek q _ _ => [(q.toNat, true)]
  | .push q _ _ => [(q.toNat, false)]
  | .movq _ qs _ => [(qs.toNat, false)]
  | .vadd f | .vsub f | .vmul f | .vdiv f | .vmin f | .vmax f | .vcmpeq f | .vcmpne f | .vcmplt f | .vcmple f
  | .vand f | .vor f | .vxor f | .vshl f | .vshr f | .vsra f | .viadd f | .visub f | .vimul f | .vimin f | .vimax f
  | .vsel f | .vperm f | .dot16 f | .vnvar f | .gvadd f | .gvmul f | .svadd f => vecQueues sp f 2
  | .vfma f | .vfms f | .vnapply f | .gvfma f | .svfma f => vecQueues sp f 3
  | .vsqrt f | .vabs f | .vneg f | .vnot f | .vcvt f | .vrcp f | .vrsqrt f | .vexp2 f | .vlog2 f | .vtanh f | .vsigm f
  | .vsin f | .vcos f | .vredsum f | .vredmax f | .vredmin f | .vbcast f | .vrot f | .vmov f | .vquant f | .vdeq f
  | .vnmean f | .gmov f | .gvcvt f => vecQueues sp f 1
  | .vmset f => if f.sub.toNat = 2 then [] else vecQueues sp f 1
  | .vst d _ _ | .gvst d _ _ => ((fieldQueue sp d).map fun q => (q, false)).toList
  | .vfpush a => ((fieldQueue sp a).map fun q => (q, false)).toList
  | _ => []

/-- Whether an instruction starts an engine operation: of an S stream, or of an L or W stream (R492). -/
def startsOp (i : Instr) : Bool :=
  match i with
  | .engJoin _ _ | .engTload _ _ _ _ | .engTcopy _ _ _ _ | .engTstore _ _ _ _ | .engTfill _ _ _ _
  | .rdq _ _ _ | .rds _ _ _ | .wrq _ _ _ | .wrs _ _ _ | .cpy _ _ _ | .gath _ _ _ _ _ _ | .scat _ _ _ _ _ _ | .pref _ _ => true
  | _ => false

/-- A node of the look-ahead: a word that may issue at a cycle, with the reservations of the worst path to it: the issue
cycles of the reads of each queue, and of the words that start operations under key 16. -/
structure Node where
  cyc : Nat
  pc  : Nat
  word : Word
  res : SMap (List Nat)
deriving DecidableEq, Repr

/-- The cycles of the reads of one queue on two paths, latest first, joined: from any cycle on there are as many as on the path that
has more of them there. -/
def joinReads : List Nat → List Nat → List Nat
  | x :: l, y :: m => Nat.max x y :: joinReads l m
  | [], m => m
  | l, [] => l

/-- Joins two reservations: at every later cycle the larger count of each (R401). -/
def maxRes (a b : SMap (List Nat)) : SMap (List Nat) :=
  b.foldl (fun m p => sset m p.1 (joinReads (sget [] m p.1).reverse p.2.reverse).reverse) a

/-- Adds a node, joining it with one for the same word and cycle. -/
def addNode (l : List Node) (n : Node) : List Node :=
  if l.any fun x => decide (x.cyc = n.cyc ∧ x.pc = n.pc) then
    l.map fun x => if x.cyc = n.cyc ∧ x.pc = n.pc then { x with res := maxRes x.res n.res } else x
  else l ++ [n]

/-- The word at a byte offset that issues at its IDLE after a cycle, as a pre-decode sees it: the one fetched before for that
cycle (R129, R402), or the one in memory. -/
def lookWord (s : State) (key : Nat) (q : Seq) (base pc : Nat) : Word :=
  let st := streamAt s key q
  match st.resv.find? fun x => decide (x.pc = pc ∧ x.cyc = base + idleNat x.word) with
  | some x => x.word
  | none =>
    match sfind st.pre pc with
    | some w => w
    | none => if st.nword * 8 ≤ pc then 0 else tensWord s (ctxOf s key) st.img pc

/-- The reservations after a word that issues at a cycle. -/
def afterRes (sp : Space) (res : SMap (List Nat)) (cyc : Nat) (i : Instr) : SMap (List Nat) :=
  let add (m : SMap (List Nat)) (k : Nat) : SMap (List Nat) := sset m k (sget [] m k ++ [cyc])
  let r := (queueReads sp i).foldl (fun m p => if p.2 then m else add m p.1) res
  if startsOp i then add r 16 else r

/-- R46: a word is short at a test: a memory-fed queue holds too few entries beside those reserved by the words before it
that have not issued, or an operation limit is reached (R492). -/
def shortAt (s : State) (key : Nat) (q : Seq) (sp : Space) (res : SMap (List Nat)) (i : Instr) : Bool :=
  let t := (regOf s key).tide
  let held (n : Nat) : Nat := ((sget [] res n).filter fun c => decide (t ≤ c)).length
  let reads := queueReads sp i
  let need (n : Nat) : Nat := (reads.filter fun p => decide (p.1 = n) && !p.2).length
  reads.any (fun p =>
    decide ((qFeed s key p.1).kind = .mem)
      && decide ((qEnts s key p.1).length < held p.1 + (if p.2 then 1 else need p.1)))
  || (startsOp i && (if q = .s then decide (64 < engCount s key + held 16 + 1) else decide (16 < accCount s key q + held 16 + 1)))

/-- The byte offset after a signed word offset. -/
def offPc (pc : Nat) (o : Word) : Nat := (BitVec.ofNat 64 pc + (o <<< 3)).toNat

/-- The byte offsets at which a stream may go on after a word, and the extra cycles of a WAITC. -/
def nextPcs (s : State) (key : Nat) (st : Stream) (cyc pc : Nat) (i : Instr) : List Nat × Nat :=
  match i with
  | .waitc n => ([pc + 8], n.toNat)
  | .endw => ([], 0)
  | .jmp o => ([offPc pc (o.signExtend 64)], 0)
  | .loop _ o _ => ([offPc pc (o.signExtend 64), pc + 8], 0)
  | .call _ o => ([offPc pc (o.signExtend 64)], 0)
  | .ret a => ([((st.retAt cyc pc).getD (readA s key a.toNat)).toNat], 0)
  | .brt _ _ t _ _ => ([offPc pc (t.signExtend 64), pc + 8], 0)
  | .turn n =>
    let e := st.turns.getD n.toNat 0
    ([8 * bits e 15 0, 8 * bits e 31 16, 8 * bits e 47 32], 0)
  | _ => ([pc + 8], 0)

/-- The word at a byte offset that issues at a cycle has been fetched before. -/
def hasCopy (s : State) (key : Nat) (q : Seq) (pc cyc : Nat) : Bool :=
  let st := streamAt s key q
  (st.resv.any fun x => decide (x.pc = pc ∧ x.cyc = cyc)) || (sfind st.pre pc).isSome

/-- The look-ahead of a timed stream up to a cycle: nodes in rising cycles are visited once; the answer is those visited,
with their words and whether they are short. A word that cannot be fetched (R83) is not among them: it faults at its issue. -/
def walkAhead (s : State) (key : Nat) (q : Seq) (lim : Nat) : Nat → List Node → List PreRes → List PreRes
  | 0, _, acc => acc
  | n + 1, todo, acc =>
    match todo with
    | [] => acc
    | x0 :: rest0 =>
      let x := rest0.foldl (fun b y => if y.cyc < b.cyc then y else b) x0
      let rest := todo.filter fun y => !decide (y.cyc = x.cyc ∧ y.pc = x.pc)
      if lim < x.cyc then acc
      else if wordBad s key q x.pc && !hasCopy s key q x.pc x.cyc then walkAhead s key q lim n rest acc
      else
        let st := streamAt s key q
        let sp := seqSpace key q
        let absent : Bool := decide (s.per < st.fetchP) && (sfind st.pre x.pc).isNone
        let e : PreRes := { cyc := x.cyc, pc := x.pc, word := x.word, short := absent, res := x.res, absent := absent }
        match decode sp x.word with
        | .error _ => walkAhead s key q lim n rest (acc ++ [e])
        | .ok i =>
          let (pcs, wc) := nextPcs s key st x.cyc x.pc i
          let res := afterRes sp x.res x.cyc i
          let todo' := pcs.foldl
            (fun l p =>
              let w := lookWord s key q (x.cyc + wc) p
              let c := x.cyc + wc + idleNat w
              if c ≤ x.cyc ∨ lim < c then l else addNode l { cyc := c, pc := p, word := w, res := res }) rest
          walkAhead s key q lim n todo' (acc ++ [{ e with short := absent || shortAt s key q sp x.res i }])

/-- The first node of a stream's look-ahead: its next word. -/
def headNode (s : State) (key : Nat) (q : Seq) : Node :=
  let st := streamAt s key q
  if st.pos < 2 then { cyc := 0, pc := st.pc, word := fetchWord s key q, res := [] }
  else
    let w := lookWord s key q (st.last + st.waitc) st.pc
    { cyc := st.last + st.waitc + idleNat w, pc := st.pc, word := w, res := [] }

/-- The words of a stream that may issue below a cycle, as its look-ahead sees them: at most every word of the image in each of the
cycles from TIDE on. -/
def ahead (s : State) (key : Nat) (q : Seq) (lim : Nat) : List PreRes :=
  walkAhead s key q lim (264 * ((streamAt s key q).nword + 1)) [headNode s key q] []

/-- The number of the latest cycle that is pre-decoded now: TIDE + 64 from START on; before START, and before the resumption
of a stopped region, counted back from the period in which TIDE begins or goes on (R49, R367). -/
def preLimit (s : State) (key : Nat) : Option Nat :=
  let r := regOf s key
  let back (f t : Nat) : Option Nat := if f ≤ s.per + 64 ∧ s.per < f then some (t + (s.per + 64 - f)) else none
  match r.stage with
  | .running => if r.started then some (r.tide + 64) else r.startF.bind fun f => back f 0
  | .stubs | .resuming => r.resP.bind fun f => back f r.tide
  | _ => none

/-- Whether a timed stream pre-decodes now. -/
def preDue (s : State) (key : Nat) (q : Seq) : Bool :=
  let st := streamAt s key q
  let r := regOf s key
  decide (st.mode = .timed) && decide (1 ≤ st.pos) && !st.ended && !r.frozen && r.swait.isNone && s.pauseT.isNone
    && match preLimit s key with
      | some c => decide (st.preTo ≤ c)
      | none => false

/-- A stall request of a sequencer with a freeze cycle (R47). -/
def askStall (s : State) (key : Nat) (q : Seq) (z : Nat) : State :=
  let h := (cellAt s key).reg
  let r := regAt s h
  setReg s h { r with stalls := r.stalls ++ [{ z := z, key := key, seq := q }] }

/-- The registers that RET reads at its pre-decode. -/
def retReads (s : State) (key : Nat) (q : Seq) (l : List PreRes) : List (Nat × Nat × Word) :=
  l.filterMap fun x =>
    match decode (seqSpace key q) x.word with
    | .ok (.ret a) => some (x.cyc, x.pc, readA s key a.toNat)
    | _ => none

/-- The first of n byte offsets from the next word on whose word a stream has not fetched. -/
def fetchGap (st : Stream) (pc : Nat) : Nat → Nat
  | 0 => pc
  | n + 1 => if (sfind st.pre pc).isSome then fetchGap st (pc + 8) n else pc

/-- R129. A stream fetches one more word ahead of its issue, as its memory holds it now; of data with an uncorrectable error it keeps
no copy (R83). -/
def fetchAhead (s : State) (key : Nat) (q : Seq) : State :=
  let st := streamAt s key q
  let pc := fetchGap st st.pc st.pre.length
  let w : Word :=
    if isCore key then BitVec.ofNat 64 (ofBytes (((coreBody s key st).drop pc).take 8)) else tensWord s (ctxOf s key) st.img pc
  let there := if isCore key then decide (pc + 8 ≤ (coreBody s key st).length) else decide (pc < st.nword * 8)
  if there && !wordBad s key q pc then setStreamAt s key q { st with pre := sset st.pre pc w } else s

/-- R46, R49, R129. PREDECODE: in a timed stream the words that may issue 64 cycles from now are fetched and tested; a short
one asks for a stall (after START), or makes the frame boundary pass unused (before it). Where no pre-decode is due, any stream
may fetch one more word, at times of the environment's choice. -/
def execPredecode (key : Nat) (q : Seq) (s : State) : Out :=
  .next
    (if !preDue s key q then
       (if canIssue s key q && decide ((streamAt s key q).fetchP ≤ s.per) then fetchAhead s key q else s)
     else match preLimit s key with
       | none => s
       | some c =>
         let st := streamAt s key q
         let r := regOf s key
         let new := (ahead s key q c).filter fun x => decide (st.preTo ≤ x.cyc)
         let keep := st.resv.filter fun x => decide (x.cyc < st.preTo)
         let s1 := setStreamAt s key q { st with preTo := c + 1, resv := keep ++ new, retp := (st.retp.filter fun p => decide (r.tide ≤ p.1)) ++ retReads s key q new }
         if r.started then
           match new.filter (·.short) with
           | [] => s1
           | x :: _ => askStall s1 key q (Nat.max r.tide (x.cyc - 8))
         else s1)

/-- R49: at the frame boundary that the region has taken, a stream holds a word that was short. -/
def startShort (s : State) (h : Nat) : Option (Nat × Seq) :=
  (timedOf s (regAt s h)).find? fun p => ((cellAt s p.1).stream p.2).resv.any (·.short)

/-- R49: the boundary passes unused; the next one is taken and the test made again. -/
def passStart (s : State) (h f : Nat) : State :=
  let r := regAt s h
  let s := (timedOf s r).foldl
    (fun s p => setStreamAt s p.1 p.2 { (cellAt s p.1).stream p.2 with preTo := 0, resv := [] }) s
  setReg s h
    { r with startF := some (f + 256), stcyc := BitVec.ofNat 40 (Nat.min (r.stcyc.toNat + 256) (2 ^ 40 - 1)),
             stnum := if r.passT.isNone then (if r.stnum = 0xFFFFFF then r.stnum else r.stnum + 1) else r.stnum,
             passT := match r.passT with
               | some t => some t
               | none => some s.tick }

/-- A fence of a stream is complete, with the merge of a timed phase (R204, R207). -/
def fenceOver (s : State) (key : Nat) (q : Seq) (f : FenceT) : Bool :=
  fenceDone s key q f.scope && decide (f.merge ≤ (regOf s key).tide)

/-- A fence of a timed stream that is not complete 56 cycles before its next word (R207). -/
def fenceAsks (s : State) (key : Nat) (q : Seq) : Bool :=
  let r := regOf s key
  decide (r.stage = .running) && r.started && !r.frozen && (streamAt s key q).counted
    && (streamAt s key q).fences.any fun f => !f.asked && decide (f.next ≤ r.tide + 56)

/-- R207: the sequencer asks for a stall with Z = n. -/
def fenceStall (s : State) (key : Nat) (q : Seq) : State :=
  let r := regOf s key
  let st := streamAt s key q
  let l := st.fences.filter fun f => !f.asked && decide (f.next ≤ r.tide + 56)
  let s := setStreamAt s key q
    { st with fences := st.fences.map fun f => if f.next ≤ r.tide + 56 then { f with asked := true } else f }
  l.foldl (fun s f => askStall s key q (Nat.max r.tide f.next)) s

-- Stalls (R47, R48, R50) ---------------------------------------------------------------------------------------------------------

/-- R47. REGION_FREEZE. -/
def execRegionFreeze (h : Nat) (s : State) : Out :=
  .next
    (let r := regAt s h
     if freezeDue r then
       setReg s h { r with frozen := true, frzT := s.tick, relP := none,
                           stnum := if r.stnum = 0xFFFFFF then r.stnum else r.stnum + 1 }
     else s)

/-- A word found short at its pre-decode is short still (R48): it is not there, or it holds as little as it did. What is reserved
before it are the reads on the paths that still lead to it, or, of a word on an arm not taken (R401), those of its pre-decode. -/
def shortNow (s : State) (key : Nat) (q : Seq) (x : PreRes) : Bool :=
  (x.absent && decide (s.per < (streamAt s key q).fetchP))
    || match decode (seqSpace key q) x.word with
      | .ok i =>
        let now := ((ahead s key q x.cyc).find? fun y => decide (y.cyc = x.cyc ∧ y.pc = x.pc)).map (·.res)
        shortAt s key q (seqSpace key q) (now.getD x.res) i
      | .error _ => false

/-- The release test of a sequencer (R48): each word that was short holds now, on whatever path it lies (R401), and the
fences that asked are complete. -/
def releaseHolds (s : State) (key : Nat) (q : Seq) : Bool :=
  let st := streamAt s key q
  (st.fences.all fun f => !f.asked || fenceDone s key q f.scope) && st.resv.all fun x => !x.short || !shortNow s key q x

/-- The words of a stream that were short have held once. -/
def clearShort (s : State) (key : Nat) (q : Seq) : State :=
  let st := streamAt s key q
  setStreamAt s key q { st with resv := st.resv.map fun x => { x with short := false } }

/-- Whether a requesting sequencer sends its release now. -/
def releaseDue (s : State) (r : Region) : Option (Nat × Seq) :=
  if r.frozen && r.stopP.isNone && decide (r.stage = .running) then
    (r.stalls.find? fun x => releaseHolds s x.key x.seq).map fun x => (x.key, x.seq)
  else none

/-- R48. STALL_RELEASE: the last release fixes the period in which the region resumes. -/
def execStallRelease (key : Nat) (q : Seq) (s : State) : Out :=
  .next
    (let h := (cellAt s key).reg
     let r := regAt s h
     if r.frozen && r.stalls.any (fun x => decide (x.key = key ∧ x.seq = q)) && releaseHolds s key q then
       let left := r.stalls.filter fun x => !decide (x.key = key ∧ x.seq = q)
       setReg (clearShort s key q) h { r with stalls := left, relP := if left.isEmpty then some (s.per + 56) else r.relP }
     else s)

/-- Whether a frozen region resumes now. -/
def unfreezeDue (s : State) (r : Region) : Bool :=
  r.frozen && r.stopP.isNone && r.stalls.isEmpty
    && match r.relP with
      | some p => decide (p ≤ s.per)
      | none => false

/-- R48. REGION_STALL_RESUME. -/
def execRegionStallResume (h : Nat) (s : State) : Out :=
  .next (let r := regAt s h; if unfreezeDue s r then setReg s h { r with frozen := false, relP := none } else s)

/-- The sequencer that a stall time-out is raised for: the first that asks, or the first timed stream. -/
def stallWho (s : State) (r : Region) : Who :=
  match r.stalls, timedOf s r with
  | x :: _, _ => { key := x.key, seq := x.seq, pc := (streamAt s x.key x.seq).pc }
  | [], p :: _ => { key := p.1, seq := p.2, pc := (streamAt s p.1 p.2).pc }
  | [], [] => { key := (regCells r).headD 0, seq := .s, pc := 0 }

/-- Whether a stall has lasted longer than STALLTO (R50). -/
def stallLate (s : State) (r : Region) : Bool :=
  r.frozen && r.stopP.isNone && decide (r.stage = .running) && decide (r.frzT + r.stallto.toNat < s.tick)

/-- R50. STALL_TIMEOUT: the region halts at the frozen TIDE. -/
def execStallTimeout (h : Nat) (s : State) : Out :=
  .next
    (let r := regAt s h
     if stallLate s r then
       let s := takeFault s (stallWho s r) { code := cStall }
       let r := regAt s h
       if r.stopP.isSome then s else setReg s h { r with haltH := r.tide, stopP := some (s.per + 64) }
     else s)

/-- Whether the wait for START has lasted longer than STALLTO (R49). -/
def startLate (s : State) (r : Region) : Bool :=
  decide (r.stage = .running) && !r.started && r.haltD.isNone
    && match r.passT with
      | some t => decide (t + r.stallto.toNat < s.tick)
      | none => false

/-- R49. START_WAIT_TIMEOUT. -/
def execStartWaitTimeout (h : Nat) (s : State) : Out :=
  .next
    (let r := regAt s h
     if startLate s r then
       let w : Who := match startShort s h with
         | some p => { key := p.1, seq := p.2, pc := (streamAt s p.1 p.2).pc }
         | none => stallWho s r
       takeFault s w { code := cStall }
     else s)

end Sys2Proof.Machine
end

