-- ==== Sys2Proof/Machine/Record.lean ====
section
/-! DEFINITION. The bytes of a stop record in its save slot (R361, R362, R433): the header, and per cell a section of parts. Where
R362 gives a part's content and not its fields, the layout is the model's (log 84). -/

namespace Sys2Proof.Machine

-- Pieces ------------------------------------------------------------------------------------------------------------------

/-- A piece of a record: its length in bytes, and its fields that may differ from zero: offset, length, value. -/
structure Part where
  len  : Nat := 0
  flds : List (Nat × Nat × Nat) := []
deriving DecidableEq, Repr

/-- One piece after another. -/
def Part.join (p q : Part) : Part :=
  { len := p.len + q.len, flds := p.flds ++ q.flds.map fun x => (x.1 + p.len, x.2) }

/-- Pieces in a row. -/
def partRow (l : List Part) : Part := l.foldl Part.join {}

/-- A piece filled up to a multiple of n bytes. -/
def Part.pad (p : Part) (n : Nat) : Part := { p with len := (p.len + n - 1) / n * n }

/-- A piece cut to at most n bytes. -/
def Part.cut (p : Part) (n : Nat) : Part := { len := Nat.min p.len n, flds := p.flds.filter fun x => decide (x.1 + x.2.1 ≤ n) }

/-- A field of n bytes. -/
def fieldP (n v : Nat) : Part := { len := n, flds := [(0, n, v)] }

/-- A word. -/
def wordP (w : Word) : Part := fieldP 8 w.toNat

/-- Words. -/
def wordsP (l : List Word) : Part := partRow (l.map wordP)

/-- The entries of a file under ranges of keys (first key, count), w bytes each. -/
def fileP (l : List (Nat × Nat)) (w : Nat) (m : SMap Nat) : Part :=
  partRow (l.map fun r =>
    { len := r.2 * w,
      flds := m.filterMap fun x => if r.1 ≤ x.1 ∧ x.1 < r.1 + r.2 then some ((x.1 - r.1) * w, w, x.2) else none })

/-- The entries of a register file as numbers. -/
def natMap {w : Nat} (m : SMap (BitVec w)) : SMap Nat := m.map fun p => (p.1, p.2.toNat)

/-- The keys below n that a bit vector marks, one by one. -/
def marked (n : Nat) (live : Nat → Bool) : List (Nat × Nat) := ((List.range n).filter live).map fun k => (k, 1)

-- Parts of a cell section (R362, Table 3) -----------------------------------------------------------------------------------

/-- What of a cell's files a record keeps: everything, or what a slack-table entry marks (R374). -/
structure Keep where
  a    : List (Nat × Nat)
  v    : List (Nat × Nat)
  z    : List Nat
  bank : List Nat
  spad : List (Nat × Nat)
deriving DecidableEq, Repr

/-- Lanes of the vector registers in bytes, and their number (R17). -/
def vecShape (key : Nat) : Nat × Nat :=
  match classOf key with
  | 0 => (0, 0)
  | 1 => (256, 32)
  | _ => (64, 16)

/-- Everything of a cell (KIND 1, 2 and 4). -/
def keepAll (key : Nat) : Keep :=
  { a := [(0, 64)], v := [(0, (vecShape key).2)], z := if classOf key = 0 then List.range 8 else [],
    bank := if classOf key = 0 then List.range 32 else [], spad := [(0, spadSize key)] }

/-- What an entry marks (R374, Table 12); no entry marks nothing. -/
def keepSlack (key : Nat) (e : Option (List Word)) : Keep :=
  let w (i : Nat) : Word := (e.getD []).getD i 0
  { a := marked 64 fun n => decide (n ≠ 0) && (w 0).getLsbD n, v := marked (vecShape key).2 fun n => (w 1).getLsbD n,
    z := (List.range 8).filter fun t => decide (classOf key = 0) && (w 1).getLsbD (32 + t),
    bank := (List.range 32).filter fun b => decide (classOf key = 0) && (w 2).getLsbD b,
    spad := (List.range 4).map fun j => (bits (w (4 + j)) 18 0, bits (w (4 + j)) 38 19) }

/-- The stream part of a sequencer: 64 bytes. -/
def streamP (tide : Nat) (next : Nat) (st : Stream) : Part :=
  let b (x : Bool) : Nat := if x then 1 else 0
  let mode := match st.mode with
    | .none => 0
    | .timed => 1
    | .elastic => 2
  let join (i : Nat) : Nat := match st.joins[i]? with
    | some j => j.addr / 8 % 2 ^ 16 + (j.cycle - tide) % 2 ^ 16 * 2 ^ 16
    | none => 0
  partRow
    [wordP (fieldsW [(0, mode), (2, b st.ended), (3, b st.taskOnly), (4, b st.task), (5, b st.begun), (6, st.pos % 4),
                     (8, Nat.min st.joins.length 4), (16, st.base % 2 ^ 16), (32, st.fcode % 2 ^ 16), (48, b st.lp0.act), (49, b st.lp1.act),
                     (50, b st.lp2.act), (51, b st.lp3.act)]),
     fieldP 8 st.pc, fieldP 8 next, fieldP 8 st.waitc,
     fieldP 4 (join 0), fieldP 4 (join 1), fieldP 4 (join 2), fieldP 4 (join 3),
     fieldP 4 st.lp0.cnt, fieldP 4 st.lp1.cnt, fieldP 4 st.lp2.cnt, fieldP 4 st.lp3.cnt]

/-- The registers. -/
def regsP (key : Nat) (k : Keep) (full : Bool) (c : Cell) : Part :=
  partRow
    ([fileP k.a 8 (natMap c.a), fileP k.v (vecShape key).1 (natMap c.v)]
     ++ (k.z.map fun t => fileP [(128 * t, 128)] 512 (natMap c.mx.z))
     ++ [fileP [(1, 7)] 32 (natMap c.m), fileP [(0, 8)] 1 c.mx.pcur]
     ++ if full then [fileP [(0, 64)] 8 (natMap c.dl), fileP [(0, 64)] 8 (natMap c.dw), fileP [(0, 32)] 2 (natMap c.k)] else [])

/-- A queue: count, marker bits, entries; an entry of q8 to q15 has 256 bytes. -/
def queueP (n : Nat) (es : List QEntry) : Part :=
  partRow (fieldP 4 es.length :: fieldP 4 (packL 1 (es.map fun e => if e.mark then 1 else 0))
    :: es.map fun e => fieldP (if n < 8 then 8 else 256) e.data.toNat)

/-- The queues, FQ, and the FIFO that the cell consumes. -/
def queuesP (c : Cell) : Part :=
  partRow ((List.range 16).map (fun n => queueP n (sget [] c.q n))
    ++ [fieldP 8 c.mx.fq.length, wordsP c.mx.fq,
        fieldP 8 (c.fifo.ents.length + (if c.fifo.closing then 2 ^ 8 else 0) + if c.fifo.gated then 2 ^ 9 else 0),
        partRow (c.fifo.ents.map fun e => fieldP 64 e.data.toNat)])

/-- A bank-set header. -/
def bankWord (h : BankHdr) : Nat :=
  (fieldsW [(0, if h.valid then 1 else 0), (1, if h.sparse then 1 else 0), (4, h.bfmt), (8, h.sfmt), (12, h.p), (16, h.k), (28, h.nsc), (32, h.live),
            (40, h.nl)]).toNat

/-- The bank sets of an MX cell with their headers, and CEM. -/
def cimP (k : Keep) (c : Cell) : Part :=
  partRow (fieldP 8 c.mx.cem.toNat :: k.bank.map fun b =>
    partRow
      [fileP [(b, 1)] 8 (c.mx.hdrs.map fun p => (p.1, bankWord p.2)), fileP [(128 * b, 128)] 64 (natMap c.mx.planes),
       fileP [(8 * b, 8)] 256 (natMap c.mx.scale),
       fileP [(8 * b, 8)] 256 (c.mx.ebs.map fun p => (p.1, packL 16 (p.2.map fun i => (i % 2 ^ 16).toNat))),
       fileP [(8 * b, 8)] 16 (natMap c.mx.nanm),
       fileP [(b, 1)] 128 (c.mx.ridx.map fun p => (p.1, ofBytes p.2))])

/-- The entries of a phase or inbound buffer: each the word's index, its bytes, the writer and the phase, and the data. -/
def bufP (l : List PbEntry) : Part :=
  partRow (fieldP 8 l.length :: l.map fun e =>
    partRow [fieldP 4 (e.word % 2 ^ 16 + 2 ^ 16 * e.mask.toNat + 2 ^ 24 * (e.writer % 64) + 2 ^ 30 * (e.ep % 4)), wordP e.data])

/-- The file of a target, index, row, lane or offset, and the length of its value. -/
def Target.place (t : Target) : Nat × Nat × Nat × Nat :=
  match t with
  | .a r => (0, r, 0, 8)
  | .v r => (1, r, 0, 256)
  | .m r => (2, r, 0, 32)
  | .zent t row col => (3, t, 128 * row + col, 256)
  | .q n => (4, n, 0, 256)
  | .spad off => (5, off / 65536, off % 65536, 256)
  | .k n => (8, n, 0, 8)
  | .opEnd kd => (8, kd, 1, 8)
  | .fq => (9, 0, 0, 8)
  | .desc w d i => (10, d, i + if w then 64 else 0, 8)
  | .csr n => (11, n, 0, 8)
  | .cem => (11, 0, 1, 8)
  | .pcur mask => (12, mask, 0, 8)
  | .pcurStep t => (12, t, 1, 8)
  | .zclr mask => (12, mask, 2, 8)
  | .arrive own off _ _ _ => (13, own, off, 32)
  | .barLand own off _ => (14, own, off, 32)
  | .bwait own off => (15, own, off, 8)
  | .barw own off => (15, own, off, 8)
  | .merge => (15, 0, 0, 0)

/-- What a target of a barrier holds beside the latch's value, above bit 192 of it: count, or reply register, WAIT and landing. -/
def Target.extra (t : Target) (tide : Nat) : Nat :=
  match t with
  | .barLand _ _ n => n % 2 ^ 32
  | .arrive _ _ d land wait => d + (if wait then 2 ^ 8 else 0) + (land - tide) % 2 ^ 32 * 2 ^ 16
  | _ => 0

/-- The entry of a latch: its head, and its value in multiples of 16 bytes. A scratchpad store is one entry per 64 bytes. -/
def latchP (tide dist : Nat) (l : Latch) : Part :=
  let (f, ix, off, n) := l.tgt.place
  let head (off mask : Nat) : Part := fieldP 16 (f % 16 + ix % 2 ^ 12 * 2 ^ 4 + off % 2 ^ 16 * 2 ^ 16 + dist % 2 ^ 32 * 2 ^ 32 + mask % 2 ^ 64 * 2 ^ 64)
  match l.tgt with
  | .spad o =>
    partRow (((List.range 4).filter fun i => decide (l.mask.toNat / 2 ^ (64 * i) % 2 ^ 64 ≠ 0)).map fun i =>
      (head (o + 64 * i) (l.mask.toNat / 2 ^ (64 * i))).join (fieldP 64 (l.val.toNat / 2 ^ (512 * i) % 2 ^ 512)))
  | t => (head off 0).join ((fieldP n (l.val.toNat + t.extra tide * 2 ^ 192)).pad 16)

/-- The latches of a cell: results and stores, rows of A whose contribution has not landed, strip entries and MLOADs that have
not, with their data (R268), FIFO entries in transit, and pushes on their way to it. -/
def latchesP (tide per : Nat) (c : Cell) : Part :=
  partRow
    (c.lat.map (fun l => latchP tide (if l.per then l.due - per else l.due - tide) l)
     ++ c.mx.mmas.flatMap (fun m => m.rows.map fun x =>
          (fieldP 16 (3 + m.q * 2 ^ 4 + x.row * 2 ^ 16 + (x.land - if m.per then per else tide) % 2 ^ 32 * 2 ^ 32)).join
            (fieldP 512 (x.e0.toNat + x.e1.toNat * 2 ^ 2048)))
     ++ (c.mx.strips.filter fun x => decide (x.kind = 0)).flatMap (fun x =>
          ((List.range x.count).filter fun e => decide (x.next ≤ e)).map fun e =>
            (fieldP 16 (4 + x.q * 2 ^ 4 + e * 2 ^ 16 + (x.start + 2 + e - if x.per then per else tide) % 2 ^ 32 * 2 ^ 32)).join
              (fieldP 256 (x.ents.getD e 0).toNat))
     ++ c.mx.mloads.map (fun x =>
          (fieldP 16 (15 + (4 * x.t + x.bset) * 2 ^ 4 + 2 ^ 16 + (x.land - if x.per then per else tide) % 2 ^ 32 * 2 ^ 32)).join
            ((fieldP x.bytes.length (ofBytes x.bytes)).pad 16))
     ++ c.fifo.ents.filterMap (fun e => if per < e.due then some ((fieldP 16 (6 + (e.due - per) * 2 ^ 32)).join (fieldP 64 e.data.toNat)) else none)
     ++ c.inc.map fun x =>
          (fieldP 16 (7 + x.q * 2 ^ 4 + (if x.mark then 2 ^ 16 else 0) + (x.due - tide) % 2 ^ 32 * 2 ^ 32)).join
            (fieldP (if x.q < 8 then 16 else 256) x.data.toNat))

/-- The shadow list: word, operand values, landing TIDE, and what else its performing again takes. -/
def shadowP (c : Cell) : Part :=
  partRow (fieldP 8 c.shadow.length :: c.shadow.map fun e =>
    partRow
      [wordP e.word, wordP e.va, wordP e.vb, fieldP 256 e.vdata.toNat, fieldP 8 e.land, fieldP 8 e.tide, wordP e.taddr,
       wordP (fieldsW [(0, e.pc), (32, seqIx e.seq), (34, if e.primary then 1 else 0), (48, e.code)])])

/-- The number of an operation's kind: its place in the list of the kinds. -/
def OpKind.num (k : OpKind) : Nat :=
  [OpKind.rdq, .rds, .wrq, .wrs, .cpy, .gath, .scat, .pref, .tload, .tcopy, .tstore, .tfill, .gset, .gload, .grule, .grow, .gseg, .gscat, .walk,
    .sample, .bld, .bst, .bfill, .bcpy, .bamo, .bred, .coll, .input].idxOf k

/-- An engine operation with its position. -/
def opP (o : Op) : Part :=
  partRow
    [wordP (fieldsW [(0, o.kind.num), (8, seqIx o.seq), (10, if o.began then 1 else 0), (11, if o.units then 1 else 0), (16, o.q), (20, o.q2),
                     (24, o.kd), (32, o.dst), (40, if o.mark then 1 else 0), (48, o.ds.length + 16 * o.dt.length)]),
     fieldP 8 o.pc, fieldP 8 o.pos, fieldP 8 o.sub, fieldP 8 o.lane, wordP o.va, wordP o.vb, wordP o.bar, wordsP o.ds, wordsP o.dt,
     fieldP 8 o.acc.length, wordsP o.acc, fieldP (if o.hold then 256 else 0) o.ebuf.toNat]

/-- The commands of the matrix engine with their positions, and the cycles since each began (of an MLOAD, those to its landing). -/
def enginesP (tide per : Nat) (c : Cell) : Part :=
  let row (kind q pos n kd pc cyc : Nat) : Part :=
    partRow [wordP (fieldsW [(0, kind), (4, q % 16), (8, pos % 256), (16, n % 2 ^ 16), (32, kd % 32)]), fieldP 8 pc, fieldP 8 cyc]
  let now (p : Bool) : Nat := if p then per else tide
  partRow
    (fieldP 8 (c.mx.mmas.length + c.mx.mloads.length * 2 ^ 8 + c.mx.strips.length * 2 ^ 16)
     :: c.mx.mmas.map (fun m => row (if m.mmas then 1 else 0) m.q m.next m.m m.kd m.pc (now m.per - m.start))
     ++ c.mx.mloads.map (fun m => row 2 m.bset m.t 0 m.kd m.pc (m.land - now m.per))
     ++ c.mx.strips.map fun x => row (3 + x.kind) x.q x.next x.count x.kd x.pc (now x.per - x.start))

/-- The logical die of a record. -/
def nestDie (n : Nest) : Nat := bits (n.words.getD 4 0) 4 0

/-- The walker's position in the loop-nest records of a logical die. -/
def walkerP (r : Region) (die : Nat) : Part :=
  let l := r.nests.filter fun n => decide (nestDie n = die)
  partRow (fieldP 8 l.length :: l.map fun n =>
    partRow
      [fieldP 8 n.next, fieldP 8 (n.failn + if n.done then 2 ^ 63 else 0),
       fieldP 8 (match n.first with
         | some (o, st) => o + st * 2 ^ 48
         | none => 2 ^ 64 - 1)])

/-- Engines and tasks: outstanding operations, the task, and, in the first section of a die, the walker's position. -/
def workP (r : Region) (full lead : Bool) (tide per place : Nat) (ops : SMap Op) (c : Cell) : Part :=
  let l := ops.filter fun p => decide (p.2.key = place)
  partRow
    ((if full then
        [fieldP 8 l.length, partRow (l.map fun p => opP p.2), enginesP tide per c,
         match c.task with
         | some t => wordP (fieldsW [(0, 1), (1, if t.started then 1 else 0), (8, t.nest), (16, t.status), (32, t.inputs)])
         | none => fieldP 8 0,
         fieldP 8 ((c.task.map (·.ord)).getD 0)]
      else [])
     ++ if lead then [walkerP r (place / 256)] else [])

/-- The cell state. -/
def cellStateP (c : Cell) : Part :=
  let snap (x : Option (List Word)) : Part := match x with
    | some l => (fieldP 8 (l.length + 2 ^ 8)).join (wordsP l)
    | none => fieldP 8 0
  partRow
    [fieldP 8 c.csr.shwin, fieldP 8 c.csr.maxdepth.toNat, fieldP 8 c.csr.phconf.toNat, fieldP 8 c.csr.aperr.toNat, wordP c.csr.watcha,
     wordP c.csr.watchc, snap c.gs.gbh, fieldP 8 c.gs.batchB, fieldP 8 c.gs.xbase, snap c.gs.gwalk, wordP c.gs.gsbar, fieldP 8 c.gs.rvlim,
     fieldP 8 c.gs.rpos, fileP [(0, c.gs.rvlim)] 1 c.gs.depth, fileP [(0, c.gs.rvlim * c.gs.batchB)] 4 (natMap c.gs.rv)]

/-- The bound of a cell section by class (R434, Table 13). -/
def sectionBound (cls : Nat) : Nat := [1152, 352, 960, 128].getD cls 0 * 1024

/-- R362. The section of a cell: a head of 64 bytes with SELF, PSITE and the lengths of the parts, then the parts, each from a
64-byte boundary on. No section exceeds the bound of its class (R434): in the model's layout what would lie past it is left out (log
84). -/
def sectionP (key : Nat) (self : Word) (parts : List Part) : Part :=
  let ps := parts.map fun p => p.pad 64
  (partRow (((wordP self).join (partRow (wordP (psiteCsr key) :: ps.map fun p => fieldP 4 p.len))).pad 64 :: ps)).cut
    (sectionBound (classOf key))

-- Placing a record (R361, R433) -----------------------------------------------------------------------------------------------

/-- n bytes of a UINT8 tensor from an index on, as spans of its tiles: tile, offset, length. -/
def byteSpans (d : Desc) (i n : Nat) : List (Nat × Nat × Nat) :=
  if d.rank = 1 then
    let t := d.tileBytes
    ((List.range ((i + n - 1) / t + 1)).drop (i / t)).map fun k =>
      let lo := Nat.max i (k * t)
      (k, lo - k * t, Nat.min (i + n) ((k + 1) * t) - lo)
  else (List.range n).map fun j => let p := d.locate (i + j); (p.1, p.2 / 8, 1)

/-- Whether a span can be written: its tile is present, and no sector of it meets a memory error (R83, R433). -/
def spanGood (s : State) (ctx tens : Nat) (x : Nat × Nat × Nat) : Bool :=
  let e := entryOf s ctx tens x.1
  decide (entState e ≠ 0) && !baseFailed s e && (List.range (x.2.2 / 32 + 2)).all fun j =>
    let b := (x.2.1 / 32 + j) * 32
    decide (x.2.1 + x.2.2 ≤ b) || (decide (x.2.1 ≤ b) && decide (b + 32 ≤ x.2.1 + x.2.2)) || !sectorBad s e b

/-- A span is zeroed at its home. -/
def spanClear (s : State) (ctx tens : Nat) (x : Nat × Nat × Nat) : State :=
  let s := zeroFill s ctx tens x.1
  let b := physOf (entryOf s ctx tens x.1) x.2.1
  let s := migTouch s (frameOf (entryOf s ctx tens x.1)) x.2.1 x.2.2
  healMem { s with mem := s.mem.filter fun p => !decide (b ≤ p.1 ∧ p.1 < b + x.2.2) } b x.2.2

/-- Writes a record's bytes from a tensor address on, where they can be written; the answer says whether they were. -/
def recWrite (s : State) (ctx : Nat) (a : Word) (p : Part) : State × Bool :=
  match descFor s ctx (tidOf a) with
  | none => (s, false)
  | some d =>
    let l := byteSpans d (idxOf a) p.len
    if fmtBits d.fmt = 8 ∧ idxOf a + p.len ≤ d.count ∧ l.all (spanGood s ctx (tidOf a)) then
      let s := l.foldl (fun s x => spanClear s ctx (tidOf a) x) s
      (p.flds.foldl (fun s x => hostWrite s ctx (taddr (tidOf a) (idxOf a + x.1)) (toBytes x.2.1 (x.2.2 % 2 ^ (8 * x.2.1)))) s, true)
    else (s, false)

end Sys2Proof.Machine
end

