-- ==== Sys2Proof/Machine/Stop.lean ====
section
/-! DEFINITION. The stop of a region and its records (R356 to R364, R433), the end of a region (R67, R130, R424), yields and
saves (R371 to R377, R493), and the loss of sites (R27, R454). -/

namespace Sys2Proof.Machine

-- Work in flight at a stop (R359, R360) ----------------------------------------------------------------------------------

/-- The period of the stop that a region's record shows. -/
def recPer (s : State) (r : Region) : Nat :=
  match sfind s.records (slotKey r.ctx r.slot) with
  | some x => x.per
  | none => s.per

/-- The period from which the distances of a region's elastic work count: that of its stop, while it is stopped. -/
def stopPer (s : State) (r : Region) : Nat :=
  match r.stage with
  | .stubs | .resuming => recPer s r
  | _ => s.per

/-- An answer that is still to land becomes a latch without remaining distance (R359). -/
def latchAnswer (s : State) (id : Nat) (r : Req) : State :=
  let s := dropReq s id
  let put (s : State) (d : Nat) (v : Word) : State :=
    if d = 0 then s else addLatch s r.key { due := stopPer s (regOf s r.key), per := true, tgt := .a d, val := v.setWidth 2048, seq := r.seq, pc := r.pc }
  let s := if r.peer then reqLand s r else s
  if r.reads && decide (r.op = 0) then
    let s := put s r.dst (replyValue r)
    if r.kind = .cas then put s r.flag (BitVec.ofNat 64 (r.value / 2 ^ 64)) else s
  else s

/-- A request goes on by one step towards its home, or its answer is kept. -/
def settleOne (s : State) (id : Nat) : State :=
  match sfind s.reqs id with
  | none => s
  | some r => if r.applied then latchAnswer s id r else applyReq s id r

/-- The requests of a region. -/
def regReqs (s : State) (h : Nat) : List Nat :=
  (s.reqs.filter fun p => !isCore p.2.key && decide ((cellAt s p.2.key).reg = h)).map (·.1)

/-- An access of another region that holds one of a region goes on to its home; its answer comes to its own cell in its time. -/
def settleOther (s : State) (id : Nat) : State :=
  match sfind s.reqs id with
  | none => s
  | some r => if r.applied then s else applyReq s id r

/-- R130, R360. The device-memory accesses of a region are made visible; what others wait to write before them goes first. -/
def settle (s : State) (h : Nat) : State :=
  (List.range (3 * s.reqs.length + 1)).foldl
    (fun s _ =>
      let s := (regReqs s h).foldl settleOne s
      if (regReqs s h).isEmpty then s
      else (s.reqs.filter fun p => isCore p.2.key || decide ((cellAt s p.2.key).reg ≠ h)).foldl (fun s p => settleOther s p.1) s) s

/-- The first taken row of a command that has landed by a stop. -/
def rowStop (s : State) (key : Nat) (r : MmaRun) : Bool :=
  match r.rows with
  | x :: _ => !r.per && decide (x.land ≤ (regOf s key).tide)
  | [] => false

/-- The landings of a cell by the TIDE of a stop, in class and issue order (R359). -/
def landStop (s : State) (key : Nat) : Nat → State
  | 0 => s
  | n + 1 =>
    let row := (cellAt s key).mx.mmas.find? (rowStop s key)
    match nextLatch s key true, row with
    | none, none => s
    | some l, none => landStop (applyLatch s key l) key n
    | none, some _ => landStop (mmaLand s key (rowStop s key)) key n
    | some l, some r =>
      if l.cls = 0 ∨ (l.cls = 1 ∧ l.ord < r.ord) then landStop (applyLatch s key l) key n
      else landStop (mmaLand s key (rowStop s key)) key n

/-- Landings of one class by the TIDE of a stop. -/
def landCls (s : State) (h cls : Nat) : State :=
  (regCells (regAt s h)).foldl (fun s k => landAll s k cls true (cellAt s k).lat.length) s

/-- Everything that lands by the TIDE of a stop has landed (R359). DESIGN CHOICE, log 74: an update of a tile that lands at H has
taken effect for a read at H after the resumption, which R261 gives the updates before H alone. -/
def landAllStop (s : State) (h : Nat) : State :=
  let s := landCls s h 0
  (regCells (regAt s h)).foldl
    (fun s k => landStop s k ((cellAt s k).lat.length + 256 * (cellAt s k).mx.mmas.length + 8)) s

-- Faults in order (R357, R369) ------------------------------------------------------------------------------------------------

/-- The first fault of a list (R357). -/
def firstFault (l : List FaultRec) : Option FaultRec :=
  l.foldl
    (fun b x => match b with
      | none => some x
      | some y => if faultBefore x y then some x else some y) none

/-- The faults of one cell. -/
def cellFaults (s : State) (r : Region) (key : Nat) : List FaultRec :=
  r.faults.filter fun f => decide (f.ldie = (cellAt s key).ldie ∧ f.row = rowOf key ∧ f.col = colOf key)

/-- TRAPC, TRAPD, TRAPPC and TRAPA of every cell describe its part in the halt (R369). -/
def setTraps (s : State) (h : Nat) : State :=
  let r := regAt s h
  (regCells r).foldl
    (fun s k =>
      let c := cellAt s k
      let sh := if c.shadow.isEmpty then 0 else 1
      let csr := match firstFault (cellFaults s r k) with
        | none => { c.csr with trapc := 0, trapd := 0, trappc := 0, trapa := 0 }
        | some f =>
          { c.csr with trapc := fieldsW [(0, f.code), (16, f.arg.toNat), (32, seqIx f.seq), (34, sh)],
                       trapd := BitVec.ofNat 64 f.d, trappc := BitVec.ofNat 64 f.pc, trapa := f.taddr }
      setCell s k { c with csr := csr }) s

/-- The recoverable events (R363). -/
def recoverable (code : Nat) : Bool := decide (code = cTrap ∨ code = cDebug ∨ code = cWatch)

-- Records (R361, R362, R433) -----------------------------------------------------------------------------------------------------

/-- A cell's place in a record: logical die, row, column. -/
def cellPlace (s : State) (key : Nat) : Nat := (cellAt s key).ldie * 256 + rowOf key * 16 + colOf key

/-- The cell at a place of a region. -/
def placeKey (r : Region) (p : Nat) : Nat := keyOn (r.dies.getD (p / 256) {}) (p / 16 % 16) (p % 16)

/-- The barrier that a stream waits for, with its owner named otherwise. -/
def Stream.mapKeys (st : Stream) (f : Nat → Nat) : Stream := { st with bw := st.bw.map fun x => (f x.1, x.2) }

/-- The owner of the barrier that a latch acts on, named otherwise. -/
def Target.mapKeys (t : Target) (f : Nat → Nat) : Target :=
  match t with
  | .arrive own o d l w => .arrive (f own) o d l w
  | .barLand own o n => .barLand (f own) o n
  | .bwait own o => .bwait (f own) o
  | .barw own o => .barw (f own) o
  | x => x

/-- A cell with the cells that its work in flight names called otherwise: a record names them by their places in the plan,
since it may resume on other dies (R376). -/
def Cell.mapKeys (c : Cell) (f : Nat → Nat) : Cell :=
  { c with lat := c.lat.map (fun l => { l with tgt := l.tgt.mapKeys f }), rmem := c.rmem.map (fun p => (p.1, p.2.map f)), ss := c.ss.mapKeys f, sl := c.sl.mapKeys f,
           sc := c.sc.mapKeys f, sw := c.sw.mapKeys f }

/-- The cells of a region as a record holds them: those that its plan lists (R361, R383). -/
def snapCells (s : State) (r : Region) : SMap Cell :=
  ((regCells r).filter fun k => r.listed.contains (cellPlace s k)).foldl
    (fun m k => sset m (cellPlace s k) { ((cellAt s k).unstub.mapKeys (cellPlace s)) with reg := 0 }) []

/-- The engine operations of a region as a record holds them. -/
def snapOps (s : State) (h : Nat) : SMap Op :=
  (s.ops.filter fun p => decide (p.2.reg = h)).map fun p => (p.1, { p.2 with key := cellPlace s p.2.key, early := [] })

/-- The header of a record of n bytes (R361, Table 2). -/
def recHeader (r : StopRec) (n : Nat) : List Word :=
  let b (x : Bool) : Nat := if x then 1 else 0
  [fieldsW [(0, r.kind), (16, r.code), (32, Nat.min r.nsec 0xFFFF), (48, r.stub)], BitVec.ofNat 64 r.dcyc, BitVec.ofNat 64 r.hcyc,
   fieldsW [(0, r.ldie), (5, r.row), (9, r.col), (13, r.seq), (15, b r.engn), (16, r.applied), (32, r.slix)],
   BitVec.ofNat 64 r.pc, r.taddr, fieldsW [(0, r.cells.length), (32, n / 64)], 0]

/-- The slack index at which a cell's first held stream stands. -/
def heldAt (c : Cell) : Option Nat := seqs.findSome? fun q => (c.stream q).held

/-- The slack index that chooses a cell's saved state (R374, R493). -/
def cellSlix (r : Region) (c : Cell) : Option Nat :=
  if seqs.any fun q => decide ((c.stream q).mode = .timed) then some r.lastix.toNat else heldAt c

/-- The slack-table entry that a cell is saved and rebuilt by. -/
def cellEntry (r : Region) (c : Cell) : Option (List Word) := (cellSlix r c).bind fun i => c.slack[i]?

/-- The parts of a cell's section (R362, R374). -/
def cellParts (s : State) (r : Region) (x : StopRec) (place : Nat) (c : Cell) : List Part :=
  let key := placeKey r place
  let full := decide (x.kind ≠ 3)
  let k := if full then keepAll key else keepSlack key (cellEntry x.reg c)
  let next (q : Seq) : Nat :=
    let st := c.stream q
    if st.mode = .timed ∧ !st.ended then (if st.pos = 2 then nextIssue st (fetchWord s key q) else 0) else 0
  let part (b : Bool) (p : Part) : Part := if b then p else {}
  [partRow (seqs.map fun q => streamP x.hcyc (next q) (c.stream q)), regsP key k full c, part full (queuesP c),
   part (classOf key = 0) (cimP k c), fileP k.spad 1 (natMap c.spad), part full ((bufP c.pwb).join (bufP c.inb)),
   part full (latchesP x.hcyc x.per c), part full (shadowP c),
   workP r full (decide (x.cells.all fun p => p.1 / 256 ≠ place / 256 ∨ place ≤ p.1)) x.hcyc x.per place x.ops c, cellStateP c]

/-- A record as it stands in its slot: the header, then one section per cell in the order of R357. -/
def recPart (s : State) (r : Region) (x : StopRec) : Part :=
  let secs := partRow (x.cells.map fun p => sectionP (placeKey r p.1) (selfCsr s (placeKey r p.1)) (cellParts s r x p.1 p.2))
  (wordsP (recHeader x (64 + secs.len))).join secs

/-- The tensor address of a region's save slot. -/
def slotAddr (s : State) (r : Region) : Word :=
  let (t, lg, _) := saveArea s r.ctx
  taddr t (r.slot * 2 ^ lg)

/-- Writes a record into its slot (R433); the answer says whether it stands. -/
def putRecord (s : State) (h : Nat) (rec : StopRec) : State × Bool :=
  let r := regAt s h
  let (s, ok) := recWrite s r.ctx (slotAddr s r) (recPart s r rec)
  ({ s with records := if ok then sset s.records (slotKey r.ctx r.slot) rec else sdel s.records (slotKey r.ctx r.slot) }, ok)

/-- A record of a region as it stands, with its primary. -/
def recOf (s : State) (h kind code stub slix : Nat) (f : Option FaultRec) (nsec d : Nat) : StopRec :=
  let r := regAt s h
  let p : FaultRec := f.getD { d := d, ldie := 0, row := 0, col := 0, seq := .s, engn := false, code := code, applied := 0, pc := 0,
                               taddr := 0, arg := 0, shadow := false, ord := 0 }
  { kind := kind, code := code, nsec := nsec, stub := stub, dcyc := d, hcyc := r.tide, ldie := p.ldie, row := p.row, col := p.col,
    seq := seqIx p.seq, engn := p.engn, applied := p.applied, slix := slix, pc := p.pc, taddr := p.taddr, per := stopPer s r, reg := r,
    cells := snapCells s r, ops := snapOps s h }

-- Ends of a stop (R363, R376, R424, R425, R431, R432, R443) ------------------------------------------------------------------------

/-- The fields of a region that belong to one halt or yield. -/
def Region.calm (r : Region) : Region :=
  { r with haltD := none, haltH := 0, stopP := none, faults := [], stubCode := 0, forced := false, ypend := false, swait := none,
           yldFrz := false, frozen := false, stalls := [], relP := none, passT := none, resP := none, startF := none, agree := none }

/-- A KIND 1 record has been written, or lost: the commands complete with HALTED, the cells are freed, the leases stay. -/
def haltEnd (s : State) (h code : Nat) (ok : Bool) : State :=
  let fc := if ok then code else cMemErr
  let r := regAt s h
  let s := freeCells s h
  let s := setReg s h { (regAt s h).calm with stage := .halted, cmd := none, older := [], yieldCmd := none, park := false, resume := 1 }
  let s := completeRun s r stHalted fc 0 r.slot
  let s := completeOpt s r.yieldCmd stHalted h fc 0 r.slot
  postEvent s harbourCore 3 h fc 0

/-- A KIND 3 or KIND 4 record has been written, or the one that was being restored stands: the leases and cells are released;
the region is parked by a YIELD, or waits for the scheduler (R431, R432, R443). -/
def yieldEnd (s : State) (h kind : Nat) (ok written : Bool) : State :=
  if !ok then haltEnd s h cMemErr false
  else
    let r := regAt s h
    let s := freeCells (releaseLeases s h) h
    let q := { (regAt s h).calm with
      resume := kind, ep := r.prio, age := 0, waitT := s.tick, ageT := s.tick, yieldCmd := none, rfwait := false, askT := none,
      saves := if kind = 3 ∧ written ∧ r.saves ≠ 0xFFFFFFFF then r.saves + 1 else r.saves,
      stage := if r.yieldCmd.isSome ∨ r.park then .parked else .leases, unbound := !(r.yieldCmd.isSome || r.park), park := false }
    let s := setReg s h q
    let s := completeOpt s r.yieldCmd stOk h 0 0 r.slot
    postEvent s harbourCore 5 h kind 0

/-- A cell's trap stub starts (R365). -/
def startStub (s : State) (k : Nat) : State :=
  let c := cellAt s k
  match c.stub with
  | none => s
  | some off =>
    setCell s k
      { c with kept := some c.ss,
               ss := { mode := .elastic, begun := true, img := c.ss.img, nword := c.ss.nword, pre := c.ss.pre, pc := 8 * off,
                       last := s.per, stub := .trap } }

/-- The cells that raised a recoverable event, in the order of R357. -/
def eventCells (s : State) (r : Region) : List Nat :=
  (regCells r).filter fun k => (cellFaults s r k).any fun f => recoverable f.code

/-- Whether a halt is recoverable (R363). -/
def haltRecoverable (s : State) (r : Region) (p : FaultRec) : Bool :=
  recoverable p.code && r.swait.isNone && !r.forced
    && r.faults.all (fun f => recoverable f.code || f.shadow)
    && (eventCells s r).all fun k => (cellAt s k).stub.isSome

/-- A DEBUG event shows the S stream's next word at the stop (R361, R385). -/
def debugPcs (s : State) (h : Nat) : State :=
  let r := regAt s h
  setReg s h
    { r with faults := r.faults.map fun f =>
        if f.code = cDebug then { f with pc := (cellAt s (placeKey r (f.ldie * 256 + f.row * 16 + f.col))).ss.pc } else f }

/-- Of the accesses detected at D only that of the primary fault stays in a shadow list (R357, R358). -/
def primaryOnly (s : State) (h : Nat) : State :=
  let r := regAt s h
  let p := firstFault r.faults
  let mine (k : Nat) (e : Shadow) : Bool := match p with
    | some f => decide (k = placeKey r (f.ldie * 256 + f.row * 16 + f.col) ∧ e.seq = f.seq ∧ e.pc = f.pc ∧ e.tide = f.d)
    | none => false
  (regCells r).foldl
    (fun s k => let c := cellAt s k; setCell s k { c with shadow := c.shadow.filter fun e => !e.primary || mine k e }) s

/-- A fault detected at H or after is none of the halt's (R357); where H is D, as before START, every fault up to the stop is. -/
def inSkid (s : State) (h : Nat) : State :=
  let r := regAt s h
  if r.stopP.isSome then s else setReg s h { r with faults := r.faults.filter fun f => decide (f.d < r.haltH) }

/-- Faults of the accesses that the stop has made visible were detected before it (log 74). -/
def atStop (s : State) (h : Nat) : State :=
  let r := regAt s h
  if r.stopP.isSome then s
  else setReg s h { r with faults := r.faults.map fun f => { f with d := Nat.min f.d (r.haltH - 1) } }

/-- The work of a region stops: landings, accesses, rounds (R357, R359, R360, R475), and what each cell shows of the halt. -/
def stopWork (s : State) (h : Nat) : State :=
  setTraps (primaryOnly (debugPcs (haltRounds (atStop (settle (inSkid (landAllStop s h) h) h) h) h) h) h) h

/-- R356 to R363, R376. The stop of a region whose halt line is raised: END, KIND 4, KIND 1 or KIND 2 with its stubs. -/
def stopRegion (s : State) (h : Nat) : State :=
  let s := stopWork s h
  let r := regAt s h
  if r.ending then endRegion s h
  else
    let d := r.haltD.getD r.tide
    let other := r.faults.filter fun f => !f.shadow
    if r.forced && other.isEmpty then
      let (s, ok) := putRecord s h (recOf s h 4 0 0 0 none r.faults.length d)
      yieldEnd s h 4 ok true
    else
      match firstFault (if r.forced then other else r.faults) with
      | none =>
        let (s, ok) := putRecord s h (recOf s h 1 0 0 0 none 0 d)
        haltEnd s h 0 ok
      | some p =>
        let n := r.faults.length - 1
        if haltRecoverable s r p then
          let (s, ok) := putRecord s h (recOf s h 2 p.code 0 0 (some p) n p.d)
          if !ok then haltEnd s h p.code false
          else
            let s := (eventCells s r).foldl startStub s
            setReg s h { regAt s h with stage := .stubs, stopP := none, frozen := false, stalls := [], relP := none }
        else
          let (s, ok) := putRecord s h (recOf s h 1 p.code 0 0 (some p) n p.d)
          haltEnd s h p.code ok

/-- The recoverable events that a KIND 4 record keeps (R377). -/
def keptEvents (rec : StopRec) : List FaultRec := rec.reg.faults.filter fun f => recoverable f.code

/-- The record of a halt whose stub faulted: KIND 1 with the stub's code, of several that of the first in the order of R357. Where the stub ran for an event that a KIND 4 record
had kept (R377), the event is its primary. -/
def stubRec (s : State) (r : Region) (o : StopRec) : StopRec :=
  let code := ((firstFault (r.faults.filter fun f => !o.reg.faults.contains f)).map (·.code)).getD r.stubCode
  let x := { o with kind := 1, stub := code, cells := snapCells s r, ops := snapOps s r.handle }
  match firstFault (if o.kind = 4 then keptEvents o else []) with
  | none => x
  | some p =>
    { x with code := p.code, nsec := (keptEvents o).length - 1, dcyc := p.d, ldie := p.ldie, row := p.row, col := p.col, seq := seqIx p.seq,
             engn := p.engn, pc := p.pc, taddr := p.taddr }

/-- A fault in a trap stub makes the halt KIND 1 with its code in STUB (R365); one in a rebuild stub is also the primary
(R375). -/
def stopStub (s : State) (h : Nat) : State :=
  let r := regAt s h
  let old := sget none ((s.records.map fun p => (p.1, some p.2))) (slotKey r.ctx r.slot)
  if r.stage = .stubs then
    match old with
    | some o =>
      let x := stubRec s r o
      let (s, ok) := putRecord s h x
      haltEnd s h x.code ok
    | none => haltEnd s h cMemErr false
  else
    let p := firstFault (r.faults.filter fun f => decide (f.d = r.tide))
    let code := (p.map (·.code)).getD r.stubCode
    let (s, ok) := putRecord s h (recOf s h 1 code code 0 p (r.faults.length - 1) r.tide)
    haltEnd s h code ok

/-- Whether a region stops now. -/
def stopDue (s : State) (r : Region) : Bool :=
  match r.stage with
  | .running =>
    r.haltD.isSome && match r.stopP with
      | some p => decide (p ≤ s.per)
      | none => decide (r.haltH ≤ r.tide)
  | .stubs | .rebuild => (decide (r.stubCode ≠ 0) && r.stopP.all fun p => decide (p ≤ s.per)) || r.ending
  | .resuming => r.haltD.isSome
  | _ => false

/-- R356. REGION_STOP. -/
def execRegionStop (h : Nat) (s : State) : Out :=
  .next
    (let r := regAt s h
     if !stopDue s r then s
     else match r.stage with
       | .running | .resuming => stopRegion s h
       | _ => if r.ending then endRegion (settle s h) h else stopStub (settle s h) h)

-- Requests to a region (R364, R373, R377) --------------------------------------------------------------------------------------------

/-- Whether a region takes an event now, and does not wait at a slack point or run stubs (R364). -/
def Region.runs (r : Region) : Bool := decide (r.stage = .running) && r.swait.isNone

/-- R364. DEBUG_REQUEST reaches the cell's die: the command completes, and the event is raised there, or held until the region
next runs. -/
def execDebugRequest (h ldie row col : Nat) (s : State) : Out :=
  .next
    (let r := regAt s h
     if !r.onDies then s
     else match r.dies[ldie]? with
       | none => s
       | some d =>
         let k := keyOn d row col
         if !(regCells r).contains k then s
         else
           let (mine, rest) := r.debugs.partition fun x => decide (x.2 = (ldie, row, col))
           let s := setReg s h { r with debugs := mine.drop 1 ++ rest }
           let s := match mine with
             | x :: _ => complete s x.1 stOk h 0 0 (lastSlot s r)
             | [] => s
           if r.runs then takeFault s { key := k, seq := .s, pc := (cellAt s k).ss.pc } { code := cDebug }
           else setReg s h { regAt s h with dbgHeld := r.dbgHeld ++ [(ldie, row, col)] })

/-- R364. The debug requests that were held are raised once the region runs. -/
def debugHeld (s : State) (h : Nat) : State :=
  let r := regAt s h
  r.dbgHeld.foldl
    (fun s x =>
      let k := keyOn (r.dies.getD x.1 {}) x.2.1 x.2.2
      takeFault s { key := k, seq := .s, pc := (cellAt s k).ss.pc } { code := cDebug })
    (setReg s h { r with dbgHeld := [] })

/-- A yield request has reached a region (R373, R493). -/
def askYield (s : State) (h : Nat) : State :=
  let r := regAt s h
  match r.stage with
  | .running | .stubs | .rebuild | .resuming | .planes =>
    if r.ypend then s
    else
      setReg s h { r with ypend := true, yldTide := r.tide, yldT := s.tick, yldFrz := r.frozen,
                          swait := if r.stage = .running ∧ !hasTimed s r ∧ r.started ∧ r.haltD.isNone then some r.tide else r.swait }
  | _ => s

/-- R373. YIELD_REQUEST. -/
def execYieldRequest (h : Nat) (s : State) : Out := .next (askYield s h)

/-- No elastic command of the matrix engine is under way, and no elastic result is in flight (R268, R373). -/
def Cell.still (c : Cell) : Bool :=
  c.mx.mmas.all (fun m => !m.per || !m.active) && c.mx.mloads.all (fun m => !m.per) && c.mx.strips.all (fun x => !x.per)
    && c.lat.all fun l => !l.per

/-- Step 3 of R373: tasks have ended, elastic streams are held or have ended, operations have completed. -/
def yieldQuiet (s : State) (h : Nat) : Bool :=
  let r := regAt s h
  !(s.ops.any fun p => decide (p.2.reg = h)) && (regReqs s h).isEmpty
    && (regCells r).all fun k =>
      let c := cellAt s k
      c.task.isNone && c.phase.isNone && c.still && seqs.all fun q =>
        let st := c.stream q
        decide (st.mode ≠ .elastic) || st.ended || st.held.isSome || st.taskOnly || !st.begun

/-- Step 4 of R373: a cell that is not empty. -/
def yieldBad (s : State) (k : Nat) : Bool :=
  let c := cellAt s k
  c.q.any (fun p => !p.2.isEmpty) || !c.fifo.ents.isEmpty || !c.mx.fq.isEmpty || c.k.any (fun p => decide (p.2 ≠ 0))

/-- R130. The phase and inbound buffers of a region merge, as one phase spanning it. -/
def mergeRegion (s : State) (h : Nat) : State :=
  let l := regCells (regAt s h)
  let ep (k : Nat) : Nat := (cellAt s k).ep
  l.foldl (fun t k => dropSects (mergeOne t l ep k) k) s

/-- Zeros what a bit list does not mark. -/
def liveMap {α : Type} (live : Nat → Bool) (m : SMap α) : SMap α := m.filter fun p => live p.1

/-- R374. What a KIND 3 record keeps of a cell, by its slack-table entry. -/
def slackCell (c : Cell) (e : Option (List Word)) : Cell :=
  let w (i : Nat) : Word := match e with
    | some l => l.getD i 0
    | none => 0
  let rng (j : Nat) : Nat × Nat := (bits (w (4 + j)) 18 0, bits (w (4 + j)) 38 19)
  let inRng (o : Nat) : Bool := (List.range 4).any fun j => decide ((rng j).1 ≤ o ∧ o < (rng j).1 + (rng j).2)
  let bank (x : Nat) : Bool := (w 2).getLsbD x
  { ({} : Cell) with
    ctx := c.ctx, ldie := c.ldie, feeds := c.feeds, chans := c.chans, slack := c.slack, stub := c.stub, rnds := c.rnds, rmem := c.rmem,
    m := c.m, a := liveMap (fun n => (w 0).getLsbD n) c.a, v := liveMap (fun n => n < 32 && (w 1).getLsbD n) c.v,
    spad := liveMap inRng c.spad,
    gs := { c.gs with rv := liveMap (fun n => decide (n < c.gs.rvlim * c.gs.batchB)) c.gs.rv },
    mx := { ({} : MxState) with
      z := liveMap (fun n => (w 1).getLsbD (32 + n / 128)) c.mx.z, pcur := liveMap (fun n => (w 1).getLsbD (32 + n)) c.mx.pcur,
      cem := c.mx.cem, hdrs := liveMap bank c.mx.hdrs,
      planes := liveMap (fun n => bank (n / 128)) c.mx.planes, scale := liveMap (fun n => bank (n / 8)) c.mx.scale,
      ebs := liveMap (fun n => bank (n / 8)) c.mx.ebs, nanm := liveMap (fun n => bank (n / 8)) c.mx.nanm,
      ridx := liveMap bank c.mx.ridx },
    csr := { c.csr with trapc := 0, trapd := 0, trappc := 0, trapa := 0, shwinNew := none },
    ss := c.ss, sl := c.sl, sc := c.sc, sw := c.sw }

/-- Steps 4 to 6 of R373: what lands at t has landed; then the checks, the merge and the KIND 3 record. -/
def saveYield (s : State) (h t slix : Nat) : State :=
  let s := landAllStop s h
  let r := regAt s h
  match (regCells r).filter (yieldBad s) with
  | k :: ks => (k :: ks).foldl (fun s k => takeFault s { key := k, seq := .s, pc := (cellAt s k).ss.pc } { code := cSlackState }) s
  | [] =>
    let s := mergeRegion (settle s h) h
    let r := regAt s h
    let rec0 := recOf s h 3 0 0 slix none 0 t
    let rec1 := { rec0 with hcyc := t, cells := rec0.cells.map fun p => (p.1, slackCell p.2 (cellEntry r p.2)), ops := [] }
    let (s, ok) := putRecord s h rec1
    yieldEnd s h 3 ok true

/-- Whether the wait of R373 is over at a slack point. -/
def slackSaveDue (s : State) (r : Region) : Bool :=
  decide (r.stage = .running) && r.swait.isSome && r.haltD.isNone && hasTimed s r && yieldQuiet s r.handle

/-- R373. SLACK_SAVE. -/
def execSlackSave (h : Nat) (s : State) : Out :=
  .next (let r := regAt s h; if slackSaveDue s r then saveYield s h r.tide r.lastix.toNat else s)

/-- The first held stream's SLACK, in the order of R357 (R493). -/
def firstHeld (s : State) (r : Region) : Nat := ((regCells r).findSome? fun k => heldAt (cellAt s k)).getD 0xFFFF

/-- Whether a yield of a region without timed streams can be saved (R493). -/
def elasticSaveDue (s : State) (r : Region) : Bool :=
  decide (r.stage = .running) && r.swait.isSome && r.haltD.isNone && !hasTimed s r && yieldQuiet s r.handle

/-- R493. ELASTIC_YIELD_SAVE. -/
def execElasticYieldSave (h : Nat) (s : State) : Out :=
  .next (let r := regAt s h; if elasticSaveDue s r then saveYield s h r.tide (firstHeld s r) else s)

/-- Whether SLACKDIST has passed its limit (R372); in a skid that is one more fault of its TIDE. -/
def slackFar (s : State) (r : Region) : Bool :=
  decide (r.stage = .running) && r.started && hasTimed s r
    && (if r.haltD.isNone then decide (r.maxslack.toNat < r.slackd.toNat)
        else decide (r.slackd.toNat = r.maxslack.toNat + 1) && decide (r.tide < r.haltH)
          && r.faults.all fun f => decide (f.code ≠ cSlackDist ∨ f.d ≠ r.tide))

/-- R372. SLACK_DISTANCE, raised for the first timed stream. -/
def execSlackDistance (h : Nat) (s : State) : Out :=
  .next
    (let r := regAt s h
     if slackFar s r then
       let w : Who := match timedOf s r with
         | p :: _ => { key := p.1, seq := p.2, pc := (streamAt s p.1 p.2).pc }
         | [] => { key := (regCells r).headD 0, seq := .s, pc := 0 }
       takeFault s w { code := cSlackDist }
     else s)

/-- Whether YIELDDL has run out (R376). -/
def yieldLate (s : State) (r : Region) : Bool :=
  r.ypend && !r.forced && decide (r.yldT + r.yielddl.toNat ≤ s.tick) && r.haltD.isNone.or (decide (r.stage = .stubs)) && r.onDies

/-- R376, R377. FORCED_SAVE: the region halts for a KIND 4 record; a trap stub stops, and its event is kept. A region that waits
to resume has no word to issue, and is saved as it stands; while a slack save is being restored, its KIND 3 record stands. -/
def execForcedSave (h : Nat) (s : State) : Out :=
  .next
    (let r := regAt s h
     if !yieldLate s r then s
     else if r.stage ≠ .running then
       let s := settle s h
       if r.resume = 3 ∧ r.stage ≠ .stubs then yieldEnd s h 3 true false
       else
         let (s, ok) := putRecord s h (recOf s h 4 0 0 0 none r.faults.length r.tide)
         yieldEnd s h 4 ok true
     else raiseHalt (setReg s h { r with forced := true }) h none)

-- Retirement (R67, R130) ---------------------------------------------------------------------------------------------------------------

/-- What a cell has in flight has landed by a TIDE (R67). -/
def Cell.landed (c : Cell) (t : Nat) : Bool :=
  c.inc.isEmpty && c.lat.all (fun l => !l.per && decide (l.due ≤ t))
    && c.mx.mmas.all (fun m => !m.active || (!m.per && decide (m.next = 128) && m.rows.all fun x => decide (x.land ≤ t)))
    && c.mx.mloads.isEmpty && c.mx.strips.isEmpty

/-- Whether every stream of a region has ended and its work is over (R67); accesses still on their way are waited for, so
that they are visible before the status (R130) and their results land. -/
def retireDue (s : State) (r : Region) : Bool :=
  decide (r.stage = .running) && r.haltD.isNone && r.nests.all (·.done)
    && !(s.ops.any fun p => decide (p.2.reg = r.handle)) && (regReqs s r.handle).isEmpty
    && (regCells r).all fun k =>
      let c := cellAt s k
      c.task.isNone && c.landed r.tide && c.phase.isNone
        && seqs.all fun q => let st := c.stream q; decide (st.mode = .none) || st.taskOnly || st.ended

/-- Entries left in the queues and FIFOs of a region (R67, R341). -/
def leftOver (s : State) (r : Region) : Nat :=
  (regCells r).foldl
    (fun n k => let c := cellAt s k; n + (c.q.foldl (fun m p => m + p.2.length) 0) + c.fifo.ents.length) 0

/-- R67. PLAN_RETIRE. DESIGN CHOICE, log 101: words left in FQ are no entries left in queues; they stay and are not counted. -/
def execPlanRetire (h : Nat) (s : State) : Out :=
  .next
    (let r := regAt s h
     if !retireDue s r then s
     else
       let s := mergeRegion (settle (landAllStop s h) h) h
       let disc := leftOver s r
       let s := (regCells r).foldl
         (fun s k => let c := cellAt s k; setCell s k { c with q := [], fifo := { c.fifo with ents := [], frees := [] } }) s
       let s := endDebugs s h stNoRegion
       let sl := lastSlot s r
       let s := dropRegion s h
       let s := completeRun s r (if r.failc = 0 then stOk else stFailed) r.failc disc sl
       let s := completeOpt s r.yieldCmd stNoRegion h 0 0 sl
       let s := completeOpt s r.endCmd stNoRegion h 0 0 sl
       postEvent s harbourCore 4 h r.failc 0)

-- Lost sites and modules (R27, R454) ------------------------------------------------------------------------------------------------------

/-- The compute dies of a latency class, in slot order. -/
def classDies (cls : Nat) : List Nat := (List.range 12).filter fun n => decide (siteClass n = cls)

/-- The other end of a site's module (R14, Table 2). The modules of a switch die are numbered in the order of the sites that
they lead to (log 82). DESIGN CHOICE, log 94: a cliff base's module 14 leads to the base before it in its ring and 15 to the next. -/
def peerModule (site m : Nat) : Option (Nat × Nat) :=
  if site < 12 then
    let cls := siteClass site
    let i := (classDies cls).idxOf site
    let sw := 0x20 + 2 * cls
    if m < 4 then some (sw + m / 2, 2 * i + m % 2) else if m < 8 then some (12 + 4 * cls + (m - 4), 8 + i) else none
  else if site < 20 then
    let cls := siteClass site
    let j := (site - 12) % 4
    let sw := 0x20 + 2 * cls
    if m < 8 then some (sw + m / 4, 12 + 4 * j + m % 4)
    else if m < 14 then (classDies cls)[m - 8]?.map fun n => (n, 4 + j)
    else if m = 14 then some (12 + 4 * cls + (j + 3) % 4, 15)
    else if m = 15 then some (12 + 4 * cls + (j + 1) % 4, 14)
    else none
  else
    let w := site - 0x20
    let cls := w / 2
    if m < 12 then (classDies cls)[m / 2]?.map fun n => (n, m % 2 + 2 * (w % 2))
    else if m < 28 then some (12 + 4 * cls + (m - 12) / 4, (m - 12) % 4 + 4 * (w % 2))
    else
      let others (x : Nat) : List Nat := [0, 1, 2, 3].filter (· ≠ x)
      (others w)[m - 28]?.map fun v => (0x20 + v, 28 + (others v).idxOf w)

/-- The sites that a loss concerns: the site itself, or, of a switch die, the one that its module leads to, or every one
of its class when the die is lost. -/
def lostSites (site m : Nat) : List Nat :=
  if site < 20 then [site]
  else if m < 31 then (((peerModule site m).map (·.1)).filter (· < 20)).toList
  else (List.range 20).filter fun n => decide (siteClass n = (site - 0x20) / 2)

/-- The stratum that a loss takes: module numbers 16 to 19 of a cliff base stand for its strata (log 82). -/
def lostStratum (site m : Nat) : Option Nat := if 12 ≤ site ∧ site < 20 ∧ 16 ≤ m ∧ m < 20 then some (m - 16) else none

/-- A cell lies on a die that is lost. -/
def lostCell (site m k : Nat) : Bool :=
  match lostStratum site m with
  | some j => decide (slotOf k = site ∧ stkOf k = j)
  | none => (lostSites site m).contains (slotOf k)

/-- R27. The regions bound to a lost die halt with LINK, raised for their first cell there; while stubs run, it ends them. -/
def linkHalt (s : State) (lost : Nat → Bool) : State :=
  s.regions.foldl
    (fun s p =>
      let r := p.2
      match r.stage with
      | .planes | .running | .stubs | .rebuild | .resuming =>
        match (regCells r).find? lost with
        | some k =>
          let w : Who := { key := k, seq := .s, pc := (cellAt s k).ss.pc }
          let s := linkRounds s p.1 lost
          if r.stage = .stubs ∨ r.stage = .rebuild then
            recordFault (setReg s p.1 { r with stubCode := if r.stubCode = 0 then cLink else r.stubCode }) p.1 w { code := cLink } false
          else takeFault s w { code := cLink }
        | none => s
      | _ => s) s

/-- Changes the status of a module. -/
def onModule (s : State) (site m : Nat) (f : Module → Module) : State :=
  { s with modules := sset s.modules (site * 64 + m) (f (moduleAt s site m)) }

/-- An uncorrectable error on a module (R455). -/
def Module.hurt (x : Module) : Module := { x with up := false, unc := if x.unc = 255 then 255 else x.unc + 1 }

/-- A site is lost with all of its modules, whose links are down at both ends (R14, R27). -/
def siteLost (s : State) (site : Nat) : State :=
  (List.range (moduleCount site)).foldl
    (fun s m =>
      let s := onModule s site m fun x => { x with up := false, trn := x.trn && decide (site < 20) }
      match peerModule site m with
      | some p => onModule s p.1 p.2 fun x => { x with up := false }
      | none => s) s

/-- The mix shows a loss, in one update (R25, R27, R454). -/
def lossUpdate (s : State) (site m : Nat) : State :=
  match lostStratum site m with
  | some j => mixUpdate (clearStrat s (4 * (site - 12) + j))
  | none =>
    let s := if m < moduleCount site then onModule s site m Module.hurt else siteLost s site
    let s := { s with mixd := (lostSites site m).foldl (fun w i => putBits w i i 0) s.mixd }
    mixUpdate (if 0x20 ≤ site ∧ 31 ≤ m then { s with mixd := putBits s.mixd (site - 0x20 + 24) (site - 0x20 + 24) 0 } else s)

/-- R27, R454. PHY_LINK_LOSS: the regions halt first, then the mix shows the loss in one update. A module number beyond
the site's and its strata's stands for the whole site. -/
def execPhyLinkLoss (site : BitVec 8) (module : Nat) (s : State) : Out :=
  .next
    (let n := site.toNat
     if !siteOk n ∨ n = 0xFF then s else lossUpdate (linkHalt s (lostCell n module)) n module)

end Sys2Proof.Machine
end

