-- ==== Sys2Proof/Machine/Task.lean ====
section
/-! DEFINITION. The walker and its tasks (R58 to R62). -/

namespace Sys2Proof.Machine

-- Loop-nest records (R58, R59) -------------------------------------------------------------------------------------------

/-- Number of loop levels of a record. -/
def nestDepth (n : Nest) : Nat := bits (n.words.getD 0 0) 2 0

/-- Trip count of level l, 1 to 6. -/
def nestTrip (n : Nest) (l : Nat) : Nat :=
  let w := n.words.getD ((l + 1) / 2) 0
  if l % 2 = 1 then bits w 31 0 else bits w 63 32

/-- The levels of a record, outermost first. -/
def nestOrder (n : Nest) : List Nat := (List.range (nestDepth n)).map fun j => bits (n.words.getD 0 0) (3 * j + 5) (3 * j + 3)

/-- Iterations of a record. -/
def nestTotal (n : Nest) : Nat := prod ((nestOrder n).map (nestTrip n))

/-- The digits of an ordinal over levels, innermost first. -/
def nestDigits (n : Nest) : List Nat → Nat → SMap Nat
  | [], _ => []
  | l :: ls, o => sset (nestDigits n ls (o / nestTrip n l)) l (o % nestTrip n l)

/-- The index of a level at an ordinal; levels that the record does not have are at 0. -/
def nestIndex (n : Nest) (ord l : Nat) : Nat := sget 0 (nestDigits n (nestOrder n).reverse ord) l

/-- The cells of a record's task subgroup, in row-major order. -/
def nestCells (r : Region) (n : Nest) : List Nat :=
  let w := n.words.getD 4 0
  match r.dies[nestDie n]? with
  | some d => rectKeys d (bits w 8 5) (bits w 12 9) (bits w 16 13) (bits w 21 17)
  | none => []

/-- The entry of a sequencer, if it takes part. -/
def nestEntry (n : Nest) (q : Seq) : Option Nat :=
  let e := bits (n.words.getD 5 0) (16 * seqIx q + 15) (16 * seqIx q)
  if e = 0xFFFF then none else some e

/-- The record that a die's walker serves, with its place in the list. -/
def servedNest (r : Region) (ldie : Nat) : Option (Nat × Nest) :=
  ((r.nests.zipIdx).find? fun p => !p.1.done && decide (nestDie p.1 = ldie)).map fun p => (p.2, p.1)

/-- Replaces a record of a region. -/
def setNest (s : State) (h i : Nat) (n : Nest) : State :=
  let r := regAt s h
  setReg s h { r with nests := r.nests.set i n }

/-- R62. A record whose iterations have all ended is done: its word 15 goes into the image. -/
def finishNest (s : State) (h i : Nat) (n : Nest) : State :=
  let r := regAt s h
  if nestTotal n ≤ n.next ∧ n.live = 0 then
    let w := fieldsW [(0, Nat.min n.failn 0xFFFFFFFF), (32, (n.first.map (·.2)).getD 0)]
    hostPut (setNest s h i { n with done := true }) r.ctx (byteAfter s r.ctx r.image (r.nestoff + 128 * i + 120)) (toBytes 8 w.toNat)
  else setNest s h i n

/-- FAILN and FIRST after a task with a status (R61). -/
def countFail (n : Nest) (ord st : Nat) : Nest :=
  if st = 0 then n
  else
    { n with failn := Nat.min (n.failn + 1) 0xFFFFFFFF,
             first := match n.first with
               | some (o, x) => if ord < o then some (ord, st) else some (o, x)
               | none => some (ord, st) }

-- Dispatch (R59, R60) --------------------------------------------------------------------------------------------------------

/-- Input tile j of an iteration: tensor address of its first element, and destination; none where a coordinate lies
outside the tensor or the tile outside the leases. -/
def inputTile (s : State) (r : Region) (key : Nat) (n : Nest) (ord j : Nat) : Option (Word × Word) :=
  let w := n.words.getD (6 + 2 * j) 0
  let t := bits w 15 0
  match descFor s r.ctx t with
  | none => none
  | some d =>
    let c := (List.range 5).map fun i => nestIndex n ord (bits w (3 * i + 18) (3 * i + 16))
    if (c.zip d.grid).all (fun p => decide (p.1 < p.2)) then
      let first := (List.range 5).foldl (fun a i => a + c.getD i 0 * d.tile.getD i 1 * prod (d.ext.take i)) 0
      if leased s key r.ctx t (d.locate first).1 false then
        some (taddr t first, taddr 0xFFFF (cidxOf key * 2 ^ 42 + bits (n.words.getD (7 + 2 * j) 0) 41 0))
      else none
    else none

/-- The copy of one input tile (R60). -/
def startInput (s : State) (h key : Nat) (p : Word × Word) : State :=
  let (id, s) := fresh s
  { s with ops := sset s.ops id { kind := .input, key := key, seq := .s, reg := h, pc := (cellAt s key).ss.pc, ord := id, va := p.1,
                                  vb := p.2, t0 := s.tick, born := s.tick, due := s.per + Config.accessPeriods } }

/-- An iteration reaches a cell: its registers are set and its input tiles are asked for, or it ends with LEASE. -/
def handOut (s : State) (h i : Nat) (n : Nest) (key : Nat) : State :=
  let r := regAt s h
  let ord := n.next
  let s := setNest s h i { n with next := ord + 1, live := n.live + 1 }
  let s := (List.range 6).foldl (fun s l => writeA s key (l + 1) (BitVec.ofNat 64 (nestIndex n ord (l + 1)))) s
  let s := writeA s key 7 (BitVec.ofNat 64 ord)
  let nin := bits (n.words.getD 4 0) 24 22
  let ins := (List.range nin).map (inputTile s r key n ord)
  let bad := ins.any (·.isNone)
  let t : Task := { nest := i, ord := ord, inputs := if bad then 0 else nin, started := false, status := if bad then cLease else 0 }
  let s := setCell s key { cellAt s key with task := some t }
  if bad then s else ins.foldl (fun s p => match p with
    | some x => startInput s h key x
    | none => s) s

/-- The cell that takes the next iteration of a record: the lowest free one (R59). -/
def freeCell (s : State) (r : Region) (n : Nest) : Option Nat := (nestCells r n).find? fun k => (cellAt s k).task.isNone

/-- Whether a die's walker does something now. -/
def walkDue (s : State) (r : Region) (ldie : Nat) : Bool :=
  decide (r.stage = .running) && r.swait.isNone
    && match servedNest r ldie with
      | some (_, n) => if n.next < nestTotal n then (freeCell s r n).isSome else decide (n.live = 0)
      | none => false

/-- R59. TASK_DISPATCH. -/
def execTaskDispatch (h : Nat) (ldie : Nat) (s : State) : Out :=
  .next
    (let r := regAt s h
     if !walkDue s r ldie then s
     else match servedNest r ldie with
       | some (i, n) =>
         if n.next < nestTotal n then
           match freeCell s r n with
           | some k => handOut s h i n k
           | none => s
         else finishNest s h i n
       | none => s)

-- Start and end (R60, R61) -----------------------------------------------------------------------------------------------------

/-- The record of a cell's task. -/
def taskNest (s : State) (key : Nat) (t : Task) : Nest := (regOf s key).nests.getD t.nest {}

/-- Whether a sequencer can take its part of a task: its own stream is over. -/
def Stream.idle (st : Stream) : Bool := decide (st.mode = .elastic) && !st.task && (st.taskOnly || st.ended)

/-- Whether a cell's task starts now. -/
def taskReady (s : State) (key : Nat) : Bool :=
  let c := cellAt s key
  match c.task with
  | some t =>
    decide ((regOf s key).stage = .running) && !t.started && decide (t.inputs = 0 ∧ t.status = 0)
      && seqs.all fun q => (nestEntry (taskNest s key t) q).isNone || (c.stream q).idle
  | none => false

/-- A stream at its task entry; no loop is active and no join is pending (R202). A sequencer that has issued in this period issues the
first word of the task in the next (R33). -/
def Stream.enter (st : Stream) (e : Option Nat) (now : Nat) : Stream :=
  match e with
  | some off =>
    { st with pc := 8 * off, last := now, waitc := 0, pos := 0, begun := true, ended := false,
              wake := if st.last = now then now + 1 else 0, since := none, joins := [],
              lp0 := {}, lp1 := {}, lp2 := {}, lp3 := {}, task := true }
  | none => st

/-- R60. TASK_START: the sector buffer is invalidated (R71), and the streams that take part begin. -/
def execTaskStart (key : Nat) (s : State) : Out :=
  .next
    (if !taskReady s key then s
     else
       let c := cellAt s key
       match c.task with
       | none => s
       | some t =>
         let n := taskNest s key t
         let go (q : Seq) : Stream := (c.stream q).enter (nestEntry n q) s.per
         setCell (dropSects s key) key
           { c with task := some { t with started := true }, sect := [], ss := go .s, sl := go .l, sc := go .c, sw := go .w })

/-- Every access of a cell's task is visible at DIE scope, and its engine operations are over (R61). -/
def taskVisible (s : State) (key : Nat) : Bool :=
  !(s.ops.any fun p => decide (p.2.key = key) && (((cellAt s key).stream p.2.seq).task || decide (p.2.kind = .input)))
    && s.reqs.all fun p => decide (p.2.key ≠ key) || (if p.2.kind = .store then decide (p.2.out ≠ 0) else p.2.applied)

/-- Whether a cell's task ends now. -/
def taskOver (s : State) (key : Nat) : Bool :=
  let c := cellAt s key
  match c.task with
  | some t =>
    decide ((regOf s key).stage = .running) && (decide (t.status ≠ 0) || t.started)
      && seqs.all (fun q => !(c.stream q).task || (c.stream q).ended) && taskVisible s key
  | none => false

/-- The arrival of an ended task at its record's barrier (R61): the state, and the fault's code, or 0. -/
def taskArrive (s : State) (key : Nat) (n : Nest) : State × Nat :=
  let b := n.words.getD 14 0
  let r := regOf s key
  let w := n.words.getD 4 0
  if b = 0 then (s, 0)
  else match (r.dies[nestDie n]?).bind fun d => clusterCell (keyOn d (bits w 8 5) (bits w 12 9)) (spIdx b) with
    | none => (s, cBarrier)
    | some o =>
      if (cellAt s o).reg ≠ (cellAt s key).reg ∨ (cellAt s o).csr.shwin * 1024 < spOff b + 8 then (s, cBarrier)
      else match arriveOn s o (spOff b) 0 with
        | .ok t => (t, 0)
        | .error e => (s, e)

/-- A stream after its task. -/
def Stream.leave (st : Stream) : Stream :=
  if st.task then { st with task := false, ended := true, begun := !st.taskOnly } else st

/-- R61. TASK_END. -/
def execTaskEnd (key : Nat) (s : State) : Out :=
  .next
    (if !taskOver s key then s
     else match (cellAt s key).task with
       | none => s
       | some t =>
         let h := (cellAt s key).reg
         let n := taskNest s key t
         let (s, bad) := taskArrive s key n
         let st := if bad = 0 then t.status else bad
         let c := cellAt s key
         let s := setCell s key
           { c with task := none, ss := c.ss.leave, sl := c.sl.leave, sc := c.sc.leave, sw := c.sw.leave }
         finishNest s h t.nest { countFail n t.ord st with live := n.live - 1 })

end Sys2Proof.Machine
end

