-- ==== Sys2Proof/Machine/Resume.lean ====
section
/-! DEFINITION. Resumption: accesses of the shadow list (R358, R367), the restore of records (R362, R367, R374 to R376),
rebuild stubs and the return of TIDE (R375, R493). -/

namespace Sys2Proof.Machine

-- The shadow list (R358, R367) -------------------------------------------------------------------------------------------

/-- A shadow access that faults again keeps what it was recorded with (R358). -/
def againFault (e : Shadow) (code : Nat) (ta : Word) : Res := .fault { code := code, taddr := ta, shadow := some (e.va, e.vb, e.vdata, e.land) }

/-- BAR and ARRV again: the arrival now, its reply at the recorded landing. -/
def redoArrive (d : BitVec 6) (wait : Bool) (e : Shadow) (c : Ctx) (s : State) : Res :=
  match barAddr s c.key e.va with
  | none => againFault e cAddr e.va
  | some (o, off) =>
    let par : BitVec 2048 := BitVec.ofNat 2048 (bits (barWord s o off) 60 60)
    match arriveOn s o off e.vb.toInt with
    | .error x => againFault e x e.va
    | .ok t =>
      let t := if d = 0 then t else addLatch t c.key { due := e.land, tgt := .a d.toNat, val := par, seq := c.seq, pc := c.pc }
      .ok (if wait then addLatch t c.key { due := e.land, tgt := .barw o off, val := par, seq := c.seq, pc := c.pc } else t)

/-- QPOP and QPEEK again: the entry that was read goes to the scratchpad. -/
def redoPop (q : Nat) (peek : Bool) (e : Shadow) (c : Ctx) (s : State) : Res :=
  let ta := ownAddr c.key e.va
  if spadSize c.key < e.va.toNat + 256 then againFault e cAddr ta
  else if spadMergeBad s c.key e.va.toNat 256 then againFault e cMemErr ta
  else
    match entryToSpad (spadHeal (if peek then s else setQ s c.key q ((qEnts s c.key q).drop 1)) c.key e.va.toNat 256) c e.va.toNat e.vdata with
    | some u => .ok u
    | none => .fault { code := cPhaseOv, taddr := ta }

/-- QPUSH of a 2,048-bit entry again. -/
def redoPush (q : Nat) (e : Shadow) (c : Ctx) (s : State) : Res :=
  let ta := ownAddr c.key e.va
  if spadSize c.key < e.va.toNat + 256 then againFault e cAddr ta
  else if spadBad s c.key e.va.toNat 256 then againFault e cMemErr ta
  else .ok (landQ s c q (mkQEntry q (BitVec.ofNat 2048 (ofBytes (spadBytes s c.key c.key e.va.toNat 256))) false) 4)

/-- A shadow access performed again with its recorded operands. -/
def redoBody (e : Shadow) (c : Ctx) (s : State) : Res :=
  match decode (seqSpace c.key c.seq) e.word with
  | .error _ => .ok s
  | .ok i =>
    match i with
    | .ld d _ sub imm => ldBody false d sub imm e.va c s
    | .st _ _ sz imm => stBody false sz imm e.va e.vb c s
    | .stRel _ _ sz imm => stBody true sz imm e.va e.vb c s
    | .faddw _ _ => faddwBody e.va e.vb c s
    | .amo d _ _ op use w => atomicBody (.amo op.toNat) d 0 use.toNat w.toNat e.va e.vb 0 c s
    | .cas d _ _ _ f use w => atomicBody .cas d f use.toNat w.toNat e.va e.vb (e.vdata.setWidth 64) c s
    | .vld d _ imm => vldBody .vn d imm e.va c s
    | .gvld d _ imm => vldBody .gs d imm e.va c s
    | .vst _ _ imm => vstBody .vn imm e.va e.vdata c s
    | .gvst _ _ imm => vstBody .gs imm e.va e.vdata c s
    | .dld ds _ _ => dldBody ds e.va c s
    | .bar d _ _ wait => redoArrive d (wait == 1) e c s
    | .arrv _ _ _ => redoArrive 0 false e c s
    | .qpush q _ => redoPush q.toNat e c s
    | .qpop q _ _ => redoPop q.toNat false e c s
    | .qpeek q _ _ => redoPop q.toNat true e c s
    | _ => .ok s

/-- R367. One shadow access; a fault is detected at the TIDE of the resumption. -/
def redoShadow (s : State) (key : Nat) (e : Shadow) : State :=
  let c : Ctx := { key := key, seq := e.seq, st := (cellAt s key).stream e.seq, timed := true, core := false, t := e.tide, pc := e.pc }
  let w : Who := { key := key, seq := e.seq, pc := e.pc, word := e.word }
  let s := { s with curWord := e.word }
  match redoBody e c s with
  | .ok t => t
  | .goto t _ => t
  | .fault f => takeFault s w f
  | .okFault t f => takeFault t w f
  | .wait => s

/-- The shadow accesses of a region in the order of R357. -/
def redoAll (s : State) (h : Nat) : State :=
  (regCells (regAt s h)).foldl
    (fun s k =>
      let l := (cellAt s k).shadow
      l.foldl (fun s e => redoShadow s k e) (setCell s k { cellAt s k with shadow := [] })) s

-- The resumption at a TIDE (R367, R376) ---------------------------------------------------------------------------------------

/-- A stream goes on from a stop: distances in periods count from now. -/
def Stream.resumeAt (st : Stream) (d : Nat) : Stream :=
  let f : Bool := decide (st.mode = .elastic) || decide (st.pos < 2)
  { st with last := if f then st.last + d else st.last, wake := 0, since := none, held := none,
            fences := st.fences.map fun x => { x with asked := decide (st.mode ≠ .timed) } }

/-- The matrix work of a cell counts its periods from now. -/
def MxState.resumeAt (m : MxState) (d : Nat) : MxState :=
  { m with
    mmas := m.mmas.map (fun x => if x.per then { x with start := x.start + d, rows := x.rows.map fun y => { y with land := y.land + d } } else x),
    mloads := m.mloads.map (fun x => if x.per then { x with land := x.land + d } else x),
    strips := m.strips.map fun x => if x.per then { x with start := x.start + d } else x }

/-- A cell goes on from a stop d periods ago; its sector buffer is empty (R71, R367). -/
def Cell.resumeAt (c : Cell) (d : Nat) : Cell :=
  { c with
    lat := c.lat.map (fun l => if l.per then { l with due := l.due + d } else l), sect := [], mx := c.mx.resumeAt d,
    fifo := { c.fifo with ents := c.fifo.ents.map (fun e => { e with due := e.due + d }), frees := c.fifo.frees.map (· + d) },
    ss := c.ss.resumeAt d, sl := c.sl.resumeAt d, sc := c.sc.resumeAt d, sw := c.sw.resumeAt d }

/-- The region runs again: its halt is over, and a region before START takes this period as its frame boundary. A stall that
its pre-decode asked for stays (R367). -/
def runAgain (s : State) (h : Nat) : State :=
  let r := regAt s h
  let aligned := (timedOf s r).all fun p => decide (1 ≤ ((cellAt s p.1).stream p.2).pos)
  setReg s h
    { r with stage := .running, resume := 0, haltD := none, haltH := 0, stopP := none, faults := [], stubCode := 0, swait := none,
             resP := none, agree := none, forced := false, park := false,
             startF := if !r.started ∧ aligned ∧ hasTimed s r then some s.per else r.startF }

/-- R367, R368, R376. A region that stopped resumes: its work goes on from the periods of its stop, and the shadow accesses
are performed again. -/
def resumeRun (s : State) (h stopPer : Nat) : State :=
  let r := regAt s h
  let d := s.per - stopPer
  let s := (regCells r).foldl (fun s k => setCell (dropSects s k) k ((cellAt s k).resumeAt d)) s
  let s := { s with ops := s.ops.map fun p => if p.2.reg = h then (p.1, { p.2 with t0 := s.tick, due := s.per + 1 }) else p }
  redoAll (runAgain s h) h

/-- Whether a stopped region resumes now. -/
def stubDue (s : State) (r : Region) : Bool :=
  (decide (r.stage = .stubs) || (decide (r.stage = .resuming) && decide (r.resume = 1 ∨ r.resume = 4)))
    && decide (r.stubCode = 0) && !r.ending && r.haltD.isNone.or (decide (r.stage = .stubs))
    && match r.resP with
      | some p => decide (p ≤ s.per)
      | none => false

/-- R367. STUB_RESUME. -/
def execStubResume (h : Nat) (s : State) : Out :=
  .next (let r := regAt s h; if stubDue s r then resumeRun s h (recPer s r) else s)

-- The restore of a record (R362, R374 to R376) --------------------------------------------------------------------------------------

/-- The period in which a resumption without stubs takes place (R367): 64 after the next frame boundary. -/
def resumePer (s : State) : Nat := s.per + (256 - s.frame) + 64

/-- Puts the cells and operations of a record on the region's cells: their sector buffers are empty (R71), and a gate request
that is pending on their stratum stands (R340). -/
def restoreCells (s : State) (h : Nat) (rec : StopRec) : State :=
  let r := regAt s h
  let s := rec.cells.foldl
    (fun s p =>
      let c := p.2.mapKeys (placeKey r)
      setCell s (placeKey r p.1) { c with reg := h, sect := [], fifo := c.fifo.gateAs (cellAt s (placeKey r p.1)).fifo }) s
  { s with ops := rec.ops.foldl (fun m p => sset m p.1 { p.2 with reg := h, key := placeKey r p.2.key }) s.ops }

/-- A KIND 1 or KIND 4 record is restored; a record that keeps recoverable events runs their stubs again (R377). -/
def restoreHalt (s : State) (h : Nat) (rec : StopRec) : State :=
  let s := restoreCells s h rec
  let r := regAt s h
  let ev := if rec.kind = 4 then keptEvents rec else []
  if ev.isEmpty then resumeAfter (setReg s h { r with stage := .resuming }) h (resumePer s)
  else
    let s := setReg s h { r with stage := .stubs, faults := ev, haltD := some r.tide, haltH := r.tide, resP := none }
    (eventCells s (regAt s h)).foldl startStub s

/-- The streams of a cell start their rebuild stubs at the entries of its slack-table entry (R374, R375). -/
def Cell.rebuild (c : Cell) (e : Option (List Word)) (now : Nat) : Cell :=
  let go (q : Seq) : Stream :=
    let st := c.stream q
    let off := bits ((e.getD []).getD 3 0xFFFFFFFFFFFFFFFF) (16 * seqIx q + 15) (16 * seqIx q)
    if off = 0xFFFF then { st with stub := .none }
    else { mode := st.mode, img := st.img, nword := st.nword, turns := st.turns, pre := st.pre, base := st.base, begun := true,
           pc := 8 * off, last := now, stub := .rebuild }
  { c with ss := go .s, sl := go .l, sc := go .c, sw := go .w }

/-- The slack-table entry of a restored cell (R493). -/
def restEntry (rec : StopRec) (c : Cell) : Option (List Word) :=
  (if seqs.any fun q => decide ((c.stream q).mode = .timed) then some rec.slix else heldAt c).bind fun i => c.slack[i]?

/-- A KIND 3 record is restored and its rebuild stubs start (R375). -/
def restoreSlack (s : State) (h : Nat) (rec : StopRec) : State :=
  let s := restoreCells s h rec
  let r := regAt s h
  let s := (regCells r).foldl
    (fun s k => let c := cellAt s k; setCell s k (c.rebuild (restEntry rec c) s.per)) s
  setReg s h { r with stage := .rebuild, resP := none, tide := rec.hcyc }

/-- A record is restored on the region's cells (R66). -/
def restore (s : State) (h : Nat) : State :=
  let r := regAt s h
  match sfind s.records (slotKey r.ctx r.slot) with
  | none => s
  | some rec => if rec.kind = 3 then restoreSlack s h rec else restoreHalt s h rec

-- After the rebuild stubs (R375, R493) ---------------------------------------------------------------------------------------------

/-- What makes a cell fail after the rebuild stubs. -/
def rebuildBad (s : State) (k : Nat) : Bool :=
  let c := cellAt s k
  yieldBad s k || s.ops.any (fun p => decide (p.2.key = k)) || c.mx.mmas.any (·.active) || !c.mx.mloads.isEmpty || !c.mx.strips.isEmpty

/-- Every rebuild stub of a region has ended and its accesses have returned. -/
def rebuilt (s : State) (r : Region) : Bool :=
  decide (r.stage = .rebuild) && decide (r.stubCode = 0) && !r.ending
    && (regReqs s r.handle).isEmpty
    && (regCells r).all fun k => seqs.all fun q => decide (((cellAt s k).stream q).stub ≠ .rebuild) || ((cellAt s k).stream q).ended

/-- The streams that a record holds come back in place of the stubs. -/
def unrebuild (s : State) (h : Nat) : State :=
  let r := regAt s h
  match sfind s.records (slotKey r.ctx r.slot) with
  | none => s
  | some rec =>
    rec.cells.foldl
      (fun s p =>
        let k := placeKey r p.1
        let c := cellAt s k
        let x := p.2
        let x := x.mapKeys (placeKey r)
        setCell s k { c with ss := { x.ss with pre := c.ss.pre }, sl := { x.sl with pre := c.sl.pre }, sc := { x.sc with pre := c.sc.pre },
                             sw := { x.sw with pre := c.sw.pre } }) s

/-- Step 3 of R375: SLACK_STATE, or the boundary at which TIDE returns. -/
def rebuildEnd (s : State) (h : Nat) : State :=
  let r := regAt s h
  match (regCells r).find? (rebuildBad s) with
  | some k =>
    let p : FaultRec :=
      { d := r.tide, ldie := (cellAt s k).ldie, row := rowOf k, col := colOf k, seq := .s, engn := false, code := cSlackState, applied := 0,
        pc := 0, taddr := 0, arg := 0, shadow := false, ord := 0 }
    let s := settle s h
    let (s, ok) := putRecord s h (recOf s h 1 cSlackState 0 0 (some p) 0 r.tide)
    haltEnd s h cSlackState ok
  | none =>
    let s := unrebuild s h
    resumeAfter (setReg s h { regAt s h with stage := .resuming }) h (if hasTimed s r then boundaryAfter s 64 else s.per)

/-- Steps 4 and 5 of R375: TIDE := t, and the streams go on. -/
def slackRun (s : State) (h : Nat) : State :=
  let r := regAt s h
  let go (st : Stream) : Stream :=
    { st with last := if st.mode = .timed then r.tide else s.per, wake := 0, since := none, held := none }
  let s := (regCells r).foldl
    (fun s k =>
      let c := cellAt s k
      setCell s k { c with ss := go c.ss, sl := go c.sl, sc := go c.sc, sw := go c.sw }) s
  let s := runAgain s h
  setReg s h { regAt s h with slackd := 0 }

/-- Whether a slack resumption moves on now. -/
def slackDue (s : State) (r : Region) : Bool :=
  rebuilt s r
    || (decide (r.stage = .resuming) && decide (r.resume = 3) && r.haltD.isNone && match r.resP with
        | some p => decide (p ≤ s.per)
        | none => false)

/-- R375, R493. SLACK_RESUME. -/
def execSlackResume (h : Nat) (s : State) : Out :=
  .next
    (let r := regAt s h
     if !slackDue s r then s else if r.stage = .rebuild then rebuildEnd s h else slackRun s h)

end Sys2Proof.Machine
end

