-- ==== Sys2Proof/Machine/Image.lean ====
section
/-! DEFINITION. Plan images (R58, R374, R393 to R396): their layout and the checks that the device makes at launch. -/

namespace Sys2Proof.Machine

-- CRC-32C (R64) ----------------------------------------------------------------------------------------------------------

/-- One bit of the reflected CRC-32C. -/
def crcBit (c : Nat) : Nat := if c % 2 = 1 then (c / 2) ^^^ 0x82F63B78 else c / 2

/-- One byte of the CRC. -/
def crcByte (c : Nat) (b : Byte) : Nat := (List.range 8).foldl (fun c _ => crcBit c) (c ^^^ b.toNat)

/-- CRC-32C: initial value and final XOR 0xFFFFFFFF. -/
def crc32c (bs : List Byte) : Nat := bs.foldl crcByte 0xFFFFFFFF ^^^ 0xFFFFFFFF

-- Records of an image (R393 to R395) ---------------------------------------------------------------------------------------

/-- The 8-byte word at a byte offset of an image. -/
def imgW (b : List Byte) (off : Nat) : Word := BitVec.ofNat 64 (ofBytes ((b.drop off).take 8))

/-- n words from an offset. -/
def imgWs (b : List Byte) (off n : Nat) : List Word := wordsOf n (b.drop off)

/-- What a plan image describes. -/
structure Plan where
  dies : List RDie
  cells : List ImgCell
  nests : List Nest
  leases : List Lease
  slgap : Nat
  nestoff : Nat
deriving DecidableEq, Repr

/-- A field of the header: word, high and low bit. -/
def hd (b : List Byte) (w hi lo : Nat) : Nat := bits (imgW b (8 * w)) hi lo

/-- The logical die of the record at an offset. -/
def dieRec (b : List Byte) (off : Nat) : RDie :=
  let w := imgW b off
  { cls := bits w 1 0, lcls := bits w 2 2, stk := bits w 4 3, row0 := bits w 13 10, col0 := bits w 17 14, hgt := bits w 21 18,
    wid := bits w 26 22 }

/-- The sequencer of a 2-bit code. -/
def seqOf (n : Nat) : Seq :=
  match n with
  | 0 => .s
  | 1 => .l
  | 2 => .c
  | _ => .w

/-- A queue feed (R394, Table 2). -/
def feedOf (x : Nat) : QFeed :=
  { kind := match x % 4 with
      | 1 => .sched
      | 2 => .mem
      | _ => .unused,
    prod := seqOf (x / 4 % 4), chan := if x / 16 % 2 = 1 then some (x / 32 % 256) else none, cons := seqOf (x / 2 ^ 14 % 4) }

/-- The 16-bit codes of the queue feeds of a cell record. -/
def feedCodes (b : List Byte) (off : Nat) : List Nat :=
  (List.range 16).map fun n => bits (imgW b (off + 8 * (1 + n / 4))) (16 * (n % 4) + 15) (16 * (n % 4))

/-- The channel of the record at an offset (R395). -/
def chanRec (b : List Byte) (off : Nat) : Chan :=
  let w := imgW b off
  { ch := bits w 7 0, ldie := bits w 12 8, row := bits w 16 13, col := bits w 20 17, q := bits w 24 21 }

/-- The stream of sequencer i of a cell record. -/
def streamRec (b : List Byte) (off i : Nat) : ImgStream :=
  let w := imgW b (off + 8 * (5 + 2 * i))
  let v := imgW b (off + 8 * (6 + 2 * i))
  { mode := bits w 1 0, taskOnly := w.getLsbD 2, nword := bits w 31 16, base := bits w 47 32, img := bits v 31 0,
    turns := imgWs b (bits v 63 32) (bits w 63 48) }

/-- The cell of the record at an offset. -/
def cellRec (b : List Byte) (die off : Nat) : ImgCell :=
  let w := imgW b off
  let w13 := imgW b (off + 104)
  let choff := bits (imgW b (off + 112)) 31 0
  { die := die, row := bits w 3 0, col := bits w 7 4,
    slack := (List.range (bits w 31 16)).map fun i => imgWs b (bits w 63 32 + 64 * i) 8,
    feeds := (feedCodes b off).map feedOf,
    strs := (List.range 4).map (streamRec b off),
    init := (List.range (bits w13 47 32)).map fun i =>
      let o := bits w13 31 0 + 16 * i
      (bits (imgW b o) 18 0, (b.drop (bits (imgW b (o + 8)) 31 0)).take (bits (imgW b o) 63 32)),
    chans := (List.range (bits w13 63 48)).map fun i => chanRec b (choff + 8 * i) }

/-- The lease of the record at an offset. -/
def leaseRec (s : State) (ctx : Nat) (b : List Byte) (off : Nat) : Lease :=
  let w := imgW b off
  let t := bits w 15 0
  { tens := t, first := bits (imgW b (off + 8)) 31 0, count := bits w 63 32, kind := bits w 17 16, zero := w.getLsbD 18,
    peer := (peerOf s ctx t).map (·.1) }

/-- Offsets of the records of the die table and, for each die, of its cell table. -/
def dieOffs (b : List Byte) : List Nat := (List.range (hd b 1 37 32)).map fun i => hd b 2 31 0 + 32 * i

/-- CELLOFF and NCELL of a die record. -/
def cellTab (b : List Byte) (off : Nat) : Nat × Nat := (bits (imgW b (off + 8)) 31 0, bits (imgW b (off + 8)) 47 32)

/-- The offsets of the cell records, with their dies. -/
def cellOffs (b : List Byte) : List (Nat × Nat) :=
  (dieOffs b).zipIdx.flatMap fun p => (List.range (cellTab b p.1).2).map fun i => (p.2, (cellTab b p.1).1 + 128 * i)

/-- The offsets of the loop-nest records. -/
def nestOffs (b : List Byte) : List Nat := (List.range (hd b 3 15 0)).map fun i => hd b 2 63 32 + 128 * i

/-- The offsets of the lease records. -/
def leaseOffs (b : List Byte) : List Nat := (List.range (hd b 3 31 16)).map fun i => hd b 3 63 32 + 16 * i

/-- The offsets of the tensor records. -/
def tensOffs (b : List Byte) : List Nat := (List.range (hd b 4 15 0)).map fun i => hd b 4 63 32 + 64 * i

/-- The plan of an image. -/
def planOf (s : State) (ctx : Nat) (b : List Byte) : Plan :=
  { dies := (dieOffs b).map (dieRec b), cells := (cellOffs b).map fun p => cellRec b p.1 p.2,
    nests := (nestOffs b).map fun o => { words := imgWs b o 16 }, leases := (leaseOffs b).map (leaseRec s ctx b),
    slgap := hd b 5 24 0, nestoff := hd b 2 63 32 }

-- The checks of R396 -----------------------------------------------------------------------------------------------------------

/-- ICRC with its own field and word 15 of every loop-nest record read as 0 (R393). -/
def icrcOk (b : List Byte) : Bool :=
  let zeroAt (l : List Byte) (off n : Nat) : List Byte := l.take off ++ List.replicate (Nat.min n (l.length - off)) 0 ++ l.drop (off + n)
  decide (crc32c ((nestOffs b).foldl (fun l o => zeroAt l (o + 120) 8) (zeroAt b 56 4)) = hd b 7 31 0)

/-- A range of bytes lies inside the image. -/
def rangeIn (b : List Byte) (off n : Nat) : Bool := decide (off + n ≤ b.length)

/-- The header's fixed fields and the tables it names. -/
def headOk (b : List Byte) : Bool :=
  decide (128 ≤ b.length) && decide (hd b 0 31 0 = 0x45444954) && decide (hd b 0 39 32 = 2 ∨ hd b 0 39 32 = 3) && decide (hd b 0 63 40 = 0)
    && decide (hd b 1 31 0 = b.length) && decide (1 ≤ hd b 1 37 32 ∧ hd b 1 37 32 ≤ 32) && decide (hd b 1 63 38 = 0)
    && decide (hd b 4 31 16 = 0) && decide (hd b 5 63 25 = 0) && decide (hd b 6 63 48 = 0) && decide (hd b 7 63 32 = 0)
    && (List.range 8).all (fun i => decide (imgW b (64 + 8 * i) = 0))
    && rangeIn b (hd b 2 31 0) (32 * hd b 1 37 32) && rangeIn b (hd b 2 63 32) (128 * hd b 3 15 0)
    && rangeIn b (hd b 3 63 32) (16 * hd b 3 31 16) && rangeIn b (hd b 4 63 32) (64 * hd b 4 15 0)

/-- Must-be-zero fields and ranges of the die table. -/
def diesOk (b : List Byte) : Bool :=
  (dieOffs b).zipIdx.all fun p =>
    let w := imgW b p.1
    let d := dieRec b p.1
    decide (bits w 9 5 = p.2) && decide (bits w 63 27 = 0) && decide (bits (imgW b (p.1 + 8)) 63 48 = 0)
      && decide (imgW b (p.1 + 16) = 0 ∧ imgW b (p.1 + 24) = 0) && (decide (d.cls = 3) || decide (d.stk = 0))
      && rangeIn b (cellTab b p.1).1 (128 * (cellTab b p.1).2)
      && rectOk d.cls d.row0 d.col0 d.hgt d.wid
      && !(decide (hd b 0 39 32 = 2) && decide (d.cls = 3))

/-- A stream record: its fields and the ranges that it names. -/
def streamOk (b : List Byte) (off i : Nat) : Bool :=
  let w := imgW b (off + 8 * (5 + 2 * i))
  let v := imgW b (off + 8 * (6 + 2 * i))
  let x := streamRec b off i
  decide (bits w 15 3 = 0) && decide (x.mode ≠ 3) && (!x.taskOnly || decide (x.mode = 2))
    && (decide (x.mode = 0) || decide (x.base < x.nword))
    && rangeIn b x.img (8 * x.nword) && rangeIn b (bits v 63 32) (8 * bits w 63 48)
    && x.turns.all (fun t => decide (bits t 63 48 = 0 ∧ bits t 15 0 < x.nword ∧ bits t 31 16 < x.nword ∧ bits t 47 32 < x.nword))
    && !(decide (hd b 0 39 32 = 2) && !x.turns.isEmpty)

/-- The must-be-zero fields and ranges of a cell record. -/
def cellOk (b : List Byte) (off cls : Nat) : Bool :=
  let w := imgW b off
  let w13 := imgW b (off + 104)
  let w14 := imgW b (off + 112)
  decide (bits w 15 8 = 0) && decide (bits w14 63 32 = 0) && decide (imgW b (off + 120) = 0)
    && rangeIn b (bits w 63 32) (64 * bits w 31 16) && (List.range 4).all (streamOk b off)
    && rangeIn b (bits w13 31 0) (16 * bits w13 47 32) && rangeIn b (bits w14 31 0) (8 * bits w13 63 48)
    && (feedCodes b off).all (fun x => decide (x % 4 ≠ 3) && decide (x / 2 ^ 13 % 2 = 0))
    && (List.range (bits w13 47 32)).all (fun i =>
      let o := bits w13 31 0 + 16 * i
      let p := imgW b o
      decide (bits p 31 19 = 0) && decide (bits (imgW b (o + 8)) 63 32 = 0) && rangeIn b (bits (imgW b (o + 8)) 31 0) (bits p 63 32)
        && decide (bits p 18 0 + bits p 63 32 ≤ [131072, 262144, 524288, 65536].getD cls 0))
    && (List.range (bits w13 63 48)).all fun i => decide (bits (imgW b (bits w14 31 0 + 8 * i)) 63 25 = 0)

/-- The cells: inside their rectangles, each named once. -/
def cellsOk (b : List Byte) : Bool :=
  let l := cellOffs b
  l.all (fun p =>
      let d := dieRec b ((dieOffs b).getD p.1 0)
      let c := cellRec b p.1 p.2
      cellOk b p.2 d.cls && inDie d c.row c.col 1 1)
    && (let names := l.map fun p => let c := cellRec b p.1 p.2; (c.die, c.row, c.col)
        decide (names.eraseDups.length = names.length))

/-- The cell record of a place. -/
def Plan.cell? (p : Plan) (die row col : Nat) : Option ImgCell := p.cells.find? fun c => decide (c.die = die ∧ c.row = row ∧ c.col = col)

/-- The mode of a sequencer's stream in a cell record. -/
def ImgCell.mode (c : ImgCell) (q : Seq) : Nat := (c.strs.getD (seqIx q) {}).mode

/-- R43 on one queue of a cell: its producer is a timed stream or a channel, or an elastic stream or L. -/
def feedOk (p : Plan) (c : ImgCell) (n : Nat) (f : QFeed) : Bool :=
  match f.kind with
  | .unused => true
  | .sched =>
    (match f.chan with
      | none => decide (c.mode f.prod = 1)
      | some k => decide ((p.cells.flatMap fun x => x.chans.filter fun h => decide (h.ldie = c.die ∧ h.row = c.row ∧ h.col = c.col ∧ h.q = n ∧ h.ch = k)).length = 1))
  | .mem => f.chan.isNone && (decide (c.mode f.prod = 2) || decide (f.prod = .l ∧ c.mode .l = 1))

/-- A channel ends at a queue that is schedule-fed from it, inside the region (R54). -/
def chanOk (p : Plan) (h : Chan) : Bool :=
  match p.cell? h.ldie h.row h.col with
  | none => false
  | some c =>
    let f := c.feeds.getD h.q {}
    decide (f.kind = .sched) && decide (f.chan = some h.ch)

/-- Queue feeds and channels. -/
def feedsOk (p : Plan) : Bool :=
  p.cells.all (fun c =>
      c.feeds.zipIdx.all (fun x => feedOk p c x.2 x.1) && c.chans.all (chanOk p)
        && (let ns := c.chans.map (·.ch); decide (ns.eraseDups.length = ns.length)))
    && (List.range p.dies.length).all fun d =>
      decide (((p.cells.filter fun c => decide (c.die = d)).foldl (fun n c => n + c.chans.length) 0) ≤ 1024)

/-- A slack-table entry of a cell of a class (R374, Table 12; R396). -/
def slackOk (c : ImgCell) (cls : Nat) (e : List Word) : Bool :=
  let w1 := e.getD 1 0
  let w2 := e.getD 2 0
  decide (bits w1 63 40 = 0 ∧ bits w2 63 32 = 0)
    && (match cls with
      | 0 => decide (bits w1 31 0 = 0)
      | 1 => decide (bits w1 39 32 = 0 ∧ bits w2 31 0 = 0)
      | _ => decide (bits w1 39 16 = 0 ∧ bits w2 31 0 = 0))
    && (List.range 4).all (fun i =>
      let x := bits (e.getD 3 0) (16 * i + 15) (16 * i)
      let st := c.strs.getD i {}
      decide (x = 0xFFFF) || decide (x < st.nword))
    && (List.range 4).all fun j =>
      let w := e.getD (4 + j) 0
      decide (bits w 63 39 = 0) && decide (bits w 18 0 % 32 = 0 ∧ bits w 38 19 % 32 = 0)
        && decide (bits w 18 0 + bits w 38 19 ≤ [131072, 262144, 524288, 65536].getD cls 0)

/-- The slack tables. -/
def slacksOk (p : Plan) : Bool := p.cells.all fun c => c.slack.all (slackOk c (p.dies.getD c.die {}).cls)

/-- The cells of a record's subgroup, by row and column. -/
def nestPlaces (w : Word) : List (Nat × Nat) :=
  (List.range (bits w 16 13)).flatMap fun i => (List.range (bits w 21 17)).map fun j => (bits w 8 5 + i, bits w 12 9 + j)

/-- BARRIER of a record: 0, or a cell of the origin's cluster inside the region's rectangle (R61). -/
def nestBarOk (d : RDie) (w : Word) (b : Word) : Bool :=
  decide (b = 0)
    || (decide (tidOf b = 0xFFFF) && decide (b.toNat % 8 = 0)
        && match clusterCell (keyOn { d with site := if d.cls = 3 then 12 else 0 } (bits w 8 5) (bits w 12 9)) (spIdx b) with
          | some o => inDie d (rowOf o) (colOf o) 1 1
          | none => false)

/-- A loop-nest record (R58, R396). -/
def nestOk (s : State) (ctx : Nat) (p : Plan) (n : Nest) : Bool :=
  let w0 := n.words.getD 0 0
  let w4 := n.words.getD 4 0
  let dep := nestDepth n
  let fields := (List.range 6).map fun j => bits w0 (3 * j + 5) (3 * j + 3)
  decide (1 ≤ dep ∧ dep ≤ 6) && decide (bits w0 63 21 = 0) && decide (bits w4 63 25 = 0) && decide (bits w4 24 22 ≤ 4)
    && isPerm dep ((fields.take dep).map (· - 1)) && (fields.take dep).all (fun x => decide (1 ≤ x)) && (fields.drop dep).all (fun x => decide (x = 0))
    && (List.range 6).all (fun l => decide (l < dep) || decide (nestTrip n (l + 1) = 0))
    && decide (nestTotal n < 2 ^ 48)
    && (match p.dies[bits w4 4 0]? with
      | none => false
      | some d =>
        rectOk d.cls (bits w4 8 5) (bits w4 12 9) (bits w4 16 13) (bits w4 21 17) && inDie d (bits w4 8 5) (bits w4 12 9) (bits w4 16 13) (bits w4 21 17)
          && nestBarOk d w4 (n.words.getD 14 0)
          && (nestPlaces w4).all (fun x =>
            match p.cell? (bits w4 4 0) x.1 x.2 with
            | none => false
            | some c => seqs.all fun q => match nestEntry n q with
                | none => true
                | some e => decide (c.mode q = 2) && decide (e < (c.strs.getD (seqIx q) {}).nword))
          && (List.range (bits w4 24 22)).all (fun j =>
            decide (bits (n.words.getD (6 + 2 * j) 0) 63 31 = 0) && decide (bits (n.words.getD (7 + 2 * j) 0) 63 42 = 0)
              && match descFor s ctx (bits (n.words.getD (6 + 2 * j) 0) 15 0) with
                | some t => decide (bits (n.words.getD (7 + 2 * j) 0) 41 0 + t.tileBytes ≤ [131072, 262144, 524288, 65536].getD d.cls 0)
                | none => true))
    && (nestEntry n .s).isSome

/-- A lease record (R97, R395, R468). -/
def leaseOk (s : State) (ctx : Nat) (b : List Byte) (off : Nat) : Bool :=
  let l := leaseRec s ctx b off
  decide (bits (imgW b off) 31 19 = 0) && decide (bits (imgW b (off + 8)) 63 32 = 0) && decide (l.kind ≠ 0) && !(l.zero && decide (l.kind = 1))
    && !(l.zero && l.peer.isSome)
    && match descFor s ctx l.tens with
      | some d => decide (l.first + l.count ≤ d.ntiles)
      | none => false

/-- A tensor record: a descriptor that R75 accepts. -/
def tensOk (b : List Byte) (off : Nat) : Bool :=
  decide (bits (imgW b (off + 48)) 63 16 = 0) && decide (imgW b (off + 56) = 0) && (parseDesc (imgWs b off 6 ++ [0, 0])).isSome

/-- MIXREQ shows the counts of the die table. -/
def mixreqOk (b : List Byte) (dies : List RDie) : Bool :=
  (List.range 8).all fun i =>
    decide (hd b 6 (6 * i + 5) (6 * i) = (dies.filter fun d => decide (d.cls = i / 2 ∧ d.lcls = i % 2)).length)

/-- R396. The status of an image: 0 good, 2 CRC, 3 PLAN. -/
def imageStatus (s : State) (ctx : Nat) (b : List Byte) : Nat :=
  if !headOk b then stPlan
  else if !icrcOk b then stCrc
  else if !(diesOk b && cellsOk b) then stPlan
  else
    let p := planOf s ctx b
    if feedsOk p && slacksOk p && p.nests.all (nestOk s ctx p) && (leaseOffs b).all (leaseOk s ctx b) && (tensOffs b).all (tensOk b)
        && mixreqOk b p.dies && decide (p.slgap ≤ bits (preg s 0x20 (0x401 + 4 * ctx)) 24 0)
    then stOk else stPlan

/-- The image at a tensor address of a context: LEN bytes, if they can be read. -/
def readImage (s : State) (ctx : Nat) (a : Word) : Option (List Byte) :=
  if hostRange s ctx a 16 ≠ 0 then none
  else
    let n := bits (BitVec.ofNat 64 (ofBytes ((hostRead s ctx a 16).drop 8))) 31 0
    if hostRange s ctx a n ≠ 0 then none else some (hostRead s ctx a n)

end Sys2Proof.Machine
end

