-- ==== Sys2Proof/Machine/Planes.lean ====
section
/-! DEFINITION. Configuration planes (R63 to R65): what a region's sections and channels hold, the difference records that
bring a shadow plane to them, its check, and the swap. The layout of a plane's bytes is the model's (log 66). -/

namespace Sys2Proof.Machine

-- Places in a plane (R63) -------------------------------------------------------------------------------------------------

/-- Bytes of a section: a plane byte's place is section × 2^24 + offset. -/
def secSize : Nat := 16777216

/-- The routing section. -/
def routeSec : Nat := 16

/-- The section of a logical die's region slot; strata of one base have four slots each. -/
def secOf (d : RDie) : Nat := (if d.cls = 3 then 4 * d.stk else 0) + d.rslot

/-- The two-bit field of a queue feed and its further fields, as a cell record codes them (R394). -/
def feedCode (f : QFeed) : Nat :=
  (match f.kind with
    | .unused => 0
    | .sched => 1
    | .mem => 2) + 4 * seqIx f.prod + (match f.chan with
    | some k => 16 + 32 * k
    | none => 0) + 2 ^ 14 * seqIx f.cons

/-- The offset of a cell in its section. -/
def secCellOff (x : ImgCell) : Nat := 8 + 48 * (16 * x.row + x.col)

/-- A cell's stream modes and bases, and its queue feeds. -/
def secCellBytes (x : ImgCell) : List Byte :=
  ((List.range 4).flatMap fun i =>
    let st := x.strs.getD i {}
    toBytes 1 (st.mode + if st.taskOnly then 4 else 0) ++ toBytes 2 st.base)
  ++ (List.range 16).flatMap fun n => toBytes 2 (feedCode (x.feeds.getD n {}))

/-- Puts bytes into a plane at a section's offset. -/
def planePut (p : SMap Byte) (sec off : Nat) (bs : List Byte) : SMap Byte :=
  bs.zipIdx.foldl (fun m b => sput 0 m (sec * secSize + off + b.2) b.1) p

/-- Two bytes of a plane. -/
def planeNat2 (p : SMap Byte) (sec off : Nat) : Nat :=
  (sget 0 p (sec * secSize + off)).toNat + 256 * (sget 0 p (sec * secSize + off + 1)).toNat

/-- The section of a region's logical die i, with the pointer to its loop-nest list. -/
def secBytes (s : State) (r : Region) (i : Nat) (sec : Nat) (p : SMap Byte) : SMap Byte :=
  let ptr : Word := if r.nests.any fun n => decide (nestDie n = i) then byteAfter s r.ctx r.image r.nestoff else 0
  let q := planePut (p.filter fun x => !decide (x.1 / secSize = sec)) sec 0 (toBytes 8 ptr.toNat)
  (r.plan.filter fun x => decide (x.die = i)).foldl (fun q x => planePut q sec (secCellOff x) (secCellBytes x)) q

/-- What a cell begins with: its record, with stream modes, bases and queue feeds as the active plane holds them (R66). -/
def planeCell (p : SMap Byte) (sec : Nat) (x : ImgCell) : ImgCell :=
  let o := secCellOff x
  { x with
    strs := x.strs.zipIdx.map fun st =>
      let m := (sget 0 p (sec * secSize + o + 3 * st.2)).toNat
      { st.1 with mode := m % 4, taskOnly := decide (m / 4 % 2 = 1), base := planeNat2 p sec (o + 3 * st.2 + 1) },
    feeds := (List.range 16).map fun n => feedOf (planeNat2 p sec (o + 12 + 2 * n)) }

-- Channels (R52, R63, R64, R395, R430) -------------------------------------------------------------------------------------

/-- The cell at a place of a region's plan. -/
def placeCellKey (r : Region) (p : Nat) : Nat := keyOn (r.dies.getD (p / 256) {}) (p / 16 % 16) (p % 16)

/-- The channels of a region: source cell × 256 + number. -/
def chansOf (r : Region) : List Nat := r.chans.map fun c => placeCellKey r c.1 * 256 + c.2

/-- The sites through which a channel runs: the switch dies that it crosses (R52), and the cliff bases of strata. Of the two
switch dies of a class it takes the lower-numbered one (log 66). -/
def routeSites (a b : Nat) : List Nat :=
  let sa := slotOf a
  let sb := slotOf b
  let base (n : Nat) : List Nat := if 12 ≤ n then [n] else []
  let sw (n : Nat) : Nat := 0x20 + 2 * siteClass n
  (base sa ++ base sb ++ if sa = sb then [] else [sw sa, sw sb]).eraseDups

/-- The channels of a region with their ends. -/
def routesOf (r : Region) : List (Nat × Nat × Chan) :=
  r.plan.flatMap fun x => x.chans.map fun c =>
    (keyOn (r.dies.getD x.die {}) x.row x.col, keyOn (r.dies.getD c.ldie {}) c.row c.col, c)

/-- The record of a channel in a routing section. -/
def routeBytes (r : Region) (x : Nat × Nat × Chan) : List Byte :=
  toBytes 8 (x.2.1 + x.2.2.q * 2 ^ 16 + 2 ^ 20 + r.handle * 2 ^ 32)

/-- The offset of a channel in a routing section. -/
def routeOff (x : Nat × Nat × Chan) : Nat := 8 * (x.1 * 256 + x.2.2.ch)

-- Loading and swapping (R64, R65) -------------------------------------------------------------------------------------------

/-- The planes of a die. -/
def planeAt (s : State) (site : Nat) : Plane := sget {} s.planes site

/-- Replaces the planes of a die. -/
def setPlane (s : State) (site : Nat) (p : Plane) : State := { s with planes := sset s.planes site p }

/-- The dies whose planes a region's launch changes: those it is bound to, and those that its channels cross. -/
def planeSites (r : Region) : List Nat := ((r.dies.map (·.site)) ++ (routesOf r).flatMap fun x => routeSites x.1 x.2.1).eraseDups

/-- The contents that a region's plan gives a die's plane. -/
def planeTarget (s : State) (r : Region) (site : Nat) (p : SMap Byte) : SMap Byte :=
  let p := r.dies.zipIdx.foldl (fun p d => if d.1.site = site then secBytes s r d.2 (secOf d.1) p else p) p
  (routesOf r).foldl
    (fun p x => if (routeSites x.1 x.2.1).contains site then planePut p routeSec (routeOff x) (routeBytes r x) else p) p

/-- A difference record: the section, a byte offset in it, and the changed bytes (R64). -/
structure DiffRec where
  sec   : Nat
  off   : Nat
  bytes : List Byte
deriving DecidableEq, Repr

/-- The difference records from one plane's contents to others. -/
def diffRecs (a b : SMap Byte) : List DiffRec :=
  (((a ++ b).map (·.1)).eraseDups.filter fun k => decide (sget 0 a k ≠ sget 0 b k)).map fun k =>
    { sec := k / secSize, off := k % secSize, bytes := [sget 0 b k] }

/-- Whether a region holds clusters, slots and channels. -/
def Region.holds (r : Region) : Bool :=
  match r.stage with
  | .planes | .running | .stubs | .rebuild | .resuming => true
  | _ => false

/-- A record touches the section of a slot, or a channel, that another region holds (R64). -/
def recTaken (s : State) (h site : Nat) (x : DiffRec) : Bool :=
  s.regions.any fun p =>
    decide (p.1 ≠ h) && p.2.holds
      && (if x.sec = routeSec then (chansOf p.2).contains (x.off / 8) else p.2.dies.any fun d => decide (d.site = site ∧ secOf d = x.sec))

/-- A difference record is written to the shadow; bytes that are stuck keep what they hold. -/
def Plane.write (p : Plane) (x : DiffRec) : Plane :=
  x.bytes.zipIdx.foldl
    (fun p b =>
      let k := x.sec * secSize + x.off + b.2
      if p.stuck.contains k then p else { p with shadow := sput 0 p.shadow k b.1 }) p

/-- CRC-32C over a whole plane (R64). -/
def planeCrc (p : SMap Byte) : Nat := crc32c (p.flatMap fun x => toBytes 5 x.1 ++ [x.2])

/-- R64. One die's shadow plane is brought to the plan's contents and checked: the status. -/
def loadPlane (s : State) (h site : Nat) : State × Nat :=
  let r := regAt s h
  let p := planeAt s site
  let want := planeTarget s r site p.active
  let recs := diffRecs p.shadow want
  if recs.any (recTaken s h site) then (s, stPlan)
  else
    let q := recs.foldl Plane.write p
    (setPlane s site q, if planeCrc q.shadow = planeCrc want then stOk else stCrc)

/-- R64. The shadow planes of a launch are loaded and verified; where that fails they take the active planes' contents again,
and the answer is the status of the launch. -/
def loadPlanes (s : State) (h : Nat) : State × Nat :=
  let l := planeSites (regAt s h)
  let (t, st) := l.foldl (fun x site => if x.2 = stOk then loadPlane x.1 h site else x) (s, stOk)
  if st = stOk then (t, stOk)
  else (l.foldl unload t, st)

/-- R65. The verified shadow becomes the active plane and is copied into the new shadow. -/
def swapPlanes (s : State) (h : Nat) : State :=
  (planeSites (regAt s h)).foldl
    (fun s site => let p := planeAt s site; setPlane s site { p with active := p.shadow }) s

/-- A die of a region waits for its swap: its shadow is not loaded again before that (R65). -/
def planeBusy (s : State) (r : Region) : Bool :=
  s.regions.any fun p => decide (p.1 ≠ r.handle ∧ p.2.stage = .planes) && (planeSites p.2).any (planeSites r).contains

end Sys2Proof.Machine
end

