-- ==== Sys2Proof/Machine/Launch.lean ====
section
/-! DEFINITION. Launch and the region scheduler (R20 to R22, R30, R31, R65, R66, R422, R425 to R434, R441, R468). -/

namespace Sys2Proof

-- Commands (R422) --------------------------------------------------------------------------------------------------------

/-- The opcode of a command. -/
def Cmd.opc (c : Cmd) : Nat := Machine.bits c.w0 7 0

/-- The completion that a command is due. -/
def Cmd.ref (c : Cmd) : Machine.CmdRef := { queue := c.queue, tag := BitVec.ofNat 16 (Machine.bits c.w0 31 16), opc := c.opc, notify := c.w0.getLsbD 8 }

/-- Bits 63 to 32 and 15 to 9 of word 0 are 0. -/
def Cmd.headOk (c : Cmd) : Bool := decide (Machine.bits c.w0 63 32 = 0 ∧ Machine.bits c.w0 15 9 = 0)

/-- Words from n on are 0. -/
def Cmd.zerosFrom (c : Cmd) (n : Nat) : Bool := ([c.w1, c.w2, c.w3, c.w4, c.w5, c.w6, c.w7].drop (n - 1)).all fun w => decide (w = 0)

end Sys2Proof

namespace Sys2Proof.Machine

/-- A command that is carried out is no longer among those consumed. -/
def takeCmd (s : State) (c : Cmd) : State := { s with cmds := s.cmds.erase c }

/-- SLOT of a completion: the save slot that holds the last record of the region that the handle names (R423). -/
def handleSlot (s : State) (h : Nat) : Nat :=
  match sfind s.regions h with
  | some r => lastSlot s r
  | none => 0

/-- The completion of a command that concerns no region's end. -/
def answer (s : State) (c : Cmd) (status handle : Nat) : State := complete s c.ref status handle 0 0 (handleSlot s handle)

-- Bindings (R20, R422) -----------------------------------------------------------------------------------------------------

/-- Class of a site slot (R13, Table 1). -/
def slotClass (slot : Nat) : Nat := if slot < 6 then 0 else if slot < 9 then 1 else if slot < 12 then 2 else 3

/-- A logical die on the site that an entry of a binding table names. -/
def bindDie (d : RDie) (w : Word) : RDie := { d with site := bits w 4 0 }

/-- R20 for one logical die and its entry. -/
def bindOne (s : State) (d : RDie) (w : Word) : Bool :=
  let n := bits w 4 0
  decide (bits w 63 7 = 0) && decide (n < 20) && decide (slotClass n = d.cls) && decide (siteClass n = d.lcls) && s.mixd.getLsbD n
    && rectOk d.cls d.row0 d.col0 d.hgt d.wid
    && (if n < 12 then decide (bits s.mixa (5 * n + 4) (5 * n + 2) = 7)
        else decide (bits s.mixb (8 * (n - 12) + 2) (8 * (n - 12)) = 7) && decide (bits w 6 5 = d.stk)
          && decide (roleOf s (4 * (n - 12) + d.stk) = 1))

/-- The physical die that a logical die is bound to: site, and stratum. -/
def placeOfDie (d : RDie) : Nat := d.site * 4 + (if d.cls = 3 then d.stk else 0)

/-- R20. The logical dies bound under a table, if the device accepts it. -/
def bindAll (s : State) (dies : List RDie) (tab : List Word) : Option (List RDie) :=
  let l := (dies.zip tab).map fun p => bindDie p.1 p.2
  let places := l.map placeOfDie
  if tab.length = dies.length ∧ (dies.zip tab).all (fun p => bindOne s p.1 p.2) ∧ places.eraseDups.length = places.length then some l
  else none

/-- The binding table at a tensor address. -/
def readTable (s : State) (ctx : Nat) (a : Word) (n : Nat) : Option (List Word) :=
  if hostRange s ctx a (8 * n) = 0 then some (wordsOf n (hostRead s ctx a (8 * n))) else none

/-- The table that names the sites of bound dies. -/
def tableOf (dies : List RDie) : List Word := dies.map fun d => BitVec.ofNat 64 (d.site + (if d.cls = 3 then d.stk * 32 else 0))

-- Save slots (R433, R434) ----------------------------------------------------------------------------------------------------

/-- R434: the least slot size of a region. -/
def recordBound (dies : List RDie) : Nat := dies.foldl (fun n d => n + d.hgt * d.wid * sectionBound d.cls) 64

/-- The tiles of a save slot are resident (R433). -/
def slotResident (s : State) (ctx slot : Nat) : Bool :=
  let (t, lg, _) := saveArea s ctx
  match descFor s ctx t with
  | some d => decide (d.fmt = 0) && decide ((slot + 1) * 2 ^ lg ≤ d.count)
      && (slotTiles s ctx slot).all fun i => decide (entState (entryOf s ctx t i) = 1)
  | none => false

/-- R433, R434: a save slot can take a region's records. -/
def slotOk (s : State) (ctx slot : Nat) (dies : List RDie) : Bool :=
  let (t, lg, n) := saveArea s ctx
  decide (t ≠ 0) && decide (slot < n) && decide (recordBound dies ≤ 2 ^ lg) && slotResident s ctx slot

-- LAUNCH (R66, R396, R422, R426) -----------------------------------------------------------------------------------------------

/-- A handle that no live region has (R423). -/
def newHandle (s : State) : Nat :=
  (((List.range 65535).map fun i => (s.nextH + i - 1) % 65535 + 1).find? fun n => (sfind s.regions n).isNone).getD 1

/-- The plan cache of 64 images (R426). -/
def cacheImage (s : State) (ctx : Nat) (a : Word) (icrc : Nat) : State :=
  let e := (ctx, a, BitVec.ofNat 64 icrc)
  { s with cache := (e :: s.cache.filter fun x => !decide (x = e)).take 64 }

/-- The highest base priority of a context (R427). -/
def maxPrio (s : State) (ctx : Nat) : Nat := bits (preg s 0x20 (0x400 + 4 * ctx)) 31 28

/-- The quantum of a context (R427). -/
def quantOf (s : State) (ctx : Nat) : Nat := bits (preg s 0x20 (0x400 + 4 * ctx)) 26 0

/-- R58. The destinations of a plan's input tiles lie in the private windows of the cells that take its tasks: a cell of another
context is cleared before the plan begins, so that its shared window is empty (R30, R86). -/
def nestDestOk (s : State) (ctx : Nat) (p : Plan) (dies : List RDie) : Bool :=
  p.nests.all fun n =>
    (nestCells { dies := dies } n).all fun k =>
      let c := cellAt s k
      let win := if c.ctx = some ctx then c.csr.shwin * 1024 else 0
      (List.range (bits (n.words.getD 4 0) 24 22)).all fun j => decide (win ≤ bits (n.words.getD (7 + 2 * j) 0) 41 0)

/-- A launch enters the package: a live region that acquires its leases. -/
def enterRegion (s : State) (c : Cmd) (ctx prio slot : Nat) (p : Plan) (dies : List RDie) : State :=
  let h := newHandle s
  let first := !ctxLive s ctx
  let r : Region :=
    { handle := h, ctx := ctx, cmd := some c.ref, slot := slot, prio := prio, ep := prio, waitT := s.tick, ageT := s.tick, image := c.w1,
      nestoff := p.nestoff, dies := dies, leases := p.leases, stage := .leases, nests := p.nests, queue := c.queue, plan := p.cells,
      chans := p.cells.flatMap fun x => x.chans.map fun c => (x.die * 256 + x.row * 16 + x.col, c.ch) }
  let s := { setReg s h r with nextH := h % 65535 + 1 }
  if first then pinTable s ctx true else s

/-- R456. Launches are offered: an MX site, a VN site and a cliff site with a usable stack are trained. -/
def launchOpen (s : State) : Bool :=
  ((List.range 6).any fun n => s.mixa.getLsbD (5 * n + 4)) && ([6, 7, 8].any fun n => s.mixa.getLsbD (5 * n + 4))
    && (List.range 8).any fun m => s.mixb.getLsbD (8 * m + 2) && (s.mixb.getLsbD (8 * m + 3) || s.mixb.getLsbD (8 * m + 4))

/-- R66. LAUNCH up to the acquisition of leases. -/
def launchCmd (s : State) (c : Cmd) : State :=
  let ctx := queueCtx s c.queue
  let expl := c.w3.getLsbD 4
  let prio := if expl then bits c.w3 3 0 else ((queueAt s c.queue).map (·.prio)).getD 0
  let slot := bits c.w3 15 5
  if !c.headOk ∨ bits c.w3 63 16 ≠ 0 ∨ (!expl ∧ bits c.w3 3 0 ≠ 0) ∨ c.w4 ≠ 0 ∨ c.w5 ≠ 0 ∨ c.w6 ≠ 0 ∨ c.w7 ≠ 0 then answer s c stBadCmd 0
  else if !launchOpen s then answer s c stMix 0
  else if prio = 15 ∨ maxPrio s ctx < prio then answer s c stPrio 0
  else if tsOf s ctx = 0 then answer s c stLease 0
  else match readImage s ctx c.w1 with
    | none => answer s c stPlan 0
    | some b =>
      let st := imageStatus s ctx b
      let p := planOf s ctx b
      if st ≠ stOk then answer s c st 0
      else match (readTable s ctx c.w2 p.dies.length).bind (bindAll s p.dies) with
        | none => answer s c stMix 0
        | some dies =>
          if !nestDestOk s ctx p dies then answer s c stPlan 0
          else if !slotOk s ctx slot dies ∨ s.regions.any (fun x => decide (x.2.ctx = ctx ∧ x.2.slot = slot)) then answer s c stSave 0
          else enterRegion (cacheImage s ctx c.w1 (hd b 7 31 0)) c ctx prio slot p dies

/-- R66. LAUNCH. -/
def execLaunch (c : Cmd) (s : State) : Out := .next (launchCmd (takeCmd s c) c)

-- RESUME (R368, R425) ------------------------------------------------------------------------------------------------------------

/-- A region that a queue's command names: live, and of the queue's context. -/
def cmdRegion (s : State) (c : Cmd) (h : Nat) : Option Region :=
  match sfind s.regions h with
  | some r => if r.ctx = queueCtx s c.queue then some r else none
  | none => none

/-- An entry of a binding table names the site, and the stratum, that a logical die is bound to. -/
def sameBinding (d : RDie) (w : Word) : Bool :=
  decide (bits w 63 7 = 0 ∧ bits w 4 0 = d.site) && (decide (d.cls ≠ 3) || decide (bits w 6 5 = d.stk))

/-- The dies on which a RESUME binds a region, or none where the binding fails. -/
def resumeBinding (s : State) (r : Region) (a : Word) : Option (List RDie) :=
  if a = 0 then bindAll s r.dies (tableOf r.dies)
  else match readTable s r.ctx a r.dies.length with
    | none => none
    | some t =>
      if r.stage = .halted ∧ !(r.dies.zip t).all (fun p => sameBinding p.1 p.2) then none else bindAll s r.dies t

/-- R425. RESUME of a halted region keeps its leases and binding; a parked one acquires its leases again, and its LAUNCH goes
on waiting for its completion (R422). -/
def resumeCmd (s : State) (c : Cmd) : State :=
  let h := bits c.w1 15 0
  if !c.headOk ∨ bits c.w1 63 16 ≠ 0 ∨ c.w3 ≠ 0 ∨ c.w4 ≠ 0 ∨ c.w5 ≠ 0 ∨ c.w6 ≠ 0 ∨ c.w7 ≠ 0 then answer s c stBadCmd 0
  else match cmdRegion s c h with
    | none => answer s c stNoRegion h
    | some r =>
      match sfind s.records (slotKey r.ctx r.slot) with
      | none => answer s c stNoRegion h
      | some rec =>
        if r.stage ≠ .halted ∧ r.stage ≠ .parked then answer s c stNoRegion h
        else match resumeBinding s r c.w2 with
          | none => answer s c stMix h
          | some dies =>
            if !slotOk s r.ctx r.slot dies then answer s c stSave h
            else
              setReg s h
                { r with dies := dies, older := r.runCmds, cmd := some c.ref, stage := if r.stage = .halted then .cells else .leases, resume := rec.kind,
                         ep := r.prio, age := 0, waitT := s.tick, ageT := s.tick, rfwait := false, askT := none, asks := [], queue := c.queue }

/-- R425. RESUME. -/
def execResume (c : Cmd) (s : State) : Out := .next (resumeCmd (takeCmd s c) c)

-- Leases (R97, R441, R468) ---------------------------------------------------------------------------------------------------------

/-- The runs of consecutive numbers of a rising list: first and length. -/
def runsOf : List Nat → List (Nat × Nat)
  | [] => []
  | x :: l =>
    match runsOf l with
    | (y, n) :: rest => if y = x + 1 then (x, n + 1) :: rest else (x, 1) :: (y, n) :: rest
    | [] => [(x, 1)]

/-- The tiles of a lease that are ABSENT: residency faults. -/
def leaseFaults (s : State) (ctx : Nat) (l : Lease) : List Nat :=
  if l.peer.isSome then [] else (leaseTiles l).filter fun t => !isBoot ctx l.tens && decide (entState (entryOf s ctx l.tens t) = 0)

/-- A tile of a lease that has to wait: a ZERO lease on a migration, or a stratum that changes its role (R441). -/
def leaseWaits (s : State) (ctx : Nat) (l : Lease) : Bool :=
  l.peer.isNone && (leaseTiles l).any fun t =>
    let e := entryOf s ctx l.tens t
    (l.zero && decide (entState e = 2)) || roleHeld s e

/-- Posts a residency fault; a post that finds the buffer full waits (R442). -/
def postFault (s : State) (e : RfEntry) : State :=
  if s.rfbuf.length < 64 ∧ s.rfwaitq.isEmpty then { s with rfbuf := s.rfbuf ++ [e], rfgen := s.rfgen + 1 }
  else { s with rfwaitq := s.rfwaitq ++ [e] }

/-- One tile of a lease is pinned; a ZERO lease discards it (R97). None: its pins are full. -/
def pinOne (s : State) (ctx : Nat) (l : Lease) (t : Nat) : Option State :=
  let e := entryOf s ctx l.tens t
  if isBoot ctx l.tens then some s
  else if entPins e = 4095 then none
  else
    let s := if l.zero ∧ entState e = 1 then setEntry s ctx l.tens t (entSetState e 3) else s
    some (pinTile s ctx l.tens t true)

/-- Pins every local tile of the leases, or none. -/
def pinAll (s : State) (ctx : Nat) (ls : List Lease) : Option State :=
  ls.foldl
    (fun a l => if l.peer.isSome then a else (leaseTiles l).foldl (fun a t => a.bind fun s => pinOne s ctx l t) a) (some s)

/-- The connection over which the home of a lease on a peer tensor is reached, and the SEQ of the next message on it (R465). -/
def askConn (s : State) (ctx : Nat) (l : Lease) : Option (Nat × Nat) :=
  match peerOf s ctx l.tens with
  | none => none
  | some (p, _, _) => (linkTo s p).map fun j => (1000 + j, ((sfind s.conns (1000 + j)).getD {}).tx)

/-- Asks the home of the i-th lease of a region for its pins, where it is of a peer tensor (R468). -/
def askHome (s : State) (h i : Nat) (l : Lease) : State :=
  let r := regAt s h
  match l.peer, peerOf s r.ctx l.tens, askConn s r.ctx l with
  | some _, some (p, rt, rc), some (conn, seq) =>
    sendPin (setReg s h { r with asks := r.asks ++ [(i, conn, seq, 0)] }) p rc rt l.first l.count l.kind
  | _, _, _ => s

/-- Whether a region's leases can be acquired, or refused, now. -/
def leaseDue (s : State) (r : Region) : Bool :=
  decide (r.stage = .leases) && !r.rfwait && r.askT.isNone && !(r.leases.any (leaseWaits s r.ctx))

/-- R441. One attempt at a region's leases. -/
def acquire (s : State) (h : Nat) : State :=
  let r := regAt s h
  let faults := r.leases.flatMap fun l => (runsOf (leaseFaults s r.ctx l)).map fun p =>
    ({ tens := l.tens, ctx := r.ctx, kind := if l.zero then 1 else 0, first := p.1, count := p.2, handle := h } : RfEntry)
  if !faults.isEmpty then faults.foldl postFault (setReg s h { r with rfwait := true })
  else if r.leases.any fun l => l.peer.isSome && (askConn s r.ctx l).isNone then refuseRun s h stLease
  else match pinAll s r.ctx r.leases with
    | none => refuseRun s h stLease
    | some t =>
      let peers := r.leases.filter (·.peer.isSome)
      let t := setReg t h { r with pinned := true, stage := if peers.isEmpty then .cells else .leases,
                                   askT := if peers.isEmpty then none else some s.tick }
      r.leases.zipIdx.foldl (fun t p => askHome t h p.2 p.1) t

/-- Every home has granted what a region asked of it (R468). -/
def homesGrant (r : Region) : Bool := decide (r.stage = .leases) && r.askT.isSome && r.asks.all fun a => decide (a.2.2.2 = 1)

/-- R441, R468. LEASE_ACQUIRE: an attempt at the leases; or every home has granted the pins that it was asked for. -/
def execLeaseAcquire (h : Nat) (s : State) : Out :=
  .next
    (let r := regAt s h
     if homesGrant r then setReg s h { r with stage := .cells, askT := none }
     else if leaseDue s r then acquire s h else s)

/-- R468. A home's answer to a pin request: the request's connection and SEQ, and a status, 0 where it is granted. A refusal
completes the LAUNCH or RESUME with LEASE. -/
def homeAnswer (s : State) (conn seq status : Nat) : State :=
  match s.regions.find? fun p => p.2.asks.any fun a => decide (a.2.1 = conn ∧ a.2.2.1 = seq ∧ a.2.2.2 = 0) with
  | none => s
  | some (h, r) =>
    let s := setReg s h
      { r with asks := r.asks.map fun a =>
          if a.2.1 = conn ∧ a.2.2.1 = seq ∧ a.2.2.2 = 0 then (a.1, a.2.1, a.2.2.1, if status = 0 then 1 else 2) else a }
    if status ≠ 0 ∧ r.stage = .leases then refuseRun s h stLease else s

-- The region scheduler (R429 to R431) ------------------------------------------------------------------------------------------------

/-- The name of the cluster or stratum of a cell. -/
def clusterId (key : Nat) : Nat := if key < 2304 then slotOf key * 4 + clusOf key else 48 + (key - 2304) / 16

/-- The clusters and strata that a region touches (R31). -/
def clustersOf (r : Region) : List Nat := ((regCells r).map clusterId).eraseDups

/-- Two lists share an element. -/
def meets (a b : List Nat) : Bool := a.any b.contains

/-- The clusters, strata and channels that a region needs (R430); a channel is told from a cluster by 1,000. -/
def resOf (r : Region) : List Nat := clustersOf r ++ (chansOf r).map (1000 + ·)

/-- Places for logical dies that R20 accepts, the lowest-numbered first. -/
def rebind (s : State) : List RDie → List Nat → Option (List RDie)
  | [], _ => some []
  | d :: ds, used =>
    let entry (n : Nat) : Word := BitVec.ofNat 64 (n + (if d.cls = 3 then 32 * d.stk else 0))
    match (List.range 20).find? fun n => bindOne s d (entry n) && !used.contains (placeOfDie (bindDie d (entry n))) with
    | none => none
    | some n => (rebind s ds (placeOfDie (bindDie d (entry n)) :: used)).map (bindDie d (entry n) :: ·)

/-- The dies on which the scheduler may dispatch a region: those it is bound to; or, after it yielded for the scheduler, those
it last ran on if R20 accepts them still, and otherwise others that R20 accepts (R21, R431; log 81). -/
def bindable (s : State) (r : Region) : Option (List RDie) :=
  if !r.unbound then some r.dies
  else match bindAll s r.dies (tableOf r.dies) with
    | some l => some l
    | none => rebind s r.dies []

/-- The order of R430: higher EP, longer waiting, lower handle. -/
def waitBefore (a b : Region) : Bool :=
  decide (b.ep < a.ep) || (decide (a.ep = b.ep) && (decide (a.waitT < b.waitT) || (decide (a.waitT = b.waitT) && decide (a.handle < b.handle))))

/-- Inserts a waiting region. -/
def insWait (x : Region) : List Region → List Region
  | [] => [x]
  | y :: l => if waitBefore x y then x :: y :: l else y :: insWait x l

/-- The regions that wait for cells and have a binding, in order, on its dies. -/
def waiting (s : State) : List Region :=
  (((s.regions.map (·.2)).filter fun r => decide (r.stage = .cells)).filterMap fun r =>
    (bindable s r).map fun l => { r with dies := l }).foldr insWait []

/-- Whether a region's quantum has expired (R430). -/
def quantumOver (s : State) (r : Region) : Bool := decide (r.dispT + quantOf s r.ctx ≤ s.tick)

/-- R430. The region that the scheduler serves, with the regions that yield for it; `blocked` are the clusters and channels of
regions considered before, which wait. -/
def choose (s : State) : List Region → List Nat → Option (Nat × List Nat)
  | [], _ => none
  | w :: ws, blocked =>
    let need := resOf w
    let other := s.regions.any fun p => decide (p.1 ≠ w.handle) && p.2.reserved && meets need p.2.rsv
    if meets need blocked || other then choose s ws blocked
    else
      let xs := (s.regions.map (·.2)).filter fun x => x.holds && meets need (resOf x)
      if xs.isEmpty then some (w.handle, [])
      else if !w.reserved && xs.all (fun x => decide (x.ep < w.ep) || (decide (x.ep = w.ep) && quantumOver s x)) then
        some (w.handle, xs.map (·.handle))
      else choose s ws (blocked ++ need)

/-- The scheduler's next decision; while an ebb is due there is none (R483), and a dispatch waits for the swap of planes that are
loaded on its dies. -/
def schedule (s : State) : Option (Nat × List Nat) :=
  if s.ebbDue.isSome then none
  else match choose s (waiting s) [] with
    | some (h, []) => if planeBusy s (regAt s h) then none else some (h, [])
    | x => x

/-- The lowest region slot that is free on a site (R22). -/
def freeSlot (s : State) (h : Nat) (d : RDie) : Nat :=
  let used := s.regions.flatMap fun p =>
    if p.1 ≠ h ∧ p.2.holds then (p.2.dies.filter fun x => decide (placeOfDie x = placeOfDie d)).map (·.rslot) else []
  ((List.range 4).find? fun n => !used.contains n).getD 0

/-- R429, R430. A region holds its cells, clusters, slots and channels. -/
def takeCells (s : State) (h : Nat) : State :=
  let r := regAt s h
  let dies := ((bindable s r).getD r.dies).map fun d => { d with rslot := freeSlot s h d }
  let s := setReg s h { r with dies := dies, ep := r.prio, age := 0, dispT := s.tick, stage := .planes, reserved := false, rsv := [],
                               unbound := false, startF := some (boundaryAfter s 1) }
  let s := (regCells (regAt s h)).foldl (fun s k => setCell s k { cellAt s k with reg := h }) s
  pinSlot s h true

/-- R64 to R66, R430. A region is dispatched: its planes are loaded and verified, and swap at the next frame boundary; where they
fail the launch or resumption is refused. -/
def dispatch (s : State) (h : Nat) : State :=
  let (s, st) := loadPlanes (takeCells s h) h
  let r := regAt s h
  if st = stOk then setReg s h { r with psites := planeSites r } else refuseRun s h st

/-- One decision of the scheduler. -/
def schedStep (s : State) : State :=
  match schedule s with
  | none => s
  | some (h, []) => dispatch s h
  | some (h, xs) =>
    let t := xs.foldl askYield s
    let r := regAt t h
    setReg t h { r with reserved := true, rsv := resOf { r with dies := (bindable s r).getD r.dies } ++ xs.flatMap fun x => resOf (regAt s x) }

/-- R430. REGION_DISPATCH. -/
def execRegionDispatch (h : Nat) (s : State) : Out :=
  .next (if (schedule s).map (·.1) = some h then schedStep s else s)

/-- Whether a region ages now (R429). -/
def ageDue (s : State) (r : Region) : Bool :=
  (decide (r.stage = .leases) || decide (r.stage = .cells)) && decide (r.ageT + quantOf s r.ctx ≤ s.tick)

/-- R429. AGE_STEP. -/
def execAgeStep (h : Nat) (s : State) : Out :=
  .next
    (let r := regAt s h
     if !ageDue s r then s
     else
       let age := r.age + 1
       let t := r.ageT + Nat.max 1 (quantOf s r.ctx)
       if bits (preg s 0x20 0x3FF) 7 0 ≤ age then
         setReg s h { r with age := 0, ep := if r.ep < 14 then r.ep + 1 else r.ep, ageT := t }
       else setReg s h { r with age := age, ageT := t })

/-- R430. QUANTUM_EXPIRY of a running region: the scheduler decides again. -/
def execQuantumExpiry (h : Nat) (s : State) : Out :=
  .next (let r := regAt s h; if r.holds && quantumOver s r then schedStep s else s)

-- The planes swap (R30, R65, R66) ------------------------------------------------------------------------------------------------------

/-- A cell as the new region finds it: cleared when it passes to another context (R30), its sector buffer empty (R71). A gate
request that is pending on its stratum stands (R340). -/
def Cell.handOver (c : Cell) (ctx h ldie : Nat) : Cell :=
  let x := if c.ctx = some ctx then c else {}
  { x with ctx := some ctx, reg := h, ldie := ldie, sect := [], fifo := x.fifo.gateAs c.fifo }

/-- A stream of the plan at its base. -/
def ImgStream.start (x : ImgStream) (s : State) (r : Region) : Stream :=
  { mode := match x.mode with
      | 1 => .timed
      | 2 => .elastic
      | _ => .none,
    taskOnly := x.taskOnly, img := byteAfter s r.ctx r.image x.img, nword := x.nword, base := x.base, turns := x.turns, pc := 8 * x.base,
    last := s.per, begun := decide (x.mode ≠ 0) && !x.taskOnly }

/-- A cell of the plan with its queues, channels, slack table, contents and streams; no GROW or GRULE has faulted since the
launch (R311). -/
def ImgCell.load (x : ImgCell) (s : State) (r : Region) (c : Cell) : Cell :=
  let st (i : Nat) : Stream := (x.strs.getD i {}).start s r
  { c with
    feeds := x.feeds.zipIdx.foldl (fun m p => sset m p.2 p.1) [], chans := x.chans, slack := x.slack,
    stub := Config.trapStub r.image x.die x.row x.col,
    spad := x.init.foldl (fun m p => p.2.zipIdx.foldl (fun m b => sput 0 m (p.1 + b.2) b.1) m) c.spad,
    gs := { c.gs with flt := false }, ss := st 0, sl := st 1, sc := st 2, sw := st 3 }

/-- The cells of a launched region take the plan, as the active planes hold it. -/
def loadPlan (s : State) (h : Nat) : State :=
  let r := regAt s h
  r.plan.foldl
    (fun s x => match r.dies[x.die]? with
      | some d => let k := keyOn d x.row x.col; setCell s k ((planeCell (planeAt s d.site).active (secOf d) x).load s r (cellAt s k))
      | none => s) s

/-- The descriptors of a context, by tensor id (R190). -/
def ctxDescs (s : State) (ctx : Nat) : SMap Desc :=
  if tsOf s ctx = 0 then [] else (s.tens.filter fun p => decide (p.1 / 65536 = tsOf s ctx)).map fun p => (p.1 % 65536, p.2)

/-- Whether a region's planes swap now. -/
def swapDue (s : State) (r : Region) : Bool :=
  decide (r.stage = .planes) && match r.startF with
    | some f => decide (f ≤ s.per)
    | none => false

/-- R65, R66. PLANE_SWAP: the planes swap, and the streams begin, or the record of a resumption is restored. -/
def execPlaneSwap (h : Nat) (s : State) : Out :=
  .next
    (let r := regAt s h
     if !swapDue s r then s
     else
       let csl := preg s 0x20 (0x401 + 4 * r.ctx)
       let csav := preg s 0x20 (0x402 + 4 * r.ctx)
       let s := swapPlanes s h
       let s := r.dies.zipIdx.foldl
         (fun s p => (dieCells p.1).foldl (fun s k => setCell s k ((cellAt s k).handOver r.ctx h p.2)) s) s
       let s := setReg s h
         { r with startF := none, psites := [], descs := ctxDescs s r.ctx, maxslack := csl.extractLsb' 0 25, yielddl := csl.extractLsb' 32 32,
                  stallto := csav.extractLsb' 32 32, stage := .running }
       if r.resume = 0 then
         let s := loadPlan s h
         setReg s h { regAt s h with listed := r.plan.map fun x => x.die * 256 + x.row * 16 + x.col }
       else restore s h)

end Sys2Proof.Machine
end

