-- ==== Sys2Proof/Machine/Host.lean ====
section
/-! DEFINITION. The host: Claex transport (R412 to R416), command queues and their registers (R417 to R421), the other
commands and completions (R422 to R424, R428, R429), and queue switching. -/

namespace Sys2Proof.Machine

-- Connections (R412 to R416) ---------------------------------------------------------------------------------------------

/-- Connections 1000 to 1015 are the reach links: 1000 + j is link j (R464). -/
def isReach (conn : Nat) : Bool := decide (1000 ≤ conn ∧ conn < 1016)

/-- The sequence window of a generation (R414). -/
def seqWindow (gen : Nat) : Nat := if gen = 2 then 64 else 1024

/-- The largest MEMWR payload of a generation (R414). -/
def payloadMax (gen : Nat) : Nat := if gen = 1 then 1024 else 8192

/-- Keeps the messages that are not acknowledged; an acknowledgement of one is progress (R464). -/
def Conn.keep (c : Conn) (now : Nat) (f : OutMsg → Bool) : Conn :=
  let l := c.unack.filter f
  { c with unack := l, progT := if l.length < c.unack.length then now else c.progT }

/-- Messages that a cumulative ACK acknowledges leave the list of those kept. -/
def ackUpTo (c : Conn) (now ack : Nat) : Conn :=
  c.keep now fun m => decide ((m.seq + 2 ^ 32 - ack % 2 ^ 32) % 2 ^ 32 < 2 ^ 31)

/-- The whole RESP of a duplicate goes out again (R416). -/
def respAgain (s : State) (conn seq : Nat) : State :=
  match (connAt s conn).resps.find? fun p => decide (p.1 = seq) with
  | some p => { s with outputs := s.outputs ++ [{ p.2 with sentT := s.tick, ack := (connAt s conn).rx }] }
  | none => s

-- Queue registers (R417 to R421) ---------------------------------------------------------------------------------------------

/-- A queue that a connection owns (R417). -/
def ownQueue (s : State) (conn q : Nat) : Option HQueue :=
  match queueAt s q with
  | some x => if x.conn = conn then some x else none
  | none => none

/-- R420. More commands published than the ring holds. -/
def overrun (q : HQueue) : Bool := decide (2 ^ q.lg < (q.tail - q.cons).toNat)

/-- A tail write (R420, R421). -/
def putTail (s : State) (n : Nat) (q : HQueue) (v : Word) : State :=
  let q := { q with tail := v.setWidth 16 }
  if q.live then setQueue s n (if overrun q then { q with err := true, errc := 1 } else q)
  else
    let s := setQueue s n q
    if q.tail ≠ q.cons then postEvent s harbourCore 2 n 0 0 else s

/-- A QCTL write: STOP, and ERR cleared by 1 (R419). -/
def putCtl (s : State) (n : Nat) (q : HQueue) (v : Word) : State :=
  setQueue s n { q with stop := v.getLsbD 0, err := q.err && !v.getLsbD 8 }

/-- The value of a queue register (R419); a reserved one reads 0. -/
def queueReg (q : HQueue) (reg : Nat) : Word :=
  match reg with
  | 0 => q.tail.setWidth 64
  | 1 => BitVec.ofNat 64 (q.cons.toNat + q.dne.toNat * 2 ^ 16 + (if q.live then 0 else 2 ^ 63))
  | 2 => BitVec.ofNat 64 ((if q.stop then 1 else 0) + (if q.err then 2 ^ 8 else 0) + q.errc.toNat * 2 ^ 16)
  | _ => 0

/-- REGWR (R416, R419); in recovery mode STOP of queue 0 resets the package (R452). -/
def regWrHost (s : State) (m : HostHdr) (reg : Nat) (v : Word) : State :=
  let n := m.qnum.toNat
  let ans (s : State) (st : Nat) : State := sendResp s m.conn m.seq.toNat st 0 []
  if s.recovery then (if n = 0 ∧ reg = 2 ∧ v.getLsbD 0 then packageReset s else s)
  else match ownQueue s m.conn n with
    | none => ans s 2
    | some q =>
      match reg with
      | 0 => ans (putTail s n q v) 0
      | 1 => ans s 3
      | 2 => ans (putCtl s n q v) 0
      | _ => ans s 0

/-- REGRD (R416, R419). -/
def regRdHost (s : State) (m : HostHdr) (reg : Nat) : State :=
  if s.recovery then s
  else match ownQueue s m.conn m.qnum.toNat with
    | none => sendResp s m.conn m.seq.toNat 2 0 []
    | some q => sendResp s m.conn m.seq.toNat 0 (queueReg q reg) []

/-- The context of a MEMWR or MEMRD: that of its queue, or none where the queue is absent; in recovery mode, which names the
boot store alone, the management context, and anything else is dropped (R414, R452). -/
def memCtx (s : State) (m : HostHdr) (a : Word) : Option (Option Nat) :=
  if s.recovery then (if tidOf a = 0xFFFE then some (some 255) else none)
  else some ((ownQueue s m.conn m.qnum.toNat).map (·.ctx))

/-- R485. The host writes a boot slot only where it is not preferred; elsewhere the access is refused. -/
def bootRefused (s : State) (ctx : Nat) (a : Word) (n : Nat) : Bool :=
  isBoot ctx (tidOf a) && !((List.range n).all fun i => bootWritable s (bootDesc.locate (idxOf a + i)).1)

/-- MEMWR (R414, R416, R440). -/
def memWrHost (s : State) (m : HostHdr) (a : Word) (bs : List Byte) : State :=
  let ans (s : State) (st : Nat) : State := sendResp s m.conn m.seq.toNat st 0 []
  match memCtx s m a with
  | none => s
  | some none => ans s 2
  | some (some ctx) =>
    if payloadMax (connAt s m.conn).gen < 8 + bs.length then ans s 7
    else if hostRange s ctx a bs.length ≠ 0 then ans s (hostRange s ctx a bs.length)
    else if bootRefused s ctx a bs.length then ans s 4
    else ans (hostCount (hostWrite s ctx a bs) ctx a bs.length) 0

/-- MEMRD (R414, R416, R440). -/
def memRdHost (s : State) (m : HostHdr) (a count : Word) : State :=
  let n := bits count 31 0
  let ans (st : Nat) : State := sendResp s m.conn m.seq.toNat st 0 []
  match memCtx s m a with
  | none => s
  | some none => ans 2
  | some (some ctx) =>
    if bits count 63 32 ≠ 0 then ans 4
    else if payloadMax (connAt s m.conn).gen < n then ans 7
    else if hostRange s ctx a n ≠ 0 then ans (hostRange s ctx a n)
    else sendResp (hostCount s ctx a n) m.conn m.seq.toNat 0 0 (hostRead s ctx a n)

-- HELLO (R412, R414, R416) ------------------------------------------------------------------------------------------------------

/-- Sends a message outside a connection's sequence. -/
def sendBare (s : State) (conn gen typ : Nat) (data : List Word) : State :=
  { s with outputs := s.outputs ++ [{ conn := conn, gen := gen, seq := 0, typ := typ, data := data, sentT := s.tick }] }

/-- R412, R413. Something that arrives is dropped and counted in telemetry. -/
def dropCount (s : State) (conn : Nat) : State :=
  let (k, s) := freeNum s
  { s with outputs := s.outputs ++ [{ conn := 2000, seq := conn, typ := 103, data := [Config.telemetryRecord k], sentT := s.tick }] }

/-- Queue 0 is the administration queue of the host's first connection (R417); where its rings lie is free (log 6). -/
def adminQueue (s : State) (conn : Nat) : State :=
  if (queueAt s 0).isSome then s
  else { s with queues := sset s.queues 0 { ctx := 255, ring := Config.adminRing, lg := 4 + Config.adminLg % 12, conn := conn,
                                            cring := Config.adminCring } }

/-- HELLO of a host. -/
def helloHost (s : State) (conn gen seq : Nat) (w0 w1 : Word) : State :=
  let lo := Nat.max 1 (bits w0 3 0)
  let hi := Nat.min 3 (bits w0 7 4)
  let bare (st : Nat) : State := sendBare s conn gen tResp [BitVec.ofNat 64 (seq + st * 2 ^ 32), 0]
  if bits w0 63 8 ≠ 0 ∨ bits w1 63 32 ≠ 0 then dropCount s conn
  else if (sfind s.conns conn).isNone ∧ 64 ≤ (s.conns.filter fun p => !isReach p.1).length then bare 1
  else if hi < lo then bare 6
  else
    let s := setConn s conn { gen := hi, rx := bits w1 31 0 }
    let s := if s.recovery then s else adminQueue s conn
    sendHost s conn tHello 0 [BitVec.ofNat 64 (hi + hi * 16), BitVec.ofNat 64 ((connAt s conn).tx + 1)] []

/-- HELLO of another package on reach link j: the link's own HELLO goes out if it has not, and the link comes up (R416, R464). On a
connection that there is, the HELLO starts the receipt anew, acknowledges what its header says, and is acknowledged. -/
def helloReach (s : State) (j : Nat) (ack : Nat) (w0 w1 : Word) : State :=
  let site := 0x20 + j / 4
  if 16 ≤ j ∨ bits w0 7 0 ≠ 0x33 ∨ !w0.getLsbD 8 ∨ bits w0 15 9 ≠ 0 ∨ bits w0 63 36 ≠ 0 ∨ bits w1 63 32 ≠ 0
      ∨ !(preg s site (0x80 + j % 4)).getLsbD 1 ∨ pkgOwn s = 0xFFFF then dropCount s (1000 + j)
  else
    let s := match sfind s.conns (1000 + j) with
      | some c => 
        if c.dead then reachHello s j { gen := 3, rx := bits w1 31 0 }
        else
          let c := ackUpTo c s.tick ack
          setConn s (1000 + j) { c with rx := bits w1 31 0, held := [], resps := [], ackT := some (c.ackT.getD s.tick) }
      | none => reachHello s j { gen := 3, rx := bits w1 31 0 }
    linkUp s j (bits w0 31 16) (bits w0 35 32)

/-- A HELLO (R416). -/
def helloMsg (s : State) (m : HostHdr) (w0 w1 : Word) : State :=
  if isReach m.conn then helloReach s (m.conn - 1000) m.ack.toNat w0 w1 else helloHost s m.conn m.gen.toNat m.seq.toNat w0 w1

-- Receipt (R413 to R416, R486) ----------------------------------------------------------------------------------------------------

/-- A message is applied. -/
def applyHost (s : State) (m : HostMsg) : State :=
  match m.ask with
  | .regwr reg v => regWrHost s m.hdr reg v
  | .regrd reg => regRdHost s m.hdr reg
  | .memwr ta bs => memWrHost s m.hdr ta bs
  | .memrd ta n => memRdHost s m.hdr ta n
  | .hello _ _ | .ack _ | .other => s

/-- Messages received out of order that are now in order (R415); of one that generation 1 received more than once, every copy is
applied (R414). -/
def applyHeld (conn : Nat) : Nat → State → State
  | 0, s => s
  | n + 1, s =>
    match sfind s.conns conn with
    | none => s
    | some c =>
      match c.held.find? fun m => decide (m.hdr.seq.toNat = c.rx) with
      | none => s
      | some m =>
        let (now, left) := c.held.partition fun x => decide (x.hdr.seq = m.hdr.seq)
        applyHeld conn n (now.foldl applyHost (setConn s conn { c with rx := (c.rx + 1) % 2 ^ 32, held := left }))

/-- A sequenced message: in order; early, and held until the messages before it have come; or a duplicate, which generation 1
applies again (R414 to R416; log 83). -/
def recvSeq (s : State) (c : Conn) (m : HostMsg) : State :=
  let conn := m.hdr.conn
  let seq := m.hdr.seq.toNat
  let ahead := (seq + 2 ^ 32 - c.rx) % 2 ^ 32
  let behind := (c.rx + 2 ^ 32 - seq) % 2 ^ 32
  let c := if c.gen = 1 then c else { c with ackT := some (c.ackT.getD s.tick) }
  if ahead = 0 then
    applyHeld conn c.held.length (applyHost (setConn s conn { c with rx := (c.rx + 1) % 2 ^ 32 }) m)
  else if c.gen = 1 then
    if ahead < 2 ^ 31 then setConn s conn { c with held := c.held ++ [m] } else applyHost s m
  else if ahead < seqWindow c.gen then
    setConn s conn { c with held := if c.held.any (fun x => decide (x.hdr.seq = m.hdr.seq)) then c.held else c.held ++ [m] }
  else if behind ≤ seqWindow c.gen then sendHost (respAgain (setConn s conn c) conn seq) conn tAck 0 [] []
  else s

/-- ACK: cumulative, and the selective bitmap of generation 3 (R416). -/
def recvAck (s : State) (c : Conn) (m : HostHdr) (bitmap : List Bool) : State :=
  let c := ackUpTo c s.tick m.ack.toNat
  let got (q : Nat) : Bool := m.flags == 1 && bitmap.getD ((q + 2 ^ 32 - (m.ack.toNat + 1)) % 2 ^ 32) false
  setConn s m.conn (if c.gen = 3 then c.keep s.tick fun x => !got x.seq else c)

/-- Bytes that a message takes in the receive buffer of R486. -/
def HostMsg.size (m : HostMsg) : Nat :=
  16 + match m.ask with
    | .memwr _ bs => 8 + (bs.length + 7) / 8 * 8
    | .memrd _ _ | .hello _ _ => 16
    | .regwr _ _ => 8
    | .regrd _ | .other => 0
    | .ack l => l.length / 8

/-- The header's bits that must be 0 are: FLAGS shows a selective bitmap on an ACK of generation 3 alone (R413, R416). -/
def HostMsg.zeros (m : HostMsg) : Bool :=
  decide (m.hdr.mbz = 0) && (decide (m.hdr.flags = 0) || match m.ask with
    | .ack _ => decide (m.hdr.flags = 1 ∧ m.hdr.gen = 3)
    | _ => false)

/-- A message after its checks: HELLO and ACK at once, the others in sequence; one whose generation was not agreed, or whose
reserved bits are not 0, is dropped and counted (R413). -/
def recvNow (s : State) (m : HostMsg) : State :=
  if !m.zeros then dropCount s m.hdr.conn
  else match m.ask with
  | .hello w0 w1 => if 1 ≤ m.hdr.gen.toNat ∧ m.hdr.gen.toNat ≤ 3 then helloMsg s m.hdr w0 w1 else dropCount s m.hdr.conn
  | _ =>
    match sfind s.conns m.hdr.conn with
    | none => dropCount s m.hdr.conn
    | some c =>
      if c.gen ≠ m.hdr.gen.toNat then dropCount s m.hdr.conn
      else match m.ask with
        | .ack l => if c.gen = 1 then s else recvAck s c m.hdr l
        | _ => recvSeq s (if c.gen = 1 then c else ackUpTo c s.tick m.hdr.ack.toNat) m

/-- A Claex message reaches S0; while cores 0 to 6 restart it is held, and dropped when the buffer is full (R486). -/
def recvHost (s : State) (m : HostMsg) : State :=
  if s.boot then s
  else if s.rstT.isSome then
    if (s.rxhold.foldl (fun n x => n + x.size) 0) + m.size ≤ 262144 then { s with rxhold := s.rxhold ++ [m] } else s
  else recvNow s m

/-- R486. The restart of cores 0 to 6 is over: they start from the slot taken, and the held messages are applied. -/
def restartEnd (s : State) : State :=
  let s := match bootPick s 2 with
    | some i => (List.range 7).foldl (fun s n => startCore s n i) s
    | none => s
  let s := s.rxhold.foldl recvNow { s with rstT := none, rxhold := [] }
  { s with ids := s.ids.filter fun p => (sfind s.conns p.2).isSome }

/-- R414, R416. HELLO. -/
def execHello (m : HostHdr) (w0 w1 : Word) (s : State) : Out := .next (recvHost s { hdr := m, ask := .hello w0 w1 })

/-- R420, R421. REGWR to QTAIL. -/
def execRegwrQtail (m : HostHdr) (v : Word) (s : State) : Out := .next (recvHost s { hdr := m, ask := .regwr 0 v })

/-- R419. REGWR to QCTL, whose STOP is set or cleared. -/
def execRegwrQctlStop (m : HostHdr) (v : Word) (s : State) : Out := .next (recvHost s { hdr := m, ask := .regwr 2 v })

/-- R419. REGWR to QCTL, whose ERR is cleared by 1. -/
def execRegwrQctlErr (m : HostHdr) (v : Word) (s : State) : Out := .next (recvHost s { hdr := m, ask := .regwr 2 v })

/-- R419. REGWR to QPROG is ignored and answered RO. -/
def execRegwrQprog (m : HostHdr) (v : Word) (s : State) : Out := .next (recvHost s { hdr := m, ask := .regwr 1 v })

/-- R416. REGRD. -/
def execRegrd (m : HostHdr) (reg : BitVec 8) (s : State) : Out := .next (recvHost s { hdr := m, ask := .regrd reg.toNat })

/-- R416. MEMWR. -/
def execMemwr (m : HostHdr) (taddr : Word) (data : List Byte) (s : State) : Out :=
  .next (recvHost s { hdr := m, ask := .memwr taddr data })

/-- R416. MEMRD. -/
def execMemrd (m : HostHdr) (taddr : Word) (count : Word) (s : State) : Out :=
  .next (recvHost s { hdr := m, ask := .memrd taddr count })

/-- R416. ACK. -/
def execAck (m : HostHdr) (bitmap : List Bool) (s : State) : Out := .next (recvHost s { hdr := m, ask := .ack bitmap })

/-- R416. RESP: the device answers one request of a host; on a reach link, the home answers a pin request of the device (R468, log
65). -/
def execResp (conn : Nat) (rseq : BitVec 32) (status : BitVec 8) (value : Word) (s : State) : Out :=
  .next
    (if isReach conn then homeAnswer s conn rseq.toNat status.toNat else sendResp s conn rseq.toNat status.toNat value [])

/-- R416, R423. EVENT: a completion entry goes to the connection that owns the queue. -/
def execEvent (queue : Nat) (w0 w1 : Word) (s : State) : Out :=
  .next
    (match queueAt s queue with
      | some q => sendHost s q.conn tEvent queue [BitVec.ofNat 64 queue, w0, w1] []
      | none => s)

/-- Whether a receipt of a connection is to be acknowledged now (R416). -/
def ackDue (s : State) (c : Conn) : Bool :=
  match c.ackT with
  | some t => decide (t + 10000 ≤ s.tick)
  | none => false

/-- R416. ACK_TIMER. -/
def execAckTimer (conn : Nat) (s : State) : Out :=
  .next
    (match sfind s.conns conn with
      | some c => if ackDue s c then sendHost s conn tAck 0 [] [] else s
      | none => s)

/-- A frame that is sent again on a reach link counts in RLSTAT's RETX (R465). -/
def countRetx (s : State) (conn : Nat) : State :=
  if !isReach conn then s
  else
    let j := conn - 1000
    let w := preg s (0x20 + j / 4) (0x80 + j % 4)
    setPreg s (0x20 + j / 4) (0x80 + j % 4) (putBits w 55 48 (Nat.min 255 (bits w 55 48 + 1)))

/-- The first message of a connection that is to be sent again (R416). -/
def resendDue (s : State) (c : Conn) : Option OutMsg := c.unack.find? fun m => decide (m.sentT + 100000 ≤ s.tick)

/-- R416. MESSAGE_RESEND. -/
def execMessageResend (conn : Nat) (seq : BitVec 32) (s : State) : Out :=
  .next
    (match sfind s.conns conn with
      | none => s
      | some c =>
        match c.unack.find? fun m => decide (m.seq = seq.toNat) && decide (m.sentT + 100000 ≤ s.tick) with
        | none => s
        | some m =>
          let x := { m with sentT := s.tick, ack := c.rx }
          countRetx
            { setConn s conn { c with ackT := none, unack := c.unack.map fun y => if y.seq = m.seq then x else y } with
              outputs := s.outputs ++ [x] } conn)

-- Frames (R412, R413) --------------------------------------------------------------------------------------------------------------

/-- A message of a frame: its header's words and its payload. -/
structure RawMsg where
  w0 : Word
  w1 : Word
  body : List Byte
deriving DecidableEq, Repr

/-- The messages of a frame: each a header of 16 bytes and LEN bytes of payload, padded to a multiple of 8 (R413). -/
def rawMsgs : Nat → List Byte → List RawMsg
  | 0, _ => []
  | n + 1, bs =>
    if bs.length < 16 then []
    else
      let w := wordsOf 2 bs
      let len := bits (w.headD 0) 31 16
      { w0 := w.headD 0, w1 := w.getD 1 0, body := (bs.drop 16).take len } :: rawMsgs n (bs.drop (16 + (len + 7) / 8 * 8))

/-- The header of a message on a connection. -/
def RawMsg.hdr (r : RawMsg) (conn : Nat) : HostHdr :=
  { conn := conn, gen := r.w0.extractLsb' 0 4, seq := r.w0.extractLsb' 32 32, ack := r.w1.extractLsb' 0 32, qnum := r.w1.extractLsb' 32 16,
    flags := r.w0.extractLsb' 8 8, mbz := r.w1.extractLsb' 56 8 }

/-- What a message asks, by its TYPE (R413, R416); none for a reserved TYPE, or for a payload whose length is not that of the
type (log 83). -/
def RawMsg.ask (r : RawMsg) : Option HostAsk :=
  let len := bits r.w0 31 16
  let w := wordsOf 2 r.body
  if r.body.length ≠ len then none
  else match bits r.w0 7 4 with
    | 0 => if len = 16 then some (.hello (w.headD 0) (w.getD 1 0)) else none
    | 1 => if len = 8 then some (.regwr (bits r.w1 55 48) (w.headD 0)) else none
    | 2 => if len = 0 then some (.regrd (bits r.w1 55 48)) else none
    | 3 | 6 => some .other
    | 4 => if 8 ≤ len then some (.memwr (w.headD 0) (r.body.drop 8)) else none
    | 5 => if len = 16 then some (.memrd (w.headD 0) (w.getD 1 0)) else none
    | 7 =>
      if len = (if r.w0.getLsbD 8 then 128 else 0) then
        some (.ack (r.body.flatMap fun b => (List.range 8).map fun i => b.getLsbD i))
      else none
    | _ => none

/-- The number of a connection that a frame's source identifies: the one it has, or the lowest free one (R412). -/
def connNum (s : State) (id : ConnId) : Nat :=
  match s.ids.find? fun p => decide (p.1 = id) with
  | some p => p.2
  | none =>
    let free (n : Nat) : Bool := (sfind s.conns n).isNone && !(s.ids.any fun p => decide (p.2 = n))
    match (List.range 1000).find? free with
    | some n => n
    | none => 3000 + (((List.range 60000).find? fun i => free (3000 + i)).getD 0)

/-- Messages that one frame may carry under a generation (R414). -/
def perFrame (gen : Nat) : Nat := if gen = 1 then 1 else 32

/-- The messages of a frame reach S0, in order; what no rule lets in is dropped and counted. A source whose messages are held (R486)
keeps its number until they have been applied. -/
def recvFrame (s : State) (id : ConnId) (data : List Byte) : State :=
  let n := connNum s id
  let s := (rawMsgs (data.length / 16 + 1) data).zipIdx.foldl
    (fun s r =>
      match r.1.ask with
      | some a => if r.2 < perFrame (bits r.1.w0 3 0) then recvHost s { hdr := r.1.hdr n, ask := a } else dropCount s n
      | none => dropCount s n) s
  if ((sfind s.conns n).isSome || s.rxhold.any fun m => decide (m.hdr.conn = n)) && !(s.ids.any fun p => decide (p.1 = id)) then
    { s with ids := s.ids ++ [(id, n)] }
  else s

/-- R412, R413. CLAEX_FRAME_DROP: a frame at the host port. One whose check sequence is bad the MAC drops; one that is too long,
of another EtherType, of IPv4 or for another UDP port is dropped and counted; of any other the messages are received, and those
of a reserved TYPE or a generation that was not agreed are dropped and counted. -/
def execClaexFrameDrop (f : Frame) (s : State) : Out :=
  .next
    (if s.boot || !f.good then s
     else if 9216 < f.len then dropCount s 0
     else match f.encap with
       | .ether t src => if t = 0x9A4C then recvFrame s (.mac src) f.data else dropCount s 0
       | .udp6 p src sp => if p = 41812 then recvFrame s (.udp src sp) f.data else dropCount s 0
       | .ipv4 => dropCount s 0)

-- Consumption (R420) ---------------------------------------------------------------------------------------------------------------

/-- Whether a queue's next command can be consumed. -/
def consumeDue (q : HQueue) : Bool :=
  q.live && decide (q.tail ≠ q.cons) && !q.stop && !q.err && decide ((q.cons - q.dne).toNat < 2 ^ q.lg)

/-- The opcodes of Table 7 of chapter 20. -/
def knownOpc (n : Nat) : Bool := decide (n ≤ 6) || decide (0x10 ≤ n ∧ n ≤ 0x13)

/-- R420. COMMAND_CONSUME: a ring that cannot be read is a queue error; an opcode that is not in the table completes with
BADCMD. -/
def execCommandConsume (queue : Nat) (s : State) : Out :=
  .next
    (match queueAt s queue with
      | none => s
      | some q =>
        if !consumeDue q then s
        else
          let a := byteAfter s q.ctx q.ring (64 * (q.cons.toNat % 2 ^ q.lg))
          if hostRange s q.ctx a 64 ≠ 0 then setQueue s queue { q with err := true, errc := 2 }
          else
            let w := wordsOf 8 (hostRead s q.ctx a 64)
            let s := hostCount s q.ctx a 64
            let g (i : Nat) : Word := w.getD i 0
            let c : Cmd := { queue := queue, w0 := g 0, w1 := g 1, w2 := g 2, w3 := g 3, w4 := g 4, w5 := g 5, w6 := g 6, w7 := g 7 }
            let s := setQueue s queue { q with cons := q.cons + 1 }
            if knownOpc c.opc then { s with cmds := s.cmds ++ [c] } else answer s c stBadCmd 0)

-- Commands (R422 to R425, R428, R429) -------------------------------------------------------------------------------------------------

/-- R422. NOP completes at its consumption. -/
def execNopCommand (c : Cmd) (s : State) : Out :=
  .next (answer (takeCmd s c) c (if c.headOk && c.zerosFrom 1 then stOk else stBadCmd) 0)

/-- A command on a region named by w1. -/
def regionCmd (s : State) (c : Cmd) (good : Bool) (f : State → Nat → Region → State) : State :=
  let h := bits c.w1 15 0
  if !(c.headOk && good) then answer s c stBadCmd 0
  else match cmdRegion s c h with
    | none => answer s c stNoRegion h
    | some r => f s h r

/-- R424. END. -/
def endCmd (s : State) (c : Cmd) : State :=
  regionCmd s c (decide (bits c.w1 63 16 = 0) && c.zerosFrom 2) fun s h r =>
    if r.endCmd.isSome then answer s c stNoRegion h
    else
      let s := setReg s h { r with endCmd := some c.ref, ending := true }
      match r.stage with
      | .running => raiseHalt s h none
      | .stubs | .rebuild => s
      | _ => endRegion s h

/-- R424. END. -/
def execEndCommand (c : Cmd) (s : State) : Out := .next (endCmd (takeCmd s c) c)

/-- R422, R431, R432. YIELD of a region that holds cells. -/
def yieldCmd (s : State) (c : Cmd) : State :=
  regionCmd s c (decide (bits c.w1 63 16 = 0) && c.zerosFrom 2) fun s h r =>
    if !r.holds || r.yieldCmd.isSome || r.ending then answer s c stNoRegion h
    else askYield (setReg s h { r with yieldCmd := some c.ref }) h

/-- R422. YIELD. -/
def execYield (c : Cmd) (s : State) : Out := .next (yieldCmd (takeCmd s c) c)

/-- R364, R422. DEBUG: the request is on its way to the cell's die. -/
def debugCmd (s : State) (c : Cmd) : State :=
  regionCmd s c (decide (bits c.w1 63 16 = 0 ∧ bits c.w2 63 13 = 0) && c.zerosFrom 3) fun s h r =>
    let d := bits c.w2 4 0
    let row := bits c.w2 8 5
    let col := bits c.w2 12 9
    match r.dies[d]? with
    | some x => if inDie x row col 1 1 then setReg s h { r with debugs := r.debugs ++ [(c.ref, d, row, col)] } else answer s c stBadCmd h
    | none => answer s c stBadCmd h

/-- R422. DEBUG. -/
def execDebug (c : Cmd) (s : State) : Out := .next (debugCmd (takeCmd s c) c)

/-- R429. PRIO. -/
def prioCmd (s : State) (c : Cmd) : State :=
  regionCmd s c (decide (bits c.w1 63 20 = 0) && c.zerosFrom 2) fun s h r =>
    let p := bits c.w1 19 16
    if p = 15 ∨ maxPrio s r.ctx < p then answer s c stPrio h
    else
      let ep := match r.stage with
        | .leases | .cells => Nat.max r.ep p
        | .halted | .parked => r.ep
        | _ => p
      answer (setReg s h { r with prio := p, ep := ep }) c stOk h

/-- R429. PRIO. -/
def execPrio (c : Cmd) (s : State) : Out := .next (prioCmd (takeCmd s c) c)

/-- The queues that are switched in (R418). -/
def liveQueues (s : State) : Nat := (s.queues.filter fun p => p.2.live).length

/-- R418, R422. QCREATE. -/
def qcreateCmd (s : State) (c : Cmd) : State :=
  let n := bits c.w2 15 0
  let ctx := bits c.w2 31 16
  let lg := bits c.w4 4 0
  if !c.headOk ∨ c.queue ≠ 0 ∨ bits c.w2 63 36 ≠ 0 ∨ bits c.w4 15 5 ≠ 0 ∨ bits c.w4 63 32 ≠ 0 ∨ c.w6 ≠ 0 ∨ c.w7 ≠ 0 ∨ n = 0 ∨ 4095 < n
      ∨ (queueAt s n).isSome ∨ lg < 4 ∨ 15 < lg ∨ bits c.w2 35 32 = 15 ∨ (sfind s.conns (bits c.w4 31 16)).isNone then answer s c stBadCmd 0
  else if !s.ctxs.contains ctx then answer s c stCtx 0
  else
    let q : HQueue :=
      { ctx := ctx, prio := bits c.w2 35 32, ring := c.w3, lg := lg, conn := bits c.w4 31 16, cring := c.w5, desc := c.w1,
        live := decide (liveQueues s < 64) }
    let s := hostPut s ctx c.w1 ((toBytes 8 c.w2.toNat) ++ (toBytes 8 c.w3.toNat) ++ (toBytes 8 c.w4.toNat) ++ (toBytes 8 c.w5.toNat)
      ++ List.replicate 32 0)
    answer (setQueue s n q) c stOk 0

/-- R422. QCREATE. -/
def execQcreate (c : Cmd) (s : State) : Out := .next (qcreateCmd (takeCmd s c) c)

/-- R417, R422. QDESTROY waits until the queue is empty and its regions have completed. -/
def qdestroyCmd (s : State) (c : Cmd) : State :=
  let n := bits c.w1 11 0
  if !c.headOk ∨ c.queue ≠ 0 ∨ bits c.w1 63 12 ≠ 0 ∨ !c.zerosFrom 2 ∨ n = 0 then answer s c stBadCmd 0
  else match queueAt s n with
    | none => answer s c stBadCmd 0
    | some q => if q.dying.isSome then answer s c stBadCmd 0 else setQueue s n { q with dying := some c.ref }

/-- R422. QDESTROY. -/
def execQdestroy (c : Cmd) (s : State) : Out := .next (qdestroyCmd (takeCmd s c) c)

/-- Whether a queue that is to be destroyed is empty and its regions have completed. -/
def queueGone (s : State) (n : Nat) (q : HQueue) : Bool :=
  q.dying.isSome && decide (q.tail = q.cons) && !(s.cmds.any fun c => decide (c.queue = n)) && !(s.regions.any fun p => decide (p.2.queue = n) || p.2.runCmds.any fun c => decide (c.queue = n))

/-- The end of a QDESTROY. -/
def destroyQueue (s : State) (n : Nat) : State :=
  match queueAt s n with
  | none => s
  | some q => if queueGone s n q then completeOpt { s with queues := sdel s.queues n } q.dying stOk 0 0 0 0 else s

/-- R427, R428, R436. The register values of a CCREATE are in range. -/
def ctxFieldsOk (csq csl csav ctbl : Word) : Bool :=
  decide (1000 ≤ bits csq 26 0 ∧ bits csq 26 0 ≤ 100000000 ∧ bits csq 27 27 = 0 ∧ bits csq 31 28 ≤ 14 ∧ bits csq 63 32 = 0)
    && decide (1 ≤ bits csl 24 0 ∧ bits csl 24 0 ≤ 2 ^ 24 ∧ bits csl 31 25 = 0 ∧ 1 ≤ bits csl 63 32)
    && decide (20 ≤ bits csav 20 16 ∧ bits csav 20 16 ≤ 32 ∧ bits csav 31 21 ≤ 2047)
    && decide (1 ≤ bits ctbl 31 16 ∧ bits ctbl 63 32 = 0)

/-- R428. CCREATE. -/
def ccreateCmd (s : State) (c : Cmd) : State :=
  let n := bits c.w1 7 0
  if !c.headOk ∨ c.queue ≠ 0 ∨ bits c.w1 63 8 ≠ 0 ∨ c.w6 ≠ 0 ∨ c.w7 ≠ 0 then answer s c stBadCmd 0
  else if s.ctxs.contains n ∨ !ctxFieldsOk c.w2 c.w3 c.w4 c.w5 then answer s c stCtx 0
  else
    let s := setPreg (setPreg (setPreg (setPreg s 0x20 (0x400 + 4 * n) c.w2) 0x20 (0x401 + 4 * n) c.w3) 0x20 (0x402 + 4 * n) c.w4) 0x20
      (0x403 + 4 * n) c.w5
    answer { s with ctxs := s.ctxs ++ [n] } c stOk 0

/-- R422. CCREATE. -/
def execCcreate (c : Cmd) (s : State) : Out := .next (ccreateCmd (takeCmd s c) c)

/-- R428. CDESTROY. -/
def cdestroyCmd (s : State) (c : Cmd) : State :=
  let n := bits c.w1 7 0
  if !c.headOk ∨ c.queue ≠ 0 ∨ bits c.w1 63 8 ≠ 0 ∨ !c.zerosFrom 2 then answer s c stBadCmd 0
  else if n = 255 ∨ !s.ctxs.contains n ∨ s.queues.any (fun p => decide (p.2.ctx = n)) ∨ ctxLive s n then answer s c stCtx 0
  else
    let s := (List.range 4).foldl (fun s i => setPreg s 0x20 (0x400 + 4 * n + i) (pregDefault 0x20 (0x400 + 4 * n + i))) s
    answer { s with ctxs := s.ctxs.filter (· ≠ n) } c stOk 0

/-- R422. CDESTROY. -/
def execCdestroy (c : Cmd) (s : State) : Out := .next (cdestroyCmd (takeCmd s c) c)

-- Switching queues (R418, R421, R486) --------------------------------------------------------------------------------------------------

/-- R418. QUEUE_SWITCH_IN: the slot is loaded from word 4 of the descriptor. -/
def execQueueSwitchIn (queue : Nat) (s : State) : Out :=
  .next
    (match queueAt s queue with
      | none => s
      | some q =>
        if q.live ∨ 64 ≤ liveQueues s ∨ s.rstT.isSome then s
        else
          let a := byteAfter s q.ctx q.desc 32
          let w := if hostRange s q.ctx a 8 = 0 then (wordsOf 1 (hostRead s q.ctx a 8)).headD 0 else queueWord4 q
          let x := { q with live := true, tail := w.extractLsb' 0 16, cons := w.extractLsb' 16 16, dne := w.extractLsb' 32 16,
                            err := w.getLsbD 48, errc := w.extractLsb' 49 8 }
          setQueue s queue (if overrun x then { x with err := true, errc := 1 } else x))

/-- R418. QUEUE_SWITCH_OUT; queue 0 always stays switched in (R417). -/
def execQueueSwitchOut (queue : Nat) (s : State) : Out :=
  .next
    (match queueAt s queue with
      | none => s
      | some q => if queue = 0 ∨ !q.live ∨ s.rstT.isSome then s else setQueue s queue { q with live := false })

end Sys2Proof.Machine
end

