-- ==== Sys2Proof/Machine/Fleet.lean ====
section
/-! DEFINITION. The fleet's side of the package (R478 to R484, R490): walk limits and ebbs; and the words that name no
instruction (R175). -/

namespace Sys2Proof.Machine

-- Walk limits (R479 to R481) ---------------------------------------------------------------------------------------------

/-- 90, 95 and 100 °C as readings. -/
def t90 : Nat := 520
def t95 : Nat := 540
def t100 : Nat := 560

/-- The walk limit after a good reading (R479, Table 2): 0 FULL, 1 HALF, 2 QUARTER. -/
def wlimNext (wlim r above below : Nat) : Nat :=
  match wlim with
  | 0 => if t95 < r then 1 else 0
  | 1 => if t100 < r ∨ 100 ≤ above then 2 else if 10 ≤ below then 0 else 1
  | _ => if r ≤ t95 then 1 else 2

/-- One stack's evaluation (R479, R480). -/
def wlimOne (x : Hbt) (now : Nat) (t : Option (BitVec 10)) : Hbt :=
  match t.filter fun r => !outOfRange r with
  | some r =>
    let above := if t95 < r.toNat then x.above + 1 else 0
    let below := if r.toNat ≤ t90 then x.below + 1 else 0
    { x with temp := r, susp := false, above := above, below := below, noread := 0, wlim := wlimNext x.wlim r.toNat above below,
             evT := some now }
  | none =>
    { x with susp := true, above := 0, below := 0, noread := x.noread + 1, wlim := if 3 ≤ x.noread + 1 then 2 else x.wlim,
             evT := some now }

/-- R479. WLIM_EVALUATION of a cliff base, once every 100,000 ticks. -/
def execWlimEvaluation (base : Nat) (t0 t1 : Option (BitVec 10)) (s : State) : Out :=
  .next
    (let one (s : State) (k : Nat) (t : Option (BitVec 10)) : State :=
       let x := sget {} s.hbt (2 * base + k)
       if x.evT.all (fun e => decide (e + 100000 ≤ s.tick)) then { s with hbt := sset s.hbt (2 * base + k) (wlimOne x s.tick t) } else s
     if 8 ≤ base then s else one (one s 0 t0) 1 t1)

-- Ebbs (R483) ----------------------------------------------------------------------------------------------------------------

/-- Whether an ebb falls due now: 24 h after the last. -/
def ebbFalls (s : State) : Bool := s.ebbDue.isNone && decide (s.ebbT + 8640000000000 ≤ s.tick)

/-- R483. EBB_DUE. -/
def execEbbDue (s : State) : Out := .next (if ebbFalls s then { s with ebbDue := some s.tick } else s)

/-- The regions that hold cells. -/
def holding (s : State) : List Region := (s.regions.map (·.2)).filter Region.holds

/-- Whether regions have held cells for 60 s of a due ebb. -/
def ebbLate (s : State) : Bool :=
  match s.ebbDue with
  | some t => decide (t + 6000000000 ≤ s.tick)
  | none => false

/-- R483. EBB_YIELD. -/
def execEbbYield (s : State) : Out :=
  .next (if ebbLate s then (holding s).foldl (fun s r => askYield s r.handle) s else s)

/-- Whether an ebb can run: it is due, no region holds cells, and no role change is under way (R483, R490). -/
def ebbFree (s : State) : Bool := s.ebbDue.isSome && (holding s).isEmpty && s.role.isNone

/-- The dies that are fitted. -/
def fittedDies (s : State) : List Nat := (List.range 20 ++ [0x20, 0x21, 0x22, 0x23]).filter (siteFitted s)

/-- EROSr of a die after a measurement: SLACK in the low and RING in the high half (R483, Table 6). -/
def erosPut (s : State) (site r : Nat) (v : BitVec 32) : State :=
  let k := site * 4 + r
  let s0 : BitVec 16 := match sfind s.slack0 k with
    | some x => x
    | none => v.extractLsb' 0 16
  let n := bits (preg s site (0xC0 + r)) 63 48
  let w := fieldsW [(0, v.toNat), (32, s0.toNat), (48, if n = 0xFFFF then n else n + 1)]
  setPreg { s with slack0 := sset s.slack0 k s0 } site (0xC0 + r) w

/-- What an ebb measures on a rail of a die: the value that the input gives, by site code, or a free one (log 6). -/
def measured (s : State) (measures : List (Nat × List (BitVec 32))) (n r : Nat) : BitVec 32 :=
  match ((measures.find? fun p => decide (p.1 = n)).bind fun p => p.2[r]?) with
  | some v => v
  | none => (Config.freeWord (s.freeCtr + 4 * n + r)).setWidth 32

/-- R483. EBB: every rail of every fitted die is measured. A role change that began in the meantime does not hold its end. -/
def execEbb (measures : List (Nat × List (BitVec 32))) (s : State) : Out :=
  .next
    (if s.ebbRun.isNone && !ebbFree s then s
     else
       let t := (fittedDies s).foldl
         (fun t n => (List.range 4).foldl (fun t r => erosPut t n r (measured s measures n r)) t) s
       { t with ebbDue := none, ebbRun := none, ebbT := s.tick, freeCtr := s.freeCtr + 256 })

-- Readings that no input gives (R463, R479) ----------------------------------------------------------------------------------------

/-- The bases whose stacks' temperatures are read now: 100,000 ticks after the last reading (R479). -/
def wlimDue (s : State) : Option Nat :=
  (List.range 8).find? fun b => siteFitted s (12 + b) && (List.range 2).any fun k =>
    decide (((sget {} s.hbt (2 * b + k)).evT).getD 0 + 100000 ≤ s.tick)

/-- A reading that no input gives: free, or none where the readout fails (log 6). -/
def freeTemp (w : Word) : Option (BitVec 10) := if w.getLsbD 10 then none else some (w.setWidth 10)

/-- R479. The base reads its stacks, as an input names no reading (log 99). -/
def wlimFree (s : State) (b : Nat) : Out :=
  let (n, s) := freeNum s
  let (m, s) := freeNum s
  execWlimEvaluation b (freeTemp (Config.freeWord n)) (freeTemp (Config.freeWord m)) s

/-- R463. The lighthouse reads every sensor, as an input names no reading (log 99). -/
def senseFree (s : State) : Out :=
  execSensorEvaluation
    ((fittedDies s).map fun n => (n, (List.range 16).map fun i => (Config.freeWord (s.freeCtr + 16 * n + i)).setWidth 10))
    { s with freeCtr := s.freeCtr + 1024 }

-- Corrections of the FEC (R455, R465) ---------------------------------------------------------------------------------------------

/-- A correction that happens now (log 97). -/
def fecDue (s : State) : Option (Nat × Nat × Nat) := s.fecs.find? fun p => decide (p.1 ≤ s.tick)

/-- A correction counts in its module's status, or in RLSTAT of its reach link. -/
def fecCount (s : State) (p : Nat × Nat × Nat) : State :=
  let s := { s with fecs := s.fecs.erase p }
  let (site, m) := p.2
  if m < moduleCount site then
    let x := moduleAt s site m
    { s with modules := sset s.modules (site * 64 + m) { x with corr := if x.corr = 0xFFFFFF then x.corr else x.corr + 1 } }
  else if 0x20 ≤ site ∧ site < 0x24 ∧ 31 ≤ m ∧ m < 35 then
    let n := 0x80 + (m - 31)
    let w := preg s site n
    setPreg s site n (putBits w 47 32 (Nat.min 0xFFFF (bits w 47 32 + 1)))
  else s

-- Words that name no instruction (R165, R175) ------------------------------------------------------------------------------------

/-- R175. UNASSIGNED_OPCODE: the agent whose word runs raises an illegal-instruction fault. -/
def execUnassignedOpcode (w : Word) (s : State) : Out :=
  word { core := true, start := true } [] (fun _ _ => illegal) { s with curWord := w }

end Sys2Proof.Machine
end

