-- ==== Sys2Proof/Machine/Due.lean ====
section
/-! DEFINITION. What the package does by itself: the first event that is due in the present period, the meaning that each
event runs, and the passing of a region clock period (R6, R39, R47, R213, R372, R373, R459, R479). Where several things
fall in one period, their order is that of `dueEvent` (log 11). -/

namespace Sys2Proof.Machine

/-- An event that the package raises by itself. -/
inductive Due
  | powerOn
  | command (c : Cmd)
  | restartEnd
  | landing (key : Nat)
  | rowLand (key : Nat)
  | delivery (key : Nat)
  | transit (key : Nat)
  | rowTake (key : Nat)
  | mload (key : Nat)
  | strip (key : Nat)
  | fenceOver (key : Nat) (q : Seq)
  | barOver (key : Nat) (q : Seq)
  | predecode (key : Nat) (q : Seq)
  | fenceStall (key : Nat) (q : Seq)
  | phaseEnd (key : Nat)
  | fifoLate (key : Nat)
  | taskStart (key : Nat)
  | taskEnd (key : Nat)
  | stop (h : Nat)
  | freeze (h : Nat)
  | pass (h f : Nat)
  | release (key : Nat) (q : Seq)
  | unfreeze (h : Nat)
  | stallLate (h : Nat)
  | startLate (h : Nat)
  | slackFar (h : Nat)
  | forcedSave (h : Nat)
  | dispatchTask (h ldie : Nat)
  | swap (h : Nat)
  | debugHeld (h : Nat)
  | stubResume (h : Nat)
  | slackResume (h : Nat)
  | slackSave (h : Nat)
  | elasticSave (h : Nat)
  | retire (h : Nat)
  | lease (h : Nat)
  | leaseLate (h : Nat)
  | age (h : Nat)
  | sched (h : Nat)
  | lighthouse
  | level
  | force
  | heartbeat
  | relock
  | rollback
  | deviceEvent
  | lhAnswer
  | gate (i : Nat)
  | drain
  | collEnd (id : Nat)
  | collLate (id : Nat)
  | opEnd (id : Nat)
  | opLate (id : Nat)
  | unit (id : Nat)
  | atomicLate (id : Nat)
  | peerLate (id : Nat)
  | pinAnswer
  | response (id : Nat)
  | heldReady
  | heldDrop
  | consume (q : Nat)
  | queueGone (q : Nat)
  | ack (conn : Nat)
  | reachHello (link : Nat)
  | reachLate (link : Nat)
  | resend (conn seq : Nat)
  | ebbFalls
  | ebbLate
  | ebb
  | fec (p : Nat × Nat × Nat)
  | sense
  | wlim (base : Nat)
  | pcsrrLate (core : Nat)
deriving DecidableEq, Repr

-- Finding what is due ------------------------------------------------------------------------------------------------------

/-- The first of two that there is. -/
def firstOf (a : Option Due) (b : Unit → Option Due) : Option Due :=
  match a with
  | some x => some x
  | none => b ()

/-- A due event under a condition. -/
def dueIf (c : Bool) (x : Due) : Option Due := if c then some x else none

/-- The cells of a region that lands or has streams: cells whose landings go on. -/
def landCells (s : State) : List Nat := (s.cells.filter fun p => landsNow s p.1).map (·.1)

/-- Operations at barriers' ports come first, in the order of the issuing cells (R93). -/
def duePort (s : State) (key : Nat) : Option Due :=
  match nextLatch s key false with
  | some l => dueIf (decide (l.cls = 0)) (.landing key)
  | none => none

/-- Landings of a cell after those of class 0: accumulators and rows in order, then the rest. -/
def dueLand (s : State) (key : Nat) : Option Due :=
  let row := (cellAt s key).mx.mmas.find? (rowDue s key)
  firstOf
    (match nextLatch s key false, row with
      | some l, some r => some (if l.cls = 1 ∧ l.ord < r.ord then .landing key else .rowLand key)
      | some _, none => some (.landing key)
      | none, some _ => some (.rowLand key)
      | none, none => none) fun _ =>
  firstOf (dueIf (nextDelivery s key).isSome (.delivery key)) fun _ =>
  firstOf (dueIf ((cellAt s key).fifo.frees.any fun t => decide (t ≤ s.per)) (.transit key)) fun _ =>
  firstOf (dueIf ((cellAt s key).mx.mloads.any (loadDue s key)) (.mload key)) fun _ =>
  firstOf (dueIf ((cellAt s key).mx.strips.any (stripDue s key)) (.strip key)) fun _ =>
  dueIf ((cellAt s key).mx.mmas.any (takeDue s key)) (.rowTake key)

/-- What is due at a stream. -/
def dueStream (s : State) (key : Nat) (q : Seq) : Option Due :=
  let st := (cellAt s key).stream q
  firstOf (dueIf (st.fences.any (fenceOver s key q)) (.fenceOver key q)) fun _ =>
  firstOf ((sysLate s key q).map fun f => .peerLate f.id) fun _ =>
  firstOf (dueIf (st.bw.isSome && barOpen s st) (.barOver key q)) fun _ =>
  firstOf (dueIf (preDue s key q) (.predecode key q)) fun _ =>
  dueIf (fenceAsks s key q) (.fenceStall key q)

/-- What is due at a core: its fences are complete, or have waited too long (R206, R472). -/
def dueCore (s : State) (p : Nat × Core) : Option Due :=
  let key := coreKey + p.1
  firstOf (dueIf (p.2.st.fences.any (fenceOver s key .s)) (.fenceOver key .s)) fun _ =>
  (sysLate s key .s).map fun f => .peerLate f.id

/-- What is due at a cell, after its landings. -/
def dueCell (s : State) (key : Nat) : Option Due :=
  firstOf (seqs.findSome? (dueStream s key)) fun _ =>
  firstOf (dueIf ((phaseReady s key).isSome || phaseFenced s key) (.phaseEnd key)) fun _ =>
  firstOf (dueIf (fifoLate s key) (.fifoLate key)) fun _ =>
  firstOf (dueIf (taskReady s key) (.taskStart key)) fun _ =>
  dueIf (taskOver s key) (.taskEnd key)

/-- The boundary of a region's START that passes unused (R49). -/
def startPass (s : State) (h : Nat) (r : Region) : Option Due :=
  match r.startF with
  | some f =>
    dueIf (decide (r.stage = .running) && !r.started && r.haltD.isNone && decide (f ≤ s.per) && (startShort s h).isSome) (.pass h f)
  | none => none

/-- A release that a sequencer of a region sends now. -/
def dueRelease (s : State) (r : Region) : Option Due := (releaseDue s r).map fun p => .release p.1 p.2

/-- What is due at a region: its stop first, then its freeze. -/
def dueRegion (s : State) (p : Nat × Region) : Option Due :=
  let h := p.1
  let r := p.2
  firstOf (dueIf (stopDue s r) (.stop h)) fun _ =>
  firstOf (dueIf (freezeDue r) (.freeze h)) fun _ =>
  firstOf (startPass s h r) fun _ =>
  firstOf (dueRelease s r) fun _ =>
  firstOf (dueIf (unfreezeDue s r) (.unfreeze h)) fun _ =>
  firstOf (dueIf (stallLate s r) (.stallLate h)) fun _ =>
  firstOf (dueIf (startLate s r) (.startLate h)) fun _ =>
  firstOf (dueIf (slackFar s r) (.slackFar h)) fun _ =>
  firstOf (dueIf (yieldLate s r) (.forcedSave h)) fun _ =>
  firstOf ((List.range r.dies.length).findSome? fun d => dueIf (walkDue s r d) (.dispatchTask h d)) fun _ =>
  firstOf (dueIf (swapDue s r) (.swap h)) fun _ =>
  firstOf (dueIf (retireDue s r) (.retire h)) fun _ =>
  firstOf (dueIf (r.runs && !r.dbgHeld.isEmpty) (.debugHeld h)) fun _ =>
  firstOf ((if r.resP.isSome then (timedOf s r).find? fun p => preDue s p.1 p.2 else none).map fun p => .predecode p.1 p.2) fun _ =>
  firstOf (dueIf (stubDue s r) (.stubResume h)) fun _ =>
  firstOf (dueIf (slackDue s r) (.slackResume h)) fun _ =>
  firstOf (dueIf (slackSaveDue s r) (.slackSave h)) fun _ =>
  firstOf (dueIf (elasticSaveDue s r) (.elasticSave h)) fun _ =>
  firstOf (dueIf (leaseDue s r || homesGrant r) (.lease h)) fun _ =>
  firstOf
    (match r.askT with
      | some t => dueIf (decide (r.stage = .leases) && decide (t + 200000 ≤ s.tick)) (.leaseLate h)
      | none => none) fun _ =>
  dueIf (ageDue s r) (.age h)

/-- What is due at an operation. A schedule-fed RDQ reads an entry in each cycle from its issue on (R230). -/
def dueOp (s : State) (p : Nat × Op) : Option Due :=
  let id := p.1
  let o := p.2
  firstOf (dueIf (collFull o && opLive s o) (.collEnd id)) fun _ =>
  firstOf
    (dueIf (decide (o.kind = .coll ∧ o.coll.kind < 5) && !o.units && decide (o.born + o.coll.tout ≤ s.tick)) (.collLate id)) fun _ =>
  firstOf (dueIf (opOver s id o) (.opEnd id)) fun _ =>
  firstOf
    (dueIf (decide (o.t0 + (regAt s o.reg).stallto.toNat < s.tick) && !o.units && waitsQueue s id o) (.opLate id)) fun _ =>
  dueIf
    (!o.units && opLive s o
      && (if o.kind = .rdq ∧ o.hold then decide (o.lim + o.sub ≤ (regAt s o.reg).tide) else decide (o.due ≤ s.per)))
    (.unit id)

/-- What is due at a request. -/
def dueReq (s : State) (p : Nat × Req) : Option Due :=
  let id := p.1
  let r := p.2
  let late := decide (r.born + 200000 ≤ s.tick)
  firstOf (dueIf (late && r.atomic && remoteReq s r) (.atomicLate id)) fun _ =>
  firstOf (dueIf (late && r.peer && !r.atomic) (.peerLate id)) fun _ =>
  dueIf (decide (r.due ≤ s.per) && !r.lost) (if r.applied then .response id else .unit id)

/-- A request can be served: the answer to its sender's request before has been delivered (R448), a MARKFAIL waits for a running ebb
(R490), and MARKFAIL, CLEARFAIL and RETRAIN wait for a training in progress (log 100). -/
def lhCan (s : State) (w : Word) : Bool :=
  let (req, r) := lhReqOf w
  !(s.lhans.any fun a => decide (a.1 = r.core)) && !(decide (req = 1) && s.ebbRun.isSome)
    && match s.retrain with
      | some x => decide (x.1.core ≠ r.core) && decide (req ≠ 1 ∧ req ≠ 2 ∧ req ≠ 6)
      | none => true

/-- Of messages in order, the first that can be served among each sender's first (R448). -/
def lhFirst (s : State) (seen : List Nat) : List Word → Option Word
  | [] => none
  | w :: l =>
    let c := bits w 63 56
    if seen.contains c then lhFirst s seen l else if lhCan s w then some w else lhFirst s (c :: seen) l

/-- The message in the lighthouse's mailbox that it serves next: requests from one core in the order they were sent (R448). -/
def lhNext (s : State) : Option Word := if s.boot then none else lhFirst s [] (coreAt s 8).mbox

/-- The lighthouse serves one request; a REQ that the table does not list is answered BADREQ (R448). -/
def lhRun (s : State) (w : Word) : Out :=
  let k := coreAt s 8
  let s := setCore s 8 { k with mbox := k.mbox.erase w }
  let (req, r) := lhReqOf w
  let x := coreAt s r.core
  let r := { r with mute := decide (x.stale ≠ 0) }
  let s := if r.mute then setCore s r.core { x with stale := x.stale - 1 } else s
  match req with
  | 1 => execMarkfail r s
  | 2 => execClearfail r s
  | 3 => execGrant r s
  | 4 => execHbeat r s
  | 5 => execMargin r s
  | 6 => execRetrain r s
  | 7 => execSetboot r s
  | 8 => execQuote r s
  | n => .next (lhAnswer s r n 5 0)

/-- Whether the watch of R487 rolls the harbour image back now. -/
def rollDue (s : State) : Bool :=
  watchTripped s && verifies (slotBytes s (bootSlot 2 (1 - sget 0 s.pref 2 % 2))) 2

/-- What is due in the package's own firmware: levels, heartbeats, mailboxes, gates, roles. -/
def dueFirm (s : State) : Option Due :=
  firstOf (match s.pauseT with
    | some t => dueIf (decide (t ≤ s.tick)) .relock
    | none => none) fun _ =>
  firstOf (dueIf (heartbeatLate s) .heartbeat) fun _ =>
  firstOf (dueIf (forceNow s) .force) fun _ =>
  firstOf (dueIf (decide (s.armed ≠ s.grant) && !s.force && !anyTimed s) .level) fun _ =>
  firstOf (dueIf (rollDue s) .rollback) fun _ =>
  firstOf (dueIf (s.rstT.isNone && (firstRoom s s.devq).isSome) .deviceEvent) fun _ =>
  firstOf (dueIf (firstRoom s s.lhans).isSome .lhAnswer) fun _ =>
  firstOf (dueIf (lhNext s).isSome .lighthouse) fun _ =>
  firstOf (s.gates.findSome? fun g => dueIf (gateReady s g.2) (.gate g.2)) fun _ =>
  match s.role with
  | some r => dueIf (decide (r.step = 1) && drainDone s r) .drain
  | none => none

/-- What is due at the host's side. -/
def dueHost (s : State) : Option Due :=
  firstOf (s.queues.findSome? fun p => dueIf (consumeDue p.2) (.consume p.1)) fun _ =>
  firstOf (s.queues.findSome? fun p => dueIf (queueGone s p.1 p.2) (.queueGone p.1)) fun _ =>
  firstOf (s.conns.findSome? fun p => dueIf (ackDue s p.2) (.ack p.1)) fun _ =>
  firstOf (s.conns.findSome? fun p => dueIf (isReach p.1 && reachStuck s (p.1 - 1000)) (.reachLate (p.1 - 1000))) fun _ =>
  firstOf
    (if pkgOwn s = 0xFFFF then none else (List.range 16).findSome? fun j => dueIf (reachHelloDue s j) (.reachHello j)) fun _ =>
  s.conns.findSome? fun p => (resendDue s p.2).map fun m => .resend p.1 m.seq

/-- What is due in the fleet's functions. -/
def dueFleet (s : State) : Option Due :=
  firstOf (dueIf (heldReady s).isSome .heldReady) fun _ =>
  firstOf (dueIf (s.held.any fun h => decide (h.at_ + 1000000 ≤ s.tick)) .heldDrop) fun _ =>
  firstOf (dueIf (s.pinq.any fun x => !pinHeld s x.1) .pinAnswer) fun _ =>
  firstOf (dueIf (ebbFalls s) .ebbFalls) fun _ =>
  firstOf (dueIf (ebbLate s && (holding s).any fun r => !r.ypend) .ebbLate) fun _ =>
  firstOf (match s.ebbRun with
    | some t => dueIf (decide (t + 200000 ≤ s.tick)) .ebb
    | none => none) fun _ =>
  firstOf ((fecDue s).map .fec) fun _ =>
  firstOf
    (s.cores.findSome? fun p =>
      dueIf (coreWaited s p.1 200000 && match coreNext s p.1 with
        | some (.pcsrr _ _ _) | some (.pcsrw _ _ _) => true
        | _ => false) (.pcsrrLate p.1)) fun _ =>
  firstOf (dueIf (decide (s.sensT + 100000 ≤ s.tick)) .sense) fun _ =>
  (wlimDue s).map .wlim

/-- The first event that is due now. -/
def dueEvent (s : State) : Option Due :=
  if s.boot then some .powerOn
  else match s.cmds with
    | c :: _ => some (.command c)
    | [] =>
      firstOf (dueIf s.rstT.isSome .restartEnd) fun _ =>
      firstOf (dueFirm s) fun _ =>
      firstOf ((landCells s).findSome? (duePort s)) fun _ =>
      firstOf ((landCells s).findSome? (dueLand s)) fun _ =>
      firstOf (s.regions.findSome? (dueRegion s)) fun _ =>
      firstOf ((landCells s).findSome? (dueCell s)) fun _ =>
      firstOf (s.cores.findSome? (dueCore s)) fun _ =>
      firstOf (s.ops.findSome? (dueOp s)) fun _ =>
      firstOf (s.reqs.findSome? (dueReq s)) fun _ =>
      firstOf ((schedule s).map fun p => .sched p.1) fun _ =>
      firstOf (dueHost s) fun _ =>
      dueFleet s

-- What each does ---------------------------------------------------------------------------------------------------------------

/-- R207. The completed fences of a timed stream are over; the sector buffer is invalidated (R71). -/
def fencesOver (s : State) (key : Nat) (q : Seq) : State :=
  let st := streamAt s key q
  let (fin, left) := st.fences.partition (fenceOver s key q)
  let sys := fin.any fun f => decide (3 ≤ f.scope)
  dropSects (setStreamAt s key q { st with fences := left, obs := if sys then [] else st.obs }) key

/-- R208, R243. The barrier that an elastic stream waits at has turned; BWAIT adds its token. -/
def barOver (s : State) (key : Nat) (q : Seq) : State :=
  let st := streamAt s key q
  match st.bw with
  | none => s
  | some (_, _, _, kd) => tokenFor (setStreamAt s key q { st with bw := none }) key kd { key := key, seq := q, pc := st.pc - 8 }

/-- A request or an operation that could not move is tried again in the next period. -/
def nudge (s : State) (id : Nat) : State :=
  match sfind s.reqs id with
  | some r => if r.due ≤ s.per then { s with reqs := sset s.reqs id { r with due := s.per + 1 } } else s
  | none =>
    match sfind s.ops id with
    | some o => if o.due ≤ s.per then { s with ops := sset s.ops id { o with due := s.per + 1 } } else s
    | none => s

/-- Applies a change to a next state. -/
def afterOut (f : State → State) (o : Out) : Out :=
  match o with
  | .next s => .next (f s)
  | .fault r => .fault r
  | .refused r => .refused r

/-- A consumed command is carried out by its opcode (R422). -/
def runCmd (c : Cmd) (s : State) : Out :=
  match c.opc with
  | 0 => execNopCommand c s
  | 1 => execLaunch c s
  | 2 => execResume c s
  | 3 => execEndCommand c s
  | 4 => execYield c s
  | 5 => execDebug c s
  | 6 => execPrio c s
  | 0x10 => execQcreate c s
  | 0x11 => execQdestroy c s
  | 0x12 => execCcreate c s
  | 0x13 => execCdestroy c s
  | _ => .next (takeCmd s c)

/-- The meaning of an event that is due. -/
def runDue (d : Due) (s : State) : Out :=
  match d with
  | .powerOn => execPowerOnReset s
  | .command c => runCmd c s
  | .restartEnd => .next (restartEnd s)
  | .landing k => execResultLanding k s
  | .rowLand k => execMmaRowLanding k s
  | .delivery k => execPushDelivery k s
  | .transit k => execFifoTransit k s
  | .rowTake k => execMmaRowTake k s
  | .mload k => execMloadLanding k s
  | .strip k => execStripEntryLanding k s
  | .fenceOver k q => .next (fencesOver s k q)
  | .barOver k q => .next (barOver s k q)
  | .predecode k q => execPredecode k q s
  | .fenceStall k q => .next (fenceStall s k q)
  | .phaseEnd k => execPhaseEnd k s
  | .fifoLate k => execFifoWaitTimeout k s
  | .taskStart k => execTaskStart k s
  | .taskEnd k => execTaskEnd k s
  | .stop h => execRegionStop h s
  | .freeze h => execRegionFreeze h s
  | .pass h f => .next (passStart s h f)
  | .release k q => execStallRelease k q s
  | .unfreeze h => execRegionStallResume h s
  | .stallLate h => execStallTimeout h s
  | .startLate h => execStartWaitTimeout h s
  | .slackFar h => execSlackDistance h s
  | .forcedSave h => execForcedSave h s
  | .dispatchTask h d => execTaskDispatch h d s
  | .swap h => execPlaneSwap h s
  | .debugHeld h => .next (debugHeld s h)
  | .stubResume h => execStubResume h s
  | .slackResume h => execSlackResume h s
  | .slackSave h => execSlackSave h s
  | .elasticSave h => execElasticYieldSave h s
  | .retire h => execPlanRetire h s
  | .lease h => execLeaseAcquire h s
  | .leaseLate h => execPeerLeaseTimeout h s
  | .age h => execAgeStep h s
  | .sched h => execRegionDispatch h s
  | .lighthouse =>
    match lhNext s with
    | some w => lhRun s w
    | none => .next s
  | .level => .next (levelNow s)
  | .force => execForcedLevelTimeout s
  | .heartbeat => execHeartbeatTimeout s
  | .relock => execRelockEnd s
  | .rollback => execHarbourRollback s
  | .deviceEvent => execDeviceEventDeliver s
  | .lhAnswer => execLighthouseAnswerDeliver s
  | .gate i => execGateApply i s
  | .drain => execRoleDrainDone s
  | .collEnd i => execCollRoundEnd i s
  | .collLate i => execCollRoundTimeout i s
  | .opEnd i => execEngineOpComplete i s
  | .opLate i => execQueueWaitTimeout i s
  | .unit i => afterOut (fun t => nudge t i) (execMemoryRequestApply i s)
  | .atomicLate i => execAtomicTimeout i s
  | .peerLate i => execPeerAccessTimeout i s
  | .pinAnswer => .next (pinNext s)
  | .response i => execMemoryResponse i s
  | .heldReady => .next (heldDeliver s)
  | .heldDrop => execHeldMessageDiscard s
  | .consume q => execCommandConsume q s
  | .queueGone q => .next (destroyQueue s q)
  | .ack n => execAckTimer n s
  | .reachHello j => .next (reachHello s j { gen := 3 })
  | .reachLate j => reachLate s j
  | .resend n q => execMessageResend n (BitVec.ofNat 32 q) s
  | .ebbFalls => execEbbDue s
  | .ebbLate => execEbbYield s
  | .ebb => execEbb [] s
  | .fec p => .next (fecCount s p)
  | .sense => senseFree s
  | .wlim b => wlimFree s b
  | .pcsrrLate n => execPcsrrTimeout n s

-- The passing of time ------------------------------------------------------------------------------------------------------------

/-- Region clock periods in a reference tick, by variant: 3.3, 2.7 and 2.0 GHz against 100 MHz (R6, R457). -/
def perTick (clk : Nat) : Nat :=
  match clk with
  | 0 => 33
  | 1 => 27
  | _ => 20

/-- A saturating count in 64 bits (R478). -/
def count64 (x : Nat) : Nat := Nat.min (x + 1) (2 ^ 64 - 1)

/-- A saturating count in 32 bits. -/
def count32 (x : BitVec 32) : BitVec 32 := if x = 0xFFFFFFFF then x else x + 1

/-- One reference tick: LTIME, LOWWT, TTICKS (R213, R456, R459, R481); an ebb that can run begins (R483). -/
def refTick (s : State) : State :=
  let l := s.ltime.set s.grant.toNat (count64 (s.ltime.getD s.grant.toNat 0))
  let hb := s.hbt.map fun p => if p.2.wlim = 0 then p else (p.1, { p.2 with tticks := count32 p.2.tticks })
  { s with tick := s.tick + 1, sub := 0, ltime := l, lowwt := if s.loww then count64 s.lowwt else s.lowwt, hbt := hb,
           ebbRun := if s.ebbRun.isNone && ebbFree s then some (s.tick + 1) else s.ebbRun }

/-- The reference clock runs on for the time of n unstretched periods while no period begins. -/
def runTicks (s : State) (n : Nat) : State :=
  let k := perTick s.clk
  { (List.range ((s.sub + n) / k)).foldl (fun s _ => refTick s) s with sub := (s.sub + n) % k }

/-- R462. CLOCK_STRETCH: every period in progress is stretched and counts once. The reference clock is not stretched (R6,
R12): it runs on for as long as the period is longer, which the manual does not give (log 79). -/
def execClockStretch (s : State) : Out :=
  .next
    (let (n, s) := freeNum s
     runTicks { s with stretch := if s.stretch = 0xFFFFFFFF then s.stretch else s.stretch + 1 } (Config.stretchBy n))

/-- A region in one region clock period: TIDE advances, or is held by a stall, by a slack point that serves a yield, or
while the region does not run (R39, R40, R47, R372, R373, R493). -/
def passRegion (s : State) (r : Region) : Region :=
  if r.stage ≠ .running ∨ !r.started then r
  else if r.frozen then { r with stcyc := if r.stcyc.toNat + 1 < 2 ^ 40 then r.stcyc + 1 else r.stcyc }
  else if !hasTimed s r then
    { r with tide := r.tide + 1, swait := if r.ypend ∧ r.swait.isNone ∧ r.haltD.isNone then some r.tide else r.swait }
  else if r.swait.isSome then r
  else
    let atSlack := match r.agree with
      | some (t, 0, _) => decide (t = r.tide) && r.ypend && (r.yldFrz || decide (r.yldTide + 64 ≤ t)) && r.haltD.isNone
      | _ => false
    if atSlack then { r with swait := some r.tide } else { r with tide := r.tide + 1, slackd := r.slackd + 1 }

/-- The copy engines of live migrations each copy one sector, or switch over (R444). -/
def passMigs (s : State) : State :=
  (List.range s.migs.length).reverse.foldl
    (fun s i =>
      match s.migs[i]? with
      | some m =>
        (match (if m.pass < 4 then execMigrationSectorCopy i s else execSwitchover i s) with
          | .next t => t
          | _ => s)
      | none => s) s

/-- One region clock period; in a relock pause one reference tick passes without one (R39, R218). -/
def pass (s : State) : State :=
  if s.pauseT.isSome then refTick s
  else
    let s := passMigs s
    let s := { s with per := s.per + 1, frame := (s.frame + 1) % 256, sub := s.sub + 1,
                      regions := s.regions.map fun p => (p.1, passRegion s p.2) }
    if perTick s.clk ≤ s.sub then refTick s else s

-- A word placed where it is fetched next ------------------------------------------------------------------------------------------

/-- Where a word is to stand: the cell's key, the sequencer, and whether the stream is timed (none: core 0). -/
structure Place where
  key   : Nat
  seq   : Seq
  timed : Bool
deriving DecidableEq, Repr

/-- The place of an instruction: a sequencer of its space in a stream of a mode in which it is legal; a word of the
management row stands on core 0. -/
def placeOfInstr (i : Instr) : Option Place :=
  match i with
  | .pcsrr _ _ _ | .pcsrw _ _ _ | .mboxs _ _ _ | .mboxr _ | .mwait _ => none
  | .alignf | .start | .turn _ | .brt _ _ _ _ _ => some { key := 1152, seq := .s, timed := true }
  | .push _ _ _ | .pushR _ _ _ => some { key := 1152, seq := .w, timed := true }
  | .zpush _ _ _ | .zpushB16 _ _ _ => some { key := 0, seq := .c, timed := true }
  | i => match spaceOf i with
    | some .lw => some { key := 1152, seq := .l, timed := false }
    | some .mx => some { key := 0, seq := .c, timed := false }
    | some .vn => some { key := 1152, seq := .c, timed := false }
    | some .gs => some { key := 1728, seq := .c, timed := false }
    | some .st => some { key := 2304, seq := .c, timed := false }
    | _ => some { key := 1152, seq := .s, timed := false }

/-- The position of a stream before an instruction: ALIGNF is the first word of a timed stream and START the second (R40);
an elastic stream is before its first word. -/
def posOfInstr (i : Instr) (timed : Bool) : Nat :=
  match i with
  | .alignf => 0
  | .start => 1
  | _ => if timed then 2 else 0

/-- The die of a cell with row and column 0. -/
def dieOfKey (key : Nat) : RDie :=
  { cls := classOf key, lcls := siteClass (slotOf key), stk := stkOf key, hgt := 1, wid := 1, site := slotOf key }

/-- A word in a region of one cell, whose stream issues it next. -/
def placeCell (s : State) (p : Place) (pos : Nat) (w : Word) : State :=
  let st : Stream :=
    { mode := if p.timed then .timed else .elastic, begun := true, nword := 65536, pre := [(0, w)], pos := pos,
      last := if p.timed ∧ pos = 2 then 0 else s.per, preTo := idleNat w + 65 }
  let r : Region :=
    { handle := 1, dies := [dieOfKey p.key], listed := [0], stage := .running, started := decide (pos = 2),
      tide := if p.timed ∧ pos = 2 then idleNat w else 0,
      startF := if pos = 1 then some s.per else none }
  let per := if p.timed ∧ pos = 0 then s.per + idleNat w else s.per
  setReg (setCell { s with per := per } p.key (({ reg := 1 } : Cell).setStream p.seq st)) 1 r

/-- A word where core 0 fetches next. -/
def placeCore (s : State) (w : Word) : State :=
  setCore s 0 { coreAt s 0 with held := false, st := { mode := .elastic, begun := true, pre := [(0, w)] } }

/-- The package after its boot, with a word where the next step fetches it. -/
def placeWord (s : State) (w : Word) : State :=
  let s := { s with power := true, boot := false, pauseT := none, inputs := [], cmds := [] }
  match decodeTableWord 64 w.toNat with
  | some i =>
    match placeOfInstr i with
    | some p => placeCell s p (posOfInstr i p.timed) w
    | none => placeCore s w
  | none => placeCell s { key := 1152, seq := .s, timed := false } 0 w

end Sys2Proof.Machine
end

