-- ==== Sys2Proof/Machine/Scalar.lean ====
section
/-! DEFINITION. Integer arithmetic of the S space: register forms, immediate forms, LI, LIH, TAMK
(R182 to R188). -/

namespace Sys2Proof.Machine

/-- S-space words that cells and cores may use in both modes (R182, R350). -/
def lgS : Legal := { spaces := [.s], core := true }

/-- A register form: D := f a b, landing at the latency of Table 1 of chapter 7 (R182, R184). -/
def alu3 (d a b : BitVec 6) (latency : Nat) (f : Word → Word → Word) (s : State) : Out :=
  word lgS [d, a, b]
    (fun c s => .ok (landA s c d (f (readA s c.key a.toNat) (readA s c.key b.toNat)) latency)) s

/-- A unary or immediate form: D := f a. -/
def alu2 (d a : BitVec 6) (latency : Nat) (f : Word → Word) (s : State) : Out :=
  word lgS [d, a] (fun c s => .ok (landA s c d (f (readA s c.key a.toNat)) latency)) s

/-- DIV of R185. -/
def sdivW (a b : Word) : Word := if b = 0 then BitVec.allOnes 64 else a.sdiv b

/-- REM of R185. -/
def sremW (a b : Word) : Word := if b = 0 then a else a.srem b

/-- DIVU of R185. -/
def udivW (a b : Word) : Word := if b = 0 then BitVec.allOnes 64 else a / b

/-- REMU of R185. -/
def uremW (a b : Word) : Word := if b = 0 then a else a % b

/-- Leading zero bits among the low n bits. -/
def clzAux (w : Word) : Nat → Nat
  | 0 => 0
  | n + 1 => if w.getLsbD n then 0 else 1 + clzAux w n

/-- Trailing zero bits from bit i on, n bits left. -/
def ctzAux (w : Word) (i : Nat) : Nat → Nat
  | 0 => 0
  | n + 1 => if w.getLsbD i then 0 else 1 + ctzAux w (i + 1) n

/-- One bits among the low n bits. -/
def popAux (w : Word) : Nat → Nat
  | 0 => 0
  | n + 1 => (if w.getLsbD n then 1 else 0) + popAux w n

/-- A truth value as a word. -/
def boolW (b : Bool) : Word := if b then 1 else 0

/-- The upper half of the signed product. -/
def mulhW (a b : Word) : Word := ((a.signExtend 128 * b.signExtend 128).extractLsb' 64 64)

/-- The upper half of the unsigned product. -/
def mulhuW (a b : Word) : Word := ((a.setWidth 128 * b.setWidth 128).extractLsb' 64 64)

/-- The immediate of an immediate form, sign-extended (R186). -/
def immW (imm : BitVec 32) : Word := imm.signExtend 64

/-- R184. ADD: a + b. -/
def execAdd (d a b : BitVec 6) (s : State) : Out := alu3 d a b 1 (fun x y => x + y) s

/-- R184. SUB: a − b. -/
def execSub (d a b : BitVec 6) (s : State) : Out := alu3 d a b 1 (fun x y => x - y) s

/-- R184. MUL: the low half of the product. -/
def execMul (d a b : BitVec 6) (s : State) : Out := alu3 d a b 3 (fun x y => x * y) s

/-- R184. MULH: the high half of the signed product. -/
def execMulh (d a b : BitVec 6) (s : State) : Out := alu3 d a b 3 (mulhW) s

/-- R184. MULHU: the high half of the unsigned product. -/
def execMulhu (d a b : BitVec 6) (s : State) : Out := alu3 d a b 3 (mulhuW) s

/-- R184. DIV (R185). -/
def execDiv (d a b : BitVec 6) (s : State) : Out := alu3 d a b 34 (sdivW) s

/-- R184. DIVU (R185). -/
def execDivu (d a b : BitVec 6) (s : State) : Out := alu3 d a b 34 (udivW) s

/-- R184. REM (R185). -/
def execRem (d a b : BitVec 6) (s : State) : Out := alu3 d a b 34 (sremW) s

/-- R184. REMU (R185). -/
def execRemu (d a b : BitVec 6) (s : State) : Out := alu3 d a b 34 (uremW) s

/-- R184. AND. -/
def execAnd (d a b : BitVec 6) (s : State) : Out := alu3 d a b 1 (fun x y => x &&& y) s

/-- R184. OR. -/
def execOr (d a b : BitVec 6) (s : State) : Out := alu3 d a b 1 (fun x y => x ||| y) s

/-- R184. XOR. -/
def execXor (d a b : BitVec 6) (s : State) : Out := alu3 d a b 1 (fun x y => x ^^^ y) s

/-- R184. ANDN: a and not b. -/
def execAndn (d a b : BitVec 6) (s : State) : Out := alu3 d a b 1 (fun x y => x &&& ~~~y) s

/-- R184. SLL by b[5:0]. -/
def execSll (d a b : BitVec 6) (s : State) : Out := alu3 d a b 1 (fun x y => x <<< (y.toNat % 64)) s

/-- R184. SRL by b[5:0]. -/
def execSrl (d a b : BitVec 6) (s : State) : Out := alu3 d a b 1 (fun x y => x >>> (y.toNat % 64)) s

/-- R184. SRA by b[5:0]. -/
def execSra (d a b : BitVec 6) (s : State) : Out := alu3 d a b 1 (fun x y => x.sshiftRight (y.toNat % 64)) s

/-- R184. ROR by b[5:0]. -/
def execRor (d a b : BitVec 6) (s : State) : Out := alu3 d a b 1 (fun x y => x.rotateRight (y.toNat % 64)) s

/-- R184. MIN as int64. -/
def execMin (d a b : BitVec 6) (s : State) : Out := alu3 d a b 1 (fun x y => if x.slt y then x else y) s

/-- R184. MAX as int64. -/
def execMax (d a b : BitVec 6) (s : State) : Out := alu3 d a b 1 (fun x y => if x.slt y then y else x) s

/-- R184. MINU as uint64. -/
def execMinu (d a b : BitVec 6) (s : State) : Out := alu3 d a b 1 (fun x y => if x.ult y then x else y) s

/-- R184. MAXU as uint64. -/
def execMaxu (d a b : BitVec 6) (s : State) : Out := alu3 d a b 1 (fun x y => if x.ult y then y else x) s

/-- R184. SLT as int64. -/
def execSlt (d a b : BitVec 6) (s : State) : Out := alu3 d a b 1 (fun x y => boolW (x.slt y)) s

/-- R184. SLTU as uint64. -/
def execSltu (d a b : BitVec 6) (s : State) : Out := alu3 d a b 1 (fun x y => boolW (x.ult y)) s

/-- R184. CLZ. -/
def execClz (d a : BitVec 6) (s : State) : Out := alu2 d a 1 (fun x => BitVec.ofNat 64 (clzAux x 64)) s

/-- R184. CTZ. -/
def execCtz (d a : BitVec 6) (s : State) : Out := alu2 d a 1 (fun x => BitVec.ofNat 64 (ctzAux x 0 64)) s

/-- R184. POPC. -/
def execPopc (d a : BitVec 6) (s : State) : Out := alu2 d a 1 (fun x => BitVec.ofNat 64 (popAux x 64)) s

/-- R186. ADDI: as its register form with the sign-extended immediate. -/
def execAddi (d a : BitVec 6) (imm : BitVec 32) (s : State) : Out := alu2 d a 1 (fun x => x + immW imm) s

/-- R186. ANDI: as its register form with the sign-extended immediate. -/
def execAndi (d a : BitVec 6) (imm : BitVec 32) (s : State) : Out := alu2 d a 1 (fun x => x &&& immW imm) s

/-- R186. ORI: as its register form with the sign-extended immediate. -/
def execOri (d a : BitVec 6) (imm : BitVec 32) (s : State) : Out := alu2 d a 1 (fun x => x ||| immW imm) s

/-- R186. XORI: as its register form with the sign-extended immediate. -/
def execXori (d a : BitVec 6) (imm : BitVec 32) (s : State) : Out := alu2 d a 1 (fun x => x ^^^ immW imm) s

/-- R186. SLTI: as its register form with the sign-extended immediate. -/
def execSlti (d a : BitVec 6) (imm : BitVec 32) (s : State) : Out := alu2 d a 1 (fun x => boolW (x.slt (immW imm))) s

/-- R186. SLTIU: as its register form with the sign-extended immediate. -/
def execSltiu (d a : BitVec 6) (imm : BitVec 32) (s : State) : Out := alu2 d a 1 (fun x => boolW (x.ult (immW imm))) s

/-- R186. MULI: as its register form with the sign-extended immediate. -/
def execMuli (d a : BitVec 6) (imm : BitVec 32) (s : State) : Out := alu2 d a 3 (fun x => x * immW imm) s

/-- R186. SLLI. -/
def execSlli (d a sh : BitVec 6) (s : State) : Out := alu2 d a 1 (fun x => x <<< sh.toNat) s

/-- R186. SRLI. -/
def execSrli (d a sh : BitVec 6) (s : State) : Out := alu2 d a 1 (fun x => x >>> sh.toNat) s

/-- R186. SRAI. -/
def execSrai (d a sh : BitVec 6) (s : State) : Out := alu2 d a 1 (fun x => x.sshiftRight sh.toNat) s

/-- R186. RORI. -/
def execRori (d a sh : BitVec 6) (s : State) : Out := alu2 d a 1 (fun x => x.rotateRight sh.toNat) s

/-- R187. LI sign-extends (HI = 0), LI.Z zero-extends (HI = 1) the 40-bit immediate. -/
def execLi (d : BitVec 6) (hi : BitVec 1) (imm : BitVec 40) (s : State) : Out :=
  word lgS [d]
    (fun c s => .ok (landA s c d (if hi = 1 then imm.setWidth 64 else imm.signExtend 64) 1)) s

/-- R187, R183. LIH writes bits 63 to 24 and keeps bits 23 to 0 of its destination. -/
def execLih (d : BitVec 6) (imm : BitVec 40) (s : State) : Out :=
  word lgS [d]
    (fun c s => .ok (landA s c d (imm ++ (readA s c.key d.toNat).extractLsb' 0 24) 1)) s

/-- R188. TAMK: D := cat(a[15:0], b[47:0]). -/
def execTamk (d a b : BitVec 6) (s : State) : Out :=
  alu3 d a b 1 (fun x y => x.extractLsb' 0 16 ++ y.extractLsb' 0 48) s

end Sys2Proof.Machine
end

