-- ==== Sys2Proof/Machine/Dispatch.lean ====
section
/-! DEFINITION. The meaning of each step: one direct call per constructor. -/

namespace Sys2Proof.Machine

/-- What a word, an event or an input does. -/
def exec (i : Instr) (s : State) : Host.Outcome State Fault Refusal :=
  match i with
  | .waitc n => Sys2Proof.Machine.execWaitc n s
  | .endw => Sys2Proof.Machine.execEndw s
  | .alignf => Sys2Proof.Machine.execAlignf s
  | .start => Sys2Proof.Machine.execStart s
  | .slack n => Sys2Proof.Machine.execSlack n s
  | .turn n => Sys2Proof.Machine.execTurn n s
  | .nop => Sys2Proof.Machine.execNop s
  | .jmp off => Sys2Proof.Machine.execJmp off s
  | .loop lvl off n => Sys2Proof.Machine.execLoop lvl off n s
  | .call a off => Sys2Proof.Machine.execCall a off s
  | .ret a => Sys2Proof.Machine.execRet a s
  | .br a b cnd off => Sys2Proof.Machine.execBr a b cnd off s
  | .brt a cnd toff joff jdist => Sys2Proof.Machine.execBrt a cnd toff joff jdist s
  | .trap code => Sys2Proof.Machine.execTrap code s
  | .rett => Sys2Proof.Machine.execRett s
  | .add d a b => Sys2Proof.Machine.execAdd d a b s
  | .sub d a b => Sys2Proof.Machine.execSub d a b s
  | .mul d a b => Sys2Proof.Machine.execMul d a b s
  | .mulh d a b => Sys2Proof.Machine.execMulh d a b s
  | .mulhu d a b => Sys2Proof.Machine.execMulhu d a b s
  | .div d a b => Sys2Proof.Machine.execDiv d a b s
  | .divu d a b => Sys2Proof.Machine.execDivu d a b s
  | .rem d a b => Sys2Proof.Machine.execRem d a b s
  | .remu d a b => Sys2Proof.Machine.execRemu d a b s
  | .and d a b => Sys2Proof.Machine.execAnd d a b s
  | .or d a b => Sys2Proof.Machine.execOr d a b s
  | .xor d a b => Sys2Proof.Machine.execXor d a b s
  | .andn d a b => Sys2Proof.Machine.execAndn d a b s
  | .sll d a b => Sys2Proof.Machine.execSll d a b s
  | .srl d a b => Sys2Proof.Machine.execSrl d a b s
  | .sra d a b => Sys2Proof.Machine.execSra d a b s
  | .ror d a b => Sys2Proof.Machine.execRor d a b s
  | .min d a b => Sys2Proof.Machine.execMin d a b s
  | .max d a b => Sys2Proof.Machine.execMax d a b s
  | .minu d a b => Sys2Proof.Machine.execMinu d a b s
  | .maxu d a b => Sys2Proof.Machine.execMaxu d a b s
  | .slt d a b => Sys2Proof.Machine.execSlt d a b s
  | .sltu d a b => Sys2Proof.Machine.execSltu d a b s
  | .clz d a => Sys2Proof.Machine.execClz d a s
  | .ctz d a => Sys2Proof.Machine.execCtz d a s
  | .popc d a => Sys2Proof.Machine.execPopc d a s
  | .addi d a imm => Sys2Proof.Machine.execAddi d a imm s
  | .andi d a imm => Sys2Proof.Machine.execAndi d a imm s
  | .ori d a imm => Sys2Proof.Machine.execOri d a imm s
  | .xori d a imm => Sys2Proof.Machine.execXori d a imm s
  | .slli d a sh => Sys2Proof.Machine.execSlli d a sh s
  | .srli d a sh => Sys2Proof.Machine.execSrli d a sh s
  | .srai d a sh => Sys2Proof.Machine.execSrai d a sh s
  | .rori d a sh => Sys2Proof.Machine.execRori d a sh s
  | .slti d a imm => Sys2Proof.Machine.execSlti d a imm s
  | .sltiu d a imm => Sys2Proof.Machine.execSltiu d a imm s
  | .muli d a imm => Sys2Proof.Machine.execMuli d a imm s
  | .li d hi imm => Sys2Proof.Machine.execLi d hi imm s
  | .lih d imm => Sys2Proof.Machine.execLih d imm s
  | .tamk d a b => Sys2Proof.Machine.execTamk d a b s
  | .tcoord d a b dim => Sys2Proof.Machine.execTcoord d a b dim s
  | .tdim d a sel => Sys2Proof.Machine.execTdim d a sel s
  | .ld d a sub imm => Sys2Proof.Machine.execLd d a sub imm s
  | .st d a sz imm => Sys2Proof.Machine.execSt d a sz imm s
  | .ldAcq d a sub imm => Sys2Proof.Machine.execLdAcq d a sub imm s
  | .stRel d a sz imm => Sys2Proof.Machine.execStRel d a sz imm s
  | .amo d a b op use w => Sys2Proof.Machine.execAmo d a b op use w s
  | .cas d a b c f use w => Sys2Proof.Machine.execCas d a b c f use w s
  | .faddw a b => Sys2Proof.Machine.execFaddw a b s
  | .faddr d a => Sys2Proof.Machine.execFaddr d a s
  | .phase a scope => Sys2Proof.Machine.execPhase a scope s
  | .fence scope => Sys2Proof.Machine.execFence scope s
  | .bar d a b wait => Sys2Proof.Machine.execBar d a b wait s
  | .tokw k1 k2 k3 => Sys2Proof.Machine.execTokw k1 k2 k3 s
  | .synci => Sys2Proof.Machine.execSynci s
  | .qpush q a => Sys2Proof.Machine.execQpush q a s
  | .qpop q d a => Sys2Proof.Machine.execQpop q d a s
  | .qpeek q d a => Sys2Proof.Machine.execQpeek q d a s
  | .qcnt q d => Sys2Proof.Machine.execQcnt q d s
  | .engJoin d k => Sys2Proof.Machine.execEngJoin d k s
  | .engTload d a b k => Sys2Proof.Machine.execEngTload d a b k s
  | .engTcopy d a b k => Sys2Proof.Machine.execEngTcopy d a b k s
  | .engTstore d a b k => Sys2Proof.Machine.execEngTstore d a b k s
  | .engTfill d a b k => Sys2Proof.Machine.execEngTfill d a b k s
  | .fpush a => Sys2Proof.Machine.execFpush a s
  | .rdtide d fn => Sys2Proof.Machine.execRdtide d fn s
  | .csrr d csr => Sys2Proof.Machine.execCsrr d csr s
  | .csrw csr a => Sys2Proof.Machine.execCsrw csr a s
  | .pcsrr d site reg => Sys2Proof.Machine.execPcsrr d site reg s
  | .pcsrw site reg a => Sys2Proof.Machine.execPcsrw site reg a s
  | .registerWrite core site reg v => Sys2Proof.Machine.execRegisterWrite core site reg v s
  | .mboxs d a b => Sys2Proof.Machine.execMboxs d a b s
  | .mboxr d => Sys2Proof.Machine.execMboxr d s
  | .mwait n => Sys2Proof.Machine.execMwait n s
  | .brq q cnd off => Sys2Proof.Machine.execBrq q cnd off s
  | .dset ds a w k => Sys2Proof.Machine.execDset ds a w k s
  | .dclr ds k => Sys2Proof.Machine.execDclr ds k s
  | .dld ds a k => Sys2Proof.Machine.execDld ds a k s
  | .rdq ds q k => Sys2Proof.Machine.execRdq ds q k s
  | .rds ds a k => Sys2Proof.Machine.execRds ds a k s
  | .wrq ds q k => Sys2Proof.Machine.execWrq ds q k s
  | .wrs ds a k => Sys2Proof.Machine.execWrs ds a k s
  | .cpy ds dt k => Sys2Proof.Machine.execCpy ds dt k s
  | .gath ds q a b xf k => Sys2Proof.Machine.execGath ds q a b xf k s
  | .scat ds q a b xf k => Sys2Proof.Machine.execScat ds q a b xf k s
  | .pref ds k => Sys2Proof.Machine.execPref ds k s
  | .push q ch k => Sys2Proof.Machine.execPush q ch k s
  | .pushR a ch k => Sys2Proof.Machine.execPushR a ch k s
  | .movq qd qs k => Sys2Proof.Machine.execMovq qd qs k s
  | .arrv a b k => Sys2Proof.Machine.execArrv a b k s
  | .bwait a b k => Sys2Proof.Machine.execBwait a b k s
  | .collAr ds dt op fmt a k => Sys2Proof.Machine.execCollAr ds dt op fmt a k s
  | .collRs ds dt op fmt a k => Sys2Proof.Machine.execCollRs ds dt op fmt a k s
  | .collAg ds dt fmt a k => Sys2Proof.Machine.execCollAg ds dt fmt a k s
  | .collBc ds dt fmt a b k => Sys2Proof.Machine.execCollBc ds dt fmt a b k s
  | .collAa ds dt fmt a k => Sys2Proof.Machine.execCollAa ds dt fmt a k s
  | .collAb a k => Sys2Proof.Machine.execCollAb a k s
  | .mload t x => Sys2Proof.Machine.execMload t x s
  | .msel mask x => Sys2Proof.Machine.execMsel mask x s
  | .mma q x => Sys2Proof.Machine.execMma q x s
  | .mmas q x => Sys2Proof.Machine.execMmas q x s
  | .zclr mask x => Sys2Proof.Machine.execZclr mask x s
  | .zrd q t st x => Sys2Proof.Machine.execZrd q t st x s
  | .zrdB16 q t st x => Sys2Proof.Machine.execZrdB16 q t st x s
  | .zwr q t st x => Sys2Proof.Machine.execZwr q t st x s
  | .zpush t ch x => Sys2Proof.Machine.execZpush t ch x s
  | .zpushB16 t ch x => Sys2Proof.Machine.execZpushB16 t ch x s
  | .vadd f => Sys2Proof.Machine.execVadd f s
  | .vsub f => Sys2Proof.Machine.execVsub f s
  | .vmul f => Sys2Proof.Machine.execVmul f s
  | .vfma f => Sys2Proof.Machine.execVfma f s
  | .vfms f => Sys2Proof.Machine.execVfms f s
  | .vdiv f => Sys2Proof.Machine.execVdiv f s
  | .vsqrt f => Sys2Proof.Machine.execVsqrt f s
  | .vmin f => Sys2Proof.Machine.execVmin f s
  | .vmax f => Sys2Proof.Machine.execVmax f s
  | .vabs f => Sys2Proof.Machine.execVabs f s
  | .vneg f => Sys2Proof.Machine.execVneg f s
  | .vcmpeq f => Sys2Proof.Machine.execVcmpeq f s
  | .vcmpne f => Sys2Proof.Machine.execVcmpne f s
  | .vcmplt f => Sys2Proof.Machine.execVcmplt f s
  | .vcmple f => Sys2Proof.Machine.execVcmple f s
  | .vsel f => Sys2Proof.Machine.execVsel f s
  | .vand f => Sys2Proof.Machine.execVand f s
  | .vor f => Sys2Proof.Machine.execVor f s
  | .vxor f => Sys2Proof.Machine.execVxor f s
  | .vnot f => Sys2Proof.Machine.execVnot f s
  | .vshl f => Sys2Proof.Machine.execVshl f s
  | .vshr f => Sys2Proof.Machine.execVshr f s
  | .vsra f => Sys2Proof.Machine.execVsra f s
  | .viadd f => Sys2Proof.Machine.execViadd f s
  | .visub f => Sys2Proof.Machine.execVisub f s
  | .vimul f => Sys2Proof.Machine.execVimul f s
  | .vimin f => Sys2Proof.Machine.execVimin f s
  | .vimax f => Sys2Proof.Machine.execVimax f s
  | .vcvt f => Sys2Proof.Machine.execVcvt f s
  | .vrcp f => Sys2Proof.Machine.execVrcp f s
  | .vrsqrt f => Sys2Proof.Machine.execVrsqrt f s
  | .vexp2 f => Sys2Proof.Machine.execVexp2 f s
  | .vlog2 f => Sys2Proof.Machine.execVlog2 f s
  | .vtanh f => Sys2Proof.Machine.execVtanh f s
  | .vsigm f => Sys2Proof.Machine.execVsigm f s
  | .vsin f => Sys2Proof.Machine.execVsin f s
  | .vcos f => Sys2Proof.Machine.execVcos f s
  | .vredsum f => Sys2Proof.Machine.execVredsum f s
  | .vredmax f => Sys2Proof.Machine.execVredmax f s
  | .vredmin f => Sys2Proof.Machine.execVredmin f s
  | .vperm f => Sys2Proof.Machine.execVperm f s
  | .vbcast f => Sys2Proof.Machine.execVbcast f s
  | .vrot f => Sys2Proof.Machine.execVrot f s
  | .vmov f => Sys2Proof.Machine.execVmov f s
  | .vld d a imm => Sys2Proof.Machine.execVld d a imm s
  | .vst d a imm => Sys2Proof.Machine.execVst d a imm s
  | .vidx f => Sys2Proof.Machine.execVidx f s
  | .vli d t imm => Sys2Proof.Machine.execVli d t imm s
  | .dot16 f => Sys2Proof.Machine.execDot16 f s
  | .vquant f => Sys2Proof.Machine.execVquant f s
  | .vdeq f => Sys2Proof.Machine.execVdeq f s
  | .vnmean f => Sys2Proof.Machine.execVnmean f s
  | .vnvar f => Sys2Proof.Machine.execVnvar f s
  | .vnapply f => Sys2Proof.Machine.execVnapply f s
  | .vmset f => Sys2Proof.Machine.execVmset f s
  | .vmand f => Sys2Proof.Machine.execVmand f s
  | .vmor f => Sys2Proof.Machine.execVmor f s
  | .vmnot f => Sys2Proof.Machine.execVmnot f s
  | .vmcnt f => Sys2Proof.Machine.execVmcnt f s
  | .gsetBlock a k => Sys2Proof.Machine.execGsetBlock a k s
  | .gsetBatch a k => Sys2Proof.Machine.execGsetBatch a k s
  | .gsetWalk a k => Sys2Proof.Machine.execGsetWalk a k s
  | .gsetBar a k => Sys2Proof.Machine.execGsetBar a k s
  | .gload a b k => Sys2Proof.Machine.execGload a b k s
  | .grule a k => Sys2Proof.Machine.execGrule a k s
  | .grow q a b mk k => Sys2Proof.Machine.execGrow q a b mk k s
  | .gseg q qs b mk k => Sys2Proof.Machine.execGseg q qs b mk k s
  | .gscat qs a b k => Sys2Proof.Machine.execGscat qs a b k s
  | .walk q a b mk k => Sys2Proof.Machine.execWalk q a b mk k s
  | .sample q a b mk k => Sys2Proof.Machine.execSample q a b mk k s
  | .gidx d a b => Sys2Proof.Machine.execGidx d a b s
  | .gidxBd d a b c => Sys2Proof.Machine.execGidxBd d a b c s
  | .gmov f => Sys2Proof.Machine.execGmov f s
  | .gvadd f => Sys2Proof.Machine.execGvadd f s
  | .gvmul f => Sys2Proof.Machine.execGvmul f s
  | .gvfma f => Sys2Proof.Machine.execGvfma f s
  | .gvcvt f => Sys2Proof.Machine.execGvcvt f s
  | .gvld d a imm => Sys2Proof.Machine.execGvld d a imm s
  | .gvst d a imm => Sys2Proof.Machine.execGvst d a imm s
  | .bld q a b mk k => Sys2Proof.Machine.execBld q a b mk k s
  | .bst qs a b k => Sys2Proof.Machine.execBst qs a b k s
  | .bfill a b k => Sys2Proof.Machine.execBfill a b k s
  | .bcpy a b k => Sys2Proof.Machine.execBcpy a b k s
  | .bamo qs a b op d64 k => Sys2Proof.Machine.execBamo qs a b op d64 k s
  | .bred q a b op k => Sys2Proof.Machine.execBred q a b op k s
  | .vfpush a => Sys2Proof.Machine.execVfpush a s
  | .vfpushn d a => Sys2Proof.Machine.execVfpushn d a s
  | .vfpop d => Sys2Proof.Machine.execVfpop d s
  | .vfcnt d p => Sys2Proof.Machine.execVfcnt d p s
  | .svadd f => Sys2Proof.Machine.execSvadd f s
  | .svfma f => Sys2Proof.Machine.execSvfma f s
  | .predecode key q => Sys2Proof.Machine.execPredecode key q s
  | .regionFreeze h => Sys2Proof.Machine.execRegionFreeze h s
  | .stallRelease key q => Sys2Proof.Machine.execStallRelease key q s
  | .regionStallResume h => Sys2Proof.Machine.execRegionStallResume h s
  | .stallTimeout h => Sys2Proof.Machine.execStallTimeout h s
  | .startWaitTimeout h => Sys2Proof.Machine.execStartWaitTimeout h s
  | .queueWaitTimeout op => Sys2Proof.Machine.execQueueWaitTimeout op s
  | .fifoWaitTimeout key => Sys2Proof.Machine.execFifoWaitTimeout key s
  | .resultLanding key => Sys2Proof.Machine.execResultLanding key s
  | .pushDelivery key => Sys2Proof.Machine.execPushDelivery key s
  | .mmaRowTake key => Sys2Proof.Machine.execMmaRowTake key s
  | .mmaRowLanding key => Sys2Proof.Machine.execMmaRowLanding key s
  | .mloadLanding key => Sys2Proof.Machine.execMloadLanding key s
  | .stripEntryLanding key => Sys2Proof.Machine.execStripEntryLanding key s
  | .fifoTransit key => Sys2Proof.Machine.execFifoTransit key s
  | .engineOpComplete op => Sys2Proof.Machine.execEngineOpComplete op s
  | .memoryRequestApply req => Sys2Proof.Machine.execMemoryRequestApply req s
  | .memoryResponse req => Sys2Proof.Machine.execMemoryResponse req s
  | .atomicErrorResponse req applied => Sys2Proof.Machine.execAtomicErrorResponse req applied s
  | .atomicTimeout req => Sys2Proof.Machine.execAtomicTimeout req s
  | .phaseEnd key => Sys2Proof.Machine.execPhaseEnd key s
  | .taskDispatch h ldie => Sys2Proof.Machine.execTaskDispatch h ldie s
  | .taskStart key => Sys2Proof.Machine.execTaskStart key s
  | .taskEnd key => Sys2Proof.Machine.execTaskEnd key s
  | .planRetire h => Sys2Proof.Machine.execPlanRetire h s
  | .planeSwap h => Sys2Proof.Machine.execPlaneSwap h s
  | .regionStop h => Sys2Proof.Machine.execRegionStop h s
  | .stubResume h => Sys2Proof.Machine.execStubResume h s
  | .debugRequest h ldie row col => Sys2Proof.Machine.execDebugRequest h ldie row col s
  | .yieldRequest h => Sys2Proof.Machine.execYieldRequest h s
  | .slackSave h => Sys2Proof.Machine.execSlackSave h s
  | .elasticYieldSave h => Sys2Proof.Machine.execElasticYieldSave h s
  | .slackDistance h => Sys2Proof.Machine.execSlackDistance h s
  | .forcedSave h => Sys2Proof.Machine.execForcedSave h s
  | .slackResume h => Sys2Proof.Machine.execSlackResume h s
  | .phyLinkLoss site module => Sys2Proof.Machine.execPhyLinkLoss site module s
  | .hello m w0 w1 => Sys2Proof.Machine.execHello m w0 w1 s
  | .regwrQtail m v => Sys2Proof.Machine.execRegwrQtail m v s
  | .regwrQctlStop m v => Sys2Proof.Machine.execRegwrQctlStop m v s
  | .regwrQctlErr m v => Sys2Proof.Machine.execRegwrQctlErr m v s
  | .regwrQprog m v => Sys2Proof.Machine.execRegwrQprog m v s
  | .regrd m reg => Sys2Proof.Machine.execRegrd m reg s
  | .memwr m taddr data => Sys2Proof.Machine.execMemwr m taddr data s
  | .memrd m taddr count => Sys2Proof.Machine.execMemrd m taddr count s
  | .resp conn rseq status value => Sys2Proof.Machine.execResp conn rseq status value s
  | .event queue w0 w1 => Sys2Proof.Machine.execEvent queue w0 w1 s
  | .ack m bitmap => Sys2Proof.Machine.execAck m bitmap s
  | .ackTimer conn => Sys2Proof.Machine.execAckTimer conn s
  | .messageResend conn seq => Sys2Proof.Machine.execMessageResend conn seq s
  | .commandConsume queue => Sys2Proof.Machine.execCommandConsume queue s
  | .nopCommand c => Sys2Proof.Machine.execNopCommand c s
  | .launch c => Sys2Proof.Machine.execLaunch c s
  | .resume c => Sys2Proof.Machine.execResume c s
  | .endCommand c => Sys2Proof.Machine.execEndCommand c s
  | .yield c => Sys2Proof.Machine.execYield c s
  | .debug c => Sys2Proof.Machine.execDebug c s
  | .prio c => Sys2Proof.Machine.execPrio c s
  | .qcreate c => Sys2Proof.Machine.execQcreate c s
  | .qdestroy c => Sys2Proof.Machine.execQdestroy c s
  | .ccreate c => Sys2Proof.Machine.execCcreate c s
  | .cdestroy c => Sys2Proof.Machine.execCdestroy c s
  | .queueSwitchIn queue => Sys2Proof.Machine.execQueueSwitchIn queue s
  | .queueSwitchOut queue => Sys2Proof.Machine.execQueueSwitchOut queue s
  | .regionDispatch h => Sys2Proof.Machine.execRegionDispatch h s
  | .ageStep h => Sys2Proof.Machine.execAgeStep h s
  | .quantumExpiry h => Sys2Proof.Machine.execQuantumExpiry h s
  | .leaseAcquire h => Sys2Proof.Machine.execLeaseAcquire h s
  | .rfe1Read => Sys2Proof.Machine.execRfe1Read s
  | .rfackRetry h => Sys2Proof.Machine.execRfackRetry h s
  | .rfackFail h => Sys2Proof.Machine.execRfackFail h s
  | .tileRead => Sys2Proof.Machine.execTileRead s
  | .map => Sys2Proof.Machine.execMap s
  | .mapz => Sys2Proof.Machine.execMapz s
  | .discard => Sys2Proof.Machine.execDiscard s
  | .reclaim => Sys2Proof.Machine.execReclaim s
  | .unmap => Sys2Proof.Machine.execUnmap s
  | .migrate => Sys2Proof.Machine.execMigrate s
  | .fwdclr => Sys2Proof.Machine.execFwdclr s
  | .install => Sys2Proof.Machine.execInstall s
  | .remove => Sys2Proof.Machine.execRemove s
  | .migrationSectorCopy n => Sys2Proof.Machine.execMigrationSectorCopy n s
  | .switchover n => Sys2Proof.Machine.execSwitchover n s
  | .staleFrame req => Sys2Proof.Machine.execStaleFrame req s
  | .peerInvalidation pkg frame => Sys2Proof.Machine.execPeerInvalidation pkg frame s
  | .invalidationAck pkg frame => Sys2Proof.Machine.execInvalidationAck pkg frame s
  | .fwdinvSelect v => Sys2Proof.Machine.execFwdinvSelect v s
  | .peerPinRequest pkg ctx tens first count kind => Sys2Proof.Machine.execPeerPinRequest pkg ctx tens first count kind s
  | .peerLeaseTimeout h => Sys2Proof.Machine.execPeerLeaseTimeout h s
  | .peerRequest r => Sys2Proof.Machine.execPeerRequest r s
  | .peerAccessTimeout req => Sys2Proof.Machine.execPeerAccessTimeout req s
  | .roleChangeStart v => Sys2Proof.Machine.execRoleChangeStart v s
  | .roleChangeAbort => Sys2Proof.Machine.execRoleChangeAbort s
  | .roleDrainDone => Sys2Proof.Machine.execRoleDrainDone s
  | .gateRequest core stratum => Sys2Proof.Machine.execGateRequest core stratum s
  | .gateApply stratum => Sys2Proof.Machine.execGateApply stratum s
  | .deviceEventDeliver => Sys2Proof.Machine.execDeviceEventDeliver s
  | .lighthouseAnswerDeliver => Sys2Proof.Machine.execLighthouseAnswerDeliver s
  | .markfail r => Sys2Proof.Machine.execMarkfail r s
  | .clearfail r => Sys2Proof.Machine.execClearfail r s
  | .grant r => Sys2Proof.Machine.execGrant r s
  | .hbeat r => Sys2Proof.Machine.execHbeat r s
  | .margin r => Sys2Proof.Machine.execMargin r s
  | .retrain r => Sys2Proof.Machine.execRetrain r s
  | .setboot r => Sys2Proof.Machine.execSetboot r s
  | .quote r => Sys2Proof.Machine.execQuote r s
  | .heartbeatTimeout => Sys2Proof.Machine.execHeartbeatTimeout s
  | .forcedLevelTimeout => Sys2Proof.Machine.execForcedLevelTimeout s
  | .relockEnd => Sys2Proof.Machine.execRelockEnd s
  | .powerOnReset => Sys2Proof.Machine.execPowerOnReset s
  | .moduleTrain site module ok => Sys2Proof.Machine.execModuleTrain site module ok s
  | .coreTrap core code arg => Sys2Proof.Machine.execCoreTrap core code arg s
  | .coreRestart => Sys2Proof.Machine.execCoreRestart s
  | .harbourRollback => Sys2Proof.Machine.execHarbourRollback s
  | .clockStretch => Sys2Proof.Machine.execClockStretch s
  | .overcurrent rail => Sys2Proof.Machine.execOvercurrent rail s
  | .thermalTrip site x y => Sys2Proof.Machine.execThermalTrip site x y s
  | .sensorEvaluation readings => Sys2Proof.Machine.execSensorEvaluation readings s
  | .wlimEvaluation base t0 t1 => Sys2Proof.Machine.execWlimEvaluation base t0 t1 s
  | .hoteRead base => Sys2Proof.Machine.execHoteRead base s
  | .ebbDue => Sys2Proof.Machine.execEbbDue s
  | .ebbYield => Sys2Proof.Machine.execEbbYield s
  | .ebb measures => Sys2Proof.Machine.execEbb measures s
  | .pkgidWrite v => Sys2Proof.Machine.execPkgidWrite v s
  | .reachLinkDown link => Sys2Proof.Machine.execReachLinkDown link s
  | .collPartial m => Sys2Proof.Machine.execCollPartial m s
  | .collAbort pkg gid round => Sys2Proof.Machine.execCollAbort pkg gid round s
  | .collRoundTimeout op => Sys2Proof.Machine.execCollRoundTimeout op s
  | .collRoundEnd op => Sys2Proof.Machine.execCollRoundEnd op s
  | .heldMessageDiscard => Sys2Proof.Machine.execHeldMessageDiscard s
  | .pcsrrTimeout core => Sys2Proof.Machine.execPcsrrTimeout core s
  | .unassignedOpcode w => Sys2Proof.Machine.execUnassignedOpcode w s
  | .claexFrameDrop f => Sys2Proof.Machine.execClaexFrameDrop f s
  | .hostPortLinkChange up => Sys2Proof.Machine.execHostPortLinkChange up s
  | .packagePowerLoss => Sys2Proof.Machine.execPackagePowerLoss s
  | .mwaitTimeout core => Sys2Proof.Machine.execMwaitTimeout core s

end Sys2Proof.Machine
end

