-- ==== Sys2Proof/Machine/Step.lean ====
section
/-! DEFINITION. One step of the package: what the environment puts next, or an event that is due, or the next word of an
agent, or the passing of a period (R36, R39, R46, R56). The definitions of Due.lean and Fetch.lean say which. -/

namespace Sys2Proof.Machine

/-- The word that an agent issues now: fetched, decoded, and run; a word that names no instruction raises the fault of R175, and one
that cannot be fetched that of R83. -/
def runAgent (s : State) (key : Nat) (q : Seq) : Host.Outcome State Fault Refusal :=
  if fetchBad s key q then fetchFault (atAgent s key q)
  else match decodeAt s key q with
  | .ok i => exec i (atAgent s key q)
  | .error _ => execUnassignedOpcode (fetchWord s key q) (atAgent s key q)

/-- A step of the machine's own. -/
def ownStep (s : State) : Host.Outcome State Fault Refusal :=
  if !s.power then .next s
  else match dueEvent s with
    | some d => runDue d s
    | none =>
      match readyAgent s with
      | some (key, q) => runAgent s key q
      | none => .next (pass s)

/-- One step. -/
def step (s : State) : Host.Outcome State Fault Refusal :=
  match s.inputs with
  | [] => if s.power then ownStep s else .fault .noPower
  | (0, i) :: rest => exec i { s with inputs := rest }
  | (n + 1, i) :: rest => ownStep { s with inputs := (n, i) :: rest }

/-- s with a word where the next step fetches: the next word of the agent of `place`, in a running region of one cell, or
of core 0 (log 21). -/
def State.withFetchWord (s : State) (_nbits w : Nat) : State := placeWord s (BitVec.ofNat 64 w)

end Sys2Proof.Machine
end

