-- ==== Sys2Proof/Safety.lean ====
section
/-! DEFINITION. What counts as a run that goes well, in the terms that the statements use: when a word issues with its own
effect, the state in which that effect begins, and the invariant that every step keeps. -/

namespace Sys2Proof.Machine

/-- What the running word sees of its agent (R36, R56). -/
def issueCtx (s : State) : Ctx := ctxAt (touchStart s s.cur)

/-- The joins that stay pending after the check of R201 at the running word. -/
def joinsLeft (s : State) : List Join :=
  let c := issueCtx s
  if c.timed then (popJoins c.pc c.t c.st.joins).getD [] else c.st.joins

/-- The state in which the running word has its effect: its stream has moved past it (R36, R56). -/
def moved (s : State) : State :=
  let c := issueCtx s
  setStreamAt (touchStart s s.cur) c.key c.seq
    (c.st.advance (issueNow (touchStart s s.cur) c) (joinsLeft s))

/-- The conditions, on the state and the operand fields alone, under which a word issues with its own effect: its stream
may issue; a timed word meets its joins (R201), stands past START and has IDLE of 1 or more (R36, R40); the word is legal
for its agent (R157, R182, R365, R375); and the registers of an elastic word are not in flight (R56, R113). -/
structure Issues (lg : Legal) (regs : List (BitVec 6)) (s : State) : Prop where
  can   : canIssue s s.cur s.curSeq = true
  joins : (issueCtx s).timed = true → (popJoins (issueCtx s).pc (issueCtx s).t (issueCtx s).st.joins).isSome = true
  past  : (issueCtx s).timed = true → lg.start = true ∨ (s.curIdle ≠ 0 ∧ 2 ≤ (issueCtx s).st.pos)
  legal : legalFor lg (issueCtx s) = true
  free  : (issueCtx s).timed = false →
    regs.any (fun r => pendingA (touchStart s s.cur) (issueCtx s).key r.toNat) = false ∧
      (lg.acc = false ∨ acquiring (touchStart s s.cur) (issueCtx s).key (issueCtx s).seq = false)

/-- The instruction answers the next state: its stream is past the word, and v is on its way to scalar register d, with the
latency n of a timed stream (R41, R182). -/
def Lands (i : Instr) (s : State) (d : BitVec 6) (v : Word) (n : Nat) : Prop :=
  exec i s = .next (landA (moved s) (issueCtx s) d v n)

/-- The value of a scalar register that the running word reads at its issue (R183). -/
def src (s : State) (r : BitVec 6) : Word := readA (moved s) (issueCtx s).key r.toNat

/-- The instruction answers the next state t. -/
def Runs (i : Instr) (s t : State) : Prop := exec i s = .next t

/-- The state t with the running stream's next word at byte offset pc: control has passed there (R157). -/
def goneTo (s t : State) (pc : Nat) : State :=
  setStreamAt t (issueCtx s).key (issueCtx s).seq { streamAt t (issueCtx s).key (issueCtx s).seq with pc := pc }

/-- The running word, as what raises a fault (R357). -/
def runner (s : State) : Who :=
  { key := (issueCtx s).key, seq := (issueCtx s).seq, pc := (issueCtx s).pc, word := s.curWord }

/-- What the machine does with the answer of a word's effect. -/
def answered (s : State) : Res → State
  | .ok t => t
  | .goto t pc => goneTo s t pc
  | .fault f => takeFault (moved s) (runner s) f
  | .okFault t f => takeFault t (runner s) f
  | .wait => waitWord s (issueCtx s)

/-- Lane j of w bits of a vector (R269). -/
def laneAt (w : Nat) (v : BitVec 2048) (j : Nat) : Nat := v.toNat / 2 ^ (w * j) % 2 ^ w

/-- The sources of the running lane word, as readSrcs gives them, with the state after their reads (R161, R272); before
them the destination can take the result (R43, R56). -/
def vecReads (sp : Space) (f : VecF) (n w : Nat) (s : State) (vs : List (BitVec 2048)) (u : State) : Prop :=
  readSrcs sp w (issueCtx s) (moved s) (vecSrcs f n) = .ok (vs, u) ∧ dstReady sp (moved s) (issueCtx s) f.d = .ok ()

/-- A word of a vector space issues; some of its fields name the a registers that an elastic one reads (R56). -/
def VecIssues (sp : Space) (fs : List (BitVec 6 × Bool)) (s : State) : Prop := Issues { spaces := [sp] } (aFields sp fs) s

/-- The word i of n vector sources, when it issues, puts g of the lanes of its sources into the lanes of D that its mask admits, with the
latency of a timed stream (R272, R273): the other lanes of a register stay, or become 0 under ZM, and those of an entry
become 0. -/
def LaneWise (sp : Space) (i : Instr) (f : VecF) (n latency : Nat) (g : List Nat → Nat) (s : State) : Prop :=
  VecIssues sp (vecSrcs f n) s → ∀ vs u, vecReads sp f n (laneW f.t) s vs u →
    ∃ v mask, Runs i s (landVec sp u (issueCtx s) f.d v mask latency) ∧
      ∀ j < vecBits sp / laneW f.t,
        let on := decide (sp ≠ .vn) || ((cellAt u (issueCtx s).key).readM f.msk.toNat).getLsbD j
        laneAt (laneW f.t) v j = (if on then g (vs.map fun x => laneAt (laneW f.t) x j) % 2 ^ laneW f.t else 0)
          ∧ ∀ b < laneW f.t / 8,
              mask.getLsbD (j * (laneW f.t / 8) + b) = (on || f.zm == 1 || (fieldQueue sp f.d).isSome)

/-- A sequenced host message reaches its connection in order: the package takes messages, the header's reserved bits are 0, the
connection has the message's generation, expects its sequence number, and holds no early message (R413 to R416). -/
structure InOrder (s : State) (m : HostHdr) (c : Conn) : Prop where
  up   : s.boot = false ∧ s.rstT = none ∧ s.recovery = false
  conn : sfind s.conns m.conn = some c
  gen  : c.gen = m.gen.toNat
  zero : m.flags = 0 ∧ m.mbz = 0
  next : c.rx = m.seq.toNat ∧ c.held = []

/-- The state in which such a message is applied: its connection has counted it, and, above generation 1, owes an
acknowledgement (R416). -/
def taken (s : State) (m : HostHdr) (c : Conn) : State :=
  setConn s m.conn
    { (if c.gen = 1 then c else { ackUpTo c s.tick m.ack.toNat with ackT := some (c.ackT.getD s.tick) }) with
      rx := (c.rx + 1) % 2 ^ 32 }

/-- What holds in every state that the machine reaches: memory is in its canonical form, and the frame counter has 8 bits
(R39). -/
structure State.Inv (s : State) : Prop where
  mem   : Memory.wf s.mem
  frame : s.frame < 256

end Sys2Proof.Machine
end

