-- ==== Sys2Proof/Certificates/Slice0/Obligations.lean ====
section
/-! DEFINITION. The statements for the provers. -/

open Sys2Proof Sys2Proof.Machine

-- Parts of statements, which the obligations at the end of their groups join.

/-- R184, R185: a register form of the S space that issues completes, with the value of Table 2 on its way to D at the
latency of Table 1. Divisions are of integers, rounded toward zero. -/
def Obligations.ScalarRegisterForms : Prop :=
  ∀ (s : State) (d a b : BitVec 6), Issues { spaces := [.s], core := true } [d, a, b] s →
    let x := src s a
    let y := src s b
    let sh := y.toNat % 64
    Lands (.add d a b) s d (x + y) 1
    ∧ Lands (.sub d a b) s d (x - y) 1
    ∧ Lands (.mul d a b) s d (BitVec.ofInt 64 (x.toInt * y.toInt)) 3
    ∧ Lands (.mulh d a b) s d (BitVec.ofInt 64 (x.toInt * y.toInt / 2 ^ 64)) 3
    ∧ Lands (.mulhu d a b) s d (BitVec.ofNat 64 (x.toNat * y.toNat / 2 ^ 64)) 3
    ∧ Lands (.div d a b) s d (if y = 0 then -1 else BitVec.ofInt 64 (x.toInt.tdiv y.toInt)) 34
    ∧ Lands (.divu d a b) s d (if y = 0 then -1 else BitVec.ofNat 64 (x.toNat / y.toNat)) 34
    ∧ Lands (.rem d a b) s d (if y = 0 then x else BitVec.ofInt 64 (x.toInt.tmod y.toInt)) 34
    ∧ Lands (.remu d a b) s d (if y = 0 then x else BitVec.ofNat 64 (x.toNat % y.toNat)) 34
    ∧ Lands (.and d a b) s d (x &&& y) 1
    ∧ Lands (.or d a b) s d (x ||| y) 1
    ∧ Lands (.xor d a b) s d (x ^^^ y) 1
    ∧ Lands (.andn d a b) s d (x &&& ~~~y) 1
    ∧ Lands (.sll d a b) s d (BitVec.ofNat 64 (x.toNat * 2 ^ sh)) 1
    ∧ Lands (.srl d a b) s d (BitVec.ofNat 64 (x.toNat / 2 ^ sh)) 1
    ∧ Lands (.sra d a b) s d (BitVec.ofInt 64 (x.toInt / 2 ^ sh)) 1
    ∧ Lands (.ror d a b) s d (x >>> sh ||| x <<< (64 - sh)) 1
    ∧ Lands (.min d a b) s d (BitVec.ofInt 64 (min x.toInt y.toInt)) 1
    ∧ Lands (.max d a b) s d (BitVec.ofInt 64 (max x.toInt y.toInt)) 1
    ∧ Lands (.minu d a b) s d (BitVec.ofNat 64 (min x.toNat y.toNat)) 1
    ∧ Lands (.maxu d a b) s d (BitVec.ofNat 64 (max x.toNat y.toNat)) 1
    ∧ Lands (.slt d a b) s d (if x.toInt < y.toInt then 1 else 0) 1
    ∧ Lands (.sltu d a b) s d (if x.toNat < y.toNat then 1 else 0) 1
    ∧ Lands (.tamk d a b) s d (BitVec.ofNat 64 (x.toNat % 2 ^ 16 * 2 ^ 48 + y.toNat % 2 ^ 48)) 1

/-- R184: CLZ, CTZ and POPC complete. CLZ counts the zero bits above the highest 1 bit, CTZ those below the lowest, and
both give 64 for 0; POPC counts the 1 bits. -/
def Sys2Proof.Rules.ScalarBitCounts : Prop :=
  ∀ (s : State) (d a : BitVec 6), Issues { spaces := [.s], core := true } [d, a] s →
    let x := src s a
    (∃ n, Lands (.clz d a) s d (BitVec.ofNat 64 n) 1 ∧ n ≤ 64 ∧ x.toNat < 2 ^ (64 - n)
      ∧ (n < 64 → x.getLsbD (63 - n) = true))
    ∧ (∃ n, Lands (.ctz d a) s d (BitVec.ofNat 64 n) 1 ∧ n ≤ 64 ∧ (∀ k < n, x.getLsbD k = false)
      ∧ (n < 64 → x.getLsbD n = true))
    ∧ Lands (.popc d a) s d (BitVec.ofNat 64 ((List.range 64).countP fun k => x.getLsbD k)) 1

/-- R186, R187: an immediate form, LI or LIH that issues completes: the register form's result with the immediate
sign-extended to 64 bits, or a shift by IMM[5:0]; the long immediate sign-extended or zero-extended; bits 63 to 24
replaced. -/
def Sys2Proof.Rules.ScalarImmediateForms : Prop :=
  ∀ (s : State) (d a : BitVec 6) (imm : BitVec 32) (sh : BitVec 6) (li : BitVec 40),
    Issues { spaces := [.s], core := true } [d, a] s →
    let x := src s a
    let y := BitVec.ofInt 64 imm.toInt
    let n := sh.toNat
    Lands (.addi d a imm) s d (x + y) 1
    ∧ Lands (.andi d a imm) s d (x &&& y) 1
    ∧ Lands (.ori d a imm) s d (x ||| y) 1
    ∧ Lands (.xori d a imm) s d (x ^^^ y) 1
    ∧ Lands (.slti d a imm) s d (if x.toInt < imm.toInt then 1 else 0) 1
    ∧ Lands (.sltiu d a imm) s d (if x.toNat < y.toNat then 1 else 0) 1
    ∧ Lands (.muli d a imm) s d (BitVec.ofInt 64 (x.toInt * imm.toInt)) 3
    ∧ Lands (.slli d a sh) s d (BitVec.ofNat 64 (x.toNat * 2 ^ n)) 1
    ∧ Lands (.srli d a sh) s d (BitVec.ofNat 64 (x.toNat / 2 ^ n)) 1
    ∧ Lands (.srai d a sh) s d (BitVec.ofInt 64 (x.toInt / 2 ^ n)) 1
    ∧ Lands (.rori d a sh) s d (x >>> n ||| x <<< (64 - n)) 1
    ∧ Lands (.li d 0 li) s d (BitVec.ofInt 64 li.toInt) 1
    ∧ Lands (.li d 1 li) s d (BitVec.ofNat 64 li.toNat) 1
    ∧ Lands (.lih d li) s d (BitVec.ofNat 64 (li.toNat * 2 ^ 24 + (src s d).toNat % 2 ^ 24)) 1

/-- R41, R182, R184, R186, R187: bit counts, the immediate forms, LI and LIH complete with their results. -/
def Obligations.ScalarComputes : Prop :=
  Sys2Proof.Rules.ScalarBitCounts ∧ Sys2Proof.Rules.ScalarImmediateForms

/-- R198 to R200, R157: a transfer whose target x + 8 × OFF lies in the stream's image completes with control there; CALL's
link, the address of the next word, lands at issue + 1; RET's target is its register, which a timed stream read at the
pre-decode of the word; BR falls through where its condition fails. -/
def Sys2Proof.Rules.ControlTransfers : Prop :=
  ∀ (s : State) (a b : BitVec 6) (cnd : BitVec 3) (off : BitVec 32) (y : Nat),
    let c := issueCtx s
    inImage (moved s) c y = true → y < 2 ^ 64 →
    ((y : Int) = c.pc + 8 * off.toInt →
      (Issues { core := true } [] s → Runs (.jmp off) s (goneTo s (moved s) y))
      ∧ (Issues { spaces := [.s], core := true } [a] s →
          Runs (.call a off) s (goneTo s (landA (moved s) c a (BitVec.ofNat 64 (c.pc + 8)) 1) y))
      ∧ (Issues { spaces := [.s], timed := false, core := true } [a, b] s →
          let x := src s a
          let z := src s b
          let taken : Prop :=
            (cnd = 0 ∧ x = z) ∨ (cnd = 1 ∧ x ≠ z) ∨ (cnd = 2 ∧ x.toInt < z.toInt) ∨ (cnd = 3 ∧ z.toInt ≤ x.toInt)
              ∨ (cnd = 4 ∧ x.toNat < z.toNat) ∨ (cnd = 5 ∧ z.toNat ≤ x.toNat)
          (taken → Runs (.br a b cnd off) s (goneTo s (moved s) y))
            ∧ (cnd.toNat < 6 → ¬taken → Runs (.br a b cnd off) s (moved s))))
    ∧ (Issues { spaces := [.s], core := true } [a] s →
        (c.timed = false → (src s a).toNat = y → Runs (.ret a) s (goneTo s (moved s) y))
        ∧ (∀ v, c.timed = true → c.st.retAt c.t c.pc = some v → v.toNat = y →
            Runs (.ret a) s (goneTo s (moved s) y)))

/-- R202: LOOP runs its body N times. With the counter of its level inactive it counts N − 1 further passes; while passes
are left, control goes back and one is counted off; otherwise the counter becomes inactive and control falls through. -/
def Sys2Proof.Rules.LoopCounts : Prop :=
  ∀ (s : State) (lvl : BitVec 3) (off : BitVec 12) (n : BitVec 32) (y : Nat),
    Issues { core := true, trap := false } [] s → lvl.toNat < 4 → n ≠ 0 →
    let c := issueCtx s
    let ctr := (streamAt (moved s) c.key c.seq).lp lvl.toNat
    let left := if ctr.act then ctr.cnt else n.toNat - 1
    (0 < left → (y : Int) = c.pc + 8 * off.toInt → y < 2 ^ 64 → inImage (moved s) c y = true →
      Runs (.loop lvl off n) s
        (goneTo s (onStream (moved s) c fun st => st.setLp lvl.toNat { act := true, cnt := left - 1 }) y))
    ∧ (left = 0 →
      Runs (.loop lvl off n) s (onStream (moved s) c fun st => st.setLp lvl.toNat { act := false, cnt := 0 }))

/-- R201: BRT pushes its join, due JDIST cycles after its issue, and takes the taken arm or the next word; a fifth pending
join is an illegal instruction. -/
def Sys2Proof.Rules.BranchToJoin : Prop :=
  ∀ (s : State) (a : BitVec 6) (cnd : BitVec 3) (toff joff : BitVec 12) (jd : BitVec 14) (y j : Nat),
    Issues { spaces := [.s], elastic := false, trap := false, rebuild := false } [] s →
    let c := issueCtx s
    (y : Int) = c.pc + 8 * toff.toInt → (j : Int) = c.pc + 8 * joff.toInt → y < 2 ^ 64 → j < 2 ^ 64 →
    inImage (moved s) c y = true → inImage (moved s) c j = true → jd ≠ 0 → cnd.toNat < 6 →
    let x := (src s a).toInt
    let taken : Prop :=
      (cnd = 0 ∧ x = 0) ∨ (cnd = 1 ∧ x ≠ 0) ∨ (cnd = 2 ∧ x < 0) ∨ (cnd = 3 ∧ 0 ≤ x) ∨ (cnd = 4 ∧ 0 < x) ∨ (cnd = 5 ∧ x ≤ 0)
    let pushed := onStream (moved s) c fun st => { st with joins := { addr := j, cycle := c.t + jd.toNat } :: st.joins }
    ((joinsLeft s).length < 4 →
      (taken → Runs (.brt a cnd toff joff jd) s (goneTo s pushed y))
        ∧ (¬taken → Runs (.brt a cnd toff joff jd) s pushed))
    ∧ (4 ≤ (joinsLeft s).length →
        Runs (.brt a cnd toff joff jd) s (takeFault (moved s) (runner s) { code := cIllegal }))

/-- R157, R198 to R202: JMP, CALL, RET, BR, LOOP and BRT complete and control goes where the rules say. -/
def Obligations.ControlTransfersComplete : Prop :=
  Sys2Proof.Rules.ControlTransfers ∧ Sys2Proof.Rules.LoopCounts ∧ Sys2Proof.Rules.BranchToJoin

/-- R37, R40, R61, R167: WAITC, NOP and END complete; END with a join pending misses the schedule. -/
def Sys2Proof.Rules.WaitNopEnd : Prop :=
  ∀ (s : State) (n : BitVec 32),
    let c := issueCtx s
    (Issues { core := true } [] s →
      Runs .nop s (moved s) ∧ Runs (.waitc n) s (onStream (moved s) c fun st => { st with waitc := n.toNat }))
    ∧ (Issues { core := true, trap := false } [] s →
      (c.timed = true → (streamAt (moved s) c.key c.seq).joins = [] ) →
        Runs .endw s (onStream (moved s) c fun st => { st with ended := true }))
    ∧ (Issues { core := true, trap := false } [] s → c.timed = true → (streamAt (moved s) c.key c.seq).joins ≠ [] →
        Runs .endw s (takeFault (moved s) (runner s) { code := cSched }))

/-- R40: ALIGNF is the first word of a timed stream and holds it; the last ALIGNF of the region fixes the first frame
boundary at least 64 periods later. START, with IDLE 0, sets TIDE to 0 and clears the joins. -/
def Sys2Proof.Rules.TimedRegionBegins : Prop :=
  ∀ (s : State), Issues { elastic := false, start := true, trap := false, rebuild := false } [] s →
    let c := issueCtx s
    let h := (cellAt (moved s) c.key).reg
    let u := onStream (moved s) c fun st => { st with pos := 1 }
    let r := regAt u (cellAt u c.key).reg
    let last := (timedOf u r).all fun p => decide (1 ≤ ((cellAt u p.1).stream p.2).pos)
    (c.st.pos = 0 → s.curIdle ≠ 0 → last = false → Runs .alignf s u)
    ∧ (c.st.pos = 0 → s.curIdle ≠ 0 → last = true →
        ∃ f, Runs .alignf s (setReg u (cellAt u c.key).reg { r with startF := some f })
          ∧ u.per + 64 ≤ f ∧ f < u.per + 64 + 256 ∧ (u.frame + (f - u.per)) % 256 = 0)
    ∧ (c.st.pos = 1 → s.curIdle = 0 → isCore c.key = false →
        ∃ t, Runs .start s t ∧ (regAt t h).tide = 0 ∧ (regAt t h).started = true
          ∧ ((cellAt t c.key).stream c.seq).joins = [] ∧ ((cellAt t c.key).stream c.seq).pos = 2)

/-- R215, R354, R449: TRAP raises the trap with its code. On a core, MEPC takes the word's address, MCAUSE the code with
the argument and the handler mark, and control goes to MTVEC; RETT in the handler goes back to MEPC and clears the mark. In
a trap stub RETT ends the stub; the last one fixes the period of resumption, 64 after the next frame boundary. -/
def Obligations.TrapAndReturn : Prop :=
  ∀ (s : State) (code : BitVec 16),
    let c := issueCtx s
    let n := c.key - coreKey
    let m := moved s
    (Issues { spaces := [.s], core := true, trap := false, rebuild := false } [] s →
      Runs (.trap code) s (takeFault m (runner s) { code := 0x20, arg := code })
      ∧ (isCore c.key = true → (coreAt m n).mcause.getLsbD 63 = false →
          ∃ t, Runs (.trap code) s t ∧ (coreAt t n).mepc = BitVec.ofNat 64 c.pc
            ∧ (coreAt t n).st.pc = (coreAt m n).mtvec.toNat
            ∧ (coreAt t n).mcause = BitVec.ofNat 64 (0x20 + code.toNat * 65536 + 2 ^ 63)))
    ∧ (Issues { spaces := [.s], core := true, rebuild := false } [] s →
      (isCore c.key = true → (coreAt m n).mcause.getLsbD 63 = true →
        ∃ t, Runs .rett s t ∧ (coreAt t n).st.pc = (coreAt m n).mepc.toNat
          ∧ (coreAt t n).mcause = (coreAt m n).mcause &&& BitVec.ofNat 64 (2 ^ 63 - 1))
      ∧ (isCore c.key = false → ((cellAt m c.key).stream c.seq).stub = .trap →
          let e := setCell m c.key ((cellAt m c.key).setStream c.seq { (cellAt m c.key).stream c.seq with ended := true })
          let r := regAt e (cellAt m c.key).reg
          let p := m.per + (256 - m.frame) + 64
          let more := (regCells r).any fun k => (cellAt e k).kept.isSome && !(cellAt e k).ss.ended
          (more = true → Runs .rett s e)
            ∧ (more = false → Runs .rett s (resumeAfter e (cellAt m c.key).reg p)
                ∧ (regAt (resumeAfter e (cellAt m c.key).reg p) (cellAt m c.key).reg).resP = some p)))

/-- R370, R371: in an elastic stream SLACK holds the stream while a yield is served outside a task, and otherwise has no effect; at
a slack point of the timed streams SLACKDIST becomes 0 and LASTIX the index, and, with the first stream that reaches it, every
cell that is not at rest raises SLACK_STATE once. -/
def Sys2Proof.Rules.SlackPoint : Prop :=
  ∀ (s : State) (n : BitVec 16), Issues { trap := false, rebuild := false } [] s →
    let c := issueCtx s
    let m := moved s
    let h := (cellAt m c.key).reg
    let r := regAt m h
    n ≠ 0xFFFF → n.toNat < (cellAt m c.key).slack.length →
    (c.timed = false → (c.st.task = true ∨ r.swait = none) → Runs (.slack n) s m)
    ∧ (c.timed = false → c.st.task = false → r.swait ≠ none →
        Runs (.slack n) s (onStream m c fun st => { st with held := some n.toNat }))
    ∧ (c.timed = true → agreed m c 0 n.toNat (nextIs m (.slack n)) = true → c.key ∈ regCells r →
        (∀ k ∈ regCells r, ∀ u, u = setReg m h { r with agree := some (c.t, 0, n.toNat), slackd := 0, lastix := n } →
          slackBad u c.t k = false) →
        Runs (.slack n) s (setReg m h { r with agree := some (c.t, 0, n.toNat), slackd := 0, lastix := n }))
    ∧ (c.timed = true → agreed m c 0 n.toNat (nextIs m (.slack n)) = true →
        let u := setReg m h { r with agree := some (c.t, 0, n.toNat), slackd := 0, lastix := n }
        Runs (.slack n) s (if r.agree = some (c.t, 0, n.toNat) then u else slackFaults u c))
    ∧ (c.timed = true → agreed m c 0 n.toNat (nextIs m (.slack n)) = false →
        Runs (.slack n) s (takeFault m (runner s) { code := cSched }))

/-- R217: at a turn point the first stream of the region takes the level in force, LEVEL.GRANT and LEVEL.VAR with it, and
counts the turn once; each stream goes to its continuation of the variant; an index beyond the table is illegal, and a
disagreement misses the schedule. -/
def Sys2Proof.Rules.TurnPoint : Prop :=
  ∀ (s : State) (n : BitVec 16) (e : Word) (y : Nat), Issues { elastic := false, trap := false, rebuild := false } [] s →
    let c := issueCtx s
    let m := moved s
    let h := (cellAt m c.key).reg
    (c.st.turns[n.toNat]? = none → Runs (.turn n) s (takeFault m (runner s) { code := cIllegal }))
    ∧ (c.st.turns[n.toNat]? = some e → agreed m c 1 n.toNat (nextIs m (.turn n)) = false →
        Runs (.turn n) s (takeFault m (runner s) { code := cSched }))
    ∧ (c.st.turns[n.toNat]? = some e → agreed m c 1 n.toNat (nextIs m (.turn n)) = true →
        ((regAt m h).agree = some (c.t, 1, n.toNat) → inImage m c y = true →
          y = 8 * bits e (16 * (regAt m h).var.toNat + 15) (16 * (regAt m h).var.toNat) →
          Runs (.turn n) s (goneTo s m y))
        ∧ ((regAt m h).agree ≠ some (c.t, 1, n.toNat) →
          let l := turnLevel m
          let v := varOf l l.grant.toNat
          let r := regAt l h
          let u := setReg l h { r with agree := some (c.t, 1, n.toNat), grant := l.grant, var := BitVec.ofNat 2 v,
                                       turns := if r.turns = 0xFFFFFFFF then r.turns else r.turns + 1 }
          inImage u c y = true → y = 8 * bits e (16 * (v % 4) + 15) (16 * (v % 4)) →
          Runs (.turn n) s (goneTo s u y)))

/-- R37, R40, R61, R217, R370: WAITC, NOP, END, ALIGNF, START, SLACK and TURN complete. -/
def Obligations.StreamControlWords : Prop :=
  Sys2Proof.Rules.WaitNopEnd ∧ Sys2Proof.Rules.TimedRegionBegins ∧ Sys2Proof.Rules.SlackPoint ∧ Sys2Proof.Rules.TurnPoint

/-- R189, R190: TCOORD steps a tensor address by b along a dimension, in the linear index; TDIM reads a field of the
descriptor of the plan's launch. -/
def Obligations.TensorCoordinates : Prop :=
  ∀ (s : State) (d a b : BitVec 6) (dim : BitVec 3) (sel : BitVec 7) (ds : Desc),
    let x := src s a
    launchDesc (moved s) (issueCtx s).key (tidOf x) = some ds →
    (Issues { spaces := [.s], core := true } [d, a, b] s → dim.toNat < 5 →
      let i := ((idxOf x : Int) + (src s b).toInt * (((ds.ext.take dim.toNat).foldl (· * ·) 1 : Nat) : Int)) % 2 ^ 48
      Lands (.tcoord d a b dim) s d (BitVec.ofNat 64 (tidOf x * 2 ^ 48 + i.toNat)) 3)
    ∧ (Issues { spaces := [.s], core := true } [d, a] s →
      (∀ k, sel.toNat = k → k < 5 → Lands (.tdim d a sel) s d (BitVec.ofNat 64 (ds.ext.getD k 0)) 3)
      ∧ (∀ k, sel.toNat = 8 + k → k < 5 → Lands (.tdim d a sel) s d (BitVec.ofNat 64 (ds.tile.getD k 0)) 3)
      ∧ (sel = 16 → Lands (.tdim d a sel) s d (BitVec.ofNat 64 ds.count) 3)
      ∧ (sel = 17 → Lands (.tdim d a sel) s d (BitVec.ofNat 64 ds.ntiles) 3)
      ∧ (sel = 18 → Lands (.tdim d a sel) s d (BitVec.ofNat 64 ds.tileBytes) 3)
      ∧ (sel = 19 → Lands (.tdim d a sel) s d (BitVec.ofNat 64 ds.fmt) 3)
      ∧ (sel = 20 → Lands (.tdim d a sel) s d (BitVec.ofNat 64 ds.rank) 3))

/-- R191, R192, R84, R85, R108: LD and ST of a scratchpad that the cell may access complete. LD reads the bytes
little-endian, zero- or sign-extended, landing at issue + 4 in the own scratchpad and + 10 + hops in the cluster; ST stores
the low bytes of its register through the phase buffers. A watch that matches raises WATCH after the access (R364); a load
that reads bits in error raises the memory error (R83). -/
def Obligations.ScratchpadLoadStore : Prop :=
  ∀ (s : State) (d a : BitVec 6) (sub : BitVec 3) (sz : BitVec 2) (imm : BitVec 32) (o : Nat),
    Issues (lgMem (spadBase s s.cur a)) [d, a] s →
    let c := issueCtx s
    let m := moved s
    let ea := scalarEa (src s a) imm
    tidOf ea = 0xFFFF →
    (∀ n, sub ≠ 7 → n = 2 ^ (sub.toNat % 4) → spOwner m c.key ea n = some o → spadBad m o (spOff ea) n = true →
      Runs (.ld d a sub imm) s
        (takeFault m (runner s)
          { code := 6, taddr := ea, shadow := some (src s a, 0, 0, c.t + (if o = c.key then 4 else 10 + hops c.key o)) }))
    ∧ (∀ n, sub ≠ 7 → n = 2 ^ (sub.toNat % 4) → spOwner m c.key ea n = some o → spadBad m o (spOff ea) n = false →
      let x := ofBytes (spadBytes m c.key o (spOff ea) n)
      let v := if sub.toNat < 4 then BitVec.ofNat 64 x else sextNat (8 * n) x
      let t := landA m c d v (if o = c.key then 4 else 10 + hops c.key o)
      Runs (.ld d a sub imm) s
        (if watchHit m c.key false (accessAddrs m 0 ea n) then takeFault t (runner s) { code := 0x22, taddr := ea } else t))
    ∧ (∀ n t, n = 2 ^ sz.toNat → spOwner m c.key ea n = some o → spadMergeBad m o (spOff ea) n = false →
        storeAt (spadHeal m o (spOff ea) n) c o (spOff ea) (toBytes n (src s d).toNat) 1 = some t →
        Runs (.st d a sz imm) s
          (if watchHit m c.key true (accessAddrs m 0 ea n) then takeFault t (runner s) { code := 0x22, taddr := ea } else t))
    ∧ (∀ n, n = 2 ^ sz.toNat → spOwner m c.key ea n = none →
        Runs (.st d a sz imm) s
          (takeFault m (runner s) { code := 3, taddr := ea, shadow := some (src s a, src s d, 0, c.t + 1) }))
    ∧ (∀ n, n = 2 ^ sz.toNat → spOwner m c.key ea n = some o → spadMergeBad m o (spOff ea) n = false →
        storeAt (spadHeal m o (spOff ea) n) c o (spOff ea) (toBytes n (src s d).toNat) 1 = none →
        Runs (.st d a sz imm) s (takeFault m (runner s) { code := 11, taddr := ea }))

/-- R98, R105, R113, R114, R191 to R193: LD, LD.ACQ, ST and ST.REL of device memory that a lease covers complete with a
request to the home; a load whose sectors the cell holds reads them at once, unless an acquire or an earlier load of its location
is still to be performed; an acquire drops the sector buffer first, and a release's request says that it is one. -/
def Obligations.DeviceLoadStore : Prop :=
  ∀ (s : State) (d a : BitVec 6) (sub : BitVec 3) (sz : BitVec 2) (imm : BitVec 32) (ds : Desc) (tile off : Nat),
    let c := issueCtx s
    let m := moved s
    let ctx := ctxOf m c.key
    let ea := scalarEa (src s a) imm
    tidOf ea ≠ 0xFFFF →
    (∀ n, sub ≠ 7 → n = 2 ^ (sub.toNat % 4) → c.timed = false → scalarPlace m ctx ea n = .ok (ds, tile, off) →
      leased m c.key ctx (tidOf ea) tile false = true → watchHit m c.key false (accessAddrs m ctx ea n) = false →
      (Issues (lgMem (spadBase s s.cur a)) [d, a] s →
        (∀ bs ids, bufferServes m c ea n = true → sectRead m c.key (tidOf ea) tile off n = some (bs, ids) →
          let x := ofBytes bs
          let v := if sub.toNat < 4 then BitVec.ofNat 64 x else sextNat (8 * n) x
          Runs (.ld d a sub imm) s (landA (observe m c ids) c d v 0))
        ∧ (sectRead m c.key (tidOf ea) tile off n = none ∨ bufferServes m c ea n = false →
            Runs (.ld d a sub imm) s (issueReq m c { kind := .load, key := 0, seq := .s, addr := ea, n := n, dst := d.toNat,
                                                     sext := sub.getLsbD 2 })))
      ∧ (Issues { lgMem (spadBase s s.cur a) with timed := false } [d, a] s →
          Runs (.ldAcq d a sub imm) s
            (issueReq (dropSects m c.key) c { kind := .load, key := 0, seq := .s, addr := ea, n := n, dst := d.toNat,
                                              sext := sub.getLsbD 2, bypass := true, acq := true })))
    ∧ (∀ (n : Nat) (rel : Bool), n = 2 ^ sz.toNat → scalarPlace m ctx ea n = .ok (ds, tile, off) →
        leased m c.key ctx (tidOf ea) tile true = true → watchHit m c.key true (accessAddrs m ctx ea n) = false →
        Issues (lgMem (spadBase s s.cur a)) [d, a] s →
        ∃ t r, Runs (if rel then .stRel d a sz imm else .st d a sz imm) s t ∧ sfind t.reqs m.nextId = some r
          ∧ r.kind = .store ∧ r.key = c.key ∧ r.ctx = ctx ∧ r.addr = ea ∧ r.n = n
          ∧ r.data = (src s d).toNat % 2 ^ (8 * n) ∧ r.rel = rel
          ∧ t.mem = m.mem)
    ∧ (Issues (lgMem (spadBase s s.cur a)) [d, a] s → ∀ (n : Nat) (rel : Bool), n = 2 ^ sz.toNat →
        scalarPlace m ctx ea n = .ok (ds, tile, off) → leased m c.key ctx (tidOf ea) tile true = false →
        Runs (if rel then .stRel d a sz imm else .st d a sz imm) s
          (takeFault m (runner s) { code := 5, taddr := ea, shadow := some (src s a, src s d, 0, c.t + 1) }))

/-- R95, R123, R194 to R197: AMO, CAS, FADDW and FADDR of device memory that a lease covers complete with one request to the
home, which carries the operands truncated to the width, the use and the reply registers. -/
def Obligations.AtomicsSendRequests : Prop :=
  ∀ (s : State) (d a b e f : BitVec 6) (op : BitVec 4) (use : BitVec 3) (w : BitVec 1) (ds : Desc) (tile off : Nat),
    let c := issueCtx s
    let m := moved s
    let ctx := ctxOf m c.key
    let x := src s a
    let n := if w = 1 then 4 else 8
    tidOf x ≠ 0xFFFF →
    ((c.timed = true → d = 0 ∧ f = 0) → leased m c.key ctx (tidOf x) tile true = true →
      watchHit m c.key true (accessAddrs m ctx x n) = false → atomicPlace m ctx x n = .ok (ds, tile, off) →
      (Issues (lgMem false) [d, a, b] s → op.toNat < 9 → useAdmits use.toNat op.toNat = true →
        (use = 1 → d = 0) →
        ∃ t r, Runs (.amo d a b op use w) s t ∧ sfind t.reqs m.nextId = some r ∧ r.kind = .amo op.toNat ∧ r.key = c.key
          ∧ r.addr = x ∧ r.n = n ∧ r.data = (src s b).toNat % 2 ^ (8 * n) ∧ r.use = use.toNat ∧ r.dst = d.toNat)
      ∧ (Issues (lgMem false) [d, a, b, e, f] s → useAdmits use.toNat 9 = true →
        ∃ t r, Runs (.cas d a b e f use w) s t ∧ sfind t.reqs m.nextId = some r ∧ r.kind = .cas ∧ r.key = c.key
          ∧ r.addr = x ∧ r.n = n ∧ r.data = (src s e).toNat % 2 ^ (8 * n) ∧ r.data2 = (src s b).toNat % 2 ^ (8 * n)
          ∧ r.use = use.toNat ∧ r.dst = d.toNat ∧ r.flag = f.toNat))
    ∧ (widePlace m ctx x = .ok (tile, off) →
      (Issues (lgMem (spadBase s s.cur a)) [a, b] s → leased m c.key ctx (tidOf x) tile true = true →
        watchHit m c.key true [x] = false → ∀ q, wideOf ((src s b).toNat % 2 ^ 32) = some q →
        ∃ t r, Runs (.faddw a b) s t ∧ sfind t.reqs m.nextId = some r ∧ r.kind = .faddw ∧ r.key = c.key ∧ r.addr = x
          ∧ r.n = 32 ∧ r.data = q)
      ∧ (Issues { lgMem (spadBase s s.cur a) with timed := false } [d, a] s → leased m c.key ctx (tidOf x) tile false = true →
        watchHit m c.key false [x] = false →
        ∃ t r, Runs (.faddr d a) s t ∧ sfind t.reqs m.nextId = some r ∧ r.kind = .faddr ∧ r.key = c.key ∧ r.addr = x
          ∧ r.n = 32 ∧ r.dst = d.toNat))

/-- R116, R120, R204 to R209, R216: FENCE ends when its fence is complete and drops the sector buffer; one not yet complete
holds its stream; a timed one is recorded and lets the next word issue 56 cycles later; PHASE ends the cell's phase; TOKW
consumes its tokens; SYNCI drops the prefetched words. -/
def Obligations.PhaseFenceTokens : Prop :=
  ∀ (s : State) (a : BitVec 6) (scope : BitVec 3) (k1 k2 k3 : BitVec 5),
    let c := issueCtx s
    let m := moved s
    let next := c.t + idleNat (fetchWord m c.key c.seq)
    (Issues { spaces := [.s], core := true } [] s →
      (scope.toNat < 5 →
        (c.timed = false → fenceDone m c.key c.seq scope.toNat = true →
          Runs (.fence scope) s
            (dropSects (onStream m c fun st => { st with obs := if 3 ≤ scope.toNat then [] else st.obs }) c.key))
        ∧ (c.timed = false → fenceDone m c.key c.seq scope.toNat = false →
          Runs (.fence scope) s
            (onStream { m with nextId := m.nextId + 1 } c fun st =>
              { st with fences := st.fences ++ [{ scope := scope.toNat, next := 0, asked := true, id := m.nextId, born := m.tick,
                                                  pc := c.pc }] }))
        ∧ (c.timed = true → c.t + 56 ≤ next →
          Runs (.fence scope) s
            (onStream { m with nextId := m.nextId + 1 } c fun st =>
              { st with fences := st.fences ++ [{ scope := scope.toNat, next := next, asked := false, id := m.nextId, born := m.tick,
                                                  pc := c.pc }] }))
        ∧ (c.timed = true → next < c.t + 56 → Runs (.fence scope) s (takeFault m (runner s) { code := 1 })))
      ∧ (c.core = false → ∃ t, Runs .synci s t ∧ sectsOf t c.key = []
          ∧ ∀ q, ((cellAt t c.key).stream q).pre = []))
    ∧ (Issues { spaces := [.s], trap := false, rebuild := false } [a] s → ∀ l, phaseCells m c.key (src s a) scope.toNat = some l →
        (c.timed = true → c.t + (if scope = 1 then 16 else 64) ≤ next ∧
          ∀ k ∈ l, k ≠ c.key → phaseMate m (src s a) scope.toNat c.t k = true) →
        (c.timed = false → ∀ k ∈ regCells (regAt m (cellAt m c.key).reg), k ≠ c.key → (cellAt m k).phase = none) →
        isCore c.key = false →
        ∃ t, Runs (.phase a scope) s t ∧ (cellAt t c.key).ep = (cellAt m c.key).ep + 1
          ∧ ∃ p, (cellAt t c.key).phase = some p ∧ p.grp = src s a ∧ p.scope = scope.toNat ∧ p.ep = (cellAt m c.key).ep)
    ∧ (Issues { spaces := [.s], trap := false } [] s →
        ∀ t, takeToks m c.key { kd := 0, k1 := k1, k2 := k2, k3 := k3 } = some t → Runs (.tokw k1 k2 k3) s t)

/-- R92, R208, R242, R243: BAR and ARRV arrive at the barrier of their address. An elastic arrival acts at once, returns
the parity of the round, and, with WAIT, holds the stream until the parity turns; a timed one acts at the owner's port hops
later. A broken barrier word raises the barrier fault. BWAIT waits for the parity, or tests it at the port. -/
def Obligations.BarrierWordsComplete : Prop :=
  ∀ (s : State) (d a b : BitVec 6) (wait : BitVec 1) (k : Toks) (o off : Nat),
    let c := issueCtx s
    let m := moved s
    let x := src s a
    barAddr m c.key x = some (o, off) → spadBad m o off 8 = false →
    watchHit m c.key true (accessAddrs m 0 x 8) = false → watchHit m c.key false (accessAddrs m 0 x 8) = false →
    let w := barWord m o off
    let par := bits w 60 60
    (Issues { spaces := [.s], trap := false, rebuild := false, acc := true } [d, a, b] s →
      (∀ w', c.timed = false → arriveWord w (src s b).toInt = some w' →
        let u := landA (setBarWord m o off w') c d (BitVec.ofNat 64 par) 0
        Runs (.bar d a b wait) s
          (if wait = 1 then onStream u c fun st => { st with bw := some (o, off, par, 0) } else u))
      ∧ (c.timed = false → arriveWord w (src s b).toInt = none →
        Runs (.bar d a b wait) s (takeFault m (runner s) { code := 8, taddr := x }))
      ∧ (c.timed = true →
        Runs (.bar d a b wait) s (addLatch m c.key
          { due := c.t + hops c.key o,
            tgt := .arrive o off d.toNat (c.t + (if o = c.key then 4 else 10 + hops c.key o)) (wait == 1),
            val := arriveVal (src s b) x m.curWord, seq := c.seq, pc := c.pc })))
    ∧ (Issues { spaces := [.lw] } [a, b] s → ∀ t, takeToks m c.key k = some t →
      (∀ w', c.timed = false → arriveWord w (src s b).toInt = some w' →
        Runs (.arrv a b k) s (landA (setBarWord t o off w') c 0 (BitVec.ofNat 64 par) 0))
      ∧ (c.timed = true →
        Runs (.arrv a b k) s (addLatch t c.key
          { due := c.t + hops c.key o,
            tgt := .arrive o off 0 (c.t + (if o = c.key then 4 else 10 + hops c.key o)) false,
            val := arriveVal (src s b) x t.curWord, seq := c.seq, pc := c.pc }))
      ∧ (c.timed = false →
        Runs (.bwait a b k) s
          (onStream t c fun st => { st with bw := some (o, off, bits (src s b) 0 0, k.kd.toNat) }))
      ∧ (c.timed = true → k.kd = 0 →
        Runs (.bwait a b k) s (addLatch t c.key
          { due := c.t + hops c.key o, tgt := .bwait o off, val := BitVec.ofNat 2048 (bits (src s b) 0 0), seq := c.seq,
            pc := c.pc })))

/-- What the issue of a word of a cell leaves alone, whatever it comes to: device memory, the tables, the host's queues, every core,
every privileged register and every other cell. -/
def Sys2Proof.Rules.Outside (s t : State) (key : Nat) : Prop :=
  (∀ a, memByte t a = memByte s a) ∧ t.tens = s.tens ∧ t.tt = s.tt ∧ t.pregs = s.pregs ∧ t.cores = s.cores ∧ t.queues = s.queues
    ∧ t.records = s.records ∧ ∀ k ≠ key, cellAt t k = cellAt s k

/-- R43 to R45, R210: the S words on queues complete. QPUSH appends its register, or 256 bytes of the own scratchpad, landing
at issue + 1 or + 4; QPOP takes and QPEEK leaves the oldest entry, a marked one reading as 0; QCNT counts; a stream that is
not the declared producer or consumer is illegal; an empty schedule-fed queue is a schedule miss in a timed stream. -/
def Sys2Proof.Rules.QueueWordsComplete : Prop :=
  ∀ (s : State) (q : BitVec 4) (d a : BitVec 6),
    let c := issueCtx s
    let m := moved s
    let n := q.toNat
    let x := (src s a).toNat
    (Issues { spaces := [.s], trap := false, acc := true } [a] s →
      producer m c n = true →
      (c.timed = false → busyWrite m c n = false ∧ (qEnts m c.key n).length < (if n < 8 then 16 else 8)) →
      (n < 8 → Runs (.qpush q a) s (landQ m c n { data := (src s a).setWidth 2048, mark := false } 1))
      ∧ (8 ≤ n → x + 256 ≤ spadSize c.key → spadBad m c.key x 256 = false →
          watchHit m c.key false (spadAddrs c.key x 256) = false →
          Runs (.qpush q a) s
            (landQ m c n { data := BitVec.ofNat 2048 (ofBytes (spadBytes m c.key c.key x 256)), mark := false } 4)))
    ∧ (Issues { spaces := [.s], trap := false, acc := true } [a] s → producer m c n = false →
        Runs (.qpush q a) s (takeFault m (runner s) { code := 1 }))
    ∧ (Issues { spaces := [.s], trap := false, acc := true } [d, a] s → consumer m c n = true → busyRead m c n = false →
      (∀ e es, qEnts m c.key n = e :: es →
        let v := if e.mark then 0 else e.data
        let took := setQ m c.key n es
        (n < 8 → Runs (.qpop q d a) s (landA took c d (v.setWidth 64) 1)
          ∧ Runs (.qpeek q d a) s (landA m c d (v.setWidth 64) 1))
        ∧ (8 ≤ n → x + 256 ≤ spadSize c.key → spadMergeBad m c.key x 256 = false →
            watchHit m c.key true (spadAddrs c.key x 256) = false →
            (∀ u, entryToSpad (spadHeal took c.key x 256) c x v = some u → Runs (.qpop q d a) s u)
            ∧ (∀ u, entryToSpad (spadHeal m c.key x 256) c x v = some u → Runs (.qpeek q d a) s u)))
      ∧ (qEnts m c.key n = [] → c.timed = true → (qFeed m c.key n).kind = .sched →
          Runs (.qpop q d a) s (takeFault m (runner s) { code := 2 })
          ∧ Runs (.qpeek q d a) s (takeFault m (runner s) { code := 2 })))
    ∧ (Issues { spaces := [.s], trap := false } [d] s → (qFeed m c.key n).kind ≠ .unused →
        Runs (.qcnt q d) s (landA m c d (BitVec.ofNat 64 (qEnts m c.key n).length) 1))

/-- The queue of an S word on queues, with the scalar register that it writes and that which names its place. -/
def Sys2Proof.Rules.queueWord : Instr → Option (BitVec 4 × BitVec 6 × BitVec 6)
  | .qpush q a => some (q, 0, a)
  | .qpop q d a | .qpeek q d a => some (q, d, a)
  | .qcnt q d => some (q, d, 0)
  | _ => none

/-- R43 to R45, R210: the frame of an S word on queues. Beside its queue, its scalar register and, for an entry of 256 bytes that
goes to the scratchpad, these bytes, nothing of any cell changes that a program can read, and nothing outside the cells. -/
def Sys2Proof.Rules.QueueWordFrame : Prop :=
  ∀ (s t : State) (i : Instr) (q : BitVec 4) (d a : BitVec 6), Sys2Proof.Rules.queueWord i = some (q, d, a) → isCore s.cur = false →
    exec i s = .next t →
    let x := cellAt s s.cur
    let y := cellAt t s.cur
    Sys2Proof.Rules.Outside s t s.cur ∧ t.reqs = s.reqs ∧ t.ops = s.ops
      ∧ (∀ r ≠ d.toNat, readA t s.cur r = readA s s.cur r)
      ∧ (∀ n ≠ q.toNat, qEnts t s.cur n = qEnts s s.cur n)
      ∧ (∀ k p z, ¬ (p = s.cur ∧ (src s a).toNat ≤ z ∧ z < (src s a).toNat + 256) → spadByte t k p z = spadByte s k p z)
      ∧ y.v = x.v ∧ y.m = x.m ∧ y.k = x.k ∧ y.dl = x.dl ∧ y.dw = x.dw ∧ y.csr = x.csr ∧ y.mx = x.mx ∧ y.gs = x.gs ∧ y.fifo = x.fifo

/-- R43 to R45, R210: the S words on queues complete, and change nothing but what the rules name. -/
def Obligations.QueueWords : Prop :=
  Sys2Proof.Rules.QueueWordsComplete ∧ Sys2Proof.Rules.QueueWordFrame

/-- R120, R211, R212: ENG starts its operation with its operands and token register once its tokens are consumed; JOIN
completes as it begins, an elastic one when no write to a registers is in flight (log 80); FPUSH appends to FQ of a matrix cell that has room. -/
def Obligations.EngineCommandsStart : Prop :=
  ∀ (s : State) (d a b : BitVec 6) (k : Toks),
    let c := issueCtx s
    let m := moved s
    let begins (kind : OpKind) (t : State) : State := startOp t c
      { kind := kind, key := 0, seq := .s, reg := 0, pc := 0, ord := 0, va := src s a, vb := src s b, kd := k.kd.toNat,
        dst := d.toNat }
    (Issues { spaces := [.s], trap := false, acc := !(peerBase s s.cur a || peerBase s s.cur b) } [d, a, b] s → (c.timed = true → d = 0) →
      (c.timed = false → engCount m c.key < 64) → ∀ t, takeToks m c.key k = some t →
      Runs (.engTload d a b k) s (begins .tload t) ∧ Runs (.engTcopy d a b k) s (begins .tcopy t)
        ∧ Runs (.engTstore d a b k) s (begins .tstore t) ∧ Runs (.engTfill d a b k) s (begins .tfill t))
    ∧ (Issues { spaces := [.s], trap := false } [d] s → (c.timed = true → d = 0) →
      (c.timed = false → engCount m c.key < 64 ∧ anyPendingA m c.key = false) → ∀ t u, takeToks m c.key k = some t → addTok t c.key k.kd.toNat = (u, true) →
      Runs (.engJoin d k) s (landA u c d 0 1))
    ∧ (Issues { spaces := [.s], trap := false } [a] s → classOf c.key = 0 → (cellAt m c.key).mx.fq.length < 16 →
      (c.timed = false →
        Runs (.fpush a) s
          (setCell m c.key
            { cellAt m c.key with mx := { (cellAt m c.key).mx with fq := (cellAt m c.key).mx.fq ++ [src s a] } }))
      ∧ (c.timed = true →
        Runs (.fpush a) s
          (addLatch m c.key { due := c.t + 1, tgt := .fq, val := (src s a).setWidth 2048, seq := c.seq, pc := c.pc })))

/-- R213, R214, R350: RDTIDE reads TIDE, the reference ticks or the frame counter; CSRR reads an assigned CSR, clearing the
counts that a read clears; CSRW writes a writable one at issue + 1; an unassigned or read-only number is illegal. On a core,
the mix registers read, and RDTIDE of TIDE is a free value (the manual gives a core no TIDE: log 6). -/
def Sys2Proof.Rules.ControlRegisters : Prop :=
  ∀ (s : State) (d a : BitVec 6) (csr : BitVec 12),
    let c := issueCtx s
    let m := moved s
    let n := csr.toNat
    (Issues { spaces := [.s], core := true } [d] s →
      (c.core = false → Lands (.rdtide d 0) s d (BitVec.ofNat 64 (regOf m c.key).tide) 1)
      ∧ Lands (.rdtide d 1) s d (BitVec.ofNat 64 m.tick) 1
      ∧ Lands (.rdtide d 2) s d (BitVec.ofNat 64 m.frame) 1
      ∧ (c.core = true → ∃ v, Runs (.rdtide d 0) s (landA { m with freeCtr := m.freeCtr + 1 } c d v 1))
      ∧ (∀ v, csrValue m c.key n = some v → c.core = false →
          Runs (.csrr d csr) s (landA (setCell m c.key (csrClear (cellAt m c.key) n)) c d v 1))
      ∧ (c.core = true → Lands (.csrr d 0x18) s d m.mixa 1 ∧ Lands (.csrr d 0x19) s d m.mixb 1
          ∧ Lands (.csrr d 0x1A) s d m.mixc 1 ∧ Lands (.csrr d 0x1B) s d m.mixd 1)
      ∧ (csrValue m c.key n = none → Runs (.csrr d csr) s (takeFault m (runner s) { code := 1 })))
    ∧ (Issues { spaces := [.s], core := true } [a] s →
      (csrWritable c.key n (src s a) = true → c.core = false →
        (c.timed = false → Runs (.csrw csr a) s (csrPut m c.key n (src s a)))
        ∧ (c.timed = true →
            Runs (.csrw csr a) s
              (addLatch m c.key { due := c.t + 1, tgt := .csr n, val := (src s a).setWidth 2048, seq := c.seq, pc := c.pc })))
      ∧ (csrWritable c.key n (src s a) = false → Runs (.csrw csr a) s (takeFault m (runner s) { code := 1 })))

/-- R351: on a core, PCSRR and PCSRW read and write an assigned register of a fitted site; a number of 0x800 or more is a
capability fault on every core but the lighthouse core's; REGISTER_WRITE applies a core's write at its target. -/
def Sys2Proof.Rules.PrivilegedRegisters : Prop :=
  ∀ (s : State) (d a : BitVec 6) (site : BitVec 8) (reg : BitVec 12) (r : PReg) (core : Nat) (v : Word),
    let c := issueCtx s
    let m := moved s
    let me := c.key - coreKey
    siteOk site.toNat = true → pregOf site.toNat reg.toNat = some r →
    (siteFitted m site.toNat = true → (reg.toNat < 0x800 ∨ me = 8) →
      (Issues { mgmt := true } [d] s →
        Runs (.pcsrr d site reg) s
          (landA (regRead m me site.toNat reg.toNat r).2 c d (regRead m me site.toNat reg.toNat r).1 1))
      ∧ (Issues { mgmt := true } [a] s →
        Runs (.pcsrw site reg a) s (regWrite m me site.toNat reg.toNat r (src s a))))
    ∧ (me ≠ 8 → 0x800 ≤ reg.toNat →
      (Issues { mgmt := true } [d] s → Runs (.pcsrr d site reg) s (takeFault m (runner s) { code := 18 }))
      ∧ (Issues { mgmt := true } [a] s → Runs (.pcsrw site reg a) s (takeFault m (runner s) { code := 18 })))
    ∧ ((reg.toNat < 0x800 ∨ core = 8) → siteFitted s site.toNat = true →
        Runs (.registerWrite core site reg v) s (regWrite s core site.toNat reg.toNat r v))

/-- R442, R465, R470, R482: a read of RFE1 takes the oldest residency fault, and the posts that wait take the room; one of HOTE
takes the oldest sample; the first write of a package number stands; a write of FWDINV selects its frame word. -/
def Sys2Proof.Rules.RegistersWithEffects : Prop :=
  ∀ (s : State) (v : Word) (base h : Nat),
    (∀ e l, s.rfbuf = e :: l → s.rfwaitq = [] → Runs .rfe1Read s { s with rfbuf := l })
    ∧ (∀ e l, s.rfbuf = e :: l →
        let moved := s.rfwaitq.take (64 - l.length)
        Runs .rfe1Read s { s with rfbuf := l ++ moved, rfwaitq := s.rfwaitq.drop (64 - l.length),
                                  rfgen := s.rfgen + BitVec.ofNat 32 moved.length })
    ∧ (∀ w l, (sget {} s.hot base).ring = w :: l →
        Runs (.hoteRead base) s { s with hot := sset s.hot base { sget {} s.hot base with ring := l } })
    ∧ (bits (preg s 0x20 0x70) 15 0 = 0xFFFF → Runs (.pkgidWrite v) s (setPreg s 0x20 0x70 (v &&& 0xFFFF)))
    ∧ (bits (preg s 0x20 0x70) 15 0 ≠ 0xFFFF → Runs (.pkgidWrite v) s s)
    ∧ Runs (.fwdinvSelect v) s (setPreg s 0x20 0x1C0 v)
    ∧ (∀ r, sfind s.regions h = some r → r.rfwait = true → Runs (.rfackRetry h) s (setReg s h { r with rfwait := false }))
    ∧ (∀ r, sfind s.regions h = some r → r.rfwait = true → Runs (.rfackFail h) s (refuseRun s h stLease))

/-- R214: the frame of CSRW. Nothing changes but the CSRs of the cell, and of a cell's CSRs only those that can be written. -/
def Sys2Proof.Rules.CsrWriteFrame : Prop :=
  ∀ (s t : State) (csr : BitVec 12) (a : BitVec 6), isCore s.cur = false → exec (.csrw csr a) s = .next t →
    let x := cellAt s s.cur
    let y := cellAt t s.cur
    Sys2Proof.Rules.Outside s t s.cur ∧ t.reqs = s.reqs ∧ t.ops = s.ops
      ∧ (∀ r, readA t s.cur r = readA s s.cur r)
      ∧ y.v = x.v ∧ y.m = x.m ∧ y.k = x.k ∧ y.q = x.q ∧ y.spad = x.spad ∧ y.pwb = x.pwb ∧ y.inb = x.inb ∧ y.dl = x.dl ∧ y.dw = x.dw
      ∧ y.mx = x.mx ∧ y.gs = x.gs ∧ y.fifo = x.fifo
      ∧ (csr ≠ 0x48 → y.csr.watcha = x.csr.watcha) ∧ (csr ≠ 0x49 → y.csr.watchc = x.csr.watchc)
      ∧ (csr ≠ 0x50 → y.csr.maxdepth = x.csr.maxdepth) ∧ (csr ≠ 0x30 → y.csr.shwinNew = x.csr.shwinNew)
      ∧ y.csr.shwin = x.csr.shwin ∧ y.csr.phconf = x.csr.phconf ∧ y.csr.aperr = x.csr.aperr

/-- R214, R351, R352 and the register tables: every CSR and privileged register is read and written as its table says,
and a CSR written changes no other. -/
def Obligations.RegistersReadAndWritten : Prop :=
  Sys2Proof.Rules.ControlRegisters ∧ Sys2Proof.Rules.CsrWriteFrame ∧ Sys2Proof.Rules.PrivilegedRegisters
    ∧ Sys2Proof.Rules.RegistersWithEffects

/-- R352, R353, R448: MBOXS sends to a core with room and answers 0, 1 for a full mailbox and 2 for no such core; MBOXR
takes the oldest message or 0; MWAIT ends when a message is there; device events and lighthouse answers enter their mailbox
in order. -/
def Obligations.MailboxWordsExchange : Prop :=
  ∀ (s : State) (d a b : BitVec 6) (n : BitVec 32),
    let c := issueCtx s
    let m := moved s
    let me := c.key - coreKey
    let id := bits (src s a) 7 0
    (Issues { mgmt := true } [d, a, b] s →
      (1 ≤ id → id ≤ 9 → id ≠ me + 1 → (coreAt m (id - 1)).mbox.length < 64 →
        Runs (.mboxs d a b) s
          (landA (setCore m (id - 1)
            { coreAt m (id - 1) with
              mbox := (coreAt m (id - 1)).mbox ++ [BitVec.ofNat 64 ((me + 1) * 2 ^ 56 + (src s b).toNat % 2 ^ 56)] }) c d 0 1))
      ∧ (1 ≤ id → id ≤ 9 → id ≠ me + 1 → 64 ≤ (coreAt m (id - 1)).mbox.length → Lands (.mboxs d a b) s d 1 1)
      ∧ (id = 0 ∨ 9 < id ∨ id = me + 1 → Lands (.mboxs d a b) s d 2 1))
    ∧ (Issues { mgmt := true } [d] s →
      (∀ w l, (coreAt m me).mbox = w :: l →
        Runs (.mboxr d) s (landA (setCore m me { coreAt m me with mbox := l }) c d w 1))
      ∧ ((coreAt m me).mbox = [] → Lands (.mboxr d) s d 0 1))
    ∧ (Issues { mgmt := true } [] s → (coreAt m me).mbox ≠ [] → Runs (.mwait n) s m)
    ∧ (∀ k w l, s.devq = (k, w) :: l → (coreAt s k).mbox.length < 64 → s.rstT = none →
        Runs .deviceEventDeliver s
          (setCore { s with devq := l } k { coreAt s k with mbox := (coreAt s k).mbox ++ [w] }))
    ∧ (∀ k w l, s.lhans = (k, w) :: l → (coreAt s k).mbox.length < 64 →
        Runs .lighthouseAnswerDeliver s
          (setCore { s with lhans := l } k { coreAt s k with mbox := (coreAt s k).mbox ++ [w] }))
    ∧ (∀ k, coreNext s k = some (.mwait n) → n ≠ 0 → (coreAt s k).mbox = [] → coreWaited s k n.toNat = true →
        Runs (.mwaitTimeout k) s (setCore s k { coreAt s k with st := (coreAt s k).st.advance s.per (coreAt s k).st.joins }))
    ∧ (∀ k e site reg, coreNext s k = some (.pcsrr e site reg) → coreWaited s k 200000 = true →
        Runs (.pcsrrTimeout k) s (coreFault s k (coreAt s k).st.pc { code := 15 }))

/-- R120, R162, R209: a word's tokens are consumed together: with every register that the consumer fields name at its demand
or above, the counts fall by the demand and nothing else changes; otherwise nothing is consumed. -/
def Obligations.TokensConsumed : Prop :=
  ∀ (s : State) (key : Nat) (k : Toks),
    ((∀ n ∈ tokRegs k, demand k n ≤ tok s key n) →
      ∃ t, takeToks s key k = some t ∧ (∀ n ∈ tokRegs k, tok t key n = tok s key n - demand k n)
        ∧ (∀ n, n ∉ tokRegs k → tok t key n = tok s key n) ∧ (∀ x, x ≠ key → cellAt t x = cellAt s x)
        ∧ t.mem = s.mem ∧ ∃ l, t = setCell s key { cellAt s key with k := l })
    ∧ ((∃ n ∈ tokRegs k, tok s key n < demand k n) → takeToks s key k = none)

/-- R219 to R238, R120, R224: an access word whose descriptors pass the checks of R221, whose stream has fewer than 16
operations outstanding and whose tokens are there starts its operation, with the descriptor latched, and writes descriptor
registers: DSET and DCLR at issue + 1, DLD at issue + 4. -/
def Sys2Proof.Rules.AccessWordsBegin : Prop :=
  ∀ (s : State) (ds dt w : BitVec 3) (q : BitVec 4) (a b : BitVec 6) (xf : BitVec 8) (k : Toks),
    let c := issueCtx s
    let m := moved s
    let ctx := ctxOf m c.key
    let ws := readDesc m c.key c.seq ds.toNat
    let wt := readDesc m c.key c.seq dt.toNat
    let n := q.toNat
    let x := src s a
    let y := src s b
    let op (kind : OpKind) : Op := { patOp kind ws with kd := k.kd.toNat }
    ∀ t, takeToks m c.key k = some t →
    (Issues { spaces := [.lw] } [a] s → Runs (.dset ds a w k) s (landDesc t c ds.toNat [(w.toNat, x)] 1))
    ∧ (Issues { spaces := [.lw] } [] s →
        Runs (.dclr ds k) s (landDesc t c ds.toNat ((List.range 8).map fun i => (i, 0)) 1))
    ∧ (Issues { spaces := [.lw] } [a] s → tidOf x = 0xFFFF → spIdx x = cidxOf c.key → spOff x % 8 = 0 → spOff x + 64 ≤ spadSize c.key →
        spadBad t c.key (spOff x) 64 = false → watchHit t c.key false (spadAddrs c.key (spOff x) 64) = false →
        Runs (.dld ds a k) s (landDesc t c ds.toNat
          ((List.range 8).map fun j => (j, BitVec.ofNat 64 (ofBytes (spadBytes t c.key c.key (spOff x + 8 * j) 8)))) 4))
    ∧ ((c.timed = false → accFull c m = false) → patCheck m c.key ctx ws = 0 →
      (Issues { spaces := [.lw] } [] s → producer m c n = true → tooWide n (dw ws 0) (patBits m ctx ws) = false →
        ((qFeed m c.key n).kind = .sched → c.timed = true ∧ tidOf (dw ws 0) = 0xFFFF ∧ spIdx (dw ws 0) = cidxOf c.key) →
        Runs (.rdq ds q k) s
          (startOp t c { op .rdq with q := n, mark := patMark ws, hold := (qFeed m c.key n).kind == .sched, lim := c.t }))
      ∧ (Issues { spaces := [.lw] } [] s → consumer m c n = true → patBits m ctx ws ≤ qBits n →
          Runs (.wrq ds q k) s
            (startOp t c { op .wrq with q := n, left := packEntries (qBits n / patBits m ctx ws) (patCount ws / (patN ws).headD 1)
                                                        ((patN ws).headD 1) (patAlign ws) }))
      ∧ (Issues { spaces := [.lw] } [a] s →
          (patCount ws * patBits m ctx ws = 0 ∨
            tidOf x = 0xFFFF ∧ (spOwner m c.key x ((patCount ws * patBits m ctx ws + 7) / 8)).isSome = true) →
          Runs (.rds ds a k) s (startOp t c { op .rds with va := x })
          ∧ Runs (.wrs ds a k) s (startOp t c { op .wrs with va := x }))
      ∧ (Issues { spaces := [.lw] } [] s → patCheck m c.key ctx wt = 0 → patCount ws = patCount wt →
          patBits m ctx ws = patBits m ctx wt → Runs (.cpy ds dt k) s (startOp t c { op .cpy with dt := wt }))
      ∧ (Issues { spaces := [.lw] } [] s → Runs (.pref ds k) s (startOp t c { op .pref with bar := 0 })))
    ∧ (Issues { spaces := [.lw] } [a, b] s → ∀ z, z = (xf.extractLsb' 4 3).toNat → (c.timed = false → accFull c m = false) →
      rowCheck m c ws x y z = 0 → z ≠ 7 →
      (producer m c n = true → (qFeed m c.key n).kind = .mem → tooWide n x (elemBits m ctx x z) = false →
        Runs (.gath ds q a b xf k) s
          (startOp t c { op .gath with q := n, va := x, vb := y, fn := xf.toNat, mark := patMark ws }))
      ∧ (consumer m c n = true → (xf.extractLsb' 2 2).toNat ≠ 3 → scatFmtOk m ctx x (xf.extractLsb' 2 2).toNat = true →
          scatBits m ctx x (xf.extractLsb' 2 2).toNat z ≤ qBits n →
          Runs (.scat ds q a b xf k) s
            (startOp t c { op .scat with q := n, va := x, vb := y, fn := xf.toNat,
                                         left := packEntries (qBits n / scatBits m ctx x (xf.extractLsb' 2 2).toNat z) (patCount ws)
                                           (bits y 31 0) (xf.getLsbD 0) })))

/-- The tokens of an access word, and the descriptor register that it writes. -/
def Sys2Proof.Rules.accessWord : Instr → Option (Toks × Option (BitVec 3))
  | .dset ds _ _ k | .dclr ds k | .dld ds _ k => some (k, some ds)
  | .rdq _ _ k | .wrq _ _ k | .rds _ _ k | .wrs _ _ k | .cpy _ _ k | .pref _ k | .gath _ _ _ _ _ k | .scat _ _ _ _ _ k => some (k, none)
  | _ => none

/-- R120, R219, R224, R227 to R238: the frame of an access word at its issue. Beside the tokens that it names, the words of the
descriptor register that it writes, and the operation that it starts, nothing changes; what the operation moves, it moves later. -/
def Sys2Proof.Rules.AccessWordFrame : Prop :=
  ∀ (s t : State) (i : Instr) (k : Toks) (w : Option (BitVec 3)), Sys2Proof.Rules.accessWord i = some (k, w) → isCore s.cur = false →
    exec i s = .next t →
    let x := cellAt s s.cur
    let y := cellAt t s.cur
    Sys2Proof.Rules.Outside s t s.cur ∧ t.reqs = s.reqs ∧ (∀ id ≠ s.nextId, sfind t.ops id = sfind s.ops id)
      ∧ (∀ r, readA t s.cur r = readA s s.cur r)
      ∧ (∀ n, n ∉ tokRegs k → tok t s.cur n = tok s s.cur n)
      ∧ (∀ q d, (q ≠ s.curSeq ∨ ∀ e ∈ w, d ≠ e.toNat) → d < 8 → (q = .l ∨ q = .w) → (s.curSeq = .l ∨ s.curSeq = .w) →
          readDesc t s.cur q d = readDesc s s.cur q d)
      ∧ y.v = x.v ∧ y.m = x.m ∧ y.q = x.q ∧ y.spad = x.spad ∧ y.pwb = x.pwb ∧ y.inb = x.inb ∧ y.csr = x.csr ∧ y.mx = x.mx
      ∧ y.gs = x.gs ∧ y.fifo = x.fifo

/-- R120, R219 to R238: access words start their operations and write descriptor registers, and change nothing else at their issue. -/
def Obligations.AccessWords : Prop :=
  Sys2Proof.Rules.AccessWordsBegin ∧ Sys2Proof.Rules.AccessWordFrame

/-- R221, R235: a pattern that breaks a rule of R221 makes the access word fault without starting an operation. -/
def Obligations.AccessChecks : Prop :=
  ∀ (s : State) (ds : BitVec 3) (q : BitVec 4) (k : Toks), Issues { spaces := [.lw] } [] s →
    let c := issueCtx s
    let m := moved s
    let ws := readDesc m c.key c.seq ds.toNat
    let code := patCheck m c.key (ctxOf m c.key) ws
    (c.timed = true ∨ (accFull c m = false ∧ (takeToks m c.key k).isSome = true)) → code ≠ 0 →
    (Runs (.pref ds k) s (takeFault m (runner s) { code := code, taddr := dw ws 0 }))
    ∧ (producer m c q.toNat = true → Runs (.rdq ds q k) s (takeFault m (runner s) { code := code, taddr := dw ws 0 }))
    ∧ (consumer m c q.toNat = true → Runs (.wrq ds q k) s (takeFault m (runner s) { code := code, taddr := dw ws 0 }))

/-- R52 to R54, R240, R241, R244: PUSH sends the oldest entry of its queue, or a register, over its channel, delivered at
issue plus the path's latency; MOVQ moves an entry between queues of one width; BRQ goes back or falls through by the mark
of the oldest entry, consuming it for .M, or by emptiness. That MOVQ moves the mark with the entry is the model's choice (log 85). -/
def Obligations.QueueMovesAndPushes : Prop :=
  ∀ (s : State) (q q2 : BitVec 4) (a : BitVec 6) (ch : BitVec 8) (k : Toks) (cnd : BitVec 3) (off : BitVec 32) (x : Chan)
    (dest : Nat) (y : Nat),
    let c := issueCtx s
    let m := moved s
    let n := q.toNat
    (chanOf m c.key ch.toNat = some x → chanDest m c.key x = some dest →
      (∀ e es, Issues { spaces := [.lw], elastic := false, wOnly := true } [] s → qBits x.q = qBits n → consumer m c n = true → busyRead m c n = false → qEnts m c.key n = e :: es →
        ∀ t, takeToks (setQ m c.key n es) c.key k = some t →
        Runs (.push q ch k) s (sendChan t c.key dest x e.data e.mark c.t))
      ∧ (Issues { spaces := [.lw], elastic := false, wOnly := true } [a] s → qBits x.q = 64 →
        ∀ t, takeToks m c.key k = some t →
        Runs (.pushR a ch k) s (sendChan t c.key dest x ((src s a).setWidth 2048) false c.t)))
    ∧ (Issues { spaces := [.lw] } [] s → (c.timed = false → (takeToks m c.key k).isSome = true) →
      qBits n = qBits q2.toNat → producer m c q2.toNat = true →
      (qFeed m c.key q2.toNat).kind = (if c.timed then .sched else .mem) → consumer m c n = true → busyRead m c n = false →
      ∀ e es, qEnts m c.key n = e :: es → (c.timed = false → busyWrite m c q2.toNat = false ∧
        (qEnts m c.key q2.toNat).length < qCap q2.toNat) →
      ∀ t, takeToks (setQ m c.key n es) c.key k = some t → Runs (.movq q2 q k) s (landQ t c q2.toNat e 1))
    ∧ (Issues { spaces := [.lw], timed := false } [] s → consumer m c n = true → busyRead m c n = false →
      (y : Int) = c.pc + 8 * off.toInt → y < 2 ^ 64 → inImage m c y = true →
      (∀ e es, qEnts m c.key n = e :: es →
        (cnd = 0 → e.mark = true → Runs (.brq q cnd off) s (goneTo s (setQ m c.key n es) y))
        ∧ (cnd = 0 → e.mark = false → Runs (.brq q cnd off) s m)
        ∧ (cnd = 1 → e.mark = true → Runs (.brq q cnd off) s m)
        ∧ (cnd = 1 → e.mark = false → Runs (.brq q cnd off) s (goneTo s m y))
        ∧ (cnd = 2 → Runs (.brq q cnd off) s m)
        ∧ (cnd = 3 → Runs (.brq q cnd off) s (goneTo s m y)))
      ∧ (qEnts m c.key n = [] →
        (cnd = 2 → Runs (.brq q cnd off) s (goneTo s m y)) ∧ (cnd = 3 → Runs (.brq q cnd off) s m)))

/-- R136, R277, R324, R336: a float lane word of a C space puts, into every lane that its mask admits, the exact result of
its operation on the decoded lanes, rounded once to the lane's format in the mode of RM. -/
def Obligations.FloatLanes : Prop :=
  ∀ (s : State) (f : VecF),
    let g := laneFmt f.t
    let rm := f.rm.toNat
    let x (l : List Nat) := g.dec (l.getD 0 0)
    let y (l : List Nat) := g.dec (l.getD 1 0)
    let z (l : List Nat) := g.dec (l.getD 2 0)
    (LaneWise .vn (.vadd f) f 2 4 (fun l => g.round rm (FNum.add rm (x l) (y l))) s
      ∧ LaneWise .vn (.vsub f) f 2 4 (fun l => g.round rm (FNum.add rm (x l) (y l).neg)) s
      ∧ LaneWise .vn (.vmul f) f 2 4 (fun l => g.round rm (FNum.mul (x l) (y l))) s
      ∧ LaneWise .vn (.vfma f) f 3 4 (fun l => g.round rm (FNum.add rm (FNum.mul (x l) (y l)) (z l))) s
      ∧ LaneWise .vn (.vfms f) f 3 4 (fun l => g.round rm (FNum.add rm (FNum.mul (x l) (y l)) (z l).neg)) s
      ∧ LaneWise .vn (.vdiv f) f 2 12 (fun l => g.round rm (FNum.div (x l) (y l))) s
      ∧ LaneWise .vn (.vsqrt f) f 1 12 (fun l => g.round rm (x l).sqrt) s
      ∧ LaneWise .vn (.vmin f) f 2 4 (fun l => g.round 0 (FNum.min2 (x l) (y l))) s
      ∧ LaneWise .vn (.vmax f) f 2 4 (fun l => g.round 0 (FNum.max2 (x l) (y l))) s
      ∧ LaneWise .vn (.vabs f) f 1 2 (fun l => g.round 0 (x l).abs) s
      ∧ LaneWise .vn (.vneg f) f 1 2 (fun l => g.round 0 (x l).neg) s)
    ∧ (LaneWise .gs (.gvadd f) f 2 4 (fun l => g.round rm (FNum.add rm (x l) (y l))) s
      ∧ LaneWise .gs (.gvmul f) f 2 4 (fun l => g.round rm (FNum.mul (x l) (y l))) s
      ∧ LaneWise .gs (.gvfma f) f 3 4 (fun l => g.round rm (FNum.add rm (FNum.mul (x l) (y l)) (z l))) s)
    ∧ (LaneWise .st (.svadd f) f 2 4 (fun l => g.round rm (FNum.add rm (x l) (y l))) s
      ∧ LaneWise .st (.svfma f) f 3 4 (fun l => g.round rm (FNum.add rm (FNum.mul (x l) (y l)) (z l))) s)

/-- R284 to R287: the special functions complete, lane by lane: reciprocal, inverse square root, 2^x, log2, sine and cosine
of πx rounded once; sigmoid and hyperbolic tangent by their FP32 steps. The exact values of the irrational ones are the model's
320-bit ones (log 8). -/
def Obligations.SpecialFunctionLanes : Prop :=
  ∀ (s : State) (f : VecF),
    let g := laneFmt f.t
    let rm := f.rm.toNat
    let x (l : List Nat) := g.dec (l.getD 0 0)
    LaneWise .vn (.vrcp f) f 1 8 (fun l => g.round rm (FNum.div (.fin false 1 0) (x l))) s
    ∧ LaneWise .vn (.vrsqrt f) f 1 8 (fun l => g.round rm (x l).rsqrt) s
    ∧ LaneWise .vn (.vexp2 f) f 1 8 (fun l => g.round rm (x l).exp2) s
    ∧ LaneWise .vn (.vlog2 f) f 1 8 (fun l => g.round rm (x l).log2) s
    ∧ LaneWise .vn (.vsin f) f 1 8 (fun l => g.round rm (x l).sinPi) s
    ∧ LaneWise .vn (.vcos f) f 1 8 (fun l => g.round rm (x l).cosPi) s
    ∧ LaneWise .vn (.vsigm f) f 1 8 (fun l => viaF32 g f32sigm (l.getD 0 0)) s
    ∧ LaneWise .vn (.vtanh f) f 1 8 (fun l => viaF32 g f32tanh (l.getD 0 0)) s

/-- R280 to R282: logic, shifts and integer arithmetic, lane by lane; a shift count of the lane width or more gives 0, or
the sign; arithmetic wraps, or saturates at the range of the lane. -/
def Obligations.IntegerLanes : Prop :=
  ∀ (s : State) (f : VecF),
    let w := laneW f.t
    let x (l : List Nat) := l.getD 0 0
    let y (l : List Nat) := l.getD 1 0
    let int (n : Nat) : Int := if f.u = 1 then n else (BitVec.ofNat w n).toInt
    let lo : Int := if f.u = 1 then 0 else -(2 ^ (w - 1))
    let hi : Int := if f.u = 1 then 2 ^ w - 1 else 2 ^ (w - 1) - 1
    let out (i : Int) : Nat := ((if f.sat = 1 then max lo (min hi i) else i) % 2 ^ w).toNat
    LaneWise .vn (.vand f) f 2 2 (fun l => x l &&& y l) s
    ∧ LaneWise .vn (.vor f) f 2 2 (fun l => x l ||| y l) s
    ∧ LaneWise .vn (.vxor f) f 2 2 (fun l => x l ^^^ y l) s
    ∧ LaneWise .vn (.vnot f) f 1 2 (fun l => 2 ^ w - 1 - x l) s
    ∧ LaneWise .vn (.vshl f) f 2 2 (fun l => if w ≤ y l then 0 else x l * 2 ^ y l) s
    ∧ LaneWise .vn (.vshr f) f 2 2 (fun l => if w ≤ y l then 0 else x l / 2 ^ y l) s
    ∧ LaneWise .vn (.vsra f) f 2 2 (fun l => ((BitVec.ofNat w (x l)).toInt / 2 ^ (min (y l) w) % 2 ^ w).toNat) s
    ∧ LaneWise .vn (.viadd f) f 2 2 (fun l => out (int (x l) + int (y l))) s
    ∧ LaneWise .vn (.visub f) f 2 2 (fun l => out (int (x l) - int (y l))) s
    ∧ LaneWise .vn (.vimul f) f 2 3 (fun l => out (int (x l) * int (y l))) s
    ∧ LaneWise .vn (.vimin f) f 2 2 (fun l => out (min (int (x l)) (int (y l)))) s
    ∧ LaneWise .vn (.vimax f) f 2 2 (fun l => out (max (int (x l)) (int (y l)))) s

/-- R278 to R279, R300, R301: comparisons write 1 into the mask bits of the admitted lanes where they hold and 0 elsewhere;
VSEL takes A where the mask is 1 and B where it is 0; VMSET makes a mask; VMAND, VMOR and VMNOT combine masks; VMCNT counts
the ones among the lanes of the type. -/
def Obligations.MasksAndSelects : Prop :=
  ∀ (s : State) (f : VecF),
    let c := issueCtx s
    let m := moved s
    let w := laneW f.t
    let n := 2048 / w
    let k := f.d.toNat
    let writes (i : Instr) (u : State) (latency : Nat) (p : Nat → Bool) : Prop :=
      ∃ v : BitVec 256, Runs i s (landM u c k v latency) ∧ ∀ j < 256, v.getLsbD j = (decide (j < n) && p j)
    (VecIssues .vn (vecSrcs f 2) s → ∀ vs u, readSrcs .vn w c m (vecSrcs f 2) = .ok (vs, u) →
      let on (j : Nat) : Bool := ((cellAt u c.key).readM f.msk.toNat).getLsbD j
      let cmp (kind j : Nat) : Bool :=
        on j && laneCmp f.t (f.u == 1) kind (laneAt w (vs.getD 0 0) j) (laneAt w (vs.getD 1 0) j)
      writes (.vcmpeq f) u 2 (cmp 0) ∧ writes (.vcmpne f) u 2 (cmp 1) ∧ writes (.vcmplt f) u 2 (cmp 2)
        ∧ writes (.vcmple f) u 2 (cmp 3)
        ∧ (dstReady .vn m c f.d = .ok () →
            ∃ v, Runs (.vsel f) s (landVec .vn u c f.d v (BitVec.allOnes 256) 2)
              ∧ ∀ j < n, laneAt w v j = laneAt w (if on j then vs.getD 0 0 else vs.getD 1 0) j))
    ∧ (VecIssues .vn (vecSrcs f 1) s → ∀ vs u, readSrcs .vn w c m (vecSrcs f 1) = .ok (vs, u) →
        (f.sub = 0 → writes (.vmset f) u 2 fun j => decide (laneAt w (vs.getD 0 0) j ≠ 0))
        ∧ (f.sub = 1 → writes (.vmset f) u 2 fun j => decide (2 ^ (w - 1) ≤ laneAt w (vs.getD 0 0) j)))
    ∧ (Issues { spaces := [.vn] } [BitVec.ofNat 6 (f.a.toNat - 48)] s →
        f.sub = 2 → writes (.vmset f) m 2 fun j => decide (j < (readA m c.key (f.a.toNat - 48)).toNat))
    ∧ (Issues { spaces := [.vn] } [] s →
      Runs (.vmand f) s (landM m c k ((cellAt m c.key).readM f.a.toNat &&& (cellAt m c.key).readM f.b.toNat) 1)
      ∧ Runs (.vmor f) s (landM m c k ((cellAt m c.key).readM f.a.toNat ||| (cellAt m c.key).readM f.b.toNat) 1)
      ∧ Runs (.vmnot f) s (landM m c k (~~~(cellAt m c.key).readM f.a.toNat) 1)
      ∧ (dstReady .vn m c f.d = .ok () →
          Runs (.vmcnt f) s (landVec .vn m c f.d
            (BitVec.ofNat 2048 ((List.range n).countP fun j => ((cellAt m c.key).readM f.a.toNat).getLsbD j))
            (BitVec.allOnes 256) 2)))

/-- R144, R288: the reductions complete, with the value of the fixed tree over the admitted lanes in bits 31 to 0. -/
def Obligations.ReductionsComplete : Prop :=
  ∀ (s : State) (f : VecF) (vs : List (BitVec 2048)) (u : State), VecIssues .vn (vecSrcs f 1) s →
    vecReads .vn f 1 (laneW f.t) s vs u →
    let w := laneW f.t
    let ls := admitted ((cellAt u (issueCtx s).key).readM f.msk.toNat) ((List.range (2048 / w)).map (laneAt w (vs.getD 0 0)))
    let lands (i : Instr) (r : Nat) : Prop :=
      Runs i s (landVec .vn u (issueCtx s) f.d (BitVec.ofNat 2048 (r % 2 ^ 32)) (BitVec.allOnes 256) 7)
    (f.t = 0 → lands (.vredsum f) ((treeRed (fun a b => fp32.round f.rm.toNat (FNum.add f.rm.toNat (fp32.dec a) (fp32.dec b))) 8
        (ls.map fun o => o.map fun x => cvtFF fp32 fp32 0 false x)).getD 0))
    ∧ (4 ≤ f.t.toNat → lands (.vredsum f) (ofInt 32 ((treeRed (fun (a b : Int) => a + b) 8
        (ls.map fun o => o.map (laneInt w (f.u == 1)))).getD 0)))
    ∧ (isFloatT f.t = true → lands (.vredsum f) (treeSum f.t f.rm.toNat ls))
    ∧ lands (.vredmax f) (redExt true f ls) ∧ lands (.vredmin f) (redExt false f ls)

/-- R273, R283, R289 to R292, R324: permutation, broadcast, rotation, moves, conversion, index and immediate words complete: each
writes the lanes that its mask admits and that receive a source lane; the others keep their value, or are 0 under ZM and in a
queue's entry. -/
def Sys2Proof.Rules.LaneMoves : Prop :=
  ∀ (s : State) (f : VecF),
    let c := issueCtx s
    let w := laneW f.t
    let n := 2048 / w
    let k := (readA (moved s) c.key (f.b.toNat - 48)).toNat
    let lands (i : Instr) (u : State) (res : Nat → Nat) (latency : Nat) : Prop :=
      Runs i s (landLanes .vn f w c u ((List.range n).map res) latency)
    ((∀ vs u, VecIssues .vn (vecSrcs f 2) s → vecReads .vn f 2 w s vs u →
        lands (.vperm f) u (fun j => if laneAt w (vs.getD 1 0) j < n then laneAt w (vs.getD 0 0) (laneAt w (vs.getD 1 0) j) else 0) 3)
      ∧ (∀ vs u, VecIssues .vn (indexSrcs f) s → vecReads .vn f 1 w s vs u → (readA u c.key (f.b.toNat - 48)).toNat = k →
          lands (.vbcast f) u (fun _ => laneAt w (vs.getD 0 0) (k % n)) 2
          ∧ (f.sub = 0 → lands (.vrot f) u (fun j => laneAt w (vs.getD 0 0) ((j + k % n) % n)) 3)
          ∧ (f.sub = 1 → lands (.vrot f) u (fun j => if j + k % n < n then laneAt w (vs.getD 0 0) (j + k % n) else 0) 3))
      ∧ (dstReady .vn (moved s) c f.d = .ok () →
          (Issues { spaces := [.vn] } [BitVec.ofNat 6 (f.a.toNat - 48)] s →
            lands (.vidx f) (moved s) (fun j => (j + (readA (moved s) c.key (f.a.toNat - 48)).toNat) % 2 ^ w) 2)
          ∧ (Issues { spaces := [.vn] } [] s → ∀ imm : BitVec 32, Runs (.vli f.d f.t imm) s
              (landVec .vn (moved s) c f.d (BitVec.ofNat 2048 (Machine.packL w (List.replicate n imm.toNat))) (BitVec.allOnes 256) 2))))
    ∧ (∀ vs u sp i, (sp = .vn ∧ i = .vmov f) ∨ (sp = .gs ∧ i = .gmov f) → vecReads sp f 1 w s vs u →
        (∀ x, VecIssues sp (indexSrcs f) s → opd sp f.d = .q x → x < 8 →
          Runs i s (landVec sp u c f.d
            (BitVec.ofNat 2048 (laneAt w (vs.getD 0 0) ((readA u c.key (f.b.toNat - 48)).toNat % (vecBits sp / w))))
            (fullMask sp) 2))
        ∧ (∀ x, VecIssues sp (indexSrcs f) s → (∀ y, opd sp f.d = .q y → 8 ≤ y) → opd sp f.a = .q x → x < 8 →
          ∃ v mask, Runs i s (landVec sp u c f.d v mask 2) ∧ ∀ j < vecBits sp / w,
            let on := (decide (sp ≠ .vn) || ((cellAt u c.key).readM f.msk.toNat).getLsbD j)
              && decide (j = (readA u c.key (f.b.toNat - 48)).toNat % (vecBits sp / w))
            laneAt w v j = (if on then (vs.getD 0 0).toNat % 2 ^ w else 0)
              ∧ ∀ b < w / 8, mask.getLsbD (j * (w / 8) + b) = (on || f.zm == 1 || (fieldQueue sp f.d).isSome))
        ∧ ((∀ x, opd sp f.d = .q x → 8 ≤ x) → (∀ x, opd sp f.a = .q x → 8 ≤ x) →
            LaneWise sp i f 1 2 (fun l => l.getD 0 0) s))
    ∧ (∀ vs u sp i, (sp = .vn ∧ i = .vcvt f) ∨ (sp = .gs ∧ i = .gvcvt f) → VecIssues sp (vecSrcs f 1) s →
        let ts : BitVec 3 := f.sub.extractLsb' 0 3
        let ws := laneW ts
        let ns := vecBits sp / ws
        let nd := vecBits sp / w
        let part := f.part.toNat
        let cv (j : Nat) : Nat := cvtLane f.t ts f.rm.toNat (f.sat == 1) (f.u == 1) (laneAt ws (vs.getD 0 0) j) % 2 ^ w
        let from_ (j : Nat) : Option Nat :=
          if nd < ns then some (part * nd + j) else if part * ns ≤ j ∧ j < part * ns + ns then some (j - part * ns) else none
        vecReads sp f 1 ws s vs u → part < max ns nd / min ns nd →
        ∃ v mask, Runs i s (landVec sp u c f.d v mask 3) ∧ ∀ j < nd,
          let on := (decide (sp ≠ .vn) || ((cellAt u c.key).readM f.msk.toNat).getLsbD j) && (from_ j).isSome
          laneAt w v j = (if on then cv ((from_ j).getD 0) else 0)
            ∧ ∀ b < w / 8, mask.getLsbD (j * (w / 8) + b) = (on || f.zm == 1 || (fieldQueue sp f.d).isSome))

/-- The space and the fields of a lane word that writes a vector register or a queue. -/
def Sys2Proof.Rules.laneWordOf : Instr → Option (Space × VecF)
  | .vadd f | .vsub f | .vmul f | .vfma f | .vfms f | .vdiv f | .vsqrt f | .vmin f | .vmax f | .vabs f | .vneg f
  | .vand f | .vor f | .vxor f | .vnot f | .vshl f | .vshr f | .vsra f | .viadd f | .visub f | .vimul f | .vimin f | .vimax f
  | .vrcp f | .vrsqrt f | .vexp2 f | .vlog2 f | .vsin f | .vcos f | .vsigm f | .vtanh f
  | .vsel f | .vmcnt f | .vredsum f | .vredmax f | .vredmin f | .vperm f | .vbcast f | .vrot f | .vmov f | .vcvt f | .vidx f
  | .dot16 f | .vquant f | .vdeq f | .vnmean f | .vnvar f | .vnapply f => some (.vn, f)
  | .gvadd f | .gvmul f | .gvfma f | .gmov f | .gvcvt f => some (.gs, f)
  | .svadd f | .svfma f => some (.st, f)
  | _ => none

/-- R161, R272, R273: the frame of a lane word. Beside the vector register that D names and the queues that its fields name, nothing
changes of the cell, and nothing outside it. -/
def Sys2Proof.Rules.LaneWordFrame : Prop :=
  ∀ (s t : State) (i : Instr) (sp : Space) (f : VecF), Sys2Proof.Rules.laneWordOf i = some (sp, f) → isCore s.cur = false →
    exec i s = .next t →
    let x := cellAt s s.cur
    let y := cellAt t s.cur
    Sys2Proof.Rules.Outside s t s.cur ∧ t.reqs = s.reqs ∧ t.ops = s.ops
      ∧ (∀ r, readA t s.cur r = readA s s.cur r)
      ∧ (∀ r, opd sp f.d ≠ .v r → readV t s.cur r = readV s s.cur r)
      ∧ (∀ n, (∀ g ∈ [f.a, f.b, f.c, f.d], fieldQueue sp g ≠ some n) → qEnts t s.cur n = qEnts s s.cur n)
      ∧ y.m = x.m ∧ y.k = x.k ∧ y.spad = x.spad ∧ y.pwb = x.pwb ∧ y.inb = x.inb ∧ y.dl = x.dl ∧ y.dw = x.dw ∧ y.csr = x.csr
      ∧ y.mx = x.mx ∧ y.gs = x.gs ∧ y.fifo = x.fifo

/-- R161, R272, R273, R283, R289 to R292, R324: moves, permutations, conversions, index and immediate words complete, and no lane word
changes more than its destination and the queues that it names. -/
def Obligations.LaneMovesComplete : Prop :=
  Sys2Proof.Rules.LaneMoves ∧ Sys2Proof.Rules.LaneWordFrame

/-- R293, R325: a vector load or store of a scratchpad that the cell may access, at an aligned address, completes: the bytes
of the vector, lowest address lowest, landing as a scalar load does; a misaligned address faults, and a load of bits in error
(R83). -/
def Obligations.VectorMemoryWords : Prop :=
  ∀ (s : State) (d a : BitVec 6) (imm : BitVec 32) (sp : Space) (o : Nat) (ld st : Instr),
    (sp = .vn ∧ ld = .vld d a imm ∧ st = .vst d a imm) ∨ (sp = .gs ∧ ld = .gvld d a imm ∧ st = .gvst d a imm) →
    Issues { spaces := [sp] } (BitVec.ofNat 6 (a.toNat - 48) :: aFields sp [(d, false)]) s →
    let c := issueCtx s
    let m := moved s
    let base := readA m c.key (a.toNat - 48)
    let ea := scalarEa base imm
    let n := vecBits sp / 8
    tidOf base = 0xFFFF → spOwner m c.key ea n = some o →
    (spOff ea % (if sp = .vn then 32 else 64) = 0 →
      (dstReady sp m c d = .ok () → spadBad m o (spOff ea) n = true →
        Runs ld s (takeFault m (runner s)
          { code := 6, taddr := ea, shadow := some (base, 0, 0, c.t + (if o = c.key then 4 else 10 + hops c.key o)) }))
      ∧ (dstReady sp m c d = .ok () → spadBad m o (spOff ea) n = false →
        watchHit m c.key false (accessAddrs m 0 ea n) = false →
        Runs ld s (landVec sp m c d (BitVec.ofNat 2048 (ofBytes (spadBytes m c.key o (spOff ea) n))) (fullMask sp)
          (if o = c.key then 4 else 10 + hops c.key o)))
      ∧ (∀ v t, readSrc sp 8 m c d false = .ok (v, m) → watchHit m c.key true (accessAddrs m 0 ea n) = false →
          storeAt (spadHeal m o (spOff ea) n) c o (spOff ea) (toBytes n v.toNat) 1 = some t → Runs st s t))
    ∧ (spOff ea % (if sp = .vn then 32 else 64) ≠ 0 →
        Runs ld s (takeFault m (runner s) { code := 3, taddr := ea, shadow := some (base, 0, 0, c.t + 4) }))

/-- R273, R294 to R299: the dot product, quantisation and normalisation words complete with the values that the rules give for
their sources, in the lanes that their mask admits; DOT16 writes 0 above its sixteen outputs. That a0 to a15 named as A of VDEQ is
broadcast over lanes of 8 bits is the model's choice (log 96). -/
def Obligations.DotQuantiseNormalise : Prop :=
  ∀ (s : State) (f : VecF) (vs : List (BitVec 2048)) (u : State),
    let c := issueCtx s
    let w := laneW f.t
    let n := 2048 / w
    let lanes (k : Nat) : List Nat := (List.range n).map (laneAt w (vs.getD k 0))
    let adm := admitted ((cellAt u c.key).readM f.msk.toNat) (lanes 0)
    let splat (x : Nat) : BitVec 2048 := BitVec.ofNat 2048 (packL 32 (List.replicate 64 x))
    let lane0 (g : BitVec 6) (v : BitVec 2048) : Nat :=
      (match opd .vn g with
        | .a r => (readA u c.key r).toNat
        | _ => v.toNat) % 2 ^ 32
    let mean (sum cnt : Nat) : Nat := if cnt = 0 then 0x7FC00000 else fp32.round 0 (FNum.div (fp32.dec sum) (.ofInt cnt))
    (VecIssues .vn (vecSrcs f 2) s → vecReads .vn f 2 8 s vs u →
      let fa := if f.t.getLsbD 0 then e5m2 else e4m3
      let fb := if f.t.getLsbD 1 then e5m2 else e4m3
      let fr := if f.t.getLsbD 2 then bf16 else fp32
      let ow := if f.t.getLsbD 2 then 16 else 32
      ∃ v mask, Runs (.dot16 f) s (landVec .vn u c f.d v mask 6) ∧ ∀ j < 2048 / ow,
        let on := ((cellAt u c.key).readM f.msk.toNat).getLsbD j
        laneAt ow v j = (if j < 16 ∧ on = true then dot16 fr f.rm.toNat ((List.range 16).map fun e =>
            (fa.dec (laneAt 8 (vs.getD 0 0) (16 * j + e)), fb.dec (laneAt 8 (vs.getD 1 0) (16 * j + e)))) % 2 ^ ow
          else 0)
          ∧ ∀ b < ow / 8, mask.getLsbD (j * (ow / 8) + b)
              = (decide (16 ≤ j) || on || f.zm == 1 || (fieldQueue .vn f.d).isSome))
    ∧ (VecIssues .vn (vecSrcs f 1) s → vecReads .vn f 1 w s vs u → f.t.toNat < 2 →
      ∃ v, Runs (.vquant f) s (landVec .vn u c f.d v (BitVec.allOnes 256) 10)
        ∧ Runs (.vnmean f) s (landVec .vn u c f.d
            (splat (mean (treeSum f.t 0 adm) (adm.filter Option.isSome).length)) (BitVec.allOnes 256) 9)
        ∧ (∀ b < n / 32, laneAt 8 v (128 + b) = (vquant (((lanes 0).drop (32 * b)).take 32 |>.map (laneFmt f.t).dec)
            (quantTarget f.sub).1 (quantTarget f.sub).2.1 (quantTarget f.sub).2.2.1).2 % 256)
        ∧ ∀ j < n, laneAt (quantTarget f.sub).2.2.2 v j = ofInt (quantTarget f.sub).2.2.2
            ((vquant (((lanes 0).drop (j / 32 * 32)).take 32 |>.map (laneFmt f.t).dec) (quantTarget f.sub).1
              (quantTarget f.sub).2.1 (quantTarget f.sub).2.2.1).1.getD (j % 32) 0))
    ∧ (VecIssues .vn (vecSrcs f 1) s → vecReads .vn f 1 8 s vs u →
      let eb := (quantTarget f.sub).2.2.2
      let x (j : Nat) : Nat := laneAt eb (vs.getD 0 0) j
      let code (j : Nat) : Nat := laneAt 8 (vs.getD 0 0) (128 + j / 32)
      (f.sub = 0 → ∀ j < n, x j / 8 % 2 = x j / 4 % 2) →
      ∃ v mask, Runs (.vdeq f) s (landVec .vn u c f.d v mask 4) ∧ ∀ j < n,
        let on := ((cellAt u c.key).readM f.msk.toNat).getLsbD j
        laneAt w v j = (if on then (if code j = 0xFF then (laneFmt f.t).nan else (laneFmt f.t).round f.rm.toNat
            (.fin (decide (sintNat eb (x j) < 0)) (sintNat eb (x j)).natAbs ((code j : Int) - 127))) % 2 ^ w
          else 0)
          ∧ ∀ b < w / 8, mask.getLsbD (j * (w / 8) + b) = (on || f.zm == 1 || (fieldQueue .vn f.d).isSome))
    ∧ (VecIssues .vn (vecSrcs f 2) s → vecReads .vn f 2 w s vs u → f.t.toNat < 2 →
      let mu := lane0 f.b (vs.getD 1 0)
      let sq := adm.map fun o => o.map fun x =>
        f32mul (f32sub (cvtFF (laneFmt f.t) fp32 0 false x) mu) (f32sub (cvtFF (laneFmt f.t) fp32 0 false x) mu)
      Runs (.vnvar f) s (landVec .vn u c f.d
        (splat (mean (treeSum 0 0 sq) (sq.filter Option.isSome).length)) (BitVec.allOnes 256) 10))
    ∧ (VecIssues .vn (vecSrcs f 3) s → vecReads .vn f 3 w s vs u →
      let mu := lane0 f.b (vs.getD 1 0)
      let r := lane0 f.c (vs.getD 2 0)
      let g := laneFmt f.t
      Runs (.vnapply f) s (landLanes .vn f w c u
        ((lanes 0).map fun x => g.round 0 (FNum.mul (fp32.dec (f32sub (cvtFF g fp32 0 false x) mu)) (fp32.dec r))) 5))

/-- R131 to R136: every number of a float format, infinities included, rounds to itself in every mode: decoding and
rounding are inverse on the values of the format. -/
def Obligations.ValuesRoundToThemselves : Prop :=
  ∀ (f : FFmt), f = fp32 ∨ f = bf16 ∨ f = e4m3 ∨ f = e5m2 → ∀ (rm x : Nat), rm < 4 → x < 2 ^ (1 + f.eb + f.m) →
    (f.dec x).isNan = false → f.round rm (f.dec x) = x

/-- R305, R312 to R318, R321, R322: the commands of the grammar engine, the access path and the walk port start with their
operands latched, once their tokens are there and their unit has room; GIDX mixes its operands, and GIDX.BD bounds the
result. -/
def Obligations.GatherCommandsBegin : Prop :=
  ∀ (s : State) (q qs : BitVec 3) (a b e : BitVec 4) (d : BitVec 6) (mk : BitVec 1) (k : Toks),
    let c := issueCtx s
    let m := moved s
    let x := readA m c.key a.toNat
    let y := readA m c.key b.toNat
    let op (kind : OpKind) : Op := { newOp kind with kd := k.kd.toNat }
    let issues (regs : List (BitVec 6)) : Prop := Issues { spaces := [.gs], timed := false } regs s
    (c.timed = false → ∀ t, takeToks m c.key k = some t →
      (issues [a.setWidth 6] →
        Runs (.gsetBlock a k) s (startOp t c { op .gset with fn := 0, va := x })
        ∧ Runs (.gsetBatch a k) s (startOp t c { op .gset with fn := 1, va := x })
        ∧ Runs (.gsetWalk a k) s (startOp t c { op .gset with fn := 2, va := x })
        ∧ Runs (.gsetBar a k) s (startOp t c { op .gset with fn := 3, va := x })
        ∧ Runs (.grule a k) s (startOp t c { op .grule with va := x }))
      ∧ (memDst m c (8 + q.toNat) = true →
          (issues [a.setWidth 6, b.setWidth 6] →
            Runs (.grow q a b mk k) s (startOp t c { op .grow with q := 8 + q.toNat, va := x, vb := y, mark := mk == 1 }))
          ∧ (issues [b.setWidth 6] → consumer m c (8 + qs.toNat) = true → q ≠ qs →
              Runs (.gseg q qs b mk k) s
                (startOp t c { op .gseg with q := 8 + q.toNat, q2 := 8 + qs.toNat, vb := y, mark := mk == 1 })))
      ∧ (issues [a.setWidth 6, b.setWidth 6] →
        ∀ dsc, descFor m (ctxOf m c.key) (tidOf x) = some dsc → kindCount m c.key OpKind.isPath < 16 →
          (dsc.fmt < 2 → bits y 63 51 = 0 → bits y 50 32 + bits y 31 0 ≤ spadSize c.key →
            Runs (.gload a b k) s (startOp t c { op .gload with va := x, vb := y }))
          ∧ (dsc.fmt = 14 → tidOf x ≠ 0xFFFF → consumer m c (8 + qs.toNat) = true →
            Runs (.gscat qs a b k) s (startOp t c
              { op .gscat with q2 := 8 + qs.toNat, va := x, vb := y, lim := (cellAt m c.key).gs.batchB,
                               bar := (cellAt m c.key).gs.gsbar })))
      ∧ (issues [a.setWidth 6, b.setWidth 6] → ∀ ws, (cellAt m c.key).gs.gwalk = some ws → walkFmtOk m (ctxOf m c.key) (dw ws 0) = .ok () →
          memDst m c q.toNat = true → kindCount m c.key OpKind.isWalk < 64 →
          Runs (.walk q a b mk k) s
            (startOp t c { op .walk with q := q.toNat, va := x, vb := y, ds := ws, mark := mk == 1 })
          ∧ Runs (.sample q a b mk k) s
            (startOp t c { op .sample with q := q.toNat, va := x, vb := y, ds := ws, mark := mk == 1 })))
    ∧ (dstReady .gs m c d = .ok () →
      (Issues { spaces := [.gs] } [a.setWidth 6, b.setWidth 6] s →
        Runs (.gidx d a b) s (landVec .gs m c d ((m64 x y).setWidth 2048) (BitVec.ofNat 256 (2 ^ 64 - 1)) 4))
      ∧ (Issues { spaces := [.gs] } [a.setWidth 6, b.setWidth 6, e.setWidth 6] s → readA m c.key e.toNat ≠ 0 → (readA m c.key e.toNat).toNat < 2 ^ 32 →
          Runs (.gidxBd d a b e) s (landVec .gs m c d
            ((BitVec.ofNat 64 ((m64 x y).toNat / 2 ^ 32 * (readA m c.key e.toNat).toNat / 2 ^ 32)).setWidth 2048)
            (BitVec.ofNat 256 (2 ^ 64 - 1)) 4)))

/-- R329 to R334: a bank operation on a tensor of a format that it admits starts, once its tokens are there and the cell has
fewer than 16 outstanding. -/
def Obligations.BankCommandsBegin : Prop :=
  ∀ (s : State) (q : BitVec 3) (a b op4 : BitVec 4) (op3 : BitVec 3) (mk d64 : BitVec 1) (k : Toks) (dsc : Desc),
    Issues { spaces := [.st], timed := false } [a.setWidth 6, b.setWidth 6] s →
    let c := issueCtx s
    let m := moved s
    let x := readA m c.key a.toNat
    let y := readA m c.key b.toNat
    let op (kind : OpKind) : Op := { newOp kind with kd := k.kd.toNat }
    c.timed = false → kindCount m c.key OpKind.isBank < 16 → descFor m (ctxOf m c.key) (tidOf x) = some dsc →
    ∀ t, takeToks m c.key k = some t →
    (dsc.fmt < 2 → y.toNat < 2 ^ 32 →
      (memDst m c (8 + q.toNat) = true →
        Runs (.bld q a b mk k) s (startOp t c { op .bld with q := 8 + q.toNat, va := x, vb := y, mark := mk == 1 }))
      ∧ (consumer m c (8 + q.toNat) = true →
        Runs (.bst q a b k) s (startOp t c { op .bst with q2 := 8 + q.toNat, va := x, vb := y })))
    ∧ Runs (.bfill a b k) s (startOp t c { op .bfill with va := x, vb := y })
    ∧ (∀ dy, descFor m (ctxOf m c.key) (tidOf y) = some dy → dsc.fmt = dy.fmt → dsc.tile = dy.tile →
        Runs (.bcpy a b k) s (startOp t c { op .bcpy with va := x, vb := y }))
    ∧ (consumer m c (8 + q.toNat) = true →
        (op4.toNat < 8 → (d64 = 1 → dsc.fmt = 6) → (d64 = 0 → dsc.fmt = 4 ∨ dsc.fmt = 5) →
          Runs (.bamo q a b op4 d64 k) s
            (startOp t c { op .bamo with q2 := 8 + q.toNat, va := x, vb := y, fn := op4.toNat, mark := d64 == 1 }))
        ∧ (op4 = 8 → d64 = 0 → dsc.fmt = 14 →
          Runs (.bamo q a b op4 d64 k) s
            (startOp t c { op .bamo with q2 := 8 + q.toNat, va := x, vb := y, fn := 8, mark := false })))
    ∧ (memDst m c q.toNat = true → y.toNat ≤ 2 ^ 24 →
        (op3.toNat < 3 ∧ dsc.fmt = 12) ∨ (op3 = 3 ∧ dsc.fmt = 5) ∨ (op3 = 4 ∧ dsc.fmt = 6) →
        Runs (.bred q a b op3 k) s (startOp t c { op .bred with q := q.toNat, va := x, vb := y, fn := op3.toNat }))

/-- R337 to R341: the vertical FIFO words complete. VFPUSH appends to the FIFO above when it has a free slot and is neither
closing nor gated, present two periods later; VFPUSHN answers PUSHED, FULL or GATED; VFPOP takes the oldest present entry of
the FIFO below, whose slot comes back two periods later; VFCNT gives the port word. -/
def Obligations.VerticalFifo : Prop :=
  ∀ (s : State) (d a : BitVec 6) (p : BitVec 1),
    let c := issueCtx s
    let m := moved s
    let up := fifoAt m (c.key + 16)
    let down := fifoAt m c.key
    (Issues { spaces := [.st], timed := false } (aFields .st [(a, false)]) s → c.timed = false → portLive m c.key (upPort c.key) = true →
      (∀ v t, readSrc .st 32 m c a false = .ok (v, t) → up.closing = false → up.gated = false → up.free m.per ≠ 0 →
        let pushed := setFifo t (c.key + 16) { up with ents := up.ents ++ [{ data := v.setWidth 512, due := m.per + 2 }] }
        Runs (.vfpush a) s pushed
        ∧ (dstReady .st m c d = .ok () →
            Runs (.vfpushn d a) s (landVec .st pushed c d 0 (BitVec.ofNat 256 (2 ^ 64 - 1)) 1)))
      ∧ (∀ v t, readSrc .st 32 m c a true = .ok (v, t) → dstReady .st m c d = .ok () →
        (up.closing = false → up.gated = false → up.free m.per = 0 →
          Runs (.vfpushn d a) s (landVec .st t c d 1 (BitVec.ofNat 256 (2 ^ 64 - 1)) 1))
        ∧ (up.closing = true ∨ up.gated = true →
          Runs (.vfpushn d a) s (landVec .st t c d 2 (BitVec.ofNat 256 (2 ^ 64 - 1)) 1))))
    ∧ (Issues { spaces := [.st], timed := false } [] s → portLive m c.key (downPort c.key) = true →
      dstReady .st m c d = .ok () → ∀ e es, down.ents = e :: es → e.due ≤ m.per →
      Runs (.vfpop d) s (landVec .st
        (setFifo m c.key { down with ents := es, frees := down.frees ++ [m.per + 2] }) c d (e.data.setWidth 2048)
        (BitVec.ofNat 256 (2 ^ 64 - 1)) 1))
    ∧ (Issues { spaces := [.st] } [] s → dstReady .st m c d = .ok () →
      (p = 0 → portLive m c.key (upPort c.key) = true →
        Runs (.vfcnt d p) s (landVec .st m c d (BitVec.ofNat 2048
          (up.free m.per + (if up.closing then 256 else 0) + (if up.gated then 512 else 0)))
          (BitVec.ofNat 256 (2 ^ 64 - 1)) 1))
      ∧ (p = 1 → portLive m c.key (downPort c.key) = true →
        Runs (.vfcnt d p) s (landVec .st m c d (BitVec.ofNat 2048
          ((down.ents.countP fun e => decide (e.due ≤ m.per)) + (if down.closing then 256 else 0)
            + (if down.gated then 512 else 0))) (BitVec.ofNat 256 (2 ^ 64 - 1)) 1)))

/-- R163, R249 to R258: MLOAD, MMA and MMAS pop their format word and begin; a stamp that fails in a timed stream, or a
malformed load word, faults with the word popped. -/
def Sys2Proof.Rules.TileCommandsBegin : Prop :=
  ∀ (s : State) (t q : BitVec 3) (x : Stamp) (w : Word) (rest : List Word), Issues { spaces := [.mx] } [] s →
    let c := issueCtx s
    let m := moved s
    let mx := (cellAt m c.key).mx
    let now := if c.timed then c.t else m.per
    let popped := setMx m c.key fun y => { y with fq := rest }
    let quiet := mx.mloads = [] ∧ mx.strips = [] ∧ mx.mmas = []
    mx.fq = w :: rest →
    (∀ h u, loadWordOk w = some h → x.stamp.toNat = (if c.timed then c.t % 65536 else 0) → quiet →
      bits w 45 29 % 32 = 0 → bits w 45 29 + loadBytes h ≤ 131072 → spadBad m c.key (bits w 45 29) (loadBytes h) = false →
      (c.timed = false → (takeToks m c.key x.toks).isSome = true) → takeToks popped c.key x.toks = some u →
      Runs (.mload t x) s (setMx { u with nextId := u.nextId + 1 } c.key fun y =>
        { y with mloads := y.mloads ++ [{ land := now + 8 + (loadBytes h + 255) / 256, per := !c.timed, t := t.toNat, hdr := h,
                                          bset := bits w 20 19, bytes := spadBytes m c.key c.key (bits w 45 29) (loadBytes h),
                                          kd := x.toks.kd.toNat, ord := u.nextId, pc := c.pc }] }))
    ∧ (loadWordOk w = none → x.stamp.toNat = (if c.timed then c.t % 65536 else 0) →
      (c.timed = false → mxPending mx = false ∧ (takeToks m c.key x.toks).isSome = true) →
      Runs (.mload t x) s (takeFault popped (runner s) { code := 4 }))
    ∧ (c.timed = true → x.stamp.toNat ≠ c.t % 65536 →
      Runs (.mload t x) s (takeFault popped (runner s) { code := 2 })
      ∧ (consumer m c (8 + q.toNat) = true → (qFeed m c.key (8 + q.toNat)).kind = .sched →
        Runs (.mma q x) s (takeFault popped (runner s) { code := 2 })
          ∧ Runs (.mmas q x) s (takeFault popped (runner s) { code := 2 })))
    ∧ (∀ mmas af wa k nsc b h u, compWordOk w mmas = some (af, wa, k, nsc, b) → headersOk mx mx.cem b k nsc mmas = some h →
      x.stamp.toNat = (if c.timed then c.t % 65536 else 0) → quiet → (cellAt m c.key).lat = [] →
      consumer m c (8 + q.toNat) = true → (qFeed m c.key (8 + q.toNat)).kind = (if c.timed then .sched else .mem) →
      (c.timed = false → (takeToks m c.key x.toks).isSome = true) → takeToks popped c.key x.toks = some u →
      Runs (if mmas then .mmas q x else .mma q x) s (setMx { u with nextId := u.nextId + 1 } c.key fun y =>
        { y with mmas := y.mmas ++ [{ start := now, per := !c.timed, ord := u.nextId, pc := c.pc, q := 8 + q.toNat, mmas := mmas,
                                      cem := mx.cem, afmt := af, wa := wa, k := k, nsc := nsc, bset := b,
                                      rp := wa * (if mx.cem = 0 then 1 else h.p),
                                      m := (if mmas = true ∧ mx.cem ≠ 0 then 8 / h.nl else 1), next := 0, rows := [],
                                      nland := 0, kd := x.toks.kd.toNat }] }))

/-- R163, R255, R262 to R264: MSEL, ZCLR, ZRD, ZWR and ZPUSH take effect or begin; a failing stamp misses the schedule in
a timed stream and is illegal in an elastic one. -/
def Sys2Proof.Rules.TileStrips : Prop :=
  ∀ (s : State) (mask ch : BitVec 8) (q t : BitVec 3) (st : BitVec 5) (x : Stamp),
    let c := issueCtx s
    let m := moved s
    let mx := (cellAt m c.key).mx
    let stampGood := x.stamp.toNat = (if c.timed then c.t % 65536 else 0)
    let now := if c.timed then c.t else m.per
    (Issues { spaces := [.mx] } [] s → ∀ u, takeToks m c.key x.toks = some u → mx.mloads = [] → mx.strips = [] → mx.mmas = [] →
      (cellAt m c.key).lat = [] →
      (stampGood → x.toks.kd = 0 →
        (c.timed = false → Runs (.msel mask x) s (setMx u c.key fun y => { y with cem := mask }))
        ∧ (c.timed = true → Runs (.msel mask x) s
            (addLatch u c.key { due := c.t + 1, tgt := .cem, val := mask.setWidth 2048, seq := c.seq, pc := c.pc })))
      ∧ (¬stampGood → x.toks.kd = 0 →
        Runs (.msel mask x) s (takeFault m (runner s) { code := if c.timed then 2 else 1 }))
      ∧ (stampGood → c.timed = false → ∀ v,
          addTok (setMx (healTiles u c.key mask.toNat) c.key fun y => clearPcur (clearTiles y mask.toNat) mask.toNat) c.key x.toks.kd.toNat = (v, true) →
          Runs (.zclr mask x) s v)
      ∧ (stampGood → c.timed = true →
          Runs (.zclr mask x) s (addTokAt
            (addLatch (addLatch u c.key { due := c.t + 1, tgt := .zclr mask.toNat, seq := c.seq, pc := c.pc }) c.key
              { due := c.t + 1, tgt := .pcur mask.toNat, seq := c.seq, pc := c.pc }) c x.toks.kd.toNat (c.t + 1)))
      ∧ (stampGood → (qFeed m c.key (8 + q.toNat)).kind = (if c.timed then .sched else .mem) →
        let strip (kind count : Nat) (ents : List (BitVec 2048)) : State :=
          setMx { u with nextId := u.nextId + 1 } c.key fun y =>
            { y with strips := y.strips ++ [{ kind := kind, start := now, per := !c.timed, ord := u.nextId, pc := c.pc,
                                              q := 8 + q.toNat, t := t.toNat, s := st.toNat, ch := 0, next := 0, count := count,
                                              ents := ents, kd := x.toks.kd.toNat }] }
        (producer m c (8 + q.toNat) = true → zBad (cellAt u c.key) t.toNat (4 * st.toNat) 4 = false →
          Runs (.zrd q t st x) s (strip 0 8 (stripEnts mx t.toNat st.toNat false))
          ∧ Runs (.zrdB16 q t st x) s (strip 0 4 (stripEnts mx t.toNat st.toNat true)))
        ∧ (consumer m c (8 + q.toNat) = true → Runs (.zwr q t st x) s (strip 1 8 []))))
    ∧ (Issues { spaces := [.mx], elastic := false } [] s → stampGood → ∀ z dest u b16,
      chanOf m c.key ch.toNat = some z → chanDest m c.key z = some dest → qBits z.q = 2048 →
      zBad (cellAt m c.key) t.toNat (4 * (sget 0 mx.pcur t.toNat % 32)) 4 = false → takeToks m c.key x.toks = some u →
      let es := stripEnts mx t.toNat (sget 0 mx.pcur t.toNat % 32) b16
      let lat := pushLat c.key dest (decide ((cellAt m c.key).ldie = z.ldie))
      Runs (if b16 then .zpushB16 t ch x else .zpush t ch x) s
        (addTokAt
          (addLatch (es.zipIdx.foldl (fun v p => sendChan v c.key dest z p.1 false (c.t + 2 + p.2)) u) c.key
            { due := c.t + 1, tgt := .pcurStep t.toNat, seq := c.seq, pc := c.pc })
          c x.toks.kd.toNat (c.t + 1 + (if b16 then 4 else 8) + lat)))

/-- R163, R249 to R264: the tile commands begin, and their strips move through queues and channels. That a failing stamp, and then
the format word, decides the fault of a command whatever other check fails is the model's choice (logs 17 and 86). -/
def Obligations.TileCommandsRun : Prop :=
  Sys2Proof.Rules.TileCommandsBegin ∧ Sys2Proof.Rules.TileStrips

/-- R342 to R349, R465: a COLL word whose group descriptor and patterns are sound starts its round. Word 3 of the descriptor then
shows STATUS 0xFF, FAILRANK 0xFFFF and the round's number; where a member's package has no link, the round ends at once, with
LINK. COLL.AB completes and ends the round outstanding on its descriptor. -/
def Obligations.CollectiveWords : Prop :=
  ∀ (s : State) (ds dt op : BitVec 3) (fmt : BitVec 2) (a b : BitVec 6) (k : Toks) (g : Coll) (kind : Nat) (i : Instr),
    (kind = 0 ∧ i = .collAr ds dt op fmt a k) ∨ (kind = 1 ∧ i = .collRs ds dt op fmt a k)
      ∨ (kind = 2 ∧ i = .collAg ds dt fmt a k) ∨ (kind = 3 ∧ i = .collBc ds dt fmt a b k)
      ∨ (kind = 4 ∧ i = .collAa ds dt fmt a k) →
    let c := issueCtx s
    let m := moved s
    let ctx := ctxOf m c.key
    let ws := readDesc m c.key c.seq ds.toNat
    let wt := readDesc m c.key c.seq dt.toNat
    let root := if kind = 3 then (src s b).toNat else 0
    groupDesc m c.key (src s a) = .ok g → c.timed = false → accFull c m = false → (takeToks m c.key k).isSome = true →
    (∀ p ∈ m.ops, p.1 < m.nextId) →
    (Issues { spaces := [.lw], timed := false, wOnly := true } [a, if kind = 3 then b else 0] s →
      (kind ≠ 3 ∨ g.rank = root → patCheck m c.key ctx ws = 0 ∧ collFmtOk m ctx fmt.toNat ws = true) →
      patCheck m c.key ctx wt = 0 → collFmtOk m ctx fmt.toNat wt = true →
      (collCounts kind g.nmemb root g.rank (patCount ws) (patCount wt)).2 = true →
      (m.ops.filter fun p => decide (p.2.key = c.key ∧ p.2.kind = .coll) && !p.2.units).length < 4 →
      (∀ p ∈ m.ops, p.2.key = c.key → p.2.kind = .coll → p.2.units = false → p.2.coll.desc ≠ g.desc) →
      ∃ t o, Runs i s t ∧ sfind t.ops m.nextId = some o ∧ o.kind = .coll ∧ o.key = c.key ∧ o.coll.kind = kind
        ∧ o.coll.gid = g.gid ∧ o.coll.round = g.round ∧ o.coll.root = root
        ∧ o.coll.count = (collCounts kind g.nmemb root g.rank (patCount ws) (patCount wt)).1 ∧ o.ds = ws ∧ o.dt = wt
        ∧ ((∀ p ∈ g.memb, localMember m g.scope p = true ∨ (linkTo m p.1).isSome = true) → o.units = false
            ∧ (cellAt t c.key).spad = (cellAt (putStatus m c.key g.desc (statusWord 0xFF 0xFFFF g.round)) c.key).spad)
        ∧ (∀ p ∈ g.memb, localMember m g.scope p = false → linkTo m p.1 = none → o.units = true
            ∧ ∃ rank < g.nmemb, (cellAt t c.key).spad = (cellAt (putStatus (putStatus m c.key g.desc (statusWord 0xFF 0xFFFF g.round))
                c.key g.desc (statusWord 4 rank g.round)) c.key).spad))
    ∧ (Issues { spaces := [.lw], timed := false, wOnly := true } [a] s → ∃ t o, Runs (.collAb a k) s t ∧ sfind t.ops m.nextId = some o ∧ o.kind = .coll ∧ o.coll.kind = 5 ∧ o.units = true
      ∧ ∀ id r, m.ops.find? (fun p => decide (p.2.key = c.key ∧ p.2.kind = .coll ∧ p.2.coll.kind < 5
          ∧ p.2.coll.desc = spOff (src s a)) && !p.2.units) = some (id, r) →
        ∃ e, sfind t.ops id = some e ∧ e.units = true)

/-- R41, R44, R120, R359: when the one update in flight of a cell is due, it leaves the list and has its effect: a scalar,
vector or mask register takes the value, a queue with room the entry, a token count one more; a full schedule-fed queue is a
schedule miss. -/
def Obligations.ResultLands : Prop :=
  ∀ (s : State) (key : Nat) (l : Latch), landsNow s key = true → (cellAt s key).lat = [l] → latchDue s key false l = true →
    let u := setCell s key { cellAt s key with lat := [] }
    (∀ r, l.tgt = .a r → Runs (.resultLanding key) s (writeA u key r (l.val.setWidth 64)))
    ∧ (∀ r, l.tgt = .v r → Runs (.resultLanding key) s (writeV u key r l.val l.mask))
    ∧ (∀ r, l.tgt = .m r → Runs (.resultLanding key) s (writeM u key r (l.val.setWidth 256)))
    ∧ (∀ n, l.tgt = .q n → (qEnts s key n).length < qCap n →
        Runs (.resultLanding key) s (setQ u key n (qEnts s key n ++ [mkQEntry n l.val l.mark])))
    ∧ (∀ n, l.tgt = .q n → qCap n ≤ (qEnts s key n).length → (qFeed s key n).kind = .sched →
        Runs (.resultLanding key) s
          (takeFault (if l.op = 0 then u else opStopped u l.op) (latchWho key l) { code := 2, engn := decide (l.op ≠ 0) }))
    ∧ (∀ n t, l.tgt = .k n → addTok u key n = (t, true) → Runs (.resultLanding key) s t)
    ∧ (∀ n t, l.tgt = .k n → addTok u key n = (t, false) →
        Runs (.resultLanding key) s (takeFault t (latchWho key l) { code := 12 }))
    ∧ (∀ n, l.tgt = .csr n → Runs (.resultLanding key) s (csrPut u key n (l.val.setWidth 64)))
    ∧ (l.tgt = .cem → Runs (.resultLanding key) s (setMx u key fun m => { m with cem := l.val.setWidth 8 }))
    ∧ (∀ d w i, l.tgt = .desc w d i → Runs (.resultLanding key) s (writeDesc u key w d i (l.val.setWidth 64)))

/-- R53, R55, R107, R204, R339: a push that is due enters its queue, or is lost in a schedule miss when the queue is full;
FIFO slots come back in time; a stratum stream that waits past STALLTO stalls out. An elastic phase that every cell of its
subgroup has reached merges them: at CLUSTER scope each of them goes on, at DIE and PKG scope each goes on when its implied
fence is complete. That an overflowing push is the fault of the queue's consumer (log 52), and that a cell goes on at a PHASE_END
of its own once its fence is complete (log 38), are the model's readings. -/
def Obligations.DeliveriesAndPhases : Prop :=
  ∀ (s : State) (key : Nat),
    (∀ x, landsNow s key = true → (cellAt s key).inc = [x] → x.due ≤ (regOf s key).tide →
      let u := setCell s key { cellAt s key with inc := [] }
      ((qEnts s key x.q).length < qCap x.q →
        Runs (.pushDelivery key) s (setQ u key x.q (qEnts s key x.q ++ [mkQEntry x.q x.data x.mark])))
      ∧ (qCap x.q ≤ (qEnts s key x.q).length →
        Runs (.pushDelivery key) s (takeFault u
          { key := key, seq := (qFeed s key x.q).cons, pc := ((cellAt s key).stream (qFeed s key x.q).cons).pc } { code := 2 })))
    ∧ Runs (.fifoTransit key) s
        (setFifo s key { fifoAt s key with frees := (fifoAt s key).frees.filter fun t => decide (s.per < t) })
    ∧ (fifoLate s key = true →
        Runs (.fifoWaitTimeout key) s
          (takeFault s { key := key, seq := .c, pc := (cellAt s key).sc.pc } { code := 14 }))
    ∧ (∀ l, phaseReady s key = some l → ∃ t, Runs (.phaseEnd key) s t
        ∧ (∀ k ∈ l, ∀ p, (cellAt s k).phase = some p →
            (p.scope = 1 → (cellAt t k).phase = none ∧ (cellAt t k).ss.last = s.per)
            ∧ (p.scope ≠ 1 → (cellAt t k).phase = some { p with merged := true } ∧ (cellAt t k).ss = (cellAt s k).ss))
        ∧ t.mem = s.mem ∧ t.regions = s.regions)
    ∧ (isCore key = false → phaseReady s key = none → phaseFenced s key = true → ∃ t, Runs (.phaseEnd key) s t
        ∧ (cellAt t key).phase = none ∧ (cellAt t key).ss.last = s.per ∧ (cellAt t key).sect = []
        ∧ t.mem = s.mem ∧ t.regions = s.regions)

/-- R46 to R50, R83, R129: the pre-decode of a timed stream goes up to 64 cycles ahead, and a stream for which none is due may fetch a
word ahead of its issue, as memory holds it then, but keeps no copy of one in error; a region with a stall request whose freeze cycle
is here freezes and counts it; the last release fixes the resumption 56 periods later; then TIDE goes on; a stall, or a wait
for START, longer than STALLTO raises the stall time-out. -/
def Obligations.RegionStallsAndResumes : Prop :=
  ∀ (s : State) (key h : Nat) (q : Seq),
    (isCore key = false → preDue s key q = false → canIssue s key q = true → (streamAt s key q).fetchP ≤ s.per →
      (streamAt s key q).pre = [] → (streamAt s key q).pc < 8 * (streamAt s key q).nword →
      (wordBad s key q (streamAt s key q).pc = true → Runs (.predecode key q) s s)
      ∧ (wordBad s key q (streamAt s key q).pc = false → ∃ t, Runs (.predecode key q) s t
        ∧ (streamAt t key q).pre = [((streamAt s key q).pc, tensWord s (ctxOf s key) (streamAt s key q).img (streamAt s key q).pc)]
        ∧ (streamAt t key q).pc = (streamAt s key q).pc ∧ t.mem = s.mem))
    ∧ (isCore key = false → preDue s key q = true → ∀ n, preLimit s key = some n →
      ∃ t, Runs (.predecode key q) s t ∧ (streamAt t key q).preTo = n + 1
        ∧ (∀ x ∈ (streamAt t key q).resv, x.cyc < (streamAt s key q).preTo → x ∈ (streamAt s key q).resv) ∧ t.mem = s.mem)
    ∧ (freezeDue (regAt s h) = true →
        Runs (.regionFreeze h) s (setReg s h { regAt s h with
          frozen := true, frzT := s.tick, relP := none,
          stnum := if (regAt s h).stnum = 0xFFFFFF then 0xFFFFFF else (regAt s h).stnum + 1 }))
    ∧ (let r := regOf s key
       r.frozen = true → (∃ x ∈ r.stalls, x.key = key ∧ x.seq = q) → releaseHolds s key q = true →
       let left := r.stalls.filter fun x => !decide (x.key = key ∧ x.seq = q)
       Runs (.stallRelease key q) s (setReg (clearShort s key q) (cellAt s key).reg
         { r with stalls := left, relP := if left = [] then some (s.per + 56) else r.relP }))
    ∧ (unfreezeDue s (regAt s h) = true →
        Runs (.regionStallResume h) s (setReg s h { regAt s h with frozen := false, relP := none }))
    ∧ (stallLate s (regAt s h) = true →
        ∃ t, Runs (.stallTimeout h) s t ∧ (regAt t h).stopP ≠ none)
    ∧ (startLate s (regAt s h) = true → ∀ p, startShort s h = some p →
        Runs (.startWaitTimeout h) s
          (takeFault s { key := p.1, seq := p.2, pc := (streamAt s p.1 p.2).pc } { code := 14 }))

/-- R253, R256 to R263: the matrix engine's events. A row of A is taken from its queue, in a timed stream a missing one is a
schedule miss; a row lands as its contribution to the tiles, or is a memory error where a word that it reads is bad; a load lands expanded,
or faults with its headers invalid; a strip delivers or takes its next entry. That a command takes no further row after a missing
one, and is over after a row in error, with nothing more of it landing, is the model's choice (log 87); the token of its last
landing is then not added (R266). -/
def Obligations.MatrixRowsAndStripsLand : Prop :=
  ∀ (s : State) (key : Nat),
    let mx := (cellAt s key).mx
    (∀ r, mx.mmas = [r] → takeDue s key r = true →
      let es := qEnts s key r.q
      (es.length < r.epr → r.per = false →
        Runs (.mmaRowTake key) s (takeFault
          (setMx s key fun m => { m with mmas := if r.rows = [] then [] else [{ r with next := 128 }] }) { key := key, seq := .c, pc := r.pc } { code := 2 }))
      ∧ (r.epr ≤ es.length → ∃ t, Runs (.mmaRowTake key) s t ∧ qEnts t key r.q = es.drop r.epr
          ∧ ∃ r', (cellAt t key).mx.mmas = [r'] ∧ r'.next = r.next + 1 ∧ r'.rows.length = r.rows.length + 1))
    ∧ (∀ r x xs, mx.mmas = [r] → r.rows = x :: xs → rowDue s key r = true → r.bad (cellAt s key) x.row = true →
        Runs (.mmaRowLanding key) s (takeFault (setCell s key { (cellAt s key).noKd r with mx := { mx with mmas := [] } })
          { key := key, seq := .c, pc := r.pc } { code := 6, engn := true }))
    ∧ (∀ r x xs, mx.mmas = [r] → r.rows = x :: xs → rowDue s key r = true → r.bad (cellAt s key) x.row = false →
        ∃ t, Runs (.mmaRowLanding key) s t ∧ (cellAt t key).mx.z = (contribute mx r x).z
          ∧ ((cellAt t key).mx.mmas = [] ∨ (cellAt t key).mx.mmas = [{ r with rows := xs, nland := r.nland + 1 }]))
    ∧ (∀ l, mx.mloads = [l] → loadDue s key l = true →
        let m := invalidate { mx with mloads := [] } l.t l.bset l.hdr.p
        (∀ m', expandB m l = some m' → Runs (.mloadLanding key) s
          (tokenFor (setCell s key
              { (cellAt s key).heal 3 (fun n => let k0 := 128 * (4 * l.t + l.bset)
                  decide (k0 ≤ n ∧ n < k0 + 128 * l.hdr.p ∧ n % 128 < if l.hdr.sparse then l.hdr.k / 2 else l.hdr.k)) with mx := m' })
            key l.kd { key := key, seq := .c, pc := l.pc }))
        ∧ (expandB m l = none → Runs (.mloadLanding key) s
            (takeFault (setCell s key { cellAt s key with mx := m }) { key := key, seq := .c, pc := l.pc } { code := 4 })))
    ∧ (∀ x, mx.strips = [x] → stripDue s key x = true →
        (x.kind = 0 → (qEnts s key x.q).length < qCap x.q → x.kd = 0 →
          ∃ t, Runs (.stripEntryLanding key) s t
            ∧ qEnts t key x.q = qEnts s key x.q ++ [{ data := x.ents.getD x.next 0, mark := false }])
        ∧ (∀ e es, x.kind ≠ 0 → qEnts s key x.q = e :: es → e.mark = false →
            ∃ t, Runs (.stripEntryLanding key) s t ∧ qEnts t key x.q = es))

/-- R70, R89, R105, R115, R121: a request that nothing holds back is applied at its home. A store of a cell enters the
outbound module of its die and then its home, where a DISCARDED tile is filled with zeros first; a bypassing load reads its
bytes from its home; an atomic is applied indivisibly; an uncorrectable error is raised against the request's word. An applied request is answered, and a load writes
its register. How many periods a request takes from one of these to the next is the model's choice (log 11). -/
def Sys2Proof.Rules.RequestsApply : Prop :=
  ∀ (s : State) (id : Nat) (r : Req), sfind s.reqs id = some r → r.peer = false → r.op = 0 →
    let t := tidOf r.addr
    let tile := (reqSectors s r).1
    (r.applied = false → r.lost = false → reqFree s r = true →
      (r.kind = .store → isCore r.key = false → r.out = 0 →
        Runs (.memoryRequestApply id) s
          { s with nextId := s.nextId + 1,
                   reqs := sset s.reqs id { r with out := s.nextId, due := s.per + Config.accessPeriods } })
      ∧ (r.kind = .store → (isCore r.key = true ∨ r.out ≠ 0 ∧ ∀ p ∈ dieStores s (dieOf r.key), r.out ≤ p.2.out) →
          reqBad (zeroFill s r.ctx t tile) r = false →
          Runs (.memoryRequestApply id) s (hotSample (homeStore (dropReq (zeroFill s r.ctx t tile) id) r) r.ctx t tile))
      ∧ (r.kind = .load → r.bypass = true → reqBad s r = false →
          ∃ u r', Runs (.memoryRequestApply id) s u ∧ sfind u.reqs id = some r' ∧ r'.applied = true
            ∧ r'.value = secsValue (readSecs s id r tile (reqSectors s r).2.1 ((reqSectors s r).2.2 + 1 - (reqSectors s r).2.1)).1
                (match descFor s r.ctx t with
                  | some d => (placeOf d r.addr).2
                  | none => 0) r.n)
      ∧ (r.atomic = true → reqBad (zeroFill s r.ctx t tile) r = false →
          (isCore r.key = true ∨ ∀ j < (reqSectors s r).2.2 + 1 - (reqSectors s r).2.1,
            sectorClear s r.key r.ctx t tile ((reqSectors s r).2.1 + j) = true) →
          Runs (.memoryRequestApply id) s (applyAtomic (zeroFill s r.ctx t tile) id r))
      ∧ (r.kind = .load → reqBad s r = true → Runs (.memoryRequestApply id) s (reqFault s id r cMemErr 0)))
    ∧ (r.applied = true → r.lost = false → r.reads = true → r.bypass = true → r.acq = false → r.saw = [] → r.kind = .load →
        Runs (.memoryResponse id) s
          (writeA (dropReq s id) r.key r.dst
            (if r.sext then sextNat (8 * r.n) r.value else BitVec.ofNat 64 (r.value % 2 ^ (8 * r.n)))))

/-- R125, R472: an atomic that leaves its base is answered with an error before or after its effect, or with nothing for
200,000 reference ticks; a peer access without an answer for as long is a link fault. The fault is raised against the
request's word, with what is known of its effect. -/
def Sys2Proof.Rules.RequestErrors : Prop :=
  ∀ (s : State) (id : Nat) (r : Req), sfind s.reqs id = some r →
    (r.atomic = true → remoteReq s r = true →
      (r.applied = false → Runs (.atomicErrorResponse id false) s (reqFault s id r cAtomic 0))
      ∧ (r.applied = true → r.returning = true → Runs (.atomicErrorResponse id true) s (reqFault s id r cAtomic 1))
      ∧ (r.applied = true → r.returning = false → isCore r.key = false → r.peer = false →
          ∃ t, Runs (.atomicErrorResponse id true) s t
            ∧ (cellAt t r.key).csr.aperr = satInc (cellAt s r.key).csr.aperr ∧ t.reqs = sdel s.reqs id ∧ t.mem = s.mem)
      ∧ (r.born + 200000 ≤ s.tick → Runs (.atomicTimeout id) s (reqFault s id r cAtomic 2)))
    ∧ (r.peer = true → r.atomic = false → r.born + 200000 ≤ s.tick →
        Runs (.peerAccessTimeout id) s (reqFault s id r cLink 2))

/-- R121, R123, R225, R226: an operation all of whose units are done and visible ends, an ENG one after the writes of a registers
before it: its reply and its token; one that makes no
progress on a queue for longer than STALLTO raises the stall time-out, and a GROW marks its fault in GRSTAT (R314). -/
def Sys2Proof.Rules.OperationsEnd : Prop :=
  ∀ (s : State) (id : Nat) (o : Op), sfind s.ops id = some o →
    (opOver s id o = true → o.kind ≠ .input →
      let u := writeA { s with ops := sdel s.ops id } o.key o.dst o.reply
      (∀ t, addTok u o.key o.kd = (t, true) → Runs (.engineOpComplete id) s t)
      ∧ (∀ t, addTok u o.key o.kd = (t, false) →
          Runs (.engineOpComplete id) s
            (takeFault t { key := o.key, seq := o.seq, pc := o.pc } { code := cTokOv, engn := true })))
    ∧ (o.t0 + (regAt s o.reg).stallto.toNat < s.tick → waitsQueue s id o = true →
        Runs (.queueWaitTimeout id) s (opFault (growMark s o) id o cStall 0))

/-- R70, R89, R105, R115, R121 to R125, R225, R472: what becomes of requests and engine operations. -/
def Obligations.RequestsAnsweredOrFaulted : Prop :=
  Sys2Proof.Rules.RequestsApply ∧ Sys2Proof.Rules.RequestErrors ∧ Sys2Proof.Rules.OperationsEnd

/-- R58 to R62: the walker of a logical die gives the next iteration of its record to the lowest free cell, whose registers
a1 to a6 take the loop indexes and a7 the ordinal; a task whose input tiles are there starts its sequencers at their entries;
a task whose streams have ended and whose accesses are visible leaves its cell free. -/
def Sys2Proof.Rules.Tasks : Prop :=
  ∀ (s : State),
    (∀ h ldie i n k, walkDue s (regAt s h) ldie = true → servedNest (regAt s h) ldie = some (i, n) →
      (n.next < nestTotal n → freeCell s (regAt s h) n = some k → bits (n.words.getD 4 0) 24 22 = 0 →
        ∃ t, Runs (.taskDispatch h ldie) s t
          ∧ (∀ l < 6, readA t k (l + 1) = BitVec.ofNat 64 (nestIndex n n.next (l + 1)))
          ∧ readA t k 7 = BitVec.ofNat 64 n.next
          ∧ (cellAt t k).task = some { nest := i, ord := n.next, inputs := 0, started := false, status := 0 })
      ∧ (nestTotal n ≤ n.next → Runs (.taskDispatch h ldie) s (finishNest s h i n)))
    ∧ (∀ key tk, (cellAt s key).task = some tk → taskReady s key = true →
        let n := taskNest s key tk
        ∃ t, Runs (.taskStart key) s t ∧ (cellAt t key).task = some { tk with started := true }
          ∧ ∀ q, (∀ e, nestEntry n q = some e →
                ((cellAt t key).stream q).pc = 8 * e ∧ ((cellAt t key).stream q).task = true ∧ ((cellAt t key).stream q).ended = false)
              ∧ (nestEntry n q = none → (cellAt t key).stream q = (cellAt s key).stream q)
              ∧ (cellAt t key).sect = [])
    ∧ (∀ key tk, (cellAt s key).task = some tk → taskOver s key = true →
        ∃ t, Runs (.taskEnd key) s t ∧ (cellAt t key).task = none ∧ ∀ q, ((cellAt t key).stream q).task = false)

/-- R65, R66: at its frame boundary a launched region's planes swap: the shadow of each of its dies becomes active, the region
runs, takes the limits of its context, and its cells belong to it, with empty sector buffers (R71). -/
def Sys2Proof.Rules.PlanesSwap : Prop :=
  ∀ (s : State) (h : Nat), swapDue s (regAt s h) = true → (regAt s h).resume = 0 →
    ∃ t, Runs (.planeSwap h) s t
      ∧ (regAt t h).stage = .running ∧ (regAt t h).startF = none ∧ (regAt t h).plan = (regAt s h).plan
      ∧ (∀ site ∈ planeSites (regAt s h), (planeAt t site).active = (planeAt s site).shadow ∧ (planeAt t site).shadow = (planeAt s site).shadow)
      ∧ (regAt t h).maxslack = (preg s 0x20 (0x401 + 4 * (regAt s h).ctx)).extractLsb' 0 25
      ∧ (regAt t h).yielddl = (preg s 0x20 (0x401 + 4 * (regAt s h).ctx)).extractLsb' 32 32
      ∧ (regAt t h).stallto = (preg s 0x20 (0x402 + 4 * (regAt s h).ctx)).extractLsb' 32 32
      ∧ ∀ d ∈ (regAt s h).dies, ∀ k ∈ dieCells d, (cellAt t k).reg = h ∧ (cellAt t k).ctx = some (regAt s h).ctx ∧ (cellAt t k).sect = []

/-- R67, R130: a region whose streams have all ended retires. What its accesses wrote is visible, the entries left in its
queues and FIFOs are discarded and counted, its cells and leases are free, and its LAUNCH and RESUMEs complete with OK, or with
FAILED and the code of the first elastic stream that failed; a YIELD or END that is outstanding finds no region. -/
def Sys2Proof.Rules.PlanRetires : Prop :=
  ∀ (s : State) (h : Nat), retireDue s (regAt s h) = true →
    let r := regAt s h
    let u := mergeRegion (settle (landAllStop s h) h) h
    let v := (regCells r).foldl
      (fun s k => setCell s k { cellAt s k with q := [], fifo := { (cellAt s k).fifo with ents := [], frees := [] } }) u
    ∃ slot, Runs (.planRetire h) s
      (postEvent
        (completeOpt
          (completeOpt
            (completeRun (dropRegion (endDebugs v h stNoRegion) h) r (if r.failc = 0 then stOk else stFailed) r.failc (leftOver u r) slot)
            r.yieldCmd stNoRegion h 0 0 slot)
          r.endCmd stNoRegion h 0 0 slot)
        harbourCore 4 h r.failc 0)

/-- R58 to R67: tasks, the swap of planes and retirement. -/
def Obligations.TasksRunAndRegionsRetire : Prop :=
  Sys2Proof.Rules.Tasks ∧ Sys2Proof.Rules.PlanesSwap ∧ Sys2Proof.Rules.PlanRetires

/-- R354 to R358: a fault of a timed stream, and every fault of an elastic one that is not of the class "ends", is recorded
with its detection cycle and raises the halt line: the region stops 64 cycles later. An elastic fault of the class "ends"
ends its stream with the fault's code, and the region goes on. -/
def Obligations.FaultsHaltOrEnd : Prop :=
  ∀ (s : State) (w : Who) (f : Flt), isCore w.key = false →
    let c := cellAt s w.key
    let st := c.stream w.seq
    let r := regAt s c.reg
    st.stub = .none →
    ((st.counted = true ∨ endsClass f.code = false) → f.shadow = none → r.haltD = none → r.started = true → r.frozen = false →
        r.swait = none → w.cyc = none →
        let t := takeFault s w f
        (regAt t c.reg).haltD = some r.tide ∧ (regAt t c.reg).haltH = r.tide + 64
          ∧ (regAt t c.reg).faults = r.faults ++
              [{ d := r.tide, ldie := c.ldie, row := rowOf w.key, col := colOf w.key, seq := w.seq, engn := f.engn, code := f.code,
                 applied := f.applied, pc := w.pc, taddr := f.taddr, arg := f.arg, shadow := false, ord := s.nextId }]
          ∧ t.cells = s.cells ∧ t.mem = s.mem)
    ∧ ((st.counted = true ∨ endsClass f.code = false) → f.shadow = none → ∀ d, r.haltD = some d → d < r.tide → w.cyc = none →
        let t := takeFault s w f
        (regAt t c.reg).haltD = some d ∧ (regAt t c.reg).haltH = r.haltH ∧ (regAt t c.reg).faults.length = r.faults.length + 1
          ∧ t.cells = s.cells ∧ t.mem = s.mem)
    ∧ (st.counted = false → endsClass f.code = true → st.task = false → st.fcode = 0 →
        let t := takeFault s w f
        ((cellAt t w.key).stream w.seq).fcode = f.code ∧ ((cellAt t w.key).stream w.seq).ended = true
          ∧ (regAt t c.reg).haltD = r.haltD)

/-- R356, R361 to R363: the stop of a region at its halt cycle. With a primary fault that is not recoverable it is halted,
and its slot holds a KIND 1 record with the fault's code, detection cycle and halt cycle, or none where the record could not be
written (R433); where every event is recoverable
and its cells have trap stubs, the record has KIND 2 and the stubs start. -/
def Sys2Proof.Rules.RegionStops : Prop :=
  ∀ (s : State) (h : Nat) (p : FaultRec), stopDue s (regAt s h) = true → (regAt s h).stage = .running →
    let u := stopWork s h
    let r := regAt u h
    let rec1 (kind : Nat) : StopRec := recOf u h kind p.code 0 0 (some p) (r.faults.length - 1) p.d
    r.ending = false → r.forced = false → firstFault r.faults = some p →
    (haltRecoverable u r p = false → (putRecord u h (rec1 1)).2 = true →
      ∃ t rec, Runs (.regionStop h) s t ∧ (regAt t h).stage = .halted ∧ (regAt t h).resume = 1 ∧ (regAt t h).cmd = none
        ∧ sfind t.records (slotKey r.ctx r.slot) = some rec ∧ rec.kind = 1 ∧ rec.code = p.code ∧ rec.dcyc = p.d ∧ rec.hcyc = r.tide
        ∧ rec.pc = p.pc ∧ rec.taddr = p.taddr)
    ∧ (haltRecoverable u r p = false → (putRecord u h (rec1 1)).2 = false →
      ∃ t, Runs (.regionStop h) s t ∧ (regAt t h).stage = .halted ∧ (regAt t h).cmd = none
        ∧ sfind t.records (slotKey r.ctx r.slot) = none)
    ∧ (haltRecoverable u r p = true → (putRecord u h (rec1 2)).2 = true →
      ∃ t rec, Runs (.regionStop h) s t ∧ (regAt t h).stage = .stubs
        ∧ sfind t.records (slotKey r.ctx r.slot) = some rec ∧ rec.kind = 2 ∧ rec.code = p.code ∧ rec.dcyc = p.d ∧ rec.hcyc = r.tide)

/-- R364, R372, R373, R376: a DEBUG request completes and raises its event at its cell, or is held while the region waits at a
slack point; a yield request is pending from the
TIDE and tick of its arrival; SLACKDIST past its limit is a fault of the first timed stream; a yield that YIELDDL ends halts
the region for a KIND 4 record. -/
def Sys2Proof.Rules.RegionRequests : Prop :=
  ∀ (s : State) (h : Nat), (regAt s h).stage = .running →
    let r := regAt s h
    (∀ c ldie row col d, r.debugs = [(c, ldie, row, col)] → r.dies[ldie]? = some d →
        (regCells r).contains (keyOn d row col) = true →
        let k := keyOn d row col
        let v := setReg s h { r with debugs := [] }
        let u := complete v c stOk h 0 0 (lastSlot v r)
        (r.swait = none → Runs (.debugRequest h ldie row col) s
          (takeFault u { key := k, seq := .s, pc := (cellAt u k).ss.pc } { code := cDebug }))
        ∧ (r.swait ≠ none → Runs (.debugRequest h ldie row col) s
            (setReg u h { regAt u h with dbgHeld := r.dbgHeld ++ [(ldie, row, col)] })))
    ∧ (r.ypend = false → hasTimed s r = true →
        Runs (.yieldRequest h) s (setReg s h { r with ypend := true, yldTide := r.tide, yldT := s.tick, yldFrz := r.frozen }))
    ∧ (slackFar s r = true → ∀ p l, timedOf s r = p :: l →
        Runs (.slackDistance h) s
          (takeFault s { key := p.1, seq := p.2, pc := (streamAt s p.1 p.2).pc } { code := cSlackDist }))
    ∧ (yieldLate s r = true → r.haltD = none → r.started = true → r.frozen = false → r.swait = none →
        Runs (.forcedSave h) s (setReg s h { r with forced := true, haltD := some r.tide, haltH := r.tide + 64 }))

/-- R356, R361 to R364, R372, R373, R376: the stop of a region, and what is asked of a running one. That SLACK_DISTANCE is the fault
of the first timed stream (log 52), and that a DEBUG event names the place where the S stream stands (log 27), are the model's
readings. -/
def Obligations.RegionsStopWithRecords : Prop :=
  Sys2Proof.Rules.RegionStops ∧ Sys2Proof.Rules.RegionRequests

/-- R373, R374, R493: a yield is saved at its slack point once tasks, held elastic streams and operations are over. The slot
then holds a KIND 3 record whose HCYC is the TIDE of the slack point, and the region has no cells and waits, parked or for
the scheduler; an entry left in a queue, a FIFO or a token count is the fault SLACK_STATE, and nothing is saved. -/
def Sys2Proof.Rules.YieldsSave : Prop :=
  ∀ (s : State) (h : Nat) (timed : Bool),
    (if timed then slackSaveDue s (regAt s h) else elasticSaveDue s (regAt s h)) = true →
    let r := regAt s h
    let i : Instr := if timed then .slackSave h else .elasticYieldSave h
    let slix := if timed then r.lastix.toNat else firstHeld s r
    let v := landAllStop s h
    let u := mergeRegion (settle v h) h
    let rec0 := recOf u h 3 0 0 slix none 0 r.tide
    let rec1 : StopRec := { rec0 with hcyc := r.tide, ops := [], cells := rec0.cells.map fun p => (p.1, slackCell p.2 (cellEntry (regAt u h) p.2)) }
    ((∀ k ∈ regCells (regAt v h), yieldBad v k = false) → (putRecord u h rec1).2 = true →
      ∃ t rec, Runs i s t ∧ ((regAt t h).stage = .leases ∨ (regAt t h).stage = .parked) ∧ (regAt t h).resume = 3
        ∧ sfind t.records (slotKey (regAt u h).ctx (regAt u h).slot) = some rec
        ∧ rec.kind = 3 ∧ rec.hcyc = r.tide ∧ rec.slix = slix ∧ rec.ops = [])
    ∧ (∀ k ks, (regCells (regAt v h)).filter (yieldBad v) = k :: ks →
        Runs i s ((k :: ks).foldl
          (fun s k => takeFault s { key := k, seq := .s, pc := (cellAt s k).ss.pc } { code := cSlackState }) v))

/-- R367, R375: a stopped region whose resumption is due runs again at the TIDE it stopped at, without its halt. After its
rebuild stubs a slack resumption fixes the boundary at which TIDE returns, and then runs with a slack distance of 0. -/
def Sys2Proof.Rules.Resumptions : Prop :=
  ∀ (s : State) (h : Nat),
    (stubDue s (regAt s h) = true → (∀ k ∈ regCells (regAt s h), (cellAt s k).shadow = []) →
      ∃ t, Runs (.stubResume h) s t ∧ (regAt t h).stage = .running ∧ (regAt t h).tide = (regAt s h).tide
        ∧ (regAt t h).haltD = none ∧ (regAt t h).faults = [])
    ∧ (slackDue s (regAt s h) = true → (regAt s h).stage = .rebuild → (regCells (regAt s h)).find? (rebuildBad s) = none →
        ∃ t, Runs (.slackResume h) s t ∧ (regAt t h).stage = .resuming ∧ (regAt t h).resP ≠ none)
    ∧ (slackDue s (regAt s h) = true → (regAt s h).stage = .resuming →
        ∃ t, Runs (.slackResume h) s t ∧ (regAt t h).stage = .running ∧ (regAt t h).slackd = 0
          ∧ (regAt t h).tide = (regAt s h).tide ∧ (regAt t h).haltD = none)

/-- R367, R373 to R375, R493: saves at slack points and the ways back to running. -/
def Obligations.YieldsAndResumptions : Prop :=
  Sys2Proof.Rules.YieldsSave ∧ Sys2Proof.Rules.Resumptions

/-- R27, R454: with the loss of a compute or cliff site's module the mix shows the site absent in one update, and the module
is down; a stratum that is lost shows 0b11 (its module number is the model's, log 82). -/
def Sys2Proof.Rules.ModuleLoss : Prop :=
  ∀ (s : State) (site : BitVec 8) (module : Nat), site.toNat < 20 →
    (∀ j, lostStratum site.toNat module = some j →
      ∃ t, Runs (.phyLinkLoss site module) s t ∧ roleOf t (4 * (site.toNat - 12) + j) = 3
        ∧ bits t.mixa 63 60 = (bits s.mixa 63 60 + 1) % 16)
    ∧ (lostStratum site.toNat module = none →
    ∃ t, Runs (.phyLinkLoss site module) s t ∧ t.mixd.getLsbD site.toNat = false
      ∧ (module < moduleCount site.toNat → (moduleAt t site.toNat module).up = false))

/-- R414, R416, R419, R420, R440: a host message that arrives in order on a queue of its connection. QTAIL takes the tail and
notes an overrun; QCTL stops the queue and clears ERR by 1; QPROG is read-only; a register reads its value; MEMWR and MEMRD
write and read the bytes of a tensor of the queue's context, and count in the samplers of the bases (R482). Each request is
answered once. -/
def Sys2Proof.Rules.HostRequests : Prop :=
  ∀ (s : State) (m : HostHdr) (c : Conn) (q : HQueue), InOrder s m c → queueAt s m.qnum.toNat = some q → q.conn = m.conn →
    let u := taken s m c
    let n := m.qnum.toNat
    let ans (t : State) (st : Nat) : State := sendResp t m.conn m.seq.toNat st 0 []
    (∀ v, Runs (.regwrQtail m v) s (ans (putTail u n q v) 0)
        ∧ (q.live = true → overrun { q with tail := v.setWidth 16 } = false →
            queueAt (putTail u n q v) n = some { q with tail := v.setWidth 16 })
        ∧ (q.live = true → overrun { q with tail := v.setWidth 16 } = true →
            queueAt (putTail u n q v) n = some { q with tail := v.setWidth 16, err := true, errc := 1 }))
    ∧ (∀ v, Runs (.regwrQctlStop m v) s (ans (setQueue u n { q with stop := v.getLsbD 0, err := q.err && !v.getLsbD 8 }) 0)
        ∧ Runs (.regwrQctlErr m v) s (ans (setQueue u n { q with stop := v.getLsbD 0, err := q.err && !v.getLsbD 8 }) 0)
        ∧ Runs (.regwrQprog m v) s (ans u 3))
    ∧ (∀ reg, Runs (.regrd m reg) s (sendResp u m.conn m.seq.toNat 0 (queueReg q reg.toNat) []))
    ∧ (∀ a bs, 8 + bs.length ≤ payloadMax c.gen → hostRange u q.ctx a bs.length = 0 → bootRefused u q.ctx a bs.length = false →
        Runs (.memwr m a bs) s (ans (hostCount (hostWrite u q.ctx a bs) q.ctx a bs.length) 0))
    ∧ (∀ a bs, 8 + bs.length ≤ payloadMax c.gen → hostRange u q.ctx a bs.length ≠ 0 →
        Runs (.memwr m a bs) s (ans u (hostRange u q.ctx a bs.length)))
    ∧ (∀ a (k : Word), k.toNat ≤ payloadMax c.gen → hostRange u q.ctx a k.toNat = 0 →
        Runs (.memrd m a k) s (sendResp (hostCount u q.ctx a k.toNat) m.conn m.seq.toNat 0 0 (hostRead u q.ctx a k.toNat)))

/-- R412 to R416: a HELLO sets up a connection at the highest generation of both ends and is answered; an ACK lets go of what
it acknowledges; a receipt is acknowledged after 10,000 reference ticks at the latest, and what stays without an ACK for
100,000 ticks is sent again; responses and completion entries go to their connection; a frame of another EtherType, of
IPv4 or for another UDP port changes nothing but a count of telemetry. -/
def Sys2Proof.Rules.HostTransport : Prop :=
  ∀ (s : State),
    (∀ (m : HostHdr) (w0 w1 : Word), s.boot = false → s.rstT = none → m.flags = 0 → m.mbz = 0 → 1 ≤ m.gen.toNat → m.gen.toNat ≤ 3 → m.conn < 1000 →
        bits w0 63 8 = 0 → bits w1 63 32 = 0 → (sfind s.conns m.conn).isSome = true →
        Nat.max 1 (bits w0 3 0) ≤ Nat.min 3 (bits w0 7 4) →
        ∃ t c, Runs (.hello m w0 w1) s t ∧ sfind t.conns m.conn = some c ∧ c.gen = Nat.min 3 (bits w0 7 4)
          ∧ c.rx = bits w1 31 0 ∧ t.outputs.length = s.outputs.length + 1 ∧ t.mem = s.mem)
    ∧ (∀ (m : HostHdr) (c : Conn) (l : List Bool), s.boot = false → s.rstT = none → m.flags = 0 → m.mbz = 0 → sfind s.conns m.conn = some c →
        c.gen = m.gen.toNat → c.gen = 2 →
        Runs (.ack m l) s (setConn s m.conn (ackUpTo c s.tick m.ack.toNat)))
    ∧ (∀ n c, sfind s.conns n = some c → ackDue s c = true →
        Runs (.ackTimer n) s
          { setConn s n { c with ackT := none } with
            outputs := s.outputs ++ [{ conn := n, gen := c.gen, seq := c.tx, typ := 7, ack := if c.gen < 2 then 0 else c.rx, sentT := s.tick }] })
    ∧ (∀ n (seq : BitVec 32) c x, n < 1000 → sfind s.conns n = some c → c.unack = [x] → x.seq = seq.toNat → x.sentT + 100000 ≤ s.tick →
        Runs (.messageResend n seq) s
          { setConn s n { c with ackT := none, unack := [{ x with sentT := s.tick, ack := c.rx }] } with
            outputs := s.outputs ++ [{ x with sentT := s.tick, ack := c.rx }] })
    ∧ (∀ n (seq : BitVec 32) (st : BitVec 8) v, isReach n = false → Runs (.resp n seq st v) s (sendResp s n seq.toNat st.toNat v []))
    ∧ (∀ n q w0 w1, queueAt s n = some q →
        Runs (.event n w0 w1) s (sendHost s q.conn tEvent n [BitVec.ofNat 64 n, w0, w1] []))
    ∧ (∀ f : Frame, s.boot = false → f.good = true →
        (match f.encap with
          | .ether t _ => t ≠ 0x9A4C
          | .udp6 p _ _ => p ≠ 41812
          | .ipv4 => True) →
        ∃ t, Runs (.claexFrameDrop f) s t ∧ t.conns = s.conns ∧ t.queues = s.queues ∧ t.mem = s.mem
          ∧ t.outputs.length = s.outputs.length + 1)
    ∧ (∀ (up : Bool), s.mixd.getLsbD 44 ≠ up → ∃ t, Runs (.hostPortLinkChange up) s t ∧ t.mixd.getLsbD 44 = up
        ∧ bits t.mixa 63 60 = (bits s.mixa 63 60 + 1) % 16)

/-- R420: the next command of a queue that can be consumed is read from its ring, and the consumed index advances; a ring
that cannot be read is the queue error 2, and an opcode that is not in the table completes with BADCMD. -/
def Sys2Proof.Rules.CommandsConsumed : Prop :=
  ∀ (s : State) (n : Nat) (q : HQueue), queueAt s n = some q → consumeDue q = true →
    let a := byteAfter s q.ctx q.ring (64 * (q.cons.toNat % 2 ^ q.lg))
    let w (i : Nat) : Word := (wordsOf 8 (hostRead s q.ctx a 64)).getD i 0
    let c : Cmd := { queue := n, w0 := w 0, w1 := w 1, w2 := w 2, w3 := w 3, w4 := w 4, w5 := w 5, w6 := w 6, w7 := w 7 }
    let u := setQueue (hostCount s q.ctx a 64) n { q with cons := q.cons + 1 }
    (hostRange s q.ctx a 64 = 0 → knownOpc c.opc = true → Runs (.commandConsume n) s { u with cmds := u.cmds ++ [c] })
    ∧ (hostRange s q.ctx a 64 = 0 → knownOpc c.opc = false → Runs (.commandConsume n) s (answer u c stBadCmd 0))
    ∧ (hostRange s q.ctx a 64 ≠ 0 → Runs (.commandConsume n) s (setQueue s n { q with err := true, errc := 2 }))

/-- R412 to R420, R440: the host's messages and the consumption of commands. -/
def Obligations.HostMessagesAnswered : Prop :=
  Sys2Proof.Rules.HostRequests ∧ Sys2Proof.Rules.HostTransport ∧ Sys2Proof.Rules.CommandsConsumed

/-- R66, R396, R422, R423, R426, R436, R456: NOP completes at once. LAUNCH, whose image, binding and save slot the device accepts, makes a
live region with the image's plan, on its dies, that acquires its leases; the first check that fails completes it with its
status; before the lighthouse offers launches (R456) every one completes with MIX, and of a context without a table space with
LEASE. The order of the checks is the model's (log 61). -/
def Sys2Proof.Rules.Launches : Prop :=
  ∀ (s : State) (c : Cmd),
    let u := takeCmd s c
    let ctx := queueCtx u c.queue
    let expl := c.w3.getLsbD 4
    let prio := if expl then bits c.w3 3 0 else ((queueAt u c.queue).map (·.prio)).getD 0
    let slot := bits c.w3 15 5
    let formed := c.headOk = true ∧ bits c.w3 63 16 = 0 ∧ (expl = true ∨ bits c.w3 3 0 = 0) ∧ c.w4 = 0 ∧ c.w5 = 0 ∧ c.w6 = 0 ∧ c.w7 = 0
    (c.headOk = true → c.zerosFrom 1 = true → Runs (.nopCommand c) s (answer u c stOk 0))
    ∧ (¬ formed → Runs (.launch c) s (answer u c stBadCmd 0))
    ∧ (formed → launchOpen u = false → Runs (.launch c) s (answer u c stMix 0))
    ∧ (formed → launchOpen u = true → (prio = 15 ∨ maxPrio u ctx < prio) → Runs (.launch c) s (answer u c stPrio 0))
    ∧ (formed → launchOpen u = true → prio ≠ 15 → prio ≤ maxPrio u ctx → bits (preg u 0x20 (0x403 + 4 * ctx)) 15 0 = 0 →
        Runs (.launch c) s (answer u c stLease 0))
    ∧ (formed → launchOpen u = true → prio ≠ 15 → prio ≤ maxPrio u ctx → bits (preg u 0x20 (0x403 + 4 * ctx)) 15 0 ≠ 0 →
        (readImage u ctx c.w1 = none → Runs (.launch c) s (answer u c stPlan 0))
        ∧ ∀ b, readImage u ctx c.w1 = some b →
          let p := planOf u ctx b
          (imageStatus u ctx b ≠ stOk → Runs (.launch c) s (answer u c (imageStatus u ctx b) 0))
          ∧ (imageStatus u ctx b = stOk → (readTable u ctx c.w2 p.dies.length).bind (bindAll u p.dies) = none →
              Runs (.launch c) s (answer u c stMix 0))
          ∧ ∀ dies, imageStatus u ctx b = stOk → (readTable u ctx c.w2 p.dies.length).bind (bindAll u p.dies) = some dies →
            (nestDestOk u ctx p dies = false → Runs (.launch c) s (answer u c stPlan 0))
            ∧ (nestDestOk u ctx p dies = true → slotOk u ctx slot dies = false → Runs (.launch c) s (answer u c stSave 0))
            ∧ (nestDestOk u ctx p dies = true → slotOk u ctx slot dies = true → (∀ x ∈ u.regions, x.2.ctx = ctx → x.2.slot ≠ slot) →
            ∃ t, Runs (.launch c) s t ∧ (regAt t (newHandle u)).stage = .leases ∧ (regAt t (newHandle u)).dies = dies
              ∧ (regAt t (newHandle u)).leases = p.leases ∧ (regAt t (newHandle u)).cmd = some c.ref
              ∧ (regAt t (newHandle u)).slot = slot ∧ (regAt t (newHandle u)).ctx = ctx ∧ (regAt t (newHandle u)).prio = prio))

/-- R364, R368, R422, R424, R425, R429, R431: the commands on a live region of the queue's context. RESUME of a halted region
whose record, binding and slot stand makes it wait for its cells; END of a running region raises its halt line, and of a
waiting one releases it; YIELD asks it to yield; DEBUG leaves a request for its cell; PRIO sets its priority; a handle that
names no such region completes with NOREGION. Which regions a command finds is the model's reading (log 63). -/
def Sys2Proof.Rules.RegionCommands : Prop :=
  ∀ (s : State) (c : Cmd), c.headOk = true → bits c.w1 63 16 = 0 →
    let u := takeCmd s c
    let h := bits c.w1 15 0
    (c.zerosFrom 2 = true → cmdRegion u c h = none →
        Runs (.endCommand c) s (answer u c stNoRegion h) ∧ Runs (.yield c) s (answer u c stNoRegion h))
    ∧ (c.zerosFrom 3 = true → cmdRegion u c h = none →
        Runs (.resume c) s (answer u c stNoRegion h) ∧ (bits c.w2 63 13 = 0 → Runs (.debug c) s (answer u c stNoRegion h)))
    ∧ ∀ r, cmdRegion u c h = some r →
      (∀ rec dies, c.zerosFrom 3 = true → r.stage = .halted → sfind u.records (slotKey r.ctx r.slot) = some rec →
          resumeBinding u r c.w2 = some dies → slotOk u r.ctx r.slot dies = true →
          ∃ t, Runs (.resume c) s t ∧ (regAt t h).stage = .cells ∧ (regAt t h).resume = rec.kind ∧ (regAt t h).dies = dies
            ∧ (regAt t h).cmd = some c.ref ∧ (regAt t h).older = r.runCmds)
      ∧ (c.zerosFrom 2 = true → r.endCmd = none →
          let v := setReg u h { r with endCmd := some c.ref, ending := true }
          (r.stage = .running → Runs (.endCommand c) s (raiseHalt v h none))
          ∧ (r.stage = .leases ∨ r.stage = .cells ∨ r.stage = .halted ∨ r.stage = .parked ∨ r.stage = .planes →
              Runs (.endCommand c) s (endRegion v h)))
      ∧ (c.zerosFrom 2 = true → r.holds = true → r.yieldCmd = none → r.ending = false →
          Runs (.yield c) s (askYield (setReg u h { r with yieldCmd := some c.ref }) h))
      ∧ (∀ x, c.zerosFrom 3 = true → bits c.w2 63 13 = 0 → r.dies[bits c.w2 4 0]? = some x →
          inDie x (bits c.w2 8 5) (bits c.w2 12 9) 1 1 = true →
          Runs (.debug c) s (setReg u h { r with
            debugs := r.debugs ++ [(c.ref, bits c.w2 4 0, bits c.w2 8 5, bits c.w2 12 9)] }))

/-- R429: PRIO of a live region sets its base priority, and its effective priority where it holds cells. -/
def Sys2Proof.Rules.PriorityCommand : Prop :=
  ∀ (s : State) (c : Cmd) (r : Region), c.headOk = true → bits c.w1 63 20 = 0 → c.zerosFrom 2 = true →
    let u := takeCmd s c
    let h := bits c.w1 15 0
    let p := bits c.w1 19 16
    cmdRegion u c h = some r →
    (p ≠ 15 → p ≤ maxPrio u r.ctx → ∃ t, Runs (.prio c) s t ∧ (regAt t h).prio = p
      ∧ (r.holds = true → (regAt t h).ep = p) ∧ (r.stage = .cells → (regAt t h).ep = Nat.max r.ep p))
    ∧ (p = 15 ∨ maxPrio u r.ctx < p → Runs (.prio c) s (answer u c stPrio h))

/-- R417, R418, R422, R427, R428: the administration commands of queue 0 make and remove queues and contexts, the registers of a
context removed holding their reset values, and a queue is switched out of its slot and in again with the state that its
descriptor holds. The status where several checks fail is the model's reading (log 64). -/
def Sys2Proof.Rules.QueuesAndContexts : Prop :=
  ∀ (s : State) (c : Cmd),
    let u := takeCmd s c
    (c.headOk = true → c.queue = 0 →
      (∀ n ctx, bits c.w2 15 0 = n → bits c.w2 31 16 = ctx → bits c.w2 63 36 = 0 → bits c.w4 15 5 = 0 → bits c.w4 63 32 = 0 →
          c.w6 = 0 → c.w7 = 0 → 0 < n → n ≤ 4095 → queueAt u n = none → 4 ≤ bits c.w4 4 0 → bits c.w4 4 0 ≤ 15 →
          bits c.w2 35 32 ≠ 15 → (sfind u.conns (bits c.w4 31 16)).isSome = true → u.ctxs.contains ctx = true →
          ∃ t q, Runs (.qcreate c) s t ∧ queueAt t n = some q ∧ q.ctx = ctx ∧ q.prio = bits c.w2 35 32 ∧ q.ring = c.w3
            ∧ q.lg = bits c.w4 4 0 ∧ q.cring = c.w5 ∧ q.desc = c.w1 ∧ q.tail = 0 ∧ q.cons = 0 ∧ q.dne = 0)
      ∧ (∀ n q, bits c.w1 11 0 = n → bits c.w1 63 12 = 0 → c.zerosFrom 2 = true → 0 < n → queueAt u n = some q → q.dying = none →
          Runs (.qdestroy c) s (setQueue u n { q with dying := some c.ref }))
      ∧ (∀ n, bits c.w1 7 0 = n → bits c.w1 63 8 = 0 → c.w6 = 0 → c.w7 = 0 → u.ctxs.contains n = false →
          ctxFieldsOk c.w2 c.w3 c.w4 c.w5 = true →
          ∃ v, Runs (.ccreate c) s (answer v c stOk 0) ∧ v.ctxs = u.ctxs ++ [n]
            ∧ preg v 0x20 (0x400 + 4 * n) = c.w2 ∧ preg v 0x20 (0x401 + 4 * n) = c.w3 ∧ preg v 0x20 (0x402 + 4 * n) = c.w4
            ∧ preg v 0x20 (0x403 + 4 * n) = c.w5)
      ∧ (∀ n, bits c.w1 7 0 = n → bits c.w1 63 8 = 0 → c.zerosFrom 2 = true → n ≠ 255 → u.ctxs.contains n = true →
          (∀ p ∈ u.queues, p.2.ctx ≠ n) → ctxLive u n = false →
          ∃ v, Runs (.cdestroy c) s (answer v c stOk 0) ∧ v.ctxs = u.ctxs.filter (· ≠ n) ∧ v.mem = u.mem
            ∧ preg v 0x20 (0x400 + 4 * n) = 0x70002710 ∧ preg v 0x20 (0x401 + 4 * n) = 0x186A000040000
            ∧ preg v 0x20 (0x402 + 4 * n) = 0x186A000000000 ∧ preg v 0x20 (0x403 + 4 * n) = 0))
    ∧ (∀ n q, queueAt s n = some q → s.rstT = none →
        (q.live = true → n ≠ 0 → Runs (.queueSwitchOut n) s (setQueue s n { q with live := false }))
        ∧ (q.live = false → liveQueues s < 64 →
            let a := byteAfter s q.ctx q.desc 32
            let w := (wordsOf 1 (hostRead s q.ctx a 8)).headD 0
            hostRange s q.ctx a 8 = 0 →
            ∃ t x, Runs (.queueSwitchIn n) s t ∧ queueAt t n = some x ∧ x.live = true ∧ x.tail = w.extractLsb' 0 16
              ∧ x.cons = w.extractLsb' 16 16 ∧ x.dne = w.extractLsb' 32 16))

/-- R66, R364, R396, R417, R418, R422 to R431: the commands of the host. -/
def Obligations.HostCommandsCarriedOut : Prop :=
  Sys2Proof.Rules.Launches ∧ Sys2Proof.Rules.RegionCommands ∧ Sys2Proof.Rules.PriorityCommand ∧ Sys2Proof.Rules.QueuesAndContexts

/-- R97, R429 to R431, R441, R465, R468: a waiting region takes its leases when every tile of them is there, and posts residency faults
when one is not; of a peer tensor it takes them once every home has granted its pins, and it is refused where no link leads to one; the scheduler gives the best waiting region its cells when nobody holds them, where its planes verify, and asks the regions that hold
them to yield when they rank lower; a region that waits for a quantum ages. -/
def Obligations.RegionsScheduled : Prop :=
  ∀ (s : State) (h : Nat),
    let r := regAt s h
    (leaseDue s r = true → (∀ l ∈ r.leases, leaseFaults s r.ctx l = []) → (∀ l ∈ r.leases, l.peer = none) →
      ∀ t, pinAll s r.ctx r.leases = some t → r.askT = none →
        Runs (.leaseAcquire h) s (setReg t h { r with pinned := true, stage := .cells, askT := none }))
    ∧ (leaseDue s r = true → (∃ l ∈ r.leases, leaseFaults s r.ctx l ≠ []) →
        ∃ t, Runs (.leaseAcquire h) s t ∧ (regAt t h).rfwait = true ∧ (regAt t h).stage = .leases
          ∧ s.rfbuf.length + s.rfwaitq.length < t.rfbuf.length + t.rfwaitq.length)
    ∧ (leaseDue s r = true → (∀ l ∈ r.leases, leaseFaults s r.ctx l = []) →
        (∃ l ∈ r.leases, l.peer ≠ none ∧ askConn s r.ctx l = none) → Runs (.leaseAcquire h) s (refuseRun s h stLease))
    ∧ (r.stage = .leases → r.askT ≠ none → (∀ a ∈ r.asks, a.2.2.2 = 1) →
        Runs (.leaseAcquire h) s (setReg s h { r with stage := .cells, askT := none }))
    ∧ (schedule s = some (h, []) → (loadPlanes (takeCells s h) h).2 ≠ stOk →
        Runs (.regionDispatch h) s (refuseRun (loadPlanes (takeCells s h) h).1 h (loadPlanes (takeCells s h) h).2))
    ∧ (schedule s = some (h, []) → (loadPlanes (takeCells s h) h).2 = stOk →
        ∃ t, Runs (.regionDispatch h) s t ∧ (regAt t h).stage = .planes ∧ (regAt t h).ep = r.prio ∧ (regAt t h).age = 0
          ∧ (regAt t h).startF = some (boundaryAfter s 1))
    ∧ (∀ x xs, schedule s = some (h, x :: xs) →
        let t := (x :: xs).foldl askYield s
        let u := regAt t h
        Runs (.regionDispatch h) s (setReg t h { u with
          reserved := true,
          rsv := resOf { u with dies := (bindable s u).getD u.dies } ++ (x :: xs).flatMap fun y => resOf (regAt s y) }))
    ∧ (ageDue s r = true →
        Runs (.ageStep h) s
          (if bits (preg s 0x20 0x3FF) 7 0 ≤ r.age + 1 then
             setReg s h { r with age := 0, ep := if r.ep < 14 then r.ep + 1 else r.ep,
                                 ageT := r.ageT + Nat.max 1 (quantOf s r.ctx) }
           else setReg s h { r with age := r.age + 1, ageT := r.ageT + Nat.max 1 (quantOf s r.ctx) }))
    ∧ (r.holds = true → quantumOver s r = true → Runs (.quantumExpiry h) s (schedStep s))

/-- R437, R439, R444, R445: an operation on the tile that TOPA names. With the generation of TOPB, the state that the operation
takes and a valid frame, the entry changes as the operation says and TOPR shows 0; a wrong generation, a pin, another state
or an invalid frame changes no entry and shows 1, 3, 2 or 4. -/
def Sys2Proof.Rules.TileOperations : Prop :=
  ∀ (s : State),
    let e := entryOf s (topTile s).1 (topTile s).2.1 (topTile s).2.2
    let f := topB s
    (∀ st, st = (if topNamed s then 0 else 6) → Runs .tileRead s (topEnd s st))
    ∧ (topNamed s = true → bits f 63 48 = entGen e →
        (entState e = 0 → frameValid s f = true →
          Runs .map s (topEnd (topSet (tagBank s f (some (topTile s))) (entPlace e 1 f)) 0)
          ∧ Runs .mapz s (topEnd (topSet (tagBank s f (some (topTile s))) (entPlace e 3 f)) 0))
        ∧ (entPins e = 0 → entState e = 1 →
          Runs .discard s (topEnd (topSet s (entSetState e 3)) 0)
          ∧ Runs .unmap s (topEnd (topSet (tagBank s e none) (entAbsent e)) 0))
        ∧ (entPins e = 0 → entState e = 3 → Runs .reclaim s (topEnd (topSet (tagBank s e none) (entAbsent e)) 0))
        ∧ (entState e = 1 → frameValid s f = true → s.migs.length < 64 →
            (s.fwds.filter fun x => decide (bits x.old 20 18 = bits e 20 18)).length < 256 →
            ∃ t m, Runs .migrate s t ∧ t.migs = s.migs ++ [m] ∧ m.dest = f ∧ m.pass = 0
              ∧ (m.ctx, m.tens, m.tile) = topTile s)
        ∧ (entPins e ≠ 0 → Runs .discard s (topEnd s 3) ∧ Runs .reclaim s (topEnd s 3) ∧ Runs .unmap s (topEnd s 3))
        ∧ (entState e ≠ 0 → Runs .map s (topEnd s 2) ∧ Runs .mapz s (topEnd s 2))
        ∧ (entState e = 0 → frameValid s f = false → Runs .map s (topEnd s 4) ∧ Runs .mapz s (topEnd s 4)))
    ∧ (topNamed s = true → bits f 63 48 ≠ entGen e →
        ∀ i ∈ [Instr.map, .mapz, .discard, .reclaim, .unmap, .migrate], Runs i s (topEnd s 1))
    ∧ (∀ x, s.fwds = [x] → frameOf x.old = frameOf f → ∃ t, Runs .fwdclr s t ∧ t.fwds = [] ∧ t.mem = s.mem)

/-- R75, R436, R439: INSTALL makes the descriptor of TDESC0 to TDESC7 the tensor's, in the table space that CTBL names, with every
entry of its tile table 0; REMOVE of a tensor whose tiles are all ABSENT makes the descriptor invalid, and changes no other bit of
memory than VALID. -/
def Sys2Proof.Rules.TensorsInstalled : Prop :=
  ∀ (s : State) (c t i : Nat), topTile s = (c, t, i) → t ≠ 0 → t < tableLen s c → t ≠ 0xFFFF →
    let ts := bits (preg s 0x20 (0x403 + 4 * c)) 15 0
    (∀ d, descOf s c t = none → parseDesc ((List.range 8).map fun i => preg s 0x20 (0x120 + i)) = some d →
        ∃ u, Runs .install s u ∧ sfind u.tens (ts * 65536 + t) = some d
          ∧ (∀ p ∈ u.tt, ¬ (ttKey ts t 0 ≤ p.1 ∧ p.1 < ttKey ts t 0 + 2 ^ 32)))
    ∧ (∀ d, descOf s c t = some d → i < d.ntiles → bits (topB s) 63 48 = entGen (entryOf s c t i) →
        (∀ p ∈ s.tt, ttKey ts t 0 ≤ p.1 → p.1 < ttKey ts t 0 + 2 ^ 32 → entState p.2 = 0) →
        ∃ u, Runs .remove s u ∧ u.tens = sdel s.tens (ts * 65536 + t)
          ∧ ∀ a, memByte u a = memByte s a ∨ (tsByte s c (64 * t) = some a ∧ memByte u a = memByte s a &&& 0x7F))

/-- R444, R445, R470, R488: the copy engine of a migration copies the next sector that is not copied and passes on; after four passes
the rest is copied and the tile switches to its new frame, in one step, with a forwarding entry from the old frame. -/
def Sys2Proof.Rules.Migrations : Prop :=
  ∀ (s : State) (m : Migr), s.migs = [m] →
    let e := entryOf s m.ctx m.tens m.tile
    let k := nextClear m 2048 m.next
    (m.pass < 4 → k < 2048 → sectorBad s e (32 * k) = false → destFailed s m = false →
        Runs (.migrationSectorCopy 0) s
          { copySector s e m.dest k with migs := [{ m with done := sset m.done k true, next := k + 1 }] })
    ∧ (m.pass < 4 → 2048 ≤ k → Runs (.migrationSectorCopy 0) s { s with migs := [{ m with pass := m.pass + 1, next := 0 }] })
    ∧ (m.pass < 4 → k < 2048 → (sectorBad s e (32 * k) = true ∨ destFailed s m = true) → Runs (.migrationSectorCopy 0) s (migAbandon s 0 m))
    ∧ (4 ≤ m.pass → (∀ j < 2048, sget false m.done j = true) →
        ∃ t, Runs (.switchover 0) s t ∧ t.migs = []
          ∧ entryOf t m.ctx m.tens m.tile = entPlace e 1 m.dest
          ∧ t.fwds.length = s.fwds.length + 1)

/-- R75, R437, R439, R444, R445: the driver's operations on tiles and tensors, and migration. -/
def Obligations.TileTableOperations : Prop :=
  Sys2Proof.Rules.TileOperations ∧ Sys2Proof.Rules.TensorsInstalled ∧ Sys2Proof.Rules.Migrations

/-- R441, R468 to R470, R472: pins that another package asks for are held and answered, or, where the range touches a stratum that
changes its role, wait; its requests to an exported, pinned tile are
applied under the tile's frame and answered, and a frame that is not the tile's is answered STALE_FRAME; on that answer the
request is sent again, and the eighth in succession is a link fault; an invalidation drops the frame from the caches, and
its answer lowers what the forwarding entry waits for; a region whose peer leases stay unanswered, or are refused, is refused with
LEASE. That a pin request waits while a stratum of its range changes its role (log 57), and the periods until a request is sent
again (log 11), are the model's choices. -/
def Sys2Proof.Rules.OtherPackages : Prop :=
  ∀ (s : State),
    (∀ pkg ctx tens first count (kind : BitVec 2), kind ≠ 0 →
        (∀ i < count, roleHeld s (entryOf s ctx tens (first + i)) = false) →
        let p := (pkg, ctx, tens, first, count)
        let ans (t : State) (st : Nat) : State := sendPkg t pkg 107
          [BitVec.ofNat 64 ctx, BitVec.ofNat 64 tens, BitVec.ofNat 64 first, BitVec.ofNat 64 count, BitVec.ofNat 64 st] []
        (pinRefused s ctx tens first count kind.toNat = true → Runs (.peerPinRequest pkg ctx tens first count kind) s (ans s 4))
        ∧ (pinRefused s ctx tens first count kind.toNat = false →
            Runs (.peerPinRequest pkg ctx tens first count kind) s
              (ans ((peerTiles p).foldl (fun s t => pinTile s ctx tens t true) { s with peers := s.peers ++ [p] }) 0)))
    ∧ (∀ pkg ctx tens first count (kind : BitVec 2) i, kind ≠ 0 → i < count →
        roleHeld s (entryOf s ctx tens (first + i)) = true →
        Runs (.peerPinRequest pkg ctx tens first count kind) s
          { s with pinq := s.pinq ++ [((pkg, ctx, tens, first, count), kind)] })
    ∧ (∀ (r : PeerReq), (exported s r.ctx r.tens).isSome = true →
        (s.peers.any fun p => decide (p.1 = r.pkg ∧ p.2.1 = r.ctx ∧ p.2.2.1 = r.tens) && (peerTiles p).contains r.tile) = true →
        let e := entryOf s r.ctx r.tens r.tile
        let ans (t : State) (st : Nat) (bs : List Byte) : State := sendPkg t r.pkg 108
          [BitVec.ofNat 64 r.ctx, BitVec.ofNat 64 r.tens, BitVec.ofNat 64 r.tile, BitVec.ofNat 64 st] bs
        (asksEntry r = true → Runs (.peerRequest r) s (ans s 0 (toBytes 8 e.toNat)))
        ∧ (asksEntry r = false → entState e ≠ 0 → (frameOf r.frame = frameOf e ∨ ∃ x ∈ s.fwds, frameOf x.old = frameOf r.frame) →
            sectorBad s e r.off = false →
          Runs (.peerRequest r) s (ans (hotSample (peerApply s r).1 r.ctx r.tens r.tile) 0 (peerApply s r).2))
        ∧ (asksEntry r = false → entState e = 0 ∨ (frameOf r.frame ≠ frameOf e ∧ ∀ x ∈ s.fwds, frameOf x.old ≠ frameOf r.frame) →
            Runs (.peerRequest r) s (ans s 1 [])))
    ∧ (∀ id r, sfind s.reqs id = some r → r.peer = true → r.applied = true → r.lost = false →
        let u := dropPtc s r.ctx (tidOf r.addr) (reqSectors s r).1
        (r.stales < 7 → Runs (.staleFrame id) s
          (setReq u id { r with applied := false, out := 0, stales := r.stales + 1, due := s.per + 1 }))
        ∧ (7 ≤ r.stales → Runs (.staleFrame id) s (reqFault u id r cLink 0)))
    ∧ (∀ pkg frame, ∃ t, Runs (.peerInvalidation pkg frame) s t ∧ (∀ p ∈ t.ptc, p ∈ s.ptc) ∧ t.mem = s.mem ∧ t.tt = s.tt
        ∧ ∀ p ∈ t.ptc, ∀ x, peerOf s (p.1 / 2 ^ 48 % 256) (p.1 / 2 ^ 32 % 2 ^ 16) = some x → x.1 = pkg → frameOf p.2 ≠ frameOf frame)
    ∧ (∀ pkg frame x, s.fwds = [x] → frameOf x.old = frameOf frame →
        Runs (.invalidationAck pkg frame) s { s with fwds := [{ x with pend := x.pend.erase pkg }] })
    ∧ (∀ h r, sfind s.regions h = some r → r.stage = .leases → r.askT ≠ none →
        Runs (.peerLeaseTimeout h) s (refuseRun s h stLease))
    ∧ (∀ h r i conn (seq : BitVec 32) (st : BitVec 8) v, s.regions = [(h, r)] → r.asks = [(i, conn, seq.toNat, 0)] → isReach conn = true →
        r.stage = .leases →
        (st = 0 → Runs (.resp conn seq st v) s (setReg s h { r with asks := [(i, conn, seq.toNat, 1)] }))
        ∧ (st ≠ 0 → Runs (.resp conn seq st v) s (refuseRun (setReg s h { r with asks := [(i, conn, seq.toNat, 2)] }) h stLease)))

/-- R340, R446: a gate request closes every FIFO into its stratum; when the stratum is empty the gate is applied and the core
is told; a change of role shows in the mix at once, can be abandoned in drain, and ends with the new role once the drain is
over; a stratum that is marked failed or lost shows 0b11 all the while. That an armed level limits a change too is the model's choice
(log 78). -/
def Sys2Proof.Rules.GatesAndRoles : Prop :=
  ∀ (s : State),
    (∀ core i, i < 32 → (s.gates.any fun g => decide (g.2 = i)) = false →
        ∃ t, Runs (.gateRequest core i) s t ∧ t.gates = s.gates ++ [(core, i)]
          ∧ ∀ k ∈ stratumCells i, (cellAt t k).fifo.closing = true)
    ∧ (∀ i, gateReady s i = true →
        ∃ t, Runs (.gateApply i) s t ∧ (t.gates.any fun g => decide (g.2 = i)) = false
          ∧ (∀ k ∈ stratumCells i, (cellAt t k).fifo.gated = true ∧ (cellAt t k).fifo.closing = false)
          ∧ t.devq.length = s.devq.length + 1)
    ∧ (∀ v : Word, let i := bits v 4 0
        let tgt := bits v 5 5
        s.role = none → roleOf s i < 2 → roleOf s i ≠ tgt → stratumMarked s i = false →
        (tgt = 0 ∨ computeCount s (i / 4) + 1 ≤ roleRoom s) →
        ∃ t r, Runs (.roleChangeStart v) s t ∧ t.role = some r ∧ r.strat = i ∧ r.role = tgt ∧ r.step = 1
          ∧ t.srst = srstWord 0xFF i 1 ∧ roleOf t i = 2)
    ∧ (∀ r, s.role = some r → r.step = 1 → r.role < 2 → r.strat < 32 →
        (∃ t, Runs .roleChangeAbort s t ∧ t.role = none ∧ t.srst = srstWord 4 r.strat 0
          ∧ roleOf t r.strat = if stratumMarked s r.strat ∨ roleOf s r.strat = 3 then 3 else 1 - r.role)
        ∧ (drainDone s r = true → r.role = 0 →
            ∃ t, Runs .roleDrainDone s t ∧ t.role = none ∧ t.srst = srstWord 0 r.strat 0
              ∧ roleOf t r.strat = if stratumMarked s r.strat ∨ roleOf s r.strat = 3 then 3 else 0))

/-- R340, R446, R468 to R472: other packages, gates and stratum roles. -/
def Obligations.PeersGatesAndRoles : Prop :=
  Sys2Proof.Rules.OtherPackages ∧ Sys2Proof.Rules.GatesAndRoles

/-- R448, R451, R452, R454, R455, R459 to R461: what the lighthouse core answers. A request without its capability is denied
and changes nothing else; MARKFAIL of a free site marks it; CLEARFAIL of a marked site takes the mark away, with GOOD = 1 and TRN = 0,
and of a marked stratum of a good base shows it memory-only; GRANT, checked in its order, moves the rails at once where the clock
stays, and otherwise arms the level; HBEAT restarts the heartbeat interval, MARGIN sets a rail's margin within the fused limits,
RETRAIN begins with the first module, SETBOOT prefers a slot that verifies, and QUOTE answers OK. That CLEARFAIL of a site that is not
marked changes nothing and answers OK, and for which bindings MARKFAIL is busy (log 54), how the list is kept (log 13), and what counts
as computing during a change of role (log 78) are the model's readings. -/
def Obligations.LighthouseAnswers : Prop :=
  ∀ (s : State) (r : LhReq),
    let site := bits (r.arg.setWidth 64) 7 0
    ((coreAt s r.core).caps.getLsbD 1 = false →
      Runs (.markfail r) s (lhAnswer s r 1 1 0) ∧ Runs (.clearfail r) s (lhAnswer s r 2 1 0) ∧ Runs (.retrain r) s (lhAnswer s r 6 1 0)
        ∧ Runs (.setboot r) s (lhAnswer s r 7 1 0) ∧ Runs (.quote r) s (lhAnswer s r 8 1 0))
    ∧ ((coreAt s r.core).caps.getLsbD 0 = false →
      Runs (.grant r) s (lhAnswer s r 3 1 0) ∧ Runs (.hbeat r) s (lhAnswer s r 4 1 0) ∧ Runs (.margin r) s (lhAnswer s r 5 1 0))
    ∧ ((coreAt s r.core).caps.getLsbD 1 = true →
      (site < 20 → bits (r.arg.setWidth 64) 8 8 = 0 → (boundTo s site none = false ∨ lnkOk s site = false) →
          (site < 12 ∨ mapCount s (site - 12) = 0 ∨ lnkOk s site = false) → s.failed.contains site = false →
          ∃ u, Runs (.markfail r) s (lhAnswer u r 1 0 0) ∧ u.failed = s.failed ++ [site]
            ∧ u.flist = markBytes (s.failed ++ [site]) s.failedS)
      ∧ (site < 20 → bits (r.arg.setWidth 64) 8 8 = 0 → s.failed.contains site = false → Runs (.clearfail r) s (lhAnswer s r 2 0 0))
      ∧ (site < 20 → bits (r.arg.setWidth 64) 8 8 = 0 → s.failed.contains site = true →
          ∃ u, Runs (.clearfail r) s (lhAnswer u r 2 0 0) ∧ u.failed = s.failed.filter (· ≠ site)
            ∧ u.flist = markBytes u.failed s.failedS ∧ bits u.mixa 63 60 = (bits s.mixa 63 60 + 1) % 16
            ∧ (site < 12 → bits u.mixa (5 * site + 4) (5 * site + 3) = 1)
            ∧ (12 ≤ site → bits u.mixb (8 * (site - 12) + 2) (8 * (site - 12) + 1) = 1)
            ∧ ∀ m < moduleCount site, (moduleAt u site m).trn = false)
      ∧ (12 ≤ site → site < 20 → bits (r.arg.setWidth 64) 8 8 = 1 → ∀ i, i = 4 * (site - 12) + bits (r.arg.setWidth 64) 10 9 →
          s.failedS.contains i = true →
          ∃ u, Runs (.clearfail r) s (lhAnswer u r 2 0 0) ∧ u.failedS = s.failedS.filter (· ≠ i)
            ∧ u.flist = markBytes s.failed u.failedS ∧ bits u.mixa 63 60 = (bits s.mixa 63 60 + 1) % 16
            ∧ roleOf u i = (if s.mixb.getLsbD (8 * (site - 12) + 1) then 0 else roleOf s i))
      ∧ (site < 20 → s.failed.contains site = false → boundTo s site none = false → s.retrain = none →
          Runs (.retrain r) s { s with retrain := some (r, 0) })
      ∧ (∀ kind slot, bits (r.arg.setWidth 64) 1 0 = kind → bits (r.arg.setWidth 64) 2 2 = slot → bits (r.arg.setWidth 64) 3 3 = 0 →
          kind ≠ 0 → verifies (slotBytes s (bootSlot kind slot)) kind = true →
          ∃ u, Runs (.setboot r) s (lhAnswer u r 7 0 0) ∧ u.pref = sset s.pref kind slot ∧ u.regions = s.regions)
      ∧ (∃ u, Runs (.quote r) s (lhAnswer u r 8 0 0) ∧ u.meas = s.meas))
    ∧ ((coreAt s r.core).caps.getLsbD 0 = true →
      (let n := bits (r.arg.setWidth 64) 2 0
       let v := bits (s.lvls.getD n 2) 1 0
       let limited := ((s.loww = true ∨ s.capn = true) ∧ v ≠ 2)
         ∨ ∃ m < 8, (if v = 0 then 2 else if v = 1 then 3 else 4) < computeCount s m
       (s.frozenP = true → Runs (.grant r) s (lhAnswer s r 3 4 0))
       ∧ (s.frozenP = false → limited → Runs (.grant r) s (lhAnswer s r 3 3 0))
       ∧ (s.frozenP = false → ¬ limited → v = s.clk →
          Runs (.grant r) s (lhAnswer { s with grant := BitVec.ofNat 3 n, armed := BitVec.ofNat 3 n, railsT := railsOf s n, rails := railsOf s n }
            r 3 0 0))
       ∧ (s.frozenP = false → ¬ limited → v ≠ s.clk → anyTimed s = true →
          Runs (.grant r) s (lhAnswer { s with armed := BitVec.ofNat 3 n } r 3 0 0))
       ∧ (s.frozenP = false → ¬ limited → v ≠ s.clk → anyTimed s = false → s.force = false → s.grant ≠ BitVec.ofNat 3 n →
          ∃ u, Runs (.grant r) s (lhAnswer u r 3 0 0) ∧ u.grant = BitVec.ofNat 3 n ∧ u.armed = u.grant ∧ u.clk = v
            ∧ u.pauseT = some (s.tick + 400)))
      ∧ Runs (.hbeat r) s (lhAnswer { s with frozenP := false, hbT := some s.tick } r 4 0 0)
      ∧ (let rail := bits (r.arg.setWidth 64) 1 0
         let mv := sintNat 8 (bits (r.arg.setWidth 64) 9 2)
         (-25 ≤ mv ∧ mv ≤ 50 ∧ ∀ w ∈ s.lvls, (Config.fusedLow rail : Int) ≤ (lvlRail w rail : Int) + mv
              ∧ (lvlRail w rail : Int) + mv ≤ (Config.fusedHigh rail : Int)) →
         Runs (.margin r) s (lhAnswer { s with mrg := s.mrg.set rail mv } r 5 0 0)))

/-- R218, R449, R452 to R454, R461 to R464, R485 to R487: what boot, power and the cores' restarts leave. The bytes of the failed-site
list are the model's choice (log 13), and so is that the lighthouse core runs its ROM (log 2). -/
def Sys2Proof.Rules.PowerAndBoot : Prop :=
  ∀ (s : State),
    (Runs .packagePowerLoss s (powerOff s) ∧ (powerOff s).power = false ∧ (powerOff s).bslots = s.bslots
        ∧ (powerOff s).flist = s.flist ∧ (powerOff s).pref = s.pref)
    ∧ (∀ rail, rail < 4 → Runs (.overcurrent rail) s (powerOff s))
    ∧ (∀ (site : BitVec 8) i j (ti tj : BitVec 10), site.toNat < 20 → (sensorNbrs i).contains j = true →
        (600 ≤ ti.toNat → 600 ≤ tj.toNat → Runs (.thermalTrip site (i, ti) (j, tj)) s (powerOff s))
        ∧ (ti.toNat < 600 ∨ tj.toNat < 600 → Runs (.thermalTrip site (i, ti) (j, tj)) s s))
    ∧ (s.boot = true → ∃ t, Runs .powerOnReset s t ∧ t.boot = false ∧ t.bslots = s.bslots ∧ t.regions = []
        ∧ (coreAt t 8).held = false
        ∧ (listGood s.flist s.ftag = true → t.failed = ((s.flist.filter markOk).map (·.toNat)).filter (· < 0x80))
        ∧ (listGood s.flist s.ftag = false → t.failed = allSites))
    ∧ (heartbeatLate s = true → Runs .heartbeatTimeout s (setForce { s with frozenP := true, hbT := none }))
    ∧ (forceNow s = true → Runs .forcedLevelTimeout s (setForced s))
    ∧ (∀ t, s.pauseT = some t → t ≤ s.tick → Runs .relockEnd s { s with pauseT := none, rails := s.railsT })
    ∧ (∃ t, Runs .clockStretch s t ∧ t.stretch = (if s.stretch = 0xFFFFFFFF then s.stretch else s.stretch + 1)
        ∧ t.per = s.per ∧ t.mem = s.mem ∧ s.tick ≤ t.tick)
    ∧ (∀ core (code arg : BitVec 16), core < 9 → (coreAt s core).held = false → (coreAt s core).mcause.getLsbD 63 = false →
        ∃ t, Runs (.coreTrap core code arg) s t ∧ (coreAt t core).mepc = BitVec.ofNat 64 (coreAt s core).st.pc
          ∧ (coreAt t core).mcause = (BitVec.ofNat 64 (code.toNat + arg.toNat * 65536) ||| 0x8000000000000000)
          ∧ (coreAt t core).st.pc = (coreAt s core).mtvec.toNat)
    ∧ (∀ i, bootPick s 2 = some i → s.boot = false → s.recovery = false →
        ∃ t, Runs .coreRestart s t ∧ t.rstT = some s.tick ∧ ∀ n < 7, (coreAt t n).held = true)
    ∧ (watchTripped s = true → let o := 1 - sget 0 s.pref 2 % 2
        verifies (slotBytes s (bootSlot 2 o)) 2 = true →
        ∃ t, Runs .harbourRollback s t ∧ sget 0 t.pref 2 = o ∧ t.rstT = some s.tick)
    ∧ (∀ (site : BitVec 8) m ok, s.boot = false → s.retrain = none → nextModule s = some (site.toNat, m) → m + 1 < moduleCount site.toNat →
        site.toNat < 20 →
        ∃ t, Runs (.moduleTrain site m ok) s t ∧ (moduleAt t site.toNat m).trn = ok ∧ (moduleAt t site.toNat m).up = ok)

/-- R462 to R465, R479 to R483: sensors are evaluated at most every 100,000 reference ticks, and two adjacent ones of a die at 110 °C or
more remove power; walk limits follow the stack's temperature; an ebb is due 24 h after the last, asks the regions to yield after 60 s
and, when no region holds cells, measures every rail of every die; and a reach link that goes down shows in RLSTAT and the mix. -/
def Sys2Proof.Rules.FleetEvents : Prop :=
  ∀ (s : State),
    (∀ l, s.sensT + 100000 ≤ s.tick →
        ((∀ p ∈ l, dieRead p = true → tripDie p.2 = false) →
          ∃ t, Runs (.sensorEvaluation l) s t ∧ t.sensT = s.tick ∧ t.mem = s.mem ∧ t.regions = s.regions)
        ∧ (∀ p ∈ l, dieRead p = true → tripDie p.2 = true → Runs (.sensorEvaluation l) s (powerOff s)))
    ∧ (∀ base t0 t1, base < 8 → (∀ k < 2, (sget {} s.hbt (2 * base + k)).evT = none) →
        ∃ t, Runs (.wlimEvaluation base t0 t1) s t
          ∧ sget {} t.hbt (2 * base) = wlimOne (sget {} s.hbt (2 * base)) s.tick t0
          ∧ sget {} t.hbt (2 * base + 1) = wlimOne (sget {} s.hbt (2 * base + 1)) s.tick t1 ∧ t.mem = s.mem)
    ∧ (ebbFalls s = true → Runs .ebbDue s { s with ebbDue := some s.tick })
    ∧ (ebbLate s = true → ∀ r, holding s = [r] → (regAt s r.handle).stage = .running → (regAt s r.handle).ypend = false →
        ∃ t, Runs .ebbYield s t ∧ (regAt t r.handle).ypend = true)
    ∧ (ebbFree s = true → ∀ l, ∃ t, Runs (.ebb l) s t ∧ t.ebbDue = none ∧ t.ebbT = s.tick ∧ t.mem = s.mem
        ∧ ∀ n < 20, siteFitted s n = true → ∀ r < 4, (preg t n (0xC0 + r)).extractLsb' 0 32 = measured s l n r)
    ∧ (∀ j, j < 16 → (preg s (0x20 + j / 4) (0x80 + j % 4)).getLsbD 0 = true →
        ∃ t, Runs (.reachLinkDown j) s t ∧ (preg t (0x20 + j / 4) (0x80 + j % 4)).getLsbD 0 = false
          ∧ bits (preg t (0x20 + j / 4) (0x80 + j % 4)) 31 16 = 0xFFFF ∧ t.mixd.getLsbD (28 + j) = false)

/-- R27, R218, R449, R452 to R454, R461 to R465, R479 to R487: power, boot, restarts, modules, sensors, ebbs and links. -/
def Obligations.PowerBootAndFleetEvents : Prop :=
  Sys2Proof.Rules.PowerAndBoot ∧ Sys2Proof.Rules.ModuleLoss ∧ Sys2Proof.Rules.FleetEvents

/-- R347 to R349, R474, R475: a partial of another package adds its contributions to the outstanding round that it reaches, or
ends it with MISMATCH where the parameters differ; an abort ends the round with ABORTED; either is held where a member that
awaits it has not issued the round, while 64 KiB last (what these bytes count is the model's reading, log 40); a round without an end for TOUT ticks ends with TIMEOUT,
one whose members have all contributed writes its result and ends with OK; held messages go after 1,000,000 ticks. -/
def Obligations.CollectiveRoundsEnd : Prop :=
  ∀ (s : State),
    (∀ (m : CollMsg),
        let h : HeldMsg := { at_ := s.tick, ab := false, msg := m }
        (msgOps s h = [] → roundAwaited s m.gid.toNat m.round.toNat none = true →
          (heldBytes (s.held ++ [h]) ≤ 65536 → Runs (.collPartial m) s { s with held := s.held ++ [h] })
          ∧ (65536 < heldBytes (s.held ++ [h]) → Runs (.collPartial m) s s))
        ∧ (msgOps s h = [] → roundAwaited s m.gid.toNat m.round.toNat none = false → Runs (.collPartial m) s s)
        ∧ ∀ id o, msgOps s h = [(id, o)] →
          let same := o.coll.kind = m.kind.toNat ∧ o.coll.op = m.op.toNat ∧ o.coll.fmt = m.fmt.toNat ∧ o.coll.count = m.count
            ∧ o.coll.nmemb = m.nmemb ∧ o.coll.root = m.root
          (same → m.pkg ≠ pkgOwn s → (∀ p ∈ m.parts, (o.coll.memb[p.1]?).map (·.1) = some m.pkg) →
            Runs (.collPartial m) s (holdMsg { s with ops := sset s.ops id (addParts o m.parts) } { h with got := [o.key] }))
          ∧ (¬ same → Runs (.collPartial m) s (holdMsg (collEnd s id o 3 (failRank s o)) { h with got := [o.key] })))
    ∧ (∀ pkg gid round id o,
        let h : HeldMsg := { at_ := s.tick, ab := true, msg := abortMsg pkg gid round }
        msgOps s h = [(id, o)] →
        Runs (.collAbort pkg gid round) s (holdMsg (collEnd s id o 2 (failRank s o)) { h with got := [o.key] }))
    ∧ (∀ id o, sfind s.ops id = some o → o.kind = .coll → o.coll.kind < 5 → o.units = false → o.born + o.coll.tout ≤ s.tick →
        Runs (.collRoundTimeout id) s (collStop s id o 1))
    ∧ (∀ id o, sfind s.ops id = some o → collFull o = true → opLive s o = true →
        let v := { s with freeCtr := s.freeCtr + 1 }
        (∀ u, collWrite v id o (collResult s.freeCtr o.coll).zipIdx = .ok u → Runs (.collRoundEnd id) s (collEnd u id o 0 0xFFFF))
        ∧ (∀ c a, collWrite v id o (collResult s.freeCtr o.coll).zipIdx = .error (c, a) → Runs (.collRoundEnd id) s (opFault v id o c a)))
    ∧ Runs .heldMessageDiscard s { s with held := s.held.filter fun h => decide (s.tick < h.at_ + 1000000) }

/-- The OPs that Tables 5 to 11 assign in a space. -/
def Sys2Proof.Rules.opsAssigned (sp : Space) (op : Nat) : Prop :=
  (1 ≤ op ∧ op ≤ 9) ∨
    match sp with
    | .s => (0x0A ≤ op ∧ op ≤ 0x36) ∨ (0x38 ≤ op ∧ op ≤ 0x3A) ∨ (0x40 ≤ op ∧ op ≤ 0x4C) ∨ (0x50 ≤ op ∧ op ≤ 0x55)
        ∨ (0x58 ≤ op ∧ op ≤ 0x5A) ∨ (0x60 ≤ op ∧ op ≤ 0x64)
    | .lw => op = 0x0A ∨ (0x10 ≤ op ∧ op ≤ 0x1E) ∨ (0x20 ≤ op ∧ op ≤ 0x25)
    | .mx => 0x10 ≤ op ∧ op ≤ 0x19
    | .vn => (0x10 ≤ op ∧ op ≤ 0x45) ∨ (0x48 ≤ op ∧ op ≤ 0x4C)
    | .gs => 0x10 ≤ op ∧ op ≤ 0x1F
    | .st => (0x10 ≤ op ∧ op ≤ 0x15) ∨ (0x18 ≤ op ∧ op ≤ 0x1D)

/-- R175: a word whose OP its space's table does not assign, and no other, is unassigned; an agent whose word names no
instruction raises the illegal-instruction fault, whether the step fetches the word or the event is given. -/
def Obligations.UnassignedWords : Prop :=
  (∀ (sp : Space) (w : Word), decode sp w = .error .unassigned ↔ ¬ Sys2Proof.Rules.opsAssigned sp (opOf w).toNat)
  ∧ (∀ (s : State) (w : Word),
      let u := { s with curWord := w }
      Issues { core := true, start := true } [] u →
      Runs (.unassignedOpcode w) s (takeFault (moved u) (runner u) { code := 1 }))
  ∧ ∀ (s : State) (key : Nat) (q : Seq) (r : Reject), s.power = true → s.inputs = [] → dueEvent s = none →
      readyAgent s = some (key, q) → fetchBad s key q = false → decodeAt s key q = .error r → Issues { core := true, start := true } [] (atAgent s key q) →
      step s = .next (takeFault (moved (atAgent s key q)) (runner (atAgent s key q)) { code := 1 })

/-- R155 to R175: decoding is the inverse of encoding. For every instruction word that is well formed, with every operand at
every value that its encoding admits and any issue distance, the word that the encoder writes decodes, in the space of the
instruction, to the instruction, and its IDLE is that distance. -/
def Obligations.EncodingRoundTrip : Prop :=
  ∀ (idle : BitVec 10) (i : Instr) (w : Word) (sp : Space), i.WellFormed → encode idle i = some w →
    (spaceOf i = some sp ∨ spaceOf i = none) → decode sp w = .ok i ∧ idleOf w = idle

/-- R159, R165, R175: no bit of a word is dropped. A word that decodes is the word that the encoder writes for its
instruction and IDLE, and its instruction is well formed. -/
def Obligations.DecodedWordsEncode : Prop :=
  ∀ (sp : Space) (w : Word) (i : Instr), decode sp w = .ok i → i.WellFormed ∧ encode (idleOf w) i = some w

/-- R155 to R174: words written out from the encoding tables decode to their instructions. -/
def Obligations.WordsDecode : Prop :=
  decode .s 0x02890A0840000000 = .ok (.mul 5 1 2)
  ∧ decode .s 0x0140800000000064 = .ok (.waitc 100)
  ∧ decode .lw 0x0041000000000000 = .ok .endw
  ∧ decode .s 0x0047000000000021 = .ok (.trap 0x21)
  ∧ decode .s 0x0042800000000003 = .ok (.slack 3)
  ∧ decode .s 0x00448FFF00000004 = .ok (.loop 0 0xFFF 4)
  ∧ decode .s 0x0031021060000000 = .ok (.mboxs 1 2 3)
  ∧ decode .mx 0x18C3000000000000 = .ok (.turn 0)
  ∧ (∀ sp, decode sp 0 = .error .unassigned)

/-- R36, R56, R83: where no input is due and nothing of the package's own is due, the word of the first agent that can issue is
decoded in its space, and the step is the decoded instruction's execution at that agent. A word that names no instruction
is the agent's illegal-instruction fault, and one whose bytes cannot be read its memory error, with the word's address. -/
def Obligations.StepRunsTheWord : Prop :=
  ∀ (s : State) (key : Nat) (q : Seq), s.power = true → s.inputs = [] → dueEvent s = none → readyAgent s = some (key, q) →
    (∀ i, fetchBad s key q = false → decodeAt s key q = .ok i → step s = exec i (atAgent s key q))
    ∧ (∀ r, fetchBad s key q = false → decodeAt s key q = .error r →
        step s = exec (.unassignedOpcode (fetchWord s key q)) (atAgent s key q))
    ∧ (fetchBad s key q = true → Issues { core := true, start := true } [] (atAgent s key q) →
        let u := atAgent s key q
        let st := (issueCtx u).st
        step s = .next (takeFault (moved u) (runner u)
          { code := 6, taddr := taddr (tidOf st.img) (idxOf st.img + (issueCtx u).pc) }))
    ∧ (atAgent s key q).cur = key ∧ (atAgent s key q).curSeq = q ∧ (atAgent s key q).curWord = fetchWord s key q
    ∧ (atAgent s key q).curIdle = idleNat (fetchWord s key q) ∧ (atAgent s key q).mem = s.mem
    ∧ (atAgent s key q).cells = s.cells

/-- R39, R449: the machine right after reset meets the invariant: its memory is in its canonical form, and the frame counter has 8 bits.
No region runs. That memory lists nothing (log 1) and that every core is held until the boot (log 2) are the model's choices. -/
def Obligations.ResetInvariant : Prop :=
  State.reset.Inv ∧ State.reset.mem = [] ∧ State.reset.regions = [] ∧ State.reset.tick = 0 ∧ State.reset.boot = true
    ∧ ∀ n < 9, (coreAt State.reset n).held = true

/-- R39, R100, R103: every step keeps the canonical form of memory and the width of the frame counter. -/
def Obligations.InvariantKept : Prop := ∀ s t : State, s.Inv → step s = .next t → t.Inv

/-- The destination of an S-space word that computes a register from registers and its immediate (R184 to R187). -/
def Sys2Proof.Rules.scalarDest : Instr → Option (BitVec 6)
  | .add d _ _ | .sub d _ _ | .mul d _ _ | .mulh d _ _ | .mulhu d _ _ | .div d _ _ | .divu d _ _ | .rem d _ _
  | .remu d _ _ | .and d _ _ | .or d _ _ | .xor d _ _ | .andn d _ _ | .sll d _ _ | .srl d _ _ | .sra d _ _
  | .ror d _ _ | .min d _ _ | .max d _ _ | .minu d _ _ | .maxu d _ _ | .slt d _ _ | .sltu d _ _ | .clz d _
  | .ctz d _ | .popc d _ | .addi d _ _ | .andi d _ _ | .ori d _ _ | .xori d _ _ | .slli d _ _ | .srli d _ _
  | .srai d _ _ | .rori d _ _ | .slti d _ _ | .sltiu d _ _ | .muli d _ _ | .li d _ _ | .lih d _ | .tamk d _ _ => some d
  | _ => none

/-- R41, R183 to R187: the frame of a scalar computation on a cell. Whatever the issue comes to, every byte of memory, every
other cell, every core, tensor, queue and privileged register, and in the running cell every scalar register but D, every
vector, mask, token, queue, scratchpad and accumulator, and its CSRs, are as before. -/
def Obligations.ScalarFrame : Prop :=
  ∀ (s t : State) (i : Instr) (d : BitVec 6), Sys2Proof.Rules.scalarDest i = some d → isCore s.cur = false → exec i s = .next t →
    let x := cellAt s s.cur
    let y := cellAt t s.cur
    (∀ a, memByte t a = memByte s a) ∧ t.tens = s.tens ∧ t.tt = s.tt ∧ t.pregs = s.pregs ∧ t.cores = s.cores
      ∧ t.queues = s.queues ∧ t.reqs = s.reqs ∧ t.ops = s.ops ∧ t.records = s.records
      ∧ (∀ k ≠ s.cur, cellAt t k = cellAt s k)
      ∧ (∀ r ≠ d.toNat, readA t s.cur r = readA s s.cur r)
      ∧ y.v = x.v ∧ y.m = x.m ∧ y.k = x.k ∧ y.q = x.q ∧ y.spad = x.spad ∧ y.pwb = x.pwb ∧ y.inb = x.inb ∧ y.dl = x.dl ∧ y.dw = x.dw
      ∧ y.csr = x.csr ∧ y.mx = x.mx ∧ y.gs = x.gs ∧ y.fifo = x.fifo

/-- R41, R56, R183: the result of a scalar word. On a core or in an elastic stream the register reads the value at once, in
a timed stream it reads as before and the value is on its way, to land at issue + latency; a result for a0 is discarded, and
a0 reads 0. No other register changes. That the result of an elastic word is there as it issues is the model's reading (log 15). -/
def Obligations.ScalarResultsLand : Prop :=
  ∀ (s : State) (c : Ctx) (d : BitVec 6) (v : Word) (n : Nat),
    let t := landA s c d v n
    (d = 0 → t = s ∧ readA t c.key 0 = 0)
    ∧ (d ≠ 0 → (c.timed = false ∨ c.core = true) → readA t c.key d.toNat = v ∧ (∀ r ≠ d.toNat, readA t c.key r = readA s c.key r))
    ∧ (d ≠ 0 → c.timed = true → c.core = false → (∀ r, readA t c.key r = readA s c.key r)
        ∧ (cellAt t c.key).lat = (cellAt s c.key).lat ++
            [{ due := c.t + n, tgt := .a d.toNat, val := v.setWidth 2048, seq := c.seq, pc := c.pc, ord := s.nextId }])

/-- R85, R108, R192: the frame of a scratchpad store. Every byte of every scratchpad, as any cell reads it, is unchanged but
the stored bytes of the addressed cell; device memory, every register, and the other cells' registers are unchanged. -/
def Sys2Proof.Rules.ScratchpadStoreFrame : Prop :=
  ∀ (s t : State) (c : Ctx) (o off : Nat) (bs : List Byte) (n : Nat), storeAt s c o off bs n = some t →
    (∀ k p x, ¬ (p = o ∧ off ≤ x ∧ x < off + bs.length) → spadByte t k p x = spadByte s k p x)
    ∧ (∀ a, memByte t a = memByte s a) ∧ (∀ k r, readA t k r = readA s k r)
    ∧ (∀ k, (cellAt t k).v = (cellAt s k).v ∧ (cellAt t k).k = (cellAt s k).k ∧ (cellAt t k).q = (cellAt s k).q)
    ∧ t.regions = s.regions ∧ t.reqs = s.reqs ∧ t.tt = s.tt ∧ t.pregs = s.pregs

/-- R76, R100, R437: a store that reaches the home of its RESIDENT tile. The bytes at the place that the tile's frame and the
descriptor give read as stored, every other byte of memory reads as before, and no register, tile table or cell changes. -/
def Sys2Proof.Rules.HomeStores : Prop :=
  ∀ (s : State) (ctx tens tile off : Nat) (bs : List Byte), Memory.wf s.mem → isBoot ctx tens = false →
    entState (entryOf s ctx tens tile) = 1 →
    let t := homeWrite s ctx tens tile off bs
    let a0 := physOf (entryOf s ctx tens tile) off
    memBytes t a0 bs.length = bs
      ∧ (∀ a, ¬ (a0 ≤ a ∧ a < a0 + bs.length) → memByte t a = memByte s a)
      ∧ homeRead t ctx tens tile off bs.length = bs
      ∧ t.tt = s.tt ∧ t.tens = s.tens ∧ t.cells = s.cells ∧ t.cores = s.cores ∧ t.pregs = s.pregs ∧ t.regions = s.regions

/-- R76, R85, R100, R108, R192: what a store to a scratchpad and a store at its home change, and that they change nothing else. -/
def Obligations.StoresFrame : Prop :=
  Sys2Proof.Rules.ScratchpadStoreFrame ∧ Sys2Proof.Rules.HomeStores
end

