-- ==== Sys2Proof/Laws/Dispatch.lean ====
section
/-! SUPPORT. What exec does with each instruction: it is the instruction's meaning. The proofs cite these and never unfold
the dispatch. -/

namespace Sys2Proof.Machine

@[simp] theorem exec_waitc n s : exec (.waitc n) s = execWaitc n s := rfl
@[simp] theorem exec_endw s : exec (.endw) s = execEndw s := rfl
@[simp] theorem exec_alignf s : exec (.alignf) s = execAlignf s := rfl
@[simp] theorem exec_start s : exec (.start) s = execStart s := rfl
@[simp] theorem exec_slack n s : exec (.slack n) s = execSlack n s := rfl
@[simp] theorem exec_turn n s : exec (.turn n) s = execTurn n s := rfl
@[simp] theorem exec_nop s : exec (.nop) s = execNop s := rfl
@[simp] theorem exec_jmp off s : exec (.jmp off) s = execJmp off s := rfl
@[simp] theorem exec_loop lvl off n s : exec (.loop lvl off n) s = execLoop lvl off n s := rfl
@[simp] theorem exec_call a off s : exec (.call a off) s = execCall a off s := rfl
@[simp] theorem exec_ret a s : exec (.ret a) s = execRet a s := rfl
@[simp] theorem exec_br a b cnd off s : exec (.br a b cnd off) s = execBr a b cnd off s := rfl
@[simp] theorem exec_brt a cnd toff joff jdist s : exec (.brt a cnd toff joff jdist) s = execBrt a cnd toff joff jdist s := rfl
@[simp] theorem exec_trap code s : exec (.trap code) s = execTrap code s := rfl
@[simp] theorem exec_rett s : exec (.rett) s = execRett s := rfl
@[simp] theorem exec_add d a b s : exec (.add d a b) s = execAdd d a b s := rfl
@[simp] theorem exec_sub d a b s : exec (.sub d a b) s = execSub d a b s := rfl
@[simp] theorem exec_mul d a b s : exec (.mul d a b) s = execMul d a b s := rfl
@[simp] theorem exec_mulh d a b s : exec (.mulh d a b) s = execMulh d a b s := rfl
@[simp] theorem exec_mulhu d a b s : exec (.mulhu d a b) s = execMulhu d a b s := rfl
@[simp] theorem exec_div d a b s : exec (.div d a b) s = execDiv d a b s := rfl
@[simp] theorem exec_divu d a b s : exec (.divu d a b) s = execDivu d a b s := rfl
@[simp] theorem exec_rem d a b s : exec (.rem d a b) s = execRem d a b s := rfl
@[simp] theorem exec_remu d a b s : exec (.remu d a b) s = execRemu d a b s := rfl
@[simp] theorem exec_and d a b s : exec (.and d a b) s = execAnd d a b s := rfl
@[simp] theorem exec_or d a b s : exec (.or d a b) s = execOr d a b s := rfl
@[simp] theorem exec_xor d a b s : exec (.xor d a b) s = execXor d a b s := rfl
@[simp] theorem exec_andn d a b s : exec (.andn d a b) s = execAndn d a b s := rfl
@[simp] theorem exec_sll d a b s : exec (.sll d a b) s = execSll d a b s := rfl
@[simp] theorem exec_srl d a b s : exec (.srl d a b) s = execSrl d a b s := rfl
@[simp] theorem exec_sra d a b s : exec (.sra d a b) s = execSra d a b s := rfl
@[simp] theorem exec_ror d a b s : exec (.ror d a b) s = execRor d a b s := rfl
@[simp] theorem exec_min d a b s : exec (.min d a b) s = execMin d a b s := rfl
@[simp] theorem exec_max d a b s : exec (.max d a b) s = execMax d a b s := rfl
@[simp] theorem exec_minu d a b s : exec (.minu d a b) s = execMinu d a b s := rfl
@[simp] theorem exec_maxu d a b s : exec (.maxu d a b) s = execMaxu d a b s := rfl
@[simp] theorem exec_slt d a b s : exec (.slt d a b) s = execSlt d a b s := rfl
@[simp] theorem exec_sltu d a b s : exec (.sltu d a b) s = execSltu d a b s := rfl
@[simp] theorem exec_clz d a s : exec (.clz d a) s = execClz d a s := rfl
@[simp] theorem exec_ctz d a s : exec (.ctz d a) s = execCtz d a s := rfl
@[simp] theorem exec_popc d a s : exec (.popc d a) s = execPopc d a s := rfl
@[simp] theorem exec_addi d a imm s : exec (.addi d a imm) s = execAddi d a imm s := rfl
@[simp] theorem exec_andi d a imm s : exec (.andi d a imm) s = execAndi d a imm s := rfl
@[simp] theorem exec_ori d a imm s : exec (.ori d a imm) s = execOri d a imm s := rfl
@[simp] theorem exec_xori d a imm s : exec (.xori d a imm) s = execXori d a imm s := rfl
@[simp] theorem exec_slli d a sh s : exec (.slli d a sh) s = execSlli d a sh s := rfl
@[simp] theorem exec_srli d a sh s : exec (.srli d a sh) s = execSrli d a sh s := rfl
@[simp] theorem exec_srai d a sh s : exec (.srai d a sh) s = execSrai d a sh s := rfl
@[simp] theorem exec_rori d a sh s : exec (.rori d a sh) s = execRori d a sh s := rfl
@[simp] theorem exec_slti d a imm s : exec (.slti d a imm) s = execSlti d a imm s := rfl
@[simp] theorem exec_sltiu d a imm s : exec (.sltiu d a imm) s = execSltiu d a imm s := rfl
@[simp] theorem exec_muli d a imm s : exec (.muli d a imm) s = execMuli d a imm s := rfl
@[simp] theorem exec_li d hi imm s : exec (.li d hi imm) s = execLi d hi imm s := rfl
@[simp] theorem exec_lih d imm s : exec (.lih d imm) s = execLih d imm s := rfl
@[simp] theorem exec_tamk d a b s : exec (.tamk d a b) s = execTamk d a b s := rfl
@[simp] theorem exec_tcoord d a b dim s : exec (.tcoord d a b dim) s = execTcoord d a b dim s := rfl
@[simp] theorem exec_tdim d a sel s : exec (.tdim d a sel) s = execTdim d a sel s := rfl
@[simp] theorem exec_ld d a sub imm s : exec (.ld d a sub imm) s = execLd d a sub imm s := rfl
@[simp] theorem exec_st d a sz imm s : exec (.st d a sz imm) s = execSt d a sz imm s := rfl
@[simp] theorem exec_ldAcq d a sub imm s : exec (.ldAcq d a sub imm) s = execLdAcq d a sub imm s := rfl
@[simp] theorem exec_stRel d a sz imm s : exec (.stRel d a sz imm) s = execStRel d a sz imm s := rfl
@[simp] theorem exec_amo d a b op use w s : exec (.amo d a b op use w) s = execAmo d a b op use w s := rfl
@[simp] theorem exec_cas d a b c f use w s : exec (.cas d a b c f use w) s = execCas d a b c f use w s := rfl
@[simp] theorem exec_faddw a b s : exec (.faddw a b) s = execFaddw a b s := rfl
@[simp] theorem exec_faddr d a s : exec (.faddr d a) s = execFaddr d a s := rfl
@[simp] theorem exec_phase a scope s : exec (.phase a scope) s = execPhase a scope s := rfl
@[simp] theorem exec_fence scope s : exec (.fence scope) s = execFence scope s := rfl
@[simp] theorem exec_bar d a b wait s : exec (.bar d a b wait) s = execBar d a b wait s := rfl
@[simp] theorem exec_tokw k1 k2 k3 s : exec (.tokw k1 k2 k3) s = execTokw k1 k2 k3 s := rfl
@[simp] theorem exec_synci s : exec (.synci) s = execSynci s := rfl
@[simp] theorem exec_qpush q a s : exec (.qpush q a) s = execQpush q a s := rfl
@[simp] theorem exec_qpop q d a s : exec (.qpop q d a) s = execQpop q d a s := rfl
@[simp] theorem exec_qpeek q d a s : exec (.qpeek q d a) s = execQpeek q d a s := rfl
@[simp] theorem exec_qcnt q d s : exec (.qcnt q d) s = execQcnt q d s := rfl
@[simp] theorem exec_engJoin d k s : exec (.engJoin d k) s = execEngJoin d k s := rfl
@[simp] theorem exec_engTload d a b k s : exec (.engTload d a b k) s = execEngTload d a b k s := rfl
@[simp] theorem exec_engTcopy d a b k s : exec (.engTcopy d a b k) s = execEngTcopy d a b k s := rfl
@[simp] theorem exec_engTstore d a b k s : exec (.engTstore d a b k) s = execEngTstore d a b k s := rfl
@[simp] theorem exec_engTfill d a b k s : exec (.engTfill d a b k) s = execEngTfill d a b k s := rfl
@[simp] theorem exec_fpush a s : exec (.fpush a) s = execFpush a s := rfl
@[simp] theorem exec_rdtide d fn s : exec (.rdtide d fn) s = execRdtide d fn s := rfl
@[simp] theorem exec_csrr d csr s : exec (.csrr d csr) s = execCsrr d csr s := rfl
@[simp] theorem exec_csrw csr a s : exec (.csrw csr a) s = execCsrw csr a s := rfl
@[simp] theorem exec_pcsrr d site reg s : exec (.pcsrr d site reg) s = execPcsrr d site reg s := rfl
@[simp] theorem exec_pcsrw site reg a s : exec (.pcsrw site reg a) s = execPcsrw site reg a s := rfl
@[simp] theorem exec_registerWrite core site reg v s : exec (.registerWrite core site reg v) s = execRegisterWrite core site reg v s := rfl
@[simp] theorem exec_mboxs d a b s : exec (.mboxs d a b) s = execMboxs d a b s := rfl
@[simp] theorem exec_mboxr d s : exec (.mboxr d) s = execMboxr d s := rfl
@[simp] theorem exec_mwait n s : exec (.mwait n) s = execMwait n s := rfl
@[simp] theorem exec_brq q cnd off s : exec (.brq q cnd off) s = execBrq q cnd off s := rfl
@[simp] theorem exec_dset ds a w k s : exec (.dset ds a w k) s = execDset ds a w k s := rfl
@[simp] theorem exec_dclr ds k s : exec (.dclr ds k) s = execDclr ds k s := rfl
@[simp] theorem exec_dld ds a k s : exec (.dld ds a k) s = execDld ds a k s := rfl
@[simp] theorem exec_rdq ds q k s : exec (.rdq ds q k) s = execRdq ds q k s := rfl
@[simp] theorem exec_rds ds a k s : exec (.rds ds a k) s = execRds ds a k s := rfl
@[simp] theorem exec_wrq ds q k s : exec (.wrq ds q k) s = execWrq ds q k s := rfl
@[simp] theorem exec_wrs ds a k s : exec (.wrs ds a k) s = execWrs ds a k s := rfl
@[simp] theorem exec_cpy ds dt k s : exec (.cpy ds dt k) s = execCpy ds dt k s := rfl
@[simp] theorem exec_gath ds q a b xf k s : exec (.gath ds q a b xf k) s = execGath ds q a b xf k s := rfl
@[simp] theorem exec_scat ds q a b xf k s : exec (.scat ds q a b xf k) s = execScat ds q a b xf k s := rfl
@[simp] theorem exec_pref ds k s : exec (.pref ds k) s = execPref ds k s := rfl
@[simp] theorem exec_push q ch k s : exec (.push q ch k) s = execPush q ch k s := rfl
@[simp] theorem exec_pushR a ch k s : exec (.pushR a ch k) s = execPushR a ch k s := rfl
@[simp] theorem exec_movq qd qs k s : exec (.movq qd qs k) s = execMovq qd qs k s := rfl
@[simp] theorem exec_arrv a b k s : exec (.arrv a b k) s = execArrv a b k s := rfl
@[simp] theorem exec_bwait a b k s : exec (.bwait a b k) s = execBwait a b k s := rfl
@[simp] theorem exec_collAr ds dt op fmt a k s : exec (.collAr ds dt op fmt a k) s = execCollAr ds dt op fmt a k s := rfl
@[simp] theorem exec_collRs ds dt op fmt a k s : exec (.collRs ds dt op fmt a k) s = execCollRs ds dt op fmt a k s := rfl
@[simp] theorem exec_collAg ds dt fmt a k s : exec (.collAg ds dt fmt a k) s = execCollAg ds dt fmt a k s := rfl
@[simp] theorem exec_collBc ds dt fmt a b k s : exec (.collBc ds dt fmt a b k) s = execCollBc ds dt fmt a b k s := rfl
@[simp] theorem exec_collAa ds dt fmt a k s : exec (.collAa ds dt fmt a k) s = execCollAa ds dt fmt a k s := rfl
@[simp] theorem exec_collAb a k s : exec (.collAb a k) s = execCollAb a k s := rfl
@[simp] theorem exec_mload t x s : exec (.mload t x) s = execMload t x s := rfl
@[simp] theorem exec_msel mask x s : exec (.msel mask x) s = execMsel mask x s := rfl
@[simp] theorem exec_mma q x s : exec (.mma q x) s = execMma q x s := rfl
@[simp] theorem exec_mmas q x s : exec (.mmas q x) s = execMmas q x s := rfl
@[simp] theorem exec_zclr mask x s : exec (.zclr mask x) s = execZclr mask x s := rfl
@[simp] theorem exec_zrd q t st x s : exec (.zrd q t st x) s = execZrd q t st x s := rfl
@[simp] theorem exec_zrdB16 q t st x s : exec (.zrdB16 q t st x) s = execZrdB16 q t st x s := rfl
@[simp] theorem exec_zwr q t st x s : exec (.zwr q t st x) s = execZwr q t st x s := rfl
@[simp] theorem exec_zpush t ch x s : exec (.zpush t ch x) s = execZpush t ch x s := rfl
@[simp] theorem exec_zpushB16 t ch x s : exec (.zpushB16 t ch x) s = execZpushB16 t ch x s := rfl
@[simp] theorem exec_vadd f s : exec (.vadd f) s = execVadd f s := rfl
@[simp] theorem exec_vsub f s : exec (.vsub f) s = execVsub f s := rfl
@[simp] theorem exec_vmul f s : exec (.vmul f) s = execVmul f s := rfl
@[simp] theorem exec_vfma f s : exec (.vfma f) s = execVfma f s := rfl
@[simp] theorem exec_vfms f s : exec (.vfms f) s = execVfms f s := rfl
@[simp] theorem exec_vdiv f s : exec (.vdiv f) s = execVdiv f s := rfl
@[simp] theorem exec_vsqrt f s : exec (.vsqrt f) s = execVsqrt f s := rfl
@[simp] theorem exec_vmin f s : exec (.vmin f) s = execVmin f s := rfl
@[simp] theorem exec_vmax f s : exec (.vmax f) s = execVmax f s := rfl
@[simp] theorem exec_vabs f s : exec (.vabs f) s = execVabs f s := rfl
@[simp] theorem exec_vneg f s : exec (.vneg f) s = execVneg f s := rfl
@[simp] theorem exec_vcmpeq f s : exec (.vcmpeq f) s = execVcmpeq f s := rfl
@[simp] theorem exec_vcmpne f s : exec (.vcmpne f) s = execVcmpne f s := rfl
@[simp] theorem exec_vcmplt f s : exec (.vcmplt f) s = execVcmplt f s := rfl
@[simp] theorem exec_vcmple f s : exec (.vcmple f) s = execVcmple f s := rfl
@[simp] theorem exec_vsel f s : exec (.vsel f) s = execVsel f s := rfl
@[simp] theorem exec_vand f s : exec (.vand f) s = execVand f s := rfl
@[simp] theorem exec_vor f s : exec (.vor f) s = execVor f s := rfl
@[simp] theorem exec_vxor f s : exec (.vxor f) s = execVxor f s := rfl
@[simp] theorem exec_vnot f s : exec (.vnot f) s = execVnot f s := rfl
@[simp] theorem exec_vshl f s : exec (.vshl f) s = execVshl f s := rfl
@[simp] theorem exec_vshr f s : exec (.vshr f) s = execVshr f s := rfl
@[simp] theorem exec_vsra f s : exec (.vsra f) s = execVsra f s := rfl
@[simp] theorem exec_viadd f s : exec (.viadd f) s = execViadd f s := rfl
@[simp] theorem exec_visub f s : exec (.visub f) s = execVisub f s := rfl
@[simp] theorem exec_vimul f s : exec (.vimul f) s = execVimul f s := rfl
@[simp] theorem exec_vimin f s : exec (.vimin f) s = execVimin f s := rfl
@[simp] theorem exec_vimax f s : exec (.vimax f) s = execVimax f s := rfl
@[simp] theorem exec_vcvt f s : exec (.vcvt f) s = execVcvt f s := rfl
@[simp] theorem exec_vrcp f s : exec (.vrcp f) s = execVrcp f s := rfl
@[simp] theorem exec_vrsqrt f s : exec (.vrsqrt f) s = execVrsqrt f s := rfl
@[simp] theorem exec_vexp2 f s : exec (.vexp2 f) s = execVexp2 f s := rfl
@[simp] theorem exec_vlog2 f s : exec (.vlog2 f) s = execVlog2 f s := rfl
@[simp] theorem exec_vtanh f s : exec (.vtanh f) s = execVtanh f s := rfl
@[simp] theorem exec_vsigm f s : exec (.vsigm f) s = execVsigm f s := rfl
@[simp] theorem exec_vsin f s : exec (.vsin f) s = execVsin f s := rfl
@[simp] theorem exec_vcos f s : exec (.vcos f) s = execVcos f s := rfl
@[simp] theorem exec_vredsum f s : exec (.vredsum f) s = execVredsum f s := rfl
@[simp] theorem exec_vredmax f s : exec (.vredmax f) s = execVredmax f s := rfl
@[simp] theorem exec_vredmin f s : exec (.vredmin f) s = execVredmin f s := rfl
@[simp] theorem exec_vperm f s : exec (.vperm f) s = execVperm f s := rfl
@[simp] theorem exec_vbcast f s : exec (.vbcast f) s = execVbcast f s := rfl
@[simp] theorem exec_vrot f s : exec (.vrot f) s = execVrot f s := rfl
@[simp] theorem exec_vmov f s : exec (.vmov f) s = execVmov f s := rfl
@[simp] theorem exec_vld d a imm s : exec (.vld d a imm) s = execVld d a imm s := rfl
@[simp] theorem exec_vst d a imm s : exec (.vst d a imm) s = execVst d a imm s := rfl
@[simp] theorem exec_vidx f s : exec (.vidx f) s = execVidx f s := rfl
@[simp] theorem exec_vli d t imm s : exec (.vli d t imm) s = execVli d t imm s := rfl
@[simp] theorem exec_dot16 f s : exec (.dot16 f) s = execDot16 f s := rfl
@[simp] theorem exec_vquant f s : exec (.vquant f) s = execVquant f s := rfl
@[simp] theorem exec_vdeq f s : exec (.vdeq f) s = execVdeq f s := rfl
@[simp] theorem exec_vnmean f s : exec (.vnmean f) s = execVnmean f s := rfl
@[simp] theorem exec_vnvar f s : exec (.vnvar f) s = execVnvar f s := rfl
@[simp] theorem exec_vnapply f s : exec (.vnapply f) s = execVnapply f s := rfl
@[simp] theorem exec_vmset f s : exec (.vmset f) s = execVmset f s := rfl
@[simp] theorem exec_vmand f s : exec (.vmand f) s = execVmand f s := rfl
@[simp] theorem exec_vmor f s : exec (.vmor f) s = execVmor f s := rfl
@[simp] theorem exec_vmnot f s : exec (.vmnot f) s = execVmnot f s := rfl
@[simp] theorem exec_vmcnt f s : exec (.vmcnt f) s = execVmcnt f s := rfl
@[simp] theorem exec_gsetBlock a k s : exec (.gsetBlock a k) s = execGsetBlock a k s := rfl
@[simp] theorem exec_gsetBatch a k s : exec (.gsetBatch a k) s = execGsetBatch a k s := rfl
@[simp] theorem exec_gsetWalk a k s : exec (.gsetWalk a k) s = execGsetWalk a k s := rfl
@[simp] theorem exec_gsetBar a k s : exec (.gsetBar a k) s = execGsetBar a k s := rfl
@[simp] theorem exec_gload a b k s : exec (.gload a b k) s = execGload a b k s := rfl
@[simp] theorem exec_grule a k s : exec (.grule a k) s = execGrule a k s := rfl
@[simp] theorem exec_grow q a b mk k s : exec (.grow q a b mk k) s = execGrow q a b mk k s := rfl
@[simp] theorem exec_gseg q qs b mk k s : exec (.gseg q qs b mk k) s = execGseg q qs b mk k s := rfl
@[simp] theorem exec_gscat qs a b k s : exec (.gscat qs a b k) s = execGscat qs a b k s := rfl
@[simp] theorem exec_walk q a b mk k s : exec (.walk q a b mk k) s = execWalk q a b mk k s := rfl
@[simp] theorem exec_sample q a b mk k s : exec (.sample q a b mk k) s = execSample q a b mk k s := rfl
@[simp] theorem exec_gidx d a b s : exec (.gidx d a b) s = execGidx d a b s := rfl
@[simp] theorem exec_gidxBd d a b c s : exec (.gidxBd d a b c) s = execGidxBd d a b c s := rfl
@[simp] theorem exec_gmov f s : exec (.gmov f) s = execGmov f s := rfl
@[simp] theorem exec_gvadd f s : exec (.gvadd f) s = execGvadd f s := rfl
@[simp] theorem exec_gvmul f s : exec (.gvmul f) s = execGvmul f s := rfl
@[simp] theorem exec_gvfma f s : exec (.gvfma f) s = execGvfma f s := rfl
@[simp] theorem exec_gvcvt f s : exec (.gvcvt f) s = execGvcvt f s := rfl
@[simp] theorem exec_gvld d a imm s : exec (.gvld d a imm) s = execGvld d a imm s := rfl
@[simp] theorem exec_gvst d a imm s : exec (.gvst d a imm) s = execGvst d a imm s := rfl
@[simp] theorem exec_bld q a b mk k s : exec (.bld q a b mk k) s = execBld q a b mk k s := rfl
@[simp] theorem exec_bst qs a b k s : exec (.bst qs a b k) s = execBst qs a b k s := rfl
@[simp] theorem exec_bfill a b k s : exec (.bfill a b k) s = execBfill a b k s := rfl
@[simp] theorem exec_bcpy a b k s : exec (.bcpy a b k) s = execBcpy a b k s := rfl
@[simp] theorem exec_bamo qs a b op d64 k s : exec (.bamo qs a b op d64 k) s = execBamo qs a b op d64 k s := rfl
@[simp] theorem exec_bred q a b op k s : exec (.bred q a b op k) s = execBred q a b op k s := rfl
@[simp] theorem exec_vfpush a s : exec (.vfpush a) s = execVfpush a s := rfl
@[simp] theorem exec_vfpushn d a s : exec (.vfpushn d a) s = execVfpushn d a s := rfl
@[simp] theorem exec_vfpop d s : exec (.vfpop d) s = execVfpop d s := rfl
@[simp] theorem exec_vfcnt d p s : exec (.vfcnt d p) s = execVfcnt d p s := rfl
@[simp] theorem exec_svadd f s : exec (.svadd f) s = execSvadd f s := rfl
@[simp] theorem exec_svfma f s : exec (.svfma f) s = execSvfma f s := rfl
@[simp] theorem exec_predecode key q s : exec (.predecode key q) s = execPredecode key q s := rfl
@[simp] theorem exec_regionFreeze h s : exec (.regionFreeze h) s = execRegionFreeze h s := rfl
@[simp] theorem exec_stallRelease key q s : exec (.stallRelease key q) s = execStallRelease key q s := rfl
@[simp] theorem exec_regionStallResume h s : exec (.regionStallResume h) s = execRegionStallResume h s := rfl
@[simp] theorem exec_stallTimeout h s : exec (.stallTimeout h) s = execStallTimeout h s := rfl
@[simp] theorem exec_startWaitTimeout h s : exec (.startWaitTimeout h) s = execStartWaitTimeout h s := rfl
@[simp] theorem exec_queueWaitTimeout op s : exec (.queueWaitTimeout op) s = execQueueWaitTimeout op s := rfl
@[simp] theorem exec_fifoWaitTimeout key s : exec (.fifoWaitTimeout key) s = execFifoWaitTimeout key s := rfl
@[simp] theorem exec_resultLanding key s : exec (.resultLanding key) s = execResultLanding key s := rfl
@[simp] theorem exec_pushDelivery key s : exec (.pushDelivery key) s = execPushDelivery key s := rfl
@[simp] theorem exec_mmaRowTake key s : exec (.mmaRowTake key) s = execMmaRowTake key s := rfl
@[simp] theorem exec_mmaRowLanding key s : exec (.mmaRowLanding key) s = execMmaRowLanding key s := rfl
@[simp] theorem exec_mloadLanding key s : exec (.mloadLanding key) s = execMloadLanding key s := rfl
@[simp] theorem exec_stripEntryLanding key s : exec (.stripEntryLanding key) s = execStripEntryLanding key s := rfl
@[simp] theorem exec_fifoTransit key s : exec (.fifoTransit key) s = execFifoTransit key s := rfl
@[simp] theorem exec_engineOpComplete op s : exec (.engineOpComplete op) s = execEngineOpComplete op s := rfl
@[simp] theorem exec_memoryRequestApply req s : exec (.memoryRequestApply req) s = execMemoryRequestApply req s := rfl
@[simp] theorem exec_memoryResponse req s : exec (.memoryResponse req) s = execMemoryResponse req s := rfl
@[simp] theorem exec_atomicErrorResponse req applied s : exec (.atomicErrorResponse req applied) s = execAtomicErrorResponse req applied s := rfl
@[simp] theorem exec_atomicTimeout req s : exec (.atomicTimeout req) s = execAtomicTimeout req s := rfl
@[simp] theorem exec_phaseEnd key s : exec (.phaseEnd key) s = execPhaseEnd key s := rfl
@[simp] theorem exec_taskDispatch h ldie s : exec (.taskDispatch h ldie) s = execTaskDispatch h ldie s := rfl
@[simp] theorem exec_taskStart key s : exec (.taskStart key) s = execTaskStart key s := rfl
@[simp] theorem exec_taskEnd key s : exec (.taskEnd key) s = execTaskEnd key s := rfl
@[simp] theorem exec_planRetire h s : exec (.planRetire h) s = execPlanRetire h s := rfl
@[simp] theorem exec_planeSwap h s : exec (.planeSwap h) s = execPlaneSwap h s := rfl
@[simp] theorem exec_regionStop h s : exec (.regionStop h) s = execRegionStop h s := rfl
@[simp] theorem exec_stubResume h s : exec (.stubResume h) s = execStubResume h s := rfl
@[simp] theorem exec_debugRequest h ldie row col s : exec (.debugRequest h ldie row col) s = execDebugRequest h ldie row col s := rfl
@[simp] theorem exec_yieldRequest h s : exec (.yieldRequest h) s = execYieldRequest h s := rfl
@[simp] theorem exec_slackSave h s : exec (.slackSave h) s = execSlackSave h s := rfl
@[simp] theorem exec_elasticYieldSave h s : exec (.elasticYieldSave h) s = execElasticYieldSave h s := rfl
@[simp] theorem exec_slackDistance h s : exec (.slackDistance h) s = execSlackDistance h s := rfl
@[simp] theorem exec_forcedSave h s : exec (.forcedSave h) s = execForcedSave h s := rfl
@[simp] theorem exec_slackResume h s : exec (.slackResume h) s = execSlackResume h s := rfl
@[simp] theorem exec_phyLinkLoss site module s : exec (.phyLinkLoss site module) s = execPhyLinkLoss site module s := rfl
@[simp] theorem exec_hello m w0 w1 s : exec (.hello m w0 w1) s = execHello m w0 w1 s := rfl
@[simp] theorem exec_regwrQtail m v s : exec (.regwrQtail m v) s = execRegwrQtail m v s := rfl
@[simp] theorem exec_regwrQctlStop m v s : exec (.regwrQctlStop m v) s = execRegwrQctlStop m v s := rfl
@[simp] theorem exec_regwrQctlErr m v s : exec (.regwrQctlErr m v) s = execRegwrQctlErr m v s := rfl
@[simp] theorem exec_regwrQprog m v s : exec (.regwrQprog m v) s = execRegwrQprog m v s := rfl
@[simp] theorem exec_regrd m reg s : exec (.regrd m reg) s = execRegrd m reg s := rfl
@[simp] theorem exec_memwr m taddr data s : exec (.memwr m taddr data) s = execMemwr m taddr data s := rfl
@[simp] theorem exec_memrd m taddr count s : exec (.memrd m taddr count) s = execMemrd m taddr count s := rfl
@[simp] theorem exec_resp conn rseq status value s : exec (.resp conn rseq status value) s = execResp conn rseq status value s := rfl
@[simp] theorem exec_event queue w0 w1 s : exec (.event queue w0 w1) s = execEvent queue w0 w1 s := rfl
@[simp] theorem exec_ack m bitmap s : exec (.ack m bitmap) s = execAck m bitmap s := rfl
@[simp] theorem exec_ackTimer conn s : exec (.ackTimer conn) s = execAckTimer conn s := rfl
@[simp] theorem exec_messageResend conn seq s : exec (.messageResend conn seq) s = execMessageResend conn seq s := rfl
@[simp] theorem exec_commandConsume queue s : exec (.commandConsume queue) s = execCommandConsume queue s := rfl
@[simp] theorem exec_nopCommand c s : exec (.nopCommand c) s = execNopCommand c s := rfl
@[simp] theorem exec_launch c s : exec (.launch c) s = execLaunch c s := rfl
@[simp] theorem exec_resume c s : exec (.resume c) s = execResume c s := rfl
@[simp] theorem exec_endCommand c s : exec (.endCommand c) s = execEndCommand c s := rfl
@[simp] theorem exec_yield c s : exec (.yield c) s = execYield c s := rfl
@[simp] theorem exec_debug c s : exec (.debug c) s = execDebug c s := rfl
@[simp] theorem exec_prio c s : exec (.prio c) s = execPrio c s := rfl
@[simp] theorem exec_qcreate c s : exec (.qcreate c) s = execQcreate c s := rfl
@[simp] theorem exec_qdestroy c s : exec (.qdestroy c) s = execQdestroy c s := rfl
@[simp] theorem exec_ccreate c s : exec (.ccreate c) s = execCcreate c s := rfl
@[simp] theorem exec_cdestroy c s : exec (.cdestroy c) s = execCdestroy c s := rfl
@[simp] theorem exec_queueSwitchIn queue s : exec (.queueSwitchIn queue) s = execQueueSwitchIn queue s := rfl
@[simp] theorem exec_queueSwitchOut queue s : exec (.queueSwitchOut queue) s = execQueueSwitchOut queue s := rfl
@[simp] theorem exec_regionDispatch h s : exec (.regionDispatch h) s = execRegionDispatch h s := rfl
@[simp] theorem exec_ageStep h s : exec (.ageStep h) s = execAgeStep h s := rfl
@[simp] theorem exec_quantumExpiry h s : exec (.quantumExpiry h) s = execQuantumExpiry h s := rfl
@[simp] theorem exec_leaseAcquire h s : exec (.leaseAcquire h) s = execLeaseAcquire h s := rfl
@[simp] theorem exec_rfe1Read s : exec (.rfe1Read) s = execRfe1Read s := rfl
@[simp] theorem exec_rfackRetry h s : exec (.rfackRetry h) s = execRfackRetry h s := rfl
@[simp] theorem exec_rfackFail h s : exec (.rfackFail h) s = execRfackFail h s := rfl
@[simp] theorem exec_tileRead s : exec (.tileRead) s = execTileRead s := rfl
@[simp] theorem exec_map s : exec (.map) s = execMap s := rfl
@[simp] theorem exec_mapz s : exec (.mapz) s = execMapz s := rfl
@[simp] theorem exec_discard s : exec (.discard) s = execDiscard s := rfl
@[simp] theorem exec_reclaim s : exec (.reclaim) s = execReclaim s := rfl
@[simp] theorem exec_unmap s : exec (.unmap) s = execUnmap s := rfl
@[simp] theorem exec_migrate s : exec (.migrate) s = execMigrate s := rfl
@[simp] theorem exec_fwdclr s : exec (.fwdclr) s = execFwdclr s := rfl
@[simp] theorem exec_install s : exec (.install) s = execInstall s := rfl
@[simp] theorem exec_remove s : exec (.remove) s = execRemove s := rfl
@[simp] theorem exec_migrationSectorCopy i s : exec (.migrationSectorCopy i) s = execMigrationSectorCopy i s := rfl
@[simp] theorem exec_switchover i s : exec (.switchover i) s = execSwitchover i s := rfl
@[simp] theorem exec_staleFrame req s : exec (.staleFrame req) s = execStaleFrame req s := rfl
@[simp] theorem exec_peerInvalidation pkg frame s : exec (.peerInvalidation pkg frame) s = execPeerInvalidation pkg frame s := rfl
@[simp] theorem exec_invalidationAck pkg frame s : exec (.invalidationAck pkg frame) s = execInvalidationAck pkg frame s := rfl
@[simp] theorem exec_fwdinvSelect v s : exec (.fwdinvSelect v) s = execFwdinvSelect v s := rfl
@[simp] theorem exec_peerPinRequest pkg ctx tens first count kind s : exec (.peerPinRequest pkg ctx tens first count kind) s = execPeerPinRequest pkg ctx tens first count kind s := rfl
@[simp] theorem exec_peerLeaseTimeout h s : exec (.peerLeaseTimeout h) s = execPeerLeaseTimeout h s := rfl
@[simp] theorem exec_peerRequest r s : exec (.peerRequest r) s = execPeerRequest r s := rfl
@[simp] theorem exec_peerAccessTimeout req s : exec (.peerAccessTimeout req) s = execPeerAccessTimeout req s := rfl
@[simp] theorem exec_roleChangeStart v s : exec (.roleChangeStart v) s = execRoleChangeStart v s := rfl
@[simp] theorem exec_roleChangeAbort s : exec (.roleChangeAbort) s = execRoleChangeAbort s := rfl
@[simp] theorem exec_roleDrainDone s : exec (.roleDrainDone) s = execRoleDrainDone s := rfl
@[simp] theorem exec_gateRequest core stratum s : exec (.gateRequest core stratum) s = execGateRequest core stratum s := rfl
@[simp] theorem exec_gateApply stratum s : exec (.gateApply stratum) s = execGateApply stratum s := rfl
@[simp] theorem exec_deviceEventDeliver s : exec (.deviceEventDeliver) s = execDeviceEventDeliver s := rfl
@[simp] theorem exec_lighthouseAnswerDeliver s : exec (.lighthouseAnswerDeliver) s = execLighthouseAnswerDeliver s := rfl
@[simp] theorem exec_markfail r s : exec (.markfail r) s = execMarkfail r s := rfl
@[simp] theorem exec_clearfail r s : exec (.clearfail r) s = execClearfail r s := rfl
@[simp] theorem exec_grant r s : exec (.grant r) s = execGrant r s := rfl
@[simp] theorem exec_hbeat r s : exec (.hbeat r) s = execHbeat r s := rfl
@[simp] theorem exec_margin r s : exec (.margin r) s = execMargin r s := rfl
@[simp] theorem exec_retrain r s : exec (.retrain r) s = execRetrain r s := rfl
@[simp] theorem exec_setboot r s : exec (.setboot r) s = execSetboot r s := rfl
@[simp] theorem exec_quote r s : exec (.quote r) s = execQuote r s := rfl
@[simp] theorem exec_heartbeatTimeout s : exec (.heartbeatTimeout) s = execHeartbeatTimeout s := rfl
@[simp] theorem exec_forcedLevelTimeout s : exec (.forcedLevelTimeout) s = execForcedLevelTimeout s := rfl
@[simp] theorem exec_relockEnd s : exec (.relockEnd) s = execRelockEnd s := rfl
@[simp] theorem exec_powerOnReset s : exec (.powerOnReset) s = execPowerOnReset s := rfl
@[simp] theorem exec_moduleTrain site module ok s : exec (.moduleTrain site module ok) s = execModuleTrain site module ok s := rfl
@[simp] theorem exec_coreTrap core code arg s : exec (.coreTrap core code arg) s = execCoreTrap core code arg s := rfl
@[simp] theorem exec_coreRestart s : exec (.coreRestart) s = execCoreRestart s := rfl
@[simp] theorem exec_harbourRollback s : exec (.harbourRollback) s = execHarbourRollback s := rfl
@[simp] theorem exec_clockStretch s : exec (.clockStretch) s = execClockStretch s := rfl
@[simp] theorem exec_overcurrent rail s : exec (.overcurrent rail) s = execOvercurrent rail s := rfl
@[simp] theorem exec_thermalTrip site i j s : exec (.thermalTrip site i j) s = execThermalTrip site i j s := rfl
@[simp] theorem exec_sensorEvaluation readings s : exec (.sensorEvaluation readings) s = execSensorEvaluation readings s := rfl
@[simp] theorem exec_wlimEvaluation base t0 t1 s : exec (.wlimEvaluation base t0 t1) s = execWlimEvaluation base t0 t1 s := rfl
@[simp] theorem exec_hoteRead base s : exec (.hoteRead base) s = execHoteRead base s := rfl
@[simp] theorem exec_ebbDue s : exec (.ebbDue) s = execEbbDue s := rfl
@[simp] theorem exec_ebbYield s : exec (.ebbYield) s = execEbbYield s := rfl
@[simp] theorem exec_ebb measures s : exec (.ebb measures) s = execEbb measures s := rfl
@[simp] theorem exec_pkgidWrite v s : exec (.pkgidWrite v) s = execPkgidWrite v s := rfl
@[simp] theorem exec_reachLinkDown link s : exec (.reachLinkDown link) s = execReachLinkDown link s := rfl
@[simp] theorem exec_collPartial m s : exec (.collPartial m) s = execCollPartial m s := rfl
@[simp] theorem exec_collAbort pkg gid round s : exec (.collAbort pkg gid round) s = execCollAbort pkg gid round s := rfl
@[simp] theorem exec_collRoundTimeout op s : exec (.collRoundTimeout op) s = execCollRoundTimeout op s := rfl
@[simp] theorem exec_collRoundEnd op s : exec (.collRoundEnd op) s = execCollRoundEnd op s := rfl
@[simp] theorem exec_heldMessageDiscard s : exec (.heldMessageDiscard) s = execHeldMessageDiscard s := rfl
@[simp] theorem exec_pcsrrTimeout core s : exec (.pcsrrTimeout core) s = execPcsrrTimeout core s := rfl
@[simp] theorem exec_unassignedOpcode w s : exec (.unassignedOpcode w) s = execUnassignedOpcode w s := rfl
@[simp] theorem exec_claexFrameDrop f s : exec (.claexFrameDrop f) s = execClaexFrameDrop f s := rfl
@[simp] theorem exec_hostPortLinkChange up s : exec (.hostPortLinkChange up) s = execHostPortLinkChange up s := rfl
@[simp] theorem exec_packagePowerLoss s : exec (.packagePowerLoss) s = execPackagePowerLoss s := rfl
@[simp] theorem exec_mwaitTimeout core s : exec (.mwaitTimeout core) s = execMwaitTimeout core s := rfl

end Sys2Proof.Machine
end

