-- ==== Sys2Proof/Laws/Issue.lean ====
section
/-! SUPPORT. What the issue of a word can do, said once: the lemmas that the proofs of the words' meanings cite. -/

namespace Sys2Proof.Machine

/-- The word being run is unchanged by the start of its region. -/
@[simp] theorem touchStart_curWord (s : State) (k : Nat) : (touchStart s k).curWord = s.curWord := by
  unfold touchStart
  repeat' split
  all_goals first | rfl | (dsimp only; repeat' split) <;> rfl

@[simp] theorem touchStart_curIdle (s : State) (k : Nat) : (touchStart s k).curIdle = s.curIdle := by
  unfold touchStart
  repeat' split
  all_goals first | rfl | (dsimp only; repeat' split) <;> rfl

/-- A word that issues has the effect of its body in the state past it. -/
theorem word_of_issues {lg : Legal} {regs : List (BitVec 6)} {s : State} (h : Issues lg regs s)
    (body : Ctx → State → Res) : word lg regs body s = .next (answered s (body (issueCtx s) (moved s))) := by
  obtain ⟨hcan, hj, hp, hl, hf⟩ := h
  unfold answered moved joinsLeft
  unfold word runWord
  simp only [hcan, Bool.not_true, Bool.false_eq_true, if_false]
  change Host.Outcome.next (match (if (issueCtx s).timed then
      popJoins (issueCtx s).pc (issueCtx s).t (issueCtx s).st.joins else some (issueCtx s).st.joins) with
    | none => _ | some js => _) = _
  cases ht : (issueCtx s).timed
  · have ht' : (ctxAt (touchStart s s.cur)).timed = false := ht
    have hl' : legalFor lg (ctxAt (touchStart s s.cur)) = true := hl
    have hf1 : (regs.any fun r => pendingA (touchStart s s.cur) (ctxAt (touchStart s s.cur)).key r.toNat) = false := (hf ht).1
    have hf2 : (lg.acc && acquiring (touchStart s s.cur) (ctxAt (touchStart s s.cur)).key (ctxAt (touchStart s s.cur)).seq) = false := by
      rcases (hf ht).2 with h | h
      · simp [h]
      · have h' : acquiring (touchStart s s.cur) (ctxAt (touchStart s s.cur)).key (ctxAt (touchStart s s.cur)).seq = false := h
        simp [h']
    simp only [Bool.false_eq_true, if_false, ht', hl', Bool.not_true, Bool.false_and, Bool.or_self, Bool.not_false,
      Bool.true_and, hf1, hf2, touchStart_curWord]
    rfl
  · have ht' : (ctxAt (touchStart s s.cur)).timed = true := ht
    have hl' : legalFor lg (ctxAt (touchStart s s.cur)) = true := hl
    obtain ⟨js, hjs⟩ := Option.isSome_iff_exists.mp (hj ht)
    have hpast : (lg.start || !decide (s.curIdle = 0)) = true ∧ (lg.start || !decide ((ctxAt (touchStart s s.cur)).st.pos < 2)) = true := by
      rcases hp ht with h1 | ⟨h1, h2⟩
      · simp [h1]
      · have h2' : 2 ≤ (ctxAt (touchStart s s.cur)).st.pos := h2
        exact ⟨by simp [h1], by rw [decide_eq_false (by omega)]; simp⟩
    have hpast' : ((!lg.start && decide (s.curIdle = 0)) || (decide ((ctxAt (touchStart s s.cur)).st.pos < 2) && !lg.start)) = false := by
      obtain ⟨a, b⟩ := hpast
      cases hs : lg.start <;> simp_all
    rw [Bool.or_eq_false_iff] at hpast'
    simp only [if_true, hjs, ht', hl', Bool.not_true, Bool.true_and, touchStart_curIdle, hpast'.1, hpast'.2,
      Bool.or_self, Bool.false_eq_true, if_false, Bool.false_and, touchStart_curWord, Option.getD_some]
    rfl

end Sys2Proof.Machine
end

