-- ==== Sys2Proof/Laws/Memory.lean ====
section
/-! SUPPORT. Sparse maps and device memory: a read after a write, and the canonical form, which every operation that writes
memory keeps. -/

namespace Sys2Proof.Machine

variable {α : Type}

/-! ## Sparse maps -/

@[simp] theorem sget_nil (d : α) (x : Nat) : sget d [] x = d := rfl

theorem sget_sset_same (d : α) (m : SMap α) (x : Nat) (v : α) : sget d (sset m x v) x = v := by
  induction m with
  | nil => simp [sset, sget]
  | cons p m ih =>
    obtain ⟨k, w⟩ := p
    simp only [sset]
    split
    · simp [sget]
    · split
      · simp [sget]
      · rename_i h1 h2
        simp only [sget, if_neg (fun h : k = x => h2 h.symm), ih]

theorem sget_sset_other (d : α) (m : SMap α) {x y : Nat} (v : α) (h : y ≠ x) : sget d (sset m x v) y = sget d m y := by
  induction m with
  | nil => simp [sset, sget, h.symm]
  | cons p m ih =>
    obtain ⟨k, w⟩ := p
    simp only [sset]
    split
    · simp [sget, h.symm]
    · split
      · rename_i h1 h2; subst h2; simp [sget, h.symm]
      · simp only [sget, ih]

/-- A read after a write to a sparse map. -/
@[simp] theorem sget_sset (d : α) (m : SMap α) (x y : Nat) (v : α) : sget d (sset m x v) y = if y = x then v else sget d m y := by
  split
  · rename_i h; subst h; exact sget_sset_same d m y v
  · rename_i h; exact sget_sset_other d m v h

@[simp] theorem sfind_sset (m : SMap α) (x y : Nat) (v : α) : sfind (sset m x v) y = if y = x then some v else sfind m y := by
  have key : ∀ (m : SMap α), sfind m y = sget none (m.map fun p => (p.1, some p.2)) y := by
    intro m
    induction m with
    | nil => rfl
    | cons p m ih => simp [sfind, sget, ih]
  have mapset : ∀ (m : SMap α), (sset m x v).map (fun p => (p.1, some p.2)) = sset (m.map fun p => (p.1, some p.2)) x (some v) := by
    intro m
    induction m with
    | nil => rfl
    | cons p m ih =>
      obtain ⟨k, w⟩ := p
      simp only [sset, List.map_cons]
      split
      · simp
      · split <;> simp [ih]
  rw [key, key, mapset, sget_sset]

theorem sget_sdel_other {d : α} (m : SMap α) {x y : Nat} (h : y ≠ x) : sget d (sdel m x) y = sget d m y := by
  induction m with
  | nil => rfl
  | cons p m ih =>
    obtain ⟨k, w⟩ := p
    simp only [sdel]
    split
    · rename_i hk; subst hk; simp [sget, h.symm]
    · simp only [sget, ih]

/-- A filtered map reads its default where the filter drops the key. -/
theorem sget_filter {d : α} {m : SMap α} (f : Nat → Bool) (x : Nat) :
    sget d (m.filter fun p => f p.1) x = if f x then sget d m x else d := by
  induction m with
  | nil => simp [sget]
  | cons p m ih =>
    obtain ⟨k, w⟩ := p
    simp only [List.filter_cons]
    split
    · rename_i hk
      simp only [sget, ih]
      split
      · rename_i hx; subst hx; simp only [hk, if_true]
      · rfl
    · rename_i hk
      rw [ih]
      split
      · rename_i hx; rw [sget, if_neg (by rintro rfl; exact hk hx)]
      · rfl

section Canonical

variable [DecidableEq α]

/-- A higher bound is a stronger condition on the keys. -/
theorem canonFrom_weaken {d : α} {lo : Nat} {m : SMap α} (h : canonFrom d (some lo) m = true) : canonFrom d none m = true := by
  cases m with
  | nil => rfl
  | cons p m => simp_all [canonFrom]

theorem canonFrom_lower {d : α} {a b : Nat} {m : SMap α} (h : canonFrom d (some b) m = true) (hab : a ≤ b) :
    canonFrom d (some a) m = true := by
  cases m with
  | nil => rfl
  | cons p m =>
    simp only [canonFrom, Bool.and_eq_true, decide_eq_true_eq] at h ⊢
    exact ⟨⟨Nat.lt_of_le_of_lt hab h.1.1, h.1.2⟩, h.2⟩

/-- A key at or below the bound of a canonical map is not listed. -/
theorem sget_below {d : α} {lo : Nat} {m : SMap α} (h : canonFrom d (some lo) m = true) {x : Nat} (hx : x ≤ lo) : sget d m x = d := by
  induction m generalizing lo with
  | nil => rfl
  | cons p m ih =>
    obtain ⟨k, v⟩ := p
    simp only [canonFrom, Bool.and_eq_true, decide_eq_true_eq] at h
    rw [sget, if_neg (by omega)]
    exact ih h.2 (by omega)

theorem canonFrom_sset {d : α} {lo : Option Nat} {m : SMap α} {x : Nat} {v : α} (h : canonFrom d lo m = true) (hv : v ≠ d)
    (hx : ∀ l, lo = some l → l < x) : canonFrom d lo (sset m x v) = true := by
  induction m generalizing lo with
  | nil =>
    cases lo with
    | none => simp [sset, canonFrom, hv]
    | some l => simp [sset, canonFrom, hv, hx l rfl]
  | cons p m ih =>
    obtain ⟨k, w⟩ := p
    have hlo : canonFrom d lo [(x, v)] = true := by
      cases lo with
      | none => simp [canonFrom, hv]
      | some l => simp [canonFrom, hv, hx l rfl]
    simp only [canonFrom, Bool.and_true, Bool.and_eq_true] at hlo h
    simp only [sset]
    split
    · rename_i hk
      simp only [canonFrom, Bool.and_eq_true, decide_eq_true_eq]
      exact ⟨⟨hlo.1, hv⟩, ⟨hk, by simpa using h.1.2⟩, h.2⟩
    · split
      · rename_i h1 h2; subst h2
        simp only [canonFrom, Bool.and_eq_true]
        exact ⟨⟨hlo.1, by simpa using hv⟩, h.2⟩
      · rename_i h1 h2
        simp only [canonFrom, Bool.and_eq_true]
        exact ⟨h.1, ih h.2 (fun l hl => by cases hl; omega)⟩

theorem canonFrom_sdel {d : α} {lo : Option Nat} {m : SMap α} {x : Nat} (h : canonFrom d lo m = true) :
    canonFrom d lo (sdel m x) = true := by
  induction m generalizing lo with
  | nil => exact h
  | cons p m ih =>
    obtain ⟨k, w⟩ := p
    simp only [canonFrom, Bool.and_eq_true] at h
    simp only [sdel]
    split
    · cases lo with
      | none => exact canonFrom_weaken h.2
      | some l => exact canonFrom_lower h.2 (by have := h.1.1; simp at this; omega)
    · simp only [canonFrom, Bool.and_eq_true]
      exact ⟨h.1, ih h.2⟩

theorem canonFrom_filter {d : α} {lo : Option Nat} {m : SMap α} (f : Nat × α → Bool) (h : canonFrom d lo m = true) :
    canonFrom d lo (m.filter f) = true := by
  induction m generalizing lo with
  | nil => exact h
  | cons p m ih =>
    obtain ⟨k, w⟩ := p
    simp only [canonFrom, Bool.and_eq_true] at h
    simp only [List.filter_cons]
    split
    · simp only [canonFrom, Bool.and_eq_true]
      exact ⟨h.1, ih h.2⟩
    · apply ih
      cases lo with
      | none => exact canonFrom_weaken h.2
      | some l => exact canonFrom_lower h.2 (by have := h.1.1; simp at this; omega)

/-- Writing keeps the canonical form: the default's writing removes the entry. -/
theorem canon_sput {d : α} {m : SMap α} (x : Nat) (v : α) (h : canon d m = true) : canon d (sput d m x v) = true := by
  unfold sput
  split
  · exact canonFrom_sdel h
  · rename_i hv; exact canonFrom_sset h hv (fun l hl => by cases hl)

theorem canon_filter {d : α} {m : SMap α} (f : Nat × α → Bool) (h : canon d m = true) : canon d (m.filter f) = true :=
  canonFrom_filter f h

theorem sget_sdel_same {d : α} {lo : Option Nat} {m : SMap α} (x : Nat) (h : canonFrom d lo m = true) : sget d (sdel m x) x = d := by
  induction m generalizing lo with
  | nil => rfl
  | cons p m ih =>
    obtain ⟨k, w⟩ := p
    simp only [canonFrom, Bool.and_eq_true] at h
    simp only [sdel]
    split
    · rename_i hk; subst hk; exact sget_below h.2 (Nat.le_refl _)
    · rename_i hk; rw [sget, if_neg hk]; exact ih h.2

/-- A read after a write to a map in canonical form. -/
theorem sget_sput {d : α} {m : SMap α} (x y : Nat) (v : α) (h : canon d m = true) :
    sget d (sput d m x v) y = if y = x then v else sget d m y := by
  unfold sput
  split
  · rename_i hv; subst hv
    split
    · rename_i hy; subst hy; exact sget_sdel_same y h
    · rename_i hy; exact sget_sdel_other m hy
  · exact sget_sset d m x y v

end Canonical

/-! ## Device memory (R69, R81) -/

theorem memPut_wf {m : List Host.Cell} (a : Nat) (b : Byte) (h : Memory.wf m) : Memory.wf (memPut m a b) := canon_sput a b h

theorem memPuts_wf {m : List Host.Cell} (a : Nat) (bs : List Byte) (h : Memory.wf m) : Memory.wf (memPuts m a bs) := by
  induction bs generalizing m a with
  | nil => exact h
  | cons b bs ih => exact ih _ (memPut_wf a b h)

/-- A byte outside those written reads as before; the byte i of those written reads as written. -/
theorem sget_memPuts {m : List Host.Cell} (a : Nat) (bs : List Byte) (h : Memory.wf m) (x : Nat) :
    sget memDefault (memPuts m a bs) x
      = if a ≤ x ∧ x < a + bs.length then bs.getD (x - a) 0 else sget memDefault m x := by
  induction bs generalizing m a with
  | nil => simp only [memPuts, List.length_nil, Nat.add_zero]; rw [if_neg (by omega)]
  | cons b bs ih =>
    rw [memPuts, ih _ (memPut_wf a b h), memPut, sget_sput a x b h, List.length_cons]
    by_cases hx : x = a
    · subst hx
      rw [if_neg (by omega), if_pos rfl, if_pos (by omega)]
      simp
    · rw [if_neg hx]
      by_cases h1 : a + 1 ≤ x ∧ x < a + 1 + bs.length
      · rw [if_pos h1, if_pos (by omega), show x - a = (x - (a + 1)) + 1 by omega, List.getD_cons_succ]
      · rw [if_neg h1, if_neg (by omega)]

theorem memBytes_length (s : State) (a n : Nat) : (memBytes s a n).length = n := by
  induction n generalizing a with
  | zero => rfl
  | succ n ih => simp [memBytes, ih]

theorem memBytes_getD (s : State) (a n i : Nat) (h : i < n) : (memBytes s a n).getD i 0 = memByte s (a + i) := by
  induction n generalizing a i with
  | zero => omega
  | succ n ih =>
    cases i with
    | zero => rfl
    | succ i => simp only [memBytes, List.getD_cons_succ]; rw [ih (a + 1) i (by omega)]; congr 1; omega

/-- The bytes just written read as written. -/
theorem memBytes_memPuts (s : State) (a : Nat) (bs : List Byte) (h : Memory.wf s.mem) :
    memBytes { s with mem := memPuts s.mem a bs } a bs.length = bs := by
  apply List.ext_getElem (memBytes_length _ _ _)
  intro i h1 h2
  have e := memBytes_getD { s with mem := memPuts s.mem a bs } a bs.length i h2
  rw [List.getD_eq_getElem?_getD, List.getElem?_eq_getElem h1, Option.getD_some] at e
  rw [e, memByte, sget_memPuts a bs h, if_pos (by omega), Nat.add_sub_cancel_left, List.getD_eq_getElem?_getD,
    List.getElem?_eq_getElem h2, Option.getD_some]

/-! ## Operations that write memory keep its form -/

theorem reset_mem_wf : Memory.wf State.reset.mem := rfl

theorem setEntry_wf {s : State} (ctx tens tile : Nat) (e : Word) (h : Memory.wf s.mem) : Memory.wf (setEntry s ctx tens tile e).mem := by
  unfold setEntry
  split
  · exact h
  · dsimp only
    repeat' split
    all_goals first | exact h | exact memPuts_wf _ _ h

theorem zeroFill_wf {s : State} (ctx tens tile : Nat) (h : Memory.wf s.mem) : Memory.wf (zeroFill s ctx tens tile).mem := by
  unfold zeroFill
  dsimp only
  split
  · exact setEntry_wf _ _ _ _ (canon_filter _ h)
  · exact h

theorem homeWrite_wf {s : State} (ctx tens tile off : Nat) (bs : List Byte) (h : Memory.wf s.mem) :
    Memory.wf (homeWrite s ctx tens tile off bs).mem := by
  unfold homeWrite
  dsimp only
  split
  · exact h
  · exact memPuts_wf _ _ (zeroFill_wf ctx tens tile h)

theorem homeWriteNib_wf {s : State} (ctx tens tile o v : Nat) (h : Memory.wf s.mem) :
    Memory.wf (homeWriteNib s ctx tens tile o v).mem := homeWrite_wf _ _ _ _ _ h

theorem tsPut_wf {s : State} (ctx off : Nat) (bs : List Byte) (h : Memory.wf s.mem) : Memory.wf (tsPut s ctx off bs).mem := by
  unfold tsPut
  repeat' split
  all_goals first | exact h | exact memPuts_wf _ _ h

theorem copySector_wf {s : State} (src dst : Word) (k : Nat) (h : Memory.wf s.mem) : Memory.wf (copySector s src dst k).mem :=
  memPuts_wf _ _ h

theorem zeroFrame_wf {s : State} (f : Word) (h : Memory.wf s.mem) : Memory.wf (zeroFrame s f).mem := canon_filter _ h

end Sys2Proof.Machine
end

