-- ==== Sys2Proof/Laws/State.lean ====
section
/-! SUPPORT. Each field of the state under each named update: the field that the update writes, and every other one, which
it leaves. No later proof unfolds a record update. -/

namespace Sys2Proof.Machine

section
variable (s : State) (k : Nat) (c : Cell)

@[simp] theorem setCell_power : (setCell s k c).power = s.power := rfl
@[simp] theorem setCell_tick : (setCell s k c).tick = s.tick := rfl
@[simp] theorem setCell_sub : (setCell s k c).sub = s.sub := rfl
@[simp] theorem setCell_per : (setCell s k c).per = s.per := rfl
@[simp] theorem setCell_frame : (setCell s k c).frame = s.frame := rfl
@[simp] theorem setCell_pauseT : (setCell s k c).pauseT = s.pauseT := rfl
@[simp] theorem setCell_grant : (setCell s k c).grant = s.grant := rfl
@[simp] theorem setCell_armed : (setCell s k c).armed = s.armed := rfl
@[simp] theorem setCell_clk : (setCell s k c).clk = s.clk := rfl
@[simp] theorem setCell_frozenP : (setCell s k c).frozenP = s.frozenP := rfl
@[simp] theorem setCell_force : (setCell s k c).force = s.force := rfl
@[simp] theorem setCell_forceT : (setCell s k c).forceT = s.forceT := rfl
@[simp] theorem setCell_loww : (setCell s k c).loww = s.loww := rfl
@[simp] theorem setCell_capn : (setCell s k c).capn = s.capn := rfl
@[simp] theorem setCell_stretch : (setCell s k c).stretch = s.stretch := rfl
@[simp] theorem setCell_hbT : (setCell s k c).hbT = s.hbT := rfl
@[simp] theorem setCell_lvls : (setCell s k c).lvls = s.lvls := rfl
@[simp] theorem setCell_mrg : (setCell s k c).mrg = s.mrg := rfl
@[simp] theorem setCell_rails : (setCell s k c).rails = s.rails := rfl
@[simp] theorem setCell_railsT : (setCell s k c).railsT = s.railsT := rfl
@[simp] theorem setCell_sensors : (setCell s k c).sensors = s.sensors := rfl
@[simp] theorem setCell_sensT : (setCell s k c).sensT = s.sensT := rfl
@[simp] theorem setCell_ltime : (setCell s k c).ltime = s.ltime := rfl
@[simp] theorem setCell_relk : (setCell s k c).relk = s.relk := rfl
@[simp] theorem setCell_fneap : (setCell s k c).fneap = s.fneap := rfl
@[simp] theorem setCell_lowwt : (setCell s k c).lowwt = s.lowwt := rfl
@[simp] theorem setCell_mixa : (setCell s k c).mixa = s.mixa := rfl
@[simp] theorem setCell_mixb : (setCell s k c).mixb = s.mixb := rfl
@[simp] theorem setCell_mixc : (setCell s k c).mixc = s.mixc := rfl
@[simp] theorem setCell_mixd : (setCell s k c).mixd = s.mixd := rfl
@[simp] theorem setCell_failed : (setCell s k c).failed = s.failed := rfl
@[simp] theorem setCell_failedS : (setCell s k c).failedS = s.failedS := rfl
@[simp] theorem setCell_modules : (setCell s k c).modules = s.modules := rfl
@[simp] theorem setCell_retrain : (setCell s k c).retrain = s.retrain := rfl
@[simp] theorem setCell_regions : (setCell s k c).regions = s.regions := rfl
@[simp] theorem setCell_records : (setCell s k c).records = s.records := rfl
@[simp] theorem setCell_nextH : (setCell s k c).nextH = s.nextH := rfl
@[simp] theorem setCell_planes : (setCell s k c).planes = s.planes := rfl
@[simp] theorem setCell_mem : (setCell s k c).mem = s.mem := rfl
@[simp] theorem setCell_bad : (setCell s k c).bad = s.bad := rfl
@[simp] theorem setCell_tens : (setCell s k c).tens = s.tens := rfl
@[simp] theorem setCell_tt : (setCell s k c).tt = s.tt := rfl
@[simp] theorem setCell_owners : (setCell s k c).owners = s.owners := rfl
@[simp] theorem setCell_fwds : (setCell s k c).fwds = s.fwds := rfl
@[simp] theorem setCell_migs : (setCell s k c).migs = s.migs := rfl
@[simp] theorem setCell_reqs : (setCell s k c).reqs = s.reqs := rfl
@[simp] theorem setCell_ops : (setCell s k c).ops = s.ops := rfl
@[simp] theorem setCell_ptc : (setCell s k c).ptc = s.ptc := rfl
@[simp] theorem setCell_rfbuf : (setCell s k c).rfbuf = s.rfbuf := rfl
@[simp] theorem setCell_rfwaitq : (setCell s k c).rfwaitq = s.rfwaitq := rfl
@[simp] theorem setCell_rfgen : (setCell s k c).rfgen = s.rfgen := rfl
@[simp] theorem setCell_role : (setCell s k c).role = s.role := rfl
@[simp] theorem setCell_srst : (setCell s k c).srst = s.srst := rfl
@[simp] theorem setCell_gates : (setCell s k c).gates = s.gates := rfl
@[simp] theorem setCell_hot : (setCell s k c).hot = s.hot := rfl
@[simp] theorem setCell_hbt : (setCell s k c).hbt = s.hbt := rfl
@[simp] theorem setCell_slack0 : (setCell s k c).slack0 = s.slack0 := rfl
@[simp] theorem setCell_pregs : (setCell s k c).pregs = s.pregs := rfl
@[simp] theorem setCell_conns : (setCell s k c).conns = s.conns := rfl
@[simp] theorem setCell_ids : (setCell s k c).ids = s.ids := rfl
@[simp] theorem setCell_queues : (setCell s k c).queues = s.queues := rfl
@[simp] theorem setCell_ctxs : (setCell s k c).ctxs = s.ctxs := rfl
@[simp] theorem setCell_cache : (setCell s k c).cache = s.cache := rfl
@[simp] theorem setCell_peers : (setCell s k c).peers = s.peers := rfl
@[simp] theorem setCell_pinq : (setCell s k c).pinq = s.pinq := rfl
@[simp] theorem setCell_held : (setCell s k c).held = s.held := rfl
@[simp] theorem setCell_rxhold : (setCell s k c).rxhold = s.rxhold := rfl
@[simp] theorem setCell_cores : (setCell s k c).cores = s.cores := rfl
@[simp] theorem setCell_lhans : (setCell s k c).lhans = s.lhans := rfl
@[simp] theorem setCell_devq : (setCell s k c).devq = s.devq := rfl
@[simp] theorem setCell_meas : (setCell s k c).meas = s.meas := rfl
@[simp] theorem setCell_boot : (setCell s k c).boot = s.boot := rfl
@[simp] theorem setCell_recovery : (setCell s k c).recovery = s.recovery := rfl
@[simp] theorem setCell_bslots : (setCell s k c).bslots = s.bslots := rfl
@[simp] theorem setCell_pref : (setCell s k c).pref = s.pref := rfl
@[simp] theorem setCell_flist : (setCell s k c).flist = s.flist := rfl
@[simp] theorem setCell_ftag : (setCell s k c).ftag = s.ftag := rfl
@[simp] theorem setCell_watchT : (setCell s k c).watchT = s.watchT := rfl
@[simp] theorem setCell_fresh : (setCell s k c).fresh = s.fresh := rfl
@[simp] theorem setCell_rstT : (setCell s k c).rstT = s.rstT := rfl
@[simp] theorem setCell_ebbDue : (setCell s k c).ebbDue = s.ebbDue := rfl
@[simp] theorem setCell_ebbRun : (setCell s k c).ebbRun = s.ebbRun := rfl
@[simp] theorem setCell_ebbT : (setCell s k c).ebbT = s.ebbT := rfl
@[simp] theorem setCell_inputs : (setCell s k c).inputs = s.inputs := rfl
@[simp] theorem setCell_pauses : (setCell s k c).pauses = s.pauses := rfl
@[simp] theorem setCell_looks : (setCell s k c).looks = s.looks := rfl
@[simp] theorem setCell_fecs : (setCell s k c).fecs = s.fecs := rfl
@[simp] theorem setCell_rom : (setCell s k c).rom = s.rom := rfl
@[simp] theorem setCell_cmds : (setCell s k c).cmds = s.cmds := rfl
@[simp] theorem setCell_cur : (setCell s k c).cur = s.cur := rfl
@[simp] theorem setCell_curSeq : (setCell s k c).curSeq = s.curSeq := rfl
@[simp] theorem setCell_curIdle : (setCell s k c).curIdle = s.curIdle := rfl
@[simp] theorem setCell_curWord : (setCell s k c).curWord = s.curWord := rfl
@[simp] theorem setCell_nextId : (setCell s k c).nextId = s.nextId := rfl
@[simp] theorem setCell_freeCtr : (setCell s k c).freeCtr = s.freeCtr := rfl
@[simp] theorem setCell_outputs : (setCell s k c).outputs = s.outputs := rfl

end

section
variable (s : State) (h : Nat) (r : Region)

@[simp] theorem setReg_power : (setReg s h r).power = s.power := rfl
@[simp] theorem setReg_tick : (setReg s h r).tick = s.tick := rfl
@[simp] theorem setReg_sub : (setReg s h r).sub = s.sub := rfl
@[simp] theorem setReg_per : (setReg s h r).per = s.per := rfl
@[simp] theorem setReg_frame : (setReg s h r).frame = s.frame := rfl
@[simp] theorem setReg_pauseT : (setReg s h r).pauseT = s.pauseT := rfl
@[simp] theorem setReg_grant : (setReg s h r).grant = s.grant := rfl
@[simp] theorem setReg_armed : (setReg s h r).armed = s.armed := rfl
@[simp] theorem setReg_clk : (setReg s h r).clk = s.clk := rfl
@[simp] theorem setReg_frozenP : (setReg s h r).frozenP = s.frozenP := rfl
@[simp] theorem setReg_force : (setReg s h r).force = s.force := rfl
@[simp] theorem setReg_forceT : (setReg s h r).forceT = s.forceT := rfl
@[simp] theorem setReg_loww : (setReg s h r).loww = s.loww := rfl
@[simp] theorem setReg_capn : (setReg s h r).capn = s.capn := rfl
@[simp] theorem setReg_stretch : (setReg s h r).stretch = s.stretch := rfl
@[simp] theorem setReg_hbT : (setReg s h r).hbT = s.hbT := rfl
@[simp] theorem setReg_lvls : (setReg s h r).lvls = s.lvls := rfl
@[simp] theorem setReg_mrg : (setReg s h r).mrg = s.mrg := rfl
@[simp] theorem setReg_rails : (setReg s h r).rails = s.rails := rfl
@[simp] theorem setReg_railsT : (setReg s h r).railsT = s.railsT := rfl
@[simp] theorem setReg_sensors : (setReg s h r).sensors = s.sensors := rfl
@[simp] theorem setReg_sensT : (setReg s h r).sensT = s.sensT := rfl
@[simp] theorem setReg_ltime : (setReg s h r).ltime = s.ltime := rfl
@[simp] theorem setReg_relk : (setReg s h r).relk = s.relk := rfl
@[simp] theorem setReg_fneap : (setReg s h r).fneap = s.fneap := rfl
@[simp] theorem setReg_lowwt : (setReg s h r).lowwt = s.lowwt := rfl
@[simp] theorem setReg_mixa : (setReg s h r).mixa = s.mixa := rfl
@[simp] theorem setReg_mixb : (setReg s h r).mixb = s.mixb := rfl
@[simp] theorem setReg_mixc : (setReg s h r).mixc = s.mixc := rfl
@[simp] theorem setReg_mixd : (setReg s h r).mixd = s.mixd := rfl
@[simp] theorem setReg_failed : (setReg s h r).failed = s.failed := rfl
@[simp] theorem setReg_failedS : (setReg s h r).failedS = s.failedS := rfl
@[simp] theorem setReg_modules : (setReg s h r).modules = s.modules := rfl
@[simp] theorem setReg_retrain : (setReg s h r).retrain = s.retrain := rfl
@[simp] theorem setReg_cells : (setReg s h r).cells = s.cells := rfl
@[simp] theorem setReg_records : (setReg s h r).records = s.records := rfl
@[simp] theorem setReg_nextH : (setReg s h r).nextH = s.nextH := rfl
@[simp] theorem setReg_planes : (setReg s h r).planes = s.planes := rfl
@[simp] theorem setReg_mem : (setReg s h r).mem = s.mem := rfl
@[simp] theorem setReg_bad : (setReg s h r).bad = s.bad := rfl
@[simp] theorem setReg_tens : (setReg s h r).tens = s.tens := rfl
@[simp] theorem setReg_tt : (setReg s h r).tt = s.tt := rfl
@[simp] theorem setReg_owners : (setReg s h r).owners = s.owners := rfl
@[simp] theorem setReg_fwds : (setReg s h r).fwds = s.fwds := rfl
@[simp] theorem setReg_migs : (setReg s h r).migs = s.migs := rfl
@[simp] theorem setReg_reqs : (setReg s h r).reqs = s.reqs := rfl
@[simp] theorem setReg_ops : (setReg s h r).ops = s.ops := rfl
@[simp] theorem setReg_ptc : (setReg s h r).ptc = s.ptc := rfl
@[simp] theorem setReg_rfbuf : (setReg s h r).rfbuf = s.rfbuf := rfl
@[simp] theorem setReg_rfwaitq : (setReg s h r).rfwaitq = s.rfwaitq := rfl
@[simp] theorem setReg_rfgen : (setReg s h r).rfgen = s.rfgen := rfl
@[simp] theorem setReg_role : (setReg s h r).role = s.role := rfl
@[simp] theorem setReg_srst : (setReg s h r).srst = s.srst := rfl
@[simp] theorem setReg_gates : (setReg s h r).gates = s.gates := rfl
@[simp] theorem setReg_hot : (setReg s h r).hot = s.hot := rfl
@[simp] theorem setReg_hbt : (setReg s h r).hbt = s.hbt := rfl
@[simp] theorem setReg_slack0 : (setReg s h r).slack0 = s.slack0 := rfl
@[simp] theorem setReg_pregs : (setReg s h r).pregs = s.pregs := rfl
@[simp] theorem setReg_conns : (setReg s h r).conns = s.conns := rfl
@[simp] theorem setReg_ids : (setReg s h r).ids = s.ids := rfl
@[simp] theorem setReg_queues : (setReg s h r).queues = s.queues := rfl
@[simp] theorem setReg_ctxs : (setReg s h r).ctxs = s.ctxs := rfl
@[simp] theorem setReg_cache : (setReg s h r).cache = s.cache := rfl
@[simp] theorem setReg_peers : (setReg s h r).peers = s.peers := rfl
@[simp] theorem setReg_pinq : (setReg s h r).pinq = s.pinq := rfl
@[simp] theorem setReg_held : (setReg s h r).held = s.held := rfl
@[simp] theorem setReg_rxhold : (setReg s h r).rxhold = s.rxhold := rfl
@[simp] theorem setReg_cores : (setReg s h r).cores = s.cores := rfl
@[simp] theorem setReg_lhans : (setReg s h r).lhans = s.lhans := rfl
@[simp] theorem setReg_devq : (setReg s h r).devq = s.devq := rfl
@[simp] theorem setReg_meas : (setReg s h r).meas = s.meas := rfl
@[simp] theorem setReg_boot : (setReg s h r).boot = s.boot := rfl
@[simp] theorem setReg_recovery : (setReg s h r).recovery = s.recovery := rfl
@[simp] theorem setReg_bslots : (setReg s h r).bslots = s.bslots := rfl
@[simp] theorem setReg_pref : (setReg s h r).pref = s.pref := rfl
@[simp] theorem setReg_flist : (setReg s h r).flist = s.flist := rfl
@[simp] theorem setReg_ftag : (setReg s h r).ftag = s.ftag := rfl
@[simp] theorem setReg_watchT : (setReg s h r).watchT = s.watchT := rfl
@[simp] theorem setReg_fresh : (setReg s h r).fresh = s.fresh := rfl
@[simp] theorem setReg_rstT : (setReg s h r).rstT = s.rstT := rfl
@[simp] theorem setReg_ebbDue : (setReg s h r).ebbDue = s.ebbDue := rfl
@[simp] theorem setReg_ebbRun : (setReg s h r).ebbRun = s.ebbRun := rfl
@[simp] theorem setReg_ebbT : (setReg s h r).ebbT = s.ebbT := rfl
@[simp] theorem setReg_inputs : (setReg s h r).inputs = s.inputs := rfl
@[simp] theorem setReg_pauses : (setReg s h r).pauses = s.pauses := rfl
@[simp] theorem setReg_looks : (setReg s h r).looks = s.looks := rfl
@[simp] theorem setReg_fecs : (setReg s h r).fecs = s.fecs := rfl
@[simp] theorem setReg_rom : (setReg s h r).rom = s.rom := rfl
@[simp] theorem setReg_cmds : (setReg s h r).cmds = s.cmds := rfl
@[simp] theorem setReg_cur : (setReg s h r).cur = s.cur := rfl
@[simp] theorem setReg_curSeq : (setReg s h r).curSeq = s.curSeq := rfl
@[simp] theorem setReg_curIdle : (setReg s h r).curIdle = s.curIdle := rfl
@[simp] theorem setReg_curWord : (setReg s h r).curWord = s.curWord := rfl
@[simp] theorem setReg_nextId : (setReg s h r).nextId = s.nextId := rfl
@[simp] theorem setReg_freeCtr : (setReg s h r).freeCtr = s.freeCtr := rfl
@[simp] theorem setReg_outputs : (setReg s h r).outputs = s.outputs := rfl

end

section
variable (s : State) (n : Nat) (c : Core)

@[simp] theorem setCore_power : (setCore s n c).power = s.power := rfl
@[simp] theorem setCore_tick : (setCore s n c).tick = s.tick := rfl
@[simp] theorem setCore_sub : (setCore s n c).sub = s.sub := rfl
@[simp] theorem setCore_per : (setCore s n c).per = s.per := rfl
@[simp] theorem setCore_frame : (setCore s n c).frame = s.frame := rfl
@[simp] theorem setCore_pauseT : (setCore s n c).pauseT = s.pauseT := rfl
@[simp] theorem setCore_grant : (setCore s n c).grant = s.grant := rfl
@[simp] theorem setCore_armed : (setCore s n c).armed = s.armed := rfl
@[simp] theorem setCore_clk : (setCore s n c).clk = s.clk := rfl
@[simp] theorem setCore_frozenP : (setCore s n c).frozenP = s.frozenP := rfl
@[simp] theorem setCore_force : (setCore s n c).force = s.force := rfl
@[simp] theorem setCore_forceT : (setCore s n c).forceT = s.forceT := rfl
@[simp] theorem setCore_loww : (setCore s n c).loww = s.loww := rfl
@[simp] theorem setCore_capn : (setCore s n c).capn = s.capn := rfl
@[simp] theorem setCore_stretch : (setCore s n c).stretch = s.stretch := rfl
@[simp] theorem setCore_hbT : (setCore s n c).hbT = s.hbT := rfl
@[simp] theorem setCore_lvls : (setCore s n c).lvls = s.lvls := rfl
@[simp] theorem setCore_mrg : (setCore s n c).mrg = s.mrg := rfl
@[simp] theorem setCore_rails : (setCore s n c).rails = s.rails := rfl
@[simp] theorem setCore_railsT : (setCore s n c).railsT = s.railsT := rfl
@[simp] theorem setCore_sensors : (setCore s n c).sensors = s.sensors := rfl
@[simp] theorem setCore_sensT : (setCore s n c).sensT = s.sensT := rfl
@[simp] theorem setCore_ltime : (setCore s n c).ltime = s.ltime := rfl
@[simp] theorem setCore_relk : (setCore s n c).relk = s.relk := rfl
@[simp] theorem setCore_fneap : (setCore s n c).fneap = s.fneap := rfl
@[simp] theorem setCore_lowwt : (setCore s n c).lowwt = s.lowwt := rfl
@[simp] theorem setCore_mixa : (setCore s n c).mixa = s.mixa := rfl
@[simp] theorem setCore_mixb : (setCore s n c).mixb = s.mixb := rfl
@[simp] theorem setCore_mixc : (setCore s n c).mixc = s.mixc := rfl
@[simp] theorem setCore_mixd : (setCore s n c).mixd = s.mixd := rfl
@[simp] theorem setCore_failed : (setCore s n c).failed = s.failed := rfl
@[simp] theorem setCore_failedS : (setCore s n c).failedS = s.failedS := rfl
@[simp] theorem setCore_modules : (setCore s n c).modules = s.modules := rfl
@[simp] theorem setCore_retrain : (setCore s n c).retrain = s.retrain := rfl
@[simp] theorem setCore_cells : (setCore s n c).cells = s.cells := rfl
@[simp] theorem setCore_regions : (setCore s n c).regions = s.regions := rfl
@[simp] theorem setCore_records : (setCore s n c).records = s.records := rfl
@[simp] theorem setCore_nextH : (setCore s n c).nextH = s.nextH := rfl
@[simp] theorem setCore_planes : (setCore s n c).planes = s.planes := rfl
@[simp] theorem setCore_mem : (setCore s n c).mem = s.mem := rfl
@[simp] theorem setCore_bad : (setCore s n c).bad = s.bad := rfl
@[simp] theorem setCore_tens : (setCore s n c).tens = s.tens := rfl
@[simp] theorem setCore_tt : (setCore s n c).tt = s.tt := rfl
@[simp] theorem setCore_owners : (setCore s n c).owners = s.owners := rfl
@[simp] theorem setCore_fwds : (setCore s n c).fwds = s.fwds := rfl
@[simp] theorem setCore_migs : (setCore s n c).migs = s.migs := rfl
@[simp] theorem setCore_reqs : (setCore s n c).reqs = s.reqs := rfl
@[simp] theorem setCore_ops : (setCore s n c).ops = s.ops := rfl
@[simp] theorem setCore_ptc : (setCore s n c).ptc = s.ptc := rfl
@[simp] theorem setCore_rfbuf : (setCore s n c).rfbuf = s.rfbuf := rfl
@[simp] theorem setCore_rfwaitq : (setCore s n c).rfwaitq = s.rfwaitq := rfl
@[simp] theorem setCore_rfgen : (setCore s n c).rfgen = s.rfgen := rfl
@[simp] theorem setCore_role : (setCore s n c).role = s.role := rfl
@[simp] theorem setCore_srst : (setCore s n c).srst = s.srst := rfl
@[simp] theorem setCore_gates : (setCore s n c).gates = s.gates := rfl
@[simp] theorem setCore_hot : (setCore s n c).hot = s.hot := rfl
@[simp] theorem setCore_hbt : (setCore s n c).hbt = s.hbt := rfl
@[simp] theorem setCore_slack0 : (setCore s n c).slack0 = s.slack0 := rfl
@[simp] theorem setCore_pregs : (setCore s n c).pregs = s.pregs := rfl
@[simp] theorem setCore_conns : (setCore s n c).conns = s.conns := rfl
@[simp] theorem setCore_ids : (setCore s n c).ids = s.ids := rfl
@[simp] theorem setCore_queues : (setCore s n c).queues = s.queues := rfl
@[simp] theorem setCore_ctxs : (setCore s n c).ctxs = s.ctxs := rfl
@[simp] theorem setCore_cache : (setCore s n c).cache = s.cache := rfl
@[simp] theorem setCore_peers : (setCore s n c).peers = s.peers := rfl
@[simp] theorem setCore_pinq : (setCore s n c).pinq = s.pinq := rfl
@[simp] theorem setCore_held : (setCore s n c).held = s.held := rfl
@[simp] theorem setCore_rxhold : (setCore s n c).rxhold = s.rxhold := rfl
@[simp] theorem setCore_lhans : (setCore s n c).lhans = s.lhans := rfl
@[simp] theorem setCore_devq : (setCore s n c).devq = s.devq := rfl
@[simp] theorem setCore_meas : (setCore s n c).meas = s.meas := rfl
@[simp] theorem setCore_boot : (setCore s n c).boot = s.boot := rfl
@[simp] theorem setCore_recovery : (setCore s n c).recovery = s.recovery := rfl
@[simp] theorem setCore_bslots : (setCore s n c).bslots = s.bslots := rfl
@[simp] theorem setCore_pref : (setCore s n c).pref = s.pref := rfl
@[simp] theorem setCore_flist : (setCore s n c).flist = s.flist := rfl
@[simp] theorem setCore_ftag : (setCore s n c).ftag = s.ftag := rfl
@[simp] theorem setCore_watchT : (setCore s n c).watchT = s.watchT := rfl
@[simp] theorem setCore_fresh : (setCore s n c).fresh = s.fresh := rfl
@[simp] theorem setCore_rstT : (setCore s n c).rstT = s.rstT := rfl
@[simp] theorem setCore_ebbDue : (setCore s n c).ebbDue = s.ebbDue := rfl
@[simp] theorem setCore_ebbRun : (setCore s n c).ebbRun = s.ebbRun := rfl
@[simp] theorem setCore_ebbT : (setCore s n c).ebbT = s.ebbT := rfl
@[simp] theorem setCore_inputs : (setCore s n c).inputs = s.inputs := rfl
@[simp] theorem setCore_pauses : (setCore s n c).pauses = s.pauses := rfl
@[simp] theorem setCore_looks : (setCore s n c).looks = s.looks := rfl
@[simp] theorem setCore_fecs : (setCore s n c).fecs = s.fecs := rfl
@[simp] theorem setCore_rom : (setCore s n c).rom = s.rom := rfl
@[simp] theorem setCore_cmds : (setCore s n c).cmds = s.cmds := rfl
@[simp] theorem setCore_cur : (setCore s n c).cur = s.cur := rfl
@[simp] theorem setCore_curSeq : (setCore s n c).curSeq = s.curSeq := rfl
@[simp] theorem setCore_curIdle : (setCore s n c).curIdle = s.curIdle := rfl
@[simp] theorem setCore_curWord : (setCore s n c).curWord = s.curWord := rfl
@[simp] theorem setCore_nextId : (setCore s n c).nextId = s.nextId := rfl
@[simp] theorem setCore_freeCtr : (setCore s n c).freeCtr = s.freeCtr := rfl
@[simp] theorem setCore_outputs : (setCore s n c).outputs = s.outputs := rfl

end

section
variable (s : State) (i n : Nat) (v : Word)

@[simp] theorem setPreg_power : (setPreg s i n v).power = s.power := rfl
@[simp] theorem setPreg_tick : (setPreg s i n v).tick = s.tick := rfl
@[simp] theorem setPreg_sub : (setPreg s i n v).sub = s.sub := rfl
@[simp] theorem setPreg_per : (setPreg s i n v).per = s.per := rfl
@[simp] theorem setPreg_frame : (setPreg s i n v).frame = s.frame := rfl
@[simp] theorem setPreg_pauseT : (setPreg s i n v).pauseT = s.pauseT := rfl
@[simp] theorem setPreg_grant : (setPreg s i n v).grant = s.grant := rfl
@[simp] theorem setPreg_armed : (setPreg s i n v).armed = s.armed := rfl
@[simp] theorem setPreg_clk : (setPreg s i n v).clk = s.clk := rfl
@[simp] theorem setPreg_frozenP : (setPreg s i n v).frozenP = s.frozenP := rfl
@[simp] theorem setPreg_force : (setPreg s i n v).force = s.force := rfl
@[simp] theorem setPreg_forceT : (setPreg s i n v).forceT = s.forceT := rfl
@[simp] theorem setPreg_loww : (setPreg s i n v).loww = s.loww := rfl
@[simp] theorem setPreg_capn : (setPreg s i n v).capn = s.capn := rfl
@[simp] theorem setPreg_stretch : (setPreg s i n v).stretch = s.stretch := rfl
@[simp] theorem setPreg_hbT : (setPreg s i n v).hbT = s.hbT := rfl
@[simp] theorem setPreg_lvls : (setPreg s i n v).lvls = s.lvls := rfl
@[simp] theorem setPreg_mrg : (setPreg s i n v).mrg = s.mrg := rfl
@[simp] theorem setPreg_rails : (setPreg s i n v).rails = s.rails := rfl
@[simp] theorem setPreg_railsT : (setPreg s i n v).railsT = s.railsT := rfl
@[simp] theorem setPreg_sensors : (setPreg s i n v).sensors = s.sensors := rfl
@[simp] theorem setPreg_sensT : (setPreg s i n v).sensT = s.sensT := rfl
@[simp] theorem setPreg_ltime : (setPreg s i n v).ltime = s.ltime := rfl
@[simp] theorem setPreg_relk : (setPreg s i n v).relk = s.relk := rfl
@[simp] theorem setPreg_fneap : (setPreg s i n v).fneap = s.fneap := rfl
@[simp] theorem setPreg_lowwt : (setPreg s i n v).lowwt = s.lowwt := rfl
@[simp] theorem setPreg_mixa : (setPreg s i n v).mixa = s.mixa := rfl
@[simp] theorem setPreg_mixb : (setPreg s i n v).mixb = s.mixb := rfl
@[simp] theorem setPreg_mixc : (setPreg s i n v).mixc = s.mixc := rfl
@[simp] theorem setPreg_mixd : (setPreg s i n v).mixd = s.mixd := rfl
@[simp] theorem setPreg_failed : (setPreg s i n v).failed = s.failed := rfl
@[simp] theorem setPreg_failedS : (setPreg s i n v).failedS = s.failedS := rfl
@[simp] theorem setPreg_modules : (setPreg s i n v).modules = s.modules := rfl
@[simp] theorem setPreg_retrain : (setPreg s i n v).retrain = s.retrain := rfl
@[simp] theorem setPreg_cells : (setPreg s i n v).cells = s.cells := rfl
@[simp] theorem setPreg_regions : (setPreg s i n v).regions = s.regions := rfl
@[simp] theorem setPreg_records : (setPreg s i n v).records = s.records := rfl
@[simp] theorem setPreg_nextH : (setPreg s i n v).nextH = s.nextH := rfl
@[simp] theorem setPreg_planes : (setPreg s i n v).planes = s.planes := rfl
@[simp] theorem setPreg_mem : (setPreg s i n v).mem = s.mem := rfl
@[simp] theorem setPreg_bad : (setPreg s i n v).bad = s.bad := rfl
@[simp] theorem setPreg_tens : (setPreg s i n v).tens = s.tens := rfl
@[simp] theorem setPreg_tt : (setPreg s i n v).tt = s.tt := rfl
@[simp] theorem setPreg_owners : (setPreg s i n v).owners = s.owners := rfl
@[simp] theorem setPreg_fwds : (setPreg s i n v).fwds = s.fwds := rfl
@[simp] theorem setPreg_migs : (setPreg s i n v).migs = s.migs := rfl
@[simp] theorem setPreg_reqs : (setPreg s i n v).reqs = s.reqs := rfl
@[simp] theorem setPreg_ops : (setPreg s i n v).ops = s.ops := rfl
@[simp] theorem setPreg_ptc : (setPreg s i n v).ptc = s.ptc := rfl
@[simp] theorem setPreg_rfbuf : (setPreg s i n v).rfbuf = s.rfbuf := rfl
@[simp] theorem setPreg_rfwaitq : (setPreg s i n v).rfwaitq = s.rfwaitq := rfl
@[simp] theorem setPreg_rfgen : (setPreg s i n v).rfgen = s.rfgen := rfl
@[simp] theorem setPreg_role : (setPreg s i n v).role = s.role := rfl
@[simp] theorem setPreg_srst : (setPreg s i n v).srst = s.srst := rfl
@[simp] theorem setPreg_gates : (setPreg s i n v).gates = s.gates := rfl
@[simp] theorem setPreg_hot : (setPreg s i n v).hot = s.hot := rfl
@[simp] theorem setPreg_hbt : (setPreg s i n v).hbt = s.hbt := rfl
@[simp] theorem setPreg_slack0 : (setPreg s i n v).slack0 = s.slack0 := rfl
@[simp] theorem setPreg_conns : (setPreg s i n v).conns = s.conns := rfl
@[simp] theorem setPreg_ids : (setPreg s i n v).ids = s.ids := rfl
@[simp] theorem setPreg_queues : (setPreg s i n v).queues = s.queues := rfl
@[simp] theorem setPreg_ctxs : (setPreg s i n v).ctxs = s.ctxs := rfl
@[simp] theorem setPreg_cache : (setPreg s i n v).cache = s.cache := rfl
@[simp] theorem setPreg_peers : (setPreg s i n v).peers = s.peers := rfl
@[simp] theorem setPreg_pinq : (setPreg s i n v).pinq = s.pinq := rfl
@[simp] theorem setPreg_held : (setPreg s i n v).held = s.held := rfl
@[simp] theorem setPreg_rxhold : (setPreg s i n v).rxhold = s.rxhold := rfl
@[simp] theorem setPreg_cores : (setPreg s i n v).cores = s.cores := rfl
@[simp] theorem setPreg_lhans : (setPreg s i n v).lhans = s.lhans := rfl
@[simp] theorem setPreg_devq : (setPreg s i n v).devq = s.devq := rfl
@[simp] theorem setPreg_meas : (setPreg s i n v).meas = s.meas := rfl
@[simp] theorem setPreg_boot : (setPreg s i n v).boot = s.boot := rfl
@[simp] theorem setPreg_recovery : (setPreg s i n v).recovery = s.recovery := rfl
@[simp] theorem setPreg_bslots : (setPreg s i n v).bslots = s.bslots := rfl
@[simp] theorem setPreg_pref : (setPreg s i n v).pref = s.pref := rfl
@[simp] theorem setPreg_flist : (setPreg s i n v).flist = s.flist := rfl
@[simp] theorem setPreg_ftag : (setPreg s i n v).ftag = s.ftag := rfl
@[simp] theorem setPreg_watchT : (setPreg s i n v).watchT = s.watchT := rfl
@[simp] theorem setPreg_fresh : (setPreg s i n v).fresh = s.fresh := rfl
@[simp] theorem setPreg_rstT : (setPreg s i n v).rstT = s.rstT := rfl
@[simp] theorem setPreg_ebbDue : (setPreg s i n v).ebbDue = s.ebbDue := rfl
@[simp] theorem setPreg_ebbRun : (setPreg s i n v).ebbRun = s.ebbRun := rfl
@[simp] theorem setPreg_ebbT : (setPreg s i n v).ebbT = s.ebbT := rfl
@[simp] theorem setPreg_inputs : (setPreg s i n v).inputs = s.inputs := rfl
@[simp] theorem setPreg_pauses : (setPreg s i n v).pauses = s.pauses := rfl
@[simp] theorem setPreg_looks : (setPreg s i n v).looks = s.looks := rfl
@[simp] theorem setPreg_fecs : (setPreg s i n v).fecs = s.fecs := rfl
@[simp] theorem setPreg_rom : (setPreg s i n v).rom = s.rom := rfl
@[simp] theorem setPreg_cmds : (setPreg s i n v).cmds = s.cmds := rfl
@[simp] theorem setPreg_cur : (setPreg s i n v).cur = s.cur := rfl
@[simp] theorem setPreg_curSeq : (setPreg s i n v).curSeq = s.curSeq := rfl
@[simp] theorem setPreg_curIdle : (setPreg s i n v).curIdle = s.curIdle := rfl
@[simp] theorem setPreg_curWord : (setPreg s i n v).curWord = s.curWord := rfl
@[simp] theorem setPreg_nextId : (setPreg s i n v).nextId = s.nextId := rfl
@[simp] theorem setPreg_freeCtr : (setPreg s i n v).freeCtr = s.freeCtr := rfl
@[simp] theorem setPreg_outputs : (setPreg s i n v).outputs = s.outputs := rfl

end

section
variable (s : State) (n : Nat) (c : Conn)

@[simp] theorem setConn_power : (setConn s n c).power = s.power := rfl
@[simp] theorem setConn_tick : (setConn s n c).tick = s.tick := rfl
@[simp] theorem setConn_sub : (setConn s n c).sub = s.sub := rfl
@[simp] theorem setConn_per : (setConn s n c).per = s.per := rfl
@[simp] theorem setConn_frame : (setConn s n c).frame = s.frame := rfl
@[simp] theorem setConn_pauseT : (setConn s n c).pauseT = s.pauseT := rfl
@[simp] theorem setConn_grant : (setConn s n c).grant = s.grant := rfl
@[simp] theorem setConn_armed : (setConn s n c).armed = s.armed := rfl
@[simp] theorem setConn_clk : (setConn s n c).clk = s.clk := rfl
@[simp] theorem setConn_frozenP : (setConn s n c).frozenP = s.frozenP := rfl
@[simp] theorem setConn_force : (setConn s n c).force = s.force := rfl
@[simp] theorem setConn_forceT : (setConn s n c).forceT = s.forceT := rfl
@[simp] theorem setConn_loww : (setConn s n c).loww = s.loww := rfl
@[simp] theorem setConn_capn : (setConn s n c).capn = s.capn := rfl
@[simp] theorem setConn_stretch : (setConn s n c).stretch = s.stretch := rfl
@[simp] theorem setConn_hbT : (setConn s n c).hbT = s.hbT := rfl
@[simp] theorem setConn_lvls : (setConn s n c).lvls = s.lvls := rfl
@[simp] theorem setConn_mrg : (setConn s n c).mrg = s.mrg := rfl
@[simp] theorem setConn_rails : (setConn s n c).rails = s.rails := rfl
@[simp] theorem setConn_railsT : (setConn s n c).railsT = s.railsT := rfl
@[simp] theorem setConn_sensors : (setConn s n c).sensors = s.sensors := rfl
@[simp] theorem setConn_sensT : (setConn s n c).sensT = s.sensT := rfl
@[simp] theorem setConn_ltime : (setConn s n c).ltime = s.ltime := rfl
@[simp] theorem setConn_relk : (setConn s n c).relk = s.relk := rfl
@[simp] theorem setConn_fneap : (setConn s n c).fneap = s.fneap := rfl
@[simp] theorem setConn_lowwt : (setConn s n c).lowwt = s.lowwt := rfl
@[simp] theorem setConn_mixa : (setConn s n c).mixa = s.mixa := rfl
@[simp] theorem setConn_mixb : (setConn s n c).mixb = s.mixb := rfl
@[simp] theorem setConn_mixc : (setConn s n c).mixc = s.mixc := rfl
@[simp] theorem setConn_mixd : (setConn s n c).mixd = s.mixd := rfl
@[simp] theorem setConn_failed : (setConn s n c).failed = s.failed := rfl
@[simp] theorem setConn_failedS : (setConn s n c).failedS = s.failedS := rfl
@[simp] theorem setConn_modules : (setConn s n c).modules = s.modules := rfl
@[simp] theorem setConn_retrain : (setConn s n c).retrain = s.retrain := rfl
@[simp] theorem setConn_cells : (setConn s n c).cells = s.cells := rfl
@[simp] theorem setConn_regions : (setConn s n c).regions = s.regions := rfl
@[simp] theorem setConn_records : (setConn s n c).records = s.records := rfl
@[simp] theorem setConn_nextH : (setConn s n c).nextH = s.nextH := rfl
@[simp] theorem setConn_planes : (setConn s n c).planes = s.planes := rfl
@[simp] theorem setConn_mem : (setConn s n c).mem = s.mem := rfl
@[simp] theorem setConn_bad : (setConn s n c).bad = s.bad := rfl
@[simp] theorem setConn_tens : (setConn s n c).tens = s.tens := rfl
@[simp] theorem setConn_tt : (setConn s n c).tt = s.tt := rfl
@[simp] theorem setConn_owners : (setConn s n c).owners = s.owners := rfl
@[simp] theorem setConn_fwds : (setConn s n c).fwds = s.fwds := rfl
@[simp] theorem setConn_migs : (setConn s n c).migs = s.migs := rfl
@[simp] theorem setConn_reqs : (setConn s n c).reqs = s.reqs := rfl
@[simp] theorem setConn_ops : (setConn s n c).ops = s.ops := rfl
@[simp] theorem setConn_ptc : (setConn s n c).ptc = s.ptc := rfl
@[simp] theorem setConn_rfbuf : (setConn s n c).rfbuf = s.rfbuf := rfl
@[simp] theorem setConn_rfwaitq : (setConn s n c).rfwaitq = s.rfwaitq := rfl
@[simp] theorem setConn_rfgen : (setConn s n c).rfgen = s.rfgen := rfl
@[simp] theorem setConn_role : (setConn s n c).role = s.role := rfl
@[simp] theorem setConn_srst : (setConn s n c).srst = s.srst := rfl
@[simp] theorem setConn_gates : (setConn s n c).gates = s.gates := rfl
@[simp] theorem setConn_hot : (setConn s n c).hot = s.hot := rfl
@[simp] theorem setConn_hbt : (setConn s n c).hbt = s.hbt := rfl
@[simp] theorem setConn_slack0 : (setConn s n c).slack0 = s.slack0 := rfl
@[simp] theorem setConn_pregs : (setConn s n c).pregs = s.pregs := rfl
@[simp] theorem setConn_ids : (setConn s n c).ids = s.ids := rfl
@[simp] theorem setConn_queues : (setConn s n c).queues = s.queues := rfl
@[simp] theorem setConn_ctxs : (setConn s n c).ctxs = s.ctxs := rfl
@[simp] theorem setConn_cache : (setConn s n c).cache = s.cache := rfl
@[simp] theorem setConn_peers : (setConn s n c).peers = s.peers := rfl
@[simp] theorem setConn_pinq : (setConn s n c).pinq = s.pinq := rfl
@[simp] theorem setConn_held : (setConn s n c).held = s.held := rfl
@[simp] theorem setConn_rxhold : (setConn s n c).rxhold = s.rxhold := rfl
@[simp] theorem setConn_cores : (setConn s n c).cores = s.cores := rfl
@[simp] theorem setConn_lhans : (setConn s n c).lhans = s.lhans := rfl
@[simp] theorem setConn_devq : (setConn s n c).devq = s.devq := rfl
@[simp] theorem setConn_meas : (setConn s n c).meas = s.meas := rfl
@[simp] theorem setConn_boot : (setConn s n c).boot = s.boot := rfl
@[simp] theorem setConn_recovery : (setConn s n c).recovery = s.recovery := rfl
@[simp] theorem setConn_bslots : (setConn s n c).bslots = s.bslots := rfl
@[simp] theorem setConn_pref : (setConn s n c).pref = s.pref := rfl
@[simp] theorem setConn_flist : (setConn s n c).flist = s.flist := rfl
@[simp] theorem setConn_ftag : (setConn s n c).ftag = s.ftag := rfl
@[simp] theorem setConn_watchT : (setConn s n c).watchT = s.watchT := rfl
@[simp] theorem setConn_fresh : (setConn s n c).fresh = s.fresh := rfl
@[simp] theorem setConn_rstT : (setConn s n c).rstT = s.rstT := rfl
@[simp] theorem setConn_ebbDue : (setConn s n c).ebbDue = s.ebbDue := rfl
@[simp] theorem setConn_ebbRun : (setConn s n c).ebbRun = s.ebbRun := rfl
@[simp] theorem setConn_ebbT : (setConn s n c).ebbT = s.ebbT := rfl
@[simp] theorem setConn_inputs : (setConn s n c).inputs = s.inputs := rfl
@[simp] theorem setConn_pauses : (setConn s n c).pauses = s.pauses := rfl
@[simp] theorem setConn_looks : (setConn s n c).looks = s.looks := rfl
@[simp] theorem setConn_fecs : (setConn s n c).fecs = s.fecs := rfl
@[simp] theorem setConn_rom : (setConn s n c).rom = s.rom := rfl
@[simp] theorem setConn_cmds : (setConn s n c).cmds = s.cmds := rfl
@[simp] theorem setConn_cur : (setConn s n c).cur = s.cur := rfl
@[simp] theorem setConn_curSeq : (setConn s n c).curSeq = s.curSeq := rfl
@[simp] theorem setConn_curIdle : (setConn s n c).curIdle = s.curIdle := rfl
@[simp] theorem setConn_curWord : (setConn s n c).curWord = s.curWord := rfl
@[simp] theorem setConn_nextId : (setConn s n c).nextId = s.nextId := rfl
@[simp] theorem setConn_freeCtr : (setConn s n c).freeCtr = s.freeCtr := rfl
@[simp] theorem setConn_outputs : (setConn s n c).outputs = s.outputs := rfl

end

/-! ## The stream of a sequencer in its cell -/

section
variable (c : Cell) (q : Seq) (st : Stream)

@[simp] theorem setStream_ctx : (c.setStream q st).ctx = c.ctx := by cases q <;> rfl
@[simp] theorem setStream_reg : (c.setStream q st).reg = c.reg := by cases q <;> rfl
@[simp] theorem setStream_ldie : (c.setStream q st).ldie = c.ldie := by cases q <;> rfl
@[simp] theorem setStream_a : (c.setStream q st).a = c.a := by cases q <;> rfl
@[simp] theorem setStream_v : (c.setStream q st).v = c.v := by cases q <;> rfl
@[simp] theorem setStream_m : (c.setStream q st).m = c.m := by cases q <;> rfl
@[simp] theorem setStream_k : (c.setStream q st).k = c.k := by cases q <;> rfl
@[simp] theorem setStream_dl : (c.setStream q st).dl = c.dl := by cases q <;> rfl
@[simp] theorem setStream_dw : (c.setStream q st).dw = c.dw := by cases q <;> rfl
@[simp] theorem setStream_q : (c.setStream q st).q = c.q := by cases q <;> rfl
@[simp] theorem setStream_feeds : (c.setStream q st).feeds = c.feeds := by cases q <;> rfl
@[simp] theorem setStream_chans : (c.setStream q st).chans = c.chans := by cases q <;> rfl
@[simp] theorem setStream_rnds : (c.setStream q st).rnds = c.rnds := by cases q <;> rfl
@[simp] theorem setStream_rmem : (c.setStream q st).rmem = c.rmem := by cases q <;> rfl
@[simp] theorem setStream_spad : (c.setStream q st).spad = c.spad := by cases q <;> rfl
@[simp] theorem setStream_ecc : (c.setStream q st).ecc = c.ecc := by cases q <;> rfl
@[simp] theorem setStream_gs : (c.setStream q st).gs = c.gs := by cases q <;> rfl
@[simp] theorem setStream_mx : (c.setStream q st).mx = c.mx := by cases q <;> rfl
@[simp] theorem setStream_csr : (c.setStream q st).csr = c.csr := by cases q <;> rfl
@[simp] theorem setStream_sect : (c.setStream q st).sect = c.sect := by cases q <;> rfl
@[simp] theorem setStream_pwb : (c.setStream q st).pwb = c.pwb := by cases q <;> rfl
@[simp] theorem setStream_inb : (c.setStream q st).inb = c.inb := by cases q <;> rfl
@[simp] theorem setStream_ep : (c.setStream q st).ep = c.ep := by cases q <;> rfl
@[simp] theorem setStream_phase : (c.setStream q st).phase = c.phase := by cases q <;> rfl
@[simp] theorem setStream_fifo : (c.setStream q st).fifo = c.fifo := by cases q <;> rfl
@[simp] theorem setStream_lat : (c.setStream q st).lat = c.lat := by cases q <;> rfl
@[simp] theorem setStream_inc : (c.setStream q st).inc = c.inc := by cases q <;> rfl
@[simp] theorem setStream_shadow : (c.setStream q st).shadow = c.shadow := by cases q <;> rfl
@[simp] theorem setStream_task : (c.setStream q st).task = c.task := by cases q <;> rfl
@[simp] theorem setStream_slack : (c.setStream q st).slack = c.slack := by cases q <;> rfl
@[simp] theorem setStream_stub : (c.setStream q st).stub = c.stub := by cases q <;> rfl
@[simp] theorem setStream_kept : (c.setStream q st).kept = c.kept := by cases q <;> rfl
@[simp] theorem setStream_stream_same : (c.setStream q st).stream q = st := by cases q <;> rfl
theorem setStream_stream_other {p : Seq} (h : p ≠ q) : (c.setStream q st).stream p = c.stream p := by
  cases p <;> cases q <;> first | rfl | exact absurd rfl h

end

end Sys2Proof.Machine
end

