-- ==== Sys2Proof/Laws/Ops.lean ====
section
/-! SUPPORT. What the shared operations over the state do, one lemma each: reads after writes of cells, regions, cores,
registers and streams, the landing of a result, taking an exception, and the issue of a word. -/

namespace Sys2Proof.Machine

/-! ## Reads after writes -/

@[simp] theorem cellAt_setCell (s : State) (k j : Nat) (c : Cell) : cellAt (setCell s k c) j = if j = k then c else cellAt s j := by
  simp [cellAt, setCell]

@[simp] theorem regAt_setReg (s : State) (h j : Nat) (r : Region) : regAt (setReg s h r) j = if j = h then r else regAt s j := by
  simp [regAt, setReg]

@[simp] theorem coreAt_setCore (s : State) (n j : Nat) (c : Core) : coreAt (setCore s n c) j = if j = n then c else coreAt s j := by
  simp [coreAt, setCore]

@[simp] theorem connAt_setConn (s : State) (n j : Nat) (c : Conn) : connAt (setConn s n c) j = if j = n then c else connAt s j := by
  simp [connAt, setConn]

theorem preg_setPreg_same (s : State) (i n : Nat) (v : Word) : preg (setPreg s i n v) i n = v := by simp [preg, setPreg]

theorem preg_setPreg_other (s : State) {i n j m : Nat} (v : Word) (h : j * 4096 + m ≠ i * 4096 + n) :
    preg (setPreg s i n v) j m = preg s j m := by simp [preg, setPreg, h]

@[simp] theorem cellAt_setReg (s : State) (h : Nat) (r : Region) (j : Nat) : cellAt (setReg s h r) j = cellAt s j := rfl
@[simp] theorem cellAt_setCore (s : State) (n : Nat) (c : Core) (j : Nat) : cellAt (setCore s n c) j = cellAt s j := rfl
@[simp] theorem cellAt_setPreg (s : State) (i n : Nat) (v : Word) (j : Nat) : cellAt (setPreg s i n v) j = cellAt s j := rfl
@[simp] theorem regAt_setCell (s : State) (k : Nat) (c : Cell) (h : Nat) : regAt (setCell s k c) h = regAt s h := rfl
@[simp] theorem regAt_setCore (s : State) (n : Nat) (c : Core) (h : Nat) : regAt (setCore s n c) h = regAt s h := rfl
@[simp] theorem coreAt_setCell (s : State) (k : Nat) (c : Cell) (n : Nat) : coreAt (setCell s k c) n = coreAt s n := rfl
@[simp] theorem coreAt_setReg (s : State) (h : Nat) (r : Region) (n : Nat) : coreAt (setReg s h r) n = coreAt s n := rfl

/-! ## The host's writes keep the form of memory (R414, R416) -/

theorem hostWrite_wf {s : State} (ctx : Nat) (a : Word) (bs : List Byte) (h : Memory.wf s.mem) : Memory.wf (hostWrite s ctx a bs).mem := by
  unfold hostWrite
  split
  · exact h
  · dsimp only
    rename_i hd
    clear hd
    generalize List.range _ = l
    induction l generalizing s with
    | nil => exact h
    | cons i l ih =>
      apply ih
      split
      · exact homeWriteNib_wf _ _ _ _ _ h
      · exact homeWrite_wf _ _ _ _ _ h

/-- A fold keeps what each of its steps keeps. -/
theorem foldl_keeps {α β : Type} {P : α → Prop} {f : α → β → α} (hf : ∀ a b, P a → P (f a b)) (l : List β) (a : α) (h : P a) :
    P (l.foldl f a) := by
  induction l generalizing a with
  | nil => exact h
  | cons b l ih => exact ih _ (hf a b h)

/-- The samplers count and leave memory alone (R482). -/
@[simp] theorem hotSample_mem (s : State) (ctx tens tile : Nat) : (hotSample s ctx tens tile).mem = s.mem := by
  simp only [hotSample]
  split
  · rfl
  · split <;> rfl

theorem hostCount_wf {s : State} (ctx : Nat) (a : Word) (n : Nat) (h : Memory.wf s.mem) : Memory.wf (hostCount s ctx a n).mem := by
  unfold hostCount
  split
  · exact h
  · exact foldl_keeps (P := fun s : State => Memory.wf s.mem) (fun _ _ h => by simpa using h) _ _ h

theorem hostPut_wf {s : State} (ctx : Nat) (a : Word) (bs : List Byte) (h : Memory.wf s.mem) : Memory.wf (hostPut s ctx a bs).mem := by
  unfold hostPut
  split
  · exact hostCount_wf _ _ _ (hostWrite_wf _ _ _ h)
  · exact h

theorem spanClear_wf {s : State} (ctx tens : Nat) (x : Nat × Nat × Nat) (h : Memory.wf s.mem) : Memory.wf (spanClear s ctx tens x).mem :=
  canon_filter _ (zeroFill_wf ctx tens x.1 h)

theorem recWrite_wf {s : State} (ctx : Nat) (a : Word) (p : Part) (h : Memory.wf s.mem) : Memory.wf (recWrite s ctx a p).1.mem := by
  unfold recWrite
  split
  · exact h
  · dsimp only
    split
    · exact foldl_keeps (P := fun s : State => Memory.wf s.mem) (fun _ _ h => hostWrite_wf _ _ _ h) _ _
        (foldl_keeps (P := fun s : State => Memory.wf s.mem) (fun _ _ h => spanClear_wf _ _ _ h) _ _ h)
    · exact h

theorem packageReset_wf (s : State) : Memory.wf (packageReset s).mem := rfl

/-! ## Scalar registers (R160, R183) -/

@[simp] theorem readA_zero (s : State) (k : Nat) : readA s k 0 = 0 := rfl

/-- A write to a0 is discarded. -/
@[simp] theorem writeA_zero (s : State) (k : Nat) (v : Word) : writeA s k 0 v = s := rfl

/-- The register written reads as written, and every other of the agent as before. -/
theorem readA_writeA (s : State) (k r x : Nat) (v : Word) :
    readA (writeA s k r v) k x = if x = 0 then 0 else if x = r then v else readA s k x := by
  unfold readA writeA
  by_cases hr : r = 0
  · subst hr; by_cases hx : x = 0 <;> simp [hx]
  · by_cases hx : x = 0
    · simp [hx]
    · cases hk : isCore k <;> simp [hr, hx]

/-- A write to a register of one agent leaves every other agent's. -/
theorem readA_writeA_other (s : State) {k j : Nat} (r x : Nat) (v : Word) (h : j ≠ k) : readA (writeA s k r v) j x = readA s j x := by
  unfold readA writeA
  by_cases hr : r = 0
  · simp [hr]
  · by_cases hx : x = 0
    · simp [hx]
    · cases hk : isCore k <;> cases hj : isCore j <;> simp [hr, hx]
      · simp [h]
      · simp only [isCore, decide_eq_true_eq] at hk hj
        rw [if_neg (by omega)]

/-! ## Streams -/

theorem streamAt_setStreamAt_same (s : State) (k : Nat) (q : Seq) (st : Stream) : streamAt (setStreamAt s k q st) k q = st := by
  unfold streamAt setStreamAt
  cases hk : isCore k <;> simp

/-- Moving a stream leaves every register of every agent. -/
@[simp] theorem readA_setStreamAt (s : State) (k j r : Nat) (q : Seq) (st : Stream) : readA (setStreamAt s k q st) j r = readA s j r := by
  unfold readA setStreamAt
  by_cases hr : r = 0
  · simp [hr]
  · cases hk : isCore k <;> cases hj : isCore j <;> simp [hr]
    · by_cases h : j = k
      · subst h; simp
      · simp [h]
    · by_cases h : j - coreKey = k - coreKey
      · simp [h]
      · simp [h]

/-! ## The landing of a result (R41, R56, R182) -/

/-- On a core and in an elastic stream the result is written at once. -/
theorem landA_now (s : State) (c : Ctx) (r : BitVec 6) (v : Word) (n : Nat) (h : c.timed = false ∨ c.core = true) :
    landA s c r v n = writeA s c.key r.toNat v := by
  unfold landA
  rcases h with h | h <;> simp [h]

/-- In a timed stream it is in flight, to land n cycles after the issue. -/
theorem landA_timed (s : State) (c : Ctx) (r : BitVec 6) (v : Word) (n : Nat) (h : c.timed = true) (hc : c.core = false) (hr : r ≠ 0) :
    landA s c r v n = addLatch s c.key
      { due := c.t + n, tgt := .a r.toNat, val := v.setWidth 2048, seq := c.seq, pc := c.pc } := by
  simp only [landA, h, hc, Bool.not_false, Bool.and_self, if_true, if_neg hr]

/-- A result for a0 is discarded. -/
theorem landA_zero (s : State) (c : Ctx) (v : Word) (n : Nat) : landA s c 0 v n = s := by
  simp [landA]

/-! ## What a cell's word leaves -/

/-- t is s but for its regions, the next name, and, in cell k, its streams, its task, its updates in flight and its shadow
list. -/
structure CellFrame (k : Nat) (s t : State) : Prop where
  rest : { t with regions := s.regions, nextId := s.nextId, cells := s.cells } = s
  cells : ∀ j, j ≠ k → cellAt t j = cellAt s j
  cell : { cellAt t k with ss := (cellAt s k).ss, sl := (cellAt s k).sl, sc := (cellAt s k).sc, sw := (cellAt s k).sw,
                           task := (cellAt s k).task, shadow := (cellAt s k).shadow, lat := (cellAt s k).lat } = cellAt s k

theorem CellFrame.refl (k : Nat) (s : State) : CellFrame k s s := ⟨rfl, fun _ _ => rfl, rfl⟩

theorem CellFrame.trans {k : Nat} {s t u : State} (h : CellFrame k s t) (g : CellFrame k t u) : CellFrame k s u := by
  refine ⟨?_, fun j hj => (g.cells j hj).trans (h.cells j hj), ?_⟩
  · have h1 := h.rest; have g1 := g.rest
    rw [← g1] at h1
    exact h1
  · have h1 := h.cell; have g1 := g.cell
    rw [← g1] at h1
    exact h1

theorem CellFrame.setReg {k : Nat} (s : State) (h : Nat) (r : Region) : CellFrame k s (setReg s h r) := ⟨rfl, fun _ _ => rfl, rfl⟩

theorem CellFrame.setCell {k : Nat} {s : State} {c : Cell}
    (h : { c with ss := (cellAt s k).ss, sl := (cellAt s k).sl, sc := (cellAt s k).sc, sw := (cellAt s k).sw,
                  task := (cellAt s k).task, shadow := (cellAt s k).shadow, lat := (cellAt s k).lat } = cellAt s k) :
    CellFrame k s (setCell s k c) :=
  ⟨rfl, fun j hj => by simp [hj], by simpa using h⟩

/-- Every register, mask, token, queue and memory of the cell and every other agent reads as before. -/
theorem CellFrame.readA {k : Nat} {s t : State} (h : CellFrame k s t) (j r : Nat) : readA t j r = readA s j r := by
  have hc : t.cores = s.cores := by have e := congrArg State.cores h.rest; exact e
  have ha : (cellAt t k).a = (cellAt s k).a := by have e := congrArg Cell.a h.cell; exact e
  unfold Machine.readA coreAt
  rw [hc]
  by_cases hj : j = k
  · subst hj; rw [ha]
  · rw [h.cells j hj]

theorem CellFrame.memByte {k : Nat} {s t : State} (h : CellFrame k s t) (a : Nat) : memByte t a = memByte s a := by
  have e := congrArg (fun u : State => sget memDefault u.mem a) h.rest
  exact e

theorem setStreamAt_cellFrame {s : State} {k : Nat} (q : Seq) (st : Stream) (h : isCore k = false) :
    CellFrame k s (setStreamAt s k q st) := by
  unfold setStreamAt
  simp only [h, Bool.false_eq_true, if_false]
  exact CellFrame.setCell (by cases q <;> rfl)

theorem touchStart_cellFrame (s : State) (k : Nat) : CellFrame k s (touchStart s k) := by
  unfold touchStart
  dsimp only
  repeat' split
  all_goals first | exact CellFrame.refl _ _ | exact CellFrame.setReg _ _ _

theorem addLatch_cellFrame (s : State) (k : Nat) (l : Latch) : CellFrame k s (addLatch s k l) := by
  unfold addLatch
  exact CellFrame.trans (t := { s with nextId := s.nextId + 1 }) ⟨rfl, fun _ _ => rfl, rfl⟩ (CellFrame.setCell rfl)

/-! ## Taking an exception (R354 to R358) -/

theorem recordFault_cellFrame (s : State) (h : Nat) (w : Who) (f : Flt) (sh : Bool) (k : Nat) :
    CellFrame k s (recordFault s h w f sh) := ⟨rfl, fun _ _ => rfl, rfl⟩

theorem raiseHalt_cellFrame (s : State) (h : Nat) (d : Option Nat) (k : Nat) : CellFrame k s (raiseHalt s h d) := by
  unfold raiseHalt
  dsimp only
  repeat' split
  all_goals first | exact CellFrame.refl _ _ | exact CellFrame.setReg _ _ _

theorem addShadow_cellFrame (s : State) (w : Who) (f : Flt) (b : Bool) : CellFrame w.key s (addShadow s w f b) := by
  unfold addShadow
  split
  · exact CellFrame.refl _ _
  · exact CellFrame.setCell rfl

theorem endElastic_cellFrame (s : State) (w : Who) (code : Nat) : CellFrame w.key s (endElastic s w code) := by
  unfold endElastic
  dsimp only
  split
  · split
    · exact CellFrame.setCell rfl
    · exact CellFrame.refl _ _
  · split
    · exact CellFrame.refl _ _
    · refine CellFrame.trans (t := { setReg s (cellAt s w.key).reg
          { regAt s (cellAt s w.key).reg with
            failc := (firstEnd (regAt s (cellAt s w.key).reg) (faultRec s (cellAt s w.key).reg w { code := code } false)).code,
            failr := some (firstEnd (regAt s (cellAt s w.key).reg) (faultRec s (cellAt s w.key).reg w { code := code } false)) } with
          nextId := s.nextId + 1 }) ⟨rfl, fun _ _ => rfl, rfl⟩ (CellFrame.setCell (by cases w.seq <;> rfl))

/-- An exception of a cell's word changes nothing but its region, its streams, its task and its shadow list: no register, no
memory, no other cell. -/
theorem takeFault_cellFrame (s : State) (w : Who) (f : Flt) (h : isCore w.key = false) : CellFrame w.key s (takeFault s w f) := by
  have hr := fun (s : State) (b : Bool) => recordFault_cellFrame s (cellAt s w.key).reg w f b w.key
  unfold takeFault
  rw [h]
  simp only [Bool.false_eq_true, if_false]
  split
  · split
    · exact (CellFrame.setReg s _ _).trans (recordFault_cellFrame _ _ _ _ _ _)
    · exact recordFault_cellFrame _ _ _ _ _ _
  · split
    · exact endElastic_cellFrame _ _ _
    · split
      · exact ((recordFault_cellFrame _ _ _ _ _ _).trans (addShadow_cellFrame _ _ _ _)).trans (raiseHalt_cellFrame _ _ _ _)
      · repeat' split
        all_goals first
          | exact (recordFault_cellFrame _ _ _ _ _ _).trans (addShadow_cellFrame _ _ _ _)
          | exact recordFault_cellFrame _ _ _ _ _ _

/-- An exception on a core that is not in its handler: MEPC takes the word, MCAUSE the code, and the handler follows (R449). -/
theorem takeFault_core (s : State) (w : Who) (f : Flt) (h : isCore w.key = true)
    (hm : (coreAt s (w.key - coreKey)).mcause.getLsbD 63 = false) :
    takeFault s w f = setCore s (w.key - coreKey)
      { coreAt s (w.key - coreKey) with
        mepc := BitVec.ofNat 64 w.pc,
        mcause := BitVec.ofNat 64 (f.code + f.arg.toNat * 65536) ||| 0x8000000000000000,
        st := { (coreAt s (w.key - coreKey)).st with pc := (coreAt s (w.key - coreKey)).mtvec.toNat, since := none } } := by
  simp only [takeFault, h, if_true, coreFault, hm, Bool.false_eq_true, if_false]

/-! ## The issue of a word -/

theorem waitWord_cellFrame (s : State) (c : Ctx) (h : isCore c.key = false) : CellFrame c.key s (waitWord s c) :=
  setStreamAt_cellFrame _ _ h

/-- What the issue of a word comes to: nothing, an exception without its effect, a wait, or the answer of its effect. -/
theorem runWord_cases (lg : Legal) (regs : List (BitVec 6)) (body : Ctx → State → Res) (s : State) :
    let u := touchStart s s.cur
    let c := ctxAt u
    runWord lg regs body s = s
    ∨ (∃ js f, runWord lg regs body s
        = takeFault (setStreamAt u c.key c.seq (c.st.advance (issueNow u c) js)) { key := c.key, seq := c.seq, pc := c.pc, word := u.curWord } f)
    ∨ runWord lg regs body s = waitWord s c
    ∨ ∃ js, let s1 := setStreamAt u c.key c.seq (c.st.advance (issueNow u c) js)
        (∃ t, body c s1 = .ok t ∧ runWord lg regs body s = t)
        ∨ (∃ t pc, body c s1 = .goto t pc ∧ runWord lg regs body s = setStreamAt t c.key c.seq { streamAt t c.key c.seq with pc := pc })
        ∨ (∃ t f, body c s1 = .okFault t f
            ∧ runWord lg regs body s = takeFault t { key := c.key, seq := c.seq, pc := c.pc, word := u.curWord } f) := by
  intro u c
  unfold runWord
  by_cases hcan : canIssue s s.cur s.curSeq = true
  · simp only [hcan, Bool.not_true, Bool.false_eq_true, if_false]
    right
    split
    · left; exact ⟨_, _, rfl⟩
    · split
      · left; exact ⟨_, _, rfl⟩
      · split
        · right; left; rfl
        · rename_i js _ _ _
          split
          · right; right; exact ⟨js, .inl ⟨_, by assumption, rfl⟩⟩
          · right; right; exact ⟨js, .inr (.inl ⟨_, _, by assumption, rfl⟩)⟩
          · left; exact ⟨_, _, rfl⟩
          · right; right; exact ⟨js, .inr (.inr ⟨_, _, by assumption, rfl⟩)⟩
          · right; left; rfl
  · left
    simp [hcan]

end Sys2Proof.Machine
end

