-- ==== Sys2Proof/Laws/PerInstr.lean ====
section
/-! SUPPORT. Statements about every instruction as syntax, one lemma per constructor. -/

/-- R155: IDLE is bits 63 to 54 of the word, and OP with the body the bits below: the word of an instruction carries its
issue distance unchanged, whatever the instruction. -/
def Sys2Proof.Laws.IdleField.Statement (i : Sys2Proof.Instr) : Prop :=
  ∀ (idle : BitVec 10) (w : Sys2Proof.Word), Sys2Proof.encode idle i = some w → Sys2Proof.idleOf w = idle

namespace Sys2Proof.Laws.IdleField

/-- The issue distance stands above the 54 bits of OP and body. -/
theorem idleOf_append (idle : BitVec 10) (b : BitVec 54) : Sys2Proof.idleOf (idle ++ b) = idle := by
  apply BitVec.eq_of_toNat_eq
  simp only [Sys2Proof.idleOf, BitVec.extractLsb'_toNat, BitVec.toNat_append, Nat.shiftRight_or_distrib]
  rw [Nat.shiftLeft_shiftRight, Nat.shiftRight_eq_div_pow b.toNat, Nat.div_eq_of_lt b.isLt, Nat.or_zero,
    Nat.mod_eq_of_lt idle.isLt]

/-- The statement holds of every instruction, by the form of the encoder. -/
theorem of_encode (i : Sys2Proof.Instr) : Statement i := by
  intro idle w h
  obtain ⟨b, -, rfl⟩ := Option.map_eq_some_iff.mp h
  exact idleOf_append idle b

theorem waitc : ∀ x0, Statement (.waitc x0) := by intros; exact of_encode _
theorem endw : Statement .endw := of_encode _
theorem alignf : Statement .alignf := of_encode _
theorem start : Statement .start := of_encode _
theorem slack : ∀ x0, Statement (.slack x0) := by intros; exact of_encode _
theorem turn : ∀ x0, Statement (.turn x0) := by intros; exact of_encode _
theorem nop : Statement .nop := of_encode _
theorem jmp : ∀ x0, Statement (.jmp x0) := by intros; exact of_encode _
theorem loop : ∀ x0 x1 x2, Statement (.loop x0 x1 x2) := by intros; exact of_encode _
theorem call : ∀ x0 x1, Statement (.call x0 x1) := by intros; exact of_encode _
theorem ret : ∀ x0, Statement (.ret x0) := by intros; exact of_encode _
theorem br : ∀ x0 x1 x2 x3, Statement (.br x0 x1 x2 x3) := by intros; exact of_encode _
theorem brt : ∀ x0 x1 x2 x3 x4, Statement (.brt x0 x1 x2 x3 x4) := by intros; exact of_encode _
theorem trap : ∀ x0, Statement (.trap x0) := by intros; exact of_encode _
theorem rett : Statement .rett := of_encode _
theorem add : ∀ x0 x1 x2, Statement (.add x0 x1 x2) := by intros; exact of_encode _
theorem sub : ∀ x0 x1 x2, Statement (.sub x0 x1 x2) := by intros; exact of_encode _
theorem mul : ∀ x0 x1 x2, Statement (.mul x0 x1 x2) := by intros; exact of_encode _
theorem mulh : ∀ x0 x1 x2, Statement (.mulh x0 x1 x2) := by intros; exact of_encode _
theorem mulhu : ∀ x0 x1 x2, Statement (.mulhu x0 x1 x2) := by intros; exact of_encode _
theorem div : ∀ x0 x1 x2, Statement (.div x0 x1 x2) := by intros; exact of_encode _
theorem divu : ∀ x0 x1 x2, Statement (.divu x0 x1 x2) := by intros; exact of_encode _
theorem rem : ∀ x0 x1 x2, Statement (.rem x0 x1 x2) := by intros; exact of_encode _
theorem remu : ∀ x0 x1 x2, Statement (.remu x0 x1 x2) := by intros; exact of_encode _
theorem and : ∀ x0 x1 x2, Statement (.and x0 x1 x2) := by intros; exact of_encode _
theorem or : ∀ x0 x1 x2, Statement (.or x0 x1 x2) := by intros; exact of_encode _
theorem xor : ∀ x0 x1 x2, Statement (.xor x0 x1 x2) := by intros; exact of_encode _
theorem andn : ∀ x0 x1 x2, Statement (.andn x0 x1 x2) := by intros; exact of_encode _
theorem sll : ∀ x0 x1 x2, Statement (.sll x0 x1 x2) := by intros; exact of_encode _
theorem srl : ∀ x0 x1 x2, Statement (.srl x0 x1 x2) := by intros; exact of_encode _
theorem sra : ∀ x0 x1 x2, Statement (.sra x0 x1 x2) := by intros; exact of_encode _
theorem ror : ∀ x0 x1 x2, Statement (.ror x0 x1 x2) := by intros; exact of_encode _
theorem min : ∀ x0 x1 x2, Statement (.min x0 x1 x2) := by intros; exact of_encode _
theorem max : ∀ x0 x1 x2, Statement (.max x0 x1 x2) := by intros; exact of_encode _
theorem minu : ∀ x0 x1 x2, Statement (.minu x0 x1 x2) := by intros; exact of_encode _
theorem maxu : ∀ x0 x1 x2, Statement (.maxu x0 x1 x2) := by intros; exact of_encode _
theorem slt : ∀ x0 x1 x2, Statement (.slt x0 x1 x2) := by intros; exact of_encode _
theorem sltu : ∀ x0 x1 x2, Statement (.sltu x0 x1 x2) := by intros; exact of_encode _
theorem clz : ∀ x0 x1, Statement (.clz x0 x1) := by intros; exact of_encode _
theorem ctz : ∀ x0 x1, Statement (.ctz x0 x1) := by intros; exact of_encode _
theorem popc : ∀ x0 x1, Statement (.popc x0 x1) := by intros; exact of_encode _
theorem addi : ∀ x0 x1 x2, Statement (.addi x0 x1 x2) := by intros; exact of_encode _
theorem andi : ∀ x0 x1 x2, Statement (.andi x0 x1 x2) := by intros; exact of_encode _
theorem ori : ∀ x0 x1 x2, Statement (.ori x0 x1 x2) := by intros; exact of_encode _
theorem xori : ∀ x0 x1 x2, Statement (.xori x0 x1 x2) := by intros; exact of_encode _
theorem slli : ∀ x0 x1 x2, Statement (.slli x0 x1 x2) := by intros; exact of_encode _
theorem srli : ∀ x0 x1 x2, Statement (.srli x0 x1 x2) := by intros; exact of_encode _
theorem srai : ∀ x0 x1 x2, Statement (.srai x0 x1 x2) := by intros; exact of_encode _
theorem rori : ∀ x0 x1 x2, Statement (.rori x0 x1 x2) := by intros; exact of_encode _
theorem slti : ∀ x0 x1 x2, Statement (.slti x0 x1 x2) := by intros; exact of_encode _
theorem sltiu : ∀ x0 x1 x2, Statement (.sltiu x0 x1 x2) := by intros; exact of_encode _
theorem muli : ∀ x0 x1 x2, Statement (.muli x0 x1 x2) := by intros; exact of_encode _
theorem li : ∀ x0 x1 x2, Statement (.li x0 x1 x2) := by intros; exact of_encode _
theorem lih : ∀ x0 x1, Statement (.lih x0 x1) := by intros; exact of_encode _
theorem tamk : ∀ x0 x1 x2, Statement (.tamk x0 x1 x2) := by intros; exact of_encode _
theorem tcoord : ∀ x0 x1 x2 x3, Statement (.tcoord x0 x1 x2 x3) := by intros; exact of_encode _
theorem tdim : ∀ x0 x1 x2, Statement (.tdim x0 x1 x2) := by intros; exact of_encode _
theorem ld : ∀ x0 x1 x2 x3, Statement (.ld x0 x1 x2 x3) := by intros; exact of_encode _
theorem st : ∀ x0 x1 x2 x3, Statement (.st x0 x1 x2 x3) := by intros; exact of_encode _
theorem ldAcq : ∀ x0 x1 x2 x3, Statement (.ldAcq x0 x1 x2 x3) := by intros; exact of_encode _
theorem stRel : ∀ x0 x1 x2 x3, Statement (.stRel x0 x1 x2 x3) := by intros; exact of_encode _
theorem amo : ∀ x0 x1 x2 x3 x4 x5, Statement (.amo x0 x1 x2 x3 x4 x5) := by intros; exact of_encode _
theorem cas : ∀ x0 x1 x2 x3 x4 x5 x6, Statement (.cas x0 x1 x2 x3 x4 x5 x6) := by intros; exact of_encode _
theorem faddw : ∀ x0 x1, Statement (.faddw x0 x1) := by intros; exact of_encode _
theorem faddr : ∀ x0 x1, Statement (.faddr x0 x1) := by intros; exact of_encode _
theorem phase : ∀ x0 x1, Statement (.phase x0 x1) := by intros; exact of_encode _
theorem fence : ∀ x0, Statement (.fence x0) := by intros; exact of_encode _
theorem bar : ∀ x0 x1 x2 x3, Statement (.bar x0 x1 x2 x3) := by intros; exact of_encode _
theorem tokw : ∀ x0 x1 x2, Statement (.tokw x0 x1 x2) := by intros; exact of_encode _
theorem synci : Statement .synci := of_encode _
theorem qpush : ∀ x0 x1, Statement (.qpush x0 x1) := by intros; exact of_encode _
theorem qpop : ∀ x0 x1 x2, Statement (.qpop x0 x1 x2) := by intros; exact of_encode _
theorem qpeek : ∀ x0 x1 x2, Statement (.qpeek x0 x1 x2) := by intros; exact of_encode _
theorem qcnt : ∀ x0 x1, Statement (.qcnt x0 x1) := by intros; exact of_encode _
theorem engJoin : ∀ x0 x1, Statement (.engJoin x0 x1) := by intros; exact of_encode _
theorem engTload : ∀ x0 x1 x2 x3, Statement (.engTload x0 x1 x2 x3) := by intros; exact of_encode _
theorem engTcopy : ∀ x0 x1 x2 x3, Statement (.engTcopy x0 x1 x2 x3) := by intros; exact of_encode _
theorem engTstore : ∀ x0 x1 x2 x3, Statement (.engTstore x0 x1 x2 x3) := by intros; exact of_encode _
theorem engTfill : ∀ x0 x1 x2 x3, Statement (.engTfill x0 x1 x2 x3) := by intros; exact of_encode _
theorem fpush : ∀ x0, Statement (.fpush x0) := by intros; exact of_encode _
theorem rdtide : ∀ x0 x1, Statement (.rdtide x0 x1) := by intros; exact of_encode _
theorem csrr : ∀ x0 x1, Statement (.csrr x0 x1) := by intros; exact of_encode _
theorem csrw : ∀ x0 x1, Statement (.csrw x0 x1) := by intros; exact of_encode _
theorem pcsrr : ∀ x0 x1 x2, Statement (.pcsrr x0 x1 x2) := by intros; exact of_encode _
theorem pcsrw : ∀ x0 x1 x2, Statement (.pcsrw x0 x1 x2) := by intros; exact of_encode _
theorem registerWrite : ∀ x0 x1 x2 x3, Statement (.registerWrite x0 x1 x2 x3) := by intros; exact of_encode _
theorem mboxs : ∀ x0 x1 x2, Statement (.mboxs x0 x1 x2) := by intros; exact of_encode _
theorem mboxr : ∀ x0, Statement (.mboxr x0) := by intros; exact of_encode _
theorem mwait : ∀ x0, Statement (.mwait x0) := by intros; exact of_encode _
theorem brq : ∀ x0 x1 x2, Statement (.brq x0 x1 x2) := by intros; exact of_encode _
theorem dset : ∀ x0 x1 x2 x3, Statement (.dset x0 x1 x2 x3) := by intros; exact of_encode _
theorem dclr : ∀ x0 x1, Statement (.dclr x0 x1) := by intros; exact of_encode _
theorem dld : ∀ x0 x1 x2, Statement (.dld x0 x1 x2) := by intros; exact of_encode _
theorem rdq : ∀ x0 x1 x2, Statement (.rdq x0 x1 x2) := by intros; exact of_encode _
theorem rds : ∀ x0 x1 x2, Statement (.rds x0 x1 x2) := by intros; exact of_encode _
theorem wrq : ∀ x0 x1 x2, Statement (.wrq x0 x1 x2) := by intros; exact of_encode _
theorem wrs : ∀ x0 x1 x2, Statement (.wrs x0 x1 x2) := by intros; exact of_encode _
theorem cpy : ∀ x0 x1 x2, Statement (.cpy x0 x1 x2) := by intros; exact of_encode _
theorem gath : ∀ x0 x1 x2 x3 x4 x5, Statement (.gath x0 x1 x2 x3 x4 x5) := by intros; exact of_encode _
theorem scat : ∀ x0 x1 x2 x3 x4 x5, Statement (.scat x0 x1 x2 x3 x4 x5) := by intros; exact of_encode _
theorem pref : ∀ x0 x1, Statement (.pref x0 x1) := by intros; exact of_encode _
theorem push : ∀ x0 x1 x2, Statement (.push x0 x1 x2) := by intros; exact of_encode _
theorem pushR : ∀ x0 x1 x2, Statement (.pushR x0 x1 x2) := by intros; exact of_encode _
theorem movq : ∀ x0 x1 x2, Statement (.movq x0 x1 x2) := by intros; exact of_encode _
theorem arrv : ∀ x0 x1 x2, Statement (.arrv x0 x1 x2) := by intros; exact of_encode _
theorem bwait : ∀ x0 x1 x2, Statement (.bwait x0 x1 x2) := by intros; exact of_encode _
theorem collAr : ∀ x0 x1 x2 x3 x4 x5, Statement (.collAr x0 x1 x2 x3 x4 x5) := by intros; exact of_encode _
theorem collRs : ∀ x0 x1 x2 x3 x4 x5, Statement (.collRs x0 x1 x2 x3 x4 x5) := by intros; exact of_encode _
theorem collAg : ∀ x0 x1 x2 x3 x4, Statement (.collAg x0 x1 x2 x3 x4) := by intros; exact of_encode _
theorem collBc : ∀ x0 x1 x2 x3 x4 x5, Statement (.collBc x0 x1 x2 x3 x4 x5) := by intros; exact of_encode _
theorem collAa : ∀ x0 x1 x2 x3 x4, Statement (.collAa x0 x1 x2 x3 x4) := by intros; exact of_encode _
theorem collAb : ∀ x0 x1, Statement (.collAb x0 x1) := by intros; exact of_encode _
theorem mload : ∀ x0 x1, Statement (.mload x0 x1) := by intros; exact of_encode _
theorem msel : ∀ x0 x1, Statement (.msel x0 x1) := by intros; exact of_encode _
theorem mma : ∀ x0 x1, Statement (.mma x0 x1) := by intros; exact of_encode _
theorem mmas : ∀ x0 x1, Statement (.mmas x0 x1) := by intros; exact of_encode _
theorem zclr : ∀ x0 x1, Statement (.zclr x0 x1) := by intros; exact of_encode _
theorem zrd : ∀ x0 x1 x2 x3, Statement (.zrd x0 x1 x2 x3) := by intros; exact of_encode _
theorem zrdB16 : ∀ x0 x1 x2 x3, Statement (.zrdB16 x0 x1 x2 x3) := by intros; exact of_encode _
theorem zwr : ∀ x0 x1 x2 x3, Statement (.zwr x0 x1 x2 x3) := by intros; exact of_encode _
theorem zpush : ∀ x0 x1 x2, Statement (.zpush x0 x1 x2) := by intros; exact of_encode _
theorem zpushB16 : ∀ x0 x1 x2, Statement (.zpushB16 x0 x1 x2) := by intros; exact of_encode _
theorem vadd : ∀ x0, Statement (.vadd x0) := by intros; exact of_encode _
theorem vsub : ∀ x0, Statement (.vsub x0) := by intros; exact of_encode _
theorem vmul : ∀ x0, Statement (.vmul x0) := by intros; exact of_encode _
theorem vfma : ∀ x0, Statement (.vfma x0) := by intros; exact of_encode _
theorem vfms : ∀ x0, Statement (.vfms x0) := by intros; exact of_encode _
theorem vdiv : ∀ x0, Statement (.vdiv x0) := by intros; exact of_encode _
theorem vsqrt : ∀ x0, Statement (.vsqrt x0) := by intros; exact of_encode _
theorem vmin : ∀ x0, Statement (.vmin x0) := by intros; exact of_encode _
theorem vmax : ∀ x0, Statement (.vmax x0) := by intros; exact of_encode _
theorem vabs : ∀ x0, Statement (.vabs x0) := by intros; exact of_encode _
theorem vneg : ∀ x0, Statement (.vneg x0) := by intros; exact of_encode _
theorem vcmpeq : ∀ x0, Statement (.vcmpeq x0) := by intros; exact of_encode _
theorem vcmpne : ∀ x0, Statement (.vcmpne x0) := by intros; exact of_encode _
theorem vcmplt : ∀ x0, Statement (.vcmplt x0) := by intros; exact of_encode _
theorem vcmple : ∀ x0, Statement (.vcmple x0) := by intros; exact of_encode _
theorem vsel : ∀ x0, Statement (.vsel x0) := by intros; exact of_encode _
theorem vand : ∀ x0, Statement (.vand x0) := by intros; exact of_encode _
theorem vor : ∀ x0, Statement (.vor x0) := by intros; exact of_encode _
theorem vxor : ∀ x0, Statement (.vxor x0) := by intros; exact of_encode _
theorem vnot : ∀ x0, Statement (.vnot x0) := by intros; exact of_encode _
theorem vshl : ∀ x0, Statement (.vshl x0) := by intros; exact of_encode _
theorem vshr : ∀ x0, Statement (.vshr x0) := by intros; exact of_encode _
theorem vsra : ∀ x0, Statement (.vsra x0) := by intros; exact of_encode _
theorem viadd : ∀ x0, Statement (.viadd x0) := by intros; exact of_encode _
theorem visub : ∀ x0, Statement (.visub x0) := by intros; exact of_encode _
theorem vimul : ∀ x0, Statement (.vimul x0) := by intros; exact of_encode _
theorem vimin : ∀ x0, Statement (.vimin x0) := by intros; exact of_encode _
theorem vimax : ∀ x0, Statement (.vimax x0) := by intros; exact of_encode _
theorem vcvt : ∀ x0, Statement (.vcvt x0) := by intros; exact of_encode _
theorem vrcp : ∀ x0, Statement (.vrcp x0) := by intros; exact of_encode _
theorem vrsqrt : ∀ x0, Statement (.vrsqrt x0) := by intros; exact of_encode _
theorem vexp2 : ∀ x0, Statement (.vexp2 x0) := by intros; exact of_encode _
theorem vlog2 : ∀ x0, Statement (.vlog2 x0) := by intros; exact of_encode _
theorem vtanh : ∀ x0, Statement (.vtanh x0) := by intros; exact of_encode _
theorem vsigm : ∀ x0, Statement (.vsigm x0) := by intros; exact of_encode _
theorem vsin : ∀ x0, Statement (.vsin x0) := by intros; exact of_encode _
theorem vcos : ∀ x0, Statement (.vcos x0) := by intros; exact of_encode _
theorem vredsum : ∀ x0, Statement (.vredsum x0) := by intros; exact of_encode _
theorem vredmax : ∀ x0, Statement (.vredmax x0) := by intros; exact of_encode _
theorem vredmin : ∀ x0, Statement (.vredmin x0) := by intros; exact of_encode _
theorem vperm : ∀ x0, Statement (.vperm x0) := by intros; exact of_encode _
theorem vbcast : ∀ x0, Statement (.vbcast x0) := by intros; exact of_encode _
theorem vrot : ∀ x0, Statement (.vrot x0) := by intros; exact of_encode _
theorem vmov : ∀ x0, Statement (.vmov x0) := by intros; exact of_encode _
theorem vld : ∀ x0 x1 x2, Statement (.vld x0 x1 x2) := by intros; exact of_encode _
theorem vst : ∀ x0 x1 x2, Statement (.vst x0 x1 x2) := by intros; exact of_encode _
theorem vidx : ∀ x0, Statement (.vidx x0) := by intros; exact of_encode _
theorem vli : ∀ x0 x1 x2, Statement (.vli x0 x1 x2) := by intros; exact of_encode _
theorem dot16 : ∀ x0, Statement (.dot16 x0) := by intros; exact of_encode _
theorem vquant : ∀ x0, Statement (.vquant x0) := by intros; exact of_encode _
theorem vdeq : ∀ x0, Statement (.vdeq x0) := by intros; exact of_encode _
theorem vnmean : ∀ x0, Statement (.vnmean x0) := by intros; exact of_encode _
theorem vnvar : ∀ x0, Statement (.vnvar x0) := by intros; exact of_encode _
theorem vnapply : ∀ x0, Statement (.vnapply x0) := by intros; exact of_encode _
theorem vmset : ∀ x0, Statement (.vmset x0) := by intros; exact of_encode _
theorem vmand : ∀ x0, Statement (.vmand x0) := by intros; exact of_encode _
theorem vmor : ∀ x0, Statement (.vmor x0) := by intros; exact of_encode _
theorem vmnot : ∀ x0, Statement (.vmnot x0) := by intros; exact of_encode _
theorem vmcnt : ∀ x0, Statement (.vmcnt x0) := by intros; exact of_encode _
theorem gsetBlock : ∀ x0 x1, Statement (.gsetBlock x0 x1) := by intros; exact of_encode _
theorem gsetBatch : ∀ x0 x1, Statement (.gsetBatch x0 x1) := by intros; exact of_encode _
theorem gsetWalk : ∀ x0 x1, Statement (.gsetWalk x0 x1) := by intros; exact of_encode _
theorem gsetBar : ∀ x0 x1, Statement (.gsetBar x0 x1) := by intros; exact of_encode _
theorem gload : ∀ x0 x1 x2, Statement (.gload x0 x1 x2) := by intros; exact of_encode _
theorem grule : ∀ x0 x1, Statement (.grule x0 x1) := by intros; exact of_encode _
theorem grow : ∀ x0 x1 x2 x3 x4, Statement (.grow x0 x1 x2 x3 x4) := by intros; exact of_encode _
theorem gseg : ∀ x0 x1 x2 x3 x4, Statement (.gseg x0 x1 x2 x3 x4) := by intros; exact of_encode _
theorem gscat : ∀ x0 x1 x2 x3, Statement (.gscat x0 x1 x2 x3) := by intros; exact of_encode _
theorem walk : ∀ x0 x1 x2 x3 x4, Statement (.walk x0 x1 x2 x3 x4) := by intros; exact of_encode _
theorem sample : ∀ x0 x1 x2 x3 x4, Statement (.sample x0 x1 x2 x3 x4) := by intros; exact of_encode _
theorem gidx : ∀ x0 x1 x2, Statement (.gidx x0 x1 x2) := by intros; exact of_encode _
theorem gidxBd : ∀ x0 x1 x2 x3, Statement (.gidxBd x0 x1 x2 x3) := by intros; exact of_encode _
theorem gmov : ∀ x0, Statement (.gmov x0) := by intros; exact of_encode _
theorem gvadd : ∀ x0, Statement (.gvadd x0) := by intros; exact of_encode _
theorem gvmul : ∀ x0, Statement (.gvmul x0) := by intros; exact of_encode _
theorem gvfma : ∀ x0, Statement (.gvfma x0) := by intros; exact of_encode _
theorem gvcvt : ∀ x0, Statement (.gvcvt x0) := by intros; exact of_encode _
theorem gvld : ∀ x0 x1 x2, Statement (.gvld x0 x1 x2) := by intros; exact of_encode _
theorem gvst : ∀ x0 x1 x2, Statement (.gvst x0 x1 x2) := by intros; exact of_encode _
theorem bld : ∀ x0 x1 x2 x3 x4, Statement (.bld x0 x1 x2 x3 x4) := by intros; exact of_encode _
theorem bst : ∀ x0 x1 x2 x3, Statement (.bst x0 x1 x2 x3) := by intros; exact of_encode _
theorem bfill : ∀ x0 x1 x2, Statement (.bfill x0 x1 x2) := by intros; exact of_encode _
theorem bcpy : ∀ x0 x1 x2, Statement (.bcpy x0 x1 x2) := by intros; exact of_encode _
theorem bamo : ∀ x0 x1 x2 x3 x4 x5, Statement (.bamo x0 x1 x2 x3 x4 x5) := by intros; exact of_encode _
theorem bred : ∀ x0 x1 x2 x3 x4, Statement (.bred x0 x1 x2 x3 x4) := by intros; exact of_encode _
theorem vfpush : ∀ x0, Statement (.vfpush x0) := by intros; exact of_encode _
theorem vfpushn : ∀ x0 x1, Statement (.vfpushn x0 x1) := by intros; exact of_encode _
theorem vfpop : ∀ x0, Statement (.vfpop x0) := by intros; exact of_encode _
theorem vfcnt : ∀ x0 x1, Statement (.vfcnt x0 x1) := by intros; exact of_encode _
theorem svadd : ∀ x0, Statement (.svadd x0) := by intros; exact of_encode _
theorem svfma : ∀ x0, Statement (.svfma x0) := by intros; exact of_encode _
theorem predecode : ∀ x0 x1, Statement (.predecode x0 x1) := by intros; exact of_encode _
theorem regionFreeze : ∀ x0, Statement (.regionFreeze x0) := by intros; exact of_encode _
theorem stallRelease : ∀ x0 x1, Statement (.stallRelease x0 x1) := by intros; exact of_encode _
theorem regionStallResume : ∀ x0, Statement (.regionStallResume x0) := by intros; exact of_encode _
theorem stallTimeout : ∀ x0, Statement (.stallTimeout x0) := by intros; exact of_encode _
theorem startWaitTimeout : ∀ x0, Statement (.startWaitTimeout x0) := by intros; exact of_encode _
theorem queueWaitTimeout : ∀ x0, Statement (.queueWaitTimeout x0) := by intros; exact of_encode _
theorem fifoWaitTimeout : ∀ x0, Statement (.fifoWaitTimeout x0) := by intros; exact of_encode _
theorem resultLanding : ∀ x0, Statement (.resultLanding x0) := by intros; exact of_encode _
theorem pushDelivery : ∀ x0, Statement (.pushDelivery x0) := by intros; exact of_encode _
theorem mmaRowTake : ∀ x0, Statement (.mmaRowTake x0) := by intros; exact of_encode _
theorem mmaRowLanding : ∀ x0, Statement (.mmaRowLanding x0) := by intros; exact of_encode _
theorem mloadLanding : ∀ x0, Statement (.mloadLanding x0) := by intros; exact of_encode _
theorem stripEntryLanding : ∀ x0, Statement (.stripEntryLanding x0) := by intros; exact of_encode _
theorem fifoTransit : ∀ x0, Statement (.fifoTransit x0) := by intros; exact of_encode _
theorem engineOpComplete : ∀ x0, Statement (.engineOpComplete x0) := by intros; exact of_encode _
theorem memoryRequestApply : ∀ x0, Statement (.memoryRequestApply x0) := by intros; exact of_encode _
theorem memoryResponse : ∀ x0, Statement (.memoryResponse x0) := by intros; exact of_encode _
theorem atomicErrorResponse : ∀ x0 x1, Statement (.atomicErrorResponse x0 x1) := by intros; exact of_encode _
theorem atomicTimeout : ∀ x0, Statement (.atomicTimeout x0) := by intros; exact of_encode _
theorem phaseEnd : ∀ x0, Statement (.phaseEnd x0) := by intros; exact of_encode _
theorem taskDispatch : ∀ x0 x1, Statement (.taskDispatch x0 x1) := by intros; exact of_encode _
theorem taskStart : ∀ x0, Statement (.taskStart x0) := by intros; exact of_encode _
theorem taskEnd : ∀ x0, Statement (.taskEnd x0) := by intros; exact of_encode _
theorem planRetire : ∀ x0, Statement (.planRetire x0) := by intros; exact of_encode _
theorem planeSwap : ∀ x0, Statement (.planeSwap x0) := by intros; exact of_encode _
theorem regionStop : ∀ x0, Statement (.regionStop x0) := by intros; exact of_encode _
theorem stubResume : ∀ x0, Statement (.stubResume x0) := by intros; exact of_encode _
theorem debugRequest : ∀ x0 x1 x2 x3, Statement (.debugRequest x0 x1 x2 x3) := by intros; exact of_encode _
theorem yieldRequest : ∀ x0, Statement (.yieldRequest x0) := by intros; exact of_encode _
theorem slackSave : ∀ x0, Statement (.slackSave x0) := by intros; exact of_encode _
theorem elasticYieldSave : ∀ x0, Statement (.elasticYieldSave x0) := by intros; exact of_encode _
theorem slackDistance : ∀ x0, Statement (.slackDistance x0) := by intros; exact of_encode _
theorem forcedSave : ∀ x0, Statement (.forcedSave x0) := by intros; exact of_encode _
theorem slackResume : ∀ x0, Statement (.slackResume x0) := by intros; exact of_encode _
theorem phyLinkLoss : ∀ x0 x1, Statement (.phyLinkLoss x0 x1) := by intros; exact of_encode _
theorem hello : ∀ x0 x1 x2, Statement (.hello x0 x1 x2) := by intros; exact of_encode _
theorem regwrQtail : ∀ x0 x1, Statement (.regwrQtail x0 x1) := by intros; exact of_encode _
theorem regwrQctlStop : ∀ x0 x1, Statement (.regwrQctlStop x0 x1) := by intros; exact of_encode _
theorem regwrQctlErr : ∀ x0 x1, Statement (.regwrQctlErr x0 x1) := by intros; exact of_encode _
theorem regwrQprog : ∀ x0 x1, Statement (.regwrQprog x0 x1) := by intros; exact of_encode _
theorem regrd : ∀ x0 x1, Statement (.regrd x0 x1) := by intros; exact of_encode _
theorem memwr : ∀ x0 x1 x2, Statement (.memwr x0 x1 x2) := by intros; exact of_encode _
theorem memrd : ∀ x0 x1 x2, Statement (.memrd x0 x1 x2) := by intros; exact of_encode _
theorem resp : ∀ x0 x1 x2 x3, Statement (.resp x0 x1 x2 x3) := by intros; exact of_encode _
theorem event : ∀ x0 x1 x2, Statement (.event x0 x1 x2) := by intros; exact of_encode _
theorem ack : ∀ x0 x1, Statement (.ack x0 x1) := by intros; exact of_encode _
theorem ackTimer : ∀ x0, Statement (.ackTimer x0) := by intros; exact of_encode _
theorem messageResend : ∀ x0 x1, Statement (.messageResend x0 x1) := by intros; exact of_encode _
theorem commandConsume : ∀ x0, Statement (.commandConsume x0) := by intros; exact of_encode _
theorem nopCommand : ∀ x0, Statement (.nopCommand x0) := by intros; exact of_encode _
theorem launch : ∀ x0, Statement (.launch x0) := by intros; exact of_encode _
theorem resume : ∀ x0, Statement (.resume x0) := by intros; exact of_encode _
theorem endCommand : ∀ x0, Statement (.endCommand x0) := by intros; exact of_encode _
theorem yield : ∀ x0, Statement (.yield x0) := by intros; exact of_encode _
theorem debug : ∀ x0, Statement (.debug x0) := by intros; exact of_encode _
theorem prio : ∀ x0, Statement (.prio x0) := by intros; exact of_encode _
theorem qcreate : ∀ x0, Statement (.qcreate x0) := by intros; exact of_encode _
theorem qdestroy : ∀ x0, Statement (.qdestroy x0) := by intros; exact of_encode _
theorem ccreate : ∀ x0, Statement (.ccreate x0) := by intros; exact of_encode _
theorem cdestroy : ∀ x0, Statement (.cdestroy x0) := by intros; exact of_encode _
theorem queueSwitchIn : ∀ x0, Statement (.queueSwitchIn x0) := by intros; exact of_encode _
theorem queueSwitchOut : ∀ x0, Statement (.queueSwitchOut x0) := by intros; exact of_encode _
theorem regionDispatch : ∀ x0, Statement (.regionDispatch x0) := by intros; exact of_encode _
theorem ageStep : ∀ x0, Statement (.ageStep x0) := by intros; exact of_encode _
theorem quantumExpiry : ∀ x0, Statement (.quantumExpiry x0) := by intros; exact of_encode _
theorem leaseAcquire : ∀ x0, Statement (.leaseAcquire x0) := by intros; exact of_encode _
theorem rfe1Read : Statement .rfe1Read := of_encode _
theorem rfackRetry : ∀ x0, Statement (.rfackRetry x0) := by intros; exact of_encode _
theorem rfackFail : ∀ x0, Statement (.rfackFail x0) := by intros; exact of_encode _
theorem tileRead : Statement .tileRead := of_encode _
theorem map : Statement .map := of_encode _
theorem mapz : Statement .mapz := of_encode _
theorem discard : Statement .discard := of_encode _
theorem reclaim : Statement .reclaim := of_encode _
theorem unmap : Statement .unmap := of_encode _
theorem migrate : Statement .migrate := of_encode _
theorem fwdclr : Statement .fwdclr := of_encode _
theorem install : Statement .install := of_encode _
theorem remove : Statement .remove := of_encode _
theorem migrationSectorCopy : ∀ x0, Statement (.migrationSectorCopy x0) := by intros; exact of_encode _
theorem switchover : ∀ x0, Statement (.switchover x0) := by intros; exact of_encode _
theorem staleFrame : ∀ x0, Statement (.staleFrame x0) := by intros; exact of_encode _
theorem peerInvalidation : ∀ x0 x1, Statement (.peerInvalidation x0 x1) := by intros; exact of_encode _
theorem invalidationAck : ∀ x0 x1, Statement (.invalidationAck x0 x1) := by intros; exact of_encode _
theorem fwdinvSelect : ∀ x0, Statement (.fwdinvSelect x0) := by intros; exact of_encode _
theorem peerPinRequest : ∀ x0 x1 x2 x3 x4 x5, Statement (.peerPinRequest x0 x1 x2 x3 x4 x5) := by intros; exact of_encode _
theorem peerLeaseTimeout : ∀ x0, Statement (.peerLeaseTimeout x0) := by intros; exact of_encode _
theorem peerRequest : ∀ x0, Statement (.peerRequest x0) := by intros; exact of_encode _
theorem peerAccessTimeout : ∀ x0, Statement (.peerAccessTimeout x0) := by intros; exact of_encode _
theorem roleChangeStart : ∀ x0, Statement (.roleChangeStart x0) := by intros; exact of_encode _
theorem roleChangeAbort : Statement .roleChangeAbort := of_encode _
theorem roleDrainDone : Statement .roleDrainDone := of_encode _
theorem gateRequest : ∀ x0 x1, Statement (.gateRequest x0 x1) := by intros; exact of_encode _
theorem gateApply : ∀ x0, Statement (.gateApply x0) := by intros; exact of_encode _
theorem deviceEventDeliver : Statement .deviceEventDeliver := of_encode _
theorem lighthouseAnswerDeliver : Statement .lighthouseAnswerDeliver := of_encode _
theorem markfail : ∀ x0, Statement (.markfail x0) := by intros; exact of_encode _
theorem clearfail : ∀ x0, Statement (.clearfail x0) := by intros; exact of_encode _
theorem grant : ∀ x0, Statement (.grant x0) := by intros; exact of_encode _
theorem hbeat : ∀ x0, Statement (.hbeat x0) := by intros; exact of_encode _
theorem margin : ∀ x0, Statement (.margin x0) := by intros; exact of_encode _
theorem retrain : ∀ x0, Statement (.retrain x0) := by intros; exact of_encode _
theorem setboot : ∀ x0, Statement (.setboot x0) := by intros; exact of_encode _
theorem quote : ∀ x0, Statement (.quote x0) := by intros; exact of_encode _
theorem heartbeatTimeout : Statement .heartbeatTimeout := of_encode _
theorem forcedLevelTimeout : Statement .forcedLevelTimeout := of_encode _
theorem relockEnd : Statement .relockEnd := of_encode _
theorem powerOnReset : Statement .powerOnReset := of_encode _
theorem moduleTrain : ∀ x0 x1 x2, Statement (.moduleTrain x0 x1 x2) := by intros; exact of_encode _
theorem coreTrap : ∀ x0 x1 x2, Statement (.coreTrap x0 x1 x2) := by intros; exact of_encode _
theorem coreRestart : Statement .coreRestart := of_encode _
theorem harbourRollback : Statement .harbourRollback := of_encode _
theorem clockStretch : Statement .clockStretch := of_encode _
theorem overcurrent : ∀ x0, Statement (.overcurrent x0) := by intros; exact of_encode _
theorem thermalTrip : ∀ x0 x1 x2, Statement (.thermalTrip x0 x1 x2) := by intros; exact of_encode _
theorem sensorEvaluation : ∀ x0, Statement (.sensorEvaluation x0) := by intros; exact of_encode _
theorem wlimEvaluation : ∀ x0 x1 x2, Statement (.wlimEvaluation x0 x1 x2) := by intros; exact of_encode _
theorem hoteRead : ∀ x0, Statement (.hoteRead x0) := by intros; exact of_encode _
theorem ebbDue : Statement .ebbDue := of_encode _
theorem ebbYield : Statement .ebbYield := of_encode _
theorem ebb : ∀ x0, Statement (.ebb x0) := by intros; exact of_encode _
theorem pkgidWrite : ∀ x0, Statement (.pkgidWrite x0) := by intros; exact of_encode _
theorem reachLinkDown : ∀ x0, Statement (.reachLinkDown x0) := by intros; exact of_encode _
theorem collPartial : ∀ x0, Statement (.collPartial x0) := by intros; exact of_encode _
theorem collAbort : ∀ x0 x1 x2, Statement (.collAbort x0 x1 x2) := by intros; exact of_encode _
theorem collRoundTimeout : ∀ x0, Statement (.collRoundTimeout x0) := by intros; exact of_encode _
theorem collRoundEnd : ∀ x0, Statement (.collRoundEnd x0) := by intros; exact of_encode _
theorem heldMessageDiscard : Statement .heldMessageDiscard := of_encode _
theorem pcsrrTimeout : ∀ x0, Statement (.pcsrrTimeout x0) := by intros; exact of_encode _
theorem unassignedOpcode : ∀ x0, Statement (.unassignedOpcode x0) := by intros; exact of_encode _
theorem claexFrameDrop : ∀ x0, Statement (.claexFrameDrop x0) := by intros; exact of_encode _
theorem hostPortLinkChange : ∀ x0, Statement (.hostPortLinkChange x0) := by intros; exact of_encode _
theorem packagePowerLoss : Statement .packagePowerLoss := of_encode _
theorem mwaitTimeout : ∀ x0, Statement (.mwaitTimeout x0) := by intros; exact of_encode _

end Sys2Proof.Laws.IdleField
end

