-- ==== Sys2Proof/Tests/Slice0.lean ====
section
/-! SUPPORT. The package's own tests: words written out from the spec's encoding tables, ill-formed terms that the checks
refuse, single steps with results from the spec, and a state and operands that meet the hypotheses of each statement. -/

set_option maxRecDepth 100000

namespace Sys2Proof.Tests

open Sys2Proof.Machine

/-! ## Words written out: OP from Tables 5 to 11, fields from the formats of R158 -/

/-- R167, R168, Table 5: words written out from the tables of OP and the formats of R158. -/
theorem test_decode_common :
    decode .s 0x01C08000FFFFFFFF = .ok (.waitc 0xFFFFFFFF)
    ∧ decode .gs 0x0001000000000000 = .ok (.endw)
    ∧ decode .vn 0x0041800000000000 = .ok (.alignf)
    ∧ decode .mx 0x0042000000000000 = .ok (.start)
    ∧ decode .s 0x0002800000008001 = .ok (.slack 0x8001)
    ∧ decode .st 0x0003000000000005 = .ok (.turn 5)
    ∧ decode .lw 0x0003800000000000 = .ok (.nop)
    ∧ decode .lw 0x0004000080000008 = .ok (.jmp 0x80000008)
    ∧ decode .st 0x0004BFFE00000001 = .ok (.loop 3 0xFFE 1) := by decide

/-- R164, R169, R170: words written out from the tables of OP and the formats of R158. -/
theorem test_decode_control :
    decode .s 0x00050A0000000010 = .ok (.call 5 16)
    ∧ decode .s 0x0005FE0000000000 = .ok (.ret 63)
    ∧ decode .s 0x00060215FFFFFFFF = .ok (.br 1 2 5 0xFFFFFFFF)
    ∧ decode .s 0x0006873FFC008009 = .ok (.brt 3 4 0xFFF 2 9)
    ∧ decode .s 0x0007000000008021 = .ok (.trap 0x8021)
    ∧ decode .s 0x0007800000000000 = .ok (.rett)
    ∧ decode .lw 0x0005160300000006 = .ok (.brq 11 3 6) := by decide

/-- R169, Table 6: words written out from the tables of OP and the formats of R158. -/
theorem test_decode_scalarArith :
    decode .s 0x00087E1420000000 = .ok (.add 63 2 33)
    ∧ decode .s 0x0008FE1420000000 = .ok (.sub 63 2 33)
    ∧ decode .s 0x00097E1420000000 = .ok (.mul 63 2 33)
    ∧ decode .s 0x0009FE1420000000 = .ok (.mulh 63 2 33)
    ∧ decode .s 0x000A7E1420000000 = .ok (.mulhu 63 2 33)
    ∧ decode .s 0x000AFE1420000000 = .ok (.div 63 2 33)
    ∧ decode .s 0x000B7E1420000000 = .ok (.divu 63 2 33)
    ∧ decode .s 0x000BFE1420000000 = .ok (.rem 63 2 33)
    ∧ decode .s 0x000C7E1420000000 = .ok (.remu 63 2 33)
    ∧ decode .s 0x000CFE1420000000 = .ok (.and 63 2 33)
    ∧ decode .s 0x000D7E1420000000 = .ok (.or 63 2 33)
    ∧ decode .s 0x000DFE1420000000 = .ok (.xor 63 2 33)
    ∧ decode .s 0x000E7E1420000000 = .ok (.andn 63 2 33) := by decide

/-- R169, Table 6: words written out from the tables of OP and the formats of R158. -/
theorem test_decode_scalarShift :
    decode .s 0x000EFE1420000000 = .ok (.sll 63 2 33)
    ∧ decode .s 0x000F7E1420000000 = .ok (.srl 63 2 33)
    ∧ decode .s 0x000FFE1420000000 = .ok (.sra 63 2 33)
    ∧ decode .s 0x00107E1420000000 = .ok (.ror 63 2 33)
    ∧ decode .s 0x0010FE1420000000 = .ok (.min 63 2 33)
    ∧ decode .s 0x00117E1420000000 = .ok (.max 63 2 33)
    ∧ decode .s 0x0011FE1420000000 = .ok (.minu 63 2 33)
    ∧ decode .s 0x00127E1420000000 = .ok (.maxu 63 2 33)
    ∧ decode .s 0x0012FE1420000000 = .ok (.slt 63 2 33)
    ∧ decode .s 0x00137E1420000000 = .ok (.sltu 63 2 33)
    ∧ decode .s 0x001C7E1420000000 = .ok (.tamk 63 2 33)
    ∧ decode .s 0x00138B4000000000 = .ok (.clz 5 40)
    ∧ decode .s 0x00140B4000000000 = .ok (.ctz 5 40)
    ∧ decode .s 0x00148B4000000000 = .ok (.popc 5 40) := by decide

/-- R169, R186, R187, R189, R190: words written out from the tables of OP and the formats of R158. -/
theorem test_decode_scalarImm :
    decode .s 0x00150B4080000001 = .ok (.addi 5 40 0x80000001)
    ∧ decode .s 0x00158B4080000001 = .ok (.andi 5 40 0x80000001)
    ∧ decode .s 0x00160B4080000001 = .ok (.ori 5 40 0x80000001)
    ∧ decode .s 0x00168B4080000001 = .ok (.xori 5 40 0x80000001)
    ∧ decode .s 0x00190B4080000001 = .ok (.slti 5 40 0x80000001)
    ∧ decode .s 0x00198B4080000001 = .ok (.sltiu 5 40 0x80000001)
    ∧ decode .s 0x001A0B4080000001 = .ok (.muli 5 40 0x80000001)
    ∧ decode .s 0x00170B400000003F = .ok (.slli 5 40 63)
    ∧ decode .s 0x00178B400000003F = .ok (.srli 5 40 63)
    ∧ decode .s 0x00180B400000003F = .ok (.srai 5 40 63)
    ∧ decode .s 0x00188B400000003F = .ok (.rori 5 40 63)
    ∧ decode .s 0x001A8F8000000001 = .ok (.li 7 1 0x8000000001)
    ∧ decode .s 0x001B0E0000FFFFFF = .ok (.lih 7 0xFFFFFF)
    ∧ decode .s 0x001C821060040000 = .ok (.tcoord 1 2 3 4)
    ∧ decode .s 0x001D021000140000 = .ok (.tdim 1 2 20) := by decide

/-- R169, R191 to R197: words written out from the tables of OP and the formats of R158. -/
theorem test_decode_scalarMem :
    decode .s 0x0020021600000008 = .ok (.ld 1 2 6 8)
    ∧ decode .s 0x00208213FFFFFFF8 = .ok (.st 1 2 3 0xFFFFFFF8)
    ∧ decode .s 0x0021021300000008 = .ok (.ldAcq 1 2 3 8)
    ∧ decode .s 0x0021821200000004 = .ok (.stRel 1 2 2 4)
    ∧ decode .s 0x0022021060070001 = .ok (.amo 1 2 3 7 0 1)
    ∧ decode .s 0x0022821062050200 = .ok (.cas 1 2 3 4 5 2 0)
    ∧ decode .s 0x0023001060000000 = .ok (.faddw 2 3)
    ∧ decode .s 0x0023821000000000 = .ok (.faddr 1 2) := by decide

/-- R169, R204 to R210: words written out from the tables of OP and the formats of R158. -/
theorem test_decode_scalarSync :
    decode .s 0x0024001000001800 = .ok (.phase 2 3)
    ∧ decode .s 0x0024800000002000 = .ok (.fence 4)
    ∧ decode .s 0x0025021060000001 = .ok (.bar 1 2 3 1)
    ∧ decode .s 0x002580000000045F = .ok (.tokw 1 2 31)
    ∧ decode .s 0x0026000000000000 = .ok (.synci)
    ∧ decode .s 0x00280010000F0000 = .ok (.qpush 15 2)
    ∧ decode .s 0x0028820000030000 = .ok (.qpop 3 1 0)
    ∧ decode .s 0x0029001000090000 = .ok (.qpeek 9 0 2)
    ∧ decode .s 0x0029820000090000 = .ok (.qcnt 9 1) := by decide

/-- R169, R211 to R214, R351, R352: words written out from the tables of OP and the formats of R158. -/
theorem test_decode_engine :
    decode .s 0x002A080000448443 = .ok (.engJoin 4 { kd := 9, k1 := 1, k2 := 2, k3 := 3 })
    ∧ decode .s 0x002A0828C1048443 = .ok (.engTload 4 5 6 { kd := 9, k1 := 1, k2 := 2, k3 := 3 })
    ∧ decode .s 0x002A0828C1448443 = .ok (.engTcopy 4 5 6 { kd := 9, k1 := 1, k2 := 2, k3 := 3 })
    ∧ decode .s 0x002A0828C1848443 = .ok (.engTstore 4 5 6 { kd := 9, k1 := 1, k2 := 2, k3 := 3 })
    ∧ decode .s 0x002A0828C2048443 = .ok (.engTfill 4 5 6 { kd := 9, k1 := 1, k2 := 2, k3 := 3 })
    ∧ decode .s 0x002A801000000000 = .ok (.fpush 2)
    ∧ decode .s 0x002C020000020000 = .ok (.rdtide 1 2)
    ∧ decode .s 0x002C820000000ABC = .ok (.csrr 1 0xABC)
    ∧ decode .s 0x002D001000000ABC = .ok (.csrw 0xABC 2)
    ∧ decode .s 0x00300200000FE123 = .ok (.pcsrr 1 0xFE 0x123)
    ∧ decode .s 0x00308010000FE123 = .ok (.pcsrw 0xFE 0x123 2)
    ∧ decode .s 0x0031021060000000 = .ok (.mboxs 1 2 3)
    ∧ decode .s 0x0031820000000000 = .ok (.mboxr 1)
    ∧ decode .s 0x003200000000004D = .ok (.mwait 77) := by decide

/-- R170, R228, Table 7: words written out from the tables of OP and the formats of R158. -/
theorem test_decode_access :
    decode .lw 0x000870140060045F = .ok (.dset 7 5 6 { kd := 0, k1 := 1, k2 := 2, k3 := 31 })
    ∧ decode .lw 0x0008F0000000045F = .ok (.dclr 7 { kd := 0, k1 := 1, k2 := 2, k3 := 31 })
    ∧ decode .lw 0x000970140000045F = .ok (.dld 7 5 { kd := 0, k1 := 1, k2 := 2, k3 := 31 })
    ∧ decode .lw 0x0009ED0000048443 = .ok (.rdq 6 13 { kd := 9, k1 := 1, k2 := 2, k3 := 3 })
    ∧ decode .lw 0x000A603400048443 = .ok (.rds 6 13 { kd := 9, k1 := 1, k2 := 2, k3 := 3 })
    ∧ decode .lw 0x000AED0000048443 = .ok (.wrq 6 13 { kd := 9, k1 := 1, k2 := 2, k3 := 3 })
    ∧ decode .lw 0x000B603400048443 = .ok (.wrs 6 13 { kd := 9, k1 := 1, k2 := 2, k3 := 3 })
    ∧ decode .lw 0x000BE00000548443 = .ok (.cpy 6 5 { kd := 9, k1 := 1, k2 := 2, k3 := 3 })
    ∧ decode .lw 0x000C2330D1248443 = .ok (.gath 2 3 12 13 0x12 { kd := 9, k1 := 1, k2 := 2, k3 := 3 })
    ∧ decode .lw 0x000CA330D2148443 = .ok (.scat 2 3 12 13 0x21 { kd := 9, k1 := 1, k2 := 2, k3 := 3 })
    ∧ decode .lw 0x000D200000048443 = .ok (.pref 2 { kd := 9, k1 := 1, k2 := 2, k3 := 3 })
    ∧ decode .lw 0x000D83000C80045F = .ok (.push 3 200 { kd := 0, k1 := 1, k2 := 2, k3 := 31 })
    ∧ decode .lw 0x000D900C0C80045F = .ok (.pushR 3 200 { kd := 0, k1 := 1, k2 := 2, k3 := 31 })
    ∧ decode .lw 0x000E0F000080045F = .ok (.movq 8 15 { kd := 0, k1 := 1, k2 := 2, k3 := 31 })
    ∧ decode .lw 0x000E80209000045F = .ok (.arrv 8 9 { kd := 0, k1 := 1, k2 := 2, k3 := 31 })
    ∧ decode .lw 0x000F002090048443 = .ok (.bwait 8 9 { kd := 9, k1 := 1, k2 := 2, k3 := 3 }) := by decide

/-- R170, R345: words written out from the tables of OP and the formats of R158. -/
theorem test_decode_collective :
    decode .lw 0x001010A004A48443 = .ok (.collAr 1 2 1 1 40 { kd := 9, k1 := 1, k2 := 2, k3 := 3 })
    ∧ decode .lw 0x001090A00A248443 = .ok (.collRs 1 2 4 2 40 { kd := 9, k1 := 1, k2 := 2, k3 := 3 })
    ∧ decode .lw 0x001110A00C248443 = .ok (.collAg 1 2 3 40 { kd := 9, k1 := 1, k2 := 2, k3 := 3 })
    ∧ decode .lw 0x001190A29C248443 = .ok (.collBc 1 2 3 40 41 { kd := 9, k1 := 1, k2 := 2, k3 := 3 })
    ∧ decode .lw 0x001210A00C248443 = .ok (.collAa 1 2 3 40 { kd := 9, k1 := 1, k2 := 2, k3 := 3 })
    ∧ decode .lw 0x001280A000048443 = .ok (.collAb 40 { kd := 9, k1 := 1, k2 := 2, k3 := 3 }) := by decide

/-- R163, R171, Table 8: words written out from the tables of OP and the formats of R158. -/
theorem test_decode_matrix :
    decode .mx 0x0008005800348443 = .ok (.mload 5 { stamp := 0x8003, toks := { kd := 9, k1 := 1, k2 := 2, k3 := 3 } })
    ∧ decode .mx 0x000888180030045F = .ok (.msel 0x81 { stamp := 0x8003, toks := { kd := 0, k1 := 1, k2 := 2, k3 := 31 } })
    ∧ decode .mx 0x0009005800348443 = .ok (.mma 5 { stamp := 0x8003, toks := { kd := 9, k1 := 1, k2 := 2, k3 := 3 } })
    ∧ decode .mx 0x0009805800348443 = .ok (.mmas 5 { stamp := 0x8003, toks := { kd := 9, k1 := 1, k2 := 2, k3 := 3 } })
    ∧ decode .mx 0x000A081800348443 = .ok (.zclr 0x81 { stamp := 0x8003, toks := { kd := 9, k1 := 1, k2 := 2, k3 := 3 } })
    ∧ decode .mx 0x000AEB1800348443 = .ok (.zrd 6 5 17 { stamp := 0x8003, toks := { kd := 9, k1 := 1, k2 := 2, k3 := 3 } })
    ∧ decode .mx 0x000B6B1800348443 = .ok (.zwr 6 5 17 { stamp := 0x8003, toks := { kd := 9, k1 := 1, k2 := 2, k3 := 3 } })
    ∧ decode .mx 0x000C6B1800348443 = .ok (.zrdB16 6 5 17 { stamp := 0x8003, toks := { kd := 9, k1 := 1, k2 := 2, k3 := 3 } })
    ∧ decode .mx 0x000BEC3800348443 = .ok (.zpush 6 0xC3 { stamp := 0x8003, toks := { kd := 9, k1 := 1, k2 := 2, k3 := 3 } })
    ∧ decode .mx 0x000CEC3800348443 = .ok (.zpushB16 6 0xC3 { stamp := 0x8003, toks := { kd := 9, k1 := 1, k2 := 2, k3 := 3 } }) := by decide

/-- R172, R271, Table 9: words written out from the tables of OP and the formats of R158. -/
theorem test_decode_vecFloat :
    decode .vn 0x00083F4060016830 = .ok (.vadd { d := 31, a := 40, b := 3, c := 0, sub := 0, t := 1, rm := 1, msk := 5, peek := 1, zm := 1, part := 0, sat := 0, u := 0 })
    ∧ decode .vn 0x0008BF4060016830 = .ok (.vsub { d := 31, a := 40, b := 3, c := 0, sub := 0, t := 1, rm := 1, msk := 5, peek := 1, zm := 1, part := 0, sat := 0, u := 0 })
    ∧ decode .vn 0x00093F4060016830 = .ok (.vmul { d := 31, a := 40, b := 3, c := 0, sub := 0, t := 1, rm := 1, msk := 5, peek := 1, zm := 1, part := 0, sat := 0, u := 0 })
    ∧ decode .vn 0x000ABF4060016830 = .ok (.vdiv { d := 31, a := 40, b := 3, c := 0, sub := 0, t := 1, rm := 1, msk := 5, peek := 1, zm := 1, part := 0, sat := 0, u := 0 })
    ∧ decode .vn 0x0009D01E1480D080 = .ok (.vfma { d := 40, a := 3, b := 48, c := 41, sub := 0, t := 0, rm := 3, msk := 2, peek := 4, zm := 0, part := 0, sat := 0, u := 0 })
    ∧ decode .vn 0x000A501E1480D080 = .ok (.vfms { d := 40, a := 3, b := 48, c := 41, sub := 0, t := 0, rm := 3, msk := 2, peek := 4, zm := 0, part := 0, sat := 0, u := 0 })
    ∧ decode .vn 0x000B02100001B800 = .ok (.vsqrt { d := 1, a := 2, b := 0, c := 0, sub := 0, t := 1, rm := 2, msk := 7, peek := 0, zm := 0, part := 0, sat := 0, u := 0 })
    ∧ decode .vn 0x000B8217E0010810 = .ok (.vmin { d := 1, a := 2, b := 63, c := 0, sub := 0, t := 1, rm := 0, msk := 1, peek := 0, zm := 1, part := 0, sat := 0, u := 0 })
    ∧ decode .vn 0x000C0217E0010810 = .ok (.vmax { d := 1, a := 2, b := 63, c := 0, sub := 0, t := 1, rm := 0, msk := 1, peek := 0, zm := 1, part := 0, sat := 0, u := 0 })
    ∧ decode .vn 0x000C821000000800 = .ok (.vabs { d := 1, a := 2, b := 0, c := 0, sub := 0, t := 0, rm := 0, msk := 1, peek := 0, zm := 0, part := 0, sat := 0, u := 0 })
    ∧ decode .vn 0x000D021000000800 = .ok (.vneg { d := 1, a := 2, b := 0, c := 0, sub := 0, t := 0, rm := 0, msk := 1, peek := 0, zm := 0, part := 0, sat := 0, u := 0 }) := by decide

/-- R172, R284 to R288: words written out from the tables of OP and the formats of R158. -/
theorem test_decode_vecFun :
    decode .vn 0x0016821000014010 = .ok (.vrcp { d := 1, a := 2, b := 0, c := 0, sub := 0, t := 1, rm := 1, msk := 0, peek := 0, zm := 1, part := 0, sat := 0, u := 0 })
    ∧ decode .vn 0x0017021000014010 = .ok (.vrsqrt { d := 1, a := 2, b := 0, c := 0, sub := 0, t := 1, rm := 1, msk := 0, peek := 0, zm := 1, part := 0, sat := 0, u := 0 })
    ∧ decode .vn 0x0017821000014010 = .ok (.vexp2 { d := 1, a := 2, b := 0, c := 0, sub := 0, t := 1, rm := 1, msk := 0, peek := 0, zm := 1, part := 0, sat := 0, u := 0 })
    ∧ decode .vn 0x0018021000014010 = .ok (.vlog2 { d := 1, a := 2, b := 0, c := 0, sub := 0, t := 1, rm := 1, msk := 0, peek := 0, zm := 1, part := 0, sat := 0, u := 0 })
    ∧ decode .vn 0x0019821000014010 = .ok (.vsin { d := 1, a := 2, b := 0, c := 0, sub := 0, t := 1, rm := 1, msk := 0, peek := 0, zm := 1, part := 0, sat := 0, u := 0 })
    ∧ decode .vn 0x001A021000014010 = .ok (.vcos { d := 1, a := 2, b := 0, c := 0, sub := 0, t := 1, rm := 1, msk := 0, peek := 0, zm := 1, part := 0, sat := 0, u := 0 })
    ∧ decode .vn 0x0018821000001800 = .ok (.vtanh { d := 1, a := 2, b := 0, c := 0, sub := 0, t := 0, rm := 0, msk := 3, peek := 0, zm := 0, part := 0, sat := 0, u := 0 })
    ∧ decode .vn 0x0019021000001800 = .ok (.vsigm { d := 1, a := 2, b := 0, c := 0, sub := 0, t := 0, rm := 0, msk := 3, peek := 0, zm := 0, part := 0, sat := 0, u := 0 })
    ∧ decode .vn 0x001AC21000005800 = .ok (.vredsum { d := 33, a := 2, b := 0, c := 0, sub := 0, t := 0, rm := 1, msk := 3, peek := 0, zm := 0, part := 0, sat := 0, u := 0 })
    ∧ decode .vn 0x001B421000050001 = .ok (.vredmax { d := 33, a := 2, b := 0, c := 0, sub := 0, t := 5, rm := 0, msk := 0, peek := 0, zm := 0, part := 0, sat := 0, u := 1 })
    ∧ decode .vn 0x001BC21000050001 = .ok (.vredmin { d := 33, a := 2, b := 0, c := 0, sub := 0, t := 5, rm := 0, msk := 0, peek := 0, zm := 0, part := 0, sat := 0, u := 1 }) := by decide

/-- R172, R278, R279, R300, R301: words written out from the tables of OP and the formats of R158. -/
theorem test_decode_vecMask :
    decode .vn 0x000D8E1060061001 = .ok (.vcmpeq { d := 7, a := 2, b := 3, c := 0, sub := 0, t := 6, rm := 0, msk := 2, peek := 0, zm := 0, part := 0, sat := 0, u := 1 })
    ∧ decode .vn 0x000E0E1060061001 = .ok (.vcmpne { d := 7, a := 2, b := 3, c := 0, sub := 0, t := 6, rm := 0, msk := 2, peek := 0, zm := 0, part := 0, sat := 0, u := 1 })
    ∧ decode .vn 0x000E8E1060061001 = .ok (.vcmplt { d := 7, a := 2, b := 3, c := 0, sub := 0, t := 6, rm := 0, msk := 2, peek := 0, zm := 0, part := 0, sat := 0, u := 1 })
    ∧ decode .vn 0x000F0E1060061001 = .ok (.vcmple { d := 7, a := 2, b := 3, c := 0, sub := 0, t := 6, rm := 0, msk := 2, peek := 0, zm := 0, part := 0, sat := 0, u := 1 })
    ∧ decode .vn 0x000F821060021000 = .ok (.vsel { d := 1, a := 2, b := 3, c := 0, sub := 0, t := 2, rm := 0, msk := 2, peek := 0, zm := 0, part := 0, sat := 0, u := 0 })
    ∧ decode .vn 0x00240F9000140000 = .ok (.vmset { d := 7, a := 50, b := 0, c := 0, sub := 2, t := 4, rm := 0, msk := 0, peek := 0, zm := 0, part := 0, sat := 0, u := 0 })
    ∧ decode .vn 0x00248E0840000000 = .ok (.vmand { d := 7, a := 1, b := 2, c := 0, sub := 0, t := 0, rm := 0, msk := 0, peek := 0, zm := 0, part := 0, sat := 0, u := 0 })
    ∧ decode .vn 0x00250E0840000000 = .ok (.vmor { d := 7, a := 1, b := 2, c := 0, sub := 0, t := 0, rm := 0, msk := 0, peek := 0, zm := 0, part := 0, sat := 0, u := 0 })
    ∧ decode .vn 0x00258E0800000000 = .ok (.vmnot { d := 7, a := 1, b := 0, c := 0, sub := 0, t := 0, rm := 0, msk := 0, peek := 0, zm := 0, part := 0, sat := 0, u := 0 })
    ∧ decode .vn 0x0026403800060000 = .ok (.vmcnt { d := 32, a := 7, b := 0, c := 0, sub := 0, t := 6, rm := 0, msk := 0, peek := 0, zm := 0, part := 0, sat := 0, u := 0 }) := by decide

/-- R172, R280 to R282: words written out from the tables of OP and the formats of R158. -/
theorem test_decode_vecInt :
    decode .vn 0x0010021060051010 = .ok (.vand { d := 1, a := 2, b := 3, c := 0, sub := 0, t := 5, rm := 0, msk := 2, peek := 0, zm := 1, part := 0, sat := 0, u := 0 })
    ∧ decode .vn 0x0010821060051010 = .ok (.vor { d := 1, a := 2, b := 3, c := 0, sub := 0, t := 5, rm := 0, msk := 2, peek := 0, zm := 1, part := 0, sat := 0, u := 0 })
    ∧ decode .vn 0x0011021060051010 = .ok (.vxor { d := 1, a := 2, b := 3, c := 0, sub := 0, t := 5, rm := 0, msk := 2, peek := 0, zm := 1, part := 0, sat := 0, u := 0 })
    ∧ decode .vn 0x0012021060051010 = .ok (.vshl { d := 1, a := 2, b := 3, c := 0, sub := 0, t := 5, rm := 0, msk := 2, peek := 0, zm := 1, part := 0, sat := 0, u := 0 })
    ∧ decode .vn 0x0012821060051010 = .ok (.vshr { d := 1, a := 2, b := 3, c := 0, sub := 0, t := 5, rm := 0, msk := 2, peek := 0, zm := 1, part := 0, sat := 0, u := 0 })
    ∧ decode .vn 0x0013021060051010 = .ok (.vsra { d := 1, a := 2, b := 3, c := 0, sub := 0, t := 5, rm := 0, msk := 2, peek := 0, zm := 1, part := 0, sat := 0, u := 0 })
    ∧ decode .vn 0x0011821000060000 = .ok (.vnot { d := 1, a := 2, b := 0, c := 0, sub := 0, t := 6, rm := 0, msk := 0, peek := 0, zm := 0, part := 0, sat := 0, u := 0 })
    ∧ decode .vn 0x0013821060040003 = .ok (.viadd { d := 1, a := 2, b := 3, c := 0, sub := 0, t := 4, rm := 0, msk := 0, peek := 0, zm := 0, part := 0, sat := 1, u := 1 })
    ∧ decode .vn 0x0014021060040003 = .ok (.visub { d := 1, a := 2, b := 3, c := 0, sub := 0, t := 4, rm := 0, msk := 0, peek := 0, zm := 0, part := 0, sat := 1, u := 1 })
    ∧ decode .vn 0x0014821060040003 = .ok (.vimul { d := 1, a := 2, b := 3, c := 0, sub := 0, t := 4, rm := 0, msk := 0, peek := 0, zm := 0, part := 0, sat := 1, u := 1 })
    ∧ decode .vn 0x0015021060040001 = .ok (.vimin { d := 1, a := 2, b := 3, c := 0, sub := 0, t := 4, rm := 0, msk := 0, peek := 0, zm := 0, part := 0, sat := 0, u := 1 })
    ∧ decode .vn 0x0015821060040001 = .ok (.vimax { d := 1, a := 2, b := 3, c := 0, sub := 0, t := 4, rm := 0, msk := 0, peek := 0, zm := 0, part := 0, sat := 0, u := 1 }) := by decide

/-- R172, R283, R289 to R299: words written out from the tables of OP and the formats of R158. -/
theorem test_decode_vecMove :
    decode .vn 0x0016021000284005 = .ok (.vcvt { d := 1, a := 2, b := 0, c := 0, sub := 5, t := 0, rm := 1, msk := 0, peek := 0, zm := 0, part := 1, sat := 0, u := 1 })
    ∧ decode .vn 0x001C021060060000 = .ok (.vperm { d := 1, a := 2, b := 3, c := 0, sub := 0, t := 6, rm := 0, msk := 0, peek := 0, zm := 0, part := 0, sat := 0, u := 0 })
    ∧ decode .vn 0x001C821640060000 = .ok (.vbcast { d := 1, a := 2, b := 50, c := 0, sub := 0, t := 6, rm := 0, msk := 0, peek := 0, zm := 0, part := 0, sat := 0, u := 0 })
    ∧ decode .vn 0x001D0216400E0000 = .ok (.vrot { d := 1, a := 2, b := 50, c := 0, sub := 1, t := 6, rm := 0, msk := 0, peek := 0, zm := 0, part := 0, sat := 0, u := 0 })
    ∧ decode .vn 0x001DC21640040000 = .ok (.vmov { d := 33, a := 2, b := 50, c := 0, sub := 0, t := 4, rm := 0, msk := 0, peek := 0, zm := 0, part := 0, sat := 0, u := 0 })
    ∧ decode .vn 0x001E3F90FFFFFF00 = .ok (.vld 31 50 0xFFFFFF00)
    ∧ decode .vn 0x001EBF9000000100 = .ok (.vst 31 50 256)
    ∧ decode .vn 0x001F039000050000 = .ok (.vidx { d := 1, a := 50, b := 0, c := 0, sub := 0, t := 5, rm := 0, msk := 0, peek := 0, zm := 0, part := 0, sat := 0, u := 0 })
    ∧ decode .vn 0x001F86010000FFFF = .ok (.vli 3 1 0xFFFF)
    ∧ decode .vn 0x0020021060074000 = .ok (.dot16 { d := 1, a := 2, b := 3, c := 0, sub := 0, t := 7, rm := 1, msk := 0, peek := 0, zm := 0, part := 0, sat := 0, u := 0 })
    ∧ decode .vn 0x0020821000110000 = .ok (.vquant { d := 1, a := 2, b := 0, c := 0, sub := 2, t := 1, rm := 0, msk := 0, peek := 0, zm := 0, part := 0, sat := 0, u := 0 })
    ∧ decode .vn 0x0021021000094000 = .ok (.vdeq { d := 1, a := 2, b := 0, c := 0, sub := 1, t := 1, rm := 1, msk := 0, peek := 0, zm := 0, part := 0, sat := 0, u := 0 })
    ∧ decode .vn 0x0021821000010800 = .ok (.vnmean { d := 1, a := 2, b := 0, c := 0, sub := 0, t := 1, rm := 0, msk := 1, peek := 0, zm := 0, part := 0, sat := 0, u := 0 })
    ∧ decode .vn 0x0022021060010800 = .ok (.vnvar { d := 1, a := 2, b := 3, c := 0, sub := 0, t := 1, rm := 0, msk := 1, peek := 0, zm := 0, part := 0, sat := 0, u := 0 })
    ∧ decode .vn 0x0022821062010010 = .ok (.vnapply { d := 1, a := 2, b := 3, c := 4, sub := 0, t := 1, rm := 0, msk := 0, peek := 0, zm := 1, part := 0, sat := 0, u := 0 }) := by decide

/-- R173, R304, Table 10: words written out from the tables of OP and the formats of R158. -/
theorem test_decode_gather :
    decode .gs 0x000801A80000045F = .ok (.gsetBlock 5 { kd := 0, k1 := 1, k2 := 2, k3 := 31 })
    ∧ decode .gs 0x000801A80040045F = .ok (.gsetBatch 5 { kd := 0, k1 := 1, k2 := 2, k3 := 31 })
    ∧ decode .gs 0x000801A80080045F = .ok (.gsetWalk 5 { kd := 0, k1 := 1, k2 := 2, k3 := 31 })
    ∧ decode .gs 0x000801A800C0045F = .ok (.gsetBar 5 { kd := 0, k1 := 1, k2 := 2, k3 := 31 })
    ∧ decode .gs 0x000881AEC0048443 = .ok (.gload 5 6 { kd := 9, k1 := 1, k2 := 2, k3 := 3 })
    ∧ decode .gs 0x000901A800048443 = .ok (.grule 5 { kd := 9, k1 := 1, k2 := 2, k3 := 3 })
    ∧ decode .gs 0x0009D5AEC0148443 = .ok (.grow 2 5 6 1 { kd := 9, k1 := 1, k2 := 2, k3 := 3 })
    ∧ decode .gs 0x000A555EC0148443 = .ok (.gseg 2 3 6 1 { kd := 9, k1 := 1, k2 := 2, k3 := 3 })
    ∧ decode .gs 0x000AD5AEC0048443 = .ok (.gscat 2 5 6 { kd := 9, k1 := 1, k2 := 2, k3 := 3 })
    ∧ decode .gs 0x000B45AEC0148443 = .ok (.walk 2 5 6 1 { kd := 9, k1 := 1, k2 := 2, k3 := 3 })
    ∧ decode .gs 0x000BC5AEC0148443 = .ok (.sample 2 5 6 1 { kd := 9, k1 := 1, k2 := 2, k3 := 3 })
    ∧ decode .gs 0x000C03AEC0000000 = .ok (.gidx 1 5 6)
    ∧ decode .gs 0x000C43AEDB810000 = .ok (.gidxBd 33 5 6 7)
    ∧ decode .gs 0x000C821000040000 = .ok (.gmov { d := 1, a := 2, b := 0, c := 0, sub := 0, t := 4, rm := 0, msk := 0, peek := 0, zm := 0, part := 0, sat := 0, u := 0 })
    ∧ decode .gs 0x000D021060014000 = .ok (.gvadd { d := 1, a := 2, b := 3, c := 0, sub := 0, t := 1, rm := 1, msk := 0, peek := 0, zm := 0, part := 0, sat := 0, u := 0 })
    ∧ decode .gs 0x000D821060014000 = .ok (.gvmul { d := 1, a := 2, b := 3, c := 0, sub := 0, t := 1, rm := 1, msk := 0, peek := 0, zm := 0, part := 0, sat := 0, u := 0 })
    ∧ decode .gs 0x000E021062004000 = .ok (.gvfma { d := 1, a := 2, b := 3, c := 4, sub := 0, t := 0, rm := 1, msk := 0, peek := 0, zm := 0, part := 0, sat := 0, u := 0 })
    ∧ decode .gs 0x000E821000284005 = .ok (.gvcvt { d := 1, a := 2, b := 0, c := 0, sub := 5, t := 0, rm := 1, msk := 0, peek := 0, zm := 0, part := 1, sat := 0, u := 1 })
    ∧ decode .gs 0x000F1F9000000040 = .ok (.gvld 15 50 64)
    ∧ decode .gs 0x000F9F9000000040 = .ok (.gvst 15 50 64) := by decide

/-- R174, R329, Table 11: words written out from the tables of OP and the formats of R158. -/
theorem test_decode_stratum :
    decode .st 0x000855AEC0148443 = .ok (.bld 2 5 6 1 { kd := 9, k1 := 1, k2 := 2, k3 := 3 })
    ∧ decode .st 0x0008D5AEC0048443 = .ok (.bst 2 5 6 { kd := 9, k1 := 1, k2 := 2, k3 := 3 })
    ∧ decode .st 0x000901AEC0048443 = .ok (.bfill 5 6 { kd := 9, k1 := 1, k2 := 2, k3 := 3 })
    ∧ decode .st 0x000981AEC0048443 = .ok (.bcpy 5 6 { kd := 9, k1 := 1, k2 := 2, k3 := 3 })
    ∧ decode .st 0x000A55AEC0D48443 = .ok (.bamo 2 5 6 3 1 { kd := 9, k1 := 1, k2 := 2, k3 := 3 })
    ∧ decode .st 0x000AC5AEC0C48443 = .ok (.bred 2 5 6 3 { kd := 9, k1 := 1, k2 := 2, k3 := 3 })
    ∧ decode .st 0x000C001000000000 = .ok (.vfpush 2)
    ∧ decode .st 0x000CC21000000000 = .ok (.vfpushn 33 2)
    ∧ decode .st 0x000D060000000000 = .ok (.vfpop 3)
    ∧ decode .st 0x000DC20000010000 = .ok (.vfcnt 33 1)
    ∧ decode .st 0x000E021060014000 = .ok (.svadd { d := 1, a := 2, b := 3, c := 0, sub := 0, t := 1, rm := 1, msk := 0, peek := 0, zm := 0, part := 0, sat := 0, u := 0 })
    ∧ decode .st 0x000E821062004000 = .ok (.svfma { d := 1, a := 2, b := 3, c := 4, sub := 0, t := 0, rm := 1, msk := 0, peek := 0, zm := 0, part := 0, sat := 0, u := 0 }) := by decide

/-! ## Ill-formed terms, one for each check of `Machine.fieldsOk` -/

def tk (kd : BitVec 5) : Toks := { kd := kd, k1 := 0, k2 := 0, k3 := 0 }

/-- A lane word of type FP32 with v1 and v2, v3 and v4 as sources. -/
def vf : VecF :=
  { d := 1, a := 2, b := 3, c := 4, sub := 0, t := 0, rm := 0, msk := 0, peek := 0, zm := 0, part := 0, sat := 0, u := 0 }

/-- R159 to R165: control, scalar memory, synchronisation and queue words with a field outside its values. -/
theorem test_ill_formed_scalar : ∀ i ∈ ([.loop 4 0 1, .loop 0 0 0, .br 1 2 6 0, .brt 1 6 0 0 1, .brt 1 0 0 0 0,
    .tcoord 1 2 3 5, .tdim 1 2 5, .tdim 1 2 21, .ld 1 2 7 0, .ldAcq 1 2 7 0, .amo 1 2 3 9 0 0, .amo 1 2 3 8 1 0,
    .amo 1 2 3 0 1 0, .cas 1 2 3 4 5 1 0, .phase 1 0, .phase 1 4, .fence 5, .qpop 0 1 2, .qpop 8 1 2, .qpeek 7 1 2,
    .qpeek 15 1 2, .rdtide 1 3] : List Instr), ¬ i.WellFormed := by decide

/-- R159 to R165: access, collective and matrix words. -/
theorem test_ill_formed_access : ∀ i ∈ ([.brq 0 4 0, .dset 0 1 0 (tk 1), .dclr 0 (tk 1), .dld 0 1 (tk 1),
    .gath 0 0 1 2 0x04 (tk 0), .gath 0 0 1 2 0x70 (tk 0), .gath 0 0 1 2 0x80 (tk 0), .scat 0 0 1 2 0x0C (tk 0),
    .scat 0 0 1 2 0x70 (tk 0), .push 0 0 (tk 1), .pushR 0 0 (tk 1), .movq 0 1 (tk 1), .arrv 1 2 (tk 1),
    .collAr 0 1 6 0 1 (tk 0), .collRs 0 1 1 2 1 (tk 0), .collAr 0 1 4 0 1 (tk 0),
    .msel 1 { stamp := 0, toks := tk 1 }] : List Instr), ¬ i.WellFormed := by decide

/-- R160, R161, R269 to R302: lane words: the lane type, each operand field, a peek bit of a field that names no queue, and
each field that an entry does not use. -/
theorem test_ill_formed_lanes : ∀ i ∈ ([.vadd { vf with c := 0, t := 2 }, .vadd { vf with c := 1 },
    .vadd { vf with c := 0, d := 48 }, .vadd { vf with c := 0, d := 32 }, .vadd { vf with c := 0, a := 33 },
    .vadd { vf with c := 0, peek := 1 }, .vadd { vf with c := 0, sub := 1 }, .vadd { vf with c := 0, part := 1 },
    .vadd { vf with c := 0, sat := 1 }, .vadd { vf with c := 0, u := 1 }, .vmin { vf with c := 0, rm := 1 },
    .vsel { vf with c := 0, zm := 1 }, .vabs { vf with c := 0 }, .vcmpeq { vf with c := 0, d := 8 }, .vcmpeq { vf with c := 0, d := 0 },
    .vshl { vf with c := 0, t := 1 }, .viadd { vf with c := 0, t := 4, sat := 0, u := 1 },
    .vcvt { vf with b := 0, c := 0, sub := 7 }, .vcvt { vf with b := 0, c := 0, part := 1 }, .vredmax { vf with b := 0, c := 0, rm := 1 },
    .vredsum { vf with b := 0, c := 0, d := 48 }, .vbcast { vf with c := 0 }, .vrot { vf with c := 0, b := 48, sub := 2 },
    .vmov { vf with c := 0, b := 48 }, .vld 1 2 0, .vst 32 48 0, .vidx { vf with b := 0, c := 0, t := 4 }, .vli 1 7 0, .vli 1 1 0x10000,
    .vli 1 2 0x100, .vquant { vf with b := 0, c := 0, sub := 3 }, .vdeq { vf with b := 0, c := 0, sub := 3 }, .vnmean { vf with b := 0, c := 0, zm := 1 },
    .vnvar { vf with c := 0, t := 2 }, .vnapply { vf with rm := 1 }, .vmset { vf with b := 0, c := 0, sub := 3 },
    .vmset { vf with b := 0, c := 0, sub := 2 }, .vmand { vf with c := 0, a := 8 }, .vmnot { vf with b := 1, c := 0 },
    .vmcnt { vf with b := 0, c := 0, d := 48 }] : List Instr), ¬ i.WellFormed := by decide

/-- R304 to R341: gather and stratum words. -/
theorem test_ill_formed_gather_stratum : ∀ i ∈ ([.gsetBlock 0 (tk 1), .gsetBatch 0 (tk 1), .gsetWalk 0 (tk 1), .gsetBar 0 (tk 1),
    .gseg 1 1 0 0 (tk 0), .gidx 16 0 0, .gidxBd 40 0 0 0, .gmov { vf with b := 0, c := 0, d := 16 }, .gvadd { vf with c := 0, msk := 1 },
    .gvmul { vf with c := 0, zm := 1 }, .gvfma { vf with a := 16 }, .gvcvt { vf with b := 0, c := 0, sub := 8 }, .gvld 16 48 0, .gvst 1 2 0,
    .bamo 0 0 0 9 0 (tk 0), .bamo 0 0 0 8 1 (tk 0), .bred 0 0 0 5 (tk 0), .vfpush 48, .vfpushn 48 1, .vfpop 32, .vfcnt 48 0,
    .svadd { vf with c := 0, msk := 1 }, .svfma { vf with d := 32 }] : List Instr), ¬ i.WellFormed := by decide

/-- The neighbours of those terms at the edge of each range are well formed. -/
theorem test_well_formed_edges : ∀ i ∈ ([.loop 3 0 1, .br 1 2 5 0, .brt 1 5 0 0 1, .tcoord 1 2 3 4, .tdim 1 2 20, .ld 1 2 6 0, .amo 1 2 3 8 0 0,
    .amo 0 2 3 7 1 0, .cas 1 2 3 4 5 4 0, .phase 1 3, .fence 4, .qpop 7 1 0, .qpop 8 0 2, .rdtide 1 2, .brq 15 3 0,
    .vadd { vf with c := 0, t := 1, d := 40, a := 63, msk := 7, zm := 1 }, .vfma { vf with b := 47, peek := 2 }, .vcvt { vf with b := 0, c := 0, sub := 6, part := 3, u := 1 },
    .viadd { vf with c := 0, t := 6, sat := 1, u := 1 }, .vmov { vf with c := 0, d := 39, b := 63 }, .vidx { vf with a := 63, b := 0, c := 0, t := 6 },
    .gvfma { vf with a := 15 }, .gseg 1 2 0 0 (tk 1), .bamo 0 0 0 8 0 (tk 1), .bred 0 0 0 4 (tk 1), .vfcnt 39 1] : List Instr),
    i.WellFormed := by decide

/-! ## States that meet the hypotheses of the statements -/

/-- A region of the one cell `key` runs, its sequencer q comes to the word w, and the machine is about to run it. -/
def onCell (key : Nat) (q : Seq) (timed : Bool) (f : Cell → Cell) (w : Word) : State :=
  let s := placeCell { State.reset with boot := false } { key := key, seq := q, timed := timed } (if timed then 2 else 0) w
  { setCell s key (f (cellAt s key)) with cur := key, curSeq := q, curIdle := idleNat w, curWord := w }

/-- The same on core n, which runs. -/
def onCore (n : Nat) (w : Word) : State :=
  { setCore { State.reset with boot := false } n
      { coreAt State.reset n with held := false, st := { mode := .elastic, begun := true, pre := [(0, w)] } } with
    rom := List.replicate 8 0, cur := coreKey + n, curSeq := .s, curIdle := idleNat w, curWord := w }

/-- A word with IDLE 5: the states' next word, whatever its body. -/
def w5 : Word := 0x0143800000000000

theorem issues_of (lg : Legal) (regs : List (BitVec 6)) (s : State)
    (h : canIssue s s.cur s.curSeq = true
      ∧ ((issueCtx s).timed = true → (popJoins (issueCtx s).pc (issueCtx s).t (issueCtx s).st.joins).isSome = true)
      ∧ ((issueCtx s).timed = true → lg.start = true ∨ (s.curIdle ≠ 0 ∧ 2 ≤ (issueCtx s).st.pos))
      ∧ legalFor lg (issueCtx s) = true
      ∧ ((issueCtx s).timed = false →
          regs.any (fun r => pendingA (touchStart s s.cur) (issueCtx s).key r.toNat) = false ∧
            (lg.acc = false ∨ acquiring (touchStart s s.cur) (issueCtx s).key (issueCtx s).seq = false))) : Issues lg regs s :=
  ⟨h.1, h.2.1, h.2.2.1, h.2.2.2.1, h.2.2.2.2⟩

/-- O1: an elastic stream, a timed stream and a core. -/
theorem test_meets_scalar_forms :
    Issues { spaces := [.s], core := true } [63, 1, 2] (onCell 1152 .s false id w5)
    ∧ Issues { spaces := [.s], core := true } [63, 1, 2] (onCell 1152 .s true id w5)
    ∧ Issues { spaces := [.s], core := true } [0, 0, 63] (onCore 8 w5) :=
  ⟨issues_of _ _ _ (by decide), issues_of _ _ _ (by decide), issues_of _ _ _ (by decide)⟩

/-- O2: bit counts and the immediate forms. -/
theorem test_meets_scalar_computes :
    Issues { spaces := [.s], core := true } [63, 1] (onCell 1152 .s true id w5)
    ∧ Issues { spaces := [.s], core := true } [0, 63] (onCell 2304 .s false id w5)
    ∧ Issues { spaces := [.s], core := true } [5, 1] (onCore 0 w5) :=
  ⟨issues_of _ _ _ (by decide), issues_of _ _ _ (by decide), issues_of _ _ _ (by decide)⟩

/-- A stream past its n-th word, with its image of 65,536 words. -/
def atWord (n : Nat) (timed : Bool) (f : Stream → Stream) : State :=
  onCell 1152 .s timed (fun c => c.setStream .s (f { c.stream .s with pc := 8 * n })) w5

/-- O3, transfers: the first and the last word of the image, from the middle; a taken and a failing branch; RET in both
modes. -/
theorem test_meets_control_transfers :
    (let s := atWord 100 false id
     let c := issueCtx s
     Issues { core := true } [] s ∧ Issues { spaces := [.s], core := true } [5] s
      ∧ Issues { spaces := [.s], timed := false, core := true } [1, 2] s
      ∧ inImage (moved s) c 0 = true ∧ (0 : Int) = c.pc + 8 * (BitVec.ofInt 32 (-100)).toInt
      ∧ inImage (moved s) c 524280 = true ∧ (524280 : Int) = c.pc + 8 * (65435 : BitVec 32).toInt
      ∧ src s 1 = src s 2 ∧ c.timed = false ∧ (src s 5).toNat = 0)
    ∧ (let s := atWord 100 true fun st => { st with retp := [(5, 800, 24)] }
       let c := issueCtx s
       Issues { spaces := [.s], core := true } [1] s ∧ c.timed = true ∧ inImage (moved s) c 24 = true
        ∧ c.st.retAt c.t c.pc = some 24) :=
  ⟨⟨issues_of _ _ _ (by decide), issues_of _ _ _ (by decide), issues_of _ _ _ (by decide), by decide⟩,
   ⟨issues_of _ _ _ (by decide), by decide⟩⟩

/-- O3, LOOP: its first and its last pass, in levels 0 and 3. -/
theorem test_meets_loop :
    (let s := atWord 4 false id
     let c := issueCtx s
     Issues { core := true, trap := false } [] s
      ∧ ((streamAt (moved s) c.key c.seq).lp 0).act = false ∧ 0 < (2 : BitVec 32).toNat - 1
      ∧ (24 : Int) = c.pc + 8 * (0xFFF : BitVec 12).toInt ∧ inImage (moved s) c 24 = true)
    ∧ (let s := atWord 4 true fun st => st.setLp 3 { act := true, cnt := 0 }
       Issues { core := true, trap := false } [] s
        ∧ ((streamAt (moved s) (issueCtx s).key (issueCtx s).seq).lp 3) = { act := true, cnt := 0 }) :=
  ⟨⟨issues_of _ _ _ (by decide), by decide⟩, ⟨issues_of _ _ _ (by decide), by decide⟩⟩

/-- O3, BRT: no join pending, and four. -/
theorem test_meets_brt :
    (let s := atWord 4 true id
     let c := issueCtx s
     Issues { spaces := [.s], elastic := false, trap := false, rebuild := false } [] s
      ∧ (64 : Int) = c.pc + 8 * (4 : BitVec 12).toInt ∧ (24 : Int) = c.pc + 8 * (0xFFF : BitVec 12).toInt
      ∧ inImage (moved s) c 64 = true ∧ inImage (moved s) c 24 = true ∧ (joinsLeft s).length < 4 ∧ (src s 1).toInt = 0)
    ∧ (let s := atWord 4 true fun st => { st with joins := List.replicate 4 { addr := 80, cycle := 99 } }
       Issues { spaces := [.s], elastic := false, trap := false, rebuild := false } [] s ∧ 4 ≤ (joinsLeft s).length) :=
  ⟨⟨issues_of _ _ _ (by decide), by decide⟩, ⟨issues_of _ _ _ (by decide), by decide⟩⟩

/-- O4, O5: TRAP on a core and in its handler, RETT in a trap stub, and the words of the common block. -/
theorem test_meets_trap_and_end :
    (let s := onCore 3 w5
     Issues { spaces := [.s], core := true, trap := false, rebuild := false } [] s
      ∧ Issues { spaces := [.s], core := true, rebuild := false } [] s ∧ isCore (issueCtx s).key = true
      ∧ (coreAt (moved s) ((issueCtx s).key - coreKey)).mcause.getLsbD 63 = false)
    ∧ (let s := setCore (onCore 3 w5) 3 { coreAt (onCore 3 w5) 3 with mcause := 0x8000000000000020 }
       Issues { spaces := [.s], core := true, rebuild := false } [] s
        ∧ (coreAt (moved s) ((issueCtx s).key - coreKey)).mcause.getLsbD 63 = true)
    ∧ (let s := atWord 0 false fun st => { st with stub := .trap }
       Issues { spaces := [.s], core := true, rebuild := false } [] s
        ∧ ((cellAt (moved s) (issueCtx s).key).stream (issueCtx s).seq).stub = .trap)
    ∧ (let s := atWord 0 true id
       Issues { core := true } [] s ∧ Issues { core := true, trap := false } [] s
        ∧ (streamAt (moved s) (issueCtx s).key (issueCtx s).seq).joins = [])
    ∧ (let s := atWord 0 true fun st => { st with joins := [{ addr := 80, cycle := 99 }] }
       Issues { core := true, trap := false } [] s ∧ (issueCtx s).timed = true
        ∧ (streamAt (moved s) (issueCtx s).key (issueCtx s).seq).joins ≠ []) :=
  ⟨⟨issues_of _ _ _ (by decide), issues_of _ _ _ (by decide), by decide⟩, ⟨issues_of _ _ _ (by decide), by decide⟩,
   ⟨issues_of _ _ _ (by decide), by decide⟩, ⟨issues_of _ _ _ (by decide), issues_of _ _ _ (by decide), by decide⟩,
   ⟨issues_of _ _ _ (by decide), by decide⟩⟩

/-- A timed region of cell 1152 whose S stream stands at a position. -/
def atPos (pos : Nat) (w : Word) (l : Option Stream) : State :=
  let s := placeCell { State.reset with boot := false } { key := 1152, seq := .s, timed := true } pos w
  let c := cellAt s 1152
  atAgent (setCell s 1152 { c with sl := l.getD {} }) 1152 .s

/-- O5: ALIGNF as the last of its region and before another's, and START. -/
theorem test_meets_region_begins :
    (let s := atPos 0 0x0041800000000000 none
     Issues { elastic := false, start := true, trap := false, rebuild := false } [] s ∧ (issueCtx s).st.pos = 0 ∧ s.curIdle ≠ 0
      ∧ (let u := onStream (moved s) (issueCtx s) fun st => { st with pos := 1 }
         (timedOf u (regAt u (cellAt u 1152).reg)).all fun p => decide (1 ≤ ((cellAt u p.1).stream p.2).pos)) = true)
    ∧ (let s := atPos 0 0x0041800000000000 (some { mode := .timed, begun := true })
       (issueCtx s).st.pos = 0 ∧ (let u := onStream (moved s) (issueCtx s) fun st => { st with pos := 1 }
         (timedOf u (regAt u (cellAt u 1152).reg)).all fun p => decide (1 ≤ ((cellAt u p.1).stream p.2).pos)) = false)
    ∧ (let s := atPos 1 0x0002000000000000 none
       Issues { elastic := false, start := true, trap := false, rebuild := false } [] s ∧ (issueCtx s).st.pos = 1 ∧ s.curIdle = 0) :=
  ⟨⟨issues_of _ _ _ (by decide), by decide⟩, by decide, ⟨issues_of _ _ _ (by decide), by decide⟩⟩

/-- A cell with three slack entries, in a region made by g. -/
def atSlack (timed : Bool) (w : Word) (f : Stream → Stream) (g : Region → Region) : State :=
  let s := onCell 1152 .s timed (fun c => { c with ss := f c.ss, slack := [[], [], []] }) w
  setReg s 1 (g (regAt s 1))

/-- O5, SLACK: in a task, alone, while a yield is served, and at a slack point that the timed streams agree on, and do not. -/
theorem test_meets_slack :
    (let s := atSlack false w5 (fun st => { st with task := true }) id
     Issues { trap := false, rebuild := false } [] s ∧ (issueCtx s).st.task = true ∧ (2 : BitVec 16).toNat < (cellAt (moved s) 1152).slack.length)
    ∧ (let s := atSlack false w5 id id
       Issues { trap := false, rebuild := false } [] s ∧ (issueCtx s).st.task = false ∧ (regAt (moved s) 1).swait = none)
    ∧ (let s := atSlack false w5 id fun r => { r with swait := some 0 }
       Issues { trap := false, rebuild := false } [] s ∧ (regAt (moved s) 1).swait ≠ none)
    ∧ (let s := atSlack true w5 id id
       let m := moved s
       let r := regAt m 1
       Issues { trap := false, rebuild := false } [] s ∧ (issueCtx s).timed = true
        ∧ agreed m (issueCtx s) 0 2 (nextIs m (.slack 2)) = true ∧ (issueCtx s).key ∈ regCells r
        ∧ (∀ k ∈ regCells r, slackBad (setReg m 1 { r with agree := some ((issueCtx s).t, 0, 2), slackd := 0, lastix := 2 })
            (issueCtx s).t k = false))
    ∧ (let s := atSlack true w5 id fun r => { r with agree := some (5, 1, 2) }
       (issueCtx s).timed = true ∧ agreed (moved s) (issueCtx s) 0 2 (nextIs (moved s) (.slack 2)) = false) :=
  ⟨⟨issues_of _ _ _ (by decide), by decide⟩, ⟨issues_of _ _ _ (by decide), by decide⟩, ⟨issues_of _ _ _ (by decide), by decide⟩,
   ⟨issues_of _ _ _ (by decide), by decide⟩, by decide⟩

/-- O5, TURN: an index beyond the table, a disagreement, the first stream of a region and a later one. -/
theorem test_meets_turn :
    (let s := atSlack true w5 id id
     Issues { elastic := false, trap := false, rebuild := false } [] s ∧ (issueCtx s).st.turns[(0 : BitVec 16).toNat]? = none)
    ∧ (let s := atSlack true w5 (fun st => { st with turns := [0x000300020001] }) fun r => { r with agree := some (5, 0, 0) }
       (issueCtx s).st.turns[(0 : BitVec 16).toNat]? = some 0x000300020001
        ∧ agreed (moved s) (issueCtx s) 1 0 (nextIs (moved s) (.turn 0)) = false)
    ∧ (let s := atSlack true w5 (fun st => { st with turns := [0x000300020001] }) fun r => { r with agree := some (5, 1, 0), var := 2 }
       agreed (moved s) (issueCtx s) 1 0 (nextIs (moved s) (.turn 0)) = true ∧ (regAt (moved s) 1).agree = some ((issueCtx s).t, 1, 0)
        ∧ inImage (moved s) (issueCtx s) 24 = true ∧ 24 = 8 * bits 0x000300020001 (16 * (regAt (moved s) 1).var.toNat + 15) (16 * (regAt (moved s) 1).var.toNat))
    ∧ (let s := atSlack true w5 (fun st => { st with turns := [0x000300020001] }) id
       agreed (moved s) (issueCtx s) 1 0 (nextIs (moved s) (.turn 0)) = true ∧ (regAt (moved s) 1).agree = none) :=
  ⟨⟨issues_of _ _ _ (by decide), by decide⟩, by decide, by decide, by decide⟩

/-- A descriptor of 1,024 elements in one tile. -/
def d1 (fmt : Nat) : Desc :=
  { fmt := fmt, lord := [0, 0, 0, 0, 0], ext := [1024, 1, 1, 1, 1], tile := [1024, 1, 1, 1, 1] }

/-- A cell of context 0 whose region leases tensor 5, of a format, with some scalar registers. -/
def onTensor (key : Nat) (q : Seq) (fmt : Nat) (timed : Bool) (a : SMap Word) (f : Cell → Cell) : State :=
  let s := onCell key q timed (fun c => f { c with a := a }) w5
  let r := { regAt s 1 with leases := [{ tens := 5, first := 0, count := 1, kind := 3, zero := false }], descs := [(5, d1 fmt)] }
  { setPreg (setReg s 1 r) 0x20 0x403 0x100001 with tens := [(65536 + 5, d1 fmt)] }

/-- O6: the last dimension and each field of TDIM. -/
theorem test_meets_tensor_coordinates :
    let s := onTensor 1152 .s 4 true [(2, 0x0005000000000003)] id
    Issues { spaces := [.s], core := true } [1, 2, 3] s ∧ Issues { spaces := [.s], core := true } [1, 2] s
      ∧ launchDesc (moved s) (issueCtx s).key (tidOf (src s 2)) = some (d1 4) ∧ (4 : BitVec 3).toNat < 5
      ∧ (4 : BitVec 7).toNat = 4 ∧ (12 : BitVec 7).toNat = 8 + 4 :=
  ⟨issues_of _ _ _ (by decide), issues_of _ _ _ (by decide), by decide⟩

/-- O7: the last bytes of the own scratchpad, without an error, with one in their word and with one that a narrower store
merges with; a store that finds the buffers full, and one beyond the scratchpad. -/
theorem test_meets_scratchpad :
    (let s := onCell 1152 .s true (fun c => { c with a := [(2, 0xFFFF00000003FFF8)] }) w5
     Issues (lgMem (spadBase s s.cur 2)) [1, 2] s ∧ tidOf (scalarEa (src s 2) 0) = 0xFFFF
      ∧ spOwner (moved s) (issueCtx s).key (scalarEa (src s 2) 0) 8 = some 1152
      ∧ spadBad (moved s) 1152 0x3FFF8 8 = false ∧ spadMergeBad (moved s) 1152 0x3FFF8 8 = false
      ∧ (storeAt (spadHeal (moved s) 1152 0x3FFF8 8) (issueCtx s) 1152 (spOff (scalarEa (src s 2) 0))
          (toBytes 8 (src s 1).toNat) 1).isSome = true)
    ∧ (let s := onCell 1152 .s true (fun c => { c with a := [(2, 0xFFFF00000003FFF8)], ecc := [(0, 0x7FFF)] }) w5
       spadBad (moved s) 1152 (spOff (scalarEa (src s 2) 0)) 1 = true ∧ spadMergeBad (moved s) 1152 (spOff (scalarEa (src s 2) 0)) 4 = true
        ∧ spadMergeBad (moved s) 1152 (spOff (scalarEa (src s 2) 0)) 8 = false)
    ∧ (let s := onCell 1152 .s true (fun c => { c with a := [(2, 0xFFFF00000003FFF9)] }) w5
       tidOf (scalarEa (src s 2) 0) = 0xFFFF ∧ spOwner (moved s) (issueCtx s).key (scalarEa (src s 2) 0) 8 = none) :=
  ⟨⟨issues_of _ _ _ (by decide), by decide⟩, by decide, by decide⟩

/-- A write buffer of the last 2,048 words of the window. -/
def fullPwb : List PbEntry := (List.range 2048).map fun i => { writer := 0, word := 6144 + i, mask := 0, data := 0, ep := 0 }

/-- O7: with a full buffer a store of another word of the window finds no room. -/
theorem test_meets_phase_overflow (b : Byte) : pbPut fullPwb 0 0 0 b = none := by
  have h1 : (fullPwb.any fun e => decide (e.writer = 0 ∧ e.word = 0 ∧ e.ep = 0)) = false := by
    simp [fullPwb]
  have h2 : (fullPwb.any fun e => decide (e.writer = 0 ∧ e.word = 0)) = false := by
    simp [fullPwb]
  have h3 : fullPwb.length = 2048 := by simp [fullPwb]
  simp only [pbPut, Nat.zero_div, h1, h2, h3]
  simp

/-- O8: the last element of a leased tensor of bytes; loads that hit and miss the sector buffer; a store without a lease. -/
theorem test_meets_device_access :
    (let s := onTensor 1152 .s 0 false [(2, 0x00050000000003F8)] id
     let c := issueCtx s
     let m := moved s
     let ea := scalarEa (src s 2) 0
     Issues (lgMem (spadBase s s.cur 2)) [1, 2] s ∧ Issues { lgMem (spadBase s s.cur 2) with timed := false } [1, 2] s
      ∧ tidOf ea ≠ 0xFFFF ∧ scalarPlace m (ctxOf m c.key) ea 8 = .ok (d1 0, 0, 1016)
      ∧ leased m c.key (ctxOf m c.key) (tidOf ea) 0 false = true ∧ leased m c.key (ctxOf m c.key) (tidOf ea) 0 true = true
      ∧ watchHit m c.key false (accessAddrs m (ctxOf m c.key) ea 8) = false
      ∧ watchHit m c.key true (accessAddrs m (ctxOf m c.key) ea 8) = false ∧ sectRead m c.key (tidOf ea) 0 1016 8 = none)
    ∧ (let s := onTensor 1152 .s 0 false [(2, 0x00050000000003F8)] fun c =>
         { c with sect := [{ tens := 5, tile := 0, sec := 31, data := 7, saw := [] }] }
       (sectRead (moved s) (issueCtx s).key 5 0 1016 8).isSome = true
        ∧ bufferServes (moved s) (issueCtx s) (scalarEa (src s 2) 0) 8 = true)
    ∧ (let s := setReg (onTensor 1152 .s 0 true [(2, 0x0005000000000000)] id) 1
         { regAt (onTensor 1152 .s 0 true [(2, 0x0005000000000000)] id) 1 with leases := [] }
       Issues (lgMem (spadBase s s.cur 2)) [1, 2] s
        ∧ scalarPlace (moved s) 0 (scalarEa (src s 2) 0) 8 = .ok (d1 0, 0, 0)
        ∧ leased (moved s) (issueCtx s).key 0 5 0 true = false) :=
  ⟨⟨issues_of _ _ _ (by decide), issues_of _ _ _ (by decide), by decide⟩, by decide, ⟨issues_of _ _ _ (by decide), by decide⟩⟩

/-- O9: atomics of a leased tensor of 32-bit integers, in both modes, and of one of WIDE accumulators. -/
theorem test_meets_atomics :
    (let s := onTensor 1152 .s 4 true [(2, 0x0005000000000000)] id
     let m := moved s
     Issues (lgMem false) [0, 2, 3] s ∧ Issues (lgMem false) [0, 2, 3, 4, 0] s
      ∧ tidOf (src s 2) ≠ 0xFFFF ∧ leased m (issueCtx s).key 0 5 0 true = true ∧ watchHit m (issueCtx s).key true (accessAddrs m 0 (src s 2) 4) = false
      ∧ atomicPlace m 0 (src s 2) 4 = .ok (d1 4, 0, 0) ∧ useAdmits 0 8 = true ∧ useAdmits 4 9 = true)
    ∧ (let s := onTensor 1152 .s 14 false [(2, 0x00050000000003FF), (3, 0x3F800000)] id
       let m := moved s
       Issues (lgMem (spadBase s s.cur 2)) [2, 3] s ∧ Issues { lgMem (spadBase s s.cur 2) with timed := false } [1, 2] s
        ∧ widePlace m 0 (src s 2) = .ok (0, 32736) ∧ leased m (issueCtx s).key 0 5 0 true = true
        ∧ leased m (issueCtx s).key 0 5 0 false = true ∧ (wideOf ((src s 3).toNat % 2 ^ 32)).isSome = true) :=
  ⟨⟨issues_of _ _ _ (by decide), issues_of _ _ _ (by decide), by decide⟩,
   ⟨issues_of _ _ _ (by decide), issues_of _ _ _ (by decide), by decide⟩⟩

/-- A word whose IDLE is 64: the earliest distance behind a device-scope phase. -/
def w64 : Word := 0x1003800000000000

/-- O10: fences that are complete, or wait for a store, or timed with room of 56 cycles, or of 55; PHASE of a subgroup of one
cell in both modes; TOKW with its tokens. -/
theorem test_meets_phase_fence :
    (let s := onCell 1152 .s false id w5
     let m := moved s
     Issues { spaces := [.s], core := true } [] s ∧ fenceDone m (issueCtx s).key (issueCtx s).seq 4 = true
      ∧ (issueCtx s).core = false)
    ∧ (let s := { onCell 1152 .s false id w5 with reqs := [(1, { kind := .store, key := 1152, seq := .s, addr := 0x0005000000000000, n := 4 })] }
       Issues { spaces := [.s], core := true } [] s ∧ fenceDone (moved s) (issueCtx s).key (issueCtx s).seq 3 = false)
    ∧ (let s := onCell 1152 .s true (fun c => c.setStream .s { c.stream .s with pre := [(0, w5), (8, 0x0E03800000000000)] }) w5
       Issues { spaces := [.s], core := true } [] s ∧ (issueCtx s).t + 56 ≤ (issueCtx s).t + idleNat (fetchWord (moved s) 1152 .s))
    ∧ (let s := onCell 1152 .s true (fun c => c.setStream .s { c.stream .s with pre := [(0, w5), (8, 0x0DC3800000000000)] }) w5
       (issueCtx s).t + idleNat (fetchWord (moved s) 1152 .s) < (issueCtx s).t + 56)
    ∧ (let s := onCell 1152 .s true (fun c =>
         ({ c with a := [(2, 0x100000000)] }).setStream .s { c.stream .s with pre := [(0, w5), (8, w64)] }) w5
       Issues { spaces := [.s], trap := false, rebuild := false } [2] s ∧ phaseCells (moved s) (issueCtx s).key (src s 2) 3 = some [1152]
        ∧ (issueCtx s).t + 64 ≤ (issueCtx s).t + idleNat (fetchWord (moved s) 1152 .s) ∧ isCore (issueCtx s).key = false)
    ∧ (let s := onCell 1152 .s false (fun c => { c with a := [(2, 0x100000000)], k := [(31, 1)] }) w5
       Issues { spaces := [.s], trap := false, rebuild := false } [2] s ∧ phaseCells (moved s) (issueCtx s).key (src s 2) 1 = some [1152]
        ∧ (∀ k ∈ regCells (regAt (moved s) 1), k ≠ (issueCtx s).key → (cellAt (moved s) k).phase = none)
        ∧ Issues { spaces := [.s], trap := false } [] s ∧ (takeToks (moved s) (issueCtx s).key { kd := 0, k1 := 31, k2 := 0, k3 := 0 }).isSome = true) :=
  ⟨⟨issues_of _ _ _ (by decide), by decide⟩, ⟨issues_of _ _ _ (by decide), by decide⟩, ⟨issues_of _ _ _ (by decide), by decide⟩, by decide,
   ⟨issues_of _ _ _ (by decide), by decide⟩,
   ⟨issues_of _ _ _ (by decide), by decide, by decide, issues_of _ _ _ (by decide), by decide⟩⟩

/-- O11: a barrier of two arrivals in the last word of the shared window, in both modes; a broken one; its tests by W. -/
theorem test_meets_barriers :
    (let s := onCell 1152 .s false (fun c => { c with a := [(2, 0xFFFF00000000FFF8)], csr := { c.csr with shwin := 64 }, spad := [(65531, 0x20), (65533, 0x20)] }) w5
     Issues { spaces := [.s], trap := false, rebuild := false, acc := true } [1, 2, 3] s ∧ barAddr (moved s) (issueCtx s).key (src s 2) = some (1152, 65528)
      ∧ spadBad (moved s) 1152 65528 8 = false ∧ watchHit (moved s) (issueCtx s).key true (accessAddrs (moved s) 0 (src s 2) 8) = false
      ∧ (arriveWord (barWord (moved s) 1152 65528) (src s 3).toInt).isSome = true
      ∧ watchHit (moved s) (issueCtx s).key false (accessAddrs (moved s) 0 (src s 2) 8) = false)
    ∧ (let s := onCell 1152 .s false (fun c => { c with a := [(2, 0xFFFF000000000000)], csr := { c.csr with shwin := 64 } }) w5
       barAddr (moved s) (issueCtx s).key (src s 2) = some (1152, 0)
        ∧ arriveWord (barWord (moved s) 1152 0) (src s 3).toInt = none)
    ∧ (let s := onCell 1152 .s true (fun c => { c with a := [(2, 0xFFFF000000000000)], csr := { c.csr with shwin := 1 } }) w5
       Issues { spaces := [.s], trap := false, rebuild := false, acc := true } [1, 2, 3] s ∧ (issueCtx s).timed = true
        ∧ barAddr (moved s) (issueCtx s).key (src s 2) = some (1152, 0))
    ∧ (∀ timed ∈ [false, true],
        let s := onCell 1152 .w timed (fun c => { c with a := [(2, 0xFFFF000000000000)], csr := { c.csr with shwin := 1 }, spad := [(3, 0x10), (5, 0x10)], k := [(1, 1)] }) w5
        (takeToks (moved s) (issueCtx s).key { kd := 0, k1 := 1, k2 := 0, k3 := 0 }).isSome = true
        ∧ barAddr (moved s) (issueCtx s).key (src s 2) = some (1152, 0)
        ∧ (arriveWord (barWord (moved s) 1152 0) (src s 3).toInt).isSome = true)
    ∧ Issues { spaces := [.lw] } [2, 3] (onCell 1152 .w true id w5) :=
  ⟨⟨issues_of _ _ _ (by decide), by decide⟩, by decide, ⟨issues_of _ _ _ (by decide), by decide⟩, by decide, issues_of _ _ _ (by decide)⟩

/-- A cell with a queue of a kind that stream p fills and stream c empties, and entries in it. -/
def withQ (q : Nat) (kind : QKind) (p c : Seq) (es : List QEntry) (x : Cell) : Cell :=
  { x with feeds := sset x.feeds q { kind := kind, prod := p, cons := c }, q := sput [] x.q q es }

/-- O12: q0 and q15 to push, to take and to count, an empty queue and a stream that has no role in one. -/
theorem test_meets_queue_words :
    (let s := onCell 1152 .s false (fun c => withQ 0 .mem .s .s [{ data := 7 }] (withQ 15 .mem .s .s [{ data := 1, mark := true }]
        { c with a := [(2, 0x3FF00)] })) w5
     let m := moved s
     Issues { spaces := [.s], trap := false, acc := true } [2] s ∧ Issues { spaces := [.s], trap := false, acc := true } [1, 2] s
      ∧ Issues { spaces := [.s], trap := false } [1] s
      ∧ producer m (issueCtx s) 0 = true ∧ producer m (issueCtx s) 15 = true ∧ busyWrite m (issueCtx s) 15 = false
      ∧ (qEnts m (issueCtx s).key 15).length < 8 ∧ (src s 2).toNat + 256 ≤ spadSize (issueCtx s).key
      ∧ watchHit m (issueCtx s).key false (spadAddrs (issueCtx s).key (src s 2).toNat 256) = false
      ∧ watchHit m (issueCtx s).key true (spadAddrs (issueCtx s).key (src s 2).toNat 256) = false
      ∧ spadBad m (issueCtx s).key (src s 2).toNat 256 = false ∧ spadMergeBad m (issueCtx s).key (src s 2).toNat 256 = false
      ∧ consumer m (issueCtx s) 15 = true ∧ busyRead m (issueCtx s) 15 = false
      ∧ (entryToSpad (spadHeal (setQ m (issueCtx s).key 15 []) (issueCtx s).key (src s 2).toNat 256) (issueCtx s) (src s 2).toNat 0).isSome = true
      ∧ (qFeed m (issueCtx s).key 15).kind ≠ .unused)
    ∧ (let s := onCell 1152 .s true (withQ 0 .sched .s .s []) w5
       Issues { spaces := [.s], trap := false, acc := true } [1, 2] s ∧ consumer (moved s) (issueCtx s) 0 = true
        ∧ busyRead (moved s) (issueCtx s) 0 = false ∧ qEnts (moved s) (issueCtx s).key 0 = [] ∧ (issueCtx s).timed = true
        ∧ (qFeed (moved s) (issueCtx s).key 0).kind = .sched
        ∧ producer (moved s) (issueCtx s) 1 = false) :=
  ⟨⟨issues_of _ _ _ (by decide), issues_of _ _ _ (by decide), issues_of _ _ _ (by decide), by decide⟩,
   ⟨issues_of _ _ _ (by decide), by decide⟩⟩

/-- O13: engine commands of both modes, JOIN's token at the last count, and FPUSH into the last slot of FQ. -/
theorem test_meets_engines :
    (∀ timed ∈ [false, true],
      let s := onCell 0 .s timed (fun c => { c with k := [(1, 3), (9, 65534)], mx := { c.mx with fq := List.replicate 15 0 } }) w5
      let k : Toks := { kd := 9, k1 := 1, k2 := 1, k3 := 1 }
      engCount (moved s) 0 < 64 ∧ (takeToks (moved s) (issueCtx s).key k).isSome = true
      ∧ (addTok ((takeToks (moved s) (issueCtx s).key k).getD s) (issueCtx s).key 9).2 = true
      ∧ classOf (issueCtx s).key = 0 ∧ (cellAt (moved s) (issueCtx s).key).mx.fq.length < 16 ∧ (issueCtx s).timed = timed
      ∧ anyPendingA (moved s) (issueCtx s).key = false)
    ∧ (∀ peer ∈ [false, true], Issues { spaces := [.s], trap := false, acc := peer } [0, 5, 6] (onCell 0 .s true id w5))
    ∧ Issues { spaces := [.s], trap := false, acc := !(peerBase (onCell 0 .s false id w5) 0 5 || peerBase (onCell 0 .s false id w5) 0 6) } [4, 5, 6]
        (onCell 0 .s false id w5)
    ∧ Issues { spaces := [.s], trap := false } [4] (onCell 0 .s false id w5) :=
  ⟨by decide, fun _ _ => issues_of _ _ _ (by revert ‹Bool›; decide), issues_of _ _ _ (by decide), issues_of _ _ _ (by decide)⟩

/-- O14: an assigned and an unassigned CSR, a value that SHWIN takes at its limit and one beyond, and the registers of a core. -/
theorem test_meets_registers :
    (let s := onCell 1152 .s true (fun c => { c with a := [(2, 64), (3, 65)] }) w5
     Issues { spaces := [.s], core := true } [1] s ∧ Issues { spaces := [.s], core := true } [2] s ∧ (issueCtx s).core = false
      ∧ (csrValue (moved s) (issueCtx s).key 0x30).isSome = true ∧ csrValue (moved s) (issueCtx s).key 0xFFF = none
      ∧ csrWritable (issueCtx s).key 0x30 (src s 2) = true ∧ csrWritable (issueCtx s).key 0x30 (src s 3) = false)
    ∧ Issues { spaces := [.s], core := true } [1] (onCore 0 w5)
    ∧ (let s := onCore 8 w5
       Issues { mgmt := true } [1] s ∧ siteOk 0xFF = true ∧ pregOf 0xFF 0x810 = some .caps
        ∧ siteFitted (moved s) 0xFF = true ∧ (issueCtx s).key - coreKey = 8)
    ∧ (let s := onCore 7 w5
       Issues { mgmt := true } [1] s ∧ pregOf 0xFF 0x302 = some .mcause ∧ (issueCtx s).key - coreKey ≠ 8) :=
  ⟨⟨issues_of _ _ _ (by decide), issues_of _ _ _ (by decide), by decide⟩, issues_of _ _ _ (by decide),
   ⟨issues_of _ _ _ (by decide), by decide⟩, ⟨issues_of _ _ _ (by decide), by decide⟩⟩

/-- O14: the registers whose read or write has an effect; a post that waits. -/
theorem test_meets_register_effects :
    let e : RfEntry := { tens := 5, ctx := 0, kind := 1, first := 0, count := 1, handle := 1 }
    let s : State := { State.reset with rfbuf := [e], rfwaitq := [e], hot := [(3, { ring := [7] })],
                                        regions := [(1, { handle := 1, rfwait := true })] }
    s.rfbuf = e :: [] ∧ s.rfwaitq = e :: [] ∧ (sget {} s.hot 3).ring = 7 :: [] ∧ bits (preg s 0x20 0x70) 15 0 = 0xFFFF
      ∧ bits (preg (setPreg s 0x20 0x70 3) 0x20 0x70) 15 0 ≠ 0xFFFF ∧ (sfind s.regions 1).isSome = true
      ∧ (regAt s 1).rfwait = true := by decide

/-- O15: a mailbox with room, a full one, identities 0, 9 and 10, and messages and events to deliver. -/
theorem test_meets_mailboxes :
    (let s := setCore (onCore 0 w5) 0 { coreAt (onCore 0 w5) 0 with a := [(2, 9), (3, 1), (4, 10)], mbox := [7] }
     Issues { mgmt := true } [1, 2, 3] s ∧ Issues { mgmt := true } [1] s ∧ Issues { mgmt := true } [] s
      ∧ bits (src s 2) 7 0 = 9 ∧ (coreAt (moved s) 8).mbox.length < 64 ∧ bits (src s 3) 7 0 = (issueCtx s).key - coreKey + 1
      ∧ 9 < bits (src s 4) 7 0 ∧ (coreAt (moved s) 0).mbox = 7 :: [])
    ∧ 64 ≤ (coreAt (moved (setCore (onCore 0 w5) 8 { mbox := List.replicate 64 0 })) 8).mbox.length
    ∧ (let s : State := { onCore 3 w5 with devq := [(0, 1)], lhans := [(7, 2)] }
       s.devq = (0, 1) :: [] ∧ s.lhans = (7, 2) :: [] ∧ (coreAt s 0).mbox.length < 64 ∧ (coreAt s 7).mbox.length < 64 ∧ s.rstT = none)
    ∧ (let s : State := { setCore (onCore 3 w5) 3 { coreAt (onCore 3 w5) 3 with
         st := { mode := .elastic, begun := true, since := some 0, pre := [(0, 0x0032000000000064)] } } with tick := 100 }
       coreNext s 3 = some (.mwait 100) ∧ (coreAt s 3).mbox = [] ∧ coreWaited s 3 100 = true)
    ∧ (let s : State := { setCore (onCore 3 w5) 3 { coreAt (onCore 3 w5) 3 with
         st := { mode := .elastic, begun := true, since := some 0, pre := [(0, 0x00300200000000A0)] } } with tick := 200000 }
       coreNext s 3 = some (.pcsrr 1 0 0xA0) ∧ coreWaited s 3 200000 = true) :=
  ⟨⟨issues_of _ _ _ (by decide), issues_of _ _ _ (by decide), issues_of _ _ _ (by decide), by decide⟩, by decide, by decide, by decide,
   by decide⟩

/-- O16: a register named three times at its demand, and one below it. -/
theorem test_meets_tokens :
    let s := onCell 0 .l false (fun c => { c with k := [(4, 3), (5, 1)] }) w5
    (∀ n ∈ tokRegs { kd := 0, k1 := 4, k2 := 4, k3 := 4 }, demand { kd := 0, k1 := 4, k2 := 4, k3 := 4 } n ≤ tok s 0 n)
      ∧ ∃ n ∈ tokRegs { kd := 0, k1 := 5, k2 := 4, k3 := 5 }, tok s 0 n < demand { kd := 0, k1 := 5, k2 := 4, k3 := 5 } n := by
  decide

/-- The words of d0: four elements of tensor 5 from its start; of d1: four bytes of the own scratchpad. -/
def descs01 : SMap Word :=
  [(0, 0x0005000000000000), (1, 0x100000004), (2, 0x100000001), (3, 1), (8, 0xFFFF000000000000), (9, 0x100000004), (10, 0x100000001),
   (11, 1), (13, 1)]

/-- O17: each access word with its checks passed, on L, with registers for a table, a scratchpad and a count. -/
theorem test_meets_access_words :
    let s := onTensor 1152 .l 4 false [(2, 0xFFFF00000003FFC0), (3, 0x0005000000000000), (4, 0x100000001)] fun c =>
      withQ 0 .mem .l .s [] (withQ 1 .mem .s .l [] { c with dl := descs01 })
    let c := issueCtx s
    let m := moved s
    let ws := readDesc m c.key c.seq 0
    Issues { spaces := [.lw] } [] s ∧ Issues { spaces := [.lw] } [2] s ∧ Issues { spaces := [.lw] } [3, 4] s
      ∧ (takeToks m c.key (tk 9)).isSome = true
      ∧ tidOf (src s 2) = 0xFFFF ∧ spIdx (src s 2) = cidxOf c.key ∧ spOff (src s 2) % 8 = 0
      ∧ spOff (src s 2) + 64 ≤ spadSize c.key ∧ watchHit m c.key false (spadAddrs c.key (spOff (src s 2)) 64) = false
      ∧ spadBad m c.key (spOff (src s 2)) 64 = false
      ∧ accFull c m = false ∧ patCheck m c.key (ctxOf m c.key) ws = 0 ∧ producer m c 0 = true ∧ consumer m c 1 = true
      ∧ patBits m (ctxOf m c.key) ws ≤ qBits 0 ∧ tooWide 0 (dw ws 0) (patBits m (ctxOf m c.key) ws) = false
      ∧ tooWide 0 (src s 3) (elemBits m (ctxOf m c.key) (src s 3) 0) = false
      ∧ (qFeed m c.key 0).kind = .mem
      ∧ (spOwner m c.key (src s 2) ((patCount ws * patBits m (ctxOf m c.key) ws + 7) / 8)).isSome = true
      ∧ rowCheck m c ws (src s 3) (src s 4) 0 = 0 ∧ elemBits m (ctxOf m c.key) (src s 3) 0 ≤ qBits 0
      ∧ scatFmtOk m (ctxOf m c.key) (src s 3) 2 = true ∧ scatBits m (ctxOf m c.key) (src s 3) 2 0 ≤ qBits 1 :=
  ⟨issues_of _ _ _ (by decide), issues_of _ _ _ (by decide), issues_of _ _ _ (by decide), by decide⟩

/-- O18: a scratchpad pattern without an element size, and with a reserved bit. -/
theorem test_meets_access_checks :
    let s := onTensor 1152 .l 4 true [] fun c => withQ 0 .mem .l .l [] { c with dl := [(0, 0xFFFF000000000000), (13, 32)] }
    Issues { spaces := [.lw] } [] s ∧ (issueCtx s).timed = true ∧ patCheck (moved s) 1152 0 (readDesc (moved s) 1152 .l 0) ≠ 0
      ∧ patCheck (moved s) 1152 0 (readDesc (moved s) 1152 .l 1) ≠ 0
      ∧ producer (moved s) (issueCtx s) 0 = true ∧ consumer (moved s) (issueCtx s) 0 = true :=
  ⟨issues_of _ _ _ (by decide), by decide⟩

/-- O19: a channel to the own cell, entries to push and to move, and BRQ on a marked entry and an empty queue. -/
theorem test_meets_pushes :
    (let s := onCell 1152 .w true (fun c => withQ 3 .sched .s .w [{ data := 7 }] (withQ 4 .sched .w .s [] { c with
         chans := [{ ch := 255, q := 0 }] })) w5
     let m := moved s
     let c := issueCtx s
     Issues { spaces := [.lw], elastic := false, wOnly := true } [] s ∧ Issues { spaces := [.lw], elastic := false, wOnly := true } [5] s
      ∧ Issues { spaces := [.lw] } [] s
      ∧ chanOf m c.key 255 = some { ch := 255, q := 0 } ∧ chanDest m c.key { ch := 255, q := 0 } = some 1152
      ∧ qBits 0 = qBits 3 ∧ consumer m c 3 = true ∧ busyRead m c 3 = false ∧ qEnts m c.key 3 = { data := 7 } :: []
      ∧ (takeToks (setQ m c.key 3 []) c.key (tk 0)).isSome = true ∧ producer m c 4 = true ∧ (qFeed m c.key 4).kind = .sched)
    ∧ (let s := onCell 1152 .l false (withQ 15 .mem .s .l [{ data := 0, mark := true }]) w5
       Issues { spaces := [.lw], timed := false } [] s ∧ consumer (moved s) (issueCtx s) 15 = true
        ∧ (524280 : Int) = (issueCtx s).pc + 8 * (65535 : BitVec 32).toInt ∧ inImage (moved s) (issueCtx s) 524280 = true
        ∧ qEnts (moved s) (issueCtx s).key 15 = { data := 0, mark := true } :: []) :=
  ⟨⟨issues_of _ _ _ (by decide), issues_of _ _ _ (by decide), issues_of _ _ _ (by decide), by decide⟩, ⟨issues_of _ _ _ (by decide), by decide⟩⟩

/-- A cell whose C stream comes to a word, with vectors 2 to 4, a mask, scalar registers and the queue q8. -/
def onLanes (key : Nat) (timed : Bool) : State :=
  onCell key .c timed (fun c => withQ 8 (if timed then .sched else .mem) .c .c [{ data := 5 }]
    { c with v := [(2, 0x3F800000), (3, 1), (4, 2)], m := [(2, 3)], a := [(1, 7), (2, 0xFFFF000000000000)] }) w5

/-- O20 to O27: lane words of the three spaces in both modes, with registers, a queue and an a register as operands. -/
theorem test_meets_lane_words :
    VecIssues .vn (vecSrcs { vf with a := 40, b := 49, c := 2 } 3) (onLanes 1152 false)
    ∧ VecIssues .vn (vecSrcs { vf with msk := 2, zm := 1 } 2) (onLanes 1152 true) ∧ VecIssues .vn (indexSrcs { vf with b := 50 }) (onLanes 1152 true)
    ∧ Issues { spaces := [.vn] } [] (onLanes 1152 false) ∧ Issues { spaces := [.vn] } [BitVec.ofNat 6 (49 - 48)] (onLanes 1152 true)
    ∧ VecIssues .gs (vecSrcs vf 3) (onLanes 1728 false) ∧ VecIssues .st (vecSrcs vf 3) (onLanes 2304 false)
    ∧ (∃ vs u, vecReads .vn { vf with a := 40, b := 49, c := 2, d := 40, msk := 2 } 3 32 (onLanes 1152 false) vs u)
    ∧ (∃ vs u, vecReads .vn { vf with msk := 2, zm := 1 } 2 8 (onLanes 1152 true) vs u)
    ∧ (∃ vs u, vecReads .vn { vf with b := 50 } 1 16 (onLanes 1152 true) vs u
        ∧ (readA u (issueCtx (onLanes 1152 true)).key 2).toNat = (readA (moved (onLanes 1152 true)) 1152 2).toNat)
    ∧ (∃ vs u, vecReads .gs vf 3 32 (onLanes 1728 false) vs u) ∧ (∃ vs u, vecReads .st vf 3 16 (onLanes 2304 false) vs u)
    ∧ dstReady .vn (moved (onLanes 1152 true)) (issueCtx (onLanes 1152 true)) 31 = .ok () :=
  ⟨issues_of _ _ _ (by decide), issues_of _ _ _ (by decide), issues_of _ _ _ (by decide), issues_of _ _ _ (by decide),
   issues_of _ _ _ (by decide), issues_of _ _ _ (by decide), issues_of _ _ _ (by decide),
   ⟨_, _, rfl, rfl⟩, ⟨_, _, rfl, rfl⟩, ⟨_, _, ⟨rfl, rfl⟩, rfl⟩, ⟨_, _, rfl, rfl⟩, ⟨_, _, rfl, rfl⟩, rfl⟩

/-- O26: the own scratchpad at an aligned and a misaligned offset. -/
theorem test_meets_vector_memory :
    let s := onLanes 1152 true
    let m := moved s
    let base := readA m (issueCtx s).key 2
    Issues { spaces := [.vn] } (BitVec.ofNat 6 (50 - 48) :: aFields .vn [(1, false)]) s
      ∧ tidOf base = 0xFFFF ∧ spOwner m (issueCtx s).key (scalarEa base 0x3FF00) 256 = some 1152
      ∧ spadBad m 1152 0x3FF00 256 = false ∧ spadBad { m with cells := sset m.cells 1152 { cellAt m 1152 with ecc := [(0, 0x7FFF)] } } 1152 0x3FF00 256 = true
      ∧ spOff (scalarEa base 0x3FF00) % 32 = 0 ∧ spOff (scalarEa base 1) % 32 ≠ 0
      ∧ spOwner m (issueCtx s).key (scalarEa base 1) 256 = some 1152
      ∧ watchHit m (issueCtx s).key true (accessAddrs m 0 (scalarEa base 0x3FF00) 256) = false
      ∧ watchHit m (issueCtx s).key false (accessAddrs m 0 (scalarEa base 0x3FF00) 256) = false
      ∧ (storeAt (spadHeal m 1152 0x3FF00 256) (issueCtx s) 1152 (spOff (scalarEa base 0x3FF00)) (toBytes 256 1) 1).isSome = true :=
  ⟨issues_of _ _ _ (by decide), by decide⟩

/-- O27, O28: codes of a nibble that are sign-extended from three bits, and the edge values of the four formats. -/
theorem test_meets_formats :
    (∀ x ∈ [0, 3, 12, 15], x / 8 % 2 = x / 4 % 2)
    ∧ ∀ p ∈ [(fp32, 0x7F800000), (fp32, 1), (bf16, 0xFF7F), (e4m3, 0x7E), (e5m2, 0xFC)],
        p.2 < 2 ^ (1 + p.1.eb + p.1.m) ∧ (p.1.dec p.2).isNan = false := by decide

/-- O29: the commands of a gather cell with tensor 5 in each format that they admit. -/
def onGather (fmt : Nat) : State :=
  onTensor 1728 .c fmt false [(1, 0x0005000000000000), (2, 7)] fun c =>
    withQ 8 .mem .c .l [] (withQ 9 .mem .l .c [] (withQ 0 .mem .c .l []
      { c with k := [(3, 1)], gs := { c.gs with gwalk := some [0x00050005] } }))

theorem test_meets_gather_commands :
    (let s := onGather 4
     let m := moved s
     Issues { spaces := [.gs], timed := false } [(1 : BitVec 4).setWidth 6, (2 : BitVec 4).setWidth 6] s
      ∧ Issues { spaces := [.gs], timed := false } [(1 : BitVec 4).setWidth 6] s
      ∧ Issues { spaces := [.gs] } [(1 : BitVec 4).setWidth 6, (2 : BitVec 4).setWidth 6, (2 : BitVec 4).setWidth 6] s ∧ (issueCtx s).timed = false
      ∧ (takeToks m (issueCtx s).key { kd := 0, k1 := 3, k2 := 0, k3 := 0 }).isSome = true ∧ memDst m (issueCtx s) 8 = true
      ∧ consumer m (issueCtx s) 9 = true ∧ memDst m (issueCtx s) 0 = true
      ∧ (cellAt m (issueCtx s).key).gs.gwalk = some [0x00050005] ∧ (walkFmtOk m (ctxOf m (issueCtx s).key) (dw [0x00050005] 0)).isOk = true
      ∧ kindCount m (issueCtx s).key OpKind.isWalk < 64 ∧ readA m (issueCtx s).key 2 ≠ 0 ∧ (readA m (issueCtx s).key 2).toNat < 2 ^ 32)
    ∧ dstReady .gs (moved (onGather 4)) (issueCtx (onGather 4)) 15 = .ok ()
    ∧ (∀ fmt ∈ [1, 14], let s := onGather fmt
        descFor (moved s) (ctxOf (moved s) (issueCtx s).key) (tidOf (readA (moved s) (issueCtx s).key 1)) = some (d1 fmt)
        ∧ kindCount (moved s) (issueCtx s).key OpKind.isPath < 16
        ∧ bits (readA (moved s) (issueCtx s).key 2) 50 32 + bits (readA (moved s) (issueCtx s).key 2) 31 0 ≤ spadSize (issueCtx s).key) :=
  ⟨⟨issues_of _ _ _ (by decide), issues_of _ _ _ (by decide), issues_of _ _ _ (by decide), by decide⟩, rfl, by decide⟩

/-- O30: bank operations of a stratum cell on tensor 5 in each format that they admit. -/
theorem test_meets_bank_commands :
    (let s := onTensor 2304 .c 14 false [] id
     Issues { spaces := [.st], timed := false } [(1 : BitVec 4).setWidth 6, (2 : BitVec 4).setWidth 6] s)
    ∧ ∀ fmt ∈ [0, 4, 5, 6, 12, 14],
        let s := onTensor 2304 .c fmt false [(1, 0x0005000000000000), (2, 0x1000000), (3, 0x0005000000000010)] fun c =>
          withQ 8 .mem .c .l [] (withQ 15 .mem .l .c [] (withQ 0 .mem .c .l [] c))
        let m := moved s
        kindCount m (issueCtx s).key OpKind.isBank < 16 ∧ descFor m (ctxOf m (issueCtx s).key) (tidOf (readA m (issueCtx s).key 1)) = some (d1 fmt)
        ∧ descFor m (ctxOf m (issueCtx s).key) (tidOf (readA m (issueCtx s).key 3)) = some (d1 fmt)
        ∧ (takeToks m (issueCtx s).key (tk 1)).isSome = true ∧ memDst m (issueCtx s) 8 = true ∧ consumer m (issueCtx s) 15 = true
        ∧ memDst m (issueCtx s) 0 = true ∧ (readA m (issueCtx s).key 2).toNat ≤ 2 ^ 24 :=
  ⟨issues_of _ _ _ (by decide), by decide⟩

/-- A stratum cell of the middle of a stack, with neighbours above and below in its region and FIFOs. -/
def onFifo (up down : Fifo) : State :=
  let s := onCell 2320 .c false (fun c => { c with fifo := down, v := [(1, 9)] }) w5
  { setCell (setCell s 2336 { reg := 1, fifo := up }) 2304 { reg := 1 } with per := 7 }

/-- O31: free, full, closing and gated FIFOs, and an entry that is just present. -/
theorem test_meets_vertical_fifo :
    (let s := onFifo {} { ents := [{ data := 3, due := 7 }] }
     let m := moved s
     Issues { spaces := [.st], timed := false } (aFields .st [(1, false)]) s ∧ Issues { spaces := [.st], timed := false } [] s
      ∧ Issues { spaces := [.st] } [] s ∧ portLive m (issueCtx s).key (upPort (issueCtx s).key) = true ∧ portLive m (issueCtx s).key (downPort (issueCtx s).key) = true
      ∧ (fifoAt m ((issueCtx s).key + 16)).free m.per ≠ 0 ∧ (fifoAt m (issueCtx s).key).ents = { data := 3, due := 7 } :: [])
    ∧ (let s := onFifo { ents := List.replicate 8 { data := 0, due := 0 } } {}
       (fifoAt (moved s) ((issueCtx s).key + 16)).free (moved s).per = 0)
    ∧ (let s := onFifo { closing := true } {}
       (fifoAt (moved s) ((issueCtx s).key + 16)).closing = true)
    ∧ (∃ v t, readSrc .st 32 (moved (onFifo {} {})) (issueCtx (onFifo {} {})) 1 true = .ok (v, t))
    ∧ dstReady .st (moved (onFifo {} {})) (issueCtx (onFifo {} {})) 15 = .ok () :=
  ⟨⟨issues_of _ _ _ (by decide), issues_of _ _ _ (by decide), issues_of _ _ _ (by decide), by decide⟩, by decide, by decide, ⟨_, _, rfl⟩, rfl⟩

/-- A matrix cell whose C stream comes to a word, with format words, queues q8 to take A from and q9 to fill, and a header. -/
def onTiles (timed : Bool) (fq : List Word) : State :=
  onCell 0 .c timed (fun c => withQ 8 (if timed then .sched else .mem) .l .c [] (withQ 9 (if timed then .sched else .mem) .c .w []
    { c with chans := [{ ch := 0, q := 8 }], k := [(1, 1)],
             mx := { c.mx with fq := fq, cem := 1, hdrs := [(0, { valid := true, k := 1, nsc := 1, p := 1 })] } })) w5

/-- O32, MLOAD and MMA: a load word and a compute word of K = 1, a malformed one, in both modes with their stamps. -/
theorem test_meets_tile_commands :
    (∀ timed ∈ [false, true],
      let s := onTiles timed [0x8001, 0x4000]
      let m := moved s
      (loadWordOk 0x8001).isSome = true ∧ loadWordOk 0 = none ∧ (cellAt m (issueCtx s).key).mx.fq = 0x8001 :: [0x4000]
      ∧ spadBad m (issueCtx s).key 0 (loadBytes ((loadWordOk 0x8001).getD {})) = false
      ∧ bits 0x8001 45 29 % 32 = 0 ∧ (∀ h, loadWordOk 0x8001 = some h → bits 0x8001 45 29 + loadBytes h ≤ 131072)
      ∧ (compWordOk 0x4000 false).isSome = true ∧ (headersOk (cellAt m (issueCtx s).key).mx 1 0 1 1 false).isSome = true
      ∧ (cellAt m (issueCtx s).key).mx.mloads = [] ∧ (cellAt m (issueCtx s).key).mx.strips = [] ∧ (cellAt m (issueCtx s).key).mx.mmas = []
      ∧ (cellAt m (issueCtx s).key).lat = [] ∧ consumer m (issueCtx s) 8 = true
      ∧ (qFeed m (issueCtx s).key 8).kind = (if (issueCtx s).timed then .sched else .mem)
      ∧ (takeToks m (issueCtx s).key { kd := 0, k1 := 1, k2 := 0, k3 := 0 }).isSome = true
      ∧ (if (issueCtx s).timed then (issueCtx s).t % 65536 else 0) = (if timed then 5 else 0))
    ∧ Issues { spaces := [.mx] } [] (onTiles true []) ∧ Issues { spaces := [.mx] } [] (onTiles false []) :=
  ⟨by decide, issues_of _ _ _ (by decide), issues_of _ _ _ (by decide)⟩

/-- O32, strips: their queues' roles, a channel to the own cell and a stamp that fails. -/
theorem test_meets_tile_strips :
    (∀ timed ∈ [false, true], let s := onTiles timed []
      producer (moved s) (issueCtx s) 9 = true ∧ consumer (moved s) (issueCtx s) 8 = true
      ∧ (addTok (setMx (healTiles (moved s) (issueCtx s).key 255) (issueCtx s).key fun y => clearPcur (clearTiles y 255) 255) (issueCtx s).key 0).2 = true
      ∧ zBad (cellAt (moved s) (issueCtx s).key) 7 124 4 = false
      ∧ ¬ (9 = (if (issueCtx s).timed then (issueCtx s).t % 65536 else 0)))
    ∧ (let s := onTiles true []
       Issues { spaces := [.mx], elastic := false } [] s ∧ chanOf (moved s) (issueCtx s).key 0 = some { ch := 0, q := 8 }
        ∧ chanDest (moved s) (issueCtx s).key { ch := 0, q := 8 } = some 0 ∧ qBits 8 = 2048) :=
  ⟨by decide, issues_of _ _ _ (by decide), by decide⟩

/-- O33: a group of one member at scope 3, with patterns of tensor 5 and a round to end. -/
theorem test_meets_collectives :
    let s := onTensor 1152 .w 5 false [(2, 0xFFFF000000000000)] fun c =>
      { c with dw := descs01.take 4, spad := [(2, 1), (4, 6), (8, 1), (16, 64)] }
    let m := moved s
    let ws := readDesc m (issueCtx s).key (issueCtx s).seq 0
    Issues { spaces := [.lw], timed := false, wOnly := true } [2] s ∧ Issues { spaces := [.lw], timed := false, wOnly := true } [2, 5] s
      ∧ (groupDesc m (issueCtx s).key (src s 2)).isOk = true
      ∧ (issueCtx s).timed = false ∧ accFull (issueCtx s) m = false ∧ (takeToks m (issueCtx s).key (tk 0)).isSome = true
      ∧ (∀ p ∈ m.ops, p.1 < m.nextId) ∧ patCheck m (issueCtx s).key (ctxOf m (issueCtx s).key) ws = 0
      ∧ collFmtOk m (ctxOf m (issueCtx s).key) 2 ws = true
      ∧ (∀ g, groupDesc m (issueCtx s).key (src s 2) = .ok g → g.rank = (src s 5).toNat)
      ∧ (m.ops.filter fun p => decide (p.2.key = (issueCtx s).key ∧ p.2.kind = .coll) && !p.2.units).length < 4
      ∧ (∀ kind < 5, (collCounts kind 1 0 0 (patCount ws) (patCount ws)).2 = true)
      ∧ (let u := { s with ops := [(0, { newOp .coll with key := 1152 })], nextId := 1 }
         ((moved u).ops.find? fun p => decide (p.2.key = (issueCtx u).key ∧ p.2.kind = .coll ∧ p.2.coll.kind < 5
            ∧ p.2.coll.desc = spOff (src u 2)) && !p.2.units).isSome = true ∧ ∀ p ∈ (moved u).ops, p.1 < (moved u).nextId)
      ∧ (∀ p ∈ m.ops, p.2.key = (issueCtx s).key → p.2.kind = .coll → p.2.units = false → p.2.coll.desc ≠ 0)
      ∧ localMember m 3 (0, 0, 0, 0) = true ∧ localMember m 4 (9, 0, 0, 0) = false ∧ linkTo m 9 = none :=
  ⟨issues_of _ _ _ (by decide), issues_of _ _ _ (by decide), by decide, by decide, by decide, by decide, by decide, by decide, by decide,
   fun g h => by cases h; decide, by decide⟩

/-- A cell of a running region with one update in flight, due now, and the queue q0. -/
def landing (key : Nat) (t : Target) (kind : QKind) (es : List QEntry) : State :=
  onCell key .s true (fun c => withQ 0 kind .s .s es { c with lat := [{ due := 5, tgt := t, val := 3 }], k := [(1, 65534), (2, 65535)] }) w5

/-- O34: a landing of each kind, into a queue with one free slot and a full one, and a token at its last count and beyond. -/
theorem test_meets_landings :
    (∀ t ∈ [Target.a 63, .v 31, .m 7, .q 0, .k 1, .k 2, .csr 0x48, .desc true 7 7],
      let s := landing 1152 t .sched (List.replicate 15 {})
      landsNow s 1152 = true ∧ latchDue s 1152 false { due := 5, tgt := t, val := 3 } = true)
    ∧ (let s := landing 0 .cem .sched []
       landsNow s 0 = true ∧ latchDue s 0 false { due := 5, tgt := .cem, val := 3 } = true)
    ∧ (let s := landing 1152 (.q 0) .sched (List.replicate 15 {})
       (qEnts s 1152 0).length < qCap 0 ∧ (addTok (setCell s 1152 { cellAt s 1152 with lat := [] }) 1152 1).2 = true
        ∧ (addTok (setCell s 1152 { cellAt s 1152 with lat := [] }) 1152 2).2 = false)
    ∧ (let s := landing 1152 (.q 0) .sched (List.replicate 16 {})
       latchDue s 1152 false { due := 5, tgt := .q 0, val := 3 } = true ∧ qCap 0 ≤ (qEnts s 1152 0).length
        ∧ (qFeed s 1152 0).kind = .sched) := by decide

/-- O35: a delivery that is due, into a queue with room and a full one; a stratum stream that has waited; an elastic phase of
one cell at CLUSTER and PKG scope, and one that is merged and whose fence is complete. -/
theorem test_meets_deliveries :
    (∀ n ∈ [15, 16],
      let s := onCell 1152 .s true (fun c => withQ 0 .sched .s .s (List.replicate n {})
        { c with inc := [{ due := 5, q := 0, data := 3, mark := false, ord := 0 }] }) w5
      landsNow s 1152 = true ∧ (5 : Nat) ≤ (regOf s 1152).tide ∧ decide ((qEnts s 1152 0).length < qCap 0) = decide (n < 16))
    ∧ fifoLate { onCell 2304 .c false (fun c => { c with sc := { c.sc with since := some 0, pre := [(0, 0x000C001800000000)] } }) 0x000C001800000000
                 with tick := 100001 } 2304 = true
    ∧ (∀ scope ∈ [1, 3], phaseReady (onCell 1152 .s false (fun c =>
        { c with phase := some { grp := 0x100000000, scope := scope, timed := false, at_ := 0, ep := 0 } }) w5) 1152 = some [1152])
    ∧ (let s := onCell 1152 .s false (fun c =>
         { c with phase := some { grp := 0x100000000, scope := 3, timed := false, at_ := 0, ep := 0, merged := true } }) w5
       phaseReady s 1152 = none ∧ phaseFenced s 1152 = true) := by
  decide

/-- A timed cell whose region is changed by g, the counters of the package by h. -/
def regionIs (g : Region → Region) : State :=
  let s := onCell 1152 .s true (fun c => c.setStream .s { c.stream .s with preTo := 70, pre := [(0, w5), (8, w5)] }) w5
  { setReg s 1 (g (regAt s 1)) with tick := 200000, per := 60 }

/-- An elastic stream whose image lies in a failed base, and that has fetched no word of it. -/
def badImage : State :=
  { onTensor 1152 .l 0 false [] fun c => { c with sl := { c.sl with pre := [], img := 0x0005000000000000 } } with
    tt := [(ttKey 1 5 0, 1)], failed := [12], pauseT := none }

/-- O36: each condition of a stall and of its end. -/
theorem test_meets_stalls :
    (let s := onCell 1152 .l false (fun c => { c with sl := { c.sl with pre := [] } }) w5
     isCore 1152 = false ∧ (streamAt s 1152 .l).counted = false ∧ canIssue s 1152 .l = true ∧ (streamAt s 1152 .l).fetchP ≤ s.per
      ∧ (streamAt s 1152 .l).pre = [] ∧ (streamAt s 1152 .l).pc < 8 * (streamAt s 1152 .l).nword ∧ preDue s 1152 .l = false
      ∧ wordBad s 1152 .l (streamAt s 1152 .l).pc = false)
    ∧ wordBad badImage 1152 .l 0 = true
    ∧ (let s := regionIs fun r => { r with tide := 6 }
     isCore 1152 = false ∧ (streamAt s 1152 .s).counted = true ∧ preDue s 1152 .s = true ∧ preLimit s 1152 = some 70)
    ∧ freezeDue (regAt (regionIs fun r => { r with stalls := [{ z := 5, key := 1152, seq := .s }] }) 1) = true
    ∧ (let s := regionIs fun r => { r with frozen := true, stalls := [{ z := 5, key := 1152, seq := .s }] }
       (regOf s 1152).frozen = true ∧ (∃ x ∈ (regOf s 1152).stalls, x.key = 1152 ∧ x.seq = Seq.s) ∧ releaseHolds s 1152 .s = true)
    ∧ (let s := regionIs fun r => { r with frozen := true, relP := some 60 }
       unfreezeDue s (regAt s 1) = true)
    ∧ (let s := regionIs fun r => { r with frozen := true, frzT := 99999 }
       stallLate s (regAt s 1) = true)
    ∧ (let s := regionIs fun r => { r with started := false, passT := some 99999 }
       let s := setStreamAt s 1152 .s { streamAt s 1152 .s with resv := [{ cyc := 1, pc := 0, word := 0, short := true }] }
       startLate s (regAt s 1) = true ∧ startShort s 1 = some (1152, .s)) := by decide

/-- A matrix cell with commands of the engine under way, at cycle 5. -/
def engineRuns (mx : MxState) (es : List QEntry) : State :=
  onCell 0 .c true (fun c => withQ 8 .sched .l .c es { c with mx := mx }) w5

def row0 (rows : List TakenRow) : MmaRun :=
  { start := 5, per := false, ord := 1, pc := 0, q := 8, mmas := false, cem := 1, afmt := 0, wa := 8, k := 1, nsc := 1, bset := 0, rp := 8,
    m := 1, next := rows.length, rows := rows, nland := 0, kd := 0 }

def load0 (n : Nat) : MloadRun :=
  { land := 5, per := false, t := 0, hdr := { valid := true, k := 1, nsc := 1, p := 1 }, bset := 0, bytes := List.replicate n 0, kd := 0,
    ord := 1, pc := 0 }

def strip0 (kind : Nat) : StripRun :=
  { kind := kind, start := 3, per := false, ord := 1, pc := 0, q := 8, t := 0, s := 0, ch := 0, next := 0, count := 8,
    ents := List.replicate 8 1, kd := 0 }

/-- O37: a row to take with and without its entry, a row to land, a load, and strips to deliver and to take. -/
theorem test_meets_matrix_events :
    takeDue (engineRuns { mmas := [row0 []] } []) 0 (row0 []) = true ∧ (row0 []).epr = 1
    ∧ (let r := row0 [{ row := 0, land := 4, e0 := 0, e1 := 0 }]
       rowDue (engineRuns { mmas := [r] } []) 0 r = true ∧ r.bad (cellAt (engineRuns { mmas := [r] } []) 0) 0 = false
        ∧ r.bad { ecc := [(1, 1)] } 0 = true)
    ∧ loadDue (engineRuns { mloads := [load0 192] } []) 0 (load0 192) = true
    ∧ (expandB (invalidate {} 0 0 1) (load0 192)).isSome = true
    ∧ stripDue (engineRuns { strips := [strip0 0] } []) 0 (strip0 0) = true
    ∧ stripDue (engineRuns { strips := [strip0 1] } [{ data := 1 }]) 0 (strip0 1) = true := by decide

/-- The cell's accesses: a request of the own cell for the first word of tensor 5. -/
def req0 (kind : ReqKind) : Req := { kind := kind, key := 1152, seq := .s, addr := 0x0005000000000000, n := 4, dst := 1 }

def withReq (r : Req) (f : State → State) : State :=
  f { onTensor 1152 .s 4 false [] id with reqs := [(1, r)], nextId := 2, tick := 200000, tt := [(ttKey 1 5 0, 1)] }

/-- O38: a store before its module and at its home, a bypassing load, an atomic, a bad sector, and a load that is answered. -/
theorem test_meets_requests :
    (let s := withReq (req0 .store) id
     sfind s.reqs 1 = some (req0 .store) ∧ (req0 .store).peer = false ∧ reqFree s (req0 .store) = true ∧ (req0 .store).out = 0)
    ∧ (let r : Req := { req0 .store with out := 7 }
       let s := withReq r id
       (∀ p ∈ dieStores s (dieOf r.key), r.out ≤ p.2.out) ∧ reqBad (zeroFill s r.ctx 5 0) r = false ∧ (tidOf r.addr, (reqSectors s r).1) = (5, 0))
    ∧ (let r : Req := { req0 .load with bypass := true }
       let s := withReq r id
       reqFree s r = true ∧ reqBad s r = false)
    ∧ (let r : Req := req0 (.amo 0)
       let s := withReq r id
       r.atomic = true ∧ reqBad (zeroFill s r.ctx 5 0) r = false ∧ ∀ j < (reqSectors s r).2.2 + 1 - (reqSectors s r).2.1,
         sectorClear s r.key r.ctx 5 0 ((reqSectors s r).2.1 + j) = true)
    ∧ (let s := withReq (req0 .load) fun s => { s with failed := [12] }
       reqBad s (req0 .load) = true)
    ∧ (let r : Req := { req0 .load with applied := true, value := 7, bypass := true }
       r.reads = true ∧ r.lost = false ∧ r.bypass = true ∧ r.acq = false ∧ r.saw = []) := by decide

/-- O38: an atomic that leaves its base, not applied and applied, after 200,000 ticks; a peer access as late. -/
theorem test_meets_request_errors :
    (let s := withReq (req0 (.amo 0)) id
     (req0 (.amo 0)).atomic = true ∧ remoteReq s (req0 (.amo 0)) = true ∧ (req0 (.amo 0)).returning = true
      ∧ (req0 (.amo 0)).born + 200000 ≤ s.tick)
    ∧ (let r : Req := { req0 (.amo 0) with applied := true, dst := 0 }
       r.returning = false ∧ isCore r.key = false)
    ∧ (let r : Req := { req0 .load with peer := true }
       r.atomic = false ∧ r.born + 200000 ≤ (withReq r id).tick) := by decide

/-- An operation of the cell that is done, and one that waits for its queue. -/
def withOp (o : Op) (f : Cell → Cell) : State :=
  { onCell 1152 .l false (fun c => f { c with dl := descs01 }) w5 with ops := [(1, o)], tick := 200000 }

def op0 (kind : OpKind) : Op := { kind := kind, key := 1152, seq := .l, reg := 1, pc := 0, ord := 1, ds := (descs01.drop 4).map (·.2) }

/-- O38: an operation that ends with its token counted, and past the last count; one that waits too long. -/
theorem test_meets_operation_ends :
    (let o : Op := { op0 .pref with units := true, kd := 1, dst := 0 }
     let s := withOp o fun c => { c with k := [(1, 65534)] }
     opOver s 1 o = true ∧ o.kind ≠ .input
      ∧ (addTok (writeA { s with ops := sdel s.ops 1 } o.key o.dst o.reply) o.key o.kd).2 = true
      ∧ (addTok (writeA (withOp o fun c => { c with k := [(1, 65535)] }) o.key o.dst o.reply) o.key o.kd).2 = false)
    ∧ (let o : Op := { op0 .wrq with q := 0, left := 1 }
       let s := withOp o (withQ 0 .mem .s .l [])
       o.t0 + (regAt s o.reg).stallto.toNat < s.tick ∧ waitsQueue s 1 o = true) := by decide

/-- A region of one gather cell with a record of 6 levels of one iteration, whose S entry is word 4. -/
def nest0 (next : Nat) : Nest :=
  { words := [0x1AC68E, 0x100000001, 0x100000001, 0x100000001, 0x22000, 0xFFFFFFFFFFFF0004], next := next }

def withNest (next : Nat) (t : Option Task) (f : Stream → Stream) : State :=
  let s := onCell 1152 .s false (fun c => { c with task := t, ss := f { c.ss with ended := true } }) w5
  setReg s 1 { regAt s 1 with nests := [nest0 next] }

/-- O39: the last iteration of a record and its end; a task that starts and one that has ended. -/
theorem test_meets_tasks :
    (let s := withNest 0 none id
     walkDue s (regAt s 1) 0 = true ∧ servedNest (regAt s 1) 0 = some (0, nest0 0) ∧ (nest0 0).next < nestTotal (nest0 0)
      ∧ freeCell s (regAt s 1) (nest0 0) = some 1152 ∧ bits ((nest0 0).words.getD 4 0) 24 22 = 0)
    ∧ (let s := withNest 1 none id
       walkDue s (regAt s 1) 0 = true ∧ nestTotal (nest0 1) ≤ (nest0 1).next)
    ∧ (let t : Task := { nest := 0, ord := 0, inputs := 0, started := false, status := 0 }
       taskReady (withNest 1 (some t) id) 1152 = true ∧ nestEntry (nest0 1) .s = some 4 ∧ nestEntry (nest0 1) .l = none)
    ∧ (let t : Task := { nest := 0, ord := 0, inputs := 0, started := true, status := 0 }
       taskOver (withNest 1 (some t) fun st => { st with task := true }) 1152 = true) := by decide

/-- A save area of one slot of 2 MiB: tensor t of bytes, in tiles of one frame each, and its resident tiles. -/
def saveDesc : Desc := { lord := [0, 0, 0, 0, 0], ext := [2097152, 1, 1, 1, 1], tile := [65536, 1, 1, 1, 1] }

def saveTiles (t : Nat) : SMap Word := (List.range 32).map fun i => (ttKey 1 t i, BitVec.ofNat 64 (1 + (i + 1) * 2 ^ 24))

/-- The region of a cell, changed, in a package whose context 0 saves into tensor 6. -/
def saving (timed : Bool) (f : Cell → Cell) (g : Region → Region) : State :=
  let s := onCell 1152 .s timed f w5
  let s := setPreg (setPreg s 0x20 0x403 0x100001) 0x20 0x402 0x186A000350006
  { setReg s 1 (g (regAt s 1)) with tens := [(65536 + 6, saveDesc)], tt := saveTiles 6, tick := 300000 }

def fault0 (code : Nat) : FaultRec :=
  { d := 4, ldie := 0, row := 0, col := 0, seq := .s, engn := false, code := code, applied := 0, pc := 0, taddr := 0, arg := 0, shadow := false,
    ord := 1 }

/-- O39: a swap that is due, and a region whose streams have ended. -/
theorem test_meets_swap_and_retirement :
    (let s := saving true id fun r => { r with stage := .planes, startF := some 0 }
     swapDue s (regAt s 1) = true ∧ (regAt s 1).resume = 0)
    ∧ (let s := saving false (fun c => { c with ss := { c.ss with ended := true } }) fun r =>
         { r with cmd := some { queue := 1, tag := 0, opc := 1, notify := false } }
       retireDue s (regAt s 1) = true ∧ (regAt s 1).cmd = some { queue := 1, tag := 0, opc := 1, notify := false }
        ∧ (regAt s 1).yieldCmd = none ∧ (regAt s 1).endCmd = none) := by decide

/-- O40: a fault of a timed stream, alone and behind one; a fault that ends an elastic stream. -/
theorem test_meets_faults :
    (let s := onCell 1152 .s true id w5
     let r := regAt s (cellAt s 1152).reg
     isCore 1152 = false ∧ ((cellAt s 1152).stream .s).stub = .none ∧ ((cellAt s 1152).stream .s).counted = true ∧ r.haltD = none
      ∧ r.started = true ∧ r.frozen = false ∧ r.swait = none)
    ∧ (let s := saving true id fun r => { r with haltD := some 4, haltH := 68 }
       (regAt s 1).haltD = some 4 ∧ 4 < (regAt s 1).tide)
    ∧ (let s := onCell 1152 .s false id w5
       ((cellAt s 1152).stream .s).counted = false ∧ endsClass 3 = true ∧ ((cellAt s 1152).stream .s).task = false
        ∧ ((cellAt s 1152).stream .s).fcode = 0) := by decide

/-- O41: a stop by a fault, with a slot that takes its record and with one whose tile has gone, and by a trap of a cell with
a stub. -/
theorem test_meets_stops :
    (let s := saving true id fun r => { r with haltD := some 4, haltH := 5, faults := [fault0 3] }
     let u := stopWork s 1
     stopDue s (regAt s 1) = true ∧ (regAt s 1).stage = .running ∧ (regAt u 1).ending = false ∧ (regAt u 1).forced = false
      ∧ firstFault (regAt u 1).faults = some (fault0 3)
      ∧ haltRecoverable u (regAt u 1) (fault0 3) = false
      ∧ (putRecord u 1 (recOf u 1 1 3 0 0 (some (fault0 3)) 0 5)).2 = true
      ∧ (let g := { u with tt := [] }
         (putRecord g 1 (recOf g 1 1 3 0 0 (some (fault0 3)) 0 5)).2 = false))
    ∧ (let s := saving true (fun c => { c with stub := some 8 }) fun r => { r with haltD := some 4, haltH := 5, faults := [fault0 0x20] }
       let u := stopWork s 1
       stopDue s (regAt s 1) = true ∧ firstFault (regAt u 1).faults = some (fault0 0x20)
        ∧ haltRecoverable u (regAt u 1) (fault0 0x20) = true
        ∧ (putRecord u 1 (recOf u 1 2 0x20 0 0 (some (fault0 0x20)) 0 5)).2 = true) := by decide

/-- O41: what is asked of a running region. -/
theorem test_meets_region_requests :
    (let c : CmdRef := { queue := 1, tag := 0, opc := 5, notify := false }
     let s := saving true id fun r => { r with debugs := [(c, 0, 0, 0)] }
     (regAt s 1).stage = .running ∧ (regAt s 1).swait = none ∧ (regAt s 1).debugs = [(c, 0, 0, 0)]
      ∧ (regAt s 1).dies[0]? = some (dieOfKey 1152) ∧ (regCells (regAt s 1)).contains (keyOn (dieOfKey 1152) 0 0) = true
      ∧ (regAt s 1).ypend = false ∧ hasTimed s (regAt s 1) = true)
    ∧ (regAt (saving true id fun r => { r with swait := some 5 }) 1).swait ≠ none
    ∧ (let s := saving true id fun r => { r with slackd := 0x40001 }
       slackFar s (regAt s 1) = true ∧ timedOf s (regAt s 1) = (1152, .s) :: [])
    ∧ (let s := saving true id fun r => { r with ypend := true, yldT := 200000 }
       yieldLate s (regAt s 1) = true ∧ (regAt s 1).haltD = none ∧ (regAt s 1).started = true ∧ (regAt s 1).frozen = false
        ∧ (regAt s 1).swait = none) := by decide

/-- O42: saves of a timed and an elastic region, one with an entry left, and the three ways back. -/
theorem test_meets_yields :
    (∀ timed ∈ [false, true],
      let s := saving timed (fun c => { c with ss := { c.ss with held := some 2 } }) fun r => { r with swait := some 5 }
      (if timed then slackSaveDue s (regAt s 1) else elasticSaveDue s (regAt s 1)) = true
      ∧ (let v := landAllStop s 1
         let u := mergeRegion (settle v 1) 1
         let rec0 := recOf u 1 3 0 0 (if timed then (regAt s 1).lastix.toNat else firstHeld s (regAt s 1)) none 0 (regAt s 1).tide
         (∀ k ∈ regCells (regAt v 1), yieldBad v k = false)
          ∧ (let cells := rec0.cells.map fun p => (p.1, slackCell p.2 (cellEntry (regAt u 1) p.2))
             (putRecord u 1 { rec0 with hcyc := (regAt s 1).tide, ops := [], cells := cells }).2 = true)))
    ∧ (let s := saving true (withQ 0 .sched .s .s [{}]) fun r => { r with swait := some 5 }
       slackSaveDue s (regAt s 1) = true
        ∧ (regCells (regAt (landAllStop s 1) 1)).filter (yieldBad (landAllStop s 1)) = 1152 :: [])
    ∧ (let s := saving true id fun r => { r with stage := .stubs, resP := some 0 }
       stubDue s (regAt s 1) = true ∧ ∀ k ∈ regCells (regAt s 1), (cellAt s k).shadow = [])
    ∧ (let s := saving true (fun c => { c with ss := { c.ss with stub := .rebuild, ended := true } }) fun r => { r with stage := .rebuild }
       slackDue s (regAt s 1) = true ∧ (regCells (regAt s 1)).find? (rebuildBad s) = none)
    ∧ (let s := saving true id fun r => { r with stage := .resuming, resume := 3, resP := some 0 }
       slackDue s (regAt s 1) = true) := by decide

/-- A package with connection 3 of a generation and queue 5 of context 0, whose tensor 5 lies in one resident tile; tensor 7 is
its save area of one slot. -/
def hosted (gen : Nat) (q : HQueue) : State :=
  let s : State := { State.reset with boot := false, conns := [(3, { gen := gen, rx := 7 })], queues := [(0, {}), (5, q)], ctxs := [255, 0] }
  { setPreg (setPreg (setPreg s 0x20 0x403 0x100001) 0x20 0x402 0x350007) 0x20 0x400 0xE0100000 with
    tens := [(65536 + 5, d1 0), (65536 + 7, saveDesc)], tt := (ttKey 1 5 0, 1) :: saveTiles 7, mixa := 0x1C, mixd := 1 }

def q5 : HQueue := { ctx := 0, conn := 3, ring := 0x0005000000000000 }

def hdr5 (gen : BitVec 4) : HostHdr := { conn := 3, gen := gen, seq := 7, ack := 0, qnum := 5 }

/-- O43: a message in order on each generation, a tail within the ring and one beyond it, the last bytes of a tensor and one
byte more, and a queue that is switched out. -/
theorem test_meets_host_requests : ∀ gen ∈ [1, 2, 3],
    let s := hosted gen q5
    let m := hdr5 (BitVec.ofNat 4 gen)
    let c : Conn := { gen := gen, rx := 7 }
    let u := taken s m c
    InOrder s m c ∧ queueAt s m.qnum.toNat = some q5 ∧ q5.conn = m.conn ∧ q5.live = true
      ∧ overrun { q5 with tail := (16 : Word).setWidth 16 } = false ∧ overrun { q5 with tail := (17 : Word).setWidth 16 } = true
      ∧ hostRange u q5.ctx 0x00050000000003F8 8 = 0 ∧ bootRefused u q5.ctx 0x00050000000003F8 8 = false
      ∧ hostRange u q5.ctx 0x00050000000003F9 8 ≠ 0 ∧ (8 + 8 : Nat) ≤ payloadMax gen := by
  intro gen h
  simp only [List.mem_cons, List.not_mem_nil, or_false] at h
  rcases h with rfl | rfl | rfl <;> exact ⟨⟨by decide, by decide, by decide, by decide, by decide⟩, by decide⟩

/-- O43: what the transport asks. -/
theorem test_meets_host_transport :
    (let s := hosted 2 q5
     s.boot = false ∧ s.rstT = none ∧ (3 : Nat) < 1000 ∧ (hdr5 3).flags = 0 ∧ (hdr5 3).mbz = 0 ∧ (hdr5 3).gen.toNat = 3 ∧ bits (0x33 : Word) 63 8 = 0 ∧ bits (7 : Word) 63 32 = 0
      ∧ (sfind s.conns 3).isSome = true ∧ Nat.max 1 (bits (0x33 : Word) 3 0) ≤ Nat.min 3 (bits (0x33 : Word) 7 4)
      ∧ sfind s.conns 3 = some { gen := 2, rx := 7 } ∧ isReach 3 = false ∧ queueAt s 5 = some q5 ∧ s.mixd.getLsbD 44 ≠ true)
    ∧ (let x : OutMsg := { conn := 3, seq := 9, typ := 3 }
       let c : Conn := { gen := 2, rx := 7, ackT := some 90000, unack := [x] }
       let s := { hosted 2 q5 with conns := [(3, c)], tick := 100000 }
       sfind s.conns 3 = some c ∧ ackDue s c = true ∧ x.seq = (9 : BitVec 32).toNat ∧ x.sentT + 100000 ≤ s.tick)
    ∧ (∀ e ∈ [Encap.ether 0x9A4B 3, .udp6 41811 0 0, .ipv4], ({ encap := e, len := 64, good := true, data := [] } : Frame).good = true)
    ∧ (0x9A4B : Nat) ≠ 0x9A4C ∧ (41811 : Nat) ≠ 41812 := by decide

/-- O43: a command that is known, one that is not, and a ring that cannot be read. -/
theorem test_meets_consumption :
    (let q := { q5 with tail := 16, cons := 15, dne := 15 }
     let s := hosted 2 q
     let w : Word := (wordsOf 8 (hostRead s 0 (byteAfter s 0 q.ring (64 * (q.cons.toNat % 2 ^ q.lg))) 64)).getD 0 0
     queueAt s 5 = some q ∧ consumeDue q = true ∧ hostRange s 0 (byteAfter s 0 q.ring (64 * (q.cons.toNat % 2 ^ q.lg))) 64 = 0
      ∧ knownOpc (bits w 7 0) = true)
    ∧ (let q := { q5 with tail := 16, cons := 15, dne := 0xFFFF, lg := 5 }
       let s := hostWrite (hosted 2 q) 0 0x00050000000003C0 [7]
       let w : Word := (wordsOf 8 (hostRead s 0 (byteAfter s 0 q.ring (64 * (q.cons.toNat % 2 ^ q.lg))) 64)).getD 0 0
       consumeDue q = true ∧ hostRange s 0 (byteAfter s 0 q.ring (64 * (q.cons.toNat % 2 ^ q.lg))) 64 = 0 ∧ knownOpc (bits w 7 0) = false)
    ∧ (let q := { q5 with tail := 17, cons := 16, dne := 16, lg := 5 }
       let s := hosted 2 q
       consumeDue q = true ∧ hostRange s 0 (byteAfter s 0 q.ring (64 * (q.cons.toNat % 2 ^ q.lg))) 64 ≠ 0) := by decide

/-- A command of queue 5 or 0. -/
def cmd5 (queue : Nat) (w1 w2 w3 : Word) : Cmd :=
  { queue := queue, w0 := 0x10001, w1 := w1, w2 := w2, w3 := w3, w4 := 0, w5 := 0, w6 := 0, w7 := 0 }

/-- An image of one logical die of class 0 without cells; the last word is its CRC. -/
def image0 (crc : Word) : List Byte :=
  ([0x345444954, 0x1000000a0, 0x80, 0, 0, 0, 1, crc] ++ List.replicate 8 0 ++ [0x440000, 0, 0, 0]).flatMap fun w : Word => toBytes 8 w.toNat

/-- O44: a package that offers launches and one that does not; an image that the device accepts, with its binding and slot; the same with a wrong CRC, without a binding table, with a
slot that does not exist, with the priority 15, and with an image that cannot be read. -/
theorem test_meets_launch :
    let c := cmd5 5 0x0005000000000000 0x0005000000000380 0
    let at_ (crc : Word) : State :=
      hostWrite { hosted 2 q5 with mixa := 0x40000001C, mixb := 0x0C } 0 0x0005000000000000 (image0 crc)
    let s := at_ 0x970e42f5
    let b := image0 0x970e42f5
    let die : RDie := { hgt := 1, wid := 1 }
    (launchOpen s = true ∧ launchOpen (hosted 2 q5) = false ∧ bits (preg (setPreg s 0x20 0x403 0x100000) 0x20 0x403) 15 0 = 0 ∧ c.headOk = true ∧ bits c.w3 63 16 = 0 ∧ bits c.w3 3 0 = 0 ∧ (0 : Nat) ≤ maxPrio s 0 ∧ queueCtx s 5 = 0
      ∧ bits (preg s 0x20 (0x403 + 4 * 0)) 15 0 ≠ 0 ∧ s.regions = [] ∧ (planOf s 0 b).dies = [die])
    ∧ readImage s 0 c.w1 = some b ∧ imageStatus s 0 b = 0
    ∧ (readTable s 0 c.w2 1).bind (bindAll s [die]) = some [die]
    ∧ nestDestOk s 0 (planOf s 0 b) [die] = true ∧ slotOk s 0 0 [die] = true ∧ slotOk s 0 1 [die] = false
    ∧ imageStatus s 0 (image0 0) ≠ 0
    ∧ (readTable s 0 0x0005000000000400 1).bind (bindAll s [die]) = none
    ∧ readImage s 0 0x0005000000000400 = none := by decide
/-- Region 1 of context 0 on one cell of site 0, in the package of queue 5. -/
def regional (g : Region → Region) : State :=
  setReg (hosted 2 q5) 1 (g { handle := 1, ctx := 0, dies := [{ hgt := 1, wid := 1 }], listed := [0] })

def rec0 : StopRec :=
  { kind := 1, code := 3, nsec := 1, stub := 0, dcyc := 0, hcyc := 0, ldie := 0, row := 0, col := 0, seq := 0, engn := false, applied := 0,
    slix := 0, pc := 0, taddr := 0, per := 0, reg := {}, cells := [], ops := [] }

/-- O44: a halted region with its record, a running one, those that wait, one that holds cells, and a handle of none. -/
theorem test_meets_region_commands :
    (let c := cmd5 5 1 0 0
     c.headOk = true ∧ bits c.w1 63 16 = 0 ∧ c.zerosFrom 2 = true ∧ c.zerosFrom 3 = true ∧ bits c.w2 63 13 = 0)
    ∧ cmdRegion (regional id) (cmd5 5 2 0 0) 2 = none
    ∧ (let s := { regional fun r => { r with stage := .halted } with records := [(slotKey 0 0, rec0)] }
       let r := regAt s 1
       cmdRegion s (cmd5 5 1 0 0) 1 = some r ∧ sfind s.records (slotKey r.ctx r.slot) = some rec0
        ∧ resumeBinding s r 0 = some r.dies ∧ slotOk s r.ctx r.slot r.dies = true)
    ∧ (∀ st ∈ [Stage.leases, .cells, .halted, .parked, .planes, .running],
        let s := regional fun r => { r with stage := st }
        cmdRegion s (cmd5 5 1 0 0) 1 = some (regAt s 1) ∧ (regAt s 1).endCmd = none)
    ∧ (let s := regional fun r => { r with stage := .running }
       (regAt s 1).holds = true ∧ (regAt s 1).yieldCmd = none ∧ (regAt s 1).ending = false
        ∧ (regAt s 1).dies[0]? = some { hgt := 1, wid := 1 } ∧ inDie { hgt := 1, wid := 1 } 0 0 1 1 = true) := by decide

/-- O44: the highest priority of the context and one beyond it, for regions that hold cells and that wait for them. -/
theorem test_meets_priorities :
    let c (p : Word) := cmd5 5 (1 ||| p <<< 16) 0 0
    (∀ st ∈ [Stage.running, .cells],
      let s := regional fun r => { r with stage := st }
      cmdRegion s (c 14) 1 = some (regAt s 1) ∧ bits (c 14).w1 19 16 ≤ maxPrio s 0)
    ∧ bits (c 14).w1 19 16 = 14 ∧ bits (c 14).w1 63 20 = 0 ∧ (c 14).zerosFrom 2 = true ∧ bits (c 15).w1 19 16 = 15
    ∧ (let s := setPreg (regional id) 0x20 0x400 0xD0100000
       maxPrio s 0 < bits (c 14).w1 19 16) := by decide

/-- O44: a queue and a context that can be made and removed, and queue 5 switched in and out. -/
theorem test_meets_queues_and_contexts :
    (let s := hosted 2 q5
     let c : Cmd := { cmd5 0 0x0005000000000100 0x200000FFF 0x0005000000000000 with w4 := 0x3000F, w5 := 0x0005000000000200 }
     c.headOk = true ∧ bits c.w2 15 0 = 4095 ∧ bits c.w2 31 16 = 0 ∧ bits c.w2 63 36 = 0 ∧ bits c.w4 15 5 = 0 ∧ bits c.w4 63 32 = 0
      ∧ queueAt s 4095 = none ∧ bits c.w4 4 0 = 15 ∧ bits c.w2 35 32 ≠ 15 ∧ (sfind s.conns (bits c.w4 31 16)).isSome = true
      ∧ s.ctxs.contains 0 = true)
    ∧ (let s := hosted 2 q5
       bits (cmd5 0 5 0 0).w1 11 0 = 5 ∧ (cmd5 0 5 0 0).zerosFrom 2 = true ∧ queueAt s 5 = some q5 ∧ q5.dying = none)
    ∧ (let s := hosted 2 q5
       let c : Cmd := { cmd5 0 254 0xE0100000 0x100000001 with w4 := 0x350007, w5 := 0x100001 }
       bits c.w1 7 0 = 254 ∧ bits c.w1 63 8 = 0 ∧ s.ctxs.contains 254 = false ∧ ctxFieldsOk c.w2 c.w3 c.w4 c.w5 = true)
    ∧ (let s := { hosted 2 q5 with queues := [(0, {})] }
       s.ctxs.contains 0 = true ∧ (∀ p ∈ s.queues, p.2.ctx ≠ 0) ∧ ctxLive s 0 = false)
    ∧ (let s := hosted 2 { q5 with live := false, desc := 0x0005000000000100 }
       s.rstT = none ∧ liveQueues s < 64 ∧ hostRange s 0 (byteAfter s 0 0x0005000000000100 32) 8 = 0) := by decide

/-- O45: leases that are there and one that is not, a region that is dispatched, one that others yield for, and one that ages. -/
theorem test_meets_scheduler :
    (let l : Lease := { tens := 5, first := 0, count := 1, kind := 3, zero := false }
     let s := regional fun r => { r with leases := [l] }
     leaseDue s (regAt s 1) = true ∧ leaseFaults s 0 l = [] ∧ l.peer = none ∧ (pinAll s 0 [l]).isSome = true ∧ (regAt s 1).askT = none)
    ∧ (let l : Lease := { tens := 6, first := 0, count := 2, kind := 3, zero := false }
       let s := regional fun r => { r with leases := [l] }
       leaseDue s (regAt s 1) = true ∧ leaseFaults s 0 l ≠ [])
    ∧ (let l : Lease := { tens := 8, first := 0, count := 1, kind := 1, zero := false, peer := some 9 }
       let s := regional fun r => { r with leases := [l] }
       let s := setPreg (setPreg s 0x20 0x180 0x1000008) 0x20 0x181 0x50009
       leaseDue s (regAt s 1) = true ∧ leaseFaults s 0 l = [] ∧ l.peer ≠ none ∧ askConn s 0 l = none)
    ∧ (let r := regAt (regional fun r => { r with askT := some 0, asks := [(0, 1000, 4, 1)] }) 1
       r.stage = .leases ∧ r.askT ≠ none ∧ ∀ a ∈ r.asks, a.2.2.2 = 1)
    ∧ (let s := regional fun r => { r with stage := .cells }
       schedule s = some (1, []) ∧ (loadPlanes (takeCells s 1) 1).2 = stOk)
    ∧ (let s := { regional fun r => { r with stage := .cells } with planes := [(0, { shadow := [(5, 1)], stuck := [5] })] }
       schedule s = some (1, []) ∧ (loadPlanes (takeCells s 1) 1).2 ≠ stOk)
    ∧ (let s := regional fun r => { r with stage := .cells, ep := 3 }
       let s := setReg s 2 { handle := 2, ctx := 0, stage := .running, dies := [{ hgt := 1, wid := 1 }] }
       schedule s = some (1, [2]))
    ∧ (let s := { regional id with tick := 1048576 }
       ageDue s (regAt s 1) = true)
    ∧ (let s := { regional fun r => { r with stage := .running } with tick := 1048576 }
       (regAt s 1).holds = true ∧ quantumOver s (regAt s 1) = true) := by decide

/-- The tile that the operations name: tile 0 of tensor 6 of context 0, with an entry, under a frame word. -/
def topped (e f : Word) : State :=
  let d : Desc := { lord := [0, 0, 0, 0, 0], ext := [65536, 1, 1, 1, 1], tile := [65536, 1, 1, 1, 1] }
  let s := setPreg (setPreg (setPreg State.reset 0x20 0x100 6) 0x20 0x101 f) 0x20 0x403 0x100001
  { s with tens := [(65536 + 6, d)], tt := if e = 0 then [] else [(ttKey 1 6 0, e)], mixb := 0x2B }

/-- O46: an entry in each state that an operation takes, pinned and not, valid and invalid frames, and another generation. -/
theorem test_meets_tile_operations :
    (topNamed (topped 0 0x1000000) = true ∧ entState 0 = 0 ∧ entPins 0 = 0 ∧ entGen 0 = 0)
    ∧ (topNamed (topped 1 0x1000000) = true ∧ entState 1 = 1 ∧ entPins 1 = 0 ∧ entGen 1 = 0)
    ∧ (topNamed (topped 3 0x1000000) = true ∧ entState 3 = 3 ∧ entPins 3 = 0 ∧ entGen 3 = 0)
    ∧ (bits (topB (topped 1 0x1000000)) 63 48 = 0 ∧ frameValid (topped 0 0x1000000) 0x1000000 = true
      ∧ frameValid (topped 1 0x1000000) 0x1000000 = true ∧ (topped 1 0).migs = [] ∧ (topped 1 0).fwds = [])
    ∧ (frameValid (topped 0 0x600000) 0x600000 = false ∧ bits (topB (topped 0 0x600000)) 63 48 = 0)
    ∧ (entPins 0x11 = 1 ∧ entState 0x11 = 1 ∧ entGen 0x11 = 0 ∧ entGen 0x0001000000000001 = 1)
    ∧ (let s := { topped 1 0x1000000 with fwds := [{ old := 0x1000000, new := 0, pend := [] }] }
       ∀ x ∈ s.fwds, frameOf x.old = frameOf 0x1000000) := by decide

/-- O46: a tensor to install and one to remove, whose tiles are all absent. -/
theorem test_meets_installs :
    (let s := ([0x10, 0x10000, 0x100000001, 0x100000001, 0x100000001, 0x100000001] : List Word).zipIdx.foldl (fun s p => setPreg s 0x20 (0x120 + p.2) p.1)
       (setPreg (topped 0 0) 0x20 0x100 7)
     topTile s = (0, 7, 0) ∧ (7 : Nat) < tableLen s 0 ∧ descOf s 0 7 = none
      ∧ (parseDesc ((List.range 8).map fun i => preg s 0x20 (0x120 + i))).isSome = true)
    ∧ (let s := topped 0 0
       topTile s = (0, 6, 0) ∧ (6 : Nat) < tableLen s 0 ∧ (descOf s 0 6).isSome = true ∧ (∀ d, descOf s 0 6 = some d → 0 < d.ntiles)
        ∧ bits (topB s) 63 48 = entGen (entryOf s 0 6 0) ∧ (∀ p ∈ s.tt, entState p.2 = 0)) := by decide

/-- O46: a migration at its first sector, at the end of a pass, on a frame that is lost, and after its four passes. -/
theorem test_meets_migrations :
    (let m : Migr := { ctx := 0, tens := 6, tile := 0, dest := 0x2000000, done := [], pass := 3, next := 0 }
     let s := { topped 2 0 with migs := [m] }
     m.pass < 4 ∧ nextClear m 2048 m.next < 2048 ∧ sectorBad s (entryOf s 0 6 0) 0 = false
      ∧ sectorBad { s with failed := [12] } (entryOf s 0 6 0) 0 = true ∧ destFailed s m = false ∧ destFailed { s with failed := [12] } m = true)
    ∧ (let m : Migr := { ctx := 0, tens := 6, tile := 0, dest := 0x2000000, done := [], pass := 3, next := 2048 }
       m.pass < 4 ∧ 2048 ≤ nextClear m 2048 m.next) := by decide
/-- Every one of the first n keys is listed. -/
theorem sget_all (n k : Nat) (h : k < n) (a : Nat) : sget false ((List.range' a n).map fun i => (i, true)) (a + k) = true := by
  induction n generalizing a k with
  | zero => omega
  | succ n ih =>
    rw [List.range'_succ, List.map_cons, sget]
    split
    · rfl
    · have := ih (k - 1) (by omega) (a + 1)
      rwa [show a + 1 + (k - 1) = a + k by omega] at this

/-- O46: a migration whose sectors are all copied. -/
theorem test_meets_switchover :
    let m : Migr := { ctx := 0, tens := 6, tile := 0, dest := 0x2000000, done := (List.range' 0 2048).map fun i => (i, true), pass := 4, next := 0 }
    4 ≤ m.pass ∧ ∀ j < 2048, sget false m.done j = true :=
  ⟨Nat.le_refl 4, fun j h => by simpa using sget_all 2048 j h 0⟩

/-- A package whose tensor 5 of context 0 is exported for writing. -/
def exporting : State := setPreg (hosted 2 q5) 0x20 0x1C8 0x03000500

/-- A load of a peer tensor that waits for its home's answer. -/
def asking (n : Nat) : Req :=
  { kind := .load, key := 1152, seq := .s, addr := 0x0005000000000000, n := 4, peer := true, applied := true, stales := n }

/-- O47: pins that are refused, given, and wait for a role change, a request to a pinned tile that is there and to one that is
absent, a stale frame up to the eighth, an invalidation and its answer, and a region whose pins are not answered. -/
theorem test_meets_other_packages :
    (let s := exporting
     (2 : BitVec 2) ≠ 0 ∧ roleHeld s (entryOf s 0 5 0) = false ∧ pinRefused s 0 5 0 1 2 = false ∧ pinRefused s 0 5 0 2 2 = true
      ∧ roleHeld s (entryOf s 0 5 1) = false ∧ roleHeld { s with mixc := 2 } (entryOf { s with tt := [(ttKey 1 5 0, 0x800001)] } 0 5 0) = true)
    ∧ (let r : PeerReq := { pkg := 9, ctx := 0, tens := 5, tile := 0, frame := 1, off := 992, nread := 32, data := [], atomic := 0 }
       let s := { exporting with peers := [(9, 0, 5, 0, 1)] }
       (exported s r.ctx r.tens).isSome = true ∧ asksEntry r = false ∧ asksEntry { r with nread := 0 } = true ∧ entState (entryOf s 0 5 0) = 1
        ∧ frameOf r.frame = frameOf (entryOf s 0 5 0)
        ∧ (let t := { s with fwds := [{ old := 0x3000000, new := 1, pend := [] }] }
           frameOf 0x3000000 ≠ frameOf (entryOf t 0 5 0) ∧ (∃ x ∈ t.fwds, frameOf x.old = frameOf 0x3000000) ∧ ∀ x ∈ s.fwds, frameOf x.old ≠ frameOf 0x3000000)
        ∧ sectorBad s (entryOf s 0 5 0) r.off = false
        ∧ (s.peers.any fun p => decide (p.1 = r.pkg ∧ p.2.1 = r.ctx ∧ p.2.2.1 = r.tens) && (peerTiles p).contains r.tile) = true)
    ∧ (let s := { exporting with tt := [] }
       (exported s 0 5).isSome = true ∧ entState (entryOf s 0 5 0) = 0)
    ∧ (∀ n ∈ [6, 7], let s := { exporting with reqs := [(1, asking n)] }
       sfind s.reqs 1 = some (asking n) ∧ (asking n).peer = true ∧ (asking n).applied = true ∧ (asking n).lost = false ∧ (asking n).stales = n)
    ∧ (let s := { exporting with fwds := [{ old := 0x1000000, new := 0, pend := [9] }] }
       ∀ x ∈ s.fwds, frameOf x.old = frameOf 0x1000000)
    ∧ (let s := regional fun r => { r with askT := some 0 }
       (sfind s.regions 1).isSome = true ∧ (regAt s 1).stage = .leases ∧ (regAt s 1).askT ≠ none)
    ∧ (let s := regional fun r => { r with askT := some 0, asks := [(0, 1015, 4, 0)] }
       s.regions = [(1, regAt s 1)] ∧ (regAt s 1).asks = [(0, 1015, (4 : BitVec 32).toNat, 0)] ∧ isReach 1015 = true ∧ (regAt s 1).stage = .leases) := by decide

/-- O47: a stratum that is asked for a gate and one whose gate can be applied, and the role changes. -/
theorem test_meets_gates_and_roles :
    (let s := { State.reset with boot := false }
     (s.gates.any fun g => decide (g.2 = 31)) = false ∧ gateReady { s with gates := [(7, 31)] } 31 = true)
    ∧ (let s := { State.reset with mixc := 0, lvls := [] }
       s.role = none ∧ roleOf s 31 = 0 ∧ stratumMarked s 31 = false ∧ stratumMarked { s with failedS := [31] } 31 = true ∧ bits (0x3F : Word) 5 5 = 1 ∧ bits (0x3F : Word) 4 0 = 31
        ∧ computeCount s (31 / 4) + 1 ≤ roleRoom s)
    ∧ (let s := { State.reset with mixc := 1 }
       roleOf s 0 = 1 ∧ bits (0 : Word) 5 5 = 0)
    ∧ (∀ v ∈ [0, 1], let r : RoleChg := { strat := 31, role := v, step := 1, core := 0, gated := true }
       let s := { State.reset with role := some r }
       s.role = some r ∧ drainDone s r = true) := by decide

/-- O48: a core that may mark sites and one that may set levels. -/
theorem test_meets_lighthouse :
    (let s := { State.reset with boot := false }
     (coreAt s 0).caps.getLsbD 1 = true ∧ (coreAt s 0).caps.getLsbD 0 = false ∧ (coreAt s 7).caps.getLsbD 0 = true
      ∧ (coreAt s 7).caps.getLsbD 1 = false
      ∧ boundTo s 19 none = false ∧ lnkOk s 19 = false ∧ lnkOk { s with mixd := 0x80000 } 19 = true ∧ mapCount s (19 - 12) = 0 ∧ s.failed.contains 19 = false ∧ s.retrain = none
      ∧ bits ((19 : BitVec 40).setWidth 64) 7 0 = 19 ∧ bits ((19 : BitVec 40).setWidth 64) 8 8 = 0)
    ∧ bits ((6 : BitVec 40).setWidth 64) 1 0 = 2 ∧ bits ((6 : BitVec 40).setWidth 64) 2 2 = 1 ∧ bits ((6 : BitVec 40).setWidth 64) 3 3 = 0
    ∧ (let s := { State.reset with lvls := [] }
       let mv := sintNat 8 (bits ((0x39C : BitVec 40).setWidth 64) 9 2)
       s.lvls = [] ∧ -25 ≤ mv ∧ mv ≤ 50)
    ∧ (let s := { State.reset with failed := [19], failedS := [31] }
       s.failed.contains (bits ((19 : BitVec 40).setWidth 64) 7 0) = true ∧ bits ((0x713 : BitVec 40).setWidth 64) 8 8 = 1
        ∧ (31 : Nat) = 4 * (19 - 12) + bits ((0x713 : BitVec 40).setWidth 64) 10 9 ∧ s.failedS.contains 31 = true)
    ∧ (let s := { State.reset with boot := false, lvls := [0, 1, 2], loww := false, clk := 1 }
       let v (n : Nat) : Nat := bits (s.lvls.getD n 2) 1 0
       State.reset.capn = false ∧ (v 0 ≠ 2 ∧ v 2 = 2 ∧ ∀ m < 8, ¬ 2 < computeCount s m)
        ∧ 2 < computeCount { s with mixc := 0x15 } 0 ∧ s.frozenP = false ∧ v s.clk ≠ 2
        ∧ (∃ n < 3, v n = s.clk) ∧ (∃ n < 3, v n ≠ s.clk) ∧ anyTimed s = false ∧ anyTimed (onCell 1152 .s true id w5) = true ∧ s.force = false) := by
  decide

/-- O48, O49: where an image of KIND 2 verifies (the check of a signature is free, log 7), a slot with it is taken. -/
theorem test_meets_verified (im : List Byte) (h : verifies im 2 = true) :
    bootPick { State.reset with boot := false, bslots := [(2, im)] } 2 = some 2
      ∧ verifies (slotBytes { State.reset with bslots := [(3, im)] } (bootSlot 2 (1 - sget 0 State.reset.pref 2 % 2))) 2 = true :=
  ⟨by simp [bootPick, slotBytes, bootSlot, sget, State.reset, h], by simpa [slotBytes, bootSlot, sget, State.reset] using h⟩

/-- R451: SHA-512 of the three bytes "abc" begins as the published example of the function gives it. -/
theorem test_sha512 : (shaBytes [0x61, 0x62, 0x63]).take 4 = [0xDD, 0xAF, 0x35, 0xA1] := by decide

/-- O49: what power, boot, the clocks, the cores and a module's training ask. -/
theorem test_meets_power_and_boot :
    State.reset.boot = true ∧ listGood State.reset.flist State.reset.ftag = true ∧ listGood [] (.raw []) = false ∧ (sensorNbrs 15).contains 14 = true ∧ (sensorNbrs 15).contains 11 = true
    ∧ (600 : Nat) ≤ (600 : BitVec 10).toNat ∧ (599 : BitVec 10).toNat < 600
    ∧ heartbeatLate { State.reset with hbT := some 0, tick := 1000000 } = true
    ∧ forceNow { State.reset with force := true, tick := 999999 } = true
    ∧ (let s := setCore { State.reset with boot := false } 8 { coreAt State.reset 8 with held := false }
       (coreAt s 8).held = false ∧ (coreAt s 8).mcause.getLsbD 63 = false)
    ∧ watchTripped (setCore { State.reset with watchT := some 0, tick := 999999999 } 6 { coreAt State.reset 6 with rst := 3 }) = true
    ∧ (let ms : SMap Module := (List.range 31).map fun m => (0x20 * 64 + m, { retr := 1 })
       let ns : SMap Module := [0x21, 0x22, 0x23].flatMap fun j => [28, 29, 30].map fun m => (j * 64 + m, { retr := 1 })
       let s := { State.reset with boot := false, modules := ms ++ ns }
       ∃ site m, nextModule s = some (site, m) ∧ site < 20 ∧ m + 1 < moduleCount site ∧ s.retrain = none) :=
  ⟨by decide, by decide, by decide, by decide, by decide, by decide, by decide, by decide, by decide, by decide, by decide, _, _, rfl, by decide⟩

/-- O49: the last site and module that a loss can name, and the events of the fleet. -/
theorem test_meets_fleet :
    (19 : BitVec 8).toNat < 20 ∧ 15 < moduleCount 19 ∧ lostStratum 19 15 = none ∧ lostStratum 19 19 = some 3
    ∧ (let s := { State.reset with tick := 8640000000000 }
       s.sensT + 100000 ≤ s.tick ∧ (sget {} s.hbt 15).evT = none ∧ ebbFalls s = true
        ∧ dieRead (19, List.replicate 16 600) = true ∧ tripDie (List.replicate 16 600) = true
        ∧ tripDie (600 :: List.replicate 15 599) = false)
    ∧ (let s := { regional fun r => { r with stage := .running } with ebbDue := some 0, tick := 6000000000 }
       ebbLate s = true ∧ holding s = [regAt s 1] ∧ (regAt s (regAt s 1).handle).stage = .running ∧ (regAt s 1).ypend = false)
    ∧ ebbFree { State.reset with ebbDue := some 0 } = true
    ∧ (preg (setPreg State.reset 0x23 0x83 1) (0x20 + 15 / 4) (0x80 + 15 % 4)).getLsbD 0 = true := by decide

/-- A member of a round of SYS scope on the cell, with its contributions or none. -/
def rounding (parts : SMap (List Word)) : State :=
  let o : Op := { op0 .coll with coll := { scope := 4, gid := 5, round := 2, nmemb := 1, tout := 7, memb := [(9, 0, 0, 0)], parts := parts } }
  { onCell 1152 .l false id w5 with ops := [(1, o)], tick := 8 }

def part9 (gid : BitVec 16) : CollMsg :=
  { pkg := 9, gid := gid, round := 2, kind := 0, op := 0, fmt := 0, count := 0, nmemb := 1, root := 0, parts := [(0, [])] }

/-- O50: a partial and an abort for a round that is issued here, one for a round that is not, with room to hold it and without,
and one that no member awaits; a partial that differs; a round that is too old, and one that is full. -/
theorem test_meets_rounds :
    (let s := rounding []
     let o := (sfind s.ops 1).getD (op0 .coll)
     let h (gid : BitVec 16) : HeldMsg := { at_ := s.tick, ab := false, msg := part9 gid }
     let big : HeldMsg := { h 6 with msg := { part9 6 with parts := [(0, List.replicate 8 0)] } }
     msgOps s (h 6) = [] ∧ roundAwaited s 6 2 none = true ∧ heldBytes (s.held ++ [h 6]) ≤ 65536
      ∧ 65536 < heldBytes (List.replicate 1024 (h 6) ++ [big])
      ∧ (let t := { setCell s 1152 { cellAt s 1152 with rnds := [(6, 2)], rmem := [(6, [1152])] } with ops := [] }
         msgOps t (h 6) = [] ∧ roundAwaited t 6 2 none = false)
      ∧ msgOps s (h 5) = [(1, o)] ∧ msgOps s { at_ := s.tick, ab := true, msg := abortMsg 9 5 2 } = [(1, o)]
      ∧ o.coll.kind ≠ ({ part9 5 with kind := 2 } : CollMsg).kind.toNat ∧ o.coll.kind = (part9 5).kind.toNat ∧ o.coll.op = (part9 5).op.toNat
      ∧ o.coll.fmt = (part9 5).fmt.toNat ∧ o.coll.count = 0 ∧ o.coll.nmemb = 1 ∧ o.coll.root = 0 ∧ (part9 5).pkg ≠ pkgOwn s
      ∧ (∀ p ∈ (part9 5).parts, (o.coll.memb[p.1]?).map (·.1) = some 9)
      ∧ sfind s.ops 1 = some o ∧ o.kind = .coll ∧ o.coll.kind < 5 ∧ o.units = false ∧ o.born + o.coll.tout ≤ s.tick)
    ∧ (let s := rounding [(0, [])]
       let o := (sfind s.ops 1).getD (op0 .coll)
       sfind s.ops 1 = some o ∧ collFull o = true ∧ opLive s o = true) := by decide
/-- O37: a load whose operand does not fit its format. -/
theorem test_meets_bad_load :
    let l : MloadRun := { load0 0 with hdr := { valid := true, bfmt := 1, k := 1, nsc := 1, p := 1 }, bytes := List.replicate 192 8 }
    loadDue (engineRuns { mloads := [l] } []) 0 l = true ∧ expandB (invalidate { mloads := [] } 0 0 1) l = none := by decide

/-- O51: an unassigned OP in a word of an agent that runs, and of one that is fetched next. -/
theorem test_meets_unassigned :
    Issues { core := true, start := true } [] { onCell 1152 .s true id w5 with curWord := 0x014FC00000000000 }
    ∧ (let s := State.reset.withFetchWord 64 0x001FC00000000000
       s.power = true ∧ s.inputs = [] ∧ dueEvent s = none ∧ readyAgent s = some (1152, .s) ∧ decodeAt s 1152 .s = .error .unassigned
       ∧ fetchBad s 1152 .s = false)
    ∧ Issues { core := true, start := true } [] (atAgent (State.reset.withFetchWord 64 0x001FC00000000000) 1152 .s) :=
  ⟨issues_of _ _ _ (by decide), by decide, issues_of _ _ _ (by decide)⟩

/-- O52, O53: an instruction of one space and one of all, at the largest issue distance. -/
theorem test_meets_encoding :
    (Instr.mul 5 1 2).WellFormed ∧ (encode 1023 (.mul 5 1 2)).isSome = true ∧ spaceOf (.mul 5 1 2) = some .s
    ∧ (Instr.waitc 100).WellFormed ∧ (encode 1023 (.waitc 100)).isSome = true ∧ spaceOf (.waitc 100) = none
    ∧ decode .s 0x02890A0840000000 = .ok (.mul 5 1 2) := by decide

/-- O55: an agent that is about to run a word. -/
theorem test_meets_step :
    let s := State.reset.withFetchWord 64 0x02890A0840000000
    s.power = true ∧ s.inputs = [] ∧ dueEvent s = none ∧ readyAgent s = some (1152, .s) ∧ decodeAt s 1152 .s = .ok (.mul 5 1 2)
    ∧ fetchBad s 1152 .s = false := by
  decide

/-- O55: an agent whose next word cannot be read. -/
theorem test_meets_bad_fetch :
    let s := badImage
    s.power = true ∧ s.inputs = [] ∧ dueEvent s = none ∧ readyAgent s = some (1152, .l) ∧ fetchBad s 1152 .l = true
    ∧ Issues { core := true, start := true } [] (atAgent s 1152 .l) :=
  ⟨by decide, by decide, by decide, by decide, by decide, issues_of _ _ _ (by decide)⟩

/-- O57: a state with the invariant, and a step of it. -/
theorem test_meets_invariant :
    let s := State.reset.withFetchWord 64 0x02890A0840000000
    s.Inv ∧ ∃ t, step s = .next t :=
  ⟨⟨by decide, by decide⟩, _, rfl⟩

/-- O12, O14, O17, O25, O58: words of each kind that a frame is stated for, on a cell, and that they run. -/
theorem test_meets_frames :
    (let s := onCell 1152 .s false id w5
     isCore s.cur = false ∧ (∃ t, exec (.mul 5 1 2) s = .next t) ∧ ∃ t, exec (.csrw 0x30 2) s = .next t)
    ∧ (let s := onCell 1152 .s false (withQ 15 .mem .s .s [{ data := 7 }]) w5
       isCore s.cur = false ∧ ∀ i ∈ ([.qpush 15 2, .qpop 15 1 2, .qpeek 15 1 2, .qcnt 15 1] : List Instr),
         (match exec i s with | .next _ => true | _ => false) = true)
    ∧ (let s := onTensor 1152 .l 4 false [] fun c => withQ 0 .mem .l .s [] { c with dl := descs01 }
       isCore s.cur = false ∧ ∀ i ∈ ([.dset 0 1 0 (tk 0), .rdq 0 0 (tk 0), .pref 0 (tk 0)] : List Instr),
         (match exec i s with | .next _ => true | _ => false) = true)
    ∧ (isCore (onLanes 1152 true).cur = false
        ∧ ∃ t, exec (.vadd { vf with c := 0 }) (onLanes 1152 true) = .next t) :=
  ⟨⟨by decide, ⟨_, rfl⟩, _, rfl⟩, by decide, by decide, by decide, _, rfl⟩

/-- O59: a result for a0 and the last register, in each mode. -/
theorem test_meets_landing_results :
    (63 : BitVec 6) ≠ 0 ∧ (issueCtx (onCell 1152 .s true id w5)).timed = true ∧ (issueCtx (onCell 1152 .s true id w5)).core = false
    ∧ (issueCtx (onCell 1152 .s false id w5)).timed = false ∧ (issueCtx (onCore 8 w5)).core = true := by decide

/-- O60: a store to the last bytes of a scratchpad, and a resident tile at its home. -/
theorem test_meets_stores :
    (let s := onCell 1152 .s true id w5
     (storeAt s (issueCtx s) 1152 0x3FFF8 (toBytes 8 7) 1).isSome = true)
    ∧ (let s := hosted 2 q5
       Memory.wf s.mem ∧ isBoot 0 5 = false ∧ entState (entryOf s 0 5 0) = 1) := by decide
end Sys2Proof.Tests
end

