-- ==== Sys2Proof/Proofs/Invariant.lean ====
section
/-! PROOF of O57. The invariant speaks of memory and of the frame counter alone. Memory is written in its canonical form by
the operations of Laws/Memory.lean, and the frame counter by the passing of a period, modulo 256. So each function of the
model that answers a state keeps the invariant, for one of three reasons: it updates neither (inv_upd), it puts such
functions together, or it is one of those operations. There is one lemma for each, named after the function, in the order in
which the model defines them. What a function answers beside a state, or in place of one, is said by Res.Inv, OutInv and
Adv.Inv, or by a hypothesis on the answer. -/

namespace Sys2Proof.Machine

/-! ## The rules that the proofs are put together from -/

/-- An update of fields other than memory and the frame counter. -/
theorem inv_upd {s : State} {fresh : Bool} (inv : s.Inv) :
    (State.mk
      power tick sub per s.frame pauseT grant armed clk frozenP force forceT loww capn stretch hbT lvls mrg rails railsT
      sensors sensT ltime relk fneap lowwt mixa mixb mixc mixd failed failedS modules retrain cells regions records nextH
      planes s.mem bad tens tt owners fwds migs reqs ops ptc rfbuf rfwaitq rfgen role srst gates hot hbt slack0 pregs conns
      ids queues ctxs cache peers pinq held rxhold cores lhans devq meas boot recovery bslots pref flist ftag watchT fresh
      rstT ebbDue ebbRun ebbT inputs pauses looks fecs rom cmds cur curSeq curIdle curWord nextId freeCtr outputs).Inv :=
        ⟨inv.mem, inv.frame⟩

theorem inv_ite {c : Prop} [Decidable c] {s t : State} (hs : s.Inv) (ht : t.Inv) : (if c then s else t).Inv := by
  split <;> assumption

theorem foldl_inv {β : Type} {f : State → β → State} {l : List β} {s : State} (inv : s.Inv) (hf : ∀ a b, a.Inv → (f a b).Inv) :
    (l.foldl f s).Inv :=
  foldl_keeps (P := State.Inv) hf l s inv

/-- What the effect of a word answers meets the invariant, where it answers a state. -/
def Res.Inv : Res → Prop
  | .ok t | .goto t _ | .okFault t _ => t.Inv
  | .fault _ | .wait => True

theorem Res.inv_of_eq {r q : Res} (e : r = q) (h : r.Inv) : q.Inv := e ▸ h

theorem resinv_ite {c : Prop} [Decidable c] {s t : Res} (hs : s.Inv) (ht : t.Inv) : (if c then s else t).Inv := by
  split <;> assumption

theorem illegal_inv : illegal.Inv := trivial

theorem schedMiss_inv : schedMiss.Inv := trivial

theorem accFault_inv {c : Ctx} {code : Nat} {ea va vb : Word} {vd : BitVec 2048} {lat : Nat} :
    (accFault c code ea va vb vd lat).Inv := trivial

theorem againFault_inv {e : Shadow} {code : Nat} {ea : Word} : (againFault e code ea).Inv := trivial

theorem tokShort_inv {c : Ctx} : (tokShort c).Inv := by
  unfold tokShort
  split <;> trivial

theorem shortRes_inv {c : Ctx} : (shortRes c).Inv := by
  unfold shortRes
  split <;> trivial

/-- What an instruction answers meets the invariant, where it answers a state. -/
def OutInv (o : Out) : Prop := ∀ t, o = .next t → t.Inv

theorem outInv_next {t : State} : OutInv (.next t) ↔ t.Inv := by
  constructor
  · intro h
    exact h _ rfl
  · rintro h _ ⟨⟩
    exact h


/-! ## Ops -/

theorem freeNum_inv {s : State} (inv : s.Inv) : (freeNum s).2.Inv := by
  unfold freeNum
  dsimp only
  exact inv_upd inv

/-! ## Host -/

theorem dropCount_inv {s : State} {conn : Nat} (inv : s.Inv) : (dropCount s conn).Inv := by
  unfold dropCount
  dsimp only
  exact inv_upd (freeNum_inv inv)

theorem adminQueue_inv {s : State} {conn : Nat} (inv : s.Inv) : (adminQueue s conn).Inv := by
  unfold adminQueue
  exact inv_ite inv (inv_upd inv)

theorem sendBare_inv {s : State} {conn gen typ : Nat} {data : List Word} (inv : s.Inv) : (sendBare s conn gen typ data).Inv := by
  unfold sendBare
  exact inv_upd inv

/-! ## Tiles -/

theorem setConn_inv {s : State} {n : Nat} {c : Conn} (inv : s.Inv) : (setConn s n c).Inv := by
  unfold setConn
  exact inv_upd inv

theorem sendOn_inv {s : State} {conn : Nat} {c : Conn} {typ qnum : Nat} {data : List Word} {bytes : List Byte} (inv : s.Inv) :
    (sendOn s conn c typ qnum data bytes).Inv := by
  unfold sendOn
  dsimp only
  exact inv_ite (inv_upd (setConn_inv inv)) (inv_upd (setConn_inv inv))

theorem sendHost_inv {s : State} {conn typ qnum : Nat} {data : List Word} {bytes : List Byte} (inv : s.Inv) :
    (sendHost s conn typ qnum data bytes).Inv := by
  unfold sendHost
  split
  · exact inv
  · exact sendOn_inv inv

/-! ## Host -/

theorem helloHost_inv {s : State} {conn gen seq : Nat} {w0 w1 : Word} (inv : s.Inv) : (helloHost s conn gen seq w0 w1).Inv := by
  unfold helloHost
  dsimp only
  exact inv_ite (dropCount_inv inv) (inv_ite (sendBare_inv inv) (inv_ite (sendBare_inv inv) (sendHost_inv (inv_ite
    (setConn_inv inv) (adminQueue_inv (setConn_inv inv))))))

/-! ## Tiles -/

theorem mixUpdate_inv {s : State} (inv : s.Inv) : (mixUpdate s).Inv := by
  unfold mixUpdate
  exact inv_upd inv

/-! ## Mem -/

theorem setPreg_inv {s : State} {site num : Nat} {v : Word} (inv : s.Inv) : (setPreg s site num v).Inv := by
  unfold setPreg
  exact inv_upd inv

/-! ## Peer -/

theorem linkUp_inv {s : State} {link pkg plink : Nat} (inv : s.Inv) : (linkUp s link pkg plink).Inv := by
  unfold linkUp; dsimp only; split
  · exact inv
  · exact mixUpdate_inv (inv_upd (setPreg_inv inv))

theorem reachHello_inv {s : State} {link : Nat} {c : Conn} (inv : s.Inv) : (reachHello s link c).Inv := by
  unfold reachHello
  exact sendOn_inv inv

/-! ## Host -/

theorem helloReach_inv {s : State} {j : Nat} {ack : Nat} {w0 w1 : Word} (inv : s.Inv) : (helloReach s j ack w0 w1).Inv := by
  unfold helloReach
  dsimp only
  refine inv_ite (dropCount_inv inv) (linkUp_inv ?_)
  split
  · exact inv_ite (reachHello_inv inv) (setConn_inv inv)
  · exact reachHello_inv inv

theorem helloMsg_inv {s : State} {m : HostHdr} {w0 w1 : Word} (inv : s.Inv) : (helloMsg s m w0 w1).Inv := by
  unfold helloMsg
  exact inv_ite (helloReach_inv inv) (helloHost_inv inv)

theorem recvAck_inv {s : State} {c : Conn} {m : HostHdr} {bitmap : List Bool} (inv : s.Inv) : (recvAck s c m bitmap).Inv := by
  unfold recvAck
  dsimp only
  exact setConn_inv inv

/-! ## Mem -/

theorem hotSample_inv {s : State} {ctx tens tile : Nat} (inv : s.Inv) : (hotSample s ctx tens tile).Inv := by
  unfold hotSample
  dsimp only
  exact inv_ite inv (inv_ite (inv_upd inv) (inv_upd inv))

/-! ## Device -/

theorem hostCount_inv {s : State} {ctx : Nat} {a : Word} {n : Nat} (inv : s.Inv) : (hostCount s ctx a n).Inv := by
  unfold hostCount
  split
  · exact inv
  · exact foldl_inv inv (fun _ _ h => hotSample_inv h)

theorem sendResp_inv {s : State} {conn rseq status : Nat} {value : Word} {bytes : List Byte} (inv : s.Inv) :
    (sendResp s conn rseq status value bytes).Inv := by
  unfold sendResp
  dsimp only
  split
  · exact sendHost_inv inv
  · exact setConn_inv (sendHost_inv inv)

/-! ## Host -/

theorem memRdHost_inv {s : State} {m : HostHdr} {a count : Word} (inv : s.Inv) : (memRdHost s m a count).Inv := by
  unfold memRdHost
  dsimp only
  split
  · exact inv
  · exact sendResp_inv inv
  · exact inv_ite (sendResp_inv inv) (inv_ite (sendResp_inv inv) (inv_ite (sendResp_inv inv) (sendResp_inv
      (hostCount_inv inv))))

/-! ## Mem -/

theorem healMem_inv {s : State} {a n : Nat} (inv : s.Inv) : (healMem s a n).Inv := by
  unfold healMem
  exact inv_upd inv

theorem migTouch_inv {s : State} {frame off n : Nat} (inv : s.Inv) : (migTouch s frame off n).Inv := by
  unfold migTouch
  exact inv_upd inv

theorem setEntry_frame {s : State} {ctx tens tile : Nat} {e : Word} : (setEntry s ctx tens tile e).frame = s.frame := by
  unfold setEntry; dsimp only; (repeat' split) <;> rfl
theorem setEntry_inv {s : State} {ctx tens tile : Nat} {e : Word} (inv : s.Inv) : (setEntry s ctx tens tile e).Inv :=
  ⟨setEntry_wf ctx tens tile e inv.mem, by rw [setEntry_frame]; exact inv.frame⟩

theorem zeroFill_inv {s : State} {ctx tens tile : Nat} (inv : s.Inv) : (zeroFill s ctx tens tile).Inv := by
  refine ⟨zeroFill_wf ctx tens tile inv.mem, ?_⟩
  unfold zeroFill; dsimp only; split
  · rw [setEntry_frame]; exact inv.frame
  · exact inv.frame

theorem homeWrite_inv {s : State} {ctx tens tile off : Nat} {bs : List Byte} (inv : s.Inv) :
    (homeWrite s ctx tens tile off bs).Inv := by
  refine ⟨homeWrite_wf ctx tens tile off bs inv.mem, ?_⟩
  unfold homeWrite; dsimp only; split
  · exact inv.frame
  · exact (zeroFill_inv inv).frame

theorem homeWriteNib_inv {s : State} {ctx tens tile bitOff v : Nat} (inv : s.Inv) :
    (homeWriteNib s ctx tens tile bitOff v).Inv := by
  unfold homeWriteNib
  dsimp only
  exact homeWrite_inv inv

/-! ## Device -/

theorem hostWrite_inv {s : State} {ctx : Nat} {a : Word} {bs : List Byte} (inv : s.Inv) : (hostWrite s ctx a bs).Inv := by
  unfold hostWrite
  dsimp only
  split
  · exact inv
  · exact foldl_inv inv (fun _ _ h => inv_ite (homeWriteNib_inv h) (homeWrite_inv h))

/-! ## Host -/

theorem memWrHost_inv {s : State} {m : HostHdr} {a : Word} {bs : List Byte} (inv : s.Inv) : (memWrHost s m a bs).Inv := by
  unfold memWrHost
  dsimp only
  split
  · exact inv
  · exact sendResp_inv inv
  · exact inv_ite (sendResp_inv inv) (inv_ite (sendResp_inv inv) (inv_ite (sendResp_inv inv) (sendResp_inv (hostCount_inv
      (hostWrite_inv inv)))))

theorem regRdHost_inv {s : State} {m : HostHdr} {reg : Nat} (inv : s.Inv) : (regRdHost s m reg).Inv := by
  unfold regRdHost
  refine inv_ite inv ?_
  split
  · exact sendResp_inv inv
  · exact sendResp_inv inv

/-! ## Ops -/

theorem packageReset_inv {s : State} : (packageReset s).Inv := ⟨packageReset_wf s, (by decide : (0 : Nat) < 256)⟩

/-! ## Device -/

theorem hostPut_inv {s : State} {ctx : Nat} {a : Word} {bs : List Byte} (inv : s.Inv) : (hostPut s ctx a bs).Inv := by
  unfold hostPut
  exact inv_ite (hostCount_inv (hostWrite_inv inv)) inv

theorem setQueue_inv {s : State} {n : Nat} {q : HQueue} (inv : s.Inv) : (setQueue s n q).Inv := by
  unfold setQueue
  dsimp only
  exact inv_ite (inv_upd inv) (hostPut_inv (inv_upd inv))

/-! ## Host -/

theorem putCtl_inv {s : State} {n : Nat} {q : HQueue} {v : Word} (inv : s.Inv) : (putCtl s n q v).Inv := by
  unfold putCtl
  exact setQueue_inv inv

/-! ## Tiles -/

theorem postEvent_inv {s : State} {core evt h m l : Nat} (inv : s.Inv) : (postEvent s core evt h m l).Inv := by
  unfold postEvent
  exact inv_upd inv

/-! ## Host -/

theorem putTail_inv {s : State} {n : Nat} {q : HQueue} {v : Word} (inv : s.Inv) : (putTail s n q v).Inv := by
  unfold putTail
  dsimp only
  split
  · exact setQueue_inv inv
  · exact inv_ite (postEvent_inv (setQueue_inv inv)) (setQueue_inv inv)

theorem regWrHost_inv {s : State} {m : HostHdr} {reg : Nat} {v : Word} (inv : s.Inv) : (regWrHost s m reg v).Inv := by
  unfold regWrHost
  dsimp only
  refine inv_ite (inv_ite packageReset_inv inv) ?_
  split
  · exact sendResp_inv inv
  split
  · exact sendResp_inv (putTail_inv inv)
  · exact sendResp_inv inv
  · exact sendResp_inv (putCtl_inv inv)
  · exact sendResp_inv inv

theorem applyHost_inv {s : State} {m : HostMsg} (inv : s.Inv) : (applyHost s m).Inv := by
  unfold applyHost
  split
  · exact regWrHost_inv inv
  · exact regRdHost_inv inv
  · exact memWrHost_inv inv
  · exact memRdHost_inv inv
  · exact inv
  · exact inv
  · exact inv

theorem applyHeld_inv {conn n : Nat} {s : State} (inv : s.Inv) : (applyHeld conn n s).Inv := by
  induction n generalizing s with
  | zero => exact inv
  | succ n ih =>
    unfold applyHeld
    split
    · exact inv
    split
    · exact inv
    · exact ih (foldl_inv (setConn_inv inv) fun _ _ h => applyHost_inv h)

theorem respAgain_inv {s : State} {conn seq : Nat} (inv : s.Inv) : (respAgain s conn seq).Inv := by
  unfold respAgain
  split
  · exact inv_upd inv
  · exact inv

theorem recvSeq_inv {s : State} {c : Conn} {m : HostMsg} (inv : s.Inv) : (recvSeq s c m).Inv := by
  unfold recvSeq; dsimp only
  generalize (if c.gen = 1 then c else _) = c
  split
  · exact applyHeld_inv (applyHost_inv (setConn_inv inv))
  split
  · split
    · exact setConn_inv inv
    · exact applyHost_inv inv
  split
  · exact setConn_inv inv
  split
  · exact sendHost_inv (respAgain_inv (setConn_inv inv))
  · exact inv

theorem recvNow_inv {s : State} {m : HostMsg} (inv : s.Inv) : (recvNow s m).Inv := by
  unfold recvNow
  refine inv_ite (dropCount_inv inv) ?_
  split
  · exact inv_ite (helloMsg_inv inv) (dropCount_inv inv)
  split
  · exact dropCount_inv inv
  refine inv_ite (dropCount_inv inv) ?_
  split
  · exact inv_ite inv (recvAck_inv inv)
  · exact recvSeq_inv inv

theorem recvHost_inv {s : State} {m : HostMsg} (inv : s.Inv) : (recvHost s m).Inv := by
  unfold recvHost
  exact inv_ite inv (inv_ite (inv_ite (inv_upd inv) inv) (recvNow_inv inv))

theorem execAck_inv {m : HostHdr} {bitmap : List Bool} {s : State} (inv : s.Inv) : OutInv (execAck m bitmap s) := by
  unfold execAck
  exact outInv_next.mpr (recvHost_inv inv)

theorem execAckTimer_inv {conn : Nat} {s : State} (inv : s.Inv) : OutInv (execAckTimer conn s) := by
  unfold execAckTimer
  refine outInv_next.mpr ?_
  split
  · exact inv_ite (sendHost_inv inv) inv
  · exact inv

/-! ## Ops -/

theorem setCell_inv {s : State} {key : Nat} {c : Cell} (inv : s.Inv) : (setCell s key c).Inv := by
  unfold setCell
  exact inv_upd inv

theorem addLatch_inv {s : State} {key : Nat} {l : Latch} (inv : s.Inv) : (addLatch s key l).Inv := by
  unfold addLatch
  dsimp only
  exact setCell_inv (inv_upd inv)

theorem setCore_inv {s : State} {n : Nat} {c : Core} (inv : s.Inv) : (setCore s n c).Inv := by
  unfold setCore
  exact inv_upd inv

theorem writeA_inv {s : State} {key : Nat} {r : Nat} {v : Word} (inv : s.Inv) : (writeA s key r v).Inv := by
  unfold writeA
  dsimp only
  exact inv_ite inv (inv_ite (setCore_inv inv) (setCell_inv inv))

theorem landA_inv {s : State} {c : Ctx} {r : BitVec 6} {v : Word} {latency : Nat} (inv : s.Inv) :
    (landA s c r v latency).Inv := by
  unfold landA
  exact inv_ite (inv_ite inv (addLatch_inv inv)) (writeA_inv inv)

theorem setStreamAt_inv {s : State} {key : Nat} {q : Seq} {st : Stream} (inv : s.Inv) : (setStreamAt s key q st).Inv := by
  unfold setStreamAt
  dsimp only
  exact inv_ite (setCore_inv inv) (setCell_inv inv)

theorem addShadow_inv {s : State} {w : Who} {f : Flt} {primary : Bool} (inv : s.Inv) : (addShadow s w f primary).Inv := by
  unfold addShadow
  dsimp only
  split
  · exact inv
  · exact setCell_inv inv

theorem muteCore_inv {s : State} {n : Nat} (inv : s.Inv) : (muteCore s n).Inv := by
  unfold muteCore
  exact setCore_inv (inv_upd inv)

theorem coreFault_inv {s : State} {n : Nat} {pc : Nat} {f : Flt} (inv : s.Inv) : (coreFault s n pc f).Inv := by
  unfold coreFault
  dsimp only
  exact inv_ite (inv_ite packageReset_inv (setCore_inv (muteCore_inv inv))) (setCore_inv inv)

theorem setReg_inv {s : State} {h : Nat} {r : Region} (inv : s.Inv) : (setReg s h r).Inv := by
  unfold setReg
  exact inv_upd inv

theorem endElastic_inv {s : State} {w : Who} {code : Nat} (inv : s.Inv) : (endElastic s w code).Inv := by
  unfold endElastic; dsimp only
  split
  · split
    · exact setCell_inv inv
    · exact inv
  split
  · exact inv
  · exact setCell_inv (inv_upd (setReg_inv inv))

theorem raiseHalt_inv {s : State} {h : Nat} {cyc : Option Nat} (inv : s.Inv) : (raiseHalt s h cyc).Inv := by
  unfold raiseHalt
  dsimp only
  split
  · exact inv
  · exact setReg_inv inv
  · exact inv_ite (setReg_inv inv) (inv_ite (setReg_inv inv) (inv_ite (setReg_inv inv) (setReg_inv inv)))

theorem recordFault_inv {s : State} {h : Nat} {w : Who} {f : Flt} {sh : Bool} (inv : s.Inv) : (recordFault s h w f sh).Inv := by
  unfold recordFault
  dsimp only
  exact inv_upd (setReg_inv inv)

theorem takeFault_inv {s : State} {w : Who} {f : Flt} (inv : s.Inv) : (takeFault s w f).Inv := by
  unfold takeFault
  dsimp only
  refine inv_ite (coreFault_inv inv) (inv_ite (recordFault_inv (inv_ite (setReg_inv inv) inv)) (inv_ite
    (endElastic_inv inv) ?_))
  split
  · exact raiseHalt_inv (addShadow_inv (recordFault_inv inv))
  · exact inv_ite (addShadow_inv (recordFault_inv inv)) (inv_ite (addShadow_inv (recordFault_inv inv))
      (recordFault_inv inv))

theorem touchStart_inv {s : State} {key : Nat} (inv : s.Inv) : (touchStart s key).Inv := by
  unfold touchStart
  dsimp only
  exact inv_ite inv (inv_ite inv (inv_ite inv (inv_ite (setReg_inv inv) inv)))

theorem waitWord_inv {s : State} {c : Ctx} (inv : s.Inv) : (waitWord s c).Inv := by
  unfold waitWord
  exact setStreamAt_inv inv

theorem runWord_inv {lg : Legal} {regs : List (BitVec 6)} {body : Ctx → State → Res} {s : State} (inv : s.Inv)
    (hbody : ∀ c u, u.Inv → (body c u).Inv) : (runWord lg regs body s).Inv := by
  have hu : (touchStart s s.cur).Inv := touchStart_inv inv
  obtain h | ⟨js, f, h⟩ | h | ⟨js, h⟩ := runWord_cases lg regs body s
  · rw [h]; exact inv
  · rw [h]; exact takeFault_inv (setStreamAt_inv hu)
  · rw [h]; exact waitWord_inv inv
  · obtain ⟨t, e, h⟩ | ⟨t, pc, e, h⟩ | ⟨t, f, e, h⟩ := h <;> rw [h]
    · exact Res.inv_of_eq e (hbody _ _ (setStreamAt_inv hu))
    · exact setStreamAt_inv (Res.inv_of_eq e (hbody _ _ (setStreamAt_inv hu)))
    · exact takeFault_inv (Res.inv_of_eq e (hbody _ _ (setStreamAt_inv hu)))

theorem word_inv {lg : Legal} {regs : List (BitVec 6)} {body : Ctx → State → Res} {s : State} (inv : s.Inv)
    (hbody : ∀ c u, u.Inv → (body c u).Inv) : OutInv (word lg regs body s) :=
  outInv_next.mpr (runWord_inv inv hbody)

/-! ## Scalar -/

theorem alu3_inv {d a b : BitVec 6} {latency : Nat} {f : Word → Word → Word} {s : State} (inv : s.Inv) :
    OutInv (alu3 d a b latency f s) := by
  unfold alu3
  exact word_inv inv (fun _ _ h => landA_inv h)

theorem execAdd_inv {d a b : BitVec 6} {s : State} (inv : s.Inv) : OutInv (execAdd d a b s) := by
  unfold execAdd
  exact alu3_inv inv

theorem alu2_inv {d a : BitVec 6} {latency : Nat} {f : Word → Word} {s : State} (inv : s.Inv) :
    OutInv (alu2 d a latency f s) := by
  unfold alu2
  exact word_inv inv (fun _ _ h => landA_inv h)

theorem execAddi_inv {d a : BitVec 6} {imm : BitVec 32} {s : State} (inv : s.Inv) : OutInv (execAddi d a imm s) := by
  unfold execAddi
  exact alu2_inv inv

/-! ## Launch -/

theorem execAgeStep_inv {h : Nat} {s : State} (inv : s.Inv) : OutInv (execAgeStep h s) := by
  unfold execAgeStep
  dsimp only
  exact outInv_next.mpr (inv_ite inv (inv_ite (setReg_inv inv) (setReg_inv inv)))

/-! ## Control -/

theorem onStream_inv {s : State} {c : Ctx} {f : Stream → Stream} (inv : s.Inv) : (onStream s c f).Inv := by
  unfold onStream
  exact setStreamAt_inv inv

theorem execAlignf_inv {s : State} (inv : s.Inv) : OutInv (execAlignf s) := by
  unfold execAlignf
  dsimp only
  exact word_inv inv (fun _ _ h => resinv_ite illegal_inv (resinv_ite (setReg_inv (onStream_inv h)) (onStream_inv h)))

/-! ## Mem -/

theorem overtake_inv {s : State} {key : Nat} {f : Req → Bool} (inv : s.Inv) : (overtake s key f).Inv := by
  unfold overtake
  exact inv_upd inv

theorem setSects_inv {s : State} {key : Nat} {l : List Sect} (inv : s.Inv) : (setSects s key l).Inv := by
  unfold setSects
  dsimp only
  exact inv_ite (setCore_inv inv) (setCell_inv inv)

theorem sectDrop_inv {s : State} {key tens tile off n : Nat} (inv : s.Inv) : (sectDrop s key tens tile off n).Inv := by
  unfold sectDrop
  exact setSects_inv inv

/-! ## ScalarMem -/

theorem atomicLeaves_inv {s : State} {c : Ctx} {ea : Word} {tile off n : Nat} (inv : s.Inv) :
    (atomicLeaves s c ea tile off n).Inv := by
  unfold atomicLeaves
  exact overtake_inv (sectDrop_inv inv)

/-! ## Ops -/

theorem fresh_inv {s : State} (inv : s.Inv) : (fresh s).2.Inv := by
  unfold fresh
  dsimp only
  exact inv_upd inv

/-! ## Mem -/

theorem sendReq_inv {s : State} {r : Req} (inv : s.Inv) : (sendReq s r).Inv := by
  unfold sendReq
  dsimp only
  exact inv_upd (fresh_inv inv)

/-! ## ScalarMem -/

theorem issueReq_inv {s : State} {c : Ctx} {r : Req} (inv : s.Inv) : (issueReq s c r).Inv := by
  unfold issueReq
  exact sendReq_inv inv

theorem watched_inv {s : State} {c : Ctx} {wr : Bool} {ea : Word} {addrs : List Word} {r : Res} (hr : r.Inv) :
    (watched s c wr ea addrs r).Inv := by
  unfold watched; split
  · split <;> exact hr
  · exact hr

theorem atomicBody_inv {kind : ReqKind} {d f : BitVec 6} {use w : Nat} {a b e : Word} {c : Ctx} {s : State} (inv : s.Inv) :
    (atomicBody kind d f use w a b e c s).Inv := by
  unfold atomicBody
  dsimp only
  refine resinv_ite illegal_inv (resinv_ite illegal_inv (resinv_ite accFault_inv ?_))
  split
  · exact accFault_inv
  · exact resinv_ite accFault_inv (watched_inv (atomicLeaves_inv (issueReq_inv inv)))

theorem execAmo_inv {d a b : BitVec 6} {op : BitVec 4} {use : BitVec 3} {w : BitVec 1} {s : State} (inv : s.Inv) :
    OutInv (execAmo d a b op use w s) := by
  unfold execAmo
  exact word_inv inv (fun _ _ h => resinv_ite illegal_inv (atomicBody_inv h))

/-! ## Scalar -/

theorem execAnd_inv {d a b : BitVec 6} {s : State} (inv : s.Inv) : OutInv (execAnd d a b s) := by
  unfold execAnd
  exact alu3_inv inv

theorem execAndi_inv {d a : BitVec 6} {imm : BitVec 32} {s : State} (inv : s.Inv) : OutInv (execAndi d a imm s) := by
  unfold execAndi
  exact alu2_inv inv

theorem execAndn_inv {d a b : BitVec 6} {s : State} (inv : s.Inv) : OutInv (execAndn d a b s) := by
  unfold execAndn
  exact alu3_inv inv

/-! ## Access -/

theorem Res.kept_inv {t : State} {r : Res} (inv : t.Inv) (hr : r.Inv) : (Res.kept t r).Inv := by
  cases r <;> assumption

/-! ## Mem -/

theorem setBarWord_inv {s : State} {y off : Nat} {w : Word} (inv : s.Inv) : (setBarWord s y off w).Inv := by
  unfold setBarWord
  dsimp only
  exact setCell_inv inv

/-! ## Sync -/

theorem arriveBody_inv {d : BitVec 6} {wait : Bool} {a n : Word} {c : Ctx} {s : State} (inv : s.Inv) :
    (arriveBody d wait a n c s).Inv := by
  unfold arriveBody
  dsimp only
  split
  · exact accFault_inv
  refine resinv_ite accFault_inv (resinv_ite (watched_inv (addLatch_inv inv)) ?_)
  split
  · exact trivial
  · exact watched_inv (inv_ite (onStream_inv (landA_inv (setBarWord_inv inv))) (landA_inv (setBarWord_inv inv)))

/-! ## Mem -/

theorem takeToks_inv {s t : State} {key : Nat} {k : Toks} (inv : s.Inv) (e : takeToks s key k = some t) : t.Inv := by
  unfold takeToks at e; split at e
  · cases e; exact setCell_inv inv
  · cases e

/-! ## Access -/

theorem withToks_inv {s : State} {c : Ctx} {k : Toks} {f : State → Res} (inv : s.Inv) (hf : ∀ t, t.Inv → (f t).Inv) :
    (withToks s c k f).Inv := by
  unfold withToks; split
  · exact hf _ (takeToks_inv inv ‹_›)
  · exact tokShort_inv

theorem execArrv_inv {a b : BitVec 6} {k : Toks} {s : State} (inv : s.Inv) : OutInv (execArrv a b k s) :=
  word_inv inv fun _ _ inv => withToks_inv inv fun _ h => Res.kept_inv h (arriveBody_inv h)

/-! ## MemEvents -/

theorem atomicResult_inv {s : State} {r : Req} {old : Nat} (inv : s.Inv) : (atomicResult s r old).2.2.Inv := by
  unfold atomicResult
  dsimp only
  split
  · exact inv
  · split
    · exact freeNum_inv inv
    · exact inv
  · exact inv
  · exact inv

/-! ## Mem -/

theorem landOn_inv {s t : State} {y off n : Nat} (inv : s.Inv) (e : landOn s y off n = .ok t) : t.Inv := by
  unfold landOn at e
  split at e
  · cases e
  split at e
  · cases e; exact setBarWord_inv inv
  · cases e

theorem barLanded_inv {s t : State} {key n : Nat} {a : Word} (inv : s.Inv) (e : barLanded s key a n = .ok t) : t.Inv := by
  unfold barLanded at e
  split at e
  · cases e; exact inv
  split at e
  · cases e; exact inv
  · exact landOn_inv inv e

theorem opStopped_inv {s : State} {id : Nat} (inv : s.Inv) : (opStopped s id).Inv := by
  unfold opStopped
  exact inv_upd inv

/-! ## MemEvents -/

theorem reqLand_inv {s : State} {r : Req} (inv : s.Inv) : (reqLand s r).Inv := by
  unfold reqLand
  split
  · exact inv
  split
  · exact barLanded_inv inv ‹_›
  · exact takeFault_inv (opStopped_inv inv)

theorem setReq_inv {s : State} {id : Nat} {r : Req} (inv : s.Inv) : (setReq s id r).Inv := by
  unfold setReq
  exact inv_upd inv

theorem applyAtomic_inv {s : State} {id : Nat} {r : Req} (inv : s.Inv) : (applyAtomic s id r).Inv := by
  unfold applyAtomic
  split
  · exact inv
  · exact reqLand_inv (setReq_inv (hotSample_inv (homeWrite_inv (atomicResult_inv (zeroFill_inv inv)))))

/-! ## Engines -/

theorem freeBits_inv {s : State} {w : Nat} (inv : s.Inv) : (freeBits s w).2.Inv := by
  unfold freeBits
  dsimp only
  exact inv_upd (freeNum_inv inv)

/-! ## Tiles -/

theorem sendPkg_inv {s : State} {pkg typ : Nat} {data : List Word} {bytes : List Byte} (inv : s.Inv) :
    (sendPkg s pkg typ data bytes).Inv := by
  unfold sendPkg
  split
  · exact inv
  · exact sendOn_inv inv

/-! ## MemEvents -/

theorem applyPeer_inv {s : State} {id : Nat} {r : Req} (inv : s.Inv) : (applyPeer s id r).Inv := by
  unfold applyPeer
  split
  · split
    · exact inv
    dsimp only
    split
    · exact setReq_inv (sendPkg_inv (freeBits_inv inv))
    split
    · exact setReq_inv (sendPkg_inv inv)
    · exact setReq_inv (inv_upd (freeNum_inv inv))
  · exact inv

theorem dropReq_inv {s : State} {id : Nat} (inv : s.Inv) : (dropReq s id).Inv := by
  unfold dropReq
  exact inv_upd inv

/-! ## Mem -/

theorem homeStore_inv {s : State} {r : Req} (inv : s.Inv) : (homeStore s r).Inv := by
  unfold homeStore
  split
  · exact inv
  dsimp only
  split
  · exact homeWriteNib_inv inv
  split
  · exact healMem_inv (foldl_inv (homeWrite_inv inv) fun _ _ h => homeWrite_inv h)
  · exact foldl_inv (homeWrite_inv inv) fun _ _ h => homeWrite_inv h

/-! ## MemEvents -/

theorem reqFault_inv {s : State} {id : Nat} {r : Req} {code applied : Nat} (inv : s.Inv) :
    (reqFault s id r code applied).Inv := by
  unfold reqFault
  exact takeFault_inv (inv_ite (dropReq_inv inv) (opStopped_inv (dropReq_inv inv)))

/-! ## Mem -/

theorem sectRenew_inv {s : State} {key ctx tens tile sec : Nat} (inv : s.Inv) : (sectRenew s key ctx tens tile sec).Inv := by
  unfold sectRenew
  dsimp only
  exact setSects_inv inv

/-! ## MemEvents -/

theorem applyReq_inv {s : State} {id : Nat} {r : Req} (inv : s.Inv) : (applyReq s id r).Inv := by
  unfold applyReq; dsimp only
  have hr : ∀ l : List (Nat × Nat × BitVec 256),
      (l.foldl (fun s x => sectRenew s r.key r.ctx (tidOf r.addr) x.1 x.2.1) s).Inv :=
    fun l => foldl_inv inv fun _ _ h => sectRenew_inv h
  split
  · exact inv
  split
  · exact applyPeer_inv inv
  split
  · split
    · exact reqLand_inv (setReq_inv (inv_upd inv))
    split
    · exact inv
    split
    · exact reqFault_inv (zeroFill_inv inv)
    · exact hotSample_inv (homeStore_inv (dropReq_inv (zeroFill_inv inv)))
  · split
    · exact reqFault_inv inv
    · exact inv_ite (hotSample_inv (setReq_inv (inv_ite (hr _) inv))) (setReq_inv (inv_ite (hr _) inv))
  · split
    · exact reqFault_inv inv
    · exact inv_ite (hotSample_inv (setReq_inv (inv_ite (hr _) inv))) (setReq_inv (inv_ite (hr _) inv))
  · split
    · exact inv
    split
    · exact reqFault_inv (zeroFill_inv inv)
    · exact applyAtomic_inv (zeroFill_inv inv)

theorem countAperr_inv {s : State} {key : Nat} (inv : s.Inv) : (countAperr s key).Inv := by
  unfold countAperr
  dsimp only
  exact setCell_inv inv

theorem execAtomicErrorResponse_inv {req : Nat} {applied : Bool} {s : State} (inv : s.Inv) :
    OutInv (execAtomicErrorResponse req applied s) := by
  unfold execAtomicErrorResponse; rw [outInv_next]
  split
  · exact inv
  rename_i r _
  split
  · exact inv
  have h : (applyReq s req r).Inv := applyReq_inv inv
  split
  · dsimp only
    split
    · exact h
    split
    · exact inv
    split
    · exact reqFault_inv h
    split
    · exact dropReq_inv h
    · refine postEvent_inv (inv_upd (freeNum_inv (countAperr_inv ?_)))
      split
      · exact reqLand_inv (dropReq_inv h)
      · exact dropReq_inv h
  split
  · exact inv
  · exact reqFault_inv inv

theorem execAtomicTimeout_inv {req : Nat} {s : State} (inv : s.Inv) : OutInv (execAtomicTimeout req s) := by
  unfold execAtomicTimeout
  refine outInv_next.mpr ?_
  split
  · exact inv
  · exact inv_ite (reqFault_inv inv) inv

/-! ## Queue -/

theorem startOp_inv {s : State} {c : Ctx} {o : Op} (inv : s.Inv) : (startOp s c o).Inv := by
  unfold startOp
  dsimp only
  exact inv_upd (fresh_inv inv)

/-! ## Gather -/

theorem startCmd_inv {s : State} {c : Ctx} {k : Toks} {o : Op} (inv : s.Inv) : (startCmd s c k o).Inv := by
  unfold startCmd
  exact withToks_inv inv (fun _ h => startOp_inv h)

/-! ## Stratum -/

theorem bankStart_inv {s : State} {c : Ctx} {k : Toks} {a : Word} {fmtOk : Nat → Bool} {cntOk : Bool} {o : Op} (inv : s.Inv) :
    (bankStart s c k a fmtOk cntOk o).Inv := by
  unfold bankStart
  split
  · exact trivial
  · exact resinv_ite trivial (startCmd_inv inv)

/-! ## Access -/

theorem gated_inv {k : Toks} {full : Ctx → State → Bool} {f : Ctx → State → Res} {c : Ctx} {s : State} (hf : (f c s).Inv) :
    (gated k full f c s).Inv := by
  unfold gated; split
  · trivial
  · exact hf

/-! ## Stratum -/

theorem execBamo_inv {qs : BitVec 3} {a b : BitVec 4} {op : BitVec 4} {d64 : BitVec 1} {k : Toks} {s : State} (inv : s.Inv) :
    OutInv (execBamo qs a b op d64 k s) := by
  unfold execBamo
  dsimp only
  exact word_inv inv (fun _ _ h => gated_inv (resinv_ite illegal_inv (bankStart_inv h)))

/-! ## Sync -/

theorem execBar_inv {d a b : BitVec 6} {wait : BitVec 1} {s : State} (inv : s.Inv) : OutInv (execBar d a b wait s) := by
  unfold execBar
  exact word_inv inv (fun _ _ h => arriveBody_inv h)

/-! ## Stratum -/

theorem execBcpy_inv {a b : BitVec 4} {k : Toks} {s : State} (inv : s.Inv) : OutInv (execBcpy a b k s) := by
  refine word_inv inv fun c u inv => gated_inv ?_
  dsimp only
  split
  · trivial
  · exact bankStart_inv inv

theorem execBfill_inv {a b : BitVec 4} {k : Toks} {s : State} (inv : s.Inv) : OutInv (execBfill a b k s) := by
  unfold execBfill
  dsimp only
  exact word_inv inv (fun _ _ h => gated_inv (bankStart_inv h))

theorem execBld_inv {q : BitVec 3} {a b : BitVec 4} {mk : BitVec 1} {k : Toks} {s : State} (inv : s.Inv) :
    OutInv (execBld q a b mk k s) := by
  unfold execBld
  dsimp only
  exact word_inv inv (fun _ _ h => gated_inv (resinv_ite illegal_inv (bankStart_inv h)))

/-! ## Control -/

theorem jumpTo_inv {s : State} {c : Ctx} {pc : Nat} (inv : s.Inv) : (jumpTo s c pc).Inv := by
  unfold jumpTo
  exact resinv_ite inv illegal_inv

theorem execBr_inv {a b : BitVec 6} {cnd : BitVec 3} {off : BitVec 32} {s : State} (inv : s.Inv) :
    OutInv (execBr a b cnd off s) := by
  unfold execBr
  exact word_inv inv (fun _ _ h => resinv_ite illegal_inv (resinv_ite (jumpTo_inv h) h))

/-! ## Stratum -/

theorem execBred_inv {q : BitVec 3} {a b : BitVec 4} {op : BitVec 3} {k : Toks} {s : State} (inv : s.Inv) :
    OutInv (execBred q a b op k s) := by
  unfold execBred
  dsimp only
  exact word_inv inv (fun _ _ h => gated_inv (resinv_ite illegal_inv (bankStart_inv h)))

/-! ## Operands -/

theorem setQ_inv {s : State} {key q : Nat} {l : List QEntry} (inv : s.Inv) : (setQ s key q l).Inv := by
  unfold setQ
  dsimp only
  exact setCell_inv inv

/-! ## Access -/

theorem execBrq_inv {q : BitVec 4} {cnd : BitVec 3} {off : BitVec 32} {s : State} (inv : s.Inv) : OutInv (execBrq q cnd off s) := by
  refine word_inv inv fun c s inv => ?_
  refine resinv_ite illegal_inv (resinv_ite trivial ?_)
  split
  · trivial
  · exact resinv_ite (jumpTo_inv (setQ_inv inv)) inv
  · trivial
  · exact resinv_ite inv (jumpTo_inv inv)
  · exact resinv_ite (jumpTo_inv inv) inv
  · exact resinv_ite inv (jumpTo_inv inv)

/-! ## Control -/

theorem execBrt_inv {a : BitVec 6} {cnd : BitVec 3} {toff joff : BitVec 12} {jdist : BitVec 14} {s : State} (inv : s.Inv) :
    OutInv (execBrt a cnd toff joff jdist s) := by
  unfold execBrt
  dsimp only
  exact word_inv inv (fun _ _ h => resinv_ite illegal_inv (resinv_ite (jumpTo_inv (onStream_inv h)) (onStream_inv h)))

/-! ## Stratum -/

theorem execBst_inv {qs : BitVec 3} {a b : BitVec 4} {k : Toks} {s : State} (inv : s.Inv) : OutInv (execBst qs a b k s) := by
  unfold execBst
  dsimp only
  exact word_inv inv (fun _ _ h => gated_inv (resinv_ite illegal_inv (bankStart_inv h)))

/-! ## Access -/

theorem execBwait_inv {a b : BitVec 6} {k : Toks} {s : State} (inv : s.Inv) : OutInv (execBwait a b k s) := by
  refine word_inv inv fun c u inv => gated_inv ?_
  dsimp only
  split
  · exact illegal_inv
  split
  · trivial
  split
  · trivial
  refine withToks_inv inv fun t h => watched_inv ?_
  split
  · exact addLatch_inv h
  · exact onStream_inv h

/-! ## Control -/

theorem execCall_inv {a : BitVec 6} {off : BitVec 32} {s : State} (inv : s.Inv) : OutInv (execCall a off s) := by
  unfold execCall
  exact word_inv inv (fun _ _ h => jumpTo_inv (landA_inv h))

/-! ## ScalarMem -/

theorem execCas_inv {d a b c f : BitVec 6} {use : BitVec 3} {w : BitVec 1} {s : State} (inv : s.Inv) :
    OutInv (execCas d a b c f use w s) := by
  unfold execCas
  exact word_inv inv (fun _ _ h => resinv_ite illegal_inv (atomicBody_inv h))

/-! ## Device -/

theorem complete_inv {s : State} {c : CmdRef} {status handle fcode disc slot : Nat} (inv : s.Inv) :
    (complete s c status handle fcode disc slot).Inv := by
  unfold complete
  dsimp only
  split
  · exact inv
  · exact inv_ite (sendHost_inv (setQueue_inv (hostPut_inv inv))) (setQueue_inv (hostPut_inv inv))

/-! ## Launch -/

theorem answer_inv {s : State} {c : Cmd} {status handle : Nat} (inv : s.Inv) : (answer s c status handle).Inv := by
  unfold answer
  exact complete_inv inv

/-! ## Host -/

theorem ccreateCmd_inv {s : State} {c : Cmd} (inv : s.Inv) : (ccreateCmd s c).Inv := by
  unfold ccreateCmd; dsimp only
  split
  · exact answer_inv inv
  split
  · exact answer_inv inv
  · exact answer_inv (inv_upd (setPreg_inv (setPreg_inv (setPreg_inv (setPreg_inv inv)))))

/-! ## Launch -/

theorem takeCmd_inv {s : State} {c : Cmd} (inv : s.Inv) : (takeCmd s c).Inv := by
  unfold takeCmd
  exact inv_upd inv

/-! ## Host -/

theorem execCcreate_inv {c : Cmd} {s : State} (inv : s.Inv) : OutInv (execCcreate c s) := by
  unfold execCcreate
  exact outInv_next.mpr (ccreateCmd_inv (takeCmd_inv inv))

theorem cdestroyCmd_inv {s : State} {c : Cmd} (inv : s.Inv) : (cdestroyCmd s c).Inv := by
  unfold cdestroyCmd; dsimp only
  split
  · exact answer_inv inv
  split
  · exact answer_inv inv
  · exact answer_inv (inv_upd (foldl_inv inv fun _ _ h => setPreg_inv h))

theorem execCdestroy_inv {c : Cmd} {s : State} (inv : s.Inv) : OutInv (execCdestroy c s) := by
  unfold execCdestroy
  exact outInv_next.mpr (cdestroyCmd_inv (takeCmd_inv inv))

theorem recvFrame_inv {s : State} {id : ConnId} {data : List Byte} (inv : s.Inv) : (recvFrame s id data).Inv := by
  unfold recvFrame; dsimp only
  refine inv_ite (inv_upd (foldl_inv inv ?h)) (foldl_inv inv ?h)
  intro t r h
  split
  · exact inv_ite (recvHost_inv h) (dropCount_inv h)
  · exact dropCount_inv h

theorem execClaexFrameDrop_inv {f : Frame} {s : State} (inv : s.Inv) : OutInv (execClaexFrameDrop f s) := by
  unfold execClaexFrameDrop
  refine outInv_next.mpr (inv_ite inv (inv_ite (dropCount_inv inv) ?_))
  split
  · exact inv_ite (recvFrame_inv inv) (dropCount_inv inv)
  · exact inv_ite (recvFrame_inv inv) (dropCount_inv inv)
  · exact dropCount_inv inv

/-! ## Tiles -/

theorem clearStratum_inv {s : State} {i : Nat} (inv : s.Inv) : (clearStratum s i).Inv := by
  unfold clearStratum
  exact foldl_inv inv (fun _ _ h => setCell_inv h)

/-! ## Firmware -/

theorem lhAnswer_inv {s : State} {r : LhReq} {req status result : Nat} (inv : s.Inv) : (lhAnswer s r req status result).Inv := by
  unfold lhAnswer
  exact inv_ite inv (inv_upd inv)

/-- The answer of a request to the lighthouse, by its conditions. -/
theorem answer_inv_ite {c : Prop} [Decidable c] {p q : Nat × State} (hp : p.2.Inv) (hq : q.2.Inv) : (if c then p else q).2.Inv := by
  split <;> assumption

theorem lhServe_inv {s : State} {r : LhReq} {req cap : Nat} {f : State → Nat × State} (inv : s.Inv) (hf : ∀ t, t.Inv →
    (f t).2.Inv) :
    (lhServe s r req cap f).Inv := by
  unfold lhServe
  split
  · exact lhAnswer_inv (hf s inv)
  · exact lhAnswer_inv inv

theorem lowWater_inv {s : State} (inv : s.Inv) : (lowWater s).Inv := by
  unfold lowWater
  dsimp only
  exact inv_upd inv

theorem saveMarks_inv {s : State} (inv : s.Inv) : (saveMarks s).Inv := by
  unfold saveMarks
  dsimp only
  exact inv_upd inv

theorem untrain_inv {s : State} {site : Nat} (inv : s.Inv) : (untrain s site).Inv := by
  unfold untrain
  exact inv_upd inv

theorem execClearfail_inv {r : LhReq} {s : State} (inv : s.Inv) : OutInv (execClearfail r s) := by
  refine outInv_next.mpr (lhServe_inv inv fun s inv => ?_)
  refine answer_inv_ite inv (answer_inv_ite (answer_inv_ite inv ?_) (answer_inv_ite inv ?_))
  · exact saveMarks_inv (mixUpdate_inv (inv_ite (clearStratum_inv (inv_upd (inv_upd inv))) (inv_upd inv)))
  · have h := fun l : List Nat => untrain_inv (s := { s with failed := l }) (site := argBits r 7 0) (inv_upd inv)
    exact lowWater_inv (saveMarks_inv (mixUpdate_inv (inv_ite (inv_upd (h _)) (inv_ite (inv_upd (h _)) (inv_upd (h _))))))

/-! ## Due -/

theorem refTick_inv {s : State} (inv : s.Inv) : (refTick s).Inv := by
  unfold refTick
  dsimp only
  exact inv_upd inv

theorem runTicks_inv {s : State} {n : Nat} (inv : s.Inv) : (runTicks s n).Inv :=
  inv_upd (foldl_inv inv fun _ _ h => refTick_inv h)

theorem execClockStretch_inv {s : State} (inv : s.Inv) : OutInv (execClockStretch s) := by
  unfold execClockStretch
  dsimp only
  exact outInv_next.mpr (runTicks_inv (inv_upd (freeNum_inv inv)))

/-! ## Scalar -/

theorem execClz_inv {d a : BitVec 6} {s : State} (inv : s.Inv) : OutInv (execClz d a s) := by
  unfold execClz
  exact alu2_inv inv

/-! ## Mem -/

theorem spadPut_inv {s : State} {y off : Nat} {b : Byte} (inv : s.Inv) : (spadPut s y off b).Inv := by
  unfold spadPut
  dsimp only
  exact inv_ite (setCore_inv inv) (setCell_inv inv)

/-! ## Collective -/

theorem putStatus_inv {s : State} {key off : Nat} {w : Word} (inv : s.Inv) : (putStatus s key off w).Inv := by
  unfold putStatus
  exact foldl_inv inv (fun _ _ h => spadPut_inv h)

theorem collEnd_inv {s : State} {id : Nat} {o : Op} {status fail : Nat} (inv : s.Inv) : (collEnd s id o status fail).Inv := by
  unfold collEnd
  dsimp only
  exact inv_upd (putStatus_inv inv)

/-! ## Access -/

theorem orFault_inv {code : Nat} {ta : Word} {r : Res} (hr : r.Inv) : (orFault code ta r).Inv := by
  unfold orFault; split
  · exact hr
  · trivial

theorem startAcc_inv {s : State} {c : Ctx} {k : Toks} {o : Op} (inv : s.Inv) : (startAcc s c k o).Inv := by
  unfold startAcc
  exact withToks_inv inv (fun _ h => startOp_inv h)

/-! ## Collective -/

theorem collWord_inv {kind : Nat} {ds dt op : BitVec 3} {fmt : BitVec 2} {a b : BitVec 6} {k : Toks} {s : State} (inv : s.Inv) :
    OutInv (collWord kind ds dt op fmt a b k s) := by
  refine word_inv inv fun c u inv => gated_inv ?_
  dsimp only
  split
  · trivial
  refine orFault_inv (orFault_inv ?_)
  split
  · trivial
  split
  · trivial
  split
  next t e =>
    have h : (Res.ok t).Inv := e ▸ startAcc_inv inv
    split
    · exact collEnd_inv (setCell_inv (putStatus_inv h))
    · exact setCell_inv (putStatus_inv h)
  next => exact startAcc_inv inv

theorem execCollAa_inv {ds dt : BitVec 3} {fmt : BitVec 2} {a : BitVec 6} {k : Toks} {s : State} (inv : s.Inv) :
    OutInv (execCollAa ds dt fmt a k s) := by
  unfold execCollAa
  exact collWord_inv inv

theorem holdMsg_inv {s : State} {h : HeldMsg} (inv : s.Inv) : (holdMsg s h).Inv := by
  unfold holdMsg
  dsimp only
  exact inv_ite inv (inv_ite (inv_upd inv) inv)

theorem collStop_inv {s : State} {id : Nat} {o : Op} {status : Nat} (inv : s.Inv) : (collStop s id o status).Inv :=
  foldl_inv (holdMsg_inv (foldl_inv (collEnd_inv inv) fun _ _ h => collEnd_inv h)) fun _ _ h => sendPkg_inv h

theorem execCollAb_inv {a : BitVec 6} {k : Toks} {s : State} (inv : s.Inv) : OutInv (execCollAb a k s) := by
  refine word_inv inv fun c u inv => gated_inv ?_
  dsimp only
  split
  · trivial
  split
  next t e =>
    have h : (Res.ok t).Inv := e ▸ startAcc_inv inv
    split
    · exact collStop_inv h
    · exact h
  next => exact startAcc_inv inv

theorem endAll_inv {s : State} {l : List (Nat × Op)} {status : Nat} (inv : s.Inv) : (endAll s l status).Inv := by
  unfold endAll
  dsimp only
  exact foldl_inv inv (fun _ _ h => collEnd_inv h)

theorem partialTo_inv {s : State} {m : CollMsg} {l : List (Nat × Op)} (inv : s.Inv) : (partialTo s m l).Inv := by
  unfold partialTo
  dsimp only
  exact foldl_inv (endAll_inv inv) (fun _ _ h => inv_upd h)

theorem msgArrive_inv {s : State} {h : HeldMsg} (inv : s.Inv) : (msgArrive s h).Inv := by
  unfold msgArrive
  dsimp only
  exact holdMsg_inv (inv_ite (endAll_inv inv) (partialTo_inv inv))

theorem execCollAbort_inv {pkg : Nat} {gid : BitVec 16} {round : BitVec 32} {s : State} (inv : s.Inv) :
    OutInv (execCollAbort pkg gid round s) := by
  unfold execCollAbort
  exact outInv_next.mpr (msgArrive_inv inv)

theorem execCollAg_inv {ds dt : BitVec 3} {fmt : BitVec 2} {a : BitVec 6} {k : Toks} {s : State} (inv : s.Inv) :
    OutInv (execCollAg ds dt fmt a k s) := by
  unfold execCollAg
  exact collWord_inv inv

theorem execCollAr_inv {ds dt : BitVec 3} {op : BitVec 3} {fmt : BitVec 2} {a : BitVec 6} {k : Toks} {s : State} (inv : s.Inv) :
    OutInv (execCollAr ds dt op fmt a k s) := by
  unfold execCollAr
  exact collWord_inv inv

theorem execCollBc_inv {ds dt : BitVec 3} {fmt : BitVec 2} {a b : BitVec 6} {k : Toks} {s : State} (inv : s.Inv) :
    OutInv (execCollBc ds dt fmt a b k s) := by
  unfold execCollBc
  exact collWord_inv inv

theorem execCollPartial_inv {m : CollMsg} {s : State} (inv : s.Inv) : OutInv (execCollPartial m s) := by
  unfold execCollPartial
  exact outInv_next.mpr (msgArrive_inv inv)

/-! ## Engines -/

theorem opLand_inv {s t : State} {o : Op} {n : Nat} (inv : s.Inv) (e : opLand s o n = .ok t) : t.Inv := barLanded_inv inv e

/-! ## Mem -/

theorem sectStoreReq_inv {s : State} {r : Req} (inv : s.Inv) : (sectStoreReq s r).Inv := by
  unfold sectStoreReq
  dsimp only
  split
  · exact inv
  · exact overtake_inv (setSects_inv inv)

theorem spadHeal_inv {s : State} {y off n : Nat} (inv : s.Inv) : (spadHeal s y off n).Inv := by
  unfold spadHeal
  dsimp only
  exact inv_ite inv (inv_ite (setCore_inv inv) (setCell_inv inv))

theorem spadStore_inv {s t : State} {x y off : Nat} {bs : List Byte} (inv : s.Inv) (e : spadStore s x y off bs = some t) :
    t.Inv := by
  induction bs generalizing s off with
  | nil => cases e; exact inv
  | cons b bs ih =>
    simp only [spadStore] at e
    grind [setCell_inv, spadPut_inv]

theorem spadWrite_inv {s t : State} {x y off : Nat} {bs : List Byte} (inv : s.Inv) (e : spadWrite s x y off bs = .ok t) :
    t.Inv := by
  unfold spadWrite at e
  split at e
  · cases e
  split at e
  · cases e; exact spadStore_inv (spadHeal_inv inv) ‹_›
  · cases e

/-! ## Engines -/

theorem engWrite_inv {s t : State} {id : Nat} {o : Op} {a : Word} {eb v land : Nat} (inv : s.Inv)
    (e : engWrite s id o a eb v land = .ok t) : t.Inv := by
  unfold engWrite at e; dsimp only at e
  split at e
  · split at e
    · cases e
    split at e
    · cases e
    · exact opLand_inv (spadWrite_inv inv ‹_›) e
  split at e
  · cases e
  split at e
  · cases e
  split at e
  · cases e
  · cases e; exact sectStoreReq_inv (sendReq_inv inv)

/-! ## Collective -/

theorem collWrite_inv {s t : State} {id : Nat} {o : Op} {l : List (Nat × Nat)} (inv : s.Inv) (e : collWrite s id o l = .ok t) :
    t.Inv := by
  induction l generalizing s with
  | nil => cases e; exact inv
  | cons p l ih =>
    simp only [collWrite] at e
    split at e
    · cases e
    · exact ih (engWrite_inv inv ‹_›) e

/-! ## Engines -/

theorem dropOp_inv {s : State} {id : Nat} {o : Op} (inv : s.Inv) : (dropOp s id o).Inv := by
  unfold dropOp
  exact inv_upd inv

theorem inputFault_inv {s : State} {o : Op} {code : Nat} (inv : s.Inv) : (inputFault s o code).Inv := by
  unfold inputFault
  dsimp only
  exact setCell_inv (inv_upd inv)

theorem opFault_inv {s : State} {id : Nat} {o : Op} {code : Nat} {ta : Word} (inv : s.Inv) : (opFault s id o code ta).Inv := by
  unfold opFault
  exact inv_ite (inputFault_inv inv) (takeFault_inv (dropOp_inv inv))

/-! ## Collective -/

theorem execCollRoundEnd_inv {op : Nat} {s : State} (inv : s.Inv) : OutInv (execCollRoundEnd op s) := by
  unfold execCollRoundEnd; rw [outInv_next]
  split
  · exact inv
  split
  · exact inv
  dsimp only
  have h := freeNum_inv inv
  split
  · exact opFault_inv h
  · exact collEnd_inv (collWrite_inv h ‹_›)

theorem execCollRoundTimeout_inv {op : Nat} {s : State} (inv : s.Inv) : OutInv (execCollRoundTimeout op s) := by
  unfold execCollRoundTimeout
  refine outInv_next.mpr ?_
  split
  · exact inv
  · exact inv_ite (collStop_inv inv) inv

theorem execCollRs_inv {ds dt : BitVec 3} {op : BitVec 3} {fmt : BitVec 2} {a : BitVec 6} {k : Toks} {s : State} (inv : s.Inv) :
    OutInv (execCollRs ds dt op fmt a k s) := by
  unfold execCollRs
  exact collWord_inv inv

/-! ## Host -/

theorem execCommandConsume_inv {queue : Nat} {s : State} (inv : s.Inv) : OutInv (execCommandConsume queue s) := by
  unfold execCommandConsume; rw [outInv_next]
  split
  · exact inv
  split
  · exact inv
  dsimp only
  split
  · exact setQueue_inv inv
  · split
    · exact inv_upd (setQueue_inv (hostCount_inv inv))
    · exact answer_inv (setQueue_inv (hostCount_inv inv))

/-! ## Firmware -/

theorem measExtend_inv {s : State} {n : Nat} {digest : BitVec 512} (inv : s.Inv) : (measExtend s n digest).Inv := by
  unfold measExtend
  exact inv_upd inv

theorem measImage_inv {s : State} {n : Nat} {slot : Option Nat} (inv : s.Inv) : (measImage s n slot).Inv := by
  unfold measImage
  exact measExtend_inv inv

theorem restartCores_inv {s : State} {slot : Nat} (inv : s.Inv) : (restartCores s slot).Inv := by
  unfold restartCores; dsimp only
  refine measImage_inv (inv_upd (foldl_inv inv ?_))
  intro t n h
  exact setCore_inv (muteCore_inv h)

theorem execCoreRestart_inv {s : State} (inv : s.Inv) : OutInv (execCoreRestart s) := by
  unfold execCoreRestart
  refine outInv_next.mpr ?_
  split
  · exact inv_ite inv (restartCores_inv inv)
  · exact inv

theorem execCoreTrap_inv {core : Nat} {code arg : BitVec 16} {s : State} (inv : s.Inv) :
    OutInv (execCoreTrap core code arg s) := by
  unfold execCoreTrap
  exact outInv_next.mpr (inv_ite inv (coreFault_inv inv))

/-! ## Access -/

theorem execCpy_inv {ds dt : BitVec 3} {k : Toks} {s : State} (inv : s.Inv) : OutInv (execCpy ds dt k s) := by
  refine word_inv inv fun c u inv => gated_inv ?_
  refine orFault_inv (orFault_inv ?_)
  split
  · trivial
  · exact startAcc_inv inv

/-! ## System -/

theorem execCsrr_inv {d : BitVec 6} {csr : BitVec 12} {s : State} (inv : s.Inv) : OutInv (execCsrr d csr s) := by
  refine word_inv inv fun c s inv => ?_
  dsimp only
  split
  · exact illegal_inv
  · exact resinv_ite (resinv_ite (landA_inv inv) (landA_inv (freeNum_inv inv))) (landA_inv (setCell_inv inv))

theorem csrPut_inv {s : State} {key n : Nat} {v : Word} (inv : s.Inv) : (csrPut s key n v).Inv := by
  unfold csrPut
  dsimp only
  split
  · exact setCell_inv inv
  · exact setCell_inv inv
  · exact setCell_inv inv
  · exact setCell_inv inv
  · exact inv

theorem execCsrw_inv {csr : BitVec 12} {a : BitVec 6} {s : State} (inv : s.Inv) : OutInv (execCsrw csr a s) := by
  unfold execCsrw
  dsimp only
  exact word_inv inv (fun _ _ h => resinv_ite illegal_inv (resinv_ite h (resinv_ite (addLatch_inv h) (csrPut_inv h))))

/-! ## Scalar -/

theorem execCtz_inv {d a : BitVec 6} {s : State} (inv : s.Inv) : OutInv (execCtz d a s) := by
  unfold execCtz
  exact alu2_inv inv

/-! ## Operands -/

theorem writeDesc_inv {s : State} {key : Nat} {wseq : Bool} {d i : Nat} {v : Word} (inv : s.Inv) :
    (writeDesc s key wseq d i v).Inv := by
  unfold writeDesc
  dsimp only
  exact setCell_inv inv

/-! ## Access -/

theorem landDesc_inv {s : State} {c : Ctx} {d : Nat} {ws : List (Nat × Word)} {latency : Nat} (inv : s.Inv) :
    (landDesc s c d ws latency).Inv := by
  unfold landDesc
  dsimp only
  exact foldl_inv inv (fun _ _ h => inv_ite (addLatch_inv h) (writeDesc_inv h))

theorem execDclr_inv {ds : BitVec 3} {k : Toks} {s : State} (inv : s.Inv) : OutInv (execDclr ds k s) := by
  unfold execDclr
  exact word_inv inv (fun _ _ h => withToks_inv h (fun _ k => landDesc_inv k))

/-! ## Host -/

theorem regionCmd_inv {s : State} {c : Cmd} {good : Bool} {f : State → Nat → Region → State} (inv : s.Inv)
    (hf : ∀ x0 x1 x2, x0.Inv → (f x0 x1 x2).Inv) : (regionCmd s c good f).Inv := by
  unfold regionCmd
  dsimp only
  refine inv_ite (answer_inv inv) ?_
  split
  · exact answer_inv inv
  · exact hf _ _ _ inv

theorem debugCmd_inv {s : State} {c : Cmd} (inv : s.Inv) : (debugCmd s c).Inv := by
  refine regionCmd_inv inv fun t h r inv => ?_
  dsimp only
  split
  · exact inv_ite (setReg_inv inv) (answer_inv inv)
  · exact answer_inv inv

theorem execDebug_inv {c : Cmd} {s : State} (inv : s.Inv) : OutInv (execDebug c s) := by
  unfold execDebug
  exact outInv_next.mpr (debugCmd_inv (takeCmd_inv inv))

/-! ## Stop -/

theorem execDebugRequest_inv {h ldie row col : Nat} {s : State} (inv : s.Inv) : OutInv (execDebugRequest h ldie row col s) := by
  unfold execDebugRequest
  dsimp only
  refine outInv_next.mpr (inv_ite inv ?_)
  split
  · exact inv
  refine inv_ite inv (inv_ite (takeFault_inv ?_) (setReg_inv ?_))
  · split
    · exact complete_inv (setReg_inv inv)
    · exact setReg_inv inv
  · split
    · exact complete_inv (setReg_inv inv)
    · exact setReg_inv inv

/-! ## System -/

theorem mailPut_inv {s : State} {core : Nat} {w : Word} (inv : s.Inv) : (mailPut s core w).Inv := by
  unfold mailPut
  dsimp only
  exact setCore_inv inv

theorem execDeviceEventDeliver_inv {s : State} (inv : s.Inv) : OutInv (execDeviceEventDeliver s) := by
  unfold execDeviceEventDeliver
  refine outInv_next.mpr ?_
  split
  · exact inv_ite inv (mailPut_inv (inv_upd inv))
  · exact inv

/-! ## Tiles -/

theorem topEnd_inv {s : State} {status : Nat} (inv : s.Inv) : (topEnd s status).Inv := by
  unfold topEnd
  split
  · exact setPreg_inv (setPreg_inv inv)

theorem topRun_inv {s : State} {pinned : Bool} {from_ : Nat} {frame full : Bool} {f : State → Word → State} (inv : s.Inv)
    (hf : ∀ x0 x1, x0.Inv → (f x0 x1).Inv) : (topRun s pinned from_ frame full f).Inv := by
  unfold topRun
  dsimp only
  exact inv_ite (topEnd_inv inv) (inv_ite (topEnd_inv inv) (inv_ite (topEnd_inv inv) (inv_ite (topEnd_inv inv) (inv_ite
    (topEnd_inv inv) (inv_ite (topEnd_inv inv) (topEnd_inv (hf _ _ inv)))))))

theorem topSet_inv {s : State} {e : Word} (inv : s.Inv) : (topSet s e).Inv := by
  unfold topSet
  split
  · exact setEntry_inv inv

theorem topDiscard_inv {s : State} (inv : s.Inv) : (topDiscard s).Inv := by
  unfold topDiscard
  exact topRun_inv inv (fun _ _ h => topSet_inv h)

theorem execDiscard_inv {s : State} (inv : s.Inv) : OutInv (execDiscard s) := by
  unfold execDiscard
  exact outInv_next.mpr (topDiscard_inv inv)

/-! ## Scalar -/

theorem execDiv_inv {d a b : BitVec 6} {s : State} (inv : s.Inv) : OutInv (execDiv d a b s) := by
  unfold execDiv
  exact alu3_inv inv

theorem execDivu_inv {d a b : BitVec 6} {s : State} (inv : s.Inv) : OutInv (execDivu d a b s) := by
  unfold execDivu
  exact alu3_inv inv

/-! ## Access -/

theorem dldBody_inv {ds : BitVec 3} {a : Word} {c : Ctx} {s : State} (inv : s.Inv) : (dldBody ds a c s).Inv := by
  unfold dldBody
  dsimp only
  exact resinv_ite accFault_inv (resinv_ite accFault_inv (watched_inv (landDesc_inv inv)))

theorem execDld_inv {ds : BitVec 3} {a : BitVec 6} {k : Toks} {s : State} (inv : s.Inv) : OutInv (execDld ds a k s) := by
  unfold execDld
  exact word_inv inv (fun _ _ h => withToks_inv h (fun _ k => dldBody_inv k))

/-! ## Operands -/

theorem landQ_inv {s : State} {c : Ctx} {q : Nat} {e : QEntry} {latency : Nat} (inv : s.Inv) : (landQ s c q e latency).Inv := by
  unfold landQ
  exact inv_ite (addLatch_inv inv) (setQ_inv inv)

theorem writeV_inv {s : State} {key r : Nat} {v : BitVec 2048} {mask : BitVec 256} (inv : s.Inv) :
    (writeV s key r v mask).Inv := by
  unfold writeV
  dsimp only
  exact setCell_inv inv

theorem landV_inv {s : State} {c : Ctx} {r : Nat} {v : BitVec 2048} {mask : BitVec 256} {latency : Nat} (inv : s.Inv) :
    (landV s c r v mask latency).Inv := by
  unfold landV
  exact inv_ite (addLatch_inv inv) (writeV_inv inv)

theorem landVec_inv {sp : Space} {s : State} {c : Ctx} {d : BitVec 6} {v : BitVec 2048} {mask : BitVec 256} {latency : Nat}
    (inv : s.Inv) : (landVec sp s c d v mask latency).Inv := by
  unfold landVec
  split
  · exact landV_inv inv
  · exact landQ_inv inv
  · exact inv

theorem Got.then_inv {α : Type} {g : Got α} {c : Ctx} {k : α → Res} (hk : ∀ a, g = .ok a → (k a).Inv) : (g.then c k).Inv := by
  unfold Got.then; split
  · exact hk _ rfl
  · exact illegal_inv
  · exact shortRes_inv

theorem takeEntry_inv {s t : State} {c : Ctx} {q : Nat} {peek : Bool} {x : QEntry} (inv : s.Inv)
    (e : takeEntry s c q peek = .ok (x, t)) : t.Inv := by
  grind [takeEntry, setQ_inv]

theorem readSrc_inv {sp : Space} {w : Nat} {s t : State} {c : Ctx} {f : BitVec 6} {peek : Bool} {v : BitVec 2048} (inv : s.Inv)
    (e : readSrc sp w s c f peek = .ok (v, t)) : t.Inv := by
  grind [readSrc, takeEntry_inv]

theorem readSrcs_inv {sp : Space} {w : Nat} {c : Ctx} {s t : State} {fs : List (BitVec 6 × Bool)} {vs : List (BitVec 2048)}
    (inv : s.Inv) (e : readSrcs sp w c s fs = .ok (vs, t)) : t.Inv := by
  induction fs generalizing s vs with
  | nil => cases e; exact inv
  | cons f fs ih => 
    simp only [readSrcs] at e
    grind [readSrc_inv]

theorem lanesOver_inv {fs : List (BitVec 6 × Bool)} {sp : Space} {f : VecF} {nsrc w : Nat}
    {k : Ctx → State → List (BitVec 2048) → Res} {s : State} (inv : s.Inv) (hk : ∀ c t vs, t.Inv → (k c t vs).Inv) :
    OutInv (lanesOver fs sp f nsrc w k s) :=
  word_inv inv fun _ _ inv => Got.then_inv fun _ e => Got.then_inv fun _ _ => hk _ _ _ (readSrcs_inv inv e)

theorem lanesWord_inv {sp : Space} {f : VecF} {nsrc w : Nat} {k : Ctx → State → List (BitVec 2048) → Res} {s : State} (inv : s.Inv)
    (hk : ∀ c t vs, t.Inv → (k c t vs).Inv) : OutInv (lanesWord sp f nsrc w k s) := lanesOver_inv inv hk

/-! ## Vector -/

theorem execDot16_inv {f : VecF} {s : State} (inv : s.Inv) : OutInv (execDot16 f s) :=
  lanesWord_inv inv fun _ _ _ h => landVec_inv h

/-! ## Access -/

theorem execDset_inv {ds : BitVec 3} {a : BitVec 6} {w : BitVec 3} {k : Toks} {s : State} (inv : s.Inv) :
    OutInv (execDset ds a w k s) := by
  unfold execDset
  exact word_inv inv (fun _ _ h => withToks_inv h (fun _ k => landDesc_inv k))

/-! ## Fleet -/

theorem erosPut_inv {s : State} {site r : Nat} {v : BitVec 32} (inv : s.Inv) : (erosPut s site r v).Inv := by
  unfold erosPut
  dsimp only
  exact setPreg_inv (inv_upd inv)

theorem execEbb_inv {measures : List (Nat × List (BitVec 32))} {s : State} (inv : s.Inv) : OutInv (execEbb measures s) := by
  unfold execEbb; rw [outInv_next]
  split
  · exact inv
  · exact inv_upd (foldl_inv inv fun _ _ h => foldl_inv h fun _ _ h => erosPut_inv h)

theorem execEbbDue_inv {s : State} (inv : s.Inv) : OutInv (execEbbDue s) := by
  unfold execEbbDue
  exact outInv_next.mpr (inv_ite (inv_upd inv) inv)

/-! ## Stop -/

theorem askYield_inv {s : State} {h : Nat} (inv : s.Inv) : (askYield s h).Inv := by
  unfold askYield
  dsimp only
  split
  · exact inv_ite inv (setReg_inv inv)
  · exact inv_ite inv (setReg_inv inv)
  · exact inv_ite inv (setReg_inv inv)
  · exact inv_ite inv (setReg_inv inv)
  · exact inv_ite inv (setReg_inv inv)
  · exact inv

/-! ## Fleet -/

theorem execEbbYield_inv {s : State} (inv : s.Inv) : OutInv (execEbbYield s) := by
  unfold execEbbYield
  exact outInv_next.mpr (inv_ite (foldl_inv inv (fun _ _ h => askYield_inv h)) inv)

/-! ## Mem -/

theorem addTok_inv {s : State} {key n : Nat} (inv : s.Inv) : (addTok s key n).1.Inv := by
  unfold addTok
  dsimp only
  split
  · exact inv
  split
  · exact inv
  · exact setCell_inv inv

/-! ## Matrix -/

theorem healTiles_inv {s : State} {key mask : Nat} (inv : s.Inv) : (healTiles s key mask).Inv := by
  unfold healTiles
  exact setCell_inv inv

/-! ## Mem -/

theorem arriveOn_inv {s t : State} {y off : Nat} {n : Int} (inv : s.Inv) (e : arriveOn s y off n = .ok t) : t.Inv := by
  unfold arriveOn at e
  split at e
  · cases e
  split at e
  · cases e; exact setBarWord_inv inv
  · cases e

/-! ## Landing -/

theorem landArrive_inv {s : State} {key o off d land : Nat} {wait : Bool} {l : Latch} (inv : s.Inv) :
    (landArrive s key o off d land wait l).Inv := by
  unfold landArrive; dsimp only
  split
  · exact takeFault_inv inv
  · have h := arriveOn_inv inv ‹_›
    exact inv_ite (addLatch_inv (inv_ite h (addLatch_inv h))) (inv_ite h (addLatch_inv h))

/-! ## Mem -/

theorem dropSects_inv {s : State} {key : Nat} (inv : s.Inv) : (dropSects s key).Inv := by
  unfold dropSects
  exact overtake_inv (setSects_inv inv)

/-! ## Sync -/

theorem mergeOne_inv {s : State} {l : List Nat} {ep : Nat → Nat} {k : Nat} (inv : s.Inv) : (mergeOne s l ep k).Inv := by
  unfold mergeOne
  dsimp only
  exact setCell_inv inv

theorem mergeAll_inv {s : State} {l : List Nat} (inv : s.Inv) : (mergeAll s l).Inv :=
  foldl_inv (foldl_inv inv fun _ _ h => dropSects_inv (mergeOne_inv h)) fun _ _ h => setCell_inv h

/-! ## Landing -/

theorem landMerge_inv {s : State} {key : Nat} (inv : s.Inv) : (landMerge s key).Inv := by
  unfold landMerge
  dsimp only
  split
  · exact inv
  refine setCell_inv (inv_ite inv ?_)
  split
  · exact mergeAll_inv inv
  · exact inv

theorem landBytes_inv {s t : State} {key off : Nat} {l : Latch} (inv : s.Inv) (e : landBytes s key off l = some t) : t.Inv := by
  refine foldl_keeps (P := fun o : Option State => ∀ t, o = some t → t.Inv) ?_ _ _ (fun _ e => Option.some.inj e ▸ inv) t e
  intro o i ho u e
  cases o with
  | none => cases e
  | some v =>
  have h := ho v rfl
  simp only [Option.bind_some] at e
  split at e
  · cases e; exact h
  split at e
  · cases e; exact spadPut_inv h
  split at e
  · obtain ⟨p, -, rfl⟩ := Option.map_eq_some_iff.mp e
    exact setCell_inv h
  · cases e; exact spadPut_inv h

theorem landSpad_inv {s : State} {key off : Nat} {l : Latch} (inv : s.Inv) : (landSpad s key off l).Inv := by
  unfold landSpad
  split
  · exact landBytes_inv inv ‹_›
  · exact takeFault_inv inv

theorem landTest_inv {s : State} {key o off : Nat} {l : Latch} (inv : s.Inv) : (landTest s key o off l).Inv := by
  unfold landTest
  exact inv_ite (takeFault_inv inv) (inv_ite (takeFault_inv inv) inv)

/-! ## Matrix -/

theorem setMx_inv {s : State} {key : Nat} {f : MxState → MxState} (inv : s.Inv) : (setMx s key f).Inv := by
  unfold setMx
  dsimp only
  exact setCell_inv inv

/-! ## Operands -/

theorem writeM_inv {s : State} {key r : Nat} {v : BitVec 256} (inv : s.Inv) : (writeM s key r v).Inv := by
  unfold writeM
  dsimp only
  exact setCell_inv inv

/-! ## Landing -/

theorem landOne_inv {s : State} {key : Nat} {l : Latch} (inv : s.Inv) : (landOne s key l).Inv := by
  have hq := inv_ite (c := l.op = 0) inv (opStopped_inv (id := l.op) inv)
  unfold landOne
  split
  · exact writeA_inv inv
  · exact writeV_inv inv
  · exact writeM_inv inv
  · exact inv_ite (addTok_inv inv) (takeFault_inv (addTok_inv inv))
  · exact inv_ite (addTok_inv (inv_upd inv)) (takeFault_inv (addTok_inv (inv_upd inv)))
  · exact inv_ite (takeFault_inv hq) (setQ_inv inv)
  · exact setMx_inv inv
  · exact landSpad_inv inv
  · exact writeDesc_inv inv
  · exact csrPut_inv inv
  · exact setMx_inv inv
  · exact setMx_inv inv
  · exact setMx_inv inv
  · exact setMx_inv (healTiles_inv inv)
  · exact setMx_inv (setCell_inv inv)
  · exact landArrive_inv inv
  · split
    · exact landOn_inv inv ‹_›
    · exact takeFault_inv hq
  · exact landTest_inv inv
  · exact landTest_inv inv
  · exact landMerge_inv inv

theorem applyLatch_inv {s : State} {key : Nat} {l : Latch} (inv : s.Inv) : (applyLatch s key l).Inv := by
  unfold applyLatch
  dsimp only
  exact landOne_inv (setCell_inv inv)

theorem landAll_inv {s : State} {key cls n : Nat} {stop : Bool} (inv : s.Inv) : (landAll s key cls stop n).Inv := by
  induction n generalizing s with
  | zero => exact inv
  | succ n ih =>
    unfold landAll
    split
    · split
      · exact ih (applyLatch_inv inv)
      · exact inv
    · exact inv

/-! ## Stop -/

theorem landCls_inv {s : State} {h cls : Nat} (inv : s.Inv) : (landCls s h cls).Inv := foldl_inv inv fun _ _ h => landAll_inv h

/-! ## Matrix -/

theorem mmaLand_inv {s : State} {key : Nat} {due : MmaRun → Bool} (inv : s.Inv) : (mmaLand s key due).Inv := by
  unfold mmaLand
  dsimp only
  split
  · exact inv
  split
  · exact inv
  · exact inv_ite (takeFault_inv (setCell_inv inv)) (setCell_inv inv)

/-! ## Stop -/

theorem landStop_inv {s : State} {key n : Nat} (inv : s.Inv) : (landStop s key n).Inv := by
  induction n generalizing s with
  | zero => exact inv
  | succ n ih =>
    unfold landStop; dsimp only
    split
    · exact inv
    · exact ih (applyLatch_inv inv)
    · exact ih (mmaLand_inv inv)
    · split
      · exact ih (applyLatch_inv inv)
      · exact ih (mmaLand_inv inv)

theorem landAllStop_inv {s : State} {h : Nat} (inv : s.Inv) : (landAllStop s h).Inv :=
  foldl_inv (landCls_inv inv) fun _ _ h => landStop_inv h

theorem mergeRegion_inv {s : State} {h : Nat} (inv : s.Inv) : (mergeRegion s h).Inv :=
  foldl_inv inv fun _ _ h => dropSects_inv (mergeOne_inv h)

/-! ## Record -/

theorem spanClear_inv {s : State} {ctx tens : Nat} {x : Nat × Nat × Nat} (inv : s.Inv) : (spanClear s ctx tens x).Inv :=
  ⟨spanClear_wf ctx tens x inv.mem, (zeroFill_inv inv).frame⟩

theorem recWrite_inv {s : State} {ctx : Nat} {a : Word} {p : Part} (inv : s.Inv) : (recWrite s ctx a p).1.Inv := by
  unfold recWrite; dsimp only
  split
  · exact inv
  split
  · exact foldl_inv (foldl_inv inv fun _ _ h => spanClear_inv h) fun _ _ h => hostWrite_inv h
  · exact inv

/-! ## Stop -/

theorem putRecord_inv {s : State} {h : Nat} {rec : StopRec} (inv : s.Inv) : (putRecord s h rec).1.Inv :=
  inv_upd (recWrite_inv inv)

theorem latchAnswer_inv {s : State} {id : Nat} {r : Req} (inv : s.Inv) : (latchAnswer s id r).Inv := by
  unfold latchAnswer
  dsimp only
  exact inv_ite (inv_ite (inv_ite (inv_ite (inv_ite (reqLand_inv (dropReq_inv inv)) (dropReq_inv inv)) (addLatch_inv
    (inv_ite (reqLand_inv (dropReq_inv inv)) (dropReq_inv inv)))) (addLatch_inv (inv_ite (inv_ite (reqLand_inv
    (dropReq_inv inv)) (dropReq_inv inv)) (addLatch_inv (inv_ite (reqLand_inv (dropReq_inv inv)) (dropReq_inv inv))))))
    (inv_ite (inv_ite (reqLand_inv (dropReq_inv inv)) (dropReq_inv inv)) (addLatch_inv (inv_ite (reqLand_inv
    (dropReq_inv inv)) (dropReq_inv inv))))) (inv_ite (reqLand_inv (dropReq_inv inv)) (dropReq_inv inv))

theorem settleOne_inv {s : State} {id : Nat} (inv : s.Inv) : (settleOne s id).Inv := by
  unfold settleOne
  split
  · exact inv
  · exact inv_ite (latchAnswer_inv inv) (applyReq_inv inv)

theorem settleOther_inv {s : State} {id : Nat} (inv : s.Inv) : (settleOther s id).Inv := by
  unfold settleOther
  split
  · exact inv
  · exact inv_ite inv (applyReq_inv inv)

theorem settle_inv {s : State} {h : Nat} (inv : s.Inv) : (settle s h).Inv := by
  refine foldl_inv inv ?_
  intro t _ inv
  refine inv_ite ?h1 (foldl_inv ?h1 ?_)
  · exact foldl_inv inv fun _ _ h => settleOne_inv h
  · exact fun _ _ h => settleOther_inv h

/-! ## Device -/

theorem completeOpt_inv {s : State} {c : Option CmdRef} {status handle fcode disc slot : Nat} (inv : s.Inv) :
    (completeOpt s c status handle fcode disc slot).Inv := by
  unfold completeOpt
  split
  · exact complete_inv inv
  · exact inv

theorem dropWork_inv {s : State} {key : Nat} (inv : s.Inv) : (dropWork s key).Inv := by
  unfold dropWork
  exact inv_upd inv

theorem unload_inv {s : State} {site : Nat} (inv : s.Inv) : (unload s site).Inv := by
  unfold unload
  dsimp only
  exact inv_upd inv

theorem freeCells_inv {s : State} {h : Nat} (inv : s.Inv) : (freeCells s h).Inv :=
  setReg_inv (foldl_inv (foldl_inv inv fun _ _ h => unload_inv h) fun _ _ h => inv_ite (setCell_inv (dropWork_inv h)) h)

theorem completeRun_inv {s : State} {r : Region} {status fcode disc slot : Nat} (inv : s.Inv) :
    (completeRun s r status fcode disc slot).Inv := by
  unfold completeRun
  exact foldl_inv inv (fun _ _ h => complete_inv h)

/-! ## Stop -/

theorem haltEnd_inv {s : State} {h code : Nat} {ok : Bool} (inv : s.Inv) : (haltEnd s h code ok).Inv :=
  postEvent_inv (completeOpt_inv (completeRun_inv (setReg_inv (freeCells_inv inv))))

/-! ## Device -/

theorem pinTile_inv {s : State} {ctx tens tile : Nat} {up : Bool} (inv : s.Inv) : (pinTile s ctx tens tile up).Inv := by
  unfold pinTile
  dsimp only
  exact setEntry_inv inv

theorem sendPin_inv {s : State} {pkg : Nat} {ctx tens first count kind : Nat} (inv : s.Inv) :
    (sendPin s pkg ctx tens first count kind).Inv := by
  unfold sendPin
  exact sendPkg_inv inv

theorem unpinLease_inv {s : State} {ctx : Nat} {l : Lease} {refused : Bool} (inv : s.Inv) : (unpinLease s ctx l refused).Inv := by
  unfold unpinLease
  split
  · split
    · exact inv_ite inv (sendPin_inv inv)
    · exact inv
  · exact foldl_inv inv (fun _ _ h => pinTile_inv h)

theorem releaseLeases_inv {s : State} {h : Nat} (inv : s.Inv) : (releaseLeases s h).Inv := by
  unfold releaseLeases
  dsimp only
  exact inv_ite inv (foldl_inv (setReg_inv inv) (fun _ _ h => unpinLease_inv h))

/-! ## Stop -/

theorem yieldEnd_inv {s : State} {h kind : Nat} {ok written : Bool} (inv : s.Inv) : (yieldEnd s h kind ok written).Inv := by
  unfold yieldEnd
  split
  · exact haltEnd_inv inv
  · exact postEvent_inv (completeOpt_inv (setReg_inv (freeCells_inv (releaseLeases_inv inv))))

theorem saveYield_inv {s : State} {h t slix : Nat} (inv : s.Inv) : (saveYield s h t slix).Inv := by
  unfold saveYield; dsimp only
  split
  · exact foldl_inv (landAllStop_inv inv) fun _ _ h => takeFault_inv h
  · exact yieldEnd_inv (putRecord_inv (mergeRegion_inv (settle_inv (landAllStop_inv inv))))

theorem execElasticYieldSave_inv {h : Nat} {s : State} (inv : s.Inv) : OutInv (execElasticYieldSave h s) := by
  unfold execElasticYieldSave
  dsimp only
  exact outInv_next.mpr (inv_ite (saveYield_inv inv) inv)

/-! ## Device -/

theorem pinSlot_inv {s : State} {h : Nat} {up : Bool} (inv : s.Inv) : (pinSlot s h up).Inv := by
  unfold pinSlot
  dsimp only
  exact inv_ite inv (foldl_inv (setReg_inv inv) (fun _ _ h => pinTile_inv h))

theorem pinTable_inv {s : State} {ctx : Nat} {up : Bool} (inv : s.Inv) : (pinTable s ctx up).Inv := by
  unfold pinTable
  split
  · exact inv
  · exact foldl_inv inv (fun _ _ h => pinTile_inv h)

theorem rfFill_inv {s : State} (inv : s.Inv) : (rfFill s).Inv := by
  unfold rfFill
  dsimp only
  exact inv_upd inv

theorem rfDrop_inv {s : State} {h : Nat} (inv : s.Inv) : (rfDrop s h).Inv := by
  unfold rfDrop
  exact rfFill_inv (inv_upd inv)

theorem dropRegion_inv {s : State} {h : Nat} (inv : s.Inv) : (dropRegion s h).Inv := by
  unfold dropRegion; dsimp only
  have hd := pinSlot_inv (h := h) (up := false) (releaseLeases_inv (h := h) (freeCells_inv (h := h) inv))
  exact inv_ite (rfDrop_inv (inv_upd hd)) (pinTable_inv (rfDrop_inv (inv_upd hd)))

theorem endDebugs_inv {s : State} {h status : Nat} (inv : s.Inv) : (endDebugs s h status).Inv := by
  unfold endDebugs
  dsimp only
  exact foldl_inv (setReg_inv inv) (fun _ _ h => complete_inv h)

theorem endRegion_inv {s : State} {h : Nat} (inv : s.Inv) : (endRegion s h).Inv :=
  completeOpt_inv (completeOpt_inv (completeRun_inv (dropRegion_inv (endDebugs_inv inv))))

/-! ## Host -/

theorem endCmd_inv {s : State} {c : Cmd} (inv : s.Inv) : (endCmd s c).Inv := by
  refine regionCmd_inv inv fun t h r inv => ?_
  dsimp only
  split
  · exact answer_inv inv
  split
  · exact raiseHalt_inv (setReg_inv inv)
  · exact setReg_inv inv
  · exact setReg_inv inv
  · exact endRegion_inv (setReg_inv inv)

theorem execEndCommand_inv {c : Cmd} {s : State} (inv : s.Inv) : OutInv (execEndCommand c s) := by
  unfold execEndCommand
  exact outInv_next.mpr (endCmd_inv (takeCmd_inv inv))

/-! ## Control -/

theorem execEndw_inv {s : State} (inv : s.Inv) : OutInv (execEndw s) := by
  unfold execEndw
  exact word_inv inv (fun _ _ h => resinv_ite schedMiss_inv (onStream_inv h))

/-! ## Queue -/

theorem execEngJoin_inv {d : BitVec 6} {k : Toks} {s : State} (inv : s.Inv) : OutInv (execEngJoin d k s) := by
  refine word_inv inv fun c u inv => ?_
  dsimp only
  split
  · exact illegal_inv
  split
  · trivial
  split
  · exact tokShort_inv
  · have h := landA_inv (c := c) (r := d) (v := 0) (latency := 1) (addTok_inv (key := c.key) (n := k.kd.toNat)
      (takeToks_inv inv ‹_›))
    exact resinv_ite h h

theorem engWord_inv {kind : OpKind} {d a b : BitVec 6} {k : Toks} {s : State} (inv : s.Inv) : OutInv (engWord kind d a b k s) := by
  refine word_inv inv fun c u inv => ?_
  split
  · exact illegal_inv
  split
  · trivial
  split
  · exact tokShort_inv
  · exact startOp_inv (takeToks_inv inv ‹_›)

theorem execEngTcopy_inv {d a b : BitVec 6} {k : Toks} {s : State} (inv : s.Inv) : OutInv (execEngTcopy d a b k s) := by
  unfold execEngTcopy
  exact engWord_inv inv

theorem execEngTfill_inv {d a b : BitVec 6} {k : Toks} {s : State} (inv : s.Inv) : OutInv (execEngTfill d a b k s) := by
  unfold execEngTfill
  exact engWord_inv inv

theorem execEngTload_inv {d a b : BitVec 6} {k : Toks} {s : State} (inv : s.Inv) : OutInv (execEngTload d a b k s) := by
  unfold execEngTload
  exact engWord_inv inv

theorem execEngTstore_inv {d a b : BitVec 6} {k : Toks} {s : State} (inv : s.Inv) : OutInv (execEngTstore d a b k s) := by
  unfold execEngTstore
  exact engWord_inv inv

/-! ## MemEvents -/

theorem opDone_inv {s : State} {id : Nat} {o : Op} (inv : s.Inv) : (opDone s id o).Inv := by
  unfold opDone; dsimp only
  refine inv_ite (addTok_inv ?h) (takeFault_inv (addTok_inv ?h))
  exact inv_ite (setCell_inv (writeA_inv (inv_upd inv))) (writeA_inv (inv_upd inv))

theorem execEngineOpComplete_inv {op : Nat} {s : State} (inv : s.Inv) : OutInv (execEngineOpComplete op s) := by
  unfold execEngineOpComplete
  refine outInv_next.mpr ?_
  split
  · exact inv
  · exact inv_ite (opDone_inv inv) inv

/-! ## Host -/

theorem execEvent_inv {queue : Nat} {w0 w1 : Word} {s : State} (inv : s.Inv) : OutInv (execEvent queue w0 w1 s) := by
  unfold execEvent
  refine outInv_next.mpr ?_
  split
  · exact sendHost_inv inv
  · exact inv

/-! ## ScalarMem -/

theorem execFaddr_inv {d a : BitVec 6} {s : State} (inv : s.Inv) : OutInv (execFaddr d a s) := by
  refine word_inv inv fun c s inv => ?_
  dsimp only
  split
  · trivial
  · exact resinv_ite trivial (watched_inv (issueReq_inv inv))

theorem faddwBody_inv {a b : Word} {c : Ctx} {s : State} (inv : s.Inv) : (faddwBody a b c s).Inv := by
  unfold faddwBody
  dsimp only
  split
  · exact trivial
  split
  · exact accFault_inv
  · exact resinv_ite accFault_inv (watched_inv (atomicLeaves_inv (issueReq_inv inv)))

theorem execFaddw_inv {a b : BitVec 6} {s : State} (inv : s.Inv) : OutInv (execFaddw a b s) := by
  unfold execFaddw
  exact word_inv inv (fun _ _ h => faddwBody_inv h)

/-! ## Sync -/

theorem execFence_inv {scope : BitVec 3} {s : State} (inv : s.Inv) : OutInv (execFence scope s) := by
  refine word_inv inv fun c u inv => ?_
  dsimp only
  split
  · exact illegal_inv
  split
  · exact resinv_ite illegal_inv (onStream_inv (inv_upd inv))
  · exact resinv_ite (dropSects_inv (onStream_inv inv)) (onStream_inv (inv_upd inv))

/-! ## Stratum -/

theorem setFifo_inv {s : State} {key : Nat} {f : Fifo} (inv : s.Inv) : (setFifo s key f).Inv := by
  unfold setFifo
  exact setCell_inv inv

/-! ## Landing -/

theorem execFifoTransit_inv {key : Nat} {s : State} (inv : s.Inv) : OutInv (execFifoTransit key s) := by
  unfold execFifoTransit
  dsimp only
  exact outInv_next.mpr (setFifo_inv inv)

theorem execFifoWaitTimeout_inv {key : Nat} {s : State} (inv : s.Inv) : OutInv (execFifoWaitTimeout key s) := by
  unfold execFifoWaitTimeout
  exact outInv_next.mpr (inv_ite (takeFault_inv inv) inv)

/-! ## Level -/

theorem setLevel_inv {s : State} {n : Nat} (inv : s.Inv) : (setLevel s n).Inv := by
  unfold setLevel
  dsimp only
  exact inv_ite (inv_upd inv) (inv_upd inv)

theorem setForced_inv {s : State} (inv : s.Inv) : (setForced s).Inv := by
  unfold setForced
  dsimp only
  exact inv_upd (setLevel_inv inv)

/-! ## Firmware -/

theorem execForcedLevelTimeout_inv {s : State} (inv : s.Inv) : OutInv (execForcedLevelTimeout s) := by
  unfold execForcedLevelTimeout
  exact outInv_next.mpr (inv_ite (setForced_inv inv) inv)

/-! ## Stop -/

theorem execForcedSave_inv {h : Nat} {s : State} (inv : s.Inv) : OutInv (execForcedSave h s) := by
  unfold execForcedSave
  dsimp only
  exact outInv_next.mpr (inv_ite inv (inv_ite (inv_ite (yieldEnd_inv (settle_inv inv)) (yieldEnd_inv (putRecord_inv
    (settle_inv inv)))) (raiseHalt_inv (setReg_inv inv))))

/-! ## Queue -/

theorem execFpush_inv {a : BitVec 6} {s : State} (inv : s.Inv) : OutInv (execFpush a s) := by
  unfold execFpush
  dsimp only
  exact word_inv inv (fun _ _ h => resinv_ite illegal_inv (resinv_ite shortRes_inv (resinv_ite (addLatch_inv h)
    (setCell_inv h))))

/-! ## Tiles -/

theorem topFwdclr_inv {s : State} (inv : s.Inv) : (topFwdclr s).Inv := by
  unfold topFwdclr
  dsimp only
  exact inv_ite (topEnd_inv (inv_upd inv)) (topEnd_inv inv)

theorem execFwdclr_inv {s : State} (inv : s.Inv) : OutInv (execFwdclr s) := by
  unfold execFwdclr
  exact outInv_next.mpr (topFwdclr_inv inv)

/-! ## System -/

theorem fwdinvPut_inv {s : State} {v : Word} (inv : s.Inv) : (fwdinvPut s v).Inv := by
  unfold fwdinvPut
  exact setPreg_inv inv

theorem execFwdinvSelect_inv {v : Word} {s : State} (inv : s.Inv) : OutInv (execFwdinvSelect v s) := by
  unfold execFwdinvSelect
  exact outInv_next.mpr (fwdinvPut_inv inv)

/-! ## Tiles -/

theorem onFifos_inv {s : State} {i : Nat} {f : Fifo → Fifo} (inv : s.Inv) : (onFifos s i f).Inv := by
  unfold onFifos
  exact foldl_inv inv (fun _ _ h => setCell_inv h)

theorem execGateApply_inv {stratum : Nat} {s : State} (inv : s.Inv) : OutInv (execGateApply stratum s) :=
  outInv_next.mpr (inv_ite inv (postEvent_inv (inv_upd (onFifos_inv (inv_upd inv)))))

theorem gateAsk_inv {s : State} {core i : Nat} (inv : s.Inv) : (gateAsk s core i).Inv := by
  unfold gateAsk
  exact onFifos_inv (inv_upd inv)

theorem execGateRequest_inv {core stratum : Nat} {s : State} (inv : s.Inv) : OutInv (execGateRequest core stratum s) := by
  unfold execGateRequest
  exact outInv_next.mpr (inv_ite inv (gateAsk_inv inv))

/-! ## Access -/

theorem execGath_inv {ds : BitVec 3} {q : BitVec 4} {a b : BitVec 6} {xf : BitVec 8} {k : Toks} {s : State} (inv : s.Inv) :
    OutInv (execGath ds q a b xf k s) :=
  word_inv inv fun _ _ inv => gated_inv (resinv_ite illegal_inv (orFault_inv (resinv_ite trivial (startAcc_inv inv))))

/-! ## Gather -/

theorem gidxLand_inv {s : State} {c : Ctx} {d : BitVec 6} {v : Word} (inv : s.Inv) : (gidxLand s c d v).Inv := by
  unfold gidxLand
  exact landVec_inv inv

theorem execGidx_inv {d : BitVec 6} {a b : BitVec 4} {s : State} (inv : s.Inv) : OutInv (execGidx d a b s) := by
  unfold execGidx
  exact word_inv inv (fun _ _ h => Got.then_inv (fun _ k => gidxLand_inv h))

theorem execGidxBd_inv {d : BitVec 6} {a b c : BitVec 4} {s : State} (inv : s.Inv) : OutInv (execGidxBd d a b c s) := by
  unfold execGidxBd
  dsimp only
  exact word_inv inv (fun _ _ h => resinv_ite trivial (Got.then_inv (fun _ k => gidxLand_inv h)))

theorem execGload_inv {a b : BitVec 4} {k : Toks} {s : State} (inv : s.Inv) : OutInv (execGload a b k s) := by
  refine word_inv inv fun c u inv => gated_inv ?_
  dsimp only
  split
  · trivial
  · exact resinv_ite trivial (resinv_ite trivial (startCmd_inv inv))

/-! ## Vector -/

theorem landLanesO_inv {sp : Space} {f : VecF} {w : Nat} {c : Ctx} {s : State} {res : List (Option Nat)} {latency : Nat}
    (inv : s.Inv) : (landLanesO sp f w c s res latency).Inv := by
  unfold landLanesO
  dsimp only
  exact landVec_inv inv

/-! ## Operands -/

theorem landLanes_inv {sp : Space} {f : VecF} {w : Nat} {c : Ctx} {s : State} {res : List Nat} {latency : Nat} (inv : s.Inv) :
    (landLanes sp f w c s res latency).Inv := by
  unfold landLanes
  dsimp only
  exact landVec_inv inv

theorem laneWord_inv {sp : Space} {f : VecF} {nsrc latency : Nat} {fn : List Nat → Nat} {s : State} (inv : s.Inv) :
    OutInv (laneWord sp f nsrc latency fn s) := lanesWord_inv inv fun _ _ _ h => landLanes_inv h

/-! ## Vector -/

theorem movWord_inv {sp : Space} {f : VecF} {latency : Nat} {s : State} (inv : s.Inv) : OutInv (movWord sp f latency s) := by
  unfold movWord; dsimp only
  split
  · exact lanesOver_inv inv fun _ _ _ h => landVec_inv h
  split
  · exact lanesOver_inv inv fun _ _ _ h => landLanesO_inv h
  · exact laneWord_inv inv

/-! ## Gather -/

theorem execGmov_inv {f : VecF} {s : State} (inv : s.Inv) : OutInv (execGmov f s) := by
  unfold execGmov
  exact movWord_inv inv

/-! ## Firmware -/

theorem levelNow_inv {s : State} (inv : s.Inv) : (levelNow s).Inv := by
  unfold levelNow
  exact inv_ite (setLevel_inv inv) inv

theorem execGrant_inv {r : LhReq} {s : State} (inv : s.Inv) : OutInv (execGrant r s) := by
  refine outInv_next.mpr (lhServe_inv inv fun s inv => ?_)
  refine answer_inv_ite inv (answer_inv_ite inv (answer_inv_ite inv (answer_inv_ite ?_ ?_)))
  · exact inv_upd (setLevel_inv inv)
  · exact levelNow_inv (inv_upd inv)

/-! ## Gather -/

theorem execGrow_inv {q : BitVec 3} {a b : BitVec 4} {mk : BitVec 1} {k : Toks} {s : State} (inv : s.Inv) :
    OutInv (execGrow q a b mk k s) := by
  unfold execGrow
  exact word_inv inv (fun _ _ h => gated_inv (resinv_ite illegal_inv (startCmd_inv h)))

theorem execGrule_inv {a : BitVec 4} {k : Toks} {s : State} (inv : s.Inv) : OutInv (execGrule a k s) := by
  unfold execGrule
  exact word_inv inv (fun _ _ h => startCmd_inv h)

theorem execGscat_inv {qs : BitVec 3} {a b : BitVec 4} {k : Toks} {s : State} (inv : s.Inv) : OutInv (execGscat qs a b k s) := by
  refine word_inv inv fun c u inv => gated_inv ?_
  dsimp only
  split
  · exact illegal_inv
  split
  · trivial
  split
  · trivial
  · exact resinv_ite trivial (startCmd_inv inv)

theorem execGseg_inv {q qs : BitVec 3} {b : BitVec 4} {mk : BitVec 1} {k : Toks} {s : State} (inv : s.Inv) :
    OutInv (execGseg q qs b mk k s) := by
  unfold execGseg
  exact word_inv inv (fun _ _ h => gated_inv (resinv_ite illegal_inv (startCmd_inv h)))

theorem gsetWord_inv {fn : Nat} {a : BitVec 4} {k : Toks} {s : State} (inv : s.Inv) : OutInv (gsetWord fn a k s) := by
  unfold gsetWord
  exact word_inv inv (fun _ _ h => gated_inv (startCmd_inv h))

theorem execGsetBar_inv {a : BitVec 4} {k : Toks} {s : State} (inv : s.Inv) : OutInv (execGsetBar a k s) := by
  unfold execGsetBar
  exact gsetWord_inv inv

theorem execGsetBatch_inv {a : BitVec 4} {k : Toks} {s : State} (inv : s.Inv) : OutInv (execGsetBatch a k s) := by
  unfold execGsetBatch
  exact gsetWord_inv inv

theorem execGsetBlock_inv {a : BitVec 4} {k : Toks} {s : State} (inv : s.Inv) : OutInv (execGsetBlock a k s) := by
  unfold execGsetBlock
  exact gsetWord_inv inv

theorem execGsetWalk_inv {a : BitVec 4} {k : Toks} {s : State} (inv : s.Inv) : OutInv (execGsetWalk a k s) := by
  unfold execGsetWalk
  exact gsetWord_inv inv

theorem execGvadd_inv {f : VecF} {s : State} (inv : s.Inv) : OutInv (execGvadd f s) := by
  unfold execGvadd
  exact laneWord_inv inv

/-! ## Vector -/

theorem cvtWord_inv {sp : Space} {f : VecF} {latency : Nat} {s : State} (inv : s.Inv) : OutInv (cvtWord sp f latency s) :=
  lanesWord_inv inv fun _ _ _ h => resinv_ite illegal_inv (landLanesO_inv h)

/-! ## Gather -/

theorem execGvcvt_inv {f : VecF} {s : State} (inv : s.Inv) : OutInv (execGvcvt f s) := by
  unfold execGvcvt
  exact cvtWord_inv inv

theorem execGvfma_inv {f : VecF} {s : State} (inv : s.Inv) : OutInv (execGvfma f s) := by
  unfold execGvfma
  exact laneWord_inv inv

/-! ## Vector -/

theorem vldBody_inv {sp : Space} {d : BitVec 6} {imm : BitVec 32} {base : Word} {c : Ctx} {s : State} (inv : s.Inv) :
    (vldBody sp d imm base c s).Inv := by
  unfold vldBody; dsimp only
  split
  · exact accFault_inv
  · exact Got.then_inv fun _ _ => resinv_ite accFault_inv (watched_inv (landVec_inv inv))

theorem vldWord_inv {sp : Space} {d a : BitVec 6} {imm : BitVec 32} {s : State} (inv : s.Inv) :
    OutInv (vldWord sp d a imm s) := by
  unfold vldWord
  exact word_inv inv (fun _ _ h => vldBody_inv h)

/-! ## Gather -/

theorem execGvld_inv {d a : BitVec 6} {imm : BitVec 32} {s : State} (inv : s.Inv) : OutInv (execGvld d a imm s) := by
  unfold execGvld
  exact vldWord_inv inv

theorem execGvmul_inv {f : VecF} {s : State} (inv : s.Inv) : OutInv (execGvmul f s) := by
  unfold execGvmul
  exact laneWord_inv inv

/-! ## Mem -/

theorem storeAt_inv {s t : State} {c : Ctx} {y off : Nat} {bs : List Byte} {d : Nat} (inv : s.Inv)
    (e : storeAt s c y off bs d = some t) :
    t.Inv := by
  unfold storeAt at e; dsimp only at e
  split at e
  · split at e
    · cases e
    have h := spadStore_inv inv ‹_›
    split at e
    · cases e; exact h
    · cases e; exact addLatch_inv h
  · exact spadStore_inv inv e

/-! ## Vector -/

theorem vstBody_inv {sp : Space} {imm : BitVec 32} {base : Word} {v : BitVec 2048} {c : Ctx} {s : State} (inv : s.Inv) :
    (vstBody sp imm base v c s).Inv := by
  unfold vstBody; dsimp only
  split
  · exact accFault_inv
  refine watched_inv ?_
  split
  · exact storeAt_inv (spadHeal_inv inv) ‹_›
  · trivial

theorem vstWord_inv {sp : Space} {d a : BitVec 6} {imm : BitVec 32} {s : State} (inv : s.Inv) : OutInv (vstWord sp d a imm s) :=
  word_inv inv fun _ _ inv => Got.then_inv fun _ e => vstBody_inv (readSrc_inv inv e)

/-! ## Gather -/

theorem execGvst_inv {d a : BitVec 6} {imm : BitVec 32} {s : State} (inv : s.Inv) : OutInv (execGvst d a imm s) := by
  unfold execGvst
  exact vstWord_inv inv

/-! ## Firmware -/

theorem execHarbourRollback_inv {s : State} (inv : s.Inv) : OutInv (execHarbourRollback s) := by
  unfold execHarbourRollback
  dsimp only
  exact outInv_next.mpr (inv_ite inv (inv_ite (restartCores_inv (inv_upd inv)) inv))

theorem execHbeat_inv {r : LhReq} {s : State} (inv : s.Inv) : OutInv (execHbeat r s) := by
  refine outInv_next.mpr (lhServe_inv inv fun s inv => ?_)
  exact inv_upd inv

theorem setForce_inv {s : State} (inv : s.Inv) : (setForce s).Inv := by
  unfold setForce
  exact inv_ite inv (inv_upd inv)

theorem execHeartbeatTimeout_inv {s : State} (inv : s.Inv) : OutInv (execHeartbeatTimeout s) := by
  unfold execHeartbeatTimeout
  exact outInv_next.mpr (inv_ite (setForce_inv (inv_upd inv)) inv)

/-! ## Collective -/

theorem execHeldMessageDiscard_inv {s : State} (inv : s.Inv) : OutInv (execHeldMessageDiscard s) := by
  unfold execHeldMessageDiscard
  exact outInv_next.mpr (inv_upd inv)

/-! ## Host -/

theorem execHello_inv {m : HostHdr} {w0 w1 : Word} {s : State} (inv : s.Inv) : OutInv (execHello m w0 w1 s) := by
  unfold execHello
  exact outInv_next.mpr (recvHost_inv inv)

/-! ## Firmware -/

theorem execHostPortLinkChange_inv {up : Bool} {s : State} (inv : s.Inv) : OutInv (execHostPortLinkChange up s) := by
  unfold execHostPortLinkChange
  exact outInv_next.mpr (inv_ite inv (mixUpdate_inv (inv_upd inv)))

/-! ## System -/

theorem hotePop_inv {s : State} {base : Nat} (inv : s.Inv) : (hotePop s base).Inv := by
  unfold hotePop
  dsimp only
  exact inv_upd inv

theorem execHoteRead_inv {base : Nat} {s : State} (inv : s.Inv) : OutInv (execHoteRead base s) := by
  unfold execHoteRead
  exact outInv_next.mpr (inv_ite inv (hotePop_inv inv))

/-! ## Tiles -/

theorem tsPut_inv {s : State} {ctx off : Nat} {bs : List Byte} (inv : s.Inv) : (tsPut s ctx off bs).Inv := by
  refine ⟨tsPut_wf ctx off bs inv.mem, ?_⟩
  unfold tsPut; split <;> exact inv.frame

theorem topInstall_inv {s : State} (inv : s.Inv) : (topInstall s).Inv := by
  unfold topInstall; dsimp only
  split
  · exact topEnd_inv inv
  split
  · exact topEnd_inv inv
  split
  · exact topEnd_inv inv
  · exact topEnd_inv (foldl_inv (tsPut_inv (inv_upd inv)) fun _ _ h => tsPut_inv h)

theorem execInstall_inv {s : State} (inv : s.Inv) : OutInv (execInstall s) := by
  unfold execInstall
  exact outInv_next.mpr (topInstall_inv inv)

/-! ## Peer -/

theorem execInvalidationAck_inv {pkg : Nat} {frame : Word} {s : State} (inv : s.Inv) :
    OutInv (execInvalidationAck pkg frame s) := by
  unfold execInvalidationAck
  exact outInv_next.mpr (inv_upd inv)

/-! ## Control -/

theorem execJmp_inv {off : BitVec 32} {s : State} (inv : s.Inv) : OutInv (execJmp off s) := by
  unfold execJmp
  exact word_inv inv (fun _ _ h => jumpTo_inv h)

/-! ## Launch -/

theorem cacheImage_inv {s : State} {ctx : Nat} {a : Word} {icrc : Nat} (inv : s.Inv) : (cacheImage s ctx a icrc).Inv := by
  unfold cacheImage
  dsimp only
  exact inv_upd inv

theorem enterRegion_inv {s : State} {c : Cmd} {ctx prio slot : Nat} {p : Plan} {dies : List RDie} (inv : s.Inv) :
    (enterRegion s c ctx prio slot p dies).Inv :=
  inv_ite (pinTable_inv (inv_upd (setReg_inv inv))) (inv_upd (setReg_inv inv))

theorem launchCmd_inv {s : State} {c : Cmd} (inv : s.Inv) : (launchCmd s c).Inv := by
  unfold launchCmd
  dsimp only
  refine inv_ite (answer_inv inv) (inv_ite (answer_inv inv) (inv_ite (answer_inv inv) (inv_ite (answer_inv inv) ?_)))
  split
  · exact answer_inv inv
  refine inv_ite (answer_inv inv) ?_
  split
  · exact answer_inv inv
  · exact inv_ite (answer_inv inv) (inv_ite (answer_inv inv) (enterRegion_inv (cacheImage_inv inv)))

theorem execLaunch_inv {c : Cmd} {s : State} (inv : s.Inv) : OutInv (execLaunch c s) := by
  unfold execLaunch
  exact outInv_next.mpr (launchCmd_inv (takeCmd_inv inv))

/-! ## ScalarMem -/

theorem observe_inv {s : State} {c : Ctx} {ids : List Nat} (inv : s.Inv) : (observe s c ids).Inv := by
  unfold observe
  exact inv_ite inv (onStream_inv inv)

theorem ldBody_inv {acq : Bool} {d : BitVec 6} {sub : BitVec 3} {imm : BitVec 32} {base : Word} {c : Ctx} {s : State}
    (inv : s.Inv) :
    (ldBody acq d sub imm base c s).Inv := by
  unfold ldBody; dsimp only
  split
  · exact illegal_inv
  split
  · split
    · exact illegal_inv
    split
    · exact accFault_inv
    · exact resinv_ite accFault_inv (watched_inv (landA_inv inv))
  split
  · exact illegal_inv
  split
  · trivial
  refine resinv_ite trivial (watched_inv ?_)
  split
  · exact landA_inv (observe_inv inv)
  · exact issueReq_inv (inv_ite (dropSects_inv inv) inv)

theorem execLd_inv {d a : BitVec 6} {sub : BitVec 3} {imm : BitVec 32} {s : State} (inv : s.Inv) :
    OutInv (execLd d a sub imm s) := by
  unfold execLd
  exact word_inv inv (fun _ _ h => ldBody_inv h)

theorem execLdAcq_inv {d a : BitVec 6} {sub : BitVec 3} {imm : BitVec 32} {s : State} (inv : s.Inv) :
    OutInv (execLdAcq d a sub imm s) := by
  unfold execLdAcq
  exact word_inv inv (fun _ _ h => ldBody_inv h)

/-! ## Launch -/

theorem askHome_inv {s : State} {h i : Nat} {l : Lease} (inv : s.Inv) : (askHome s h i l).Inv := by
  unfold askHome
  dsimp only
  split
  · exact sendPin_inv (setReg_inv inv)
  · exact inv

theorem pinOne_inv {s t : State} {ctx : Nat} {l : Lease} {n : Nat} (inv : s.Inv) (e : pinOne s ctx l n = some t) : t.Inv := by
  unfold pinOne at e; dsimp only at e
  split at e
  · cases e; exact inv
  split at e
  · cases e
  · cases e; exact pinTile_inv (inv_ite (setEntry_inv inv) inv)

theorem pinAll_inv {s t : State} {ctx : Nat} {ls : List Lease} (inv : s.Inv) (e : pinAll s ctx ls = some t) : t.Inv := by
  refine foldl_keeps (P := fun o : Option State => ∀ t, o = some t → t.Inv) ?_ _ _ (fun _ e => Option.some.inj e ▸ inv) t e
  intro o l ho
  split
  · exact ho
  refine foldl_keeps (P := fun o : Option State => ∀ t, o = some t → t.Inv) ?_ _ _ ho
  intro o n ho u e
  obtain ⟨v, rfl, e⟩ := Option.bind_eq_some_iff.mp e
  exact pinOne_inv (ho v rfl) e

theorem postFault_inv {s : State} {e : RfEntry} (inv : s.Inv) : (postFault s e).Inv := by
  unfold postFault
  exact inv_ite (inv_upd inv) (inv_upd inv)

/-! ## Device -/

theorem refuseRun_inv {s : State} {h status : Nat} (inv : s.Inv) : (refuseRun s h status).Inv := by
  unfold refuseRun; dsimp only
  split
  · exact foldl_inv (completeRun_inv (dropRegion_inv inv)) fun _ _ h => complete_inv h
  · exact completeOpt_inv (setReg_inv (rfDrop_inv (freeCells_inv (inv_ite inv (releaseLeases_inv inv)))))

/-! ## Launch -/

theorem acquire_inv {s : State} {h : Nat} (inv : s.Inv) : (acquire s h).Inv := by
  unfold acquire; dsimp only
  split
  · exact foldl_inv (setReg_inv inv) fun _ _ h => postFault_inv h
  split
  · exact refuseRun_inv inv
  split
  · exact refuseRun_inv inv
  · exact foldl_inv (setReg_inv (pinAll_inv inv ‹_›)) fun _ _ h => askHome_inv h

theorem execLeaseAcquire_inv {h : Nat} {s : State} (inv : s.Inv) : OutInv (execLeaseAcquire h s) := by
  unfold execLeaseAcquire
  dsimp only
  exact outInv_next.mpr (inv_ite (setReg_inv inv) (inv_ite (acquire_inv inv) inv))

/-! ## Scalar -/

theorem execLi_inv {d : BitVec 6} {hi : BitVec 1} {imm : BitVec 40} {s : State} (inv : s.Inv) : OutInv (execLi d hi imm s) := by
  unfold execLi
  exact word_inv inv (fun _ _ h => landA_inv h)

/-! ## System -/

theorem execLighthouseAnswerDeliver_inv {s : State} (inv : s.Inv) : OutInv (execLighthouseAnswerDeliver s) := by
  unfold execLighthouseAnswerDeliver
  refine outInv_next.mpr ?_
  split
  · exact mailPut_inv (inv_upd inv)
  · exact inv

/-! ## Scalar -/

theorem execLih_inv {d : BitVec 6} {imm : BitVec 40} {s : State} (inv : s.Inv) : OutInv (execLih d imm s) := by
  unfold execLih
  exact word_inv inv (fun _ _ h => landA_inv h)

/-! ## Control -/

theorem execLoop_inv {lvl : BitVec 3} {off : BitVec 12} {n : BitVec 32} {s : State} (inv : s.Inv) :
    OutInv (execLoop lvl off n s) := by
  unfold execLoop
  dsimp only
  exact word_inv inv (fun _ _ h => resinv_ite illegal_inv (resinv_ite (jumpTo_inv (onStream_inv h)) (onStream_inv h)))

/-! ## Tiles -/

theorem tagBank_inv {s : State} {f : Word} {o : Option (Nat × Nat × Nat)} (inv : s.Inv) : (tagBank s f o).Inv := by
  unfold tagBank
  refine inv_ite inv ?_
  split
  · exact inv_upd inv
  · exact inv_upd inv

theorem topMap_inv {s : State} (inv : s.Inv) : (topMap s).Inv := topRun_inv inv fun _ _ h => topSet_inv (tagBank_inv h)

theorem execMap_inv {s : State} (inv : s.Inv) : OutInv (execMap s) := by
  unfold execMap
  exact outInv_next.mpr (topMap_inv inv)

theorem topMapz_inv {s : State} (inv : s.Inv) : (topMapz s).Inv := topRun_inv inv fun _ _ h => topSet_inv (tagBank_inv h)

theorem execMapz_inv {s : State} (inv : s.Inv) : OutInv (execMapz s) := by
  unfold execMapz
  exact outInv_next.mpr (topMapz_inv inv)

/-! ## Firmware -/

theorem execMargin_inv {r : LhReq} {s : State} (inv : s.Inv) : OutInv (execMargin r s) := by
  refine outInv_next.mpr (lhServe_inv inv fun s inv => ?_)
  refine answer_inv_ite inv ?_
  exact inv_upd inv

theorem clearSite_inv {s : State} {site : Nat} (inv : s.Inv) : (clearSite s site).Inv := by
  unfold clearSite
  dsimp only
  exact inv_ite (inv_upd inv) (inv_ite (foldl_inv (inv_upd inv) (fun _ _ h => inv_upd h)) (inv_upd inv))

theorem clearStrat_inv {s : State} {i : Nat} (inv : s.Inv) : (clearStrat s i).Inv := by
  unfold clearStrat
  exact inv_upd inv

theorem execMarkfail_inv {r : LhReq} {s : State} (inv : s.Inv) : OutInv (execMarkfail r s) := by
  refine outInv_next.mpr (lhServe_inv inv fun s inv => ?_)
  refine answer_inv_ite inv (answer_inv_ite inv (answer_inv_ite inv (answer_inv_ite ?_ ?_)))
  · exact saveMarks_inv (mixUpdate_inv (clearStrat_inv (inv_upd inv)))
  · exact lowWater_inv (saveMarks_inv (mixUpdate_inv (clearSite_inv (inv_upd inv))))

/-! ## Scalar -/

theorem execMax_inv {d a b : BitVec 6} {s : State} (inv : s.Inv) : OutInv (execMax d a b s) := by
  unfold execMax
  exact alu3_inv inv

theorem execMaxu_inv {d a b : BitVec 6} {s : State} (inv : s.Inv) : OutInv (execMaxu d a b s) := by
  unfold execMaxu
  exact alu3_inv inv

/-! ## System -/

theorem execMboxr_inv {d : BitVec 6} {s : State} (inv : s.Inv) : OutInv (execMboxr d s) := by
  refine word_inv inv fun c s inv => ?_
  dsimp only
  split
  · exact landA_inv (setCore_inv inv)
  · exact landA_inv inv

theorem execMboxs_inv {d a b : BitVec 6} {s : State} (inv : s.Inv) : OutInv (execMboxs d a b s) := by
  unfold execMboxs
  dsimp only
  exact word_inv inv (fun _ _ h => resinv_ite (landA_inv h) (resinv_ite (landA_inv (mailPut_inv h)) (landA_inv h)))

/-! ## Engines -/

theorem engObserve_inv {s : State} {key : Nat} {ids : List Nat} (inv : s.Inv) : (engObserve s key ids).Inv := by
  unfold engObserve
  dsimp only
  exact inv_ite inv (setCell_inv inv)

theorem intake_inv {fmt v v' : Nat} {s t : State} (inv : s.Inv) (e : intake fmt v s = .ok (v', t)) : t.Inv := by
  grind [intake]

/-! ## Mem -/

theorem sectAdd_inv {s : State} {key : Nat} {e : Sect} (inv : s.Inv) : (sectAdd s key e).Inv := by
  unfold sectAdd
  dsimp only
  exact inv_ite (setSects_inv inv) (setSects_inv (freeNum_inv inv))

theorem sectFill_inv {s : State} {key : Nat} {e : Sect} (inv : s.Inv) : (sectFill s key e).Inv := by
  unfold sectFill
  dsimp only
  exact inv_ite (inv_upd inv) (sectAdd_inv (inv_upd inv))

/-! ## Engines -/

theorem engReadAt_inv {home : Bool} {s t : State} {o : Op} {a : Word} {eb v : Nat} (inv : s.Inv)
    (e : engReadAt home s o a eb = .ok (v, t)) : t.Inv := by
  unfold engReadAt at e; dsimp only at e
  split at e
  · split at e
    · cases e
    split at e
    · cases e
    · cases e; exact inv
  split at e
  · cases e
  split at e
  · cases e
  split at e
  · cases e
  split at e
  · split at e
    · exact intake_inv inv e
    · cases e
  split at e
  · exact intake_inv (engObserve_inv inv) e
  split at e
  · cases e
  split at e
  · exact intake_inv (engObserve_inv (hotSample_inv inv)) e
  · exact intake_inv (engObserve_inv (sectFill_inv (inv_ite (hotSample_inv inv) inv))) e

theorem engRead_inv {s t : State} {o : Op} {a : Word} {eb v : Nat} (inv : s.Inv) (e : engRead s o a eb = .ok (v, t)) : t.Inv := by
  unfold engRead at e
  split at e
  · cases e; exact inv
  · exact engReadAt_inv inv e

/-! ## Collective -/

theorem collRead_inv {s t : State} {o : Op} {n : Nat} {l : List Word} (inv : s.Inv) (e : collRead s o n = .ok (l, t)) : t.Inv := by
  induction n generalizing t l with
  | zero => cases e; exact inv
  | succ n ih =>
    simp only [collRead] at e
    grind [engRead_inv]

/-! ## Engines -/

theorem opAsk_inv {s : State} {id : Nat} {o : Op} {a : Word} {k n : Nat} (inv : s.Inv) : (opAsk s id o a k n).Inv := by
  unfold opAsk
  dsimp only
  exact inv_ite (inv_upd inv) (sendReq_inv (inv_upd inv))

/-! ## Collective -/

theorem collUnit_inv {s : State} {id : Nat} {o : Op} (inv : s.Inv) : (collUnit s id o).Inv := by
  unfold collUnit; dsimp only
  split
  · exact inv
  split
  · exact endAll_inv inv
  split
  · split
    · exact opFault_inv inv
    · exact opAsk_inv inv
  · have h := collRead_inv inv ‹_›
    refine inv_ite (foldl_inv ?hm fun _ _ h => sendPkg_inv h) ?hm
    refine foldl_inv h fun t p h => ?_
    split
    · exact inv_upd h
    · exact h

/-! ## Engines -/

theorem engAtomic_inv {s t : State} {id : Nat} {o : Op} {kind : ReqKind} {a : Word} {n v land : Nat} (inv : s.Inv)
    (e : engAtomic s id o kind a n v land = .ok t) : t.Inv := by
  unfold engAtomic at e; dsimp only at e
  split at e
  · cases e
  split at e
  · cases e
  split at e
  · cases e
  · cases e; exact overtake_inv (sectDrop_inv (sendReq_inv inv))

theorem engFaddw_inv {s t : State} {id : Nat} {o : Op} {a : Word} {v land : Nat} (inv : s.Inv)
    (e : engFaddw s id o a v land = .ok t) :
    t.Inv := by
  unfold engFaddw at e; split at e
  · cases e
  · exact engAtomic_inv inv e

theorem takeNext_inv {s t : State} {o : Op} {q : Nat} {x : QEntry} (inv : s.Inv) (e : takeNext s o q = some (x, t)) : t.Inv := by
  unfold takeNext at e
  split at e
  · cases e
  split at e
  · cases e
  · cases e; exact setQ_inv inv

theorem emit_inv {s : State} {o : Op} {v : BitVec 2048} {mark : Bool} (inv : s.Inv) : (emit s o v mark).Inv := by
  unfold emit
  exact setQ_inv inv

theorem lineRead_inv {s t : State} {o : Op} {i n : Nat} {l : List Nat} (inv : s.Inv) (e : lineRead s o i n = .ok (l, t)) :
    t.Inv := by
  induction n generalizing t l with
  | zero => cases e; exact inv
  | succ n ih =>
    -- the kernel must not evaluate the read at this computed address
    obtain ⟨read, hread⟩ : ∃ f, f = engReadAt true := ⟨_, rfl⟩
    rw [lineRead, ← hread] at e
    split at e
    · cases e
    split at e
    · cases e
    · cases e
      rename_i h
      exact engReadAt_inv (ih ‹_›) (hread ▸ h)

theorem lineWrite_inv {s t : State} {id : Nat} {o : Op} {i v : Nat} (inv : s.Inv) (e : lineWrite s id o i v = .ok t) : t.Inv := by
  unfold lineWrite at e; dsimp only at e
  split at e
  · cases e
  · cases e
    refine foldl_inv inv fun u x h => ?_
    split
    · exact h
    · exact sectStoreReq_inv (sendReq_inv h)

theorem tileRead_inv {s t : State} {o : Op} {a : Word} {sec v : Nat} (inv : s.Inv) (e : tileRead s o a sec = .ok (v, t)) :
    t.Inv := by
  unfold tileRead at e; dsimp only at e
  split at e
  · cases e
  split at e
  · split at e
    · cases e; exact inv
    · cases e
  split at e
  · cases e
  · cases e; exact engObserve_inv (hotSample_inv inv)

theorem tileWrite_inv {s t : State} {id : Nat} {o : Op} {a : Word} {sec v : Nat} (inv : s.Inv)
    (e : tileWrite s id o a sec v = .ok (some t)) : t.Inv := by
  unfold tileWrite at e; dsimp only at e
  split at e
  · cases e
  split at e
  · cases e; exact sendReq_inv inv
  split at e
  · cases e
  split at e
  · cases e
  · cases e; exact overtake_inv (setSects_inv (hotSample_inv (homeWrite_inv inv)))

theorem setGs_inv {s : State} {key : Nat} {g : GsState} (inv : s.Inv) : (setGs s key g).Inv := by
  unfold setGs
  exact setCell_inv inv

theorem healRv_inv {s : State} {key first n : Nat} (inv : s.Inv) : (healRv s key first n).Inv := by
  unfold healRv
  dsimp only
  exact inv_ite inv (setCell_inv inv)

theorem latchLand_inv {s : State} {id : Nat} {o : Op} {due n : Nat} (inv : s.Inv) : (latchLand s id o due n).Inv := by
  unfold latchLand
  refine inv_ite inv ?_
  split
  · exact inv
  · exact addLatch_inv inv

theorem rdqEnd_inv {s : State} {id : Nat} {o : Op} {due : Nat} (inv : s.Inv) : (rdqEnd s id o due).Inv := by
  unfold rdqEnd
  exact addLatch_inv inv

theorem rdqEntry_inv {s t : State} {o p q : Op} {eb n : Nat} (inv : s.Inv) (e : rdqEntry s o eb n p = .ok (q, t)) : t.Inv := by
  induction n generalizing s p with
  | zero => cases e; exact inv
  | succ n ih =>
    simp only [rdqEntry] at e
    split at e
    · cases e; exact inv
    split at e
    · cases e
    · exact ih (engRead_inv inv ‹_›) e

theorem graphElem_inv {s t : State} {o : Op} {tens : Nat} {i v : Int} (inv : s.Inv) (e : graphElem s o tens i = .ok (v, t)) :
    t.Inv := by
  unfold graphElem at e; dsimp only at e
  split at e
  · cases e
  split at e
  · cases e
  split at e
  · cases e
  · cases e; exact engReadAt_inv inv ‹_›

theorem drawFrom_inv {s t : State} {o : Op} {v a : Int} {deg : Nat} {seed : Word} {x : Option Int} (inv : s.Inv)
    (e : drawFrom s o v a deg seed = .ok (x, t)) : t.Inv := by
  grind [drawFrom, graphElem_inv]

theorem nodeOf_inv {s t : State} {o : Op} {v a : Int} {n : Nat} (inv : s.Inv) (e : nodeOf s o v = .ok (a, n, t)) : t.Inv := by
  unfold nodeOf at e; dsimp only at e
  split at e
  · cases e
  split at e
  · cases e
  split at e
  · cases e
  have h := graphElem_inv inv ‹_›
  split at e
  · cases e
  split at e
  · cases e
  · cases e; exact graphElem_inv h ‹_›

theorem drawNode_inv {s t : State} {o : Op} {v : Int} {seed : Word} {x : Option Int} (inv : s.Inv)
    (e : drawNode s o v seed = .ok (x, t)) : t.Inv := by
  unfold drawNode at e
  split at e
  · cases e
  · exact drawFrom_inv (nodeOf_inv inv ‹_›) e

theorem readEarly_inv {s : State} {id : Nat} {o : Op} (inv : s.Inv) : (readEarly s id o).1.Inv := by
  unfold readEarly
  refine foldl_keeps (P := fun p : State × Op => p.1.Inv) (fun p x h => ?_) _ _ inv
  split
  · exact h
  split
  · exact engReadAt_inv h ‹_›
  · exact h

/-- What a unit of an operation answers meets the invariant: the state that it goes on in, or faults in. -/
def Adv.Inv : Adv → Prop
  | .go t _ | .bad t _ _ => t.Inv
  | .wait => True

theorem finish_inv {s : State} {o : Op} (inv : s.Inv) : (finish s o).Inv := by
  unfold finish
  split
  · split
    · exact emit_inv inv
    · trivial
  · exact inv

theorem emitBuf_inv {s : State} {o : Op} {eb k count : Nat} (inv : s.Inv) : (emitBuf s o eb k count).Inv := by
  unfold emitBuf
  split
  · split
    · exact opLand_inv (emit_inv inv) ‹_›
    · exact inv
  · trivial

theorem takeBuf_inv {s : State} {o : Op} {q : Nat} (inv : s.Inv) : (takeBuf s o q).Inv := by
  unfold takeBuf
  split
  · trivial
  · split <;> exact takeNext_inv inv ‹_›

theorem rdqUnit_inv {s : State} {o : Op} (inv : s.Inv) : (rdqUnit s o).Inv := by
  unfold rdqUnit; dsimp only
  split
  · split
    · exact emitBuf_inv inv
    · exact finish_inv inv
  split
  · exact emitBuf_inv inv
  split
  · exact inv
  · exact engRead_inv inv ‹_›

theorem rdqSchedUnit_inv {s : State} {id : Nat} {o : Op} (inv : s.Inv) : (rdqSchedUnit s id o).Inv := by
  unfold rdqSchedUnit; dsimp only
  split
  · trivial
  split
  · exact rdqEnd_inv (inv_ite (addLatch_inv inv) inv)
  split
  · exact inv
  split
  · exact rdqEnd_inv (latchLand_inv (addLatch_inv (rdqEntry_inv inv ‹_›)))
  · exact latchLand_inv (addLatch_inv (rdqEntry_inv inv ‹_›))

theorem rdsUnit_inv {s : State} {id : Nat} {o : Op} (inv : s.Inv) : (rdsUnit s id o).Inv := by
  unfold rdsUnit; dsimp only
  split
  · exact inv
  split
  · exact inv
  have h := engRead_inv inv ‹_›
  split
  all_goals
    split
    · exact h
    · exact engWrite_inv h ‹_›

theorem wrsUnit_inv {s : State} {id : Nat} {o : Op} (inv : s.Inv) : (wrsUnit s id o).Inv := by
  unfold wrsUnit; dsimp only
  split
  · exact inv
  split
  · exact inv
  have h := engRead_inv inv ‹_›
  split
  · exact h
  · exact engWrite_inv h ‹_›

theorem wrqUnit_inv {s : State} {id : Nat} {o : Op} (inv : s.Inv) : (wrqUnit s id o).Inv := by
  unfold wrqUnit; dsimp only
  split
  · exact inv
  split
  · exact inv
  split
  · exact takeBuf_inv inv
  split
  · exact inv
  · exact engWrite_inv inv ‹_›

theorem cpyUnit_inv {s : State} {id : Nat} {o : Op} (inv : s.Inv) : (cpyUnit s id o).Inv := by
  unfold cpyUnit; dsimp only
  split
  · exact inv
  split
  · exact inv
  have h := engRead_inv inv ‹_›
  split
  · exact h
  · exact engWrite_inv h ‹_›

theorem rowLoad_inv {s : State} {o : Op} (inv : s.Inv) : (rowLoad s o).Inv := by
  unfold rowLoad; dsimp only
  split
  · exact inv
  have h := engRead_inv inv ‹_›
  split
  · split <;> exact h
  · exact h

theorem gathUnit_inv {s : State} {o : Op} (inv : s.Inv) : (gathUnit s o).Inv := by
  unfold gathUnit; dsimp only
  split
  · split
    · exact emitBuf_inv inv
    · exact finish_inv inv
  split
  · exact rowLoad_inv inv
  split
  · exact emitBuf_inv inv
  split
  · exact inv
  split
  · exact inv
  · exact engRead_inv inv ‹_›

theorem scatEnd_inv {s : State} {id : Nat} {o : Op} {eb : Nat} (inv : s.Inv) : (scatEnd s id o eb).Inv := by
  unfold scatEnd
  split
  · exact inv
  split
  · trivial
  split
  · exact opLand_inv inv ‹_›
  · exact inv

theorem scatUnit_inv {s : State} {id : Nat} {o : Op} (inv : s.Inv) : (scatUnit s id o).Inv := by
  unfold scatUnit; dsimp only
  generalize (if o.fn / 4 % 4 = 1 then 32 else elemBits s (opCtx s o) o.va (o.fn / 16 % 8)) = eb
  split
  · exact scatEnd_inv inv
  split
  · exact rowLoad_inv inv
  split
  · exact inv
  split
  · exact takeBuf_inv inv
  split
  · exact inv
  split
  · exact inv
  · next h =>
    split at h
    · exact engWrite_inv inv h
    split at h
    · exact engFaddw_inv inv h
    · exact engAtomic_inv inv h

theorem copyUnit_inv {s : State} {id : Nat} {o : Op} {src dst : Word} (inv : s.Inv) : (copyUnit s id o src dst).Inv := by
  unfold copyUnit
  split
  · exact inv
  split
  · exact inv
  split
  · exact inv
  have h := tileRead_inv inv ‹_›
  split
  · exact h
  · trivial
  · exact tileWrite_inv h ‹_›

theorem fillUnit_inv {s : State} {id : Nat} {o : Op} {dst v : Word} (inv : s.Inv) : (fillUnit s id o dst v).Inv := by
  unfold fillUnit; dsimp only
  split
  · exact inv
  split
  · exact inv
  split
  · exact inv
  · trivial
  · exact tileWrite_inv inv ‹_›

theorem tloadUnit_inv {s : State} {o : Op} (inv : s.Inv) : (tloadUnit s o).Inv := by
  unfold tloadUnit; dsimp only
  split
  · exact inv
  split
  · exact inv
  split
  · exact inv
  split
  · exact inv
  split
  · exact inv
  have h := tileRead_inv inv ‹_›
  split
  · exact h
  · exact spadWrite_inv h ‹_›

theorem tstoreUnit_inv {s : State} {id : Nat} {o : Op} (inv : s.Inv) : (tstoreUnit s id o).Inv := by
  unfold tstoreUnit; dsimp only
  split
  · exact inv
  split
  · exact inv
  split
  · exact inv
  split
  · exact inv
  split
  · exact inv
  split
  · exact inv
  · trivial
  · exact tileWrite_inv inv ‹_›

theorem tcopyUnit_inv {s : State} {id : Nat} {o : Op} (inv : s.Inv) : (tcopyUnit s id o).Inv := by
  unfold tcopyUnit
  split
  · exact inv
  · exact copyUnit_inv inv

theorem gfault_inv {s : State} {o : Op} {code rule dep : Nat} (inv : s.Inv) : (gfault s o code rule dep).Inv := setGs_inv inv

theorem gsetUnit_inv {s : State} {o : Op} (inv : s.Inv) : (gsetUnit s o).Inv := by
  have h : ∀ g, (Adv.go (setGs s o.key g) { o with units := true }).Inv := fun _ => setGs_inv inv
  unfold gsetUnit; dsimp only
  split
  · split
    · exact inv
    split
    · exact inv
    split
    · exact inv
    split
    · exact h _
    · exact inv
  · split
    · exact inv
    · exact h _
  · split
    · exact inv
    split
    · exact inv
    split
    · exact inv
    split
    · exact h _
    · exact inv
  · split
    · exact inv
    · exact h _

theorem gruleUnit_inv {s : State} {o : Op} (inv : s.Inv) : (gruleUnit s o).Inv := by
  unfold gruleUnit; dsimp only
  split
  · exact gfault_inv inv
  split
  · exact inv
  split
  · exact gfault_inv inv
  split
  · exact gfault_inv inv
  split
  · exact gfault_inv inv
  split
  · exact gfault_inv inv
  split
  · exact gfault_inv inv
  split
  · exact gfault_inv inv
  · exact setGs_inv (healRv_inv inv)

theorem growUnit_inv {s : State} {o : Op} (inv : s.Inv) : (growUnit s o).Inv := by
  unfold growUnit; dsimp only
  split
  · exact gfault_inv inv
  split
  · exact finish_inv inv
  split
  · exact gfault_inv inv
  split
  · split
    · exact gfault_inv inv
    split
    · exact gfault_inv inv
    split
    · exact setGs_inv (emit_inv inv)
    · trivial
  · exact gfault_inv inv
  · exact gfault_inv inv

theorem gsegUnit_inv {s : State} {o : Op} (inv : s.Inv) : (gsegUnit s o).Inv := by
  unfold gsegUnit; dsimp only
  split
  · split
    · exact inv
    split
    · exact inv
    split <;> exact inv
  · split
    · exact finish_inv inv
    split <;> exact inv
  · split
    · split
      · trivial
      split <;> exact takeNext_inv inv ‹_›
    split
    · exact emit_inv inv
    · trivial

theorem gscatUnit_inv {s : State} {id : Nat} {o : Op} (inv : s.Inv) : (gscatUnit s id o).Inv := by
  unfold gscatUnit; dsimp only
  split
  · exact inv
  split
  · exact takeBuf_inv inv
  split
  · exact inv
  split
  · exact inv
  · exact engFaddw_inv inv ‹_›

theorem gloadUnit_inv {s : State} {o : Op} (inv : s.Inv) : (gloadUnit s o).Inv := by
  unfold gloadUnit; dsimp only
  split
  · exact inv
  split
  · exact inv
  have h := engRead_inv inv ‹_›
  split
  · exact h
  · exact spadWrite_inv h ‹_›

theorem walkUnit_inv {s : State} {o : Op} (inv : s.Inv) : (walkUnit s o).Inv := by
  unfold walkUnit
  generalize (if o.pos = 0 ∧ !o.hold then { o with reply := o.va, hold := true } else o) = o
  dsimp only
  split
  · exact finish_inv inv
  split
  · trivial
  split
  · exact inv
  · next h =>
    refine emit_inv ?_
    split at h
    · cases h; exact inv
    · exact drawNode_inv inv h

theorem sampleUnit_inv {s : State} {o : Op} (inv : s.Inv) : (sampleUnit s o).Inv := by
  unfold sampleUnit; dsimp only
  split
  · split
    · exact finish_inv inv
    split
    · trivial
    split
    · exact inv
    · exact emit_inv (drawFrom_inv inv ‹_›)
  · split
    · exact inv
    · exact nodeOf_inv inv ‹_›

theorem bldUnit_inv {s : State} {o : Op} (inv : s.Inv) : (bldUnit s o).Inv := by
  unfold bldUnit
  split
  · exact finish_inv inv
  split
  · trivial
  split
  · exact inv
  · exact emit_inv (lineRead_inv inv ‹_›)

theorem bstUnit_inv {s : State} {id : Nat} {o : Op} (inv : s.Inv) : (bstUnit s id o).Inv := by
  unfold bstUnit
  split
  · exact inv
  split
  · exact takeBuf_inv inv
  split
  · exact inv
  · exact lineWrite_inv inv ‹_›

theorem bamoUnit_inv {s : State} {id : Nat} {o : Op} (inv : s.Inv) : (bamoUnit s id o).Inv := by
  unfold bamoUnit; dsimp only
  generalize (if o.mark = true then 64 else 32) = w
  split
  · exact inv
  split
  · exact takeBuf_inv inv
  split
  · exact inv
  split
  · exact inv
  · next h =>
    split at h
    · exact engFaddw_inv inv h
    · exact engAtomic_inv inv h

theorem bredUnit_inv {s : State} {o : Op} (inv : s.Inv) : (bredUnit s o).Inv := by
  obtain ⟨read, hread⟩ : ∃ f, f = engReadAt true := ⟨_, rfl⟩
  rw [bredUnit, ← hread]; dsimp only
  split
  · split
    · exact emit_inv inv
    · trivial
  split
  · exact inv
  · next h => exact engReadAt_inv inv (hread ▸ h)

theorem opUnit_inv {s : State} {id : Nat} {o : Op} (inv : s.Inv) : (opUnit s id o).Inv := by
  rw [opUnit.eq_def]
  split
  · split
    · exact rdqSchedUnit_inv inv
    · exact rdqUnit_inv inv
  · exact rdsUnit_inv inv
  · exact wrqUnit_inv inv
  · exact wrsUnit_inv inv
  · exact cpyUnit_inv inv
  · exact gathUnit_inv inv
  · exact scatUnit_inv inv
  · exact inv
  · exact tloadUnit_inv inv
  · exact tcopyUnit_inv inv
  · exact tstoreUnit_inv inv
  · exact fillUnit_inv inv
  · split
    · exact gsetUnit_inv inv
    · trivial
  · split
    · exact gruleUnit_inv inv
    · trivial
  · split
    · exact growUnit_inv inv
    · trivial
  · split
    · exact gsegUnit_inv inv
    · trivial
  · exact gloadUnit_inv inv
  · exact gscatUnit_inv inv
  · exact walkUnit_inv inv
  · exact sampleUnit_inv inv
  · exact bldUnit_inv inv
  · exact bstUnit_inv inv
  · exact fillUnit_inv inv
  · exact copyUnit_inv inv
  · exact bamoUnit_inv inv
  · exact bredUnit_inv inv
  · trivial
  · exact tloadUnit_inv inv

theorem opAdvance_inv {s : State} {id : Nat} (inv : s.Inv) : (opAdvance s id).Inv := by
  unfold opAdvance
  split
  · exact inv
  split
  · exact inv
  next o _ _ =>
  have h := readEarly_inv (id := id) (o := o) inv
  dsimp only
  have hu := opUnit_inv (id := id) (o := (readEarly s id o).2) h
  split
  · next e =>
    rw [e] at hu
    exact inv_ite hu (inv_upd hu)
  · exact inv_upd h
  · next e =>
    rw [e] at hu
    split
    · exact opFault_inv hu
    · exact opAsk_inv h

/-! ## MemEvents -/

theorem execMemoryRequestApply_inv {req : Nat} {s : State} (inv : s.Inv) : OutInv (execMemoryRequestApply req s) := by
  unfold execMemoryRequestApply
  refine outInv_next.mpr ?_
  split
  · exact applyReq_inv inv
  split
  · exact inv_ite (collUnit_inv inv) (inv_ite (opAdvance_inv inv) inv)
  · exact inv

theorem opGets_inv {s : State} {r : Req} (inv : s.Inv) : (opGets s r).Inv := by
  unfold opGets
  dsimp only
  split
  · exact inv
  · exact inv_upd inv

theorem deliver_inv {s : State} {id : Nat} {r : Req} (inv : s.Inv) : (deliver s id r).Inv := by
  unfold deliver; dsimp only
  have h := opGets_inv (r := r) (inv_ite (c := r.peer = true) (reqLand_inv (r := r) (dropReq_inv (id := id) inv)) (dropReq_inv
    (id := id) inv))
  split
  · exact h
  have h := inv_ite (c := r.bypass ∨ r.noInstall) h (foldl_inv (l := r.secs)
    (f := fun s x => sectFill s r.key { tens := tidOf r.addr, tile := x.1, sec := x.2.1, data := x.2.2, saw := r.saw }) h fun _
      _ h => sectFill_inv h)
  have h := writeA_inv (key := r.key) (r := r.dst) (v := replyValue r) h
  have h := inv_ite (c := r.kind = .cas) (writeA_inv (key := r.key) (r := r.flag) (v := BitVec.ofNat 64 (r.value / 2 ^ 64)) h) h
  have h := inv_ite (c := r.acq = true) (dropSects_inv (key := r.key) h) h
  exact inv_ite h (setStreamAt_inv h)

theorem execMemoryResponse_inv {req : Nat} {s : State} (inv : s.Inv) : OutInv (execMemoryResponse req s) := by
  unfold execMemoryResponse
  refine outInv_next.mpr ?_
  split
  · exact inv_ite (deliver_inv inv) inv
  · exact inv

/-! ## Host -/

theorem execMemrd_inv {m : HostHdr} {taddr : Word} {count : Word} {s : State} (inv : s.Inv) :
    OutInv (execMemrd m taddr count s) := by
  unfold execMemrd
  exact outInv_next.mpr (recvHost_inv inv)

theorem execMemwr_inv {m : HostHdr} {taddr : Word} {data : List Byte} {s : State} (inv : s.Inv) :
    OutInv (execMemwr m taddr data s) := by
  unfold execMemwr
  exact outInv_next.mpr (recvHost_inv inv)

theorem countRetx_inv {s : State} {conn : Nat} (inv : s.Inv) : (countRetx s conn).Inv := by
  unfold countRetx
  dsimp only
  exact inv_ite inv (setPreg_inv inv)

theorem execMessageResend_inv {conn : Nat} {seq : BitVec 32} {s : State} (inv : s.Inv) : OutInv (execMessageResend conn seq s) := by
  unfold execMessageResend; rw [outInv_next]
  split
  · exact inv
  split
  · exact inv
  · exact countRetx_inv (inv_upd (setConn_inv inv))

/-! ## Tiles -/

theorem topMigrate_inv {s : State} (inv : s.Inv) : (topMigrate s).Inv := by
  unfold topMigrate; dsimp only
  refine topRun_inv inv fun s e inv => ?_
  exact topSet_inv (inv_upd (tagBank_inv inv))

theorem execMigrate_inv {s : State} (inv : s.Inv) : OutInv (execMigrate s) := by
  unfold execMigrate
  exact outInv_next.mpr (topMigrate_inv inv)

theorem copySector_inv {s : State} {src dst : Word} {k : Nat} (inv : s.Inv) : (copySector s src dst k).Inv :=
  ⟨copySector_wf src dst k inv.mem, inv.frame⟩

theorem migAbandon_inv {s : State} {i : Nat} {m : Migr} (inv : s.Inv) : (migAbandon s i m).Inv := by
  unfold migAbandon
  exact setEntry_inv (tagBank_inv (inv_upd inv))

theorem execMigrationSectorCopy_inv {i : Nat} {s : State} (inv : s.Inv) : OutInv (execMigrationSectorCopy i s) := by
  unfold execMigrationSectorCopy
  dsimp only
  refine outInv_next.mpr ?_
  split
  · exact inv
  · exact inv_ite inv (inv_ite (inv_upd inv) (inv_ite (migAbandon_inv inv) (inv_upd (copySector_inv inv))))

/-! ## Scalar -/

theorem execMin_inv {d a b : BitVec 6} {s : State} (inv : s.Inv) : OutInv (execMin d a b s) := by
  unfold execMin
  exact alu3_inv inv

theorem execMinu_inv {d a b : BitVec 6} {s : State} (inv : s.Inv) : OutInv (execMinu d a b s) := by
  unfold execMinu
  exact alu3_inv inv

/-! ## Matrix -/

/-- Where an effect does not fault, the state it answers meets the invariant. -/
def FaultOrInv (r : Except Flt State) : Prop := ∀ t, r = .ok t → t.Inv

theorem faultOrInv_error {f : Flt} : FaultOrInv (.error f) := by
  intro t h
  cases h

theorem faultOrInv_ite {c : Prop} [Decidable c] {p q : Except Flt State} (hp : FaultOrInv p) (hq : FaultOrInv q) :
    FaultOrInv (if c then p else q) := by
  split <;> assumption

theorem afterPop_inv {s : State} {r : Except Flt State} (inv : s.Inv) (hr : FaultOrInv r) : (afterPop s r).Inv := by
  cases r with
  | ok t => exact hr t rfl
  | error f => exact inv

theorem popFq_inv {s : State} {key : Nat} (inv : s.Inv) : (popFq s key).Inv := by
  unfold popFq
  exact setMx_inv inv

theorem popToks_inv {s t : State} {c : Ctx} {k : Toks} (inv : s.Inv) (e : popToks s c k = .ok t) : t.Inv := by
  unfold popToks at e; split at e
  · cases e; exact takeToks_inv inv ‹_›
  · cases e

theorem execMload_inv {t : BitVec 3} {x : Stamp} {s : State} (inv : s.Inv) : OutInv (execMload t x s) := by
  refine word_inv inv fun c s inv => ?_
  dsimp only
  split
  · exact illegal_inv
  split
  · exact shortRes_inv
  split
  · exact resinv_ite trivial (popFq_inv inv)
  refine resinv_ite trivial (afterPop_inv (popFq_inv inv) ?_)
  refine faultOrInv_ite faultOrInv_error (faultOrInv_ite faultOrInv_error (faultOrInv_ite faultOrInv_error
    (faultOrInv_ite faultOrInv_error fun t e => ?_)))
  split at e
  · cases e
  · cases e
    exact setMx_inv (fresh_inv (popToks_inv (popFq_inv inv) ‹_›))

theorem tokenFor_inv {s : State} {key kd : Nat} {w : Who} (inv : s.Inv) : (tokenFor s key kd w).Inv := by
  have h := addTok_inv (key := key) (n := kd) inv
  unfold tokenFor
  split
  · next e => rw [e] at h; exact h
  · next e => rw [e] at h; exact takeFault_inv h

theorem mloadLand_inv {s : State} {key : Nat} (inv : s.Inv) : (mloadLand s key).Inv := by
  unfold mloadLand
  dsimp only
  split
  · exact inv
  split
  · exact tokenFor_inv (setCell_inv inv)
  · exact takeFault_inv (setCell_inv inv)

theorem execMloadLanding_inv {key : Nat} {s : State} (inv : s.Inv) : OutInv (execMloadLanding key s) := by
  unfold execMloadLanding
  exact outInv_next.mpr (mloadLand_inv inv)

theorem mmaWord_inv {mmas : Bool} {q : BitVec 3} {x : Stamp} {s : State} (inv : s.Inv) : OutInv (mmaWord mmas q x s) := by
  refine word_inv inv fun c s inv => ?_
  dsimp only
  refine resinv_ite illegal_inv ?_
  split
  · exact shortRes_inv
  refine resinv_ite trivial (afterPop_inv (popFq_inv inv) (faultOrInv_ite faultOrInv_error ?_))
  split
  · exact faultOrInv_error
  refine faultOrInv_ite faultOrInv_error fun t e => ?_
  split at e
  · cases e
  · cases e
    exact setMx_inv (fresh_inv (popToks_inv (popFq_inv inv) ‹_›))

theorem execMma_inv {q : BitVec 3} {x : Stamp} {s : State} (inv : s.Inv) : OutInv (execMma q x s) := by
  unfold execMma
  exact mmaWord_inv inv

theorem execMmaRowLanding_inv {key : Nat} {s : State} (inv : s.Inv) : OutInv (execMmaRowLanding key s) := by
  unfold execMmaRowLanding
  exact outInv_next.mpr (mmaLand_inv inv)

theorem mmaTake_inv {s : State} {key : Nat} (inv : s.Inv) : (mmaTake s key).Inv := by
  unfold mmaTake; dsimp only
  split
  · exact inv
  split
  · exact inv_ite inv (takeFault_inv (setMx_inv inv))
  · exact inv_ite (addLatch_inv (setMx_inv (setQ_inv inv))) (setMx_inv (setQ_inv inv))

theorem execMmaRowTake_inv {key : Nat} {s : State} (inv : s.Inv) : OutInv (execMmaRowTake key s) := by
  unfold execMmaRowTake
  exact outInv_next.mpr (mmaTake_inv inv)

theorem execMmas_inv {q : BitVec 3} {x : Stamp} {s : State} (inv : s.Inv) : OutInv (execMmas q x s) := by
  unfold execMmas
  exact mmaWord_inv inv

/-! ## Firmware -/

theorem mixChange_inv {s t : State} (inv : t.Inv) : (mixChange s t).Inv := by
  unfold mixChange
  exact inv_ite inv (mixUpdate_inv inv)

theorem strataBack_inv {s : State} {m : Nat} (inv : s.Inv) : (strataBack s m).Inv := by
  unfold strataBack
  refine foldl_inv inv ?_
  intro s k inv
  exact inv_ite (clearStratum_inv (inv_upd inv)) inv

theorem enterSite_inv {s : State} {site : Nat} (inv : s.Inv) : (enterSite s site).Inv := by
  unfold enterSite; dsimp only
  refine lowWater_inv (inv_ite (mixUpdate_inv ?h) (mixChange_inv ?h))
  exact inv_ite (inv_upd inv) (inv_ite (inv_ite (strataBack_inv (inv_upd inv)) (inv_upd inv)) (inv_upd inv))

theorem startCore_inv {s : State} {n slot : Nat} (inv : s.Inv) : (startCore s n slot).Inv := by
  unfold startCore
  dsimp only
  exact setCore_inv inv

theorem startCores_inv {s : State} (inv : s.Inv) : (startCores s).Inv := by
  unfold startCores; dsimp only
  have h : (match bootPick s 2 with
      | some i => if s.recovery then s else (List.range 7).foldl (fun s n => startCore s n i) s
      | none => s).Inv := by
    split
    · exact inv_ite inv (foldl_inv inv fun _ _ h => startCore_inv h)
    · exact inv
  split
  · exact inv_upd (startCore_inv h)
  · exact h

theorem trainedModule_inv {s : State} {site m : Nat} {ok : Bool} (inv : s.Inv) : (trainedModule s site m ok).Inv := by
  unfold trainedModule
  dsimp only
  exact inv_ite (setPreg_inv (inv_upd inv)) (inv_upd inv)

theorem execModuleTrain_inv {site : BitVec 8} {module : Nat} {ok : Bool} {s : State} (inv : s.Inv) :
    OutInv (execModuleTrain site module ok s) := by
  unfold execModuleTrain; rw [outInv_next]
  split
  · exact inv
  split
  · split
    · exact inv_ite (inv_upd (trainedModule_inv inv)) (lhAnswer_inv (enterSite_inv (inv_upd (trainedModule_inv inv))))
    · exact inv
  · split
    · have h := trainedModule_inv (site := site.toNat) (m := module) (ok := ok) inv
      exact inv_ite (startCores_inv (enterSite_inv h))
        (inv_ite h (inv_ite (inv_ite (enterSite_inv h) h) (inv_ite (enterSite_inv h) h)))
    · exact inv

/-! ## Access -/

theorem execMovq_inv {qd qs : BitVec 4} {k : Toks} {s : State} (inv : s.Inv) : OutInv (execMovq qd qs k s) := by
  refine word_inv inv fun c s inv => gated_inv ?_
  refine resinv_ite illegal_inv (Got.then_inv fun ⟨e, t⟩ h => Got.then_inv fun _ _ => ?_)
  exact withToks_inv (takeEntry_inv inv h) fun u h => landQ_inv h

/-! ## Matrix -/

theorem mxWord_inv {x : Stamp} {ill : Ctx → State → Bool} {wait : Ctx → State → Bool} {k : Ctx → State → Res} {s : State}
    (hk : ∀ x0 x1, x1.Inv → (k x0 x1).Inv) (inv : s.Inv) : OutInv (mxWord x ill wait k s) := by
  unfold mxWord
  exact word_inv inv (fun _ _ h => resinv_ite illegal_inv (resinv_ite trivial (resinv_ite trivial (withToks_inv h
    (fun _ k => hk _ _ k)))))

theorem execMsel_inv {mask : BitVec 8} {x : Stamp} {s : State} (inv : s.Inv) : OutInv (execMsel mask x s) := by
  refine mxWord_inv (fun c s inv => ?_) inv
  exact inv_ite (addLatch_inv inv) (setMx_inv inv)

/-! ## Scalar -/

theorem execMul_inv {d a b : BitVec 6} {s : State} (inv : s.Inv) : OutInv (execMul d a b s) := by
  unfold execMul
  exact alu3_inv inv

theorem execMulh_inv {d a b : BitVec 6} {s : State} (inv : s.Inv) : OutInv (execMulh d a b s) := by
  unfold execMulh
  exact alu3_inv inv

theorem execMulhu_inv {d a b : BitVec 6} {s : State} (inv : s.Inv) : OutInv (execMulhu d a b s) := by
  unfold execMulhu
  exact alu3_inv inv

theorem execMuli_inv {d a : BitVec 6} {imm : BitVec 32} {s : State} (inv : s.Inv) : OutInv (execMuli d a imm s) := by
  unfold execMuli
  exact alu2_inv inv

/-! ## System -/

theorem execMwait_inv {n : BitVec 32} {s : State} (inv : s.Inv) : OutInv (execMwait n s) := by
  refine word_inv inv fun c s inv => ?_
  refine resinv_ite inv ?_
  split
  · exact resinv_ite inv trivial
  · trivial

theorem execMwaitTimeout_inv {core : Nat} {s : State} (inv : s.Inv) : OutInv (execMwaitTimeout core s) := by
  unfold execMwaitTimeout
  dsimp only
  refine outInv_next.mpr ?_
  split
  · exact inv_ite (setCore_inv inv) inv
  · exact inv

/-! ## Control -/

theorem execNop_inv {s : State} (inv : s.Inv) : OutInv (execNop s) := by
  unfold execNop
  exact word_inv inv (fun _ _ h => h)

/-! ## Host -/

theorem execNopCommand_inv {c : Cmd} {s : State} (inv : s.Inv) : OutInv (execNopCommand c s) := by
  unfold execNopCommand
  exact outInv_next.mpr (answer_inv (takeCmd_inv inv))

/-! ## Scalar -/

theorem execOr_inv {d a b : BitVec 6} {s : State} (inv : s.Inv) : OutInv (execOr d a b s) := by
  unfold execOr
  exact alu3_inv inv

theorem execOri_inv {d a : BitVec 6} {imm : BitVec 32} {s : State} (inv : s.Inv) : OutInv (execOri d a imm s) := by
  unfold execOri
  exact alu2_inv inv

/-! ## Firmware -/

theorem powerOff_inv {s : State} : (powerOff s).Inv := by
  unfold powerOff
  dsimp only
  exact inv_upd packageReset_inv

theorem execOvercurrent_inv {rail : Nat} {s : State} (inv : s.Inv) : OutInv (execOvercurrent rail s) := by
  unfold execOvercurrent
  exact outInv_next.mpr (inv_ite powerOff_inv inv)

theorem execPackagePowerLoss_inv {s : State} : OutInv (execPackagePowerLoss s) := by
  unfold execPackagePowerLoss
  exact outInv_next.mpr powerOff_inv

/-! ## System -/

theorem pregStop_inv {s : State} {core site n : Nat} {f : PReg → Res} (hf : ∀ r, (f r).Inv) : (pregStop s core site n f).Inv := by
  unfold pregStop
  split
  · exact illegal_inv
  split
  · trivial
  split
  · exact illegal_inv
  · exact resinv_ite (hf _) trivial

theorem rfPop_inv {s : State} (inv : s.Inv) : (rfPop s).Inv := by
  unfold rfPop
  exact rfFill_inv (inv_upd inv)

theorem regRead_inv {s : State} {core site n : Nat} {r : PReg} (inv : s.Inv) : (regRead s core site n r).2.Inv := by
  unfold regRead
  dsimp only
  split
  case h_18 => exact setPreg_inv inv
  case h_26 => split <;> exact inv
  case h_27 =>
    split
    · exact rfPop_inv inv
    · exact inv
  case h_29 => split <;> exact inv
  case h_34 => exact inv_upd inv
  case h_35 => exact inv_upd inv
  case h_37 =>
    split
    · exact hotePop_inv inv
    · exact inv
  all_goals exact inv

theorem execPcsrr_inv {d : BitVec 6} {site : BitVec 8} {reg : BitVec 12} {s : State} (inv : s.Inv) :
    OutInv (execPcsrr d site reg s) := by
  unfold execPcsrr
  dsimp only
  exact word_inv inv (fun _ _ h => pregStop_inv (fun _ => landA_inv (regRead_inv h)))

theorem execPcsrrTimeout_inv {core : Nat} {s : State} (inv : s.Inv) : OutInv (execPcsrrTimeout core s) := by
  unfold execPcsrrTimeout
  refine outInv_next.mpr ?_
  split
  · exact inv_ite (coreFault_inv inv) inv
  · exact inv_ite (coreFault_inv inv) inv
  · exact inv

theorem pkgidPut_inv {s : State} {v : Word} (inv : s.Inv) : (pkgidPut s v).Inv := by
  unfold pkgidPut
  exact inv_ite (setPreg_inv inv) inv

theorem rfFail_inv {s : State} {h : Nat} (inv : s.Inv) : (rfFail s h).Inv := by
  unfold rfFail
  split
  · exact inv_ite (refuseRun_inv inv) inv
  · exact inv

theorem rfRetry_inv {s : State} {h : Nat} (inv : s.Inv) : (rfRetry s h).Inv := by
  unfold rfRetry
  split
  · exact inv_ite (setReg_inv inv) inv
  · exact inv

/-! ## Tiles -/

theorem setRole_inv {s : State} {i r : Nat} (inv : s.Inv) : (setRole s i r).Inv := by
  unfold setRole
  exact mixUpdate_inv (inv_upd inv)

theorem roleBack_inv {s : State} {r : RoleChg} {status : Nat} (inv : s.Inv) : (roleBack s r status).Inv := by
  unfold roleBack
  exact setRole_inv (inv_upd inv)

theorem roleAbort_inv {s : State} (inv : s.Inv) : (roleAbort s).Inv := by
  unfold roleAbort
  split
  · exact inv
  split
  · exact inv
  · exact inv_ite (inv_ite (clearStratum_inv (inv_upd (roleBack_inv inv))) (onFifos_inv (inv_upd (roleBack_inv inv))))
      (roleBack_inv inv)

theorem roleStart_inv {core : Nat} {s : State} {v : Word} (inv : s.Inv) : (roleStart core s v).Inv := by
  unfold roleStart; dsimp only
  refine inv_ite (inv_upd inv) (inv_ite (inv_upd inv) (inv_ite (gateAsk_inv ?h) ?h))
  exact setRole_inv (inv_upd inv)

theorem topRead_inv {s : State} (inv : s.Inv) : (topRead s).Inv := by
  unfold topRead
  exact topEnd_inv inv

theorem topReclaim_inv {s : State} (inv : s.Inv) : (topReclaim s).Inv := topRun_inv inv fun _ _ h => topSet_inv (tagBank_inv h)

theorem tsInvalid_inv {s : State} {ctx t : Nat} (inv : s.Inv) : (tsInvalid s ctx t).Inv := by
  unfold tsInvalid
  split
  · exact ⟨memPut_wf _ _ inv.mem, inv.frame⟩
  · exact inv

theorem topRemove_inv {s : State} (inv : s.Inv) : (topRemove s).Inv := by
  unfold topRemove; dsimp only
  refine inv_ite (topEnd_inv inv) ?_
  split
  · exact topEnd_inv inv
  · exact inv_ite (topEnd_inv inv) (inv_ite (topEnd_inv inv) (inv_ite (topEnd_inv inv) (topEnd_inv (inv_upd (tsInvalid_inv inv)))))

theorem topUnmap_inv {s : State} (inv : s.Inv) : (topUnmap s).Inv := topRun_inv inv fun _ _ h => topSet_inv (tagBank_inv h)

theorem topGo_inv {s : State} {op : Nat} (inv : s.Inv) : (topGo s op).Inv := by
  unfold topGo
  split
  · exact topRead_inv inv
  · exact topMap_inv inv
  · exact topMapz_inv inv
  · exact topDiscard_inv inv
  · exact topReclaim_inv inv
  · exact topUnmap_inv inv
  · exact topMigrate_inv inv
  · exact topFwdclr_inv inv
  · exact topInstall_inv inv
  · exact topRemove_inv inv
  · exact topEnd_inv inv

/-! ## System -/

theorem regWrite_inv {s : State} {core site n : Nat} {r : PReg} {v : Word} (inv : s.Inv) : (regWrite s core site n r v).Inv := by
  unfold regWrite
  dsimp only
  split
  · exact pkgidPut_inv inv
  · exact setPreg_inv inv
  · exact setPreg_inv inv
  · exact topGo_inv inv
  · exact setPreg_inv inv
  · exact inv_ite (rfFail_inv inv) (rfRetry_inv inv)
  · exact inv_ite (roleAbort_inv inv) (roleStart_inv inv)
  · exact inv_ite inv (setPreg_inv inv)
  · exact inv_ite inv (setPreg_inv inv)
  · exact fwdinvPut_inv inv
  · exact setPreg_inv inv
  · exact setPreg_inv inv
  · exact setPreg_inv inv
  · exact setPreg_inv inv
  · exact setPreg_inv inv
  · exact inv_ite inv (setPreg_inv inv)
  · exact setPreg_inv inv
  · exact inv_upd inv
  · exact inv_upd inv
  · exact setCore_inv inv
  · exact setCore_inv inv
  · exact inv

theorem execPcsrw_inv {site : BitVec 8} {reg : BitVec 12} {a : BitVec 6} {s : State} (inv : s.Inv) :
    OutInv (execPcsrw site reg a s) := by
  unfold execPcsrw
  exact word_inv inv (fun _ _ h => pregStop_inv (fun _ => regWrite_inv h))

/-! ## MemEvents -/

theorem fenceLink_inv {s : State} {id : Nat} (inv : s.Inv) : (fenceLink s id).Inv := by
  unfold fenceLink
  dsimp only
  split
  · exact inv
  · exact takeFault_inv (setStreamAt_inv inv)

theorem execPeerAccessTimeout_inv {req : Nat} {s : State} (inv : s.Inv) : OutInv (execPeerAccessTimeout req s) := by
  unfold execPeerAccessTimeout
  refine outInv_next.mpr ?_
  split
  · exact fenceLink_inv inv
  · exact inv_ite (reqFault_inv inv) inv

/-! ## Peer -/

theorem execPeerInvalidation_inv {pkg : Nat} {frame : Word} {s : State} (inv : s.Inv) :
    OutInv (execPeerInvalidation pkg frame s) := by
  unfold execPeerInvalidation
  dsimp only
  exact outInv_next.mpr (sendPkg_inv (inv_upd inv))

theorem execPeerLeaseTimeout_inv {h : Nat} {s : State} (inv : s.Inv) : OutInv (execPeerLeaseTimeout h s) := by
  unfold execPeerLeaseTimeout
  refine outInv_next.mpr ?_
  split
  · exact inv_ite (refuseRun_inv inv) inv
  · exact inv

theorem peerUnpin_inv {s : State} {p : Nat × Nat × Nat × Nat × Nat} (inv : s.Inv) : (peerUnpin s p).Inv := by
  unfold peerUnpin
  exact foldl_inv inv (fun _ _ h => pinTile_inv h)

theorem pinAnswer_inv {s : State} {p : Nat × Nat × Nat × Nat × Nat} {kind : BitVec 2} (inv : s.Inv) : (pinAnswer s p kind).Inv := by
  unfold pinAnswer; dsimp only
  refine inv_ite (sendPkg_inv inv) (sendPkg_inv (foldl_inv (inv_upd inv) ?_))
  exact fun _ _ h => pinTile_inv h

theorem execPeerPinRequest_inv {pkg ctx tens first count : Nat} {kind : BitVec 2} {s : State} (inv : s.Inv) :
    OutInv (execPeerPinRequest pkg ctx tens first count kind s) := by
  unfold execPeerPinRequest
  dsimp only
  exact outInv_next.mpr (inv_ite (inv_ite (peerUnpin_inv (inv_upd inv)) (inv_upd inv)) (inv_ite (inv_upd inv)
    (pinAnswer_inv inv)))

theorem peerApply_inv {s : State} {q : PeerReq} (inv : s.Inv) : (peerApply s q).1.Inv := by
  unfold peerApply; dsimp only
  split
  · exact inv
  split
  · exact homeWrite_inv inv
  · exact homeWrite_inv (zeroFill_inv inv)

theorem execPeerRequest_inv {r : PeerReq} {s : State} (inv : s.Inv) : OutInv (execPeerRequest r s) := by
  unfold execPeerRequest
  dsimp only
  exact outInv_next.mpr (inv_ite (sendPkg_inv inv) (inv_ite (sendPkg_inv inv) (inv_ite (sendPkg_inv inv) (inv_ite
    (sendPkg_inv inv) (sendPkg_inv (hotSample_inv (peerApply_inv inv)))))))

/-! ## Sync -/

theorem execPhase_inv {a : BitVec 6} {scope : BitVec 3} {s : State} (inv : s.Inv) : OutInv (execPhase a scope s) := by
  refine word_inv inv fun c s inv => ?_
  dsimp only
  split
  · exact illegal_inv
  refine resinv_ite (resinv_ite illegal_inv (resinv_ite schedMiss_inv ?_)) (resinv_ite trivial (setCell_inv inv))
  have h := fun x l => addLatch_inv (key := c.key) (l := l) (setCell_inv (key := c.key) (c := x) inv)
  exact inv_ite (h _ _) (onStream_inv (h _ _))

/-! ## Landing -/

theorem phaseOver_inv {s : State} {k : Nat} (inv : s.Inv) : (phaseOver s k).Inv := by
  unfold phaseOver
  dsimp only
  exact setCell_inv inv

theorem phaseFenceOver_inv {s : State} {k : Nat} (inv : s.Inv) : (phaseFenceOver s k).Inv := by
  unfold phaseFenceOver
  dsimp only
  exact dropSects_inv (phaseOver_inv (setCell_inv inv))

theorem execPhaseEnd_inv {key : Nat} {s : State} (inv : s.Inv) : OutInv (execPhaseEnd key s) := by
  unfold execPhaseEnd; rw [outInv_next]
  split
  · refine foldl_inv (mergeAll_inv inv) ?_
    intro s k h
    exact inv_ite (phaseOver_inv h) h
  · exact inv_ite (phaseFenceOver_inv inv) inv

/-! ## Collective -/

theorem linkRounds_inv {s : State} {h : Nat} {lost : Nat → Bool} (inv : s.Inv) : (linkRounds s h lost).Inv := by
  unfold linkRounds
  exact endAll_inv inv

/-! ## Stop -/

theorem linkHalt_inv {s : State} {lost : Nat → Bool} (inv : s.Inv) : (linkHalt s lost).Inv := by
  unfold linkHalt
  refine foldl_inv inv ?_
  intro s p inv
  dsimp only
  split
  case h_6 => exact inv
  all_goals
    split
    · exact inv_ite (recordFault_inv (setReg_inv (linkRounds_inv inv))) (takeFault_inv (linkRounds_inv inv))
    · exact inv

theorem onModule_inv {s : State} {site m : Nat} {f : Module → Module} (inv : s.Inv) : (onModule s site m f).Inv := by
  unfold onModule
  exact inv_upd inv

theorem siteLost_inv {s : State} {site : Nat} (inv : s.Inv) : (siteLost s site).Inv := by
  unfold siteLost
  refine foldl_inv inv ?_
  intro s m inv
  dsimp only
  split
  · exact onModule_inv (onModule_inv inv)
  · exact onModule_inv inv

theorem lossUpdate_inv {s : State} {site m : Nat} (inv : s.Inv) : (lossUpdate s site m).Inv := by
  unfold lossUpdate
  split
  · exact mixUpdate_inv (clearStrat_inv inv)
  · dsimp only
    have h := inv_ite (c := m < moduleCount site) (onModule_inv (site := site) (m := m) (f := Module.hurt) inv) (siteLost_inv
      (site := site) inv)
    exact mixUpdate_inv (inv_ite (inv_upd (inv_upd h)) (inv_upd h))

theorem execPhyLinkLoss_inv {site : BitVec 8} {module : Nat} {s : State} (inv : s.Inv) :
    OutInv (execPhyLinkLoss site module s) := by
  unfold execPhyLinkLoss
  dsimp only
  exact outInv_next.mpr (inv_ite inv (lossUpdate_inv (linkHalt_inv inv)))

/-! ## System -/

theorem execPkgidWrite_inv {v : Word} {s : State} (inv : s.Inv) : OutInv (execPkgidWrite v s) := by
  unfold execPkgidWrite
  exact outInv_next.mpr (pkgidPut_inv inv)

/-! ## Stop -/

theorem execPlanRetire_inv {h : Nat} {s : State} (inv : s.Inv) : OutInv (execPlanRetire h s) := by
  unfold execPlanRetire; rw [outInv_next]
  dsimp only
  refine inv_ite inv (postEvent_inv (completeOpt_inv (completeOpt_inv (completeRun_inv (dropRegion_inv (endDebugs_inv
    (foldl_inv (mergeRegion_inv (settle_inv (landAllStop_inv inv))) ?_)))))))
  exact fun _ _ h => setCell_inv h

/-! ## Launch -/

theorem loadPlan_inv {s : State} {h : Nat} (inv : s.Inv) : (loadPlan s h).Inv := by
  unfold loadPlan; dsimp only
  refine foldl_inv inv ?_
  intro t x inv
  split
  · exact setCell_inv inv
  · exact inv

/-! ## Resume -/

theorem restoreCells_inv {s : State} {h : Nat} {rec : StopRec} (inv : s.Inv) : (restoreCells s h rec).Inv := by
  unfold restoreCells; dsimp only
  refine inv_upd (foldl_inv inv ?_)
  exact fun _ _ h => setCell_inv h

/-! ## Ops -/

theorem resumeAfter_inv {s : State} {h p : Nat} (inv : s.Inv) : (resumeAfter s h p).Inv := by
  unfold resumeAfter; dsimp only
  refine setReg_inv (foldl_inv inv ?_)
  exact fun _ _ h => setCell_inv h

/-! ## Stop -/

theorem startStub_inv {s : State} {k : Nat} (inv : s.Inv) : (startStub s k).Inv := by
  unfold startStub
  dsimp only
  split
  · exact inv
  · exact setCell_inv inv

/-! ## Resume -/

theorem restoreHalt_inv {s : State} {h : Nat} {rec : StopRec} (inv : s.Inv) : (restoreHalt s h rec).Inv := by
  unfold restoreHalt; dsimp only
  refine inv_ite (resumeAfter_inv (setReg_inv (restoreCells_inv inv))) (foldl_inv (setReg_inv (restoreCells_inv inv)) ?_)
  exact fun _ _ h => startStub_inv h

theorem restoreSlack_inv {s : State} {h : Nat} {rec : StopRec} (inv : s.Inv) : (restoreSlack s h rec).Inv := by
  unfold restoreSlack; dsimp only
  refine setReg_inv (foldl_inv (restoreCells_inv inv) ?_)
  exact fun _ _ h => setCell_inv h

theorem restore_inv {s : State} {h : Nat} (inv : s.Inv) : (restore s h).Inv := by
  unfold restore
  dsimp only
  split
  · exact inv
  · exact inv_ite (restoreSlack_inv inv) (restoreHalt_inv inv)

/-! ## Planes -/

theorem setPlane_inv {s : State} {site : Nat} {p : Plane} (inv : s.Inv) : (setPlane s site p).Inv := by
  unfold setPlane
  exact inv_upd inv

theorem swapPlanes_inv {s : State} {h : Nat} (inv : s.Inv) : (swapPlanes s h).Inv := by
  unfold swapPlanes
  dsimp only
  exact foldl_inv inv (fun _ _ h => setPlane_inv h)

/-! ## Launch -/

theorem execPlaneSwap_inv {h : Nat} {s : State} (inv : s.Inv) : OutInv (execPlaneSwap h s) := by
  unfold execPlaneSwap; rw [outInv_next]
  dsimp only
  refine inv_ite inv (inv_ite (setReg_inv (loadPlan_inv (setReg_inv ?h))) (restore_inv (setReg_inv ?h)))
  refine foldl_inv (swapPlanes_inv inv) ?_
  intro t p inv
  refine foldl_inv inv ?_
  exact fun _ _ h => setCell_inv h

/-! ## Scalar -/

theorem execPopc_inv {d a : BitVec 6} {s : State} (inv : s.Inv) : OutInv (execPopc d a s) := by
  unfold execPopc
  exact alu2_inv inv

/-! ## Firmware -/

theorem bootCores_inv {s : State} (inv : s.Inv) : (bootCores s).Inv := by
  unfold bootCores
  dsimp only
  exact setCore_inv (inv_upd inv)

theorem slack0Back_inv {s : State} (inv : s.Inv) : (slack0Back s).Inv := by
  unfold slack0Back
  exact foldl_inv inv (fun _ _ h => setPreg_inv h)

theorem execPowerOnReset_inv {s : State} (inv : s.Inv) : OutInv (execPowerOnReset s) := by
  unfold execPowerOnReset; rw [outInv_next]
  refine inv_ite inv ?_
  dsimp only
  refine inv_upd (bootCores_inv (measExtend_inv ?_))
  split
  · refine inv_ite (inv_upd (measImage_inv ?h)) (measImage_inv ?h)
    split
    · refine measImage_inv (measImage_inv (foldl_inv (foldl_inv (inv_upd (slack0Back_inv packageReset_inv)) ?_) ?_))
      · exact fun _ _ h => clearSite_inv h
      · exact fun _ _ h => clearStrat_inv h
    · refine inv_upd (measImage_inv (foldl_inv (foldl_inv (inv_upd (slack0Back_inv packageReset_inv)) ?_) ?_))
      · exact fun _ _ h => clearSite_inv h
      · exact fun _ _ h => clearStrat_inv h
  · split
    · refine measImage_inv (measImage_inv (foldl_inv (foldl_inv (inv_upd (slack0Back_inv packageReset_inv)) ?_) ?_))
      · exact fun _ _ h => clearSite_inv h
      · exact fun _ _ h => clearStrat_inv h
    · refine inv_upd (measImage_inv (foldl_inv (foldl_inv (inv_upd (slack0Back_inv packageReset_inv)) ?_) ?_))
      · exact fun _ _ h => clearSite_inv h
      · exact fun _ _ h => clearStrat_inv h

/-! ## Landing -/

theorem askStall_inv {s : State} {key : Nat} {q : Seq} {z : Nat} (inv : s.Inv) : (askStall s key q z).Inv := by
  unfold askStall
  dsimp only
  exact setReg_inv inv

theorem fetchAhead_inv {s : State} {key : Nat} {q : Seq} (inv : s.Inv) : (fetchAhead s key q).Inv := by
  unfold fetchAhead
  dsimp only
  exact inv_ite (setStreamAt_inv inv) inv

theorem execPredecode_inv {key : Nat} {q : Seq} {s : State} (inv : s.Inv) : OutInv (execPredecode key q s) := by
  unfold execPredecode
  dsimp only
  refine outInv_next.mpr (inv_ite (inv_ite (fetchAhead_inv inv) inv) ?_)
  split
  · exact inv
  refine inv_ite ?_ (setStreamAt_inv inv)
  split
  · exact setStreamAt_inv inv
  · exact askStall_inv (setStreamAt_inv inv)

/-! ## Access -/

theorem execPref_inv {ds : BitVec 3} {k : Toks} {s : State} (inv : s.Inv) : OutInv (execPref ds k s) := by
  unfold execPref
  dsimp only
  exact word_inv inv (fun _ _ h => gated_inv (orFault_inv (startAcc_inv h)))

/-! ## Host -/

theorem prioCmd_inv {s : State} {c : Cmd} (inv : s.Inv) : (prioCmd s c).Inv := by
  refine regionCmd_inv inv fun s h r inv => ?_
  exact inv_ite (answer_inv inv) (answer_inv (setReg_inv inv))

theorem execPrio_inv {c : Cmd} {s : State} (inv : s.Inv) : OutInv (execPrio c s) := by
  unfold execPrio
  exact outInv_next.mpr (prioCmd_inv (takeCmd_inv inv))

/-! ## Access -/

theorem sendChan_inv {s : State} {key dest : Nat} {ch : Chan} {v : BitVec 2048} {mark : Bool} {t : Nat} (inv : s.Inv) :
    (sendChan s key dest ch v mark t).Inv := by
  unfold sendChan
  dsimp only
  exact setCell_inv (inv_upd inv)

theorem execPush_inv {q : BitVec 4} {ch : BitVec 8} {k : Toks} {s : State} (inv : s.Inv) : OutInv (execPush q ch k s) := by
  refine word_inv inv fun c s inv => ?_
  dsimp only
  split
  · exact illegal_inv
  split
  · exact illegal_inv
  refine resinv_ite illegal_inv (Got.then_inv fun ⟨e, t⟩ h => ?_)
  exact withToks_inv (takeEntry_inv inv h) fun u h => sendChan_inv h

/-! ## Landing -/

theorem execPushDelivery_inv {key : Nat} {s : State} (inv : s.Inv) : OutInv (execPushDelivery key s) := by
  unfold execPushDelivery
  dsimp only
  refine outInv_next.mpr (inv_ite inv ?_)
  split
  · exact inv
  · exact inv_ite (takeFault_inv (setCell_inv inv)) (setQ_inv (setCell_inv inv))

/-! ## Access -/

theorem execPushR_inv {a : BitVec 6} {ch : BitVec 8} {k : Toks} {s : State} (inv : s.Inv) : OutInv (execPushR a ch k s) := by
  refine word_inv inv fun c s inv => ?_
  split
  · exact illegal_inv
  split
  · exact illegal_inv
  · exact resinv_ite illegal_inv (withToks_inv inv fun t h => sendChan_inv h)

/-! ## Queue -/

theorem execQcnt_inv {q : BitVec 4} {d : BitVec 6} {s : State} (inv : s.Inv) : OutInv (execQcnt q d s) := by
  unfold execQcnt
  exact word_inv inv (fun _ _ h => resinv_ite illegal_inv (landA_inv h))

/-! ## Host -/

theorem qcreateCmd_inv {s : State} {c : Cmd} (inv : s.Inv) : (qcreateCmd s c).Inv := by
  unfold qcreateCmd
  dsimp only
  exact inv_ite (answer_inv inv) (inv_ite (answer_inv inv) (answer_inv (setQueue_inv (hostPut_inv inv))))

theorem execQcreate_inv {c : Cmd} {s : State} (inv : s.Inv) : OutInv (execQcreate c s) := by
  unfold execQcreate
  exact outInv_next.mpr (qcreateCmd_inv (takeCmd_inv inv))

theorem qdestroyCmd_inv {s : State} {c : Cmd} (inv : s.Inv) : (qdestroyCmd s c).Inv := by
  unfold qdestroyCmd
  dsimp only
  refine inv_ite (answer_inv inv) ?_
  split
  · exact answer_inv inv
  · exact inv_ite (answer_inv inv) (setQueue_inv inv)

theorem execQdestroy_inv {c : Cmd} {s : State} (inv : s.Inv) : OutInv (execQdestroy c s) := by
  unfold execQdestroy
  exact outInv_next.mpr (qdestroyCmd_inv (takeCmd_inv inv))

/-! ## Queue -/

theorem entryToSpad_inv {s t : State} {c : Ctx} {off : Nat} {v : BitVec 2048} (inv : s.Inv) (e : entryToSpad s c off v = some t) :
    t.Inv := by
  unfold entryToSpad at e; split at e
  · cases e; exact addLatch_inv inv
  · exact spadStore_inv inv e

theorem takeWord_inv {q : BitVec 4} {d a : BitVec 6} {peek : Bool} {s : State} (inv : s.Inv) : OutInv (takeWord q d a peek s) := by
  refine word_inv inv fun c s inv => Got.then_inv fun ⟨e, t⟩ h => ?_
  have ht := takeEntry_inv inv h
  dsimp only
  refine resinv_ite (landA_inv ht) (resinv_ite accFault_inv (resinv_ite accFault_inv (watched_inv ?_)))
  split
  · exact entryToSpad_inv (spadHeal_inv ht) ‹_›
  · trivial

theorem execQpeek_inv {q : BitVec 4} {d a : BitVec 6} {s : State} (inv : s.Inv) : OutInv (execQpeek q d a s) := by
  unfold execQpeek
  exact takeWord_inv inv

theorem execQpop_inv {q : BitVec 4} {d a : BitVec 6} {s : State} (inv : s.Inv) : OutInv (execQpop q d a s) := by
  unfold execQpop
  exact takeWord_inv inv

theorem execQpush_inv {q : BitVec 4} {a : BitVec 6} {s : State} (inv : s.Inv) : OutInv (execQpush q a s) := by
  refine word_inv inv fun c s inv => Got.then_inv fun _ _ => ?_
  exact resinv_ite (landQ_inv inv) (resinv_ite accFault_inv (resinv_ite accFault_inv (watched_inv (landQ_inv inv))))

/-! ## Planes -/

theorem loadPlane_inv {s : State} {h site : Nat} (inv : s.Inv) : (loadPlane s h site).1.Inv := by
  unfold loadPlane; dsimp only
  split
  · exact inv
  · exact setPlane_inv inv

theorem loadPlanes_inv {s : State} {h : Nat} (inv : s.Inv) : (loadPlanes s h).1.Inv := by
  have hl := foldl_keeps (P := fun p : State × Nat => p.1.Inv) (f := fun x site => if x.2 = stOk then loadPlane x.1 h site else x)
    (fun x site hx => by split <;> [exact loadPlane_inv hx; exact hx]) (planeSites (regAt s h)) (s, stOk) inv
  unfold loadPlanes; dsimp only
  split
  · exact hl
  · exact foldl_inv hl fun _ _ h => unload_inv h

/-! ## Launch -/

theorem takeCells_inv {s : State} {h : Nat} (inv : s.Inv) : (takeCells s h).Inv := by
  unfold takeCells; dsimp only
  refine pinSlot_inv (foldl_inv (setReg_inv inv) ?_)
  exact fun _ _ h => setCell_inv h

theorem dispatch_inv {s : State} {h : Nat} (inv : s.Inv) : (dispatch s h).Inv := by
  have hl := loadPlanes_inv (h := h) (takeCells_inv (h := h) inv)
  unfold dispatch; dsimp only
  exact inv_ite (setReg_inv hl) (refuseRun_inv hl)

theorem schedStep_inv {s : State} (inv : s.Inv) : (schedStep s).Inv := by
  unfold schedStep
  split
  · exact inv
  · exact dispatch_inv inv
  · dsimp only
    refine setReg_inv (foldl_inv inv ?_)
    exact fun _ _ h => askYield_inv h

theorem execQuantumExpiry_inv {h : Nat} {s : State} (inv : s.Inv) : OutInv (execQuantumExpiry h s) := by
  unfold execQuantumExpiry
  dsimp only
  exact outInv_next.mpr (inv_ite (schedStep_inv inv) inv)

/-! ## Host -/

theorem execQueueSwitchIn_inv {queue : Nat} {s : State} (inv : s.Inv) : OutInv (execQueueSwitchIn queue s) := by
  unfold execQueueSwitchIn
  dsimp only
  refine outInv_next.mpr ?_
  split
  · exact inv
  · exact inv_ite inv (setQueue_inv inv)

theorem execQueueSwitchOut_inv {queue : Nat} {s : State} (inv : s.Inv) : OutInv (execQueueSwitchOut queue s) := by
  unfold execQueueSwitchOut
  refine outInv_next.mpr ?_
  split
  · exact inv
  · exact inv_ite inv (setQueue_inv inv)

/-! ## MemEvents -/

theorem growMark_inv {s : State} {o : Op} (inv : s.Inv) : (growMark s o).Inv := by
  unfold growMark
  exact inv_ite (setGs_inv inv) inv

theorem execQueueWaitTimeout_inv {op : Nat} {s : State} (inv : s.Inv) : OutInv (execQueueWaitTimeout op s) := by
  unfold execQueueWaitTimeout
  refine outInv_next.mpr ?_
  split
  · exact inv
  · exact inv_ite (opFault_inv (growMark_inv inv)) inv

/-! ## Firmware -/

theorem execQuote_inv {r : LhReq} {s : State} (inv : s.Inv) : OutInv (execQuote r s) := by
  refine outInv_next.mpr (lhServe_inv inv fun s inv => ?_)
  exact setCore_inv inv

/-! ## Access -/

theorem execRdq_inv {ds : BitVec 3} {q : BitVec 4} {k : Toks} {s : State} (inv : s.Inv) : OutInv (execRdq ds q k s) := by
  refine word_inv inv fun c s inv => gated_inv ?_
  dsimp only
  exact resinv_ite illegal_inv (orFault_inv (resinv_ite trivial (resinv_ite illegal_inv (startAcc_inv inv))))

theorem packWord_inv {kind : OpKind} {ds : BitVec 3} {a : BitVec 6} {k : Toks} {s : State} (inv : s.Inv) :
    OutInv (packWord kind ds a k s) := by
  refine word_inv inv fun c s inv => gated_inv ?_
  dsimp only
  exact orFault_inv (resinv_ite trivial (startAcc_inv inv))

theorem execRds_inv {ds : BitVec 3} {a : BitVec 6} {k : Toks} {s : State} (inv : s.Inv) : OutInv (execRds ds a k s) := by
  unfold execRds
  exact packWord_inv inv

/-! ## System -/

theorem execRdtide_inv {d : BitVec 6} {fn : BitVec 2} {s : State} (inv : s.Inv) : OutInv (execRdtide d fn s) := by
  refine word_inv inv fun c s inv => ?_
  dsimp only
  split
  · exact resinv_ite (landA_inv (freeNum_inv inv)) (landA_inv inv)
  · exact landA_inv inv
  · exact landA_inv inv
  · exact illegal_inv

/-! ## Peer -/

theorem pkgLost_inv {s : State} {pkg : Nat} (inv : s.Inv) : (pkgLost s pkg).Inv := by
  unfold pkgLost; dsimp only
  refine inv_upd (foldl_inv (inv_upd inv) ?_)
  exact fun _ _ h => peerUnpin_inv h

theorem execReachLinkDown_inv {link : Nat} {s : State} (inv : s.Inv) : OutInv (execReachLinkDown link s) := by
  unfold execReachLinkDown; rw [outInv_next]
  dsimp only
  refine inv_ite inv (inv_ite (pkgLost_inv (inv_ite (endAll_inv ?h) ?h)) (inv_ite (endAll_inv ?h) ?h))
  exact mixUpdate_inv (inv_upd (setPreg_inv inv))

/-! ## Tiles -/

theorem execReclaim_inv {s : State} (inv : s.Inv) : OutInv (execReclaim s) := by
  unfold execReclaim
  exact outInv_next.mpr (topReclaim_inv inv)

/-! ## Launch -/

theorem execRegionDispatch_inv {h : Nat} {s : State} (inv : s.Inv) : OutInv (execRegionDispatch h s) := by
  unfold execRegionDispatch
  exact outInv_next.mpr (inv_ite (schedStep_inv inv) inv)

/-! ## Landing -/

theorem execRegionFreeze_inv {h : Nat} {s : State} (inv : s.Inv) : OutInv (execRegionFreeze h s) := by
  unfold execRegionFreeze
  dsimp only
  exact outInv_next.mpr (inv_ite (setReg_inv inv) inv)

theorem execRegionStallResume_inv {h : Nat} {s : State} (inv : s.Inv) : OutInv (execRegionStallResume h s) := by
  unfold execRegionStallResume
  dsimp only
  exact outInv_next.mpr (inv_ite (setReg_inv inv) inv)

/-! ## Stop -/

theorem atStop_inv {s : State} {h : Nat} (inv : s.Inv) : (atStop s h).Inv := by
  unfold atStop
  dsimp only
  exact inv_ite inv (setReg_inv inv)

theorem debugPcs_inv {s : State} {h : Nat} (inv : s.Inv) : (debugPcs s h).Inv := by
  unfold debugPcs
  dsimp only
  exact setReg_inv inv

/-! ## Collective -/

theorem haltRounds_inv {s : State} {h : Nat} (inv : s.Inv) : (haltRounds s h).Inv := by
  unfold haltRounds
  refine foldl_inv inv ?_
  intro s p inv
  dsimp only
  split
  · exact inv
  · next o _ =>
    have h := addTok_inv (s := { (if o.units ∨ o.coll.kind = 5 then s else collStop s p.1 o 2) with
      ops := sdel (if o.units ∨ o.coll.kind = 5 then s else collStop s p.1 o 2).ops p.1 }) (key := o.key) (n := o.kd)
      (inv_upd (inv_ite inv (collStop_inv inv)))
    exact inv_ite h (takeFault_inv h)

/-! ## Stop -/

theorem inSkid_inv {s : State} {h : Nat} (inv : s.Inv) : (inSkid s h).Inv := by
  unfold inSkid
  dsimp only
  exact inv_ite inv (setReg_inv inv)

theorem primaryOnly_inv {s : State} {h : Nat} (inv : s.Inv) : (primaryOnly s h).Inv := by
  unfold primaryOnly
  dsimp only
  exact foldl_inv inv (fun _ _ h => setCell_inv h)

theorem setTraps_inv {s : State} {h : Nat} (inv : s.Inv) : (setTraps s h).Inv := by
  unfold setTraps
  dsimp only
  exact foldl_inv inv (fun _ _ h => setCell_inv h)

theorem stopWork_inv {s : State} {h : Nat} (inv : s.Inv) : (stopWork s h).Inv :=
  setTraps_inv (primaryOnly_inv (debugPcs_inv (haltRounds_inv (atStop_inv (settle_inv (inSkid_inv (landAllStop_inv inv)))))))

theorem stopRegion_inv {s : State} {h : Nat} (inv : s.Inv) : (stopRegion s h).Inv := by
  have hw := stopWork_inv (h := h) inv
  unfold stopRegion; dsimp only
  refine inv_ite (endRegion_inv hw) (inv_ite (yieldEnd_inv (putRecord_inv hw)) ?_)
  split
  · exact haltEnd_inv (putRecord_inv hw)
  · refine inv_ite (inv_ite (haltEnd_inv (putRecord_inv hw)) (setReg_inv (foldl_inv (putRecord_inv hw) ?_))) (haltEnd_inv
      (putRecord_inv hw))
    exact fun _ _ h => startStub_inv h

theorem stopStub_inv {s : State} {h : Nat} (inv : s.Inv) : (stopStub s h).Inv := by
  unfold stopStub
  dsimp only
  refine inv_ite ?_ (haltEnd_inv (putRecord_inv inv))
  split
  · exact haltEnd_inv (putRecord_inv inv)
  · exact haltEnd_inv inv

theorem execRegionStop_inv {h : Nat} {s : State} (inv : s.Inv) : OutInv (execRegionStop h s) := by
  unfold execRegionStop
  dsimp only
  refine outInv_next.mpr (inv_ite inv ?_)
  split
  · exact stopRegion_inv inv
  · exact stopRegion_inv inv
  · exact inv_ite (endRegion_inv (settle_inv inv)) (stopStub_inv (settle_inv inv))

/-! ## System -/

theorem execRegisterWrite_inv {core : Nat} {site : BitVec 8} {reg : BitVec 12} {v : Word} {s : State} (inv : s.Inv) :
    OutInv (execRegisterWrite core site reg v s) := by
  unfold execRegisterWrite
  refine outInv_next.mpr (inv_ite inv ?_)
  split
  · exact inv_ite (regWrite_inv inv) inv
  · exact inv

/-! ## Host -/

theorem execRegrd_inv {m : HostHdr} {reg : BitVec 8} {s : State} (inv : s.Inv) : OutInv (execRegrd m reg s) := by
  unfold execRegrd
  exact outInv_next.mpr (recvHost_inv inv)

theorem execRegwrQctlErr_inv {m : HostHdr} {v : Word} {s : State} (inv : s.Inv) : OutInv (execRegwrQctlErr m v s) := by
  unfold execRegwrQctlErr
  exact outInv_next.mpr (recvHost_inv inv)

theorem execRegwrQctlStop_inv {m : HostHdr} {v : Word} {s : State} (inv : s.Inv) : OutInv (execRegwrQctlStop m v s) := by
  unfold execRegwrQctlStop
  exact outInv_next.mpr (recvHost_inv inv)

theorem execRegwrQprog_inv {m : HostHdr} {v : Word} {s : State} (inv : s.Inv) : OutInv (execRegwrQprog m v s) := by
  unfold execRegwrQprog
  exact outInv_next.mpr (recvHost_inv inv)

theorem execRegwrQtail_inv {m : HostHdr} {v : Word} {s : State} (inv : s.Inv) : OutInv (execRegwrQtail m v s) := by
  unfold execRegwrQtail
  exact outInv_next.mpr (recvHost_inv inv)

/-! ## Firmware -/

theorem execRelockEnd_inv {s : State} (inv : s.Inv) : OutInv (execRelockEnd s) := by
  unfold execRelockEnd
  refine outInv_next.mpr ?_
  split
  · exact inv_ite (inv_upd inv) inv
  · exact inv

/-! ## Scalar -/

theorem execRem_inv {d a b : BitVec 6} {s : State} (inv : s.Inv) : OutInv (execRem d a b s) := by
  unfold execRem
  exact alu3_inv inv

/-! ## Tiles -/

theorem execRemove_inv {s : State} (inv : s.Inv) : OutInv (execRemove s) := by
  unfold execRemove
  exact outInv_next.mpr (topRemove_inv inv)

/-! ## Scalar -/

theorem execRemu_inv {d a b : BitVec 6} {s : State} (inv : s.Inv) : OutInv (execRemu d a b s) := by
  unfold execRemu
  exact alu3_inv inv

/-! ## Launch -/

theorem homeAnswer_inv {s : State} {conn seq status : Nat} (inv : s.Inv) : (homeAnswer s conn seq status).Inv := by
  unfold homeAnswer
  dsimp only
  split
  · exact inv
  · exact inv_ite (refuseRun_inv (setReg_inv inv)) (setReg_inv inv)

/-! ## Host -/

theorem execResp_inv {conn : Nat} {rseq : BitVec 32} {status : BitVec 8} {value : Word} {s : State} (inv : s.Inv) :
    OutInv (execResp conn rseq status value s) := by
  unfold execResp
  exact outInv_next.mpr (inv_ite (homeAnswer_inv inv) (sendResp_inv inv))

/-! ## Landing -/

theorem execResultLanding_inv {key : Nat} {s : State} (inv : s.Inv) : OutInv (execResultLanding key s) := by
  unfold execResultLanding; rw [outInv_next]
  split
  · exact inv
  split
  · exact inv
  · exact landAll_inv inv

/-! ## Launch -/

theorem resumeCmd_inv {s : State} {c : Cmd} (inv : s.Inv) : (resumeCmd s c).Inv := by
  unfold resumeCmd
  dsimp only
  refine inv_ite (answer_inv inv) ?_
  split
  · exact answer_inv inv
  split
  · exact answer_inv inv
  refine inv_ite (answer_inv inv) ?_
  split
  · exact answer_inv inv
  · exact inv_ite (answer_inv inv) (setReg_inv inv)

theorem execResume_inv {c : Cmd} {s : State} (inv : s.Inv) : OutInv (execResume c s) := by
  unfold execResume
  exact outInv_next.mpr (resumeCmd_inv (takeCmd_inv inv))

/-! ## Control -/

theorem execRet_inv {a : BitVec 6} {s : State} (inv : s.Inv) : OutInv (execRet a s) := by
  unfold execRet
  dsimp only
  exact word_inv inv (fun _ _ h => jumpTo_inv h)

/-! ## Firmware -/

theorem execRetrain_inv {r : LhReq} {s : State} (inv : s.Inv) : OutInv (execRetrain r s) := by
  unfold execRetrain
  dsimp only
  exact outInv_next.mpr (inv_ite (lhAnswer_inv inv) (inv_ite (lhAnswer_inv inv) (inv_ite (lhAnswer_inv inv) (inv_upd inv))))

/-! ## Ops -/

theorem returnFault_inv {s t : State} {key : Nat} {q : Seq} (inv : s.Inv) (e : returnFault s key q = some t) : t.Inv := by
  unfold returnFault at e; dsimp only at e
  split at e
  · split at e
    · cases e; exact setCore_inv inv
    · cases e
  split at e
  · split at e
    · cases e; exact setCell_inv inv
    · cases e; exact resumeAfter_inv (setCell_inv inv)
  · cases e

/-! ## Control -/

theorem execRett_inv {s : State} (inv : s.Inv) : OutInv (execRett s) := by
  refine word_inv inv fun c s inv => ?_
  split
  · exact returnFault_inv inv ‹_›
  · exact illegal_inv

/-! ## System -/

theorem execRfackFail_inv {h : Nat} {s : State} (inv : s.Inv) : OutInv (execRfackFail h s) := by
  unfold execRfackFail
  exact outInv_next.mpr (rfFail_inv inv)

theorem execRfackRetry_inv {h : Nat} {s : State} (inv : s.Inv) : OutInv (execRfackRetry h s) := by
  unfold execRfackRetry
  exact outInv_next.mpr (rfRetry_inv inv)

theorem execRfe1Read_inv {s : State} (inv : s.Inv) : OutInv (execRfe1Read s) := by
  unfold execRfe1Read
  exact outInv_next.mpr (inv_ite inv (rfPop_inv inv))

/-! ## Tiles -/

theorem execRoleChangeAbort_inv {s : State} (inv : s.Inv) : OutInv (execRoleChangeAbort s) := by
  unfold execRoleChangeAbort
  exact outInv_next.mpr (roleAbort_inv inv)

theorem execRoleChangeStart_inv {v : Word} {s : State} (inv : s.Inv) : OutInv (execRoleChangeStart v s) := by
  unfold execRoleChangeStart
  exact outInv_next.mpr (roleStart_inv inv)

theorem flushBanks_inv {s : State} {l : List Word} (inv : s.Inv) : (flushBanks s l).1.Inv := by
  induction l generalizing s with
  | nil => exact inv
  | cons f l ih =>
    unfold flushBanks; dsimp only
    split
    · exact ih inv
    split
    · exact ih (setEntry_inv (tagBank_inv inv))
    · exact inv

theorem zeroFrame_inv {s : State} {f : Word} (inv : s.Inv) : (zeroFrame s f).Inv := ⟨zeroFrame_wf f inv.mem, inv.frame⟩

theorem execRoleDrainDone_inv {s : State} (inv : s.Inv) : OutInv (execRoleDrainDone s) := by
  unfold execRoleDrainDone; rw [outInv_next]
  split
  · exact inv
  · next r _ =>
    have hb : (if r.role = 1 then flushBanks s (affected r.strat) else (s, true)).1.Inv := by
      split
      · exact flushBanks_inv inv
      · exact inv
    refine inv_ite inv (inv_ite (roleBack_inv hb) (setRole_inv (inv_upd (inv_ite (clearStratum_inv ?h) ?h))))
    refine foldl_inv hb ?_
    exact fun _ _ h => zeroFrame_inv h

/-! ## Scalar -/

theorem execRor_inv {d a b : BitVec 6} {s : State} (inv : s.Inv) : OutInv (execRor d a b s) := by
  unfold execRor
  exact alu3_inv inv

theorem execRori_inv {d a sh : BitVec 6} {s : State} (inv : s.Inv) : OutInv (execRori d a sh s) := by
  unfold execRori
  exact alu2_inv inv

/-! ## Gather -/

theorem walkWord_inv {kind : OpKind} {q : BitVec 3} {a b : BitVec 4} {mk : BitVec 1} {k : Toks} {s : State} (inv : s.Inv) :
    OutInv (walkWord kind q a b mk k s) := by
  refine word_inv inv fun c s inv => gated_inv ?_
  refine resinv_ite illegal_inv ?_
  split
  · trivial
  split
  · trivial
  · exact startCmd_inv inv

theorem execSample_inv {q : BitVec 3} {a b : BitVec 4} {mk : BitVec 1} {k : Toks} {s : State} (inv : s.Inv) :
    OutInv (execSample q a b mk k s) := by
  unfold execSample
  exact walkWord_inv inv

/-! ## Access -/

theorem execScat_inv {ds : BitVec 3} {q : BitVec 4} {a b : BitVec 6} {xf : BitVec 8} {k : Toks} {s : State} (inv : s.Inv) :
    OutInv (execScat ds q a b xf k s) := by
  refine word_inv inv fun c s inv => gated_inv ?_
  dsimp only
  exact resinv_ite illegal_inv (orFault_inv (resinv_ite trivial (startAcc_inv inv)))

/-! ## Firmware -/

theorem execSensorEvaluation_inv {readings : List (Nat × List (BitVec 10))} {s : State} (inv : s.Inv) :
    OutInv (execSensorEvaluation readings s) := by
  unfold execSensorEvaluation
  dsimp only
  exact outInv_next.mpr (inv_ite inv (inv_ite powerOff_inv (inv_ite (setForce_inv (inv_upd inv)) (inv_upd inv))))

theorem execSetboot_inv {r : LhReq} {s : State} (inv : s.Inv) : OutInv (execSetboot r s) := by
  refine outInv_next.mpr (lhServe_inv inv fun s inv => ?_)
  refine answer_inv_ite inv (answer_inv_ite inv (answer_inv_ite ?_ (answer_inv_ite ?_ ?_)))
  · exact inv_upd inv
  · exact setForce_inv (inv_upd (measImage_inv (startCore_inv (muteCore_inv (inv_upd inv)))))
  · exact restartCores_inv (inv_upd inv)

/-! ## Control -/

theorem slackFaults_inv {s : State} {c : Ctx} (inv : s.Inv) : (slackFaults s c).Inv := by
  unfold slackFaults
  refine foldl_inv inv ?_
  intro s k inv
  exact inv_ite inv (takeFault_inv inv)

theorem execSlack_inv {n : BitVec 16} {s : State} (inv : s.Inv) : OutInv (execSlack n s) := by
  unfold execSlack
  dsimp only
  exact word_inv inv (fun _ _ h => resinv_ite illegal_inv (resinv_ite (resinv_ite schedMiss_inv (inv_ite (slackFaults_inv
    (setReg_inv h)) (setReg_inv h))) (resinv_ite h (resinv_ite (onStream_inv h) h))))

/-! ## Stop -/

theorem execSlackDistance_inv {h : Nat} {s : State} (inv : s.Inv) : OutInv (execSlackDistance h s) := by
  unfold execSlackDistance
  dsimp only
  exact outInv_next.mpr (inv_ite (takeFault_inv inv) inv)

/-! ## Resume -/

theorem unrebuild_inv {s : State} {h : Nat} (inv : s.Inv) : (unrebuild s h).Inv := by
  unfold unrebuild
  dsimp only
  split
  · exact inv
  · exact foldl_inv inv (fun _ _ h => setCell_inv h)

theorem rebuildEnd_inv {s : State} {h : Nat} (inv : s.Inv) : (rebuildEnd s h).Inv := by
  unfold rebuildEnd
  dsimp only
  split
  · exact haltEnd_inv (putRecord_inv (settle_inv inv))
  · exact resumeAfter_inv (setReg_inv (unrebuild_inv inv))

theorem runAgain_inv {s : State} {h : Nat} (inv : s.Inv) : (runAgain s h).Inv := by
  unfold runAgain
  dsimp only
  exact setReg_inv inv

theorem slackRun_inv {s : State} {h : Nat} (inv : s.Inv) : (slackRun s h).Inv := by
  unfold slackRun; dsimp only
  refine setReg_inv (runAgain_inv (foldl_inv inv ?_))
  exact fun _ _ h => setCell_inv h

theorem execSlackResume_inv {h : Nat} {s : State} (inv : s.Inv) : OutInv (execSlackResume h s) := by
  unfold execSlackResume
  dsimp only
  exact outInv_next.mpr (inv_ite inv (inv_ite (rebuildEnd_inv inv) (slackRun_inv inv)))

/-! ## Stop -/

theorem execSlackSave_inv {h : Nat} {s : State} (inv : s.Inv) : OutInv (execSlackSave h s) := by
  unfold execSlackSave
  dsimp only
  exact outInv_next.mpr (inv_ite (saveYield_inv inv) inv)

/-! ## Scalar -/

theorem execSll_inv {d a b : BitVec 6} {s : State} (inv : s.Inv) : OutInv (execSll d a b s) := by
  unfold execSll
  exact alu3_inv inv

theorem execSlli_inv {d a sh : BitVec 6} {s : State} (inv : s.Inv) : OutInv (execSlli d a sh s) := by
  unfold execSlli
  exact alu2_inv inv

theorem execSlt_inv {d a b : BitVec 6} {s : State} (inv : s.Inv) : OutInv (execSlt d a b s) := by
  unfold execSlt
  exact alu3_inv inv

theorem execSlti_inv {d a : BitVec 6} {imm : BitVec 32} {s : State} (inv : s.Inv) : OutInv (execSlti d a imm s) := by
  unfold execSlti
  exact alu2_inv inv

theorem execSltiu_inv {d a : BitVec 6} {imm : BitVec 32} {s : State} (inv : s.Inv) : OutInv (execSltiu d a imm s) := by
  unfold execSltiu
  exact alu2_inv inv

theorem execSltu_inv {d a b : BitVec 6} {s : State} (inv : s.Inv) : OutInv (execSltu d a b s) := by
  unfold execSltu
  exact alu3_inv inv

theorem execSra_inv {d a b : BitVec 6} {s : State} (inv : s.Inv) : OutInv (execSra d a b s) := by
  unfold execSra
  exact alu3_inv inv

theorem execSrai_inv {d a sh : BitVec 6} {s : State} (inv : s.Inv) : OutInv (execSrai d a sh s) := by
  unfold execSrai
  exact alu2_inv inv

theorem execSrl_inv {d a b : BitVec 6} {s : State} (inv : s.Inv) : OutInv (execSrl d a b s) := by
  unfold execSrl
  exact alu3_inv inv

theorem execSrli_inv {d a sh : BitVec 6} {s : State} (inv : s.Inv) : OutInv (execSrli d a sh s) := by
  unfold execSrli
  exact alu2_inv inv

/-! ## ScalarMem -/

theorem stBody_inv {rel : Bool} {sz : BitVec 2} {imm : BitVec 32} {base data : Word} {c : Ctx} {s : State} (inv : s.Inv) :
    (stBody rel sz imm base data c s).Inv := by
  unfold stBody; dsimp only
  split
  · refine resinv_ite illegal_inv ?_
    split
    · exact accFault_inv
    refine resinv_ite accFault_inv (watched_inv ?_)
    split
    · exact storeAt_inv (spadHeal_inv inv) ‹_›
    · trivial
  · split
    · exact accFault_inv
    · exact resinv_ite accFault_inv (watched_inv (sectStoreReq_inv (issueReq_inv inv)))

theorem execSt_inv {d a : BitVec 6} {sz : BitVec 2} {imm : BitVec 32} {s : State} (inv : s.Inv) :
    OutInv (execSt d a sz imm s) := by
  unfold execSt
  exact word_inv inv (fun _ _ h => stBody_inv h)

theorem execStRel_inv {d a : BitVec 6} {sz : BitVec 2} {imm : BitVec 32} {s : State} (inv : s.Inv) :
    OutInv (execStRel d a sz imm s) := by
  unfold execStRel
  exact word_inv inv (fun _ _ h => stBody_inv h)

/-! ## Peer -/

theorem dropPtc_inv {s : State} {ctx tens tile : Nat} (inv : s.Inv) : (dropPtc s ctx tens tile).Inv := by
  unfold dropPtc
  exact inv_upd inv

theorem execStaleFrame_inv {req : Nat} {s : State} (inv : s.Inv) : OutInv (execStaleFrame req s) := by
  unfold execStaleFrame
  dsimp only
  refine outInv_next.mpr ?_
  split
  · exact inv
  · exact inv_ite inv (inv_ite (reqFault_inv (dropPtc_inv inv)) (setReq_inv (dropPtc_inv inv)))

/-! ## Landing -/

theorem clearShort_inv {s : State} {key : Nat} {q : Seq} (inv : s.Inv) : (clearShort s key q).Inv := by
  unfold clearShort
  dsimp only
  exact setStreamAt_inv inv

theorem execStallRelease_inv {key : Nat} {q : Seq} {s : State} (inv : s.Inv) : OutInv (execStallRelease key q s) := by
  unfold execStallRelease
  dsimp only
  exact outInv_next.mpr (inv_ite (setReg_inv (clearShort_inv inv)) inv)

theorem execStallTimeout_inv {h : Nat} {s : State} (inv : s.Inv) : OutInv (execStallTimeout h s) := by
  unfold execStallTimeout
  dsimp only
  exact outInv_next.mpr (inv_ite (inv_ite (takeFault_inv inv) (setReg_inv (takeFault_inv inv))) inv)

/-! ## Control -/

theorem execStart_inv {s : State} (inv : s.Inv) : OutInv (execStart s) := by
  unfold execStart
  dsimp only
  exact word_inv inv (fun _ _ h => resinv_ite illegal_inv (setReg_inv (onStream_inv h)))

/-! ## Landing -/

theorem execStartWaitTimeout_inv {h : Nat} {s : State} (inv : s.Inv) : OutInv (execStartWaitTimeout h s) := by
  unfold execStartWaitTimeout
  dsimp only
  exact outInv_next.mpr (inv_ite (takeFault_inv inv) inv)

/-! ## Matrix -/

theorem stripStep_inv {s : State} {key : Nat} (inv : s.Inv) : (stripStep s key).Inv := by
  unfold stripStep; dsimp only
  split
  · exact inv
  split
  · refine inv_ite (inv_ite inv (takeFault_inv (setMx_inv inv))) (inv_ite (tokenFor_inv ?h) ?h)
    exact setMx_inv (setQ_inv inv)
  split
  · exact inv_ite inv (takeFault_inv (setMx_inv inv))
  · split
    · exact takeFault_inv (setMx_inv (setQ_inv inv))
    split
    · exact addLatch_inv (addLatch_inv (setMx_inv (setQ_inv inv)))
    · exact addLatch_inv (setMx_inv (setQ_inv inv))

theorem execStripEntryLanding_inv {key : Nat} {s : State} (inv : s.Inv) : OutInv (execStripEntryLanding key s) := by
  unfold execStripEntryLanding
  exact outInv_next.mpr (stripStep_inv inv)

/-! ## Resume -/

theorem redoArrive_inv {d : BitVec 6} {wait : Bool} {e : Shadow} {c : Ctx} {s : State} (inv : s.Inv) :
    (redoArrive d wait e c s).Inv := by
  unfold redoArrive
  split
  · exact againFault_inv
  dsimp only
  split
  · exact againFault_inv
  · have h := arriveOn_inv inv ‹_›
    refine inv_ite (addLatch_inv ?h) ?h
    exact inv_ite h (addLatch_inv h)

theorem redoPop_inv {q : Nat} {peek : Bool} {e : Shadow} {c : Ctx} {s : State} (inv : s.Inv) : (redoPop q peek e c s).Inv := by
  unfold redoPop; dsimp only
  refine resinv_ite againFault_inv (resinv_ite againFault_inv ?_)
  split
  · exact entryToSpad_inv (spadHeal_inv (inv_ite inv (setQ_inv inv))) ‹_›
  · trivial

theorem redoPush_inv {q : Nat} {e : Shadow} {c : Ctx} {s : State} (inv : s.Inv) : (redoPush q e c s).Inv := by
  unfold redoPush
  dsimp only
  exact resinv_ite againFault_inv (resinv_ite againFault_inv (landQ_inv inv))

theorem redoBody_inv {e : Shadow} {c : Ctx} {s : State} (inv : s.Inv) : (redoBody e c s).Inv := by
  unfold redoBody
  split
  · exact inv
  split
  · exact ldBody_inv inv
  · exact stBody_inv inv
  · exact stBody_inv inv
  · exact faddwBody_inv inv
  · exact atomicBody_inv inv
  · exact atomicBody_inv inv
  · exact vldBody_inv inv
  · exact vldBody_inv inv
  · exact vstBody_inv inv
  · exact vstBody_inv inv
  · exact dldBody_inv inv
  · exact redoArrive_inv inv
  · exact redoArrive_inv inv
  · exact redoPush_inv inv
  · exact redoPop_inv inv
  · exact redoPop_inv inv
  · exact inv

theorem redoShadow_inv {s : State} {key : Nat} {e : Shadow} (inv : s.Inv) : (redoShadow s key e).Inv := by
  unfold redoShadow; dsimp only
  split
  · next hb => exact Res.inv_of_eq hb (redoBody_inv (inv_upd inv))
  · next hb => exact Res.inv_of_eq hb (redoBody_inv (inv_upd inv))
  · exact takeFault_inv (inv_upd inv)
  · next hb => exact takeFault_inv (Res.inv_of_eq hb (redoBody_inv (inv_upd inv)))
  · exact inv_upd inv

theorem redoAll_inv {s : State} {h : Nat} (inv : s.Inv) : (redoAll s h).Inv := by
  unfold redoAll
  refine foldl_inv inv ?_
  intro s k inv
  refine foldl_inv (setCell_inv inv) ?_
  exact fun _ _ h => redoShadow_inv h

theorem resumeRun_inv {s : State} {h stopPer : Nat} (inv : s.Inv) : (resumeRun s h stopPer).Inv := by
  unfold resumeRun; dsimp only
  refine redoAll_inv (runAgain_inv (inv_upd (foldl_inv inv ?_)))
  exact fun _ _ h => setCell_inv (dropSects_inv h)

theorem execStubResume_inv {h : Nat} {s : State} (inv : s.Inv) : OutInv (execStubResume h s) := by
  unfold execStubResume
  dsimp only
  exact outInv_next.mpr (inv_ite (resumeRun_inv inv) inv)

/-! ## Scalar -/

theorem execSub_inv {d a b : BitVec 6} {s : State} (inv : s.Inv) : OutInv (execSub d a b s) := by
  unfold execSub
  exact alu3_inv inv

/-! ## Stratum -/

theorem execSvadd_inv {f : VecF} {s : State} (inv : s.Inv) : OutInv (execSvadd f s) := by
  unfold execSvadd
  exact laneWord_inv inv

theorem execSvfma_inv {f : VecF} {s : State} (inv : s.Inv) : OutInv (execSvfma f s) := by
  unfold execSvfma
  exact laneWord_inv inv

/-! ## Tiles -/

theorem execSwitchover_inv {i : Nat} {s : State} (inv : s.Inv) : OutInv (execSwitchover i s) := by
  unfold execSwitchover; rw [outInv_next]
  split
  · exact inv
  dsimp only
  refine inv_ite inv (inv_ite (migAbandon_inv inv) ?_)
  refine foldl_inv (setEntry_inv (inv_upd (tagBank_inv (foldl_inv inv ?_)))) ?_
  · exact fun _ _ h => copySector_inv h
  · exact fun _ _ h => sendPkg_inv h

/-! ## Sync -/

theorem execSynci_inv {s : State} (inv : s.Inv) : OutInv (execSynci s) := by
  refine word_inv inv fun c s inv => ?_
  dsimp only
  refine inv_ite (onStream_inv ?h) (setCell_inv ?h)
  exact dropSects_inv (freeNum_inv inv)

/-! ## Scalar -/

theorem execTamk_inv {d a b : BitVec 6} {s : State} (inv : s.Inv) : OutInv (execTamk d a b s) := by
  unfold execTamk
  exact alu3_inv inv

/-! ## Task -/

theorem setNest_inv {s : State} {h i : Nat} {n : Nest} (inv : s.Inv) : (setNest s h i n).Inv := by
  unfold setNest
  dsimp only
  exact setReg_inv inv

theorem finishNest_inv {s : State} {h i : Nat} {n : Nest} (inv : s.Inv) : (finishNest s h i n).Inv := by
  unfold finishNest
  dsimp only
  exact inv_ite (hostPut_inv (setNest_inv inv)) (setNest_inv inv)

theorem startInput_inv {s : State} {h key : Nat} {p : Word × Word} (inv : s.Inv) : (startInput s h key p).Inv := by
  unfold startInput
  dsimp only
  exact inv_upd (fresh_inv inv)

theorem handOut_inv {s : State} {h i : Nat} {n : Nest} {key : Nat} (inv : s.Inv) : (handOut s h i n key).Inv := by
  unfold handOut; dsimp only
  refine inv_ite (setCell_inv (writeA_inv ?h)) (foldl_inv (setCell_inv (writeA_inv ?h)) ?_)
  · refine foldl_inv (setNest_inv inv) ?_
    exact fun _ _ h => writeA_inv h
  · intro s p h
    split
    · exact startInput_inv h
    · exact h

theorem execTaskDispatch_inv {h : Nat} {ldie : Nat} {s : State} (inv : s.Inv) : OutInv (execTaskDispatch h ldie s) := by
  unfold execTaskDispatch
  dsimp only
  refine outInv_next.mpr (inv_ite inv ?_)
  split
  · refine inv_ite ?_ (finishNest_inv inv)
    split
    · exact handOut_inv inv
    · exact inv
  · exact inv

theorem taskArrive_inv {s : State} {key : Nat} {n : Nest} (inv : s.Inv) : (taskArrive s key n).1.Inv := by
  unfold taskArrive; dsimp only
  split
  · exact inv
  split
  · exact inv
  split
  · exact inv
  split
  · exact arriveOn_inv inv ‹_›
  · exact inv

theorem execTaskEnd_inv {key : Nat} {s : State} (inv : s.Inv) : OutInv (execTaskEnd key s) := by
  unfold execTaskEnd
  dsimp only
  refine outInv_next.mpr (inv_ite inv ?_)
  split
  · exact inv
  · exact finishNest_inv (setCell_inv (taskArrive_inv inv))

theorem execTaskStart_inv {key : Nat} {s : State} (inv : s.Inv) : OutInv (execTaskStart key s) := by
  unfold execTaskStart
  dsimp only
  refine outInv_next.mpr (inv_ite inv ?_)
  split
  · exact inv
  · exact setCell_inv (dropSects_inv inv)

/-! ## ScalarMem -/

theorem execTcoord_inv {d a b : BitVec 6} {dim : BitVec 3} {s : State} (inv : s.Inv) : OutInv (execTcoord d a b dim s) := by
  refine word_inv inv fun c s inv => ?_
  refine resinv_ite illegal_inv ?_
  split
  · trivial
  · exact landA_inv inv

theorem execTdim_inv {d a : BitVec 6} {sel : BitVec 7} {s : State} (inv : s.Inv) : OutInv (execTdim d a sel s) := by
  refine word_inv inv fun c s inv => ?_
  refine resinv_ite illegal_inv ?_
  split
  · trivial
  · exact landA_inv inv

/-! ## Firmware -/

theorem execThermalTrip_inv {site : BitVec 8} {i j : Nat × BitVec 10} {s : State} (inv : s.Inv) :
    OutInv (execThermalTrip site i j s) := by
  unfold execThermalTrip
  exact outInv_next.mpr (inv_ite powerOff_inv inv)

/-! ## Tiles -/

theorem execTileRead_inv {s : State} (inv : s.Inv) : OutInv (execTileRead s) := by
  unfold execTileRead
  exact outInv_next.mpr (topRead_inv inv)

/-! ## Sync -/

theorem execTokw_inv {k1 k2 k3 : BitVec 5} {s : State} (inv : s.Inv) : OutInv (execTokw k1 k2 k3 s) := by
  refine word_inv inv fun c s inv => ?_
  split
  · exact takeToks_inv inv ‹_›
  · exact tokShort_inv

/-! ## Control -/

theorem execTrap_inv {code : BitVec 16} {s : State} (inv : s.Inv) : OutInv (execTrap code s) := by
  unfold execTrap
  exact word_inv inv (fun _ _ h => trivial)

/-! ## Level -/

theorem turnLevel_inv {s : State} (inv : s.Inv) : (turnLevel s).Inv := by
  unfold turnLevel
  dsimp only
  exact inv_ite (inv_upd (setForced_inv inv)) (inv_ite (setLevel_inv inv) inv)

/-! ## Control -/

theorem execTurn_inv {n : BitVec 16} {s : State} (inv : s.Inv) : OutInv (execTurn n s) := by
  refine word_inv inv fun c s inv => ?_
  dsimp only
  split
  · exact illegal_inv
  · exact resinv_ite schedMiss_inv (jumpTo_inv (inv_ite (setReg_inv (turnLevel_inv inv)) inv))

/-! ## Fleet -/

theorem execUnassignedOpcode_inv {w : Word} {s : State} (inv : s.Inv) : OutInv (execUnassignedOpcode w s) := by
  unfold execUnassignedOpcode
  exact word_inv (inv_upd inv) (fun _ _ h => illegal_inv)

/-! ## Tiles -/

theorem execUnmap_inv {s : State} (inv : s.Inv) : OutInv (execUnmap s) := by
  unfold execUnmap
  exact outInv_next.mpr (topUnmap_inv inv)

/-! ## Vector -/

theorem vf1_inv {f : VecF} {latency : Nat} {g : FFmt → Nat → Nat → Nat} {s : State} (inv : s.Inv) :
    OutInv (vf1 f latency g s) := by
  unfold vf1
  exact laneWord_inv inv

theorem execVabs_inv {f : VecF} {s : State} (inv : s.Inv) : OutInv (execVabs f s) := by
  unfold execVabs
  exact vf1_inv inv

theorem vf2_inv {f : VecF} {latency : Nat} {g : FFmt → Nat → Nat → Nat → Nat} {s : State} (inv : s.Inv) :
    OutInv (vf2 f latency g s) := by
  unfold vf2
  exact laneWord_inv inv

theorem execVadd_inv {f : VecF} {s : State} (inv : s.Inv) : OutInv (execVadd f s) := by
  unfold execVadd
  exact vf2_inv inv

theorem execVand_inv {f : VecF} {s : State} (inv : s.Inv) : OutInv (execVand f s) := by
  unfold execVand
  exact laneWord_inv inv

theorem execVbcast_inv {f : VecF} {s : State} (inv : s.Inv) : OutInv (execVbcast f s) := by
  unfold execVbcast; dsimp only
  refine lanesOver_inv inv fun c u vs h => ?_
  exact landLanes_inv h

/-! ## Operands -/

theorem landM_inv {s : State} {c : Ctx} {r : Nat} {v : BitVec 256} {latency : Nat} (inv : s.Inv) :
    (landM s c r v latency).Inv := by
  unfold landM
  exact inv_ite (addLatch_inv inv) (writeM_inv inv)

/-! ## Vector -/

theorem vcmpWord_inv {kind : Nat} {f : VecF} {s : State} (inv : s.Inv) : OutInv (vcmpWord kind f s) := by
  refine word_inv inv fun c s inv => Got.then_inv fun ⟨vs, t⟩ h => ?_
  exact landM_inv (readSrcs_inv inv h)

theorem execVcmpeq_inv {f : VecF} {s : State} (inv : s.Inv) : OutInv (execVcmpeq f s) := by
  unfold execVcmpeq
  exact vcmpWord_inv inv

theorem execVcmple_inv {f : VecF} {s : State} (inv : s.Inv) : OutInv (execVcmple f s) := by
  unfold execVcmple
  exact vcmpWord_inv inv

theorem execVcmplt_inv {f : VecF} {s : State} (inv : s.Inv) : OutInv (execVcmplt f s) := by
  unfold execVcmplt
  exact vcmpWord_inv inv

theorem execVcmpne_inv {f : VecF} {s : State} (inv : s.Inv) : OutInv (execVcmpne f s) := by
  unfold execVcmpne
  exact vcmpWord_inv inv

theorem execVcos_inv {f : VecF} {s : State} (inv : s.Inv) : OutInv (execVcos f s) := by
  unfold execVcos
  exact vf1_inv inv

theorem execVcvt_inv {f : VecF} {s : State} (inv : s.Inv) : OutInv (execVcvt f s) := by
  unfold execVcvt
  exact cvtWord_inv inv

theorem execVdeq_inv {f : VecF} {s : State} (inv : s.Inv) : OutInv (execVdeq f s) := by
  refine lanesWord_inv inv fun c u vs h => ?_
  exact resinv_ite trivial (landLanes_inv h)

theorem execVdiv_inv {f : VecF} {s : State} (inv : s.Inv) : OutInv (execVdiv f s) := by
  unfold execVdiv
  exact vf2_inv inv

theorem execVexp2_inv {f : VecF} {s : State} (inv : s.Inv) : OutInv (execVexp2 f s) := by
  unfold execVexp2
  exact vf1_inv inv

/-! ## Stratum -/

theorem execVfcnt_inv {d : BitVec 6} {p : BitVec 1} {s : State} (inv : s.Inv) : OutInv (execVfcnt d p s) := by
  unfold execVfcnt
  dsimp only
  exact word_inv inv (fun _ _ h => resinv_ite illegal_inv (Got.then_inv (fun _ k => landVec_inv h)))

/-! ## Vector -/

theorem execVfma_inv {f : VecF} {s : State} (inv : s.Inv) : OutInv (execVfma f s) := by
  unfold execVfma
  exact laneWord_inv inv

theorem execVfms_inv {f : VecF} {s : State} (inv : s.Inv) : OutInv (execVfms f s) := by
  unfold execVfms
  exact laneWord_inv inv

/-! ## Stratum -/

theorem execVfpop_inv {d : BitVec 6} {s : State} (inv : s.Inv) : OutInv (execVfpop d s) := by
  refine word_inv inv fun c s inv => ?_
  refine resinv_ite illegal_inv (Got.then_inv fun _ _ => ?_)
  split
  · trivial
  · exact resinv_ite trivial (landVec_inv (setFifo_inv inv))

theorem execVfpush_inv {a : BitVec 6} {s : State} (inv : s.Inv) : OutInv (execVfpush a s) := by
  refine word_inv inv fun c s inv => ?_
  refine resinv_ite illegal_inv (Got.then_inv fun ⟨v, t⟩ h => ?_)
  exact resinv_ite trivial (setFifo_inv (readSrc_inv inv h))

theorem execVfpushn_inv {d a : BitVec 6} {s : State} (inv : s.Inv) : OutInv (execVfpushn d a s) := by
  refine word_inv inv fun c s inv => ?_
  refine resinv_ite illegal_inv (Got.then_inv fun ⟨v, t⟩ h => Got.then_inv fun _ _ => ?_)
  have ht := readSrc_inv inv h
  exact landVec_inv (inv_ite (setFifo_inv ht) ht)

/-! ## Vector -/

theorem vi2_inv {f : VecF} {latency : Nat} {g : Int → Int → Int} {s : State} (inv : s.Inv) : OutInv (vi2 f latency g s) := by
  unfold vi2
  dsimp only
  exact laneWord_inv inv

theorem execViadd_inv {f : VecF} {s : State} (inv : s.Inv) : OutInv (execViadd f s) := by
  unfold execViadd
  exact vi2_inv inv

theorem execVidx_inv {f : VecF} {s : State} (inv : s.Inv) : OutInv (execVidx f s) := by
  unfold execVidx
  dsimp only
  exact word_inv inv (fun _ _ h => Got.then_inv (fun _ k => landLanes_inv h))

theorem execVimax_inv {f : VecF} {s : State} (inv : s.Inv) : OutInv (execVimax f s) := by
  unfold execVimax
  exact vi2_inv inv

theorem execVimin_inv {f : VecF} {s : State} (inv : s.Inv) : OutInv (execVimin f s) := by
  unfold execVimin
  exact vi2_inv inv

theorem execVimul_inv {f : VecF} {s : State} (inv : s.Inv) : OutInv (execVimul f s) := by
  unfold execVimul
  exact vi2_inv inv

theorem execVisub_inv {f : VecF} {s : State} (inv : s.Inv) : OutInv (execVisub f s) := by
  unfold execVisub
  exact vi2_inv inv

theorem execVld_inv {d a : BitVec 6} {imm : BitVec 32} {s : State} (inv : s.Inv) : OutInv (execVld d a imm s) := by
  unfold execVld
  exact vldWord_inv inv

theorem execVli_inv {d : BitVec 6} {t : BitVec 3} {imm : BitVec 32} {s : State} (inv : s.Inv) : OutInv (execVli d t imm s) := by
  unfold execVli
  dsimp only
  exact word_inv inv (fun _ _ h => Got.then_inv (fun _ k => landVec_inv h))

theorem execVlog2_inv {f : VecF} {s : State} (inv : s.Inv) : OutInv (execVlog2 f s) := by
  unfold execVlog2
  exact vf1_inv inv

theorem maskWord_inv {f : VecF} {g : BitVec 256 → BitVec 256 → BitVec 256} {s : State} (inv : s.Inv) :
    OutInv (maskWord f g s) := by
  unfold maskWord
  dsimp only
  exact word_inv inv (fun _ _ h => landM_inv h)

theorem execVmand_inv {f : VecF} {s : State} (inv : s.Inv) : OutInv (execVmand f s) := by
  unfold execVmand
  exact maskWord_inv inv

theorem execVmax_inv {f : VecF} {s : State} (inv : s.Inv) : OutInv (execVmax f s) := by
  unfold execVmax
  exact vf2_inv inv

theorem execVmcnt_inv {f : VecF} {s : State} (inv : s.Inv) : OutInv (execVmcnt f s) := by
  unfold execVmcnt
  dsimp only
  exact word_inv inv (fun _ _ h => Got.then_inv (fun _ k => landVec_inv h))

theorem execVmin_inv {f : VecF} {s : State} (inv : s.Inv) : OutInv (execVmin f s) := by
  unfold execVmin
  exact vf2_inv inv

theorem execVmnot_inv {f : VecF} {s : State} (inv : s.Inv) : OutInv (execVmnot f s) := by
  unfold execVmnot
  exact maskWord_inv inv

theorem execVmor_inv {f : VecF} {s : State} (inv : s.Inv) : OutInv (execVmor f s) := by
  unfold execVmor
  exact maskWord_inv inv

theorem execVmov_inv {f : VecF} {s : State} (inv : s.Inv) : OutInv (execVmov f s) := by
  unfold execVmov
  exact movWord_inv inv

theorem execVmset_inv {f : VecF} {s : State} (inv : s.Inv) : OutInv (execVmset f s) := by
  refine word_inv inv fun c s inv => ?_
  refine resinv_ite (landM_inv inv) (Got.then_inv fun ⟨vs, t⟩ h => ?_)
  exact landM_inv (readSrcs_inv inv h)

theorem execVmul_inv {f : VecF} {s : State} (inv : s.Inv) : OutInv (execVmul f s) := by
  unfold execVmul
  exact vf2_inv inv

theorem execVnapply_inv {f : VecF} {s : State} (inv : s.Inv) : OutInv (execVnapply f s) := by
  refine lanesWord_inv inv fun c u vs h => ?_
  exact landLanes_inv h

theorem execVneg_inv {f : VecF} {s : State} (inv : s.Inv) : OutInv (execVneg f s) := by
  unfold execVneg
  exact vf1_inv inv

theorem execVnmean_inv {f : VecF} {s : State} (inv : s.Inv) : OutInv (execVnmean f s) := by
  refine lanesWord_inv inv fun c u vs h => ?_
  exact landVec_inv h

theorem execVnot_inv {f : VecF} {s : State} (inv : s.Inv) : OutInv (execVnot f s) := by
  unfold execVnot
  exact laneWord_inv inv

theorem execVnvar_inv {f : VecF} {s : State} (inv : s.Inv) : OutInv (execVnvar f s) := by
  refine lanesWord_inv inv fun c u vs h => ?_
  exact landVec_inv h

theorem execVor_inv {f : VecF} {s : State} (inv : s.Inv) : OutInv (execVor f s) := by
  unfold execVor
  exact laneWord_inv inv

theorem execVperm_inv {f : VecF} {s : State} (inv : s.Inv) : OutInv (execVperm f s) := by
  refine lanesWord_inv inv fun c u vs h => ?_
  exact landLanes_inv h

theorem execVquant_inv {f : VecF} {s : State} (inv : s.Inv) : OutInv (execVquant f s) := by
  refine lanesWord_inv inv fun c u vs h => ?_
  exact landVec_inv h

theorem execVrcp_inv {f : VecF} {s : State} (inv : s.Inv) : OutInv (execVrcp f s) := by
  unfold execVrcp
  exact vf1_inv inv

theorem redWord_inv {g : List (Option Nat) → Nat} {f : VecF} {s : State} (inv : s.Inv) : OutInv (redWord g f s) := by
  refine lanesWord_inv inv fun c u vs h => ?_
  exact landVec_inv h

theorem execVredmax_inv {f : VecF} {s : State} (inv : s.Inv) : OutInv (execVredmax f s) := by
  unfold execVredmax
  exact redWord_inv inv

theorem execVredmin_inv {f : VecF} {s : State} (inv : s.Inv) : OutInv (execVredmin f s) := by
  unfold execVredmin
  exact redWord_inv inv

theorem execVredsum_inv {f : VecF} {s : State} (inv : s.Inv) : OutInv (execVredsum f s) := by
  unfold execVredsum
  exact redWord_inv inv

theorem execVrot_inv {f : VecF} {s : State} (inv : s.Inv) : OutInv (execVrot f s) := by
  unfold execVrot; dsimp only
  refine lanesOver_inv inv fun c u vs h => ?_
  exact landLanes_inv h

theorem execVrsqrt_inv {f : VecF} {s : State} (inv : s.Inv) : OutInv (execVrsqrt f s) := by
  unfold execVrsqrt
  exact vf1_inv inv

theorem execVsel_inv {f : VecF} {s : State} (inv : s.Inv) : OutInv (execVsel f s) := by
  refine lanesWord_inv inv fun c u vs h => ?_
  exact landVec_inv h

theorem execVshl_inv {f : VecF} {s : State} (inv : s.Inv) : OutInv (execVshl f s) := by
  unfold execVshl
  exact laneWord_inv inv

theorem execVshr_inv {f : VecF} {s : State} (inv : s.Inv) : OutInv (execVshr f s) := by
  unfold execVshr
  exact laneWord_inv inv

theorem execVsigm_inv {f : VecF} {s : State} (inv : s.Inv) : OutInv (execVsigm f s) := by
  unfold execVsigm
  exact vf1_inv inv

theorem execVsin_inv {f : VecF} {s : State} (inv : s.Inv) : OutInv (execVsin f s) := by
  unfold execVsin
  exact vf1_inv inv

theorem execVsqrt_inv {f : VecF} {s : State} (inv : s.Inv) : OutInv (execVsqrt f s) := by
  unfold execVsqrt
  exact vf1_inv inv

theorem execVsra_inv {f : VecF} {s : State} (inv : s.Inv) : OutInv (execVsra f s) := by
  unfold execVsra
  exact laneWord_inv inv

theorem execVst_inv {d a : BitVec 6} {imm : BitVec 32} {s : State} (inv : s.Inv) : OutInv (execVst d a imm s) := by
  unfold execVst
  exact vstWord_inv inv

theorem execVsub_inv {f : VecF} {s : State} (inv : s.Inv) : OutInv (execVsub f s) := by
  unfold execVsub
  exact vf2_inv inv

theorem execVtanh_inv {f : VecF} {s : State} (inv : s.Inv) : OutInv (execVtanh f s) := by
  unfold execVtanh
  exact vf1_inv inv

theorem execVxor_inv {f : VecF} {s : State} (inv : s.Inv) : OutInv (execVxor f s) := by
  unfold execVxor
  exact laneWord_inv inv

/-! ## Control -/

theorem execWaitc_inv {n : BitVec 32} {s : State} (inv : s.Inv) : OutInv (execWaitc n s) := by
  unfold execWaitc
  exact word_inv inv (fun _ _ h => onStream_inv h)

/-! ## Gather -/

theorem execWalk_inv {q : BitVec 3} {a b : BitVec 4} {mk : BitVec 1} {k : Toks} {s : State} (inv : s.Inv) :
    OutInv (execWalk q a b mk k s) := by
  unfold execWalk
  exact walkWord_inv inv

/-! ## Fleet -/

theorem execWlimEvaluation_inv {base : Nat} {t0 t1 : Option (BitVec 10)} {s : State} (inv : s.Inv) :
    OutInv (execWlimEvaluation base t0 t1 s) := by
  unfold execWlimEvaluation
  dsimp only
  exact outInv_next.mpr (inv_ite inv (inv_ite (inv_upd (inv_ite (inv_upd inv) inv)) (inv_ite (inv_upd inv) inv)))

/-! ## Access -/

theorem execWrq_inv {ds : BitVec 3} {q : BitVec 4} {k : Toks} {s : State} (inv : s.Inv) : OutInv (execWrq ds q k s) := by
  refine word_inv inv fun c s inv => gated_inv ?_
  dsimp only
  exact resinv_ite illegal_inv (orFault_inv (resinv_ite trivial (startAcc_inv inv)))

theorem execWrs_inv {ds : BitVec 3} {a : BitVec 6} {k : Toks} {s : State} (inv : s.Inv) : OutInv (execWrs ds a k s) := by
  unfold execWrs
  exact packWord_inv inv

/-! ## Scalar -/

theorem execXor_inv {d a b : BitVec 6} {s : State} (inv : s.Inv) : OutInv (execXor d a b s) := by
  unfold execXor
  exact alu3_inv inv

theorem execXori_inv {d a : BitVec 6} {imm : BitVec 32} {s : State} (inv : s.Inv) : OutInv (execXori d a imm s) := by
  unfold execXori
  exact alu2_inv inv

/-! ## Host -/

theorem yieldCmd_inv {s : State} {c : Cmd} (inv : s.Inv) : (yieldCmd s c).Inv := by
  refine regionCmd_inv inv fun s h r inv => ?_
  exact inv_ite (answer_inv inv) (askYield_inv (setReg_inv inv))

theorem execYield_inv {c : Cmd} {s : State} (inv : s.Inv) : OutInv (execYield c s) := by
  unfold execYield
  exact outInv_next.mpr (yieldCmd_inv (takeCmd_inv inv))

/-! ## Stop -/

theorem execYieldRequest_inv {h : Nat} {s : State} (inv : s.Inv) : OutInv (execYieldRequest h s) := by
  unfold execYieldRequest
  exact outInv_next.mpr (askYield_inv inv)

/-! ## Mem -/

theorem addTokAt_inv {s : State} {c : Ctx} {n due : Nat} (inv : s.Inv) : (addTokAt s c n due).Inv := by
  unfold addTokAt
  exact inv_ite inv (inv_ite (addLatch_inv inv) (addTok_inv inv))

/-! ## Matrix -/

theorem execZclr_inv {mask : BitVec 8} {x : Stamp} {s : State} (inv : s.Inv) : OutInv (execZclr mask x s) := by
  refine mxWord_inv (fun c s inv => ?_) inv
  refine resinv_ite (addTokAt_inv (addLatch_inv (addLatch_inv inv))) ?_
  have h := addTok_inv (key := c.key) (n := x.toks.kd.toNat)
    (setMx_inv (key := c.key) (f := fun m => clearPcur (clearTiles m mask.toNat) mask.toNat) (healTiles_inv (key := c.key)
      (mask := mask.toNat) inv))
  dsimp only
  split
  · next e => rw [e] at h; exact h
  · next e => rw [e] at h; exact h

theorem zpushWord_inv {b16 : Bool} {t : BitVec 3} {ch : BitVec 8} {x : Stamp} {s : State} (inv : s.Inv) :
    OutInv (zpushWord b16 t ch x s) := by
  refine word_inv inv fun c s inv => ?_
  dsimp only
  split
  · exact illegal_inv
  split
  · exact illegal_inv
  refine resinv_ite illegal_inv (resinv_ite trivial (withToks_inv inv fun s1 h => ?_))
  refine resinv_ite h (addTokAt_inv (addLatch_inv (foldl_inv h ?_)))
  exact fun _ _ h => sendChan_inv h

theorem execZpush_inv {t : BitVec 3} {ch : BitVec 8} {x : Stamp} {s : State} (inv : s.Inv) : OutInv (execZpush t ch x s) := by
  unfold execZpush
  exact zpushWord_inv inv

theorem execZpushB16_inv {t : BitVec 3} {ch : BitVec 8} {x : Stamp} {s : State} (inv : s.Inv) :
    OutInv (execZpushB16 t ch x s) := by
  unfold execZpushB16
  exact zpushWord_inv inv

theorem zrdWord_inv {b16 : Bool} {q t : BitVec 3} {st : BitVec 5} {x : Stamp} {s : State} (inv : s.Inv) :
    OutInv (zrdWord b16 q t st x s) := by
  refine mxWord_inv (fun c s inv => ?_) inv
  exact resinv_ite inv (setMx_inv (fresh_inv inv))

theorem execZrd_inv {q t : BitVec 3} {st : BitVec 5} {x : Stamp} {s : State} (inv : s.Inv) : OutInv (execZrd q t st x s) := by
  unfold execZrd
  exact zrdWord_inv inv

theorem execZrdB16_inv {q t : BitVec 3} {st : BitVec 5} {x : Stamp} {s : State} (inv : s.Inv) :
    OutInv (execZrdB16 q t st x s) := by
  unfold execZrdB16
  exact zrdWord_inv inv

theorem execZwr_inv {q t : BitVec 3} {st : BitVec 5} {x : Stamp} {s : State} (inv : s.Inv) : OutInv (execZwr q t st x s) := by
  refine mxWord_inv (fun c s inv => ?_) inv
  exact setMx_inv (fresh_inv inv)

/-! ## Dispatch -/

/-- Every instruction keeps the invariant. -/
theorem exec_inv {i : Instr} {s : State} (inv : s.Inv) : OutInv (exec i s) := by
  cases i with
  | waitc => exact execWaitc_inv inv
  | endw => exact execEndw_inv inv
  | alignf => exact execAlignf_inv inv
  | start => exact execStart_inv inv
  | slack => exact execSlack_inv inv
  | turn => exact execTurn_inv inv
  | nop => exact execNop_inv inv
  | jmp => exact execJmp_inv inv
  | loop => exact execLoop_inv inv
  | call => exact execCall_inv inv
  | ret => exact execRet_inv inv
  | br => exact execBr_inv inv
  | brt => exact execBrt_inv inv
  | trap => exact execTrap_inv inv
  | rett => exact execRett_inv inv
  | add => exact execAdd_inv inv
  | sub => exact execSub_inv inv
  | mul => exact execMul_inv inv
  | mulh => exact execMulh_inv inv
  | mulhu => exact execMulhu_inv inv
  | div => exact execDiv_inv inv
  | divu => exact execDivu_inv inv
  | rem => exact execRem_inv inv
  | remu => exact execRemu_inv inv
  | and => exact execAnd_inv inv
  | or => exact execOr_inv inv
  | xor => exact execXor_inv inv
  | andn => exact execAndn_inv inv
  | sll => exact execSll_inv inv
  | srl => exact execSrl_inv inv
  | sra => exact execSra_inv inv
  | ror => exact execRor_inv inv
  | min => exact execMin_inv inv
  | max => exact execMax_inv inv
  | minu => exact execMinu_inv inv
  | maxu => exact execMaxu_inv inv
  | slt => exact execSlt_inv inv
  | sltu => exact execSltu_inv inv
  | clz => exact execClz_inv inv
  | ctz => exact execCtz_inv inv
  | popc => exact execPopc_inv inv
  | addi => exact execAddi_inv inv
  | andi => exact execAndi_inv inv
  | ori => exact execOri_inv inv
  | xori => exact execXori_inv inv
  | slli => exact execSlli_inv inv
  | srli => exact execSrli_inv inv
  | srai => exact execSrai_inv inv
  | rori => exact execRori_inv inv
  | slti => exact execSlti_inv inv
  | sltiu => exact execSltiu_inv inv
  | muli => exact execMuli_inv inv
  | li => exact execLi_inv inv
  | lih => exact execLih_inv inv
  | tamk => exact execTamk_inv inv
  | tcoord => exact execTcoord_inv inv
  | tdim => exact execTdim_inv inv
  | ld => exact execLd_inv inv
  | st => exact execSt_inv inv
  | ldAcq => exact execLdAcq_inv inv
  | stRel => exact execStRel_inv inv
  | amo => exact execAmo_inv inv
  | cas => exact execCas_inv inv
  | faddw => exact execFaddw_inv inv
  | faddr => exact execFaddr_inv inv
  | phase => exact execPhase_inv inv
  | fence => exact execFence_inv inv
  | bar => exact execBar_inv inv
  | tokw => exact execTokw_inv inv
  | synci => exact execSynci_inv inv
  | qpush => exact execQpush_inv inv
  | qpop => exact execQpop_inv inv
  | qpeek => exact execQpeek_inv inv
  | qcnt => exact execQcnt_inv inv
  | engJoin => exact execEngJoin_inv inv
  | engTload => exact execEngTload_inv inv
  | engTcopy => exact execEngTcopy_inv inv
  | engTstore => exact execEngTstore_inv inv
  | engTfill => exact execEngTfill_inv inv
  | fpush => exact execFpush_inv inv
  | rdtide => exact execRdtide_inv inv
  | csrr => exact execCsrr_inv inv
  | csrw => exact execCsrw_inv inv
  | pcsrr => exact execPcsrr_inv inv
  | pcsrw => exact execPcsrw_inv inv
  | registerWrite => exact execRegisterWrite_inv inv
  | mboxs => exact execMboxs_inv inv
  | mboxr => exact execMboxr_inv inv
  | mwait => exact execMwait_inv inv
  | brq => exact execBrq_inv inv
  | dset => exact execDset_inv inv
  | dclr => exact execDclr_inv inv
  | dld => exact execDld_inv inv
  | rdq => exact execRdq_inv inv
  | rds => exact execRds_inv inv
  | wrq => exact execWrq_inv inv
  | wrs => exact execWrs_inv inv
  | cpy => exact execCpy_inv inv
  | gath => exact execGath_inv inv
  | scat => exact execScat_inv inv
  | pref => exact execPref_inv inv
  | push => exact execPush_inv inv
  | pushR => exact execPushR_inv inv
  | movq => exact execMovq_inv inv
  | arrv => exact execArrv_inv inv
  | bwait => exact execBwait_inv inv
  | collAr => exact execCollAr_inv inv
  | collRs => exact execCollRs_inv inv
  | collAg => exact execCollAg_inv inv
  | collBc => exact execCollBc_inv inv
  | collAa => exact execCollAa_inv inv
  | collAb => exact execCollAb_inv inv
  | mload => exact execMload_inv inv
  | msel => exact execMsel_inv inv
  | mma => exact execMma_inv inv
  | mmas => exact execMmas_inv inv
  | zclr => exact execZclr_inv inv
  | zrd => exact execZrd_inv inv
  | zrdB16 => exact execZrdB16_inv inv
  | zwr => exact execZwr_inv inv
  | zpush => exact execZpush_inv inv
  | zpushB16 => exact execZpushB16_inv inv
  | vadd => exact execVadd_inv inv
  | vsub => exact execVsub_inv inv
  | vmul => exact execVmul_inv inv
  | vfma => exact execVfma_inv inv
  | vfms => exact execVfms_inv inv
  | vdiv => exact execVdiv_inv inv
  | vsqrt => exact execVsqrt_inv inv
  | vmin => exact execVmin_inv inv
  | vmax => exact execVmax_inv inv
  | vabs => exact execVabs_inv inv
  | vneg => exact execVneg_inv inv
  | vcmpeq => exact execVcmpeq_inv inv
  | vcmpne => exact execVcmpne_inv inv
  | vcmplt => exact execVcmplt_inv inv
  | vcmple => exact execVcmple_inv inv
  | vsel => exact execVsel_inv inv
  | vand => exact execVand_inv inv
  | vor => exact execVor_inv inv
  | vxor => exact execVxor_inv inv
  | vnot => exact execVnot_inv inv
  | vshl => exact execVshl_inv inv
  | vshr => exact execVshr_inv inv
  | vsra => exact execVsra_inv inv
  | viadd => exact execViadd_inv inv
  | visub => exact execVisub_inv inv
  | vimul => exact execVimul_inv inv
  | vimin => exact execVimin_inv inv
  | vimax => exact execVimax_inv inv
  | vcvt => exact execVcvt_inv inv
  | vrcp => exact execVrcp_inv inv
  | vrsqrt => exact execVrsqrt_inv inv
  | vexp2 => exact execVexp2_inv inv
  | vlog2 => exact execVlog2_inv inv
  | vtanh => exact execVtanh_inv inv
  | vsigm => exact execVsigm_inv inv
  | vsin => exact execVsin_inv inv
  | vcos => exact execVcos_inv inv
  | vredsum => exact execVredsum_inv inv
  | vredmax => exact execVredmax_inv inv
  | vredmin => exact execVredmin_inv inv
  | vperm => exact execVperm_inv inv
  | vbcast => exact execVbcast_inv inv
  | vrot => exact execVrot_inv inv
  | vmov => exact execVmov_inv inv
  | vld => exact execVld_inv inv
  | vst => exact execVst_inv inv
  | vidx => exact execVidx_inv inv
  | vli => exact execVli_inv inv
  | dot16 => exact execDot16_inv inv
  | vquant => exact execVquant_inv inv
  | vdeq => exact execVdeq_inv inv
  | vnmean => exact execVnmean_inv inv
  | vnvar => exact execVnvar_inv inv
  | vnapply => exact execVnapply_inv inv
  | vmset => exact execVmset_inv inv
  | vmand => exact execVmand_inv inv
  | vmor => exact execVmor_inv inv
  | vmnot => exact execVmnot_inv inv
  | vmcnt => exact execVmcnt_inv inv
  | gsetBlock => exact execGsetBlock_inv inv
  | gsetBatch => exact execGsetBatch_inv inv
  | gsetWalk => exact execGsetWalk_inv inv
  | gsetBar => exact execGsetBar_inv inv
  | gload => exact execGload_inv inv
  | grule => exact execGrule_inv inv
  | grow => exact execGrow_inv inv
  | gseg => exact execGseg_inv inv
  | gscat => exact execGscat_inv inv
  | walk => exact execWalk_inv inv
  | sample => exact execSample_inv inv
  | gidx => exact execGidx_inv inv
  | gidxBd => exact execGidxBd_inv inv
  | gmov => exact execGmov_inv inv
  | gvadd => exact execGvadd_inv inv
  | gvmul => exact execGvmul_inv inv
  | gvfma => exact execGvfma_inv inv
  | gvcvt => exact execGvcvt_inv inv
  | gvld => exact execGvld_inv inv
  | gvst => exact execGvst_inv inv
  | bld => exact execBld_inv inv
  | bst => exact execBst_inv inv
  | bfill => exact execBfill_inv inv
  | bcpy => exact execBcpy_inv inv
  | bamo => exact execBamo_inv inv
  | bred => exact execBred_inv inv
  | vfpush => exact execVfpush_inv inv
  | vfpushn => exact execVfpushn_inv inv
  | vfpop => exact execVfpop_inv inv
  | vfcnt => exact execVfcnt_inv inv
  | svadd => exact execSvadd_inv inv
  | svfma => exact execSvfma_inv inv
  | predecode => exact execPredecode_inv inv
  | regionFreeze => exact execRegionFreeze_inv inv
  | stallRelease => exact execStallRelease_inv inv
  | regionStallResume => exact execRegionStallResume_inv inv
  | stallTimeout => exact execStallTimeout_inv inv
  | startWaitTimeout => exact execStartWaitTimeout_inv inv
  | queueWaitTimeout => exact execQueueWaitTimeout_inv inv
  | fifoWaitTimeout => exact execFifoWaitTimeout_inv inv
  | resultLanding => exact execResultLanding_inv inv
  | pushDelivery => exact execPushDelivery_inv inv
  | mmaRowTake => exact execMmaRowTake_inv inv
  | mmaRowLanding => exact execMmaRowLanding_inv inv
  | mloadLanding => exact execMloadLanding_inv inv
  | stripEntryLanding => exact execStripEntryLanding_inv inv
  | fifoTransit => exact execFifoTransit_inv inv
  | engineOpComplete => exact execEngineOpComplete_inv inv
  | memoryRequestApply => exact execMemoryRequestApply_inv inv
  | memoryResponse => exact execMemoryResponse_inv inv
  | atomicErrorResponse => exact execAtomicErrorResponse_inv inv
  | atomicTimeout => exact execAtomicTimeout_inv inv
  | phaseEnd => exact execPhaseEnd_inv inv
  | taskDispatch => exact execTaskDispatch_inv inv
  | taskStart => exact execTaskStart_inv inv
  | taskEnd => exact execTaskEnd_inv inv
  | planRetire => exact execPlanRetire_inv inv
  | planeSwap => exact execPlaneSwap_inv inv
  | regionStop => exact execRegionStop_inv inv
  | stubResume => exact execStubResume_inv inv
  | debugRequest => exact execDebugRequest_inv inv
  | yieldRequest => exact execYieldRequest_inv inv
  | slackSave => exact execSlackSave_inv inv
  | elasticYieldSave => exact execElasticYieldSave_inv inv
  | slackDistance => exact execSlackDistance_inv inv
  | forcedSave => exact execForcedSave_inv inv
  | slackResume => exact execSlackResume_inv inv
  | phyLinkLoss => exact execPhyLinkLoss_inv inv
  | hello => exact execHello_inv inv
  | regwrQtail => exact execRegwrQtail_inv inv
  | regwrQctlStop => exact execRegwrQctlStop_inv inv
  | regwrQctlErr => exact execRegwrQctlErr_inv inv
  | regwrQprog => exact execRegwrQprog_inv inv
  | regrd => exact execRegrd_inv inv
  | memwr => exact execMemwr_inv inv
  | memrd => exact execMemrd_inv inv
  | resp => exact execResp_inv inv
  | event => exact execEvent_inv inv
  | ack => exact execAck_inv inv
  | ackTimer => exact execAckTimer_inv inv
  | messageResend => exact execMessageResend_inv inv
  | commandConsume => exact execCommandConsume_inv inv
  | nopCommand => exact execNopCommand_inv inv
  | launch => exact execLaunch_inv inv
  | resume => exact execResume_inv inv
  | endCommand => exact execEndCommand_inv inv
  | yield => exact execYield_inv inv
  | debug => exact execDebug_inv inv
  | prio => exact execPrio_inv inv
  | qcreate => exact execQcreate_inv inv
  | qdestroy => exact execQdestroy_inv inv
  | ccreate => exact execCcreate_inv inv
  | cdestroy => exact execCdestroy_inv inv
  | queueSwitchIn => exact execQueueSwitchIn_inv inv
  | queueSwitchOut => exact execQueueSwitchOut_inv inv
  | regionDispatch => exact execRegionDispatch_inv inv
  | ageStep => exact execAgeStep_inv inv
  | quantumExpiry => exact execQuantumExpiry_inv inv
  | leaseAcquire => exact execLeaseAcquire_inv inv
  | rfe1Read => exact execRfe1Read_inv inv
  | rfackRetry => exact execRfackRetry_inv inv
  | rfackFail => exact execRfackFail_inv inv
  | tileRead => exact execTileRead_inv inv
  | map => exact execMap_inv inv
  | mapz => exact execMapz_inv inv
  | discard => exact execDiscard_inv inv
  | reclaim => exact execReclaim_inv inv
  | unmap => exact execUnmap_inv inv
  | migrate => exact execMigrate_inv inv
  | fwdclr => exact execFwdclr_inv inv
  | install => exact execInstall_inv inv
  | remove => exact execRemove_inv inv
  | migrationSectorCopy => exact execMigrationSectorCopy_inv inv
  | switchover => exact execSwitchover_inv inv
  | staleFrame => exact execStaleFrame_inv inv
  | peerInvalidation => exact execPeerInvalidation_inv inv
  | invalidationAck => exact execInvalidationAck_inv inv
  | fwdinvSelect => exact execFwdinvSelect_inv inv
  | peerPinRequest => exact execPeerPinRequest_inv inv
  | peerLeaseTimeout => exact execPeerLeaseTimeout_inv inv
  | peerRequest => exact execPeerRequest_inv inv
  | peerAccessTimeout => exact execPeerAccessTimeout_inv inv
  | roleChangeStart => exact execRoleChangeStart_inv inv
  | roleChangeAbort => exact execRoleChangeAbort_inv inv
  | roleDrainDone => exact execRoleDrainDone_inv inv
  | gateRequest => exact execGateRequest_inv inv
  | gateApply => exact execGateApply_inv inv
  | deviceEventDeliver => exact execDeviceEventDeliver_inv inv
  | lighthouseAnswerDeliver => exact execLighthouseAnswerDeliver_inv inv
  | markfail => exact execMarkfail_inv inv
  | clearfail => exact execClearfail_inv inv
  | grant => exact execGrant_inv inv
  | hbeat => exact execHbeat_inv inv
  | margin => exact execMargin_inv inv
  | retrain => exact execRetrain_inv inv
  | setboot => exact execSetboot_inv inv
  | quote => exact execQuote_inv inv
  | heartbeatTimeout => exact execHeartbeatTimeout_inv inv
  | forcedLevelTimeout => exact execForcedLevelTimeout_inv inv
  | relockEnd => exact execRelockEnd_inv inv
  | powerOnReset => exact execPowerOnReset_inv inv
  | moduleTrain => exact execModuleTrain_inv inv
  | coreTrap => exact execCoreTrap_inv inv
  | coreRestart => exact execCoreRestart_inv inv
  | harbourRollback => exact execHarbourRollback_inv inv
  | clockStretch => exact execClockStretch_inv inv
  | overcurrent => exact execOvercurrent_inv inv
  | thermalTrip => exact execThermalTrip_inv inv
  | sensorEvaluation => exact execSensorEvaluation_inv inv
  | wlimEvaluation => exact execWlimEvaluation_inv inv
  | hoteRead => exact execHoteRead_inv inv
  | ebbDue => exact execEbbDue_inv inv
  | ebbYield => exact execEbbYield_inv inv
  | ebb => exact execEbb_inv inv
  | pkgidWrite => exact execPkgidWrite_inv inv
  | reachLinkDown => exact execReachLinkDown_inv inv
  | collPartial => exact execCollPartial_inv inv
  | collAbort => exact execCollAbort_inv inv
  | collRoundTimeout => exact execCollRoundTimeout_inv inv
  | collRoundEnd => exact execCollRoundEnd_inv inv
  | heldMessageDiscard => exact execHeldMessageDiscard_inv inv
  | pcsrrTimeout => exact execPcsrrTimeout_inv inv
  | unassignedOpcode => exact execUnassignedOpcode_inv inv
  | claexFrameDrop => exact execClaexFrameDrop_inv inv
  | hostPortLinkChange => exact execHostPortLinkChange_inv inv
  | packagePowerLoss => exact execPackagePowerLoss_inv
  | mwaitTimeout => exact execMwaitTimeout_inv inv

/-! ## Due -/

theorem passMigs_inv {s : State} (inv : s.Inv) : (passMigs s).Inv := by
  unfold passMigs
  refine foldl_inv inv ?_
  intro s i inv
  split
  · next m _ =>
    have h : OutInv (if m.pass < 4 then execMigrationSectorCopy i s else execSwitchover i s) := by
      split
      · exact execMigrationSectorCopy_inv inv
      · exact execSwitchover_inv inv
    split
    · next e => exact h _ e
    · exact inv
  · exact inv

theorem pass_inv {s : State} (inv : s.Inv) : (pass s).Inv := by
  have h := passMigs_inv inv
  unfold pass
  refine inv_ite (refTick_inv inv) (inv_ite (refTick_inv ?h) ?h)
  exact ⟨h.mem, Nat.mod_lt _ (by decide)⟩

/-! ## Fetch -/

theorem atAgent_inv {s : State} {key : Nat} {q : Seq} (inv : s.Inv) : (atAgent s key q).Inv := by
  unfold atAgent
  dsimp only
  exact inv_upd inv

theorem fetchFault_inv {s : State} (inv : s.Inv) : OutInv (fetchFault s) := by
  unfold fetchFault
  exact word_inv inv (fun _ _ h => trivial)

/-! ## Step -/

theorem runAgent_inv {s : State} {key : Nat} {q : Seq} (inv : s.Inv) : OutInv (runAgent s key q) := by
  unfold runAgent
  split
  · exact fetchFault_inv (atAgent_inv inv)
  split
  · exact exec_inv (atAgent_inv inv)
  · exact execUnassignedOpcode_inv (atAgent_inv inv)

/-! ## Due -/

theorem afterOut_inv {f : State → State} {o : Out} (hf : ∀ s, s.Inv → (f s).Inv) (ho : OutInv o) : OutInv (afterOut f o) := by
  intro t e
  cases o with
  | next s =>
    cases e
    exact hf s (ho s rfl)
  | fault r => cases e
  | refused r => cases e

theorem barOver_inv {s : State} {key : Nat} {q : Seq} (inv : s.Inv) : (barOver s key q).Inv := by
  unfold barOver
  dsimp only
  split
  · exact inv
  · exact tokenFor_inv (setStreamAt_inv inv)

/-! ## Stop -/

theorem debugHeld_inv {s : State} {h : Nat} (inv : s.Inv) : (debugHeld s h).Inv := by
  unfold debugHeld
  dsimp only
  exact foldl_inv (setReg_inv inv) (fun _ _ h => takeFault_inv h)

/-! ## Host -/

theorem destroyQueue_inv {s : State} {n : Nat} (inv : s.Inv) : (destroyQueue s n).Inv := by
  unfold destroyQueue
  split
  · exact inv
  · exact inv_ite (completeOpt_inv (inv_upd inv)) inv

/-! ## Fleet -/

theorem fecCount_inv {s : State} {p : Nat × Nat × Nat} (inv : s.Inv) : (fecCount s p).Inv := by
  unfold fecCount
  dsimp only
  exact inv_ite (inv_upd inv) (inv_ite (setPreg_inv (inv_upd inv)) (inv_upd inv))

/-! ## Landing -/

theorem fenceStall_inv {s : State} {key : Nat} {q : Seq} (inv : s.Inv) : (fenceStall s key q).Inv := by
  unfold fenceStall
  dsimp only
  exact foldl_inv (setStreamAt_inv inv) (fun _ _ h => askStall_inv h)

/-! ## Due -/

theorem fencesOver_inv {s : State} {key : Nat} {q : Seq} (inv : s.Inv) : (fencesOver s key q).Inv := by
  unfold fencesOver
  dsimp only
  exact dropSects_inv (setStreamAt_inv inv)

/-! ## Collective -/

theorem heldDeliver_inv {s : State} (inv : s.Inv) : (heldDeliver s).Inv := by
  unfold heldDeliver
  split
  · exact inv
  · exact msgArrive_inv (inv_upd inv)

/-! ## Due -/

theorem lhRun_inv {s : State} {w : Word} (inv : s.Inv) : OutInv (lhRun s w) := by
  have h : (setCore s 8 { coreAt s 8 with mbox := (coreAt s 8).mbox.erase w }).Inv := setCore_inv inv
  unfold lhRun; dsimp only
  split
  · exact execMarkfail_inv (inv_ite (setCore_inv h) h)
  · exact execClearfail_inv (inv_ite (setCore_inv h) h)
  · exact execGrant_inv (inv_ite (setCore_inv h) h)
  · exact execHbeat_inv (inv_ite (setCore_inv h) h)
  · exact execMargin_inv (inv_ite (setCore_inv h) h)
  · exact execRetrain_inv (inv_ite (setCore_inv h) h)
  · exact execSetboot_inv (inv_ite (setCore_inv h) h)
  · exact execQuote_inv (inv_ite (setCore_inv h) h)
  · exact outInv_next.mpr (lhAnswer_inv (inv_ite (setCore_inv h) h))

theorem nudge_inv {s : State} {id : Nat} (inv : s.Inv) : (nudge s id).Inv := by
  unfold nudge
  split
  · exact inv_ite (inv_upd inv) inv
  split
  · exact inv_ite (inv_upd inv) inv
  · exact inv

/-! ## Landing -/

theorem passStart_inv {s : State} {h f : Nat} (inv : s.Inv) : (passStart s h f).Inv := by
  unfold passStart; dsimp only
  refine setReg_inv (foldl_inv inv ?_)
  exact fun _ _ h => setStreamAt_inv h

/-! ## Peer -/

theorem pinNext_inv {s : State} (inv : s.Inv) : (pinNext s).Inv := by
  unfold pinNext
  split
  · exact pinAnswer_inv (inv_upd inv)
  · exact inv

theorem reachLate_inv {s : State} {link : Nat} (inv : s.Inv) : OutInv (reachLate s link) := by
  unfold reachLate
  split
  · exact outInv_next.mpr inv
  split
  · exact execReachLinkDown_inv inv
  · exact outInv_next.mpr (setConn_inv inv)

/-! ## Host -/

theorem restartEnd_inv {s : State} (inv : s.Inv) : (restartEnd s).Inv := by
  unfold restartEnd; dsimp only
  have hs : (match bootPick s 2 with
      | some i => (List.range 7).foldl (fun s n => startCore s n i) s
      | none => s).Inv := by
    split
    · exact foldl_inv inv fun _ _ h => startCore_inv h
    · exact inv
  refine inv_upd (foldl_inv (inv_upd hs) ?_)
  exact fun _ _ h => recvNow_inv h

/-! ## Due -/

theorem runCmd_inv {c : Cmd} {s : State} (inv : s.Inv) : OutInv (runCmd c s) := by
  unfold runCmd
  split
  · exact execNopCommand_inv inv
  · exact execLaunch_inv inv
  · exact execResume_inv inv
  · exact execEndCommand_inv inv
  · exact execYield_inv inv
  · exact execDebug_inv inv
  · exact execPrio_inv inv
  · exact execQcreate_inv inv
  · exact execQdestroy_inv inv
  · exact execCcreate_inv inv
  · exact execCdestroy_inv inv
  · exact outInv_next.mpr (takeCmd_inv inv)

/-! ## Fleet -/

theorem senseFree_inv {s : State} (inv : s.Inv) : OutInv (senseFree s) := by
  unfold senseFree
  exact execSensorEvaluation_inv (inv_upd inv)

theorem wlimFree_inv {s : State} {b : Nat} (inv : s.Inv) : OutInv (wlimFree s b) := by
  unfold wlimFree
  dsimp only
  exact execWlimEvaluation_inv (freeNum_inv (freeNum_inv inv))

/-! ## Due -/

/-- Every event that is due keeps the invariant. -/
theorem runDue_inv {d : Due} {s : State} (inv : s.Inv) : OutInv (runDue d s) := by
  cases d with
  | powerOn => exact execPowerOnReset_inv inv
  | command c => exact runCmd_inv inv
  | restartEnd => exact outInv_next.mpr (restartEnd_inv inv)
  | landing k => exact execResultLanding_inv inv
  | rowLand k => exact execMmaRowLanding_inv inv
  | delivery k => exact execPushDelivery_inv inv
  | transit k => exact execFifoTransit_inv inv
  | rowTake k => exact execMmaRowTake_inv inv
  | mload k => exact execMloadLanding_inv inv
  | strip k => exact execStripEntryLanding_inv inv
  | fenceOver k q => exact outInv_next.mpr (fencesOver_inv inv)
  | barOver k q => exact outInv_next.mpr (barOver_inv inv)
  | predecode k q => exact execPredecode_inv inv
  | fenceStall k q => exact outInv_next.mpr (fenceStall_inv inv)
  | phaseEnd k => exact execPhaseEnd_inv inv
  | fifoLate k => exact execFifoWaitTimeout_inv inv
  | taskStart k => exact execTaskStart_inv inv
  | taskEnd k => exact execTaskEnd_inv inv
  | stop h => exact execRegionStop_inv inv
  | freeze h => exact execRegionFreeze_inv inv
  | pass h f => exact outInv_next.mpr (passStart_inv inv)
  | release k q => exact execStallRelease_inv inv
  | unfreeze h => exact execRegionStallResume_inv inv
  | stallLate h => exact execStallTimeout_inv inv
  | startLate h => exact execStartWaitTimeout_inv inv
  | slackFar h => exact execSlackDistance_inv inv
  | forcedSave h => exact execForcedSave_inv inv
  | dispatchTask h d => exact execTaskDispatch_inv inv
  | swap h => exact execPlaneSwap_inv inv
  | debugHeld h => exact outInv_next.mpr (debugHeld_inv inv)
  | stubResume h => exact execStubResume_inv inv
  | slackResume h => exact execSlackResume_inv inv
  | slackSave h => exact execSlackSave_inv inv
  | elasticSave h => exact execElasticYieldSave_inv inv
  | retire h => exact execPlanRetire_inv inv
  | lease h => exact execLeaseAcquire_inv inv
  | leaseLate h => exact execPeerLeaseTimeout_inv inv
  | age h => exact execAgeStep_inv inv
  | sched h => exact execRegionDispatch_inv inv
  | lighthouse =>
    simp only [runDue]
    split
    · exact lhRun_inv inv
    · exact outInv_next.mpr inv
  | level => exact outInv_next.mpr (levelNow_inv inv)
  | force => exact execForcedLevelTimeout_inv inv
  | heartbeat => exact execHeartbeatTimeout_inv inv
  | relock => exact execRelockEnd_inv inv
  | rollback => exact execHarbourRollback_inv inv
  | deviceEvent => exact execDeviceEventDeliver_inv inv
  | lhAnswer => exact execLighthouseAnswerDeliver_inv inv
  | gate i => exact execGateApply_inv inv
  | drain => exact execRoleDrainDone_inv inv
  | collEnd i => exact execCollRoundEnd_inv inv
  | collLate i => exact execCollRoundTimeout_inv inv
  | opEnd i => exact execEngineOpComplete_inv inv
  | opLate i => exact execQueueWaitTimeout_inv inv
  | unit i => exact afterOut_inv (fun _ h => nudge_inv h) (execMemoryRequestApply_inv inv)
  | atomicLate i => exact execAtomicTimeout_inv inv
  | peerLate i => exact execPeerAccessTimeout_inv inv
  | pinAnswer => exact outInv_next.mpr (pinNext_inv inv)
  | response i => exact execMemoryResponse_inv inv
  | heldReady => exact outInv_next.mpr (heldDeliver_inv inv)
  | heldDrop => exact execHeldMessageDiscard_inv inv
  | consume q => exact execCommandConsume_inv inv
  | queueGone q => exact outInv_next.mpr (destroyQueue_inv inv)
  | ack n => exact execAckTimer_inv inv
  | reachHello j => exact outInv_next.mpr (reachHello_inv inv)
  | reachLate j => exact reachLate_inv inv
  | resend n q => exact execMessageResend_inv inv
  | ebbFalls => exact execEbbDue_inv inv
  | ebbLate => exact execEbbYield_inv inv
  | ebb => exact execEbb_inv inv
  | fec p => exact outInv_next.mpr (fecCount_inv inv)
  | sense => exact senseFree_inv inv
  | wlim b => exact wlimFree_inv inv
  | pcsrrLate n => exact execPcsrrTimeout_inv inv

/-! ## Step -/

theorem ownStep_inv {s : State} (inv : s.Inv) : OutInv (ownStep s) := by
  unfold ownStep
  split
  · exact outInv_next.mpr inv
  split
  · exact runDue_inv inv
  split
  · exact runAgent_inv inv
  · exact outInv_next.mpr (pass_inv inv)

theorem step_inv {s : State} (inv : s.Inv) : OutInv (step s) := by
  unfold step
  split
  · split
    · exact ownStep_inv inv
    · intro t e
      cases e
  · exact exec_inv (inv_upd inv)
  · exact ownStep_inv (inv_upd inv)

end Sys2Proof.Machine

/-- Settles O57: every step keeps the invariant, since every function of the model that answers a state does (step_inv). -/
theorem invariantKept : Obligations.InvariantKept :=
  fun _ _ inv h => Sys2Proof.Machine.step_inv inv _ h

end

