-- ==== Sys2Proof/Proofs/ScalarWords.lean ====
section
/-! SUPPORT. The issue of a fetched word, and what a word that computes a scalar register changes. -/

namespace Sys2Proof.Machine

/-- The agent that is ready issues: its word runs as it decodes, where nothing else comes first. -/
theorem step_readyAgent {s : State} {key : Nat} {q : Seq} (hp : s.power = true) (hi : s.inputs = []) (hd : dueEvent s = none)
    (hr : readyAgent s = some (key, q)) : step s = runAgent s key q := by
  simp [step, ownStep, hi, hp, hd, hr]

/-- A word whose bytes cannot be read faults with its own address (R83). -/
theorem fetchFault_of_issues {s : State} (h : Issues { core := true, start := true } [] s) :
    fetchFault s = .next (takeFault (moved s) (runner s)
      { code := 6, taddr := taddr (tidOf (issueCtx s).st.img) (idxOf (issueCtx s).st.img + (issueCtx s).pc) }) :=
  word_of_issues h _

/-- Where the running word is tried, it is its own agent's. -/
theorem ctxAt_touchStart_key (s : State) : (ctxAt (touchStart s s.cur)).key = s.cur :=
  have e := congrArg State.cur (touchStart_cellFrame s s.cur).rest
  e

theorem cellAt_addLatch_same (s : State) (k : Nat) (l : Latch) :
    cellAt (addLatch s k l) k = { cellAt s k with lat := (cellAt s k).lat ++ [{ l with ord := s.nextId }] } := by
  simp [addLatch]

/-- t is s but for what the issue of a word of cell k may change (CellFrame) and the value of the cell's register d. -/
structure ScalarStep (k : Nat) (d : BitVec 6) (s t : State) : Prop where
  rest : { t with regions := s.regions, nextId := s.nextId, cells := s.cells } = s
  cells : ∀ j, j ≠ k → cellAt t j = cellAt s j
  cell : { cellAt t k with ss := (cellAt s k).ss, sl := (cellAt s k).sl, sc := (cellAt s k).sc, sw := (cellAt s k).sw,
                           task := (cellAt s k).task, shadow := (cellAt s k).shadow, lat := (cellAt s k).lat,
                           a := (cellAt s k).a } = cellAt s k
  reg : ∀ r, r ≠ d.toNat → readA t k r = readA s k r

theorem ScalarStep.of_frame {k : Nat} {d : BitVec 6} {s t : State} (h : CellFrame k s t) : ScalarStep k d s t where
  rest := h.rest
  cells := h.cells
  cell := by
    have ha : (cellAt t k).a = (cellAt s k).a := by have e := congrArg Cell.a h.cell; exact e
    rw [← ha]
    exact h.cell
  reg r _ := h.readA k r

/-- What is read from neither the regions, the next name nor the cells reads as before. -/
theorem ScalarStep.get {α : Type} {k : Nat} {d : BitVec 6} {s t : State} (h : ScalarStep k d s t) (f : State → α)
    (hf : f { t with regions := s.regions, nextId := s.nextId, cells := s.cells } = f t) : f t = f s :=
  hf.symm.trans (congrArg f h.rest)

/-- So does what is read in the cell from none of the fields that cell names. -/
theorem ScalarStep.getCell {α : Type} {k : Nat} {d : BitVec 6} {s t : State} (h : ScalarStep k d s t) (f : Cell → α)
    (hf : f { cellAt t k with ss := (cellAt s k).ss, sl := (cellAt s k).sl, sc := (cellAt s k).sc, sw := (cellAt s k).sw,
                              task := (cellAt s k).task, shadow := (cellAt s k).shadow, lat := (cellAt s k).lat,
                              a := (cellAt s k).a } = f (cellAt t k)) : f (cellAt t k) = f (cellAt s k) :=
  hf.symm.trans (congrArg f h.cell)

theorem ScalarStep.writeA {k : Nat} {d : BitVec 6} {s u : State} (h : CellFrame k s u) (hk : isCore k = false) (v : Word) :
    ScalarStep k d s (writeA u k d.toNat v) := by
  by_cases hr : d.toNat = 0
  · rw [hr, writeA_zero]
    exact .of_frame h
  · refine ⟨?_, fun j hj => ?_, ?_, fun r hr => ?_⟩
    · simp only [Machine.writeA, hr, hk, if_false, Bool.false_eq_true]
      exact h.rest
    · simpa [Machine.writeA, hr, hk, hj] using h.cells j hj
    · simp only [Machine.writeA, hr, hk, if_false, Bool.false_eq_true, cellAt_setCell, if_true]
      exact (ScalarStep.of_frame (d := d) h).cell
    · rw [readA_writeA, if_neg hr, h.readA]
      split
      · next h0 => rw [h0, readA_zero]
      · rfl

theorem landA_scalarStep {s u : State} {c : Ctx} (h : CellFrame c.key s u) (hk : isCore c.key = false) (d : BitVec 6) (v : Word)
    (n : Nat) : ScalarStep c.key d s (landA u c d v n) := by
  unfold landA
  split
  · split
    · exact .of_frame h
    · exact .of_frame (h.trans (addLatch_cellFrame _ _ _))
  · exact .writeA h hk v

/-- A word whose effect is to land one value in register d of its cell. -/
theorem word_scalarStep {lg : Legal} {regs : List (BitVec 6)} {d : BitVec 6} {g : Ctx → State → Word} {n : Nat} {s t : State}
    (hc : isCore s.cur = false) (h : word lg regs (fun c u => .ok (landA u c d (g c u) n)) s = .next t) :
    ScalarStep s.cur d s t := by
  have hk := ctxAt_touchStart_key s
  have hu := touchStart_cellFrame s s.cur
  cases h
  have hcases := runWord_cases lg regs (fun c u => .ok (landA u c d (g c u) n)) s
  dsimp only at hcases
  generalize touchStart s s.cur = u at hu hk hcases
  generalize ctxAt u = c at hk hcases
  generalize s.cur = k at hu hk hc
  subst hk
  have hs := fun st => hu.trans (setStreamAt_cellFrame c.seq st hc)
  obtain h | ⟨js, f, h⟩ | h | ⟨js, ⟨t, ht, h⟩ | ⟨t, pc, ht, h⟩ | ⟨t, f, ht, h⟩⟩ := hcases
  · rw [h]; exact .of_frame (.refl _ _)
  · rw [h]
    have hf := takeFault_cellFrame (setStreamAt u c.key c.seq (c.st.advance (issueNow u c) js))
      { key := c.key, seq := c.seq, pc := c.pc, word := u.curWord } f hc
    exact .of_frame ((hs _).trans hf)
  · rw [h]; exact .of_frame (waitWord_cellFrame _ _ hc)
  · cases ht; rw [h]; exact landA_scalarStep (hs _) hc d _ n
  · cases ht
  · cases ht

theorem exec_scalarStep {i : Instr} {d : BitVec 6} {s t : State} (hd : Rules.scalarDest i = some d) (hc : isCore s.cur = false)
    (h : exec i s = .next t) : ScalarStep s.cur d s t := by
  cases i <;> simp only [Rules.scalarDest, Option.some.injEq, reduceCtorEq] at hd
  all_goals subst hd; exact word_scalarStep hc h

end Sys2Proof.Machine

open Sys2Proof Sys2Proof.Machine

/-- Settles O55: the step falls through to the agent that is ready, and each of its three answers is one branch of runAgent. -/
theorem stepRunsTheWord : Obligations.StepRunsTheWord := by
  intro s key q hp hi hd hr
  have hs := step_readyAgent hp hi hd hr
  refine ⟨fun i hb he => ?_, fun r hb he => ?_, fun hb his => ?_, rfl, rfl, rfl, rfl, rfl, rfl⟩
  · simp [hs, runAgent, hb, he]
  · simp [hs, runAgent, hb, he]
  · simp only [hs, runAgent, hb, if_true]
    exact fetchFault_of_issues his

/-- Settles O56: the reset state, by evaluation. -/
theorem resetInvariant : Obligations.ResetInvariant :=
  ⟨⟨rfl, by decide⟩, rfl, rfl, rfl, rfl, by decide⟩

/-- Settles O58: an issue is a cell frame and at most one register write; both leave everything that the statement names. -/
theorem scalarFrame : Obligations.ScalarFrame := by
  intro s t i d hd hc h
  have hf := exec_scalarStep hd hc h
  exact ⟨fun a => hf.get (memByte · a) rfl, hf.get State.tens rfl, hf.get State.tt rfl, hf.get State.pregs rfl,
    hf.get State.cores rfl, hf.get State.queues rfl, hf.get State.reqs rfl, hf.get State.ops rfl, hf.get State.records rfl,
    hf.cells, hf.reg, hf.getCell Cell.v rfl, hf.getCell Cell.m rfl, hf.getCell Cell.k rfl, hf.getCell Cell.q rfl,
    hf.getCell Cell.spad rfl, hf.getCell Cell.pwb rfl, hf.getCell Cell.inb rfl, hf.getCell Cell.dl rfl, hf.getCell Cell.dw rfl,
    hf.getCell Cell.csr rfl, hf.getCell Cell.mx rfl, hf.getCell Cell.gs rfl, hf.getCell Cell.fifo rfl⟩

/-- Settles O59, by the mode of the stream. -/
theorem scalarResultsLand : Obligations.ScalarResultsLand := by
  intro s c d v n
  refine ⟨?_, fun hd hnow => ?_, fun hd ht hc => ⟨fun r => ?_, ?_⟩⟩
  · rintro rfl
    exact ⟨landA_zero s c v n, readA_zero _ _⟩
  · have hd' : d.toNat ≠ 0 := fun h => hd (BitVec.eq_of_toNat_eq h)
    simp only [landA_now s c d v n hnow, readA_writeA]
    refine ⟨by simp [hd'], fun r hr => ?_⟩
    by_cases h0 : r = 0 <;> simp [h0, hr]
  · rw [landA_timed s c d v n ht hc hd]
    exact (addLatch_cellFrame _ _ _).readA _ _
  · rw [landA_timed s c d v n ht hc hd, cellAt_addLatch_same]

end

