-- ==== Sys2Proof/Proofs/Landings.lean ====
section
/-! SUPPORT. The landing of the one update in flight of a cell (R41). -/

namespace Sys2Proof.Machine

theorem qEnts_setCell (s : State) (key n : Nat) (c : Cell) (h : c.q = (cellAt s key).q) :
    qEnts (setCell s key c) key n = qEnts s key n := by
  simp [qEnts, h]

/-- The only latch of a cell, when it is due, is the next one to land. -/
theorem nextLatch_single {s : State} {key : Nat} {stop : Bool} {l : Latch} (hl : (cellAt s key).lat = [l])
    (hd : latchDue s key stop l = true) : nextLatch s key stop = some l := by
  simp [nextLatch, hl, hd, insLatch]

theorem applyLatch_single {s : State} {key : Nat} {l : Latch} (hl : (cellAt s key).lat = [l]) :
    applyLatch s key l = landOne (setCell s key { cellAt s key with lat := [] }) key l := by
  simp [applyLatch, hl]

/-- So RESULT_LANDING is its effect in the state without it. -/
theorem resultLanding_single {s : State} {key : Nat} {l : Latch} (hn : landsNow s key = true) (hl : (cellAt s key).lat = [l])
    (hd : latchDue s key false l = true) :
    Runs (.resultLanding key) s (landOne (setCell s key { cellAt s key with lat := [] }) key l) := by
  have hone : (if l.cls = 1 then 1 else (cellAt s key).lat.length) = 1 := by simp [hl]
  simp only [Runs, exec_resultLanding, execResultLanding, hn, nextLatch_single hl hd, hone, landAll, Bool.not_true,
    Bool.false_eq_true, if_false, if_true, applyLatch_single hl]

/-- The landing of an entry, where its queue has room and where it has none. -/
theorem landOne_queue {s : State} {key n : Nat} {l : Latch} (ht : l.tgt = .q n) :
    landOne s key l =
      if qCap n ≤ (qEnts s key n).length then
        takeFault (if l.op = 0 then s else opStopped s l.op) (latchWho key l) { code := cSched, engn := decide (l.op ≠ 0) }
      else setQ s key n (qEnts s key n ++ [mkQEntry n l.val l.mark]) := by
  simp only [landOne, ht]

theorem landOne_token {s t : State} {key n : Nat} {l : Latch} {ok : Bool} (ht : l.tgt = .k n) (ha : addTok s key n = (t, ok)) :
    landOne s key l = if ok then t else takeFault t (latchWho key l) { code := cTokOv } := by
  simp only [landOne, ht, ha]

end Sys2Proof.Machine

open Sys2Proof Sys2Proof.Machine

/-- Settles O34: the landing is landOne of its latch, read off by target. -/
theorem resultLands : Obligations.ResultLands := by
  intro s key l hn hl hd
  have h := resultLanding_single hn hl hd
  have hq := fun n => qEnts_setCell s key n { cellAt s key with lat := [] } rfl
  refine ⟨fun r ht => ?_, fun r ht => ?_, fun r ht => ?_, fun n ht hroom => ?_, fun n ht hfull _ => ?_, fun n t ht ha => ?_,
    fun n t ht ha => ?_, fun n ht => ?_, fun ht => ?_, fun d w i ht => ?_⟩
  · simpa only [landOne, ht] using h
  · simpa only [landOne, ht] using h
  · simpa only [landOne, ht] using h
  · simpa only [landOne_queue ht, hq, if_neg (Nat.not_le.mpr hroom)] using h
  · rw [landOne_queue ht, hq, if_pos hfull] at h
    exact h
  · simpa only [landOne_token ht ha, if_true] using h
  · rw [landOne_token ht ha, if_neg Bool.false_ne_true] at h
    exact h
  · simpa only [landOne, ht] using h
  · simpa only [landOne, ht] using h
  · simpa only [landOne, ht] using h

end

