-- ==== Sys2Proof/Proofs/Deliveries.lean ====
section
/-! SUPPORT. Deliveries into queues and the end of elastic phases (R53, R110, R204). -/

namespace Sys2Proof.Machine

/-- The only delivery of a cell, when it is due, is the next one. -/
theorem nextDelivery_single {s : State} {key : Nat} {x : Inflight} (hx : (cellAt s key).inc = [x])
    (hd : x.due ≤ (regOf s key).tide) : nextDelivery s key = some x := by
  simp [nextDelivery, hx, Nat.not_lt.mpr hd]

theorem pushDelivery_single {s : State} {key : Nat} {x : Inflight} (hn : landsNow s key = true) (hx : (cellAt s key).inc = [x])
    (hd : x.due ≤ (regOf s key).tide) :
    Runs (.pushDelivery key) s
      (if qCap x.q ≤ (qEnts s key x.q).length then
        takeFault (setCell s key { cellAt s key with inc := [] })
          { key := key, seq := (qFeed s key x.q).cons, pc := ((cellAt s key).stream (qFeed s key x.q).cons).pc } { code := cSched }
      else setQ (setCell s key { cellAt s key with inc := [] }) key x.q (qEnts s key x.q ++ [mkQEntry x.q x.data x.mark])) := by
  have hf : qFeed (setCell s key { cellAt s key with inc := [] }) key x.q = qFeed s key x.q := by simp [qFeed]
  have hq := qEnts_setCell s key x.q { cellAt s key with inc := [] } rfl
  simp only [Runs, exec_pushDelivery, execPushDelivery, hn, Bool.not_true, Bool.false_eq_true, if_false, nextDelivery_single hx hd, hx,
    List.filter_cons, decide_true, List.filter_nil, hf, hq]

/-! ## Updates of the cells of a list -/

/-- What each step of a fold does to its own cell alone, it does once, when doing it again changes nothing. -/
theorem cellAt_foldl {g : State → Nat → State} {f : Cell → Cell} {P : State → Prop}
    (hg : ∀ s k j, P s → cellAt (g s k) j = if j = k then f (cellAt s k) else cellAt s j) (hP : ∀ s k, P s → P (g s k))
    (idem : ∀ c, f (f c) = f c) (l : List Nat) {s : State} (h : P s) (k : Nat) :
    cellAt (l.foldl g s) k = if k ∈ l then f (cellAt s k) else cellAt s k := by
  induction l generalizing s with
  | nil => simp
  | cons x l ih =>
    rw [List.foldl_cons, ih (hP s x h), hg s x k h]
    by_cases hk : k = x
    · subst hk; simp [idem]
    · simp [hk]

/-- t is s but for what a merge of phases changes: memory, the regions and the clock are as before, and so are the phase and the
S stream of each cell. -/
structure PhaseFrame (s t : State) : Prop where
  mem : t.mem = s.mem
  regions : t.regions = s.regions
  per : t.per = s.per
  phase : ∀ k, (cellAt t k).phase = (cellAt s k).phase
  ss : ∀ k, (cellAt t k).ss = (cellAt s k).ss

theorem PhaseFrame.refl (s : State) : PhaseFrame s s := ⟨rfl, rfl, rfl, fun _ => rfl, fun _ => rfl⟩

theorem PhaseFrame.trans {s t u : State} (h : PhaseFrame s t) (g : PhaseFrame t u) : PhaseFrame s u :=
  ⟨g.mem.trans h.mem, g.regions.trans h.regions, g.per.trans h.per, fun k => (g.phase k).trans (h.phase k),
    fun k => (g.ss k).trans (h.ss k)⟩

theorem setCell_phaseFrame (s : State) (k : Nat) (c : Cell) (hp : c.phase = (cellAt s k).phase) (hs : c.ss = (cellAt s k).ss) :
    PhaseFrame s (setCell s k c) := by
  refine ⟨rfl, rfl, rfl, fun j => ?_, fun j => ?_⟩
  all_goals
    rw [cellAt_setCell]
    split
    · next h => subst h; assumption
    · rfl

theorem dropSects_phaseFrame (s : State) (k : Nat) : PhaseFrame s (dropSects s k) := by
  have h : PhaseFrame s (setSects s k []) := by
    unfold setSects
    split
    · exact ⟨rfl, rfl, rfl, fun _ => rfl, fun _ => rfl⟩
    · exact setCell_phaseFrame s k _ rfl rfl
  exact h.trans ⟨rfl, rfl, rfl, fun _ => rfl, fun _ => rfl⟩

theorem mergeOne_phaseFrame (s : State) (l : List Nat) (ep : Nat → Nat) (k : Nat) : PhaseFrame s (mergeOne s l ep k) :=
  setCell_phaseFrame s k _ rfl rfl

/-- A cell whose phase is merged. -/
def markMerged (c : Cell) : Cell := { c with phase := c.phase.map fun p => { p with merged := true } }

/-- A cell that goes on past a merged phase of CLUSTER scope in a period. -/
def pastCluster (per : Nat) (c : Cell) : Cell :=
  if c.phase.any (fun p => decide (p.scope = 1)) then { c with phase := none, ss := { c.ss with last := per } } else c

theorem pastCluster_idem (per : Nat) (c : Cell) : pastCluster per (pastCluster per c) = pastCluster per c := by
  unfold pastCluster
  by_cases h : c.phase.any (fun p => decide (p.scope = 1)) = true <;> simp [h]

theorem pastCluster_marked {c : Cell} {p : PhasePend} (per : Nat) (hp : c.phase = some p) :
    pastCluster per (markMerged c) =
      if p.scope = 1 then { c with phase := none, ss := { c.ss with last := per } } else markMerged c := by
  unfold pastCluster markMerged
  by_cases h : p.scope = 1 <;> simp [hp, h]

theorem markMerged_idem (c : Cell) : markMerged (markMerged c) = markMerged c := by
  unfold markMerged
  cases c.phase <;> rfl

/-- The merge leaves the phase of each of its cells merged, and nothing else of the phases and the S streams changed. -/
theorem mergeAll_cells (s : State) (l : List Nat) : ∃ u, PhaseFrame s u ∧ (mergeAll s l).mem = s.mem
    ∧ (mergeAll s l).regions = s.regions ∧ (mergeAll s l).per = s.per
    ∧ ∀ k ∈ l, cellAt (mergeAll s l) k = markMerged (cellAt u k) := by
  unfold mergeAll
  dsimp only
  generalize hu : l.foldl (fun t k => dropSects (mergeOne t l _ k) k) s = u
  have hs : PhaseFrame s u := by
    rw [← hu]
    exact foldl_keeps (P := PhaseFrame s)
      (fun t k h => (h.trans (mergeOne_phaseFrame t l _ k)).trans (dropSects_phaseFrame _ k)) l s (.refl s)
  have hm := foldl_keeps (P := fun t : State => t.mem = s.mem ∧ t.regions = s.regions ∧ t.per = s.per)
    (f := fun t k => setCell t k (markMerged (cellAt t k))) (fun _ _ h => h) l u ⟨hs.mem, hs.regions, hs.per⟩
  refine ⟨u, hs, hm.1, hm.2.1, hm.2.2, fun k hk => ?_⟩
  have hc := cellAt_foldl (g := fun t k => setCell t k (markMerged (cellAt t k))) (f := markMerged) (P := fun _ => True)
    (fun _ _ _ _ => cellAt_setCell _ _ _ _) (fun _ _ _ => trivial) markMerged_idem l (s := u) trivial k
  rw [if_pos hk] at hc
  exact hc

theorem phaseEnd_ready {s : State} {key : Nat} {l : List Nat} (h : phaseReady s key = some l) :
    ∃ t u, Runs (.phaseEnd key) s t ∧ PhaseFrame s u ∧ t.mem = s.mem ∧ t.regions = s.regions
      ∧ ∀ k ∈ l, cellAt t k = pastCluster s.per (markMerged (cellAt u k)) := by
  obtain ⟨u, hu, hmem, hreg, hper, hcell⟩ := mergeAll_cells s l
  have hm := foldl_keeps (P := fun t : State => t.mem = s.mem ∧ t.regions = s.regions)
    (f := fun s k => if (cellAt s k).phase.any (fun p => decide (p.scope = 1)) then phaseOver s k else s)
    (fun t k ht => by split <;> exact ht) l _ ⟨hmem, hreg⟩
  have hg : ∀ (t : State) (k j : Nat), t.per = s.per →
      cellAt (if (cellAt t k).phase.any (fun p => decide (p.scope = 1)) then phaseOver t k else t) j
        = if j = k then pastCluster s.per (cellAt t k) else cellAt t j := by
    intro t k j ht
    unfold pastCluster phaseOver
    split
    · simp [ht]
    · split
      · next hj => rw [hj]
      · rfl
  have hc := cellAt_foldl (P := fun t => t.per = s.per) hg (fun t k ht => by split <;> exact ht) (pastCluster_idem s.per) l hper
  refine ⟨_, u, by simp only [Runs, exec_phaseEnd, execPhaseEnd, h], hu, hm.1, hm.2, fun k hk => ?_⟩
  rw [hc k, if_pos hk, hcell k hk]

theorem cellAt_dropSects_same (s : State) {key : Nat} (hk : isCore key = false) :
    cellAt (dropSects s key) key = { cellAt s key with sect := [] } := by
  have h : cellAt (setSects s key []) key = { cellAt s key with sect := [] } := by simp [setSects, hk]
  exact h

/-- The end of the implied fence of a phase lets its cell go on, with an empty sector buffer. -/
theorem phaseFenceOver_cell (s : State) {key : Nat} (hk : isCore key = false) :
    (cellAt (phaseFenceOver s key) key).phase = none ∧ (cellAt (phaseFenceOver s key) key).ss.last = s.per
      ∧ (cellAt (phaseFenceOver s key) key).sect = [] := by
  unfold phaseFenceOver
  rw [cellAt_dropSects_same _ hk]
  simp [phaseOver]

theorem phaseFenceOver_keeps (s : State) {key : Nat} (hk : isCore key = false) :
    (phaseFenceOver s key).mem = s.mem ∧ (phaseFenceOver s key).regions = s.regions := by
  unfold phaseFenceOver dropSects setSects
  simp [hk, overtake, phaseOver]

end Sys2Proof.Machine

open Sys2Proof Sys2Proof.Machine

/-- Settles O35, event by event. -/
theorem deliveriesAndPhases : Obligations.DeliveriesAndPhases := by
  intro s key
  refine ⟨fun x hn hx hd => ⟨fun hroom => ?_, fun hfull => ?_⟩, rfl, fun hl => ?_, fun l hl => ?_, fun hk hr hf => ?_⟩
  · have h := pushDelivery_single hn hx hd
    rwa [if_neg (Nat.not_le.mpr hroom)] at h
  · have h := pushDelivery_single hn hx hd
    rw [if_pos hfull] at h
    exact h
  · rw [Runs, exec_fifoWaitTimeout, execFifoWaitTimeout, if_pos hl]
    rfl
  · obtain ⟨t, u, hrun, hu, hmem, hreg, hcell⟩ := phaseEnd_ready hl
    refine ⟨t, hrun, fun k hk p hp => ?_, hmem, hreg⟩
    rw [hcell k hk, pastCluster_marked s.per ((hu.phase k).trans hp)]
    refine ⟨fun h1 => ?_, fun h1 => ?_⟩
    · simp [h1]
    · simp [h1, markMerged, hu.phase, hu.ss, hp]
  · obtain ⟨hphase, hlast, hsect⟩ := phaseFenceOver_cell s hk
    obtain ⟨hmem, hreg⟩ := phaseFenceOver_keeps s hk
    refine ⟨phaseFenceOver s key, ?_, hphase, hlast, hsect, hmem, hreg⟩
    simp only [Runs, exec_phaseEnd, execPhaseEnd, hr, hf, if_true]

end

