-- ==== Sys2Proof/Proofs/Stalls.lean ====
section
/-! SUPPORT. The pre-decode of a stream and the stalls of its region (R46 to R50). -/

namespace Sys2Proof.Machine

@[simp] theorem streamAt_setReg (s : State) (h k : Nat) (q : Seq) (r : Region) : streamAt (setReg s h r) k q = streamAt s k q := rfl

@[simp] theorem mem_setStreamAt (s : State) (k : Nat) (q : Seq) (st : Stream) : (setStreamAt s k q st).mem = s.mem := by
  unfold setStreamAt
  split <;> rfl

/-- A cell's stream with nothing fetched ahead fetches its next word, unless that word cannot be read. -/
theorem fetchAhead_first {s : State} {key : Nat} {q : Seq} (hk : isCore key = false) (hpre : (streamAt s key q).pre = [])
    (hpc : (streamAt s key q).pc < 8 * (streamAt s key q).nword) :
    fetchAhead s key q =
      if wordBad s key q (streamAt s key q).pc then s
      else setStreamAt s key q { streamAt s key q with
        pre := [((streamAt s key q).pc, tensWord s (ctxOf s key) (streamAt s key q).img (streamAt s key q).pc)] } := by
  have hin : (streamAt s key q).pc < (streamAt s key q).nword * 8 := by omega
  simp only [fetchAhead, hk, hpre, List.length_nil, fetchGap, Bool.false_eq_true, if_false, decide_eq_true hin, Bool.true_and, sset]
  cases wordBad s key q (streamAt s key q).pc <;> rfl

theorem predecode_ahead {s : State} {key : Nat} {q : Seq} (hd : preDue s key q = false) (hc : canIssue s key q = true)
    (hf : (streamAt s key q).fetchP ≤ s.per) : Runs (.predecode key q) s (fetchAhead s key q) := by
  simp [Runs, execPredecode, hd, hc, hf]

/-- A stream after a pre-decode up to cycle n: what it held for the cycles below its former limit, and the words found from there on. -/
def preStream (s : State) (key : Nat) (q : Seq) (n : Nat) : Stream :=
  let st := streamAt s key q
  let new := (ahead s key q n).filter fun x => decide (st.preTo ≤ x.cyc)
  { st with preTo := n + 1, resv := (st.resv.filter fun x => decide (x.cyc < st.preTo)) ++ new,
            retp := (st.retp.filter fun p => decide ((regOf s key).tide ≤ p.1)) ++ retReads s key q new }

theorem mem_preStream_resv {s : State} {key n : Nat} {q : Seq} {x : PreRes} (hx : x ∈ (preStream s key q n).resv)
    (hlt : x.cyc < (streamAt s key q).preTo) : x ∈ (streamAt s key q).resv := by
  rcases List.mem_append.mp hx with h | h
  · exact (List.mem_filter.mp h).1
  · have hle := of_decide_eq_true (List.mem_filter.mp h).2
    omega

/-- A pre-decode moves the stream to that, and may ask for a stall. -/
theorem predecode_due {s : State} {key n : Nat} {q : Seq} (hd : preDue s key q = true) (hn : preLimit s key = some n) :
    ∃ t, Runs (.predecode key q) s t ∧ streamAt t key q = preStream s key q n ∧ t.mem = s.mem := by
  have hs : streamAt (setStreamAt s key q (preStream s key q n)) key q = preStream s key q n := streamAt_setStreamAt_same _ _ _ _
  have hm : (setStreamAt s key q (preStream s key q n)).mem = s.mem := mem_setStreamAt _ _ _ _
  simp only [Runs, exec_predecode, execPredecode, hd, hn, Bool.not_true, Bool.false_eq_true, if_false]
  refine ⟨_, rfl, ?_, ?_⟩
  · split
    · split
      · exact hs
      · exact hs
    · exact hs
  · split
    · split
      · exact hm
      · exact hm
    · exact hm

/-! ## Stalls -/

theorem stallTimeout_stops {s : State} {h : Nat} (hl : stallLate s (regAt s h) = true) :
    ∃ t, Runs (.stallTimeout h) s t ∧ (regAt t h).stopP ≠ none := by
  have hrun : Runs (.stallTimeout h) s
      (let t := takeFault s (stallWho s (regAt s h)) { code := cStall }
       let r := regAt t h
       if r.stopP.isSome then t else setReg t h { r with haltH := r.tide, stopP := some (t.per + 64) }) := by
    simp only [Runs, exec_stallTimeout, execStallTimeout, hl, if_true]
  refine ⟨_, hrun, ?_⟩
  dsimp only
  split
  · next h => exact Option.isSome_iff_ne_none.mp h
  · simp

end Sys2Proof.Machine

open Sys2Proof Sys2Proof.Machine

/-- Settles O36, event by event. -/
theorem regionStallsAndResumes : Obligations.RegionStallsAndResumes := by
  intro s key h q
  refine ⟨fun hk hd hc hf hpre hpc => ?_, fun _ hd n hn => ?_, fun hfr => ?_, fun hfr hask hrel => ?_, fun hu => ?_,
    stallTimeout_stops, fun hl p hp => ?_⟩
  · have hrun := predecode_ahead hd hc hf
    rw [fetchAhead_first hk hpre hpc] at hrun
    refine ⟨fun hb => ?_, fun hb => ?_⟩
    · rwa [if_pos hb] at hrun
    · rw [hb, if_neg Bool.false_ne_true] at hrun
      refine ⟨_, hrun, ?_, ?_, mem_setStreamAt _ _ _ _⟩
      · rw [streamAt_setStreamAt_same]
      · rw [streamAt_setStreamAt_same]
  · obtain ⟨t, hrun, hst, hmem⟩ := predecode_due hd hn
    refine ⟨t, hrun, ?_, fun x hx hlt => ?_, hmem⟩
    · rw [hst]
      rfl
    · rw [hst] at hx
      exact mem_preStream_resv hx hlt
  · simp only [Runs, exec_regionFreeze, execRegionFreeze, hfr, if_true]
    split
    · next h => simp [h]
    · rfl
  · obtain ⟨x, hx, hxk⟩ := hask
    have hany : (regOf s key).stalls.any (fun x => decide (x.key = key ∧ x.seq = q)) = true :=
      List.any_eq_true.mpr ⟨x, hx, decide_eq_true hxk⟩
    have hdue : ((regOf s key).frozen && (regOf s key).stalls.any (fun x => decide (x.key = key ∧ x.seq = q))
        && releaseHolds s key q) = true := by simp only [hfr, hany, hrel, Bool.and_self]
    rw [Runs, exec_stallRelease, execStallRelease]
    simp only [regOf] at hdue ⊢
    rw [if_pos hdue]
    by_cases hl : ((regAt s (cellAt s key).reg).stalls.filter fun x => !decide (x.key = key ∧ x.seq = q)) = []
    · simp only [hl, List.isEmpty_nil, if_true]
    · simp only [hl, List.isEmpty_iff, if_false]
  · simp only [Runs, exec_regionStallResume, execRegionStallResume, hu, if_true]
  · simp only [Runs, exec_startWaitTimeout, execStartWaitTimeout, hl, hp, if_true]
    rfl

end

