-- ==== Sys2Proof/Proofs/QueueWords.lean ====
section
/-! SUPPORT. The words that move queue entries (R240, R241, R244). -/

namespace Sys2Proof.Machine

theorem takeEntry_head {s : State} {c : Ctx} {q : Nat} {e : QEntry} {es : List QEntry} (hc : consumer s c q = true)
    (hb : busyRead s c q = false) (he : qEnts s c.key q = e :: es) : takeEntry s c q false = .ok (e, setQ s c.key q es) := by
  simp [takeEntry, hc, hb, he]

theorem canPush_room {s : State} {c : Ctx} {q : Nat} (hp : producer s c q = true)
    (hr : c.timed = false → busyWrite s c q = false ∧ (qEnts s c.key q).length < qCap q) : canPush s c q = .ok () := by
  cases ht : c.timed
  · simp [canPush, hp, ht, hr ht]
  · simp [canPush, hp, ht]

theorem withToks_some {s t : State} {c : Ctx} {k : Toks} (f : State → Res) (h : takeToks s c.key k = some t) :
    withToks s c k f = f t := by
  simp [withToks, h]

/-- A word that no unit holds goes on where its tokens are there, or its stream is timed. -/
theorem gated_passes {s : State} {c : Ctx} {k : Toks} (f : Ctx → State → Res)
    (h : c.timed = false → (takeToks s c.key k).isSome = true) : gated k (fun _ _ => false) f c s = f c s := by
  cases ht : c.timed
  · simp [gated, ht, Option.isNone_eq_false_iff.mpr (h ht)]
  · simp [gated, ht]

/-- A target within the address range is the word's offset plus 8 for each word of the distance (R157). -/
theorem target_signExtend {c : Ctx} {off : BitVec 32} {y : Nat} (hy : (y : Int) = c.pc + 8 * off.toInt) (hlt : y < 2 ^ 64) :
    target c (off.signExtend 64) = y := by
  have hshift : off.signExtend 64 <<< 3 = BitVec.ofInt 64 (8 * off.toInt) := by
    rw [BitVec.shiftLeft_eq_mul_twoPow, BitVec.ofInt_mul, BitVec.mul_comm]
    rfl
  have hsum : BitVec.ofNat 64 c.pc + off.signExtend 64 <<< 3 = BitVec.ofNat 64 y := by
    rw [hshift, ← BitVec.ofInt_natCast, ← BitVec.ofInt_natCast, ← BitVec.ofInt_add, hy]
  rw [target, hsum, BitVec.toNat_ofNat, Nat.mod_eq_of_lt hlt]

theorem jumpTo_inImage {s : State} {c : Ctx} {pc : Nat} (h : inImage s c pc = true) : jumpTo s c pc = .goto s pc := by
  simp [jumpTo, h]

theorem push_sends {s t : State} {q : BitVec 4} {ch : BitVec 8} {k : Toks} {x : Chan} {dest : Nat} {e : QEntry} {es : List QEntry}
    (hx : chanOf (moved s) (issueCtx s).key ch.toNat = some x) (hd : chanDest (moved s) (issueCtx s).key x = some dest)
    (hi : Issues lgPush [] s) (hw : qBits x.q = qBits q.toNat) (hc : consumer (moved s) (issueCtx s) q.toNat = true)
    (hb : busyRead (moved s) (issueCtx s) q.toNat = false) (he : qEnts (moved s) (issueCtx s).key q.toNat = e :: es)
    (ht : takeToks (setQ (moved s) (issueCtx s).key q.toNat es) (issueCtx s).key k = some t) :
    Runs (.push q ch k) s (sendChan t (issueCtx s).key dest x e.data e.mark (issueCtx s).t) := by
  simp only [Runs, exec_push, execPush, word_of_issues hi, hx, hd, hw, takeEntry_head hc hb he, Got.then, withToks_some _ ht,
    ne_eq, not_true, if_false]
  rfl

theorem pushR_sends {s t : State} {a : BitVec 6} {ch : BitVec 8} {k : Toks} {x : Chan} {dest : Nat}
    (hx : chanOf (moved s) (issueCtx s).key ch.toNat = some x) (hd : chanDest (moved s) (issueCtx s).key x = some dest)
    (hi : Issues lgPush [a] s) (hw : qBits x.q = 64) (ht : takeToks (moved s) (issueCtx s).key k = some t) :
    Runs (.pushR a ch k) s (sendChan t (issueCtx s).key dest x ((src s a).setWidth 2048) false (issueCtx s).t) := by
  simp only [Runs, exec_pushR, execPushR, word_of_issues hi, hx, hd, hw, withToks_some _ ht, ne_eq, not_true, if_false]
  rfl

theorem movq_moves {s t : State} {q q2 : BitVec 4} {k : Toks} {e : QEntry} {es : List QEntry} (hi : Issues lgLW [] s)
    (hg : (issueCtx s).timed = false → (takeToks (moved s) (issueCtx s).key k).isSome = true)
    (hw : qBits q.toNat = qBits q2.toNat) (hp : producer (moved s) (issueCtx s) q2.toNat = true)
    (hf : (qFeed (moved s) (issueCtx s).key q2.toNat).kind = (if (issueCtx s).timed then .sched else .mem))
    (hc : consumer (moved s) (issueCtx s) q.toNat = true) (hb : busyRead (moved s) (issueCtx s) q.toNat = false)
    (he : qEnts (moved s) (issueCtx s).key q.toNat = e :: es)
    (hr : (issueCtx s).timed = false → busyWrite (moved s) (issueCtx s) q2.toNat = false ∧
      (qEnts (moved s) (issueCtx s).key q2.toNat).length < qCap q2.toNat)
    (ht : takeToks (setQ (moved s) (issueCtx s).key q.toNat es) (issueCtx s).key k = some t) :
    Runs (.movq q2 q k) s (landQ t (issueCtx s) q2.toNat e 1) := by
  simp only [Runs, exec_movq, execMovq, word_of_issues hi, gated_passes _ hg, hw, hp, hf,
    takeEntry_head hc hb he, canPush_room hp hr, Got.then, withToks_some _ ht, ne_eq, not_true, Bool.not_true,
    Bool.false_eq_true, or_self, if_false]
  rfl

/-- What BRQ does with the condition and the entries of a queue that it may read. -/
def brqRes (m : State) (c : Ctx) (n y : Nat) : Nat → List QEntry → Res
  | 0, [] => .wait
  | 0, e :: es => if e.mark then .goto (setQ m c.key n es) y else .ok m
  | 1, [] => .wait
  | 1, e :: _ => if e.mark then .ok m else .goto m y
  | 2, l => if l.isEmpty then .goto m y else .ok m
  | _, l => if l.isEmpty then .ok m else .goto m y

theorem brq_decides {s : State} {q : BitVec 4} {cnd : BitVec 3} {off : BitVec 32} {y : Nat}
    (hi : Issues { spaces := [.lw], timed := false } [] s) (hc : consumer (moved s) (issueCtx s) q.toNat = true)
    (hb : busyRead (moved s) (issueCtx s) q.toNat = false) (hy : (y : Int) = (issueCtx s).pc + 8 * off.toInt)
    (hlt : y < 2 ^ 64) (hin : inImage (moved s) (issueCtx s) y = true) (h4 : cnd.toNat < 4) :
    Runs (.brq q cnd off) s
      (answered s (brqRes (moved s) (issueCtx s) q.toNat y cnd.toNat (qEnts (moved s) (issueCtx s).key q.toNat))) := by
  have hgo : jumpTo (moved s) (issueCtx s) y = .goto (moved s) y := jumpTo_inImage hin
  have hpop : ∀ es, jumpTo (setQ (moved s) (issueCtx s).key q.toNat es) (issueCtx s) y =
      .goto (setQ (moved s) (issueCtx s).key q.toNat es) y := fun es => jumpTo_inImage hin
  simp only [Runs, exec_brq, execBrq, word_of_issues hi, hc, hb, target_signExtend hy hlt, hgo, hpop, Nat.not_le.mpr h4,
    Bool.not_true, Bool.false_eq_true, or_self, if_false]
  rfl

end Sys2Proof.Machine

open Sys2Proof Sys2Proof.Machine

/-- Settles O19, word by word; BRQ by its condition and the oldest entry. -/
theorem queueMovesAndPushes : Obligations.QueueMovesAndPushes := by
  intro s q q2 a ch k cnd off x dest y c m n
  refine ⟨fun hx hd => ⟨fun e es hi hw hc hb he t ht => push_sends hx hd hi hw hc hb he ht,
      fun hi hw t ht => pushR_sends hx hd hi hw ht⟩,
    fun hi hg hw hp hf hc hb e es he hr t ht => movq_moves hi hg hw hp hf hc hb he hr ht, fun hi hc hb hy hlt hin => ?_⟩
  have hrun : ∀ i : Fin 4, cnd.toNat = i → ∀ t, answered s (brqRes m c n y i (qEnts m c.key n)) = t →
      Runs (.brq q cnd off) s t :=
    fun i hcnd t ht => by
      rw [← ht, ← hcnd]
      exact brq_decides hi hc hb hy hlt hin (hcnd ▸ i.isLt)
  refine ⟨fun e es he => ⟨?_, ?_, ?_, ?_, ?_, ?_⟩, fun he => ⟨?_, ?_⟩⟩ <;> rw [he] at hrun
  · rintro rfl hm
    exact hrun 0 rfl _ (congrArg (answered s) (if_pos hm))
  · rintro rfl hm
    exact hrun 0 rfl _ (congrArg (answered s) (if_neg (ne_true_of_eq_false hm)))
  · rintro rfl hm
    exact hrun 1 rfl _ (congrArg (answered s) (if_pos hm))
  · rintro rfl hm
    exact hrun 1 rfl _ (congrArg (answered s) (if_neg (ne_true_of_eq_false hm)))
  · rintro rfl
    exact hrun 2 rfl _ rfl
  · rintro rfl
    exact hrun 3 rfl _ rfl
  · rintro rfl
    exact hrun 2 rfl _ rfl
  · rintro rfl
    exact hrun 3 rfl _ rfl

end

