-- ==== Sys2Proof/Proofs/ControlWords.lean ====
section
/-! SUPPORT. The words that control a stream and the points that its region reaches together. -/

namespace Sys2Proof.Machine

@[simp] theorem curIdle_setStreamAt (s : State) (k : Nat) (q : Seq) (st : Stream) : (setStreamAt s k q st).curIdle = s.curIdle := by
  unfold setStreamAt
  split <;> rfl

@[simp] theorem curIdle_moved (s : State) : (moved s).curIdle = s.curIdle := by
  rw [moved, curIdle_setStreamAt]
  have e := congrArg State.curIdle (touchStart_cellFrame s s.cur).rest
  exact e

theorem cellAt_setStreamAt_reg (s : State) (k j : Nat) (q : Seq) (st : Stream) :
    (cellAt (setStreamAt s k q st) j).reg = (cellAt s j).reg := by
  unfold setStreamAt
  split
  · rfl
  · rw [cellAt_setCell]
    split
    · next h => rw [setStream_reg, h]
    · rfl

/-- The stream of a cell is in the cell. -/
theorem setStreamAt_cell {s : State} {k : Nat} (q : Seq) (st : Stream) (hk : isCore k = false) :
    setStreamAt s k q st = setCell s k ((cellAt s k).setStream q st) := by
  rw [setStreamAt, hk, if_neg Bool.false_ne_true]

/-- The boundary is the first one that lies at least n periods ahead. -/
theorem boundaryAfter_spec (s : State) (n : Nat) :
    s.per + n ≤ boundaryAfter s n ∧ boundaryAfter s n < s.per + n + 256 ∧ (s.frame + (boundaryAfter s n - s.per)) % 256 = 0 := by
  unfold boundaryAfter
  omega

theorem waitNopEnd : Rules.WaitNopEnd := by
  intro s n c
  refine ⟨fun hi => ⟨?_, ?_⟩, fun hi hj => ?_, fun hi ht hj => ?_⟩
  · simp only [Runs, exec_nop, execNop, word_of_issues hi]
    rfl
  · simp only [Runs, exec_waitc, execWaitc, word_of_issues hi]
    rfl
  · have hfree : ((issueCtx s).timed && !(streamAt (moved s) (issueCtx s).key (issueCtx s).seq).joins.isEmpty) = false := by
      cases ht : (issueCtx s).timed
      · rfl
      · rw [hj ht]
        rfl
    simp only [Runs, exec_endw, execEndw, word_of_issues hi, hfree, Bool.false_eq_true, if_false]
    rfl
  · have hheld : ((issueCtx s).timed && !(streamAt (moved s) (issueCtx s).key (issueCtx s).seq).joins.isEmpty) = true := by
      simpa [c] using And.intro ht hj
    simp only [Runs, exec_endw, execEndw, word_of_issues hi, hheld, if_true]
    rfl

theorem timedRegionBegins : Rules.TimedRegionBegins := by
  intro s hi c h u r last
  refine ⟨fun hp hidle hl => ?_, fun hp hidle hl => ⟨boundaryAfter u 64, ?_, boundaryAfter_spec u 64⟩, fun hp hidle hk => ?_⟩
  · simp only [Runs, exec_alignf, execAlignf, word_of_issues hi, curIdle_moved]
    rw [if_neg fun hbad => hbad.elim (· hp) hidle]
    exact congrArg _ (congrArg (answered s) (if_neg (ne_true_of_eq_false hl)))
  · simp only [Runs, exec_alignf, execAlignf, word_of_issues hi, curIdle_moved]
    rw [if_neg fun hbad => hbad.elim (· hp) hidle]
    exact congrArg _ (congrArg (answered s) (if_pos hl))
  · let st : Stream := { streamAt (moved s) c.key c.seq with pos := 2, last := 0, joins := [] }
    have hv : onStream (moved s) c (fun st => { st with pos := 2, last := 0, joins := [] }) =
        setCell (moved s) c.key ((cellAt (moved s) c.key).setStream c.seq st) := setStreamAt_cell c.seq st hk
    have hrun : Runs .start s (let v := onStream (moved s) c fun st => { st with pos := 2, last := 0, joins := [] }
        setReg v (cellAt v c.key).reg { regAt v (cellAt v c.key).reg with started := true, tide := 0 }) := by
      simp only [Runs, exec_start, execStart, word_of_issues hi, curIdle_moved]
      rw [if_neg fun hbad => hbad.elim (· hp) (· hidle)]
      rfl
    rw [hv] at hrun
    refine ⟨_, hrun, ?_⟩
    simp [h, st]

theorem slackFaults_none {s : State} {c : Ctx} (h : ∀ k ∈ regCells (regOf s c.key), slackBad s c.t k = false) :
    slackFaults s c = s := by
  unfold slackFaults
  generalize regCells (regOf s c.key) = l at h
  induction l with
  | nil => rfl
  | cons k ks ih =>
    rw [List.foldl_cons, h k (List.mem_cons_self ..)]
    exact ih fun j hj => h j (List.mem_cons_of_mem _ hj)

/-- The state in which the region of the running word has reached slack point n (R370). -/
def slackReached (m : State) (c : Ctx) (n : BitVec 16) : State :=
  setReg m (cellAt m c.key).reg { regOf m c.key with agree := some (c.t, 0, n.toNat), slackd := 0, lastix := n }

/-- What SLACK of an index of the table comes to. -/
def slackRes (m : State) (c : Ctx) (n : BitVec 16) : Res :=
  if c.timed then
    if !agreed m c 0 n.toNat (nextIs m (.slack n)) then schedMiss
    else .ok (if (regOf m c.key).agree = some (c.t, 0, n.toNat) then slackReached m c n else slackFaults (slackReached m c n) c)
  else if c.st.task || (regOf m c.key).swait.isNone then .ok m
  else .ok (onStream m c fun st => { st with held := some n.toNat })

theorem slack_issued {s : State} {n : BitVec 16} (hi : Issues { trap := false, rebuild := false } [] s) (hn : n ≠ 0xFFFF)
    (hlen : n.toNat < (cellAt (moved s) (issueCtx s).key).slack.length) :
    Runs (.slack n) s (answered s (slackRes (moved s) (issueCtx s) n)) := by
  have hok : ¬(n = 0xFFFF ∨ (cellAt (moved s) (issueCtx s).key).slack.length ≤ n.toNat) :=
    fun hbad => hbad.elim hn (Nat.not_le.mpr hlen)
  simp only [Runs, exec_slack, execSlack, word_of_issues hi, if_neg hok]
  generalize moved s = m
  generalize issueCtx s = c
  congr 2
  unfold slackRes
  split
  · by_cases hr : (regOf m c.key).agree = some (c.t, 0, n.toNat)
    · have hr' : (regAt m (cellAt m c.key).reg).agree = some (c.t, 0, n.toNat) := hr
      simp only [hr, hr', decide_true, Bool.not_true, Bool.false_eq_true, if_false, if_true]
      rfl
    · have hr' : (regAt m (cellAt m c.key).reg).agree ≠ some (c.t, 0, n.toNat) := hr
      simp only [hr, hr', decide_false, Bool.not_false, if_false, if_true]
      rfl
  · cases htask : c.st.task <;> cases hw : (regOf m c.key).swait <;> simp only [regOf] at hw <;> simp [hw]

/-- The slack point of a timed stream: the faults of the cells that are not at rest come with the first stream there. -/
theorem slackRes_timed {m : State} {c : Ctx} {n : BitVec 16} (ht : c.timed = true)
    (ha : agreed m c 0 n.toNat (nextIs m (.slack n)) = true) : slackRes m c n =
      .ok (if (regOf m c.key).agree = some (c.t, 0, n.toNat) then slackReached m c n else slackFaults (slackReached m c n) c) := by
  simp [slackRes, ht, ha]

theorem regCells_slackReached (m : State) (c : Ctx) (n : BitVec 16) :
    regCells (regOf (slackReached m c n) c.key) = regCells (regOf m c.key) := by
  have hreg : regOf (slackReached m c n) c.key =
      { regOf m c.key with agree := some (c.t, 0, n.toNat), slackd := 0, lastix := n } :=
    (regAt_setReg _ _ _ _).trans (if_pos rfl)
  rw [hreg]
  rfl

theorem slackPoint : Rules.SlackPoint := by
  intro s n hi c m h r hn hlen
  have hrun : ∀ u, slackRes m c n = u → Runs (.slack n) s (answered s u) := fun u hu => hu ▸ slack_issued hi hn hlen
  refine ⟨fun ht hw => hrun (.ok m) ?_, fun ht hk hw => hrun (.ok _) ?_, fun ht ha _ hb => ?_,
    fun ht ha => hrun (.ok _) (slackRes_timed ht ha), fun ht ha => hrun schedMiss ?_⟩
  · have hidle : (c.st.task || (regOf m c.key).swait.isNone) = true := by
      have hw' : c.st.task = true ∨ (regOf m c.key).swait = none := hw
      simpa [Option.isNone_iff_eq_none] using hw'
    rw [slackRes, if_neg (ne_true_of_eq_false ht), if_pos hidle]
  · have hheld : (c.st.task || (regOf m c.key).swait.isNone) = false := by
      have hw' : (regOf m c.key).swait ≠ none := hw
      simpa [hk, Option.isNone_eq_false_iff, Option.isSome_iff_ne_none] using hw'
    rw [slackRes, if_neg (ne_true_of_eq_false ht), hheld, if_neg Bool.false_ne_true]
    rfl
  · have h3 := hrun _ (slackRes_timed ht ha)
    rwa [slackFaults_none fun k hk => hb k (regCells_slackReached m c n ▸ hk) _ rfl, ite_self] at h3
  · simp [slackRes, ht, ha]

/-- The state in which the region of the running word has reached turn point n (R217): its first stream there takes the level. -/
def turnReached (m : State) (c : Ctx) (n : BitVec 16) : State :=
  let h := (cellAt m c.key).reg
  if (regAt m h).agree = some (c.t, 1, n.toNat) then m
  else
    let l := turnLevel m
    let r := regAt l h
    setReg l h { r with agree := some (c.t, 1, n.toNat), grant := l.grant, var := BitVec.ofNat 2 (varOf l l.grant.toNat),
                        turns := if r.turns = 0xFFFFFFFF then r.turns else r.turns + 1 }

/-- TURN goes to the continuation of the variant that is then the region's. -/
theorem turn_goes {s : State} {n : BitVec 16} {e : Word} {y : Nat}
    (hi : Issues { elastic := false, trap := false, rebuild := false } [] s) (he : (issueCtx s).st.turns[n.toNat]? = some e)
    (ha : agreed (moved s) (issueCtx s) 1 n.toNat (nextIs (moved s) (.turn n)) = true)
    (hin : inImage (turnReached (moved s) (issueCtx s) n) (issueCtx s) y = true)
    (hy : y = 8 * bits e
      (16 * (regAt (turnReached (moved s) (issueCtx s) n) (cellAt (moved s) (issueCtx s).key).reg).var.toNat + 15)
      (16 * (regAt (turnReached (moved s) (issueCtx s) n) (cellAt (moved s) (issueCtx s).key).reg).var.toNat)) :
    Runs (.turn n) s (goneTo s (turnReached (moved s) (issueCtx s) n) y) := by
  subst hy
  have hjump := jumpTo_inImage hin
  simp only [Runs, exec_turn, execTurn, word_of_issues hi, he, ha, Bool.not_true, Bool.false_eq_true, if_false]
  refine congrArg Host.Outcome.next (Eq.trans (congrArg (answered s) ?_) (congrArg (answered s) hjump))
  unfold turnReached
  by_cases hr : (regAt (moved s) (cellAt (moved s) (issueCtx s).key).reg).agree = some ((issueCtx s).t, 1, n.toNat)
  · simp only [hr, decide_true, Bool.not_true, Bool.false_eq_true, if_false, if_true]
  · simp only [hr, decide_false, Bool.not_false, if_false, if_true]

theorem turnPoint : Rules.TurnPoint := by
  intro s n e y hi c m h
  have hrun : exec (.turn n) s = _ := word_of_issues hi _
  refine ⟨fun hnone => ?_, fun he ha => ?_, fun he ha => ⟨fun hr hin hy => ?_, fun hr => ?_⟩⟩
  · have hnone' : (issueCtx s).st.turns[n.toNat]? = none := hnone
    rw [hnone'] at hrun
    exact hrun
  · have he' : (issueCtx s).st.turns[n.toNat]? = some e := he
    have ha' : agreed (moved s) (issueCtx s) 1 n.toNat (nextIs (moved s) (.turn n)) = false := ha
    simp only [he', ha', Bool.not_false, if_true] at hrun
    exact hrun
  · have hu : turnReached m c n = m := if_pos hr
    have hgo := turn_goes (y := y) hi he ha
    rw [hu] at hgo
    exact hgo hin hy
  · intro l v r u hin hy
    have hu : turnReached m c n = u := if_neg hr
    have hvar : (regAt u h).var.toNat = v % 4 := by simp [u]
    have hgo := turn_goes (y := y) hi he ha
    rw [hu] at hgo
    exact hgo hin (hvar ▸ hy)

end Sys2Proof.Machine

open Sys2Proof Sys2Proof.Machine

/-- Settles O5, word by word. -/
theorem streamControlWords : Obligations.StreamControlWords := ⟨waitNopEnd, timedRegionBegins, slackPoint, turnPoint⟩

end

