-- ==== Sys2Proof/Proofs/HostWrites.lean ====
section
/-! SUPPORT. What the host's side of the machine leaves unchanged as it writes memory and answers commands (R422, R436). -/

namespace Sys2Proof.Machine

/-- t is s but for what a write to a home may change: memory with its bits in error and the boot slots, the tile tables, the
copies under way, and the samplers. -/
structure HomeFrame (s t : State) : Prop where
  rest : { t with mem := s.mem, bad := s.bad, bslots := s.bslots, tt := s.tt, migs := s.migs, hot := s.hot } = s

theorem HomeFrame.refl (s : State) : HomeFrame s s := ⟨rfl⟩

theorem HomeFrame.trans {s t u : State} (h : HomeFrame s t) (g : HomeFrame t u) : HomeFrame s u where
  rest :=
    have e := congrArg
      (fun x : State => { x with mem := s.mem, bad := s.bad, bslots := s.bslots, tt := s.tt, migs := s.migs, hot := s.hot }) g.rest
    e.trans h.rest

/-- What is read from none of those reads as before. -/
theorem HomeFrame.get {α : Type} {s t : State} (h : HomeFrame s t) (f : State → α)
    (hf : f { t with mem := s.mem, bad := s.bad, bslots := s.bslots, tt := s.tt, migs := s.migs, hot := s.hot } = f t) : f t = f s :=
  hf.symm.trans (congrArg f h.rest)

theorem setEntry_homeFrame (s : State) (ctx tens tile : Nat) (e : Word) : HomeFrame s (setEntry s ctx tens tile e) := by
  unfold setEntry
  split
  · exact .refl s
  · dsimp only
    split
    · exact ⟨rfl⟩
    · split <;> exact ⟨rfl⟩

theorem pinTile_homeFrame (s : State) (ctx tens tile : Nat) (up : Bool) : HomeFrame s (pinTile s ctx tens tile up) :=
  setEntry_homeFrame ..

theorem pinTable_homeFrame (s : State) (ctx : Nat) (up : Bool) : HomeFrame s (pinTable s ctx up) := by
  unfold pinTable
  split
  · exact .refl s
  · exact foldl_keeps (P := HomeFrame s) (fun _ _ h => h.trans (pinTile_homeFrame ..)) _ _ (.refl s)

theorem zeroFill_homeFrame (s : State) (ctx tens tile : Nat) : HomeFrame s (zeroFill s ctx tens tile) := by
  unfold zeroFill
  dsimp only
  split
  · refine .trans ?_ (setEntry_homeFrame ..)
    exact ⟨rfl⟩
  · exact .refl s

theorem homeWrite_homeFrame (s : State) (ctx tens tile off : Nat) (bs : List Byte) :
    HomeFrame s (homeWrite s ctx tens tile off bs) := by
  unfold homeWrite
  split
  · exact ⟨rfl⟩
  · dsimp only
    have hz := zeroFill_homeFrame s ctx tens tile
    generalize zeroFill s ctx tens tile = u at hz
    exact hz.trans ⟨rfl⟩

theorem hostWrite_homeFrame (s : State) (ctx : Nat) (a : Word) (bs : List Byte) : HomeFrame s (hostWrite s ctx a bs) := by
  unfold hostWrite
  split
  · exact .refl s
  · refine foldl_keeps (P := HomeFrame s) (fun t i h => h.trans ?_) _ _ (.refl s)
    dsimp only
    split
    · exact homeWrite_homeFrame ..
    · exact homeWrite_homeFrame ..

theorem hotSample_homeFrame (s : State) (ctx tens tile : Nat) : HomeFrame s (hotSample s ctx tens tile) := by
  unfold hotSample
  dsimp only
  split
  · exact .refl s
  · split <;> exact ⟨rfl⟩

theorem hostPut_homeFrame (s : State) (ctx : Nat) (a : Word) (bs : List Byte) : HomeFrame s (hostPut s ctx a bs) := by
  unfold hostPut hostCount
  split
  · refine (hostWrite_homeFrame s ctx a bs).trans ?_
    split
    · exact .refl _
    · exact foldl_keeps (P := HomeFrame _) (fun _ _ h => h.trans (hotSample_homeFrame ..)) _ _ (.refl _)
  · exact .refl s

theorem cellAt_hostPut (s : State) (ctx : Nat) (a : Word) (bs : List Byte) (k : Nat) :
    cellAt (hostPut s ctx a bs) k = cellAt s k :=
  (hostPut_homeFrame s ctx a bs).get (cellAt · k) rfl

theorem queueAt_hostPut (s : State) (ctx : Nat) (a : Word) (bs : List Byte) (n : Nat) :
    queueAt (hostPut s ctx a bs) n = queueAt s n :=
  (hostPut_homeFrame s ctx a bs).get (queueAt · n) rfl

/-! ## Queues and completions -/

theorem queueAt_setQueue (s : State) (n j : Nat) (q : HQueue) :
    queueAt (setQueue s n q) j = if j = n then some q else queueAt s j := by
  unfold setQueue
  dsimp only
  split
  · simp [queueAt]
  · rw [queueAt_hostPut]
    simp [queueAt]

theorem setQueue_regions (s : State) (n : Nat) (q : HQueue) : (setQueue s n q).regions = s.regions := by
  unfold setQueue
  dsimp only
  split
  · rfl
  · exact (hostPut_homeFrame ..).get State.regions rfl

theorem sendHost_rest (s : State) (conn typ qnum : Nat) (data : List Word) (bytes : List Byte) :
    (sendHost s conn typ qnum data bytes).regions = s.regions ∧ (sendHost s conn typ qnum data bytes).queues = s.queues := by
  unfold sendHost
  split
  · exact ⟨rfl, rfl⟩
  · unfold sendOn
    dsimp only
    split <;> exact ⟨rfl, rfl⟩

/-- A completion leaves the regions, and every queue but its own. -/
theorem complete_rest (s : State) (c : CmdRef) (status handle fcode disc slot : Nat) :
    (complete s c status handle fcode disc slot).regions = s.regions
      ∧ ∀ n ≠ c.queue, queueAt (complete s c status handle fcode disc slot) n = queueAt s n := by
  unfold complete
  split
  · exact ⟨rfl, fun _ _ => rfl⟩
  · next q _ =>
    dsimp only
    generalize hp : hostPut s q.ctx _ _ = p
    have hframe : HomeFrame s p := hp ▸ hostPut_homeFrame ..
    have hr := (setQueue_regions p c.queue { q with dne := q.dne + 1 }).trans (hframe.get State.regions rfl)
    have hq : ∀ n ≠ c.queue, queueAt (setQueue p c.queue { q with dne := q.dne + 1 }) n = queueAt s n := fun n hn => by
      rw [queueAt_setQueue, if_neg hn]
      exact hframe.get (queueAt · n) rfl
    split
    · have hs := fun d => sendHost_rest (setQueue p c.queue { q with dne := q.dne + 1 }) q.conn tEvent c.queue d []
      refine ⟨(hs _).1.trans hr, fun n hn => ?_⟩
      exact (congrArg (fun l => sfind l n) (hs _).2).trans (hq n hn)
    · exact ⟨hr, hq⟩

theorem regAt_answer (s : State) (c : Cmd) (status handle h : Nat) : regAt (answer s c status handle) h = regAt s h :=
  congrArg (fun l => sget ({} : Region) l h) (complete_rest ..).1

theorem queueAt_answer (s : State) (c : Cmd) (status handle : Nat) {n : Nat} (hn : n ≠ c.queue) :
    queueAt (answer s c status handle) n = queueAt s n :=
  (complete_rest ..).2 n hn

end Sys2Proof.Machine

end

