-- ==== Sys2Proof/Proofs/Tasks.lean ====
section
/-! SUPPORT. Tasks: the registers of a handed-out iteration, and the streams of a
task's start and end (R58 to R62). -/

namespace Sys2Proof.Machine

theorem finishNest_cells (s : State) (h i : Nat) (n : Nest) : (finishNest s h i n).cells = s.cells := by
  unfold finishNest
  dsimp only
  split
  · exact (hostPut_homeFrame ..).get State.cells rfl
  · rfl

theorem cellAt_finishNest (s : State) (h i k : Nat) (n : Nest) : cellAt (finishNest s h i n) k = cellAt s k :=
  congrArg (fun l => sget ({} : Cell) l k) (finishNest_cells s h i n)

/-! ## The iteration that a cell takes -/

/-- A cell takes a task. -/
def giveTask (s : State) (key : Nat) (t : Task) : State := setCell s key { cellAt s key with task := some t }

theorem readA_giveTask (s : State) (key r : Nat) (t : Task) : readA (giveTask s key t) key r = readA s key r := by
  simp [readA, giveTask]

/-- Registers a1 to a6 take the loop indexes of the iteration and a7 its ordinal. -/
def giveIndexes (s : State) (key : Nat) (n : Nest) : State :=
  writeA ((List.range 6).foldl (fun s l => writeA s key (l + 1) (BitVec.ofNat 64 (nestIndex n n.next (l + 1)))) s) key 7
    (BitVec.ofNat 64 n.next)

theorem readA_giveIndexes_ordinal (s : State) (key : Nat) (n : Nest) : readA (giveIndexes s key n) key 7 = BitVec.ofNat 64 n.next := by
  simp [giveIndexes, readA_writeA]

theorem readA_giveIndexes (s : State) (key : Nat) (n : Nest) {l : Nat} (hl : l < 6) :
    readA (giveIndexes s key n) key (l + 1) = BitVec.ofNat 64 (nestIndex n n.next (l + 1)) := by
  have h6 : List.range 6 = [0, 1, 2, 3, 4, 5] := rfl
  simp only [giveIndexes, h6, List.foldl_cons, List.foldl_nil, readA_writeA]
  interval_cases l <;> simp

/-- An iteration without input tiles. -/
theorem handOut_noInputs {s : State} {h i key : Nat} {n : Nest} (hn : bits (n.words.getD 4 0) 24 22 = 0) :
    handOut s h i n key =
      giveTask (giveIndexes (setNest s h i { n with next := n.next + 1, live := n.live + 1 }) key n) key
        { nest := i, ord := n.next, inputs := 0, started := false, status := 0 } := by
  simp only [handOut, hn, List.range_zero, List.map_nil, List.any_nil, List.foldl_nil, Bool.false_eq_true, if_false]
  rfl

/-! ## The streams of a task -/

/-- A cell whose streams are each changed by its sequencer. -/
theorem stream_of_each (c : Cell) (f : Seq → Stream) (q : Seq) :
    ({ c with ss := f .s, sl := f .l, sc := f .c, sw := f .w } : Cell).stream q = f q := by
  cases q <;> rfl

theorem Stream.leave_task (st : Stream) : st.leave.task = false := by
  unfold Stream.leave
  split
  · rfl
  · next h => exact Bool.eq_false_iff.mpr h

theorem tasks : Rules.Tasks := by
  intro s
  refine ⟨fun h ldie i n k hw hs => ⟨fun hlt hf hn => ?_, fun hle => ?_⟩, fun key tk ht hr => ?_, fun key tk ht ho => ?_⟩
  · have hrun : Runs (.taskDispatch h ldie) s (handOut s h i n k) := by
      simp only [Runs, exec_taskDispatch, execTaskDispatch, hw, hs, if_pos hlt, hf, Bool.not_true, Bool.false_eq_true, if_false]
    rw [handOut_noInputs hn] at hrun
    refine ⟨_, hrun, fun l hl => ?_, ?_, ?_⟩
    · rw [readA_giveTask, readA_giveIndexes _ _ _ hl]
    · rw [readA_giveTask, readA_giveIndexes_ordinal]
    · simp [giveTask]
  · simp only [Runs, exec_taskDispatch, execTaskDispatch, hw, hs, if_neg (Nat.not_lt.mpr hle), Bool.not_true,
      Bool.false_eq_true, if_false]
  · intro n
    let go (q : Seq) : Stream := ((cellAt s key).stream q).enter (nestEntry n q) s.per
    have hrun : Runs (.taskStart key) s (setCell (dropSects s key) key
        { cellAt s key with task := some { tk with started := true }, sect := [],
                             ss := go .s, sl := go .l, sc := go .c, sw := go .w }) := by
      simp only [Runs, exec_taskStart, execTaskStart, hr, ht, Bool.not_true, Bool.false_eq_true, if_false]
      rfl
    refine ⟨_, hrun, ?_, fun q => ?_⟩
    · simp
    · rw [cellAt_setCell, if_pos rfl]
      have hq := stream_of_each { cellAt s key with task := some { tk with started := true }, sect := [] } go q
      refine ⟨fun e he => ?_, fun he => ?_, rfl⟩
      · rw [hq]
        simp [go, he, Stream.enter]
      · rw [hq]
        simp [go, he, Stream.enter]
  · simp only [Runs, exec_taskEnd, execTaskEnd, ho, ht, Bool.not_true, Bool.false_eq_true, if_false]
    refine ⟨_, rfl, ?_, fun q => ?_⟩
    · simp only [cellAt_finishNest, cellAt_setCell, if_true]
    · simp only [cellAt_finishNest, cellAt_setCell, if_true]
      cases q <;> exact Stream.leave_task _

/-- What the step of one member of a list brings about, and every step keeps, holds after the fold. -/
theorem foldl_brings {α β : Type} {P Q : α → Prop} {f : α → β → α} {b : β} (hQ : ∀ a c, Q a → Q (f a c))
    (hset : ∀ a, Q a → P (f a b)) (hkeep : ∀ a c, Q a → P a → P (f a c)) {l : List β} (hb : b ∈ l) {a : α} (ha : Q a) :
    P (l.foldl f a) := by
  induction l generalizing a with
  | nil => cases hb
  | cons x xs ih =>
    rw [List.foldl_cons]
    rcases List.mem_cons.mp hb with rfl | hb
    · exact (foldl_keeps (P := fun a => Q a ∧ P a)
        (fun a c h => ⟨hQ a c h.1, hkeep a c h.1 h.2⟩) xs _ ⟨hQ a _ ha, hset a ha⟩).2
    · exact ih hb (hQ a x ha)

@[simp] theorem planeAt_setPlane (s : State) (n j : Nat) (p : Plane) :
    planeAt (setPlane s n p) j = if j = n then p else planeAt s j := by
  simp [planeAt, setPlane]

theorem swapPlanes_shadow (s : State) (h : Nat) {site : Nat} (hs : site ∈ planeSites (regAt s h)) :
    (planeAt (swapPlanes s h) site).active = (planeAt s site).shadow
      ∧ (planeAt (swapPlanes s h) site).shadow = (planeAt s site).shadow := by
  refine foldl_brings (Q := fun t => (planeAt t site).shadow = (planeAt s site).shadow)
    (P := fun t => (planeAt t site).active = (planeAt s site).shadow ∧ (planeAt t site).shadow = (planeAt s site).shadow)
    (fun t j hq => ?_) (fun t hq => ?_) (fun t j hq hp => ?_) hs rfl
  · by_cases hj : site = j
    · subst hj; simpa using hq
    · simpa [hj] using hq
  · simpa using hq
  · by_cases hj : site = j
    · subst hj; simpa using hq
    · simpa [hj] using hp

theorem swapPlanes_regions (s : State) (h : Nat) : (swapPlanes s h).regions = s.regions := by
  refine foldl_keeps (P := fun t : State => t.regions = s.regions) (fun _ _ e => ?_) _ _ rfl
  exact e

/-- Each cell of a region of a context is handed over to it. -/
def handOverAll (s : State) (r : Region) (h : Nat) : State :=
  r.dies.zipIdx.foldl (fun s p => (dieCells p.1).foldl (fun s k => setCell s k ((cellAt s k).handOver r.ctx h p.2)) s) s

/-- A cell belongs to a region of a context, and its sector buffer is empty. -/
def Held (k h ctx : Nat) (s : State) : Prop := (cellAt s k).reg = h ∧ (cellAt s k).ctx = some ctx ∧ (cellAt s k).sect = []

theorem handOverAll_rest (s : State) (r : Region) (h : Nat) :
    (handOverAll s r h).regions = s.regions ∧ (handOverAll s r h).planes = s.planes := by
  refine foldl_keeps (P := fun t : State => t.regions = s.regions ∧ t.planes = s.planes) (fun t p e => ?_) _ _ ⟨rfl, rfl⟩
  refine foldl_keeps (P := fun t : State => t.regions = s.regions ∧ t.planes = s.planes) (fun _ _ e => ?_) _ t e
  exact e

theorem handOverAll_held (s : State) (r : Region) (h : Nat) {d : RDie} {k : Nat} (hd : d ∈ r.dies) (hk : k ∈ dieCells d) :
    Held k h r.ctx (handOverAll s r h) := by
  have hone : ∀ t ldie j, Held k h r.ctx t → Held k h r.ctx (setCell t j ((cellAt t j).handOver r.ctx h ldie)) := by
    intro t ldie j ht
    by_cases hj : k = j
    · subst hj; simp [Held, Cell.handOver]
    · simpa [Held, hj] using ht
  obtain ⟨i, hi⟩ : ∃ i, (d, i) ∈ r.dies.zipIdx := by
    obtain ⟨i, hi, hget⟩ := List.getElem_of_mem hd
    exact ⟨i, by rw [List.mem_zipIdx_iff_getElem?]; simp [hi, hget]⟩
  refine foldl_brings (Q := fun _ => True) (fun _ _ h => h) (fun t _ => ?_)
    (fun t p _ ht => foldl_keeps (fun t j => hone t p.2 j) _ t ht) hi trivial
  exact foldl_brings (Q := fun _ => True) (fun _ _ h => h) (fun t _ => by simp [Held, Cell.handOver])
    (fun t j _ => hone t i j) hk trivial

/-- The load of the plan leaves to whom each cell belongs, and the regions and planes. -/
theorem loadPlan_keeps {s : State} {h k ctx : Nat} {j : Nat} (hk : Held k j ctx s) : Held k j ctx (loadPlan s h) := by
  refine foldl_keeps (P := Held k j ctx) (fun t x ht => ?_) _ _ hk
  split
  · rw [Held, cellAt_setCell]
    split
    · next e => subst e; exact ht
    · exact ht
  · exact ht

theorem loadPlan_rest (s : State) (h : Nat) : (loadPlan s h).regions = s.regions ∧ (loadPlan s h).planes = s.planes := by
  refine foldl_keeps (P := fun t : State => t.regions = s.regions ∧ t.planes = s.planes) (fun t x ht => ?_) _ _ ⟨rfl, rfl⟩
  split <;> exact ht

theorem planesSwap : Rules.PlanesSwap := by
  intro s h hd h0
  let u := handOverAll (swapPlanes s h) (regAt s h) h
  let r : Region := { regAt s h with
    startF := none, psites := [], descs := ctxDescs u (regAt s h).ctx,
    maxslack := (preg s 0x20 (0x401 + 4 * (regAt s h).ctx)).extractLsb' 0 25,
    yielddl := (preg s 0x20 (0x401 + 4 * (regAt s h).ctx)).extractLsb' 32 32,
    stallto := (preg s 0x20 (0x402 + 4 * (regAt s h).ctx)).extractLsb' 32 32, stage := .running }
  let v := loadPlan (setReg u h r) h
  have hrun : Runs (.planeSwap h) s
      (setReg v h { regAt v h with listed := (regAt s h).plan.map fun x => x.die * 256 + x.row * 16 + x.col }) := by
    simp only [Runs, exec_planeSwap, execPlaneSwap, hd, Bool.not_true, Bool.false_eq_true, if_false]
    exact congrArg _ (if_pos h0)
  have hr : regAt v h = r := by
    have e : regAt v h = regAt (setReg u h r) h := congrArg (fun l => sget ({} : Region) l h) (loadPlan_rest (setReg u h r) h).1
    rw [e, regAt_setReg, if_pos rfl]
  have hp : ∀ site, planeAt v site = planeAt (swapPlanes s h) site := fun site =>
    congrArg (fun l => sget ({} : Plane) l site)
      ((loadPlan_rest (setReg u h r) h).2.trans (handOverAll_rest (swapPlanes s h) (regAt s h) h).2)
  refine ⟨_, hrun, ?_⟩
  rw [hr]
  simp only [regAt_setReg, if_true, cellAt_setReg]
  refine ⟨rfl, rfl, rfl, fun site hs => ?_, rfl, rfl, rfl, fun d hd k hk => ?_⟩
  · have e := swapPlanes_shadow s h hs
    rw [← hp site] at e
    exact e
  · exact loadPlan_keeps (s := setReg u h r) (handOverAll_held (swapPlanes s h) (regAt s h) h hd hk)

theorem planRetires : Rules.PlanRetires := by
  intro s h hd r u v
  refine ⟨lastSlot (endDebugs v h stNoRegion) r, ?_⟩
  simp only [Runs, exec_planRetire, execPlanRetire, hd, Bool.not_true, Bool.false_eq_true, if_false]
  rfl

end Sys2Proof.Machine

open Sys2Proof Sys2Proof.Machine

/-- Settles O39: tasks, the swap of planes and retirement, each by what its event does. -/
theorem tasksRunAndRegionsRetire : Obligations.TasksRunAndRegionsRetire := ⟨tasks, planesSwap, planRetires⟩

end

