-- ==== Sys2Proof/Proofs/Scheduling.lean ====
section
/-! SUPPORT. The leases of a region and its dispatch (R430, R441, R468). -/

namespace Sys2Proof.Machine

/-! ## Leases -/

theorem runsOf_eq_nil {l : List Nat} : runsOf l = [] ↔ l = [] := by
  cases l with
  | nil => simp [runsOf]
  | cons x l =>
    unfold runsOf
    split
    · split <;> simp
    · simp

/-- The residency faults that an attempt at a region's leases finds. -/
def residencyFaults (s : State) (h : Nat) : List RfEntry :=
  (regAt s h).leases.flatMap fun l => (runsOf (leaseFaults s (regAt s h).ctx l)).map fun p =>
    { tens := l.tens, ctx := (regAt s h).ctx, kind := if l.zero then 1 else 0, first := p.1, count := p.2, handle := h }

theorem residencyFaults_eq_nil {s : State} {h : Nat} :
    residencyFaults s h = [] ↔ ∀ l ∈ (regAt s h).leases, leaseFaults s (regAt s h).ctx l = [] := by
  simp [residencyFaults, runsOf_eq_nil]

/-- An attempt is made where the homes of the region have not just granted its pins. -/
theorem leaseAcquire_attempt {s : State} {h : Nat} (hd : leaseDue s (regAt s h) = true) :
    Runs (.leaseAcquire h) s (acquire s h) := by
  have hask : (regAt s h).askT = none := by
    simp only [leaseDue, Bool.and_eq_true, Option.isNone_iff_eq_none] at hd
    exact hd.1.2
  have hg : homesGrant (regAt s h) = false := by simp [homesGrant, hask]
  simp only [Runs, exec_leaseAcquire, execLeaseAcquire, hg, hd, Bool.false_eq_true, if_false, if_true]

theorem acquire_absent {s : State} {h : Nat} (hf : residencyFaults s h ≠ []) :
    acquire s h = (residencyFaults s h).foldl postFault (setReg s h { regAt s h with rfwait := true }) := by
  have hf' : (!(residencyFaults s h).isEmpty) = true := by simpa using hf
  exact if_pos hf'

theorem acquire_present {s : State} {h : Nat} (hf : residencyFaults s h = []) :
    acquire s h =
      if (regAt s h).leases.any fun l => l.peer.isSome && (askConn s (regAt s h).ctx l).isNone then refuseRun s h stLease
      else match pinAll s (regAt s h).ctx (regAt s h).leases with
        | none => refuseRun s h stLease
        | some t =>
          let peers := (regAt s h).leases.filter (·.peer.isSome)
          (regAt s h).leases.zipIdx.foldl (fun t p => askHome t h p.2 p.1)
            (setReg t h { regAt s h with pinned := true, stage := if peers.isEmpty then .cells else .leases,
                                         askT := if peers.isEmpty then none else some s.tick }) := by
  have hf' : ¬(!(residencyFaults s h).isEmpty) = true := by simp [hf]
  exact if_neg hf'

theorem askHome_local {s : State} {h i : Nat} {l : Lease} (hl : l.peer = none) : askHome s h i l = s := by
  simp [askHome, hl]

theorem foldl_unchanged {α β : Type} {f : α → β → α} {a : α} {l : List β} (h : ∀ b ∈ l, f a b = a) :
    l.foldl f a = a := by
  induction l with
  | nil => rfl
  | cons b l ih =>
    rw [List.foldl_cons, h b (List.mem_cons_self ..)]
    exact ih fun c hc => h c (List.mem_cons_of_mem _ hc)

/-- Without leases of other packages the region has its leases once the pins are taken. -/
theorem acquire_local {s t : State} {h : Nat} (hf : residencyFaults s h = []) (hl : ∀ l ∈ (regAt s h).leases, l.peer = none)
    (hp : pinAll s (regAt s h).ctx (regAt s h).leases = some t) :
    acquire s h = setReg t h { regAt s h with pinned := true, stage := .cells, askT := none } := by
  have hany : ((regAt s h).leases.any fun l => l.peer.isSome && (askConn s (regAt s h).ctx l).isNone) = false :=
    List.any_eq_false.mpr fun l hm => by simp [hl l hm]
  have hpeers : (regAt s h).leases.filter (·.peer.isSome) = [] := List.filter_eq_nil_iff.mpr fun l hm => by simp [hl l hm]
  rw [acquire_present hf, hany, if_neg Bool.false_ne_true, hp, hpeers]
  exact foldl_unchanged fun p hm => askHome_local (hl p.1 (List.fst_mem_of_mem_zipIdx hm))

/-- Posts leave the regions, and each adds one to the posts that are there or wait. -/
theorem postFault_counts (s : State) (e : RfEntry) :
    (postFault s e).regions = s.regions ∧
      (postFault s e).rfbuf.length + (postFault s e).rfwaitq.length = s.rfbuf.length + s.rfwaitq.length + 1 := by
  unfold postFault
  split
  · refine ⟨rfl, ?_⟩
    simp only [List.length_append, List.length_singleton]
    omega
  · refine ⟨rfl, ?_⟩
    simp only [List.length_append, List.length_singleton]
    omega

theorem foldl_postFault_counts (l : List RfEntry) (s : State) :
    (l.foldl postFault s).regions = s.regions ∧
      (l.foldl postFault s).rfbuf.length + (l.foldl postFault s).rfwaitq.length = s.rfbuf.length + s.rfwaitq.length + l.length := by
  induction l generalizing s with
  | nil => exact ⟨rfl, rfl⟩
  | cons e l ih =>
    obtain ⟨hr, hn⟩ := postFault_counts s e
    obtain ⟨ihr, ihn⟩ := ih (postFault s e)
    refine ⟨ihr.trans hr, ?_⟩
    simp only [List.foldl_cons, List.length_cons, ihn, hn]
    omega

/-! ## Dispatch -/

theorem loadPlanes_regions (s : State) (h : Nat) : (loadPlanes s h).1.regions = s.regions := by
  have hl : ((planeSites (regAt s h)).foldl (fun (x : State × Nat) site => if x.2 = stOk then loadPlane x.1 h site else x)
      (s, stOk)).1.regions = s.regions := by
    refine foldl_keeps (P := fun x : State × Nat => x.1.regions = s.regions) (fun x site hx => ?_) _ _ rfl
    split
    · unfold loadPlane
      dsimp only
      split <;> exact hx
    · exact hx
  unfold loadPlanes
  dsimp only
  split
  · exact hl
  · refine foldl_keeps (P := fun x : State => x.regions = s.regions) (fun x site hx => ?_) _ _ hl
    exact hx

/-- The pin of a save slot is marked in its region, and changes nothing else there. -/
theorem regAt_pinSlot (s : State) (h : Nat) (up : Bool) : regAt (pinSlot s h up) h = { regAt s h with slotPin := up } := by
  unfold pinSlot
  dsimp only
  split
  · next e => rw [← e]
  · have hk : ∀ l : List Nat, ((l.foldl (fun t i => pinTile t (regAt s h).ctx (saveArea s (regAt s h).ctx).1 i up)
        (setReg s h { regAt s h with slotPin := up })).regions = (setReg s h { regAt s h with slotPin := up }).regions) := fun l =>
      foldl_keeps (P := fun t : State => t.regions = (setReg s h { regAt s h with slotPin := up }).regions)
        (fun t i ht => ((pinTile_homeFrame ..).get State.regions rfl).trans ht) l _ rfl
    have e := congrArg (fun l => sget ({} : Region) l h) (hk (slotTiles s (regAt s h).ctx (regAt s h).slot))
    exact e.trans ((regAt_setReg s h h _).trans (if_pos rfl))

theorem regAt_bindCells (s : State) (h : Nat) (l : List Nat) :
    regAt (l.foldl (fun s k => setCell s k { cellAt s k with reg := h }) s) h = regAt s h := by
  refine foldl_keeps (P := fun t : State => regAt t h = regAt s h) (fun t k e => ?_) _ _ rfl
  exact e

/-- A region that has taken its cells waits for its planes, at the next frame boundary, as new in its priority. -/
theorem regAt_takeCells (s : State) (h : Nat) :
    (regAt (takeCells s h) h).stage = .planes ∧ (regAt (takeCells s h) h).ep = (regAt s h).prio
      ∧ (regAt (takeCells s h) h).age = 0 ∧ (regAt (takeCells s h) h).startF = some (boundaryAfter s 1) := by
  unfold takeCells
  dsimp only
  rw [regAt_pinSlot, regAt_bindCells, regAt_setReg, if_pos rfl]
  exact ⟨rfl, rfl, rfl, rfl⟩

/-- The scheduler's decision for a region without others to yield is its dispatch. -/
theorem regionDispatch_alone {s : State} {h : Nat} (hs : schedule s = some (h, [])) : Runs (.regionDispatch h) s (dispatch s h) := by
  simp [Runs, execRegionDispatch, schedStep, hs]

end Sys2Proof.Machine

open Sys2Proof Sys2Proof.Machine

/-- Settles O45, event by event. -/
theorem regionsScheduled : Obligations.RegionsScheduled := by
  intro s h r
  refine ⟨fun hd hf hl t hp _ => ?_, fun hd hf => ?_, fun hd hf hc => ?_, fun hs ha hg => ?_, fun hs hst => ?_, fun hs hst => ?_,
    fun x xs hs => ?_, fun ha => ?_, fun hh hq => ?_⟩
  · rw [← acquire_local (residencyFaults_eq_nil.mpr hf) hl hp]
    exact leaseAcquire_attempt hd
  · have hne : residencyFaults s h ≠ [] := fun he => by
      obtain ⟨l, hm, hx⟩ := hf
      exact hx (residencyFaults_eq_nil.mp he l hm)
    have hrun := leaseAcquire_attempt hd
    rw [acquire_absent hne] at hrun
    obtain ⟨hr, hn⟩ := foldl_postFault_counts (residencyFaults s h) (setReg s h { regAt s h with rfwait := true })
    have hreg := congrArg (fun l => sget ({} : Region) l h) hr
    have hreg' : regAt _ h = _ := hreg.trans ((regAt_setReg s h h _).trans (if_pos rfl))
    have hstage : r.stage = .leases := by
      simp only [leaseDue, Bool.and_eq_true, decide_eq_true_eq] at hd
      exact hd.1.1.1
    refine ⟨_, hrun, ?_, ?_, ?_⟩
    · rw [hreg']
    · rw [hreg']
      exact hstage
    · have := List.length_pos_of_ne_nil hne
      rw [hn]
      simp only [setReg]
      omega
  · have hany : ((regAt s h).leases.any fun l => l.peer.isSome && (askConn s (regAt s h).ctx l).isNone) = true := by
      obtain ⟨l, hm, hp, hk⟩ := hc
      exact List.any_eq_true.mpr ⟨l, hm, by simp [Option.isSome_iff_ne_none, hp, hk, r]⟩
    have hrun := leaseAcquire_attempt hd
    rwa [acquire_present (residencyFaults_eq_nil.mpr hf), if_pos hany] at hrun
  · have hgr : homesGrant (regAt s h) = true := by
      have hall : (r.asks.all fun a => decide (a.2.2.2 = 1)) = true :=
        List.all_eq_true.mpr fun a hm => decide_eq_true (hg a hm)
      have hsome : r.askT.isSome = true := Option.isSome_iff_ne_none.mpr ha
      simp only [r] at hs hall hsome
      simp only [homesGrant, hs, hall, hsome, decide_true, Bool.and_self]
    simp only [Runs, exec_leaseAcquire, execLeaseAcquire, hgr, if_true]
    rfl
  · have hrun := regionDispatch_alone hs
    unfold dispatch at hrun
    dsimp only at hrun
    rwa [if_neg hst] at hrun
  · have hrun := regionDispatch_alone hs
    unfold dispatch at hrun
    dsimp only at hrun
    rw [if_pos hst] at hrun
    have hreg : regAt (loadPlanes (takeCells s h) h).1 h = regAt (takeCells s h) h :=
      congrArg (fun l => sget ({} : Region) l h) (loadPlanes_regions (takeCells s h) h)
    refine ⟨_, hrun, ?_⟩
    rw [regAt_setReg, if_pos rfl, hreg]
    exact regAt_takeCells s h
  · simp only [Runs, exec_regionDispatch, execRegionDispatch, schedStep, hs, Option.map_some, if_true]
  · simp only [Runs, exec_ageStep, execAgeStep, r, ha, Bool.not_true, Bool.false_eq_true, if_false]
  · have hb : ((regAt s h).holds && quantumOver s (regAt s h)) = true := by simpa using And.intro hh hq
    simp only [Runs, exec_quantumExpiry, execQuantumExpiry, hb, if_true]

end

