-- ==== Sys2Proof/Proofs/Commands.lean ====
section
/-! SUPPORT. The commands of the host (R422 to R431). -/

namespace Sys2Proof.Machine

/-! ## LAUNCH -/

/-- The words of a LAUNCH are formed as R422 asks. -/
def launchFormed (c : Cmd) : Prop :=
  c.headOk = true ∧ bits c.w3 63 16 = 0 ∧ (c.w3.getLsbD 4 = true ∨ bits c.w3 3 0 = 0)
    ∧ c.w4 = 0 ∧ c.w5 = 0 ∧ c.w6 = 0 ∧ c.w7 = 0

/-- The priority that a LAUNCH asks for. -/
def launchPrio (u : State) (c : Cmd) : Nat :=
  if c.w3.getLsbD 4 then bits c.w3 3 0 else ((queueAt u c.queue).map (·.prio)).getD 0

/-- A LAUNCH of an image whose dies are bound. -/
def launchBound (u : State) (c : Cmd) (b : List Byte) (dies : List RDie) : State :=
  let ctx := queueCtx u c.queue
  let slot := bits c.w3 15 5
  if !nestDestOk u ctx (planOf u ctx b) dies then answer u c stPlan 0
  else if !slotOk u ctx slot dies ∨ u.regions.any (fun x => decide (x.2.ctx = ctx ∧ x.2.slot = slot)) then answer u c stSave 0
  else enterRegion (cacheImage u ctx c.w1 (hd b 7 31 0)) c ctx (launchPrio u c) slot (planOf u ctx b) dies

/-- A LAUNCH of an image that the context can read. -/
def launchRead (u : State) (c : Cmd) (b : List Byte) : State :=
  let ctx := queueCtx u c.queue
  let p := planOf u ctx b
  if imageStatus u ctx b ≠ stOk then answer u c (imageStatus u ctx b) 0
  else match (readTable u ctx c.w2 p.dies.length).bind (bindAll u p.dies) with
    | none => answer u c stMix 0
    | some dies => launchBound u c b dies

theorem launchCmd_unformed {u : State} {c : Cmd} (h : ¬launchFormed c) : launchCmd u c = answer u c stBadCmd 0 := by
  refine if_pos ?_
  by_contra hbad
  refine h ?_
  simpa [launchFormed, not_or, imp_iff_not_or] using hbad

theorem launchCmd_formed {u : State} {c : Cmd} (h : launchFormed c) :
    launchCmd u c =
      if !launchOpen u then answer u c stMix 0
      else if launchPrio u c = 15 ∨ maxPrio u (queueCtx u c.queue) < launchPrio u c then answer u c stPrio 0
      else if tsOf u (queueCtx u c.queue) = 0 then answer u c stLease 0
      else match readImage u (queueCtx u c.queue) c.w1 with
        | none => answer u c stPlan 0
        | some b => launchRead u c b := by
  obtain ⟨hh, h3, hp, h4, h5, h6, h7⟩ := h
  refine if_neg ?_
  rcases hp with hp | hp <;> simp [hh, h3, hp, h4, h5, h6, h7]

/-- The region that a launch brings. -/
theorem enterRegion_region (u : State) (c : Cmd) (ctx prio slot : Nat) (p : Plan) (dies : List RDie) :
    let r := regAt (enterRegion u c ctx prio slot p dies) (newHandle u)
    r.stage = .leases ∧ r.dies = dies ∧ r.leases = p.leases ∧ r.cmd = some c.ref ∧ r.slot = slot
      ∧ r.ctx = ctx ∧ r.prio = prio := by
  have hpin : ∀ t, regAt (if !ctxLive u ctx then pinTable t ctx true else t) (newHandle u) = regAt t (newHandle u) := fun t => by
    split
    · exact (pinTable_homeFrame t ctx true).get (regAt · (newHandle u)) rfl
    · rfl
  unfold enterRegion
  dsimp only
  rw [hpin]
  have hset : ∀ (r : Region) n, regAt ({ setReg u (newHandle u) r with nextH := n }) (newHandle u) = r := fun r n =>
    (regAt_setReg u (newHandle u) (newHandle u) r).trans (if_pos rfl)
  rw [hset]
  exact ⟨rfl, rfl, rfl, rfl, rfl, rfl, rfl⟩

theorem runs_of_eq {i : Instr} {s t u : State} (h : exec i s = .next t) (e : t = u) : Runs i s u := e ▸ h

theorem launch_runs {s t : State} {c : Cmd} (h : launchCmd (takeCmd s c) c = t) : Runs (.launch c) s t := runs_of_eq rfl h

/-- A LAUNCH that passes the checks of its words, of its priority and of its context. -/
theorem launchCmd_admitted {u : State} {c : Cmd} (hf : launchFormed c) (ho : launchOpen u = true) (h15 : launchPrio u c ≠ 15)
    (hmax : launchPrio u c ≤ maxPrio u (queueCtx u c.queue)) (hts : tsOf u (queueCtx u c.queue) ≠ 0) :
    launchCmd u c = match readImage u (queueCtx u c.queue) c.w1 with
      | none => answer u c stPlan 0
      | some b => launchRead u c b := by
  have hnp := not_or.mpr ⟨h15, Nat.not_lt.mpr hmax⟩
  rw [launchCmd_formed hf, ho, if_neg (by decide), if_neg hnp, if_neg hts]

theorem launchRead_bound {u : State} {c : Cmd} {b : List Byte} {o : Option (List RDie)}
    (hst : imageStatus u (queueCtx u c.queue) b = stOk)
    (ho : (readTable u (queueCtx u c.queue) c.w2 (planOf u (queueCtx u c.queue) b).dies.length).bind
      (bindAll u (planOf u (queueCtx u c.queue) b).dies) = o) :
    launchRead u c b = match (generalizing := false) o with
      | none => answer u c stMix 0
      | some dies => launchBound u c b dies := by
  subst ho
  exact if_neg (not_not_intro hst)

theorem launchBound_enters {u : State} {c : Cmd} {b : List Byte} {dies : List RDie}
    (hn : nestDestOk u (queueCtx u c.queue) (planOf u (queueCtx u c.queue) b) dies = true)
    (hs : slotOk u (queueCtx u c.queue) (bits c.w3 15 5) dies = true)
    (hr : ∀ x ∈ u.regions, x.2.ctx = queueCtx u c.queue → x.2.slot ≠ bits c.w3 15 5) :
    launchBound u c b dies = enterRegion (cacheImage u (queueCtx u c.queue) c.w1 (hd b 7 31 0)) c (queueCtx u c.queue)
      (launchPrio u c) (bits c.w3 15 5) (planOf u (queueCtx u c.queue) b) dies := by
  have hany : (u.regions.any fun x => decide (x.2.ctx = queueCtx u c.queue ∧ x.2.slot = bits c.w3 15 5)) = false :=
    List.any_eq_false.mpr fun x hx => by simpa using hr x hx
  unfold launchBound
  dsimp only
  rw [hn, hs, hany, if_neg (by decide), if_neg (by decide)]

theorem launches : Rules.Launches := by
  intro s c u ctx expl prio slot formed
  refine ⟨fun hh hz => ?_, fun hf => launch_runs (launchCmd_unformed hf), fun hf ho => launch_runs ?_,
    fun hf ho hp => launch_runs ?_, fun hf ho h15 hmax hts => launch_runs ?_, fun hf ho h15 hmax hts => ?_⟩
  · simp only [Runs, exec_nopCommand, execNopCommand, hh, hz, Bool.and_self, if_true]
    rfl
  · rw [launchCmd_formed hf, ho, if_pos (by rfl)]
  · rw [launchCmd_formed hf, ho, if_neg (by decide)]
    exact if_pos hp
  · have hnp : ¬(launchPrio u c = 15 ∨ maxPrio u (queueCtx u c.queue) < launchPrio u c) :=
      not_or.mpr ⟨h15, Nat.not_lt.mpr hmax⟩
    rw [launchCmd_formed hf, ho, if_neg (by decide), if_neg hnp]
    exact if_pos hts
  · have hadm := launchCmd_admitted hf ho h15 hmax hts
    refine ⟨fun hi => launch_runs ?_, fun b hi => ?_⟩
    · have hi' : readImage u (queueCtx u c.queue) c.w1 = none := hi
      rw [hadm, hi']
    · have hi' : readImage u (queueCtx u c.queue) c.w1 = some b := hi
      rw [hi'] at hadm
      refine ⟨fun hst => launch_runs ?_, fun hst hb => launch_runs ?_, fun dies hst hb => ?_⟩
      · exact hadm.trans (if_pos hst)
      · exact hadm.trans (launchRead_bound hst hb)
      · have hbound := hadm.trans (launchRead_bound hst hb)
        refine ⟨fun hn => launch_runs ?_, fun hn hs => launch_runs ?_, fun hn hs hr => ?_⟩
        · exact hbound.trans (if_pos (by simpa using hn))
        · exact hbound.trans ((if_neg (by simpa using hn)).trans (if_pos (.inl (by simpa using hs))))
        · exact ⟨_, launch_runs (hbound.trans (launchBound_enters hn hs hr)),
            enterRegion_region _ c ctx prio slot (planOf u ctx b) dies⟩

/-! ## Commands on a region -/

theorem regionCmd_none {u : State} {c : Cmd} {good : Bool} (f : State → Nat → Region → State) (hh : c.headOk = true)
    (hg : good = true) (hr : cmdRegion u c (bits c.w1 15 0) = none) :
    regionCmd u c good f = answer u c stNoRegion (bits c.w1 15 0) := by
  simp [regionCmd, hh, hg, hr]

theorem regionCmd_some {u : State} {c : Cmd} {good : Bool} {r : Region} (f : State → Nat → Region → State) (hh : c.headOk = true)
    (hg : good = true) (hr : cmdRegion u c (bits c.w1 15 0) = some r) : regionCmd u c good f = f u (bits c.w1 15 0) r := by
  simp [regionCmd, hh, hg, hr]

/-- A RESUME of formed words. -/
theorem resumeCmd_formed {u : State} {c : Cmd} (hh : c.headOk = true) (h1 : bits c.w1 63 16 = 0) (hz : c.zerosFrom 3 = true) :
    resumeCmd u c = match cmdRegion u c (bits c.w1 15 0) with
      | none => answer u c stNoRegion (bits c.w1 15 0)
      | some r =>
        match sfind u.records (slotKey r.ctx r.slot) with
        | none => answer u c stNoRegion (bits c.w1 15 0)
        | some rec =>
          if r.stage ≠ .halted ∧ r.stage ≠ .parked then answer u c stNoRegion (bits c.w1 15 0)
          else match resumeBinding u r c.w2 with
            | none => answer u c stMix (bits c.w1 15 0)
            | some dies =>
              if !slotOk u r.ctx r.slot dies then answer u c stSave (bits c.w1 15 0)
              else setReg u (bits c.w1 15 0)
                { r with dies := dies, older := r.runCmds, cmd := some c.ref, stage := if r.stage = .halted then .cells else .leases,
                         resume := rec.kind, ep := r.prio, age := 0, waitT := u.tick, ageT := u.tick, rfwait := false, askT := none,
                         asks := [], queue := c.queue } := by
  have hw : c.w3 = 0 ∧ c.w4 = 0 ∧ c.w5 = 0 ∧ c.w6 = 0 ∧ c.w7 = 0 := by simpa [Cmd.zerosFrom] using hz
  obtain ⟨h3, h4, h5, h6, h7⟩ := hw
  exact if_neg (by simp [hh, h1, h3, h4, h5, h6, h7])

/-- What END does to a region that was at a stage: a running one stops first, a stopped one ends after its stubs (R424). -/
def endBy (st : Stage) (v : State) (h : Nat) : State :=
  match st with
  | .running => raiseHalt v h none
  | .stubs | .rebuild => v
  | _ => endRegion v h

theorem regionCommands : Rules.RegionCommands := by
  intro s c hh h1 u h
  have h1' : decide (bits c.w1 63 16 = 0) = true := decide_eq_true h1
  have hgood : c.zerosFrom 2 = true → (decide (bits c.w1 63 16 = 0) && c.zerosFrom 2) = true := fun hz => by rw [h1', hz]; rfl
  have hdebug : c.zerosFrom 3 = true → bits c.w2 63 13 = 0 →
      (decide (bits c.w1 63 16 = 0 ∧ bits c.w2 63 13 = 0) && c.zerosFrom 3) = true := fun hz h2 => by simp [h1, h2, hz]
  refine ⟨fun hz hr => ⟨runs_of_eq rfl (regionCmd_none _ hh (hgood hz) hr), runs_of_eq rfl (regionCmd_none _ hh (hgood hz) hr)⟩,
    fun hz hr => ⟨runs_of_eq rfl ?_, fun h2 => runs_of_eq rfl (regionCmd_none _ hh (hdebug hz h2) hr)⟩,
    fun r hr => ⟨fun rec dies hz hst hrec hb hsl => ?_, fun hz he => ?_, fun hz hho hy hend => ?_, fun x hz h2 hx hin => ?_⟩⟩
  · have hr' : cmdRegion u c (bits c.w1 15 0) = none := hr
    rw [resumeCmd_formed hh h1 hz, hr']
  · have hr' : cmdRegion u c (bits c.w1 15 0) = some r := hr
    have hstage : ¬(r.stage ≠ .halted ∧ r.stage ≠ .parked) := fun hbad => hbad.1 hst
    have hcmd := resumeCmd_formed (u := u) hh h1 hz
    simp only [hr', hrec, hb, hsl, if_neg hstage, if_pos hst, Bool.not_true, Bool.false_eq_true, if_false] at hcmd
    refine ⟨_, runs_of_eq rfl hcmd, ?_⟩
    simp [h]
  · have hnone : ¬r.endCmd.isSome = true := by simp [he]
    have hcmd : endCmd u c = endBy r.stage (setReg u h { r with endCmd := some c.ref, ending := true }) h :=
      (regionCmd_some _ hh (hgood hz) hr).trans (if_neg hnone)
    refine ⟨fun hst => runs_of_eq rfl (hcmd.trans ?_), fun hst => runs_of_eq rfl (hcmd.trans ?_)⟩
    · rw [hst]
      rfl
    · rcases hst with hst | hst | hst | hst | hst <;> rw [hst] <;> rfl
  · have hno : ¬(!r.holds || r.yieldCmd.isSome || r.ending) = true := by simp [hho, hy, hend]
    have hcmd : yieldCmd u c = askYield (setReg u h { r with yieldCmd := some c.ref }) h :=
      (regionCmd_some _ hh (hgood hz) hr).trans (if_neg hno)
    exact runs_of_eq rfl hcmd
  · have hcmd : debugCmd u c = _ := regionCmd_some _ hh (hdebug hz h2) hr
    simp only [hx, hin, if_true] at hcmd
    exact runs_of_eq rfl hcmd

/-- The effective priority that a PRIO leaves: by whether the region waits, is saved or holds cells (R429). -/
def prioAfter (r : Region) (p : Nat) : Nat :=
  match r.stage with
  | .leases | .cells => Nat.max r.ep p
  | .halted | .parked => r.ep
  | _ => p

theorem prioAfter_holds {r : Region} {p : Nat} (h : r.holds = true) : prioAfter r p = p := by
  cases hs : r.stage <;> simp [Region.holds, prioAfter, hs] at h ⊢

theorem priorityCommand : Rules.PriorityCommand := by
  intro s c r hh h1 hz u h p hr
  have hgood : (decide (bits c.w1 63 20 = 0) && c.zerosFrom 2) = true := by simp [h1, hz]
  have hcmd : prioCmd u c = _ := regionCmd_some _ hh hgood hr
  have hrun : Runs (.prio c) s (prioCmd u c) := rfl
  rw [hcmd] at hrun
  refine ⟨fun h15 hmax => ?_, fun hbad => ?_⟩
  · rw [if_neg (not_or.mpr ⟨h15, Nat.not_lt.mpr hmax⟩)] at hrun
    refine ⟨_, hrun, ?_⟩
    rw [regAt_answer, regAt_setReg, if_pos rfl]
    refine ⟨rfl, prioAfter_holds (p := p), fun hst => ?_⟩
    have hafter : prioAfter r p = Nat.max r.ep p := by rw [prioAfter, hst]
    exact hafter
  · rw [if_pos hbad] at hrun
    exact hrun

/-! ## Queues and contexts -/

/-- The four registers of a context, which start at number 0x400 + 4 × context (R427). -/
def setContext (s : State) (n : Nat) (a b d e : Word) : State :=
  setPreg (setPreg (setPreg (setPreg s 0x20 (0x400 + 4 * n) a) 0x20 (0x401 + 4 * n) b) 0x20 (0x402 + 4 * n) d) 0x20 (0x403 + 4 * n) e

theorem preg_setContext (s : State) (n : Nat) (a b d e : Word) :
    preg (setContext s n a b d e) 0x20 (0x400 + 4 * n) = a ∧ preg (setContext s n a b d e) 0x20 (0x401 + 4 * n) = b
      ∧ preg (setContext s n a b d e) 0x20 (0x402 + 4 * n) = d ∧ preg (setContext s n a b d e) 0x20 (0x403 + 4 * n) = e := by
  refine ⟨?_, ?_, ?_, preg_setPreg_same ..⟩
  · rw [setContext, preg_setPreg_other _ _ (by omega), preg_setPreg_other _ _ (by omega), preg_setPreg_other _ _ (by omega),
      preg_setPreg_same]
  · rw [setContext, preg_setPreg_other _ _ (by omega), preg_setPreg_other _ _ (by omega), preg_setPreg_same]
  · rw [setContext, preg_setPreg_other _ _ (by omega), preg_setPreg_same]

theorem preg_withCtxs (s : State) (l : List Nat) (i n : Nat) : preg { s with ctxs := l } i n = preg s i n := rfl

theorem setContext_mem (s : State) (n : Nat) (a b d e : Word) : (setContext s n a b d e).mem = s.mem := by
  simp only [setContext, setPreg_mem]

theorem setContext_ctxs (s : State) (n : Nat) (a b d e : Word) : (setContext s n a b d e).ctxs = s.ctxs := by
  simp only [setContext, setPreg_ctxs]

/-- The reset values of a context's registers (R427). -/
theorem pregDefault_context {n : Nat} (h : n < 256) :
    pregDefault 0x20 (0x400 + 4 * n) = 0x70002710 ∧ pregDefault 0x20 (0x401 + 4 * n) = 0x186A000040000
      ∧ pregDefault 0x20 (0x402 + 4 * n) = 0x186A000000000 ∧ pregDefault 0x20 (0x403 + 4 * n) = 0 := by
  have h0 : (0x400 + 4 * n) % 4 = 0 := by omega
  have h1 : (0x401 + 4 * n) % 4 = 1 := by omega
  have h2 : (0x402 + 4 * n) % 4 = 2 := by omega
  have h3 : (0x403 + 4 * n) % 4 = 3 := by omega
  unfold pregDefault
  refine ⟨?_, ?_, ?_, ?_⟩
  · rw [if_pos rfl, if_neg (by omega), if_pos (by omega), h0]
    rfl
  · rw [if_pos rfl, if_neg (by omega), if_pos (by omega), h1]
    rfl
  · rw [if_pos rfl, if_neg (by omega), if_pos (by omega), h2]
    rfl
  · rw [if_pos rfl, if_neg (by omega), if_pos (by omega), h3]
    rfl

/-- A context is removed with its registers at their reset values. -/
theorem resetContext_eq (s : State) {n : Nat} (h : n < 256) :
    (List.range 4).foldl (fun s i => setPreg s 0x20 (0x400 + 4 * n + i) (pregDefault 0x20 (0x400 + 4 * n + i))) s =
      setContext s n 0x70002710 0x186A000040000 0x186A000000000 0 := by
  obtain ⟨h0, h1, h2, h3⟩ := pregDefault_context h
  have hr : List.range 4 = [0, 1, 2, 3] := rfl
  have e1 : 0x400 + 4 * n + 1 = 0x401 + 4 * n := by omega
  have e2 : 0x400 + 4 * n + 2 = 0x402 + 4 * n := by omega
  have e3 : 0x400 + 4 * n + 3 = 0x403 + 4 * n := by omega
  simp only [hr, List.foldl_cons, List.foldl_nil, Nat.add_zero, e1, e2, e3, h0, h1, h2, h3, setContext]

theorem bits_lt (w : Word) (hi lo : Nat) : bits w hi lo < 2 ^ (hi + 1 - lo) := Nat.mod_lt _ (Nat.two_pow_pos _)

theorem qdestroyCmd_accepted {u : State} {c : Cmd} {q : HQueue} (hh : c.headOk = true) (hq : c.queue = 0) (h12 : bits c.w1 63 12 = 0)
    (hz : c.zerosFrom 2 = true) (hpos : 0 < bits c.w1 11 0) (hn : queueAt u (bits c.w1 11 0) = some q) (hd : q.dying = none) :
    qdestroyCmd u c = setQueue u (bits c.w1 11 0) { q with dying := some c.ref } := by
  have h0 : bits c.w1 11 0 ≠ 0 := Nat.ne_of_gt hpos
  simp only [qdestroyCmd, hn]
  rw [if_neg (by simp [hh, hq, h12, hz, h0]), if_neg (by simp [hd])]

theorem ccreateCmd_accepted {u : State} {c : Cmd} (hh : c.headOk = true) (hq : c.queue = 0) (h8 : bits c.w1 63 8 = 0)
    (h6 : c.w6 = 0) (h7 : c.w7 = 0) (hc : u.ctxs.contains (bits c.w1 7 0) = false) (hf : ctxFieldsOk c.w2 c.w3 c.w4 c.w5 = true) :
    ccreateCmd u c =
      let v := setContext u (bits c.w1 7 0) c.w2 c.w3 c.w4 c.w5
      answer { v with ctxs := v.ctxs ++ [bits c.w1 7 0] } c stOk 0 := by
  unfold ccreateCmd
  dsimp only
  rw [hc, hf, if_neg (by simp [hh, hq, h8, h6, h7]), if_neg (by decide), setContext]

theorem cdestroyCmd_accepted {u : State} {c : Cmd} (hh : c.headOk = true) (hq : c.queue = 0) (h8 : bits c.w1 63 8 = 0)
    (hz : c.zerosFrom 2 = true) (h255 : bits c.w1 7 0 ≠ 255) (hc : u.ctxs.contains (bits c.w1 7 0) = true)
    (hqs : ∀ p ∈ u.queues, p.2.ctx ≠ bits c.w1 7 0) (hl : ctxLive u (bits c.w1 7 0) = false) :
    cdestroyCmd u c =
      let v := setContext u (bits c.w1 7 0) 0x70002710 0x186A000040000 0x186A000000000 0
      answer { v with ctxs := v.ctxs.filter (· ≠ bits c.w1 7 0) } c stOk 0 := by
  have hany : (u.queues.any fun p => decide (p.2.ctx = bits c.w1 7 0)) = false :=
    List.any_eq_false.mpr fun p hp => by simpa using hqs p hp
  unfold cdestroyCmd
  dsimp only
  rw [hc, hany, hl, if_neg (by simp [hh, hq, h8, hz]), if_neg (by simp [h255]), resetContext_eq u (bits_lt c.w1 7 0)]

/-- The queue that a QCREATE makes, switched in where a slot is free. -/
def createdQueue (u : State) (c : Cmd) : HQueue :=
  { ctx := bits c.w2 31 16, prio := bits c.w2 35 32, ring := c.w3, lg := bits c.w4 4 0, conn := bits c.w4 31 16, cring := c.w5,
    desc := c.w1, live := decide (liveQueues u < 64) }

theorem qcreateCmd_accepted {u : State} {c : Cmd} (hh : c.headOk = true) (hq : c.queue = 0) (h36 : bits c.w2 63 36 = 0)
    (h5 : bits c.w4 15 5 = 0) (h32 : bits c.w4 63 32 = 0) (h6 : c.w6 = 0) (h7 : c.w7 = 0) (hpos : 0 < bits c.w2 15 0)
    (hmax : bits c.w2 15 0 ≤ 4095) (hnone : queueAt u (bits c.w2 15 0) = none) (hlo : 4 ≤ bits c.w4 4 0)
    (hhi : bits c.w4 4 0 ≤ 15) (hprio : bits c.w2 35 32 ≠ 15) (hconn : (sfind u.conns (bits c.w4 31 16)).isSome = true)
    (hc : u.ctxs.contains (bits c.w2 31 16) = true) :
    ∃ v, qcreateCmd u c = answer (setQueue v (bits c.w2 15 0) (createdQueue u c)) c stOk 0 := by
  have h0 : bits c.w2 15 0 ≠ 0 := Nat.ne_of_gt hpos
  have hconn' : (sfind u.conns (bits c.w4 31 16)).isNone = false := Option.isNone_eq_false_iff.mpr hconn
  unfold qcreateCmd
  dsimp only
  rw [hnone, hconn', hc, if_neg, if_neg (by decide)]
  swap
  · simp [hh, hq, h36, h5, h32, h6, h7, h0, Nat.not_lt.mpr hmax, Nat.not_lt.mpr hlo, Nat.not_lt.mpr hhi, hprio]
  exact ⟨_, rfl⟩

theorem queueSwitchIn_slot {s : State} {n : Nat} {q : HQueue} (hn : queueAt s n = some q) (hr : s.rstT = none) (hl : q.live = false)
    (h64 : liveQueues s < 64) (hw : hostRange s q.ctx (byteAfter s q.ctx q.desc 32) 8 = 0) :
    ∃ x, Runs (.queueSwitchIn n) s (setQueue s n x) ∧ x.live = true
      ∧ x.tail = ((wordsOf 1 (hostRead s q.ctx (byteAfter s q.ctx q.desc 32) 8)).headD 0).extractLsb' 0 16
      ∧ x.cons = ((wordsOf 1 (hostRead s q.ctx (byteAfter s q.ctx q.desc 32) 8)).headD 0).extractLsb' 16 16
      ∧ x.dne = ((wordsOf 1 (hostRead s q.ctx (byteAfter s q.ctx q.desc 32) 8)).headD 0).extractLsb' 32 16 := by
  have hno : ¬(q.live = true ∨ 64 ≤ liveQueues s ∨ s.rstT.isSome = true) := by simp [hl, hr, h64]
  simp only [Runs, exec_queueSwitchIn, execQueueSwitchIn, hn, if_neg hno]
  rw [if_pos hw]
  refine ⟨_, rfl, ?_⟩
  split <;> exact ⟨rfl, rfl, rfl, rfl⟩

theorem queuesAndContexts : Rules.QueuesAndContexts := by
  intro s c u
  refine ⟨fun hh hq => ⟨?_, ?_, ?_, ?_⟩, fun n q hn hr => ⟨fun hl h0 => ?_, fun hl h64 => ?_⟩⟩
  · rintro _ _ rfl rfl h36 h5 h32 h6 h7 hpos hmax hnone hlo hhi hprio hconn hc
    obtain ⟨v, hv⟩ := qcreateCmd_accepted hh hq h36 h5 h32 h6 h7 hpos hmax hnone hlo hhi hprio hconn hc
    refine ⟨_, createdQueue u c, runs_of_eq rfl hv, ?_, rfl, rfl, rfl, rfl, rfl, rfl, rfl, rfl, rfl⟩
    rw [queueAt_answer _ _ _ _ (by omega), queueAt_setQueue, if_pos rfl]
  · rintro _ q rfl h12 hz hpos hn hd
    exact runs_of_eq rfl (qdestroyCmd_accepted hh hq h12 hz hpos hn hd)
  · rintro _ rfl h8 h6 h7 hc hf
    refine ⟨_, runs_of_eq rfl (ccreateCmd_accepted hh hq h8 h6 h7 hc hf), congrArg (· ++ _) (setContext_ctxs ..), ?_⟩
    simp only [preg_withCtxs]
    exact preg_setContext u _ _ _ _ _
  · rintro _ rfl h8 hz h255 hc hqs hlive
    refine ⟨_, runs_of_eq rfl (cdestroyCmd_accepted hh hq h8 hz h255 hc hqs hlive), congrArg (List.filter _) (setContext_ctxs ..),
      ?_, ?_⟩
    · simp only [setContext_mem, u]
    · simp only [preg_withCtxs]
      exact preg_setContext u _ _ _ _ _
  · have hno : ¬(n = 0 ∨ !q.live ∨ s.rstT.isSome) := by simp [h0, hl, hr]
    simp only [Runs, exec_queueSwitchOut, execQueueSwitchOut, hn]
    rw [if_neg hno]
  · intro a w hw
    obtain ⟨x, hx, hlive⟩ := queueSwitchIn_slot hn hr hl h64 hw
    exact ⟨_, x, hx, (queueAt_setQueue s n n x).trans (if_pos rfl), hlive⟩

end Sys2Proof.Machine

open Sys2Proof Sys2Proof.Machine

/-- Settles O44: the commands of the host, by family. -/
theorem hostCommandsCarriedOut : Obligations.HostCommandsCarriedOut :=
  ⟨launches, regionCommands, priorityCommand, queuesAndContexts⟩

end

