-- ==== Sys2Proof/Proofs/Stores.lean ====
section
/-! SUPPORT. Stores: the bytes of a scratchpad around those that a store puts into its buffers, and those of a home (R76, R85,
R108). -/

namespace Sys2Proof.Machine

/-! ## Phase buffers -/

/-- What an entry of a phase buffer shows of a writer's byte, over what the entries before it show. -/
def pbSee (writer off : Nat) (r : Option Byte) (e : PbEntry) : Option Byte :=
  if e.writer = writer ∧ e.word = off / 8 ∧ e.mask.getLsbD (off % 8) then
    some (e.data.extractLsb' (8 * (off % 8)) 8) else r

theorem pbFind_eq_foldl (buf : List PbEntry) (writer off : Nat) : pbFind buf writer off = buf.foldl (pbSee writer off) none := rfl

/-- A word with one of its bytes replaced shows its other bytes as before. -/
theorem extractLsb'_replaced (d : Word) (b : Byte) {i j : Nat} (h : j ≠ i) :
    ((d &&& ~~~((0xFF : Word) <<< (8 * i))) ||| (b.setWidth 64) <<< (8 * i)).extractLsb' (8 * j) 8 = d.extractLsb' (8 * j) 8 := by
  rw [show (0xFF : Word) = (BitVec.allOnes 8).setWidth 64 by decide]
  generalize BitVec.allOnes 8 = m
  have hz : ∀ z : Byte, 8 * i ≤ 8 * j → ∀ n, z.getLsbD (8 * j + n - 8 * i) = false := fun z hle n =>
    BitVec.getLsbD_of_ge z _ (by omega)
  ext n hn
  by_cases hlt : 8 * j + n < 64
  · by_cases hle : 8 * j + n < 8 * i
    · simp [hlt, hle]
    · simp [hlt, hle, hz _ (show 8 * i ≤ 8 * j by omega) n]
  · simp [BitVec.getLsbD_of_ge d (8 * j + n) (by omega), hlt]

/-- A mask of one bit has no other. -/
theorem getLsbD_natCast_one_shiftLeft {i j : Nat} (h : j ≠ i) : ((1 <<< i : Nat) : BitVec 8).getLsbD j = false := by
  change (BitVec.ofNat 8 (1 <<< i)).getLsbD j = false
  rw [BitVec.getLsbD_ofNat, Nat.one_shiftLeft, Nat.testBit_two_pow_of_ne h.symm, Bool.and_false]

/-- A byte put into a phase buffer leaves what every writer's other bytes show. -/
theorem pbFind_pbPut {buf l : List PbEntry} {writer ep off : Nat} {b : Byte} (hl : pbPut buf writer ep off b = some l) (w : Nat)
    {x : Nat} (hx : x ≠ off) : pbFind l w x = pbFind buf w x := by
  have hbyte : x / 8 = off / 8 → x % 8 ≠ off % 8 := by omega
  unfold pbPut at hl
  dsimp only at hl
  rw [pbFind_eq_foldl, pbFind_eq_foldl]
  split at hl
  · cases hl
    rw [List.foldl_map]
    refine congrArg (fun f => List.foldl f none buf) (funext fun r => funext fun e => ?_)
    unfold pbSee
    split
    · next he =>
      by_cases hw : e.word = x / 8
      · have hne := hbyte (hw.symm.trans he.2.1)
        simp only [BitVec.getLsbD_or, getLsbD_natCast_one_shiftLeft hne, Bool.or_false, extractLsb'_replaced _ _ hne]
      · simp only [hw, false_and, and_false, if_false]
    · rfl
  · split at hl
    · cases hl
      rw [List.foldl_append, List.foldl_cons, List.foldl_nil]
      refine if_neg fun hsee => ?_
      obtain ⟨_, hw, hm⟩ := hsee
      have hne := hbyte hw.symm
      exact Bool.false_ne_true ((getLsbD_natCast_one_shiftLeft hne).symm.trans hm)
    · cases hl

/-! ## The frame of a scratchpad store -/

/-- t is s but for the bytes from lo to hi of the scratchpad of y, and what a store leaves in flight and names: no other byte of a
scratchpad, no memory, no register and no queue has changed. -/
structure SpadFrame (y lo hi : Nat) (s t : State) : Prop where
  spad : ∀ k p x, ¬ (p = y ∧ lo ≤ x ∧ x < hi) → spadByte t k p x = spadByte s k p x
  mem : t.mem = s.mem
  regs : ∀ k r, readA t k r = readA s k r
  cells : ∀ k, (cellAt t k).v = (cellAt s k).v ∧ (cellAt t k).k = (cellAt s k).k ∧ (cellAt t k).q = (cellAt s k).q
  rest : t.regions = s.regions ∧ t.reqs = s.reqs ∧ t.tt = s.tt ∧ t.pregs = s.pregs

theorem SpadFrame.refl (y lo hi : Nat) (s : State) : SpadFrame y lo hi s s :=
  ⟨fun _ _ _ _ => rfl, rfl, fun _ _ => rfl, fun _ => ⟨rfl, rfl, rfl⟩, rfl, rfl, rfl, rfl⟩

theorem SpadFrame.trans {y lo hi : Nat} {s t u : State} (h : SpadFrame y lo hi s t) (g : SpadFrame y lo hi t u) :
    SpadFrame y lo hi s u where
  spad k p x hx := (g.spad k p x hx).trans (h.spad k p x hx)
  mem := g.mem.trans h.mem
  regs k r := (g.regs k r).trans (h.regs k r)
  cells k := by
    obtain ⟨hv, hk, hq⟩ := h.cells k
    obtain ⟨gv, gk, gq⟩ := g.cells k
    exact ⟨gv.trans hv, gk.trans hk, gq.trans hq⟩
  rest := by
    obtain ⟨h1, h2, h3, h4⟩ := h.rest
    obtain ⟨g1, g2, g3, g4⟩ := g.rest
    exact ⟨g1.trans h1, g2.trans h2, g3.trans h3, g4.trans h4⟩

/-- What leaves more bytes as they were leaves fewer. -/
theorem SpadFrame.widen {y lo hi lo' hi' : Nat} {s t : State} (h : SpadFrame y lo hi s t) (hlo : lo' ≤ lo) (hhi : hi ≤ hi') :
    SpadFrame y lo' hi' s t :=
  { h with spad := fun k p x hx => h.spad k p x fun hin => hx ⟨hin.1, by omega, by omega⟩ }

/-- A cell with other contents of its scratchpad and buffers, which show the bytes outside the range as before. -/
theorem SpadFrame.setCell {y lo hi : Nat} {s : State} {c : Cell}
    (hc : { c with spad := (cellAt s y).spad, pwb := (cellAt s y).pwb, inb := (cellAt s y).inb, lat := (cellAt s y).lat } = cellAt s y)
    (hspad : ∀ x, ¬ (lo ≤ x ∧ x < hi) → sget 0 c.spad x = sget 0 (cellAt s y).spad x)
    (hpwb : ∀ w x, ¬ (lo ≤ x ∧ x < hi) → pbFind c.pwb w x = pbFind (cellAt s y).pwb w x)
    (hinb : ∀ w x, ¬ (lo ≤ x ∧ x < hi) → pbFind c.inb w x = pbFind (cellAt s y).inb w x) :
    SpadFrame y lo hi s (setCell s y c) where
  spad k p x hx := by
    unfold spadByte
    by_cases hp : p = y
    · subst hp
      have hout : ¬ (lo ≤ x ∧ x < hi) := fun h => hx ⟨rfl, h⟩
      simp only [coreAt_setCell, cellAt_setCell, if_true, hspad x hout, hpwb _ x hout, hinb _ x hout]
    · simp only [coreAt_setCell, cellAt_setCell, hp, if_false]
  mem := rfl
  regs k r := by
    have ha : c.a = (cellAt s y).a := by have e := congrArg Cell.a hc; exact e
    unfold readA
    by_cases hk : k = y
    · subst hk
      simp only [coreAt_setCell, cellAt_setCell, if_true, ha]
    · simp only [coreAt_setCell, cellAt_setCell, hk, if_false]
  cells k := by
    rw [cellAt_setCell]
    split
    · next hk =>
      subst hk
      rw [← hc]
      exact ⟨rfl, rfl, rfl⟩
    · exact ⟨rfl, rfl, rfl⟩
  rest := ⟨rfl, rfl, rfl, rfl⟩

/-- A read of another key after a write that keeps the canonical form. -/
theorem sget_sput_other {α : Type} [DecidableEq α] {d : α} (m : SMap α) {x y : Nat} (v : α) (h : y ≠ x) :
    sget d (sput d m x v) y = sget d m y := by
  unfold sput
  split
  · exact sget_sdel_other m h
  · exact sget_sset_other d m v h

/-- One byte of the memory of a core replaced. -/
theorem setCore_loc_spadFrame {y : Nat} (hy : isCore y = true) (s : State) (off : Nat) (b : Byte) :
    SpadFrame y off (off + 1) s
      (setCore s (y - coreKey) { coreAt s (y - coreKey) with loc := sput 0 (coreAt s (y - coreKey)).loc off b }) where
  spad k p x hx := by
    unfold spadByte
    cases hp : isCore p
    · simp only [cellAt_setCore, Bool.false_eq_true, if_false]
    · simp only [coreAt_setCore, if_true]
      split
      · next hn =>
        have hpy : p = y := by
          simp only [isCore, decide_eq_true_eq] at hp hy
          omega
        rw [hn]
        exact sget_sput_other _ _ fun hxo => hx ⟨hpy, by omega, by omega⟩
      · rfl
  mem := rfl
  regs k r := by
    unfold readA
    simp only [coreAt_setCore, cellAt_setCore]
    by_cases hn : k - coreKey = y - coreKey
    · simp only [hn, if_true]
    · simp only [hn, if_false]
  cells _ := ⟨rfl, rfl, rfl⟩
  rest := ⟨rfl, rfl, rfl, rfl⟩

theorem spadPut_spadFrame (s : State) (y off : Nat) (b : Byte) : SpadFrame y off (off + 1) s (spadPut s y off b) := by
  unfold spadPut
  split
  · next hy => exact setCore_loc_spadFrame hy s off b
  · exact .setCell rfl (fun x hx => sget_sput_other _ _ fun hxo => hx (by omega)) (fun _ _ _ => rfl) fun _ _ _ => rfl

/-- The bytes of a store go one by one into a buffer or the scratchpad; each leaves every other byte. -/
theorem spadStore_spadFrame {s t : State} {x y off : Nat} {bs : List Byte} (h : spadStore s x y off bs = some t) :
    SpadFrame y off (off + bs.length) s t := by
  induction bs generalizing s off with
  | nil =>
    cases h
    exact .refl ..
  | cons b bs ih =>
    have step : ∀ {u}, SpadFrame y off (off + 1) s u → spadStore u x y (off + 1) bs = some t →
        SpadFrame y off (off + (b :: bs).length) s t := fun hu hrest => by
      rw [List.length_cons]
      exact (hu.widen (Nat.le_refl _) (by omega)).trans ((ih hrest).widen (by omega) (by omega))
    have other : ∀ z, ¬ (off ≤ z ∧ z < off + 1) → z ≠ off := fun z hz hzo => hz (by omega)
    unfold spadStore at h
    dsimp only at h
    split at h
    · split at h
      · split at h
        · next hp =>
          refine step ?_ h
          exact .setCell rfl (fun _ _ => rfl) (fun w z hz => pbFind_pbPut hp w (other z hz)) fun _ _ _ => rfl
        · cases h
      · split at h
        · next hp =>
          refine step ?_ h
          exact .setCell rfl (fun _ _ => rfl) (fun _ _ _ => rfl) fun w z hz => pbFind_pbPut hp w (other z hz)
        · cases h
    · exact step (spadPut_spadFrame s y off b) h

theorem addLatch_spadFrame (s : State) (y lo hi : Nat) (l : Latch) : SpadFrame y lo hi s (addLatch s y l) := by
  have hname : SpadFrame y lo hi s { s with nextId := s.nextId + 1 } :=
    ⟨fun _ _ _ _ => rfl, rfl, fun _ _ => rfl, fun _ => ⟨rfl, rfl, rfl⟩, rfl, rfl, rfl, rfl⟩
  exact hname.trans (.setCell rfl (fun _ _ => rfl) (fun _ _ _ => rfl) fun _ _ _ => rfl)

/-- A timed store to the own scratchpad puts its shared bytes now and has the others in flight. -/
theorem storeAt_spadFrame {s t : State} {c : Ctx} {o off n : Nat} {bs : List Byte} (h : storeAt s c o off bs n = some t) :
    SpadFrame o off (off + bs.length) s t := by
  unfold storeAt at h
  split at h
  · dsimp only at h
    split at h
    · cases h
    · next u hu =>
      have hf := (spadStore_spadFrame hu).widen (Nat.le_refl off)
        (Nat.add_le_add_left (List.length_take_le' ..) off)
      split at h
      · cases h
        exact hf
      · cases h
        exact hf.trans (addLatch_spadFrame ..)
  · exact spadStore_spadFrame h

theorem scratchpadStoreFrame : Rules.ScratchpadStoreFrame := by
  intro s t c o off bs n h
  have hf := storeAt_spadFrame h
  exact ⟨hf.spad, fun a => congrArg (fun m => sget memDefault m a) hf.mem, hf.regs, hf.cells, hf.rest⟩

/-! ## A store at its home -/

theorem memBytes_congr {s t : State} (h : t.mem = s.mem) (a n : Nat) : memBytes t a n = memBytes s a n := by
  induction n generalizing a with
  | zero => rfl
  | succ n ih => rw [memBytes, memBytes, ih, memByte, memByte, h]

/-- A write to a tile that is RESIDENT at its home writes the bytes in the tile's frame. -/
theorem homeWrite_resident {s : State} {ctx tens tile : Nat} (off : Nat) (bs : List Byte) (hb : isBoot ctx tens = false)
    (he : entState (entryOf s ctx tens tile) = 1) :
    homeWrite s ctx tens tile off bs =
      healMem { migTouch s (frameOf (entryOf s ctx tens tile)) off bs.length with
                mem := memPuts s.mem (physOf (entryOf s ctx tens tile) off) bs }
        (physOf (entryOf s ctx tens tile) off) bs.length := by
  have hz : zeroFill s ctx tens tile = s := by simp [zeroFill, he]
  simp only [homeWrite, hb, hz, Bool.false_eq_true, if_false]
  rfl

theorem homeRead_resident {s : State} {ctx tens tile : Nat} (off n : Nat) (hb : isBoot ctx tens = false)
    (he : entState (entryOf s ctx tens tile) = 1) :
    homeRead s ctx tens tile off n = memBytes s (physOf (entryOf s ctx tens tile) off) n := by
  simp [homeRead, hb, he]

theorem homeStores : Rules.HomeStores := by
  intro s ctx tens tile off bs hwf hb he t a0
  have ht : t = _ := homeWrite_resident off bs hb he
  have hmem : t.mem = memPuts s.mem a0 bs := by rw [ht]; rfl
  have hentry : entryOf t ctx tens tile = entryOf s ctx tens tile := by rw [ht]; rfl
  have hbytes : memBytes t a0 bs.length = bs :=
    (memBytes_congr (s := { s with mem := memPuts s.mem a0 bs }) hmem a0 bs.length).trans (memBytes_memPuts s a0 bs hwf)
  refine ⟨hbytes, fun a ha => ?_, ?_, ?_⟩
  · rw [memByte, hmem, sget_memPuts a0 bs hwf, if_neg ha]
    rfl
  · rw [homeRead_resident off _ hb (hentry ▸ he), hentry]
    exact hbytes
  · rw [ht]
    exact ⟨rfl, rfl, rfl, rfl, rfl, rfl⟩

end Sys2Proof.Machine

open Sys2Proof Sys2Proof.Machine

/-- Settles O60: the stored bytes enter the buffers one by one, and a resident tile's bytes lie in its frame. -/
theorem storesFrame : Obligations.StoresFrame := ⟨scratchpadStoreFrame, homeStores⟩

end

