-- ==== Sys2Proof/Proofs/ScalarMemory.lean ====
section
/-! SUPPORT. The scalar accesses to device memory: the request that each sends, and the loads that the sector buffer serves
(R98, R105, R113, R114, R191 to R197). -/

namespace Sys2Proof.Machine

/-! ## The answer of a word that issues -/

theorem runs_ok {i : Instr} {lg : Legal} {regs : List (BitVec 6)} {body : Ctx → State → Res} {s t : State}
    (hi : Issues lg regs s) (he : exec i s = word lg regs body s) (hb : body (issueCtx s) (moved s) = .ok t) : Runs i s t := by
  rw [Runs, he, word_of_issues hi, hb]
  rfl

theorem runs_fault {i : Instr} {lg : Legal} {regs : List (BitVec 6)} {body : Ctx → State → Res} {s : State} {f : Flt}
    (hi : Issues lg regs s) (he : exec i s = word lg regs body s) (hb : body (issueCtx s) (moved s) = .fault f) :
    Runs i s (takeFault (moved s) (runner s) f) := by
  rw [Runs, he, word_of_issues hi, hb]
  rfl

/-- Where the watch does not match, the access is all that happens (R364). -/
theorem watched_unhit {s : State} {c : Ctx} {wr : Bool} {ea : Word} {addrs : List Word} (h : watchHit s c.key wr addrs = false)
    (t : State) : watched s c wr ea addrs (.ok t) = .ok t := by
  simp [watched, h]

/-! ## Requests -/

/-- The request that an access sends: it takes its agent, and its place in the orders of R105, R113 and R114. -/
def issuedReq (s : State) (c : Ctx) (r : Req) : Req :=
  let peer := (peerOf s (ctxOf s c.key) (tidOf r.addr)).isSome
  let q : Req :=
    { r with key := c.key, seq := c.seq, reg := (if isCore c.key then 0 else (cellAt s c.key).reg),
             core := (if isCore c.key then c.key - coreKey + 1 else 0), ctx := ctxOf s c.key, pc := c.pc, word := s.curWord,
             timed := c.timed, peer := peer,
             relAfter := if peer ∨ r.use = 2 then [] else acquires s c.key c.seq ++ if r.rel then c.st.obs else [] }
  { q with after := orderBefore s q ++ q.after, relAfter := relBefore s q ++ q.relAfter, born := s.tick,
           due := s.per + Config.accessPeriods }

theorem sfind_issueReq (s : State) (c : Ctx) (r : Req) : sfind (issueReq s c r).reqs s.nextId = some (issuedReq s c r) :=
  (sfind_sset _ _ _ _).trans (if_pos rfl)

theorem sfind_map_if {α : Type} (m : SMap α) (p : α → Prop) [DecidablePred p] (f : α → α) (x : Nat) :
    sfind (m.map fun e => if p e.2 then (e.1, f e.2) else e) x = (sfind m x).map fun a => if p a then f a else a := by
  induction m with
  | nil => rfl
  | cons e m ih =>
    obtain ⟨k, v⟩ := e
    by_cases hp : p v <;> by_cases hk : k = x <;> simp [sfind, hp, hk, ih]

/-- An overtaken sector marks reads alone. -/
theorem sfind_overtake {s : State} {key id : Nat} {f : Req → Bool} {r : Req} (h : sfind s.reqs id = some r) (hk : r.kind ≠ .load) :
    sfind (overtake s key f).reqs id = some r := by
  refine (sfind_map_if s.reqs (fun r => r.key = key ∧ r.kind = .load ∧ f r = true)
    (fun r => { r with noInstall := true }) id).trans ?_
  simp [h, hk]

@[simp] theorem setSects_reqs (s : State) (key : Nat) (l : List Sect) : (setSects s key l).reqs = s.reqs := by
  unfold setSects
  split <;> rfl

@[simp] theorem setSects_mem (s : State) (key : Nat) (l : List Sect) : (setSects s key l).mem = s.mem := by
  unfold setSects
  split <;> rfl

/-- A store in the buffer's sectors leaves what was sent and memory. -/
theorem sfind_sectStoreReq {s : State} {id : Nat} {q r : Req} (h : sfind s.reqs id = some q) (hk : q.kind ≠ .load) :
    sfind (sectStoreReq s r).reqs id = some q := by
  unfold sectStoreReq
  split
  · exact h
  · exact sfind_overtake (by rwa [setSects_reqs]) hk

theorem sectStoreReq_mem (s : State) (r : Req) : (sectStoreReq s r).mem = s.mem := by
  unfold sectStoreReq
  split
  · rfl
  · exact setSects_mem ..

theorem sfind_atomicLeaves {s : State} {c : Ctx} {ea : Word} {tile off n id : Nat} {q : Req} (h : sfind s.reqs id = some q)
    (hk : q.kind ≠ .load) : sfind (atomicLeaves s c ea tile off n).reqs id = some q := by
  unfold atomicLeaves sectDrop
  exact sfind_overtake (by rwa [setSects_reqs]) hk

/-! ## Loads and stores -/

/-- The request of a store. -/
def storeReq (s : State) (c : Ctx) (ea base data : Word) (n : Nat) (rel : Bool) : Req :=
  { kind := .store, key := c.key, seq := c.seq, ctx := ctxOf s c.key, addr := ea, n := n, data := data.toNat % 2 ^ (8 * n),
    rel := rel, va := base, vb := data }

section
variable {s : State} {c : Ctx} {base : Word} {imm : BitVec 32} {n tile off : Nat} {ds : Desc} {d : BitVec 6}

/-- The loads that extend the sign are those from sub-operation 4 on. -/
theorem getLsbD_sx (sub : BitVec 3) : sub.getLsbD 2 = decide (4 ≤ sub.toNat) := by
  revert sub
  decide

section
variable {sub : BitVec 3} (hsub : sub ≠ 7) (hn : n = 2 ^ (sub.toNat % 4)) (ht : tidOf (scalarEa base imm) ≠ 0xFFFF)
  (hc : c.timed = false) (hp : scalarPlace s (ctxOf s c.key) (scalarEa base imm) n = .ok (ds, tile, off))
  (hl : leased s c.key (ctxOf s c.key) (tidOf (scalarEa base imm)) tile false = true)
  (hw : watchHit s c.key false (accessAddrs s (ctxOf s c.key) (scalarEa base imm) n) = false)
include hsub hn ht hc hp hl hw

theorem ldBody_served {bs : List Byte} {ids : List Nat} (hb : bufferServes s c (scalarEa base imm) n = true)
    (hr : sectRead s c.key (tidOf (scalarEa base imm)) tile off n = some (bs, ids)) :
    ldBody false d sub imm base c s =
      .ok (landA (observe s c ids) c d
        (if sub.toNat < 4 then BitVec.ofNat 64 (ofBytes bs) else sextNat (8 * n) (ofBytes bs)) 0) := by
  have hsx : (if sub.getLsbD 2 then sextNat (8 * n) (ofBytes bs) else BitVec.ofNat 64 (ofBytes bs)) =
      if sub.toNat < 4 then BitVec.ofNat 64 (ofBytes bs) else sextNat (8 * n) (ofBytes bs) := by
    simp only [getLsbD_sx, decide_eq_true_eq, ← Nat.not_lt, ite_not]
  subst hn
  simp only [ldBody, hsub, ht, hc, hp, hl, hb, hr, if_false, Bool.false_eq_true, Bool.not_true, or_self]
  rw [watched_unhit hw, hsx]

theorem ldBody_requests {acq : Bool} (hr : acq = true ∨ bufferServes s c (scalarEa base imm) n = false
      ∨ sectRead s c.key (tidOf (scalarEa base imm)) tile off n = none) :
    ldBody acq d sub imm base c s =
      .ok (issueReq (if acq then dropSects s c.key else s) c
        { kind := .load, key := 0, seq := .s, addr := scalarEa base imm, n := n, dst := d.toNat, sext := sub.getLsbD 2,
          bypass := acq, acq := acq }) := by
  subst hn
  have hnone : (if acq = true ∨ (!bufferServes s c (scalarEa base imm) (2 ^ (sub.toNat % 4))) = true then none
      else sectRead s c.key (tidOf (scalarEa base imm)) tile off (2 ^ (sub.toNat % 4))) = none := by
    rcases hr with h | h | h
    · simp [h]
    · simp [h]
    · rw [h, ite_self]
  simp only [ldBody, hsub, ht, hc, hp, hl, hnone, if_false, Bool.false_eq_true, Bool.not_true]
  exact watched_unhit hw _

end

section
variable {sz : BitVec 2} {data : Word} {rel : Bool} (hn : n = 2 ^ sz.toNat) (ht : tidOf (scalarEa base imm) ≠ 0xFFFF)
  (hp : scalarPlace s (ctxOf s c.key) (scalarEa base imm) n = .ok (ds, tile, off))
include hn ht hp

theorem stBody_requests (hl : leased s c.key (ctxOf s c.key) (tidOf (scalarEa base imm)) tile true = true)
    (hw : watchHit s c.key true (accessAddrs s (ctxOf s c.key) (scalarEa base imm) n) = false) :
    stBody rel sz imm base data c s =
      .ok (sectStoreReq (issueReq s c (storeReq s c (scalarEa base imm) base data n rel))
        (storeReq s c (scalarEa base imm) base data n rel)) := by
  subst hn
  simp only [stBody, ht, hp, hl, if_false, Bool.not_true, Bool.false_eq_true]
  exact watched_unhit hw _

theorem stBody_unleased (hl : leased s c.key (ctxOf s c.key) (tidOf (scalarEa base imm)) tile true = false) :
    stBody rel sz imm base data c s =
      .fault { code := 5, taddr := scalarEa base imm, shadow := some (base, data, 0, c.t + 1) } := by
  subst hn
  simp only [stBody, ht, hp, hl, if_false, if_true, Bool.not_false]
  rfl

end

end

/-! ## Atomics and wide accumulation -/

/-- CAS admits no use that has no reply (R123). -/
theorem useAdmits_cas_ne_one {use : Nat} (h : useAdmits use 9 = true) : use ≠ 1 := by
  rintro rfl
  exact absurd h (by decide)

section
variable {s : State} {c : Ctx} {a b e : Word} {n tile off : Nat}

/-- The request of an AMO or a CAS. -/
def atomicReq (kind : ReqKind) (d f : BitVec 6) (use n : Nat) (a b e : Word) : Req :=
  { kind := kind, key := 0, seq := .s, addr := a, n := n, data := b.toNat % 2 ^ (8 * n), data2 := e.toNat % 2 ^ (8 * n), use := use,
    dst := d.toNat, flag := f.toNat, bypass := true, va := a, vb := b }

theorem atomicBody_requests {kind : ReqKind} {d f : BitVec 6} {use : Nat} {w : BitVec 1} {ds : Desc}
    (hn : n = if w = 1 then 4 else 8) (ht : tidOf a ≠ 0xFFFF) (hc : c.timed = true → d = 0 ∧ f = 0) (hu : use = 1 → d = 0)
    (hp : atomicPlace s (ctxOf s c.key) a n = .ok (ds, tile, off))
    (hl : leased s c.key (ctxOf s c.key) (tidOf a) tile true = true)
    (hw : watchHit s c.key true (accessAddrs s (ctxOf s c.key) a n) = false) :
    atomicBody kind d f use w.toNat a b e c s =
      .ok (atomicLeaves (issueReq s c (atomicReq kind d f use n a b e)) c a tile off n) := by
  have hn' : (if w.toNat = 1 then 4 else 8) = n := by
    rw [hn]
    exact if_congr (BitVec.toNat_inj (y := (1 : BitVec 1))) rfl rfl
  have hreply : ¬(c.timed = true ∧ (d ≠ 0 ∨ f ≠ 0)) := fun ⟨h, hdf⟩ => hdf.elim (· (hc h).1) (· (hc h).2)
  have huse : ¬(use = 1 ∧ d ≠ 0) := fun ⟨h, hd⟩ => hd (hu h)
  simp only [atomicBody, hn', hreply, huse, ht, hp, hl, if_false, Bool.not_true, Bool.false_eq_true]
  exact watched_unhit hw _

/-- The request of a FADDW of a wide number. -/
def faddwReq (a b : Word) (q : Nat) : Req :=
  { kind := .faddw, key := 0, seq := .s, addr := a, n := 32, data := q, use := 1, bypass := true, va := a, vb := b }

theorem faddwBody_requests {q : Nat} (hq : wideOf (b.toNat % 2 ^ 32) = some q)
    (hp : widePlace s (ctxOf s c.key) a = .ok (tile, off)) (hl : leased s c.key (ctxOf s c.key) (tidOf a) tile true = true)
    (hw : watchHit s c.key true [a] = false) :
    faddwBody a b c s = .ok (atomicLeaves (issueReq s c (faddwReq a b q)) c a tile off 32) := by
  simp only [faddwBody, hq, hp, hl, if_false, Bool.not_true, Bool.false_eq_true]
  exact watched_unhit hw _

/-- An atomic's request is there once its sector has left the buffer. -/
theorem sfind_atomicLeaves_issueReq {r : Req} (hk : r.kind ≠ .load) :
    sfind (atomicLeaves (issueReq s c r) c a tile off n).reqs s.nextId = some (issuedReq s c r) :=
  sfind_atomicLeaves (sfind_issueReq s c r) hk

end

/-- The request of a FADDR. -/
def faddrReq (d : BitVec 6) (a : Word) : Req :=
  { kind := .faddr, key := 0, seq := .s, addr := a, n := 32, dst := d.toNat, bypass := true }

theorem faddr_requests {s : State} {d a : BitVec 6} {tile off : Nat}
    (hi : Issues { lgMem (spadBase s s.cur a) with timed := false } [d, a] s)
    (hp : widePlace (moved s) (ctxOf (moved s) (issueCtx s).key) (src s a) = .ok (tile, off))
    (hl : leased (moved s) (issueCtx s).key (ctxOf (moved s) (issueCtx s).key) (tidOf (src s a)) tile false = true)
    (hw : watchHit (moved s) (issueCtx s).key false [src s a] = false) :
    Runs (.faddr d a) s (issueReq (moved s) (issueCtx s) (faddrReq d (src s a))) := by
  refine runs_ok hi rfl ?_
  simp only [src] at hp hl hw ⊢
  simp only [hp, hl, if_false, Bool.not_true, Bool.false_eq_true]
  exact watched_unhit hw _

theorem amo_requests {s : State} {d a b : BitVec 6} {op : BitVec 4} {use : BitVec 3} {w : BitVec 1} {t : State}
    (hi : Issues (lgMem false) [d, a, b] s) (hop : op.toNat < 9) (hu : useAdmits use.toNat op.toNat = true)
    (hb : atomicBody (.amo op.toNat) d 0 use.toNat w.toNat (src s a) (src s b) 0 (issueCtx s) (moved s) = .ok t) :
    Runs (.amo d a b op use w) s t := by
  refine runs_ok hi rfl ?_
  rw [if_neg fun h => h.elim (Nat.not_le.mpr hop) fun h => by simp [hu] at h]
  exact hb

theorem cas_requests {s : State} {d a b e f : BitVec 6} {use : BitVec 3} {w : BitVec 1} {t : State}
    (hi : Issues (lgMem false) [d, a, b, e, f] s) (hu : useAdmits use.toNat 9 = true)
    (hb : atomicBody .cas d f use.toNat w.toNat (src s a) (src s e) (src s b) (issueCtx s) (moved s) = .ok t) :
    Runs (.cas d a b e f use w) s t := by
  refine runs_ok hi rfl ?_
  rw [if_neg (by simp [hu])]
  exact hb

end Sys2Proof.Machine

open Sys2Proof Sys2Proof.Machine

/-- Settles O8: loads by what the sector buffer holds, stores by their lease. -/
theorem deviceLoadStore : Obligations.DeviceLoadStore := by
  intro s d a sub sz imm ds tile off c m ctx ea ht
  refine ⟨fun n hsub hn hc hp hl hw => ⟨fun hi => ⟨fun bs ids hb hr => ?_, fun hr => ?_⟩, fun hi => ?_⟩,
    fun n rel hn hp hl hw hi => ?_, fun hi n rel hn hp hl => ?_⟩
  · exact runs_ok hi rfl (ldBody_served hsub hn ht hc hp hl hw hb hr)
  · exact runs_ok hi rfl (ldBody_requests hsub hn ht hc hp hl hw (.inr hr.symm))
  · exact runs_ok hi rfl (ldBody_requests hsub hn ht hc hp hl hw (.inl rfl))
  · let q := storeReq m c ea (src s a) (src s d) n rel
    have hrun : Runs (if rel then .stRel d a sz imm else .st d a sz imm) s (sectStoreReq (issueReq m c q) q) := by
      cases rel
      · exact runs_ok hi rfl (stBody_requests (rel := false) hn ht hp hl hw)
      · exact runs_ok hi rfl (stBody_requests (rel := true) hn ht hp hl hw)
    have hr : sfind (sectStoreReq (issueReq m c q) q).reqs m.nextId = some (issuedReq m c q) :=
      sfind_sectStoreReq (sfind_issueReq m c q) ReqKind.noConfusion
    exact ⟨_, _, hrun, hr, rfl, rfl, rfl, rfl, rfl, rfl, rfl, sectStoreReq_mem ..⟩
  · cases rel
    · exact runs_fault hi rfl (stBody_unleased hn ht hp hl)
    · exact runs_fault hi rfl (stBody_unleased hn ht hp hl)

/-- Settles O9: each word's request, at the place of its address. -/
theorem atomicsSendRequests : Obligations.AtomicsSendRequests := by
  intro s d a b e f op use w ds tile off c m ctx x n ht
  refine ⟨fun hc hl hw hp => ⟨fun hi hop hu hd => ?_, fun hi hu => ?_⟩, fun hp => ⟨fun hi hl hw q hq => ?_, fun hi hl hw => ?_⟩⟩
  · have hd' : use.toNat = 1 → d = 0 := fun h => hd (BitVec.eq_of_toNat_eq h)
    exact ⟨_, _, amo_requests hi hop hu (atomicBody_requests rfl ht (fun h => ⟨(hc h).1, rfl⟩) hd' hp hl hw),
      sfind_atomicLeaves_issueReq ReqKind.noConfusion, rfl, rfl, rfl, rfl, rfl, rfl, rfl⟩
  · have hd : use.toNat = 1 → d = 0 := fun h => absurd h (useAdmits_cas_ne_one hu)
    exact ⟨_, _, cas_requests hi hu (atomicBody_requests rfl ht hc hd hp hl hw),
      sfind_atomicLeaves_issueReq ReqKind.noConfusion, rfl, rfl, rfl, rfl, rfl, rfl, rfl, rfl, rfl⟩
  · exact ⟨_, _, runs_ok hi rfl (faddwBody_requests hq hp hl hw), sfind_atomicLeaves_issueReq ReqKind.noConfusion, rfl, rfl, rfl,
      rfl, rfl⟩
  · exact ⟨_, _, faddr_requests hi hp hl hw, sfind_issueReq .., rfl, rfl, rfl, rfl, rfl⟩

end

