-- ==== Sys2Proof/Proofs/Barriers.lean ====
section
/-! SUPPORT. Barrier words: arrivals and waits (R92, R208, R242, R243). -/

namespace Sys2Proof.Machine

/-! ## What the consumption of tokens leaves -/

theorem takeToks_setCell {s t : State} {key : Nat} {k : Toks} (h : takeToks s key k = some t) :
    ∃ l, t = setCell s key { cellAt s key with k := l } := by
  unfold takeToks at h
  split at h
  · exact ⟨_, (Option.some.inj h).symm⟩
  · cases h

/-- What a cell shows but its tokens is as before. -/
theorem takeToks_cell {α : Type} {s t : State} {key : Nat} {k : Toks} (h : takeToks s key k = some t) (f : Cell → α)
    (hf : ∀ c l, f { c with k := l } = f c) (j : Nat) : f (cellAt t j) = f (cellAt s j) := by
  obtain ⟨l, rfl⟩ := takeToks_setCell h
  rw [cellAt_setCell]
  split
  · next hj => rw [hj, hf]
  · rfl

section
variable {s t : State} {key : Nat} {k : Toks} (h : takeToks s key k = some t)
include h

theorem takeToks_barAddr (j : Nat) (a : Word) : barAddr t j a = barAddr s j a := by
  simp only [barAddr, spOwner, takeToks_cell h Cell.reg (fun _ _ => rfl), takeToks_cell h Cell.csr (fun _ _ => rfl)]

theorem takeToks_spadBad (y off n : Nat) : spadBad t y off n = spadBad s y off n := by
  have hcore : coreAt t (y - coreKey) = coreAt s (y - coreKey) := by
    obtain ⟨l, rfl⟩ := takeToks_setCell h
    rfl
  simp only [spadBad, badWords, hcore, takeToks_cell h Cell.ecc (fun _ _ => rfl)]

theorem takeToks_barWord (y off : Nat) : barWord t y off = barWord s y off := by
  simp only [barWord, takeToks_cell h Cell.spad (fun _ _ => rfl)]

theorem takeToks_accessAddrs (ctx : Nat) (ea : Word) (n : Nat) : accessAddrs t ctx ea n = accessAddrs s ctx ea n := by
  obtain ⟨l, rfl⟩ := takeToks_setCell h
  rfl

theorem takeToks_watchHit (j : Nat) (wr : Bool) (l : List Word) : watchHit t j wr l = watchHit s j wr l := by
  simp only [watchHit, takeToks_cell h Cell.csr (fun _ _ => rfl)]

end

/-! ## Arrivals -/

section
variable {s : State} {c : Ctx} {d : BitVec 6} {wait : Bool} {a n : Word} {o off : Nat}
  (ha : barAddr s c.key a = some (o, off)) (hbad : spadBad s o off 8 = false)
include ha hbad

theorem arriveBody_timed (hw : watchHit s c.key true (accessAddrs s 0 a 8) = false) (hc : c.timed = true) :
    arriveBody d wait a n c s = .ok (addLatch s c.key
      { due := c.t + hops c.key o, tgt := .arrive o off d.toNat (c.t + barLat c.key o) wait, val := arriveVal n a s.curWord,
        seq := c.seq, pc := c.pc }) := by
  simp only [arriveBody, ha, hbad, hc, Bool.false_eq_true, if_false, if_true]
  exact watched_unhit hw _

theorem arriveBody_arrives (hw : watchHit s c.key true (accessAddrs s 0 a 8) = false) (hc : c.timed = false) {w : Word}
    (hw' : arriveWord (barWord s o off) n.toInt = some w) :
    arriveBody d wait a n c s = .ok
      (if wait then
        onStream (landA (setBarWord s o off w) c d (BitVec.ofNat 64 (bits (barWord s o off) 60 60)) 0) c fun st =>
          { st with bw := some (o, off, bits (barWord s o off) 60 60, 0) }
      else landA (setBarWord s o off w) c d (BitVec.ofNat 64 (bits (barWord s o off) 60 60)) 0) := by
  simp only [arriveBody, ha, hbad, hc, hw', Bool.false_eq_true, if_false]
  exact watched_unhit hw _

theorem arriveBody_broken (hc : c.timed = false) (hw' : arriveWord (barWord s o off) n.toInt = none) :
    arriveBody d wait a n c s = .fault { code := cBarrier, taddr := a } := by
  simp only [arriveBody, ha, hbad, hc, hw', Bool.false_eq_true, if_false]

end

/-- An arrival of ARRV, once its tokens are consumed, is the arrival in the state without them. -/
theorem arrv_runs {s t u : State} {a b : BitVec 6} {k : Toks} (hi : Issues lgLW [a, b] s)
    (ht : takeToks (moved s) (issueCtx s).key k = some t) (hb : arriveBody 0 false (src s a) (src s b) (issueCtx s) t = .ok u) :
    Runs (.arrv a b k) s u :=
  runs_ok hi rfl ((withToks_some _ ht).trans (congrArg (Res.kept t) hb))

/-- What BWAIT does where its barrier can be read: it is in flight to the port, or holds its stream. -/
theorem bwait_runs {s t : State} {a b : BitVec 6} {k : Toks} {o off : Nat} (hi : Issues lgLW [a, b] s)
    (ha : barAddr (moved s) (issueCtx s).key (src s a) = some (o, off)) (hbad : spadBad (moved s) o off 8 = false)
    (hw : watchHit (moved s) (issueCtx s).key false (accessAddrs (moved s) 0 (src s a) 8) = false)
    (ht : takeToks (moved s) (issueCtx s).key k = some t) (hk : ¬((issueCtx s).timed = true ∧ k.kd ≠ 0)) :
    Runs (.bwait a b k) s
      (if (issueCtx s).timed then
        addLatch t (issueCtx s).key { due := (issueCtx s).t + hops (issueCtx s).key o, tgt := .bwait o off,
                                      val := BitVec.ofNat 2048 (bits (src s b) 0 0), seq := (issueCtx s).seq,
                                      pc := (issueCtx s).pc }
      else onStream t (issueCtx s) fun st => { st with bw := some (o, off, bits (src s b) 0 0, k.kd.toNat) }) := by
  refine runs_ok hi rfl ?_
  rw [gated_passes _ fun _ => Option.isSome_of_mem ht]
  simp only [src] at ha hw ⊢
  simp only [hk, ha, hbad, withToks_some _ ht, if_false, Bool.false_eq_true]
  cases hc : (issueCtx s).timed
  · exact watched_unhit hw _
  · exact watched_unhit hw _

end Sys2Proof.Machine

open Sys2Proof Sys2Proof.Machine

/-- Settles O11, word by word and by the mode of the stream. -/
theorem barrierWordsComplete : Obligations.BarrierWordsComplete := by
  intro s d a b wait k o off c m x ha hbad hw hr w par
  refine ⟨fun hi => ⟨fun w' hc hw' => ?_, fun hc hw' => ?_, fun hc => ?_⟩, fun hi t ht => ?_⟩
  · have hrun := runs_ok (i := .bar d a b wait) hi rfl (arriveBody_arrives (wait := wait == 1) (d := d) ha hbad hw hc hw')
    simpa only [beq_iff_eq] using hrun
  · exact runs_fault hi rfl (arriveBody_broken ha hbad hc hw')
  · exact runs_ok hi rfl (arriveBody_timed ha hbad hw hc)
  · have ha' : barAddr t c.key x = some (o, off) := (takeToks_barAddr ht ..).trans ha
    have hbad' : spadBad t o off 8 = false := (takeToks_spadBad ht ..).trans hbad
    have hw' : watchHit t c.key true (accessAddrs t 0 x 8) = false := by
      rw [takeToks_accessAddrs ht, takeToks_watchHit ht]
      exact hw
    have hword : barWord t o off = w := takeToks_barWord ht o off
    refine ⟨fun v hc hv => ?_, fun hc => ?_, fun hc => ?_, fun hc hkd => ?_⟩
    · have hb := arriveBody_arrives (wait := false) (d := 0) ha' hbad' hw' hc (hword ▸ hv)
      rw [hword] at hb
      exact arrv_runs hi ht hb
    · exact arrv_runs hi ht (arriveBody_timed ha' hbad' hw' hc)
    · have hrun := bwait_runs hi ha hbad hr ht fun h => Bool.false_ne_true (hc.symm.trans h.1)
      rwa [if_neg (ne_true_of_eq_false hc)] at hrun
    · have hrun := bwait_runs hi ha hbad hr ht fun h => h.2 hkd
      rwa [if_pos hc] at hrun

end

