-- ==== Sys2Proof/Proofs/Requests.lean ====
section
/-! SUPPORT. What becomes of requests at their homes, of their answers and errors, and of engine operations at their end
(R70, R89, R100, R105, R115, R121 to R125, R225, R226, R472). -/

namespace Sys2Proof.Machine

theorem memoryRequestApply_request {s : State} {id : Nat} {r : Req} (h : sfind s.reqs id = some r) :
    Runs (.memoryRequestApply id) s (applyReq s id r) := by
  simp only [Runs, exec_memoryRequestApply, execMemoryRequestApply, h]

/-- The bytes of no operation count on no barrier. -/
theorem reqLand_access {r : Req} (h : r.op = 0) (s : State) : reqLand s r = s := by
  simp [reqLand, h]

/-! ## A request at its home -/

/-- A request that has been replaced is there, whether or not the sampler counts it. -/
theorem sfind_setReq_sampled (s : State) (id : Nat) (r : Req) (own : Prop) [Decidable own] (ctx tens tile : Nat) :
    sfind (if own then hotSample (setReq s id r) ctx tens tile else setReq s id r).reqs id = some r := by
  have hset : sfind (setReq s id r).reqs id = some r := (sfind_sset _ _ _ _).trans (if_pos rfl)
  split
  · rw [(hotSample_homeFrame ..).get State.reqs rfl, hset]
  · exact hset

section
variable {s : State} {id : Nat} {r : Req} (hp : r.peer = false) (ha : r.applied = false) (hl : r.lost = false)
  (hf : reqFree s r = true)
include hp ha hl hf

theorem applyReq_enters (ho : r.op = 0) (hk : r.kind = .store) (hc : isCore r.key = false) (hout : r.out = 0) :
    applyReq s id r = { s with nextId := s.nextId + 1,
                               reqs := sset s.reqs id { r with out := s.nextId, due := s.per + Config.accessPeriods } } := by
  simp only [applyReq, hp, ha, hl, hf, hk, hc, hout, reqLand_access ho, Bool.false_eq_true, Bool.not_true, Bool.not_false,
    or_self, and_self, if_true, if_false]
  rfl

theorem applyReq_stores (hk : r.kind = .store)
    (hout : isCore r.key = true ∨ r.out ≠ 0 ∧ ∀ p ∈ dieStores s (dieOf r.key), r.out ≤ p.2.out)
    (hb : reqBad (zeroFill s r.ctx (tidOf r.addr) (reqSectors s r).1) r = false) :
    applyReq s id r = hotSample (homeStore (dropReq (zeroFill s r.ctx (tidOf r.addr) (reqSectors s r).1) id) r) r.ctx
      (tidOf r.addr) (reqSectors s r).1 := by
  have hin : ¬((!isCore r.key) = true ∧ r.out = 0) := by
    rintro ⟨hc, h0⟩
    rcases hout with h | ⟨h, _⟩
    · simp [h] at hc
    · exact h h0
  have hfirst : ∀ f : Nat × Req → Bool,
      (!isCore r.key && (dieStores s (dieOf r.key)).any fun p => decide (p.2.out < r.out) && f p) = false := by
    intro f
    rcases hout with h | ⟨_, h⟩
    · simp [h]
    · rw [Bool.and_eq_false_iff, List.any_eq_false]
      refine .inr fun p hmem => ?_
      simp [Nat.not_lt.mpr (h p hmem)]
  simp only [applyReq, hp, ha, hl, hf, hk, hin, hfirst, hb, Bool.false_eq_true, Bool.not_true, or_self, if_false]

theorem applyReq_loads (hk : r.kind = .load) (hby : r.bypass = true) (hb : reqBad s r = false) :
    ∃ r', sfind (applyReq s id r).reqs id = some r' ∧ r'.applied = true
      ∧ r'.value = secsValue (readSecs s id r (reqSectors s r).1 (reqSectors s r).2.1
          ((reqSectors s r).2.2 + 1 - (reqSectors s r).2.1)).1
            (match descFor s r.ctx (tidOf r.addr) with
              | some d => (placeOf d r.addr).2
              | none => 0) r.n := by
  simp only [applyReq, hp, ha, hl, hf, hk, hb, hby, Bool.false_eq_true, Bool.not_true, or_self, and_false, reduceCtorEq, if_false]
  exact ⟨_, sfind_setReq_sampled .., rfl, rfl⟩

theorem applyReq_atomic (hk : r.atomic = true) (hb : reqBad (zeroFill s r.ctx (tidOf r.addr) (reqSectors s r).1) r = false)
    (hclear : isCore r.key = true ∨ ∀ j < (reqSectors s r).2.2 + 1 - (reqSectors s r).2.1,
      sectorClear s r.key r.ctx (tidOf r.addr) (reqSectors s r).1 ((reqSectors s r).2.1 + j) = true) :
    applyReq s id r = applyAtomic (zeroFill s r.ctx (tidOf r.addr) (reqSectors s r).1) id r := by
  have hall : ((List.range ((reqSectors s r).2.2 + 1 - (reqSectors s r).2.1)).all fun j =>
      isCore r.key || sectorClear s r.key r.ctx (tidOf r.addr) (reqSectors s r).1 ((reqSectors s r).2.1 + j)) = true := by
    rw [List.all_eq_true]
    intro j hj
    rcases hclear with h | h
    · simp [h]
    · simp [h j (List.mem_range.mp hj)]
  cases hkind : r.kind <;> simp only [Req.atomic, hkind, Bool.false_eq_true] at hk
  all_goals
    simp only [applyReq, hp, ha, hl, hf, hkind, hall, hb, Bool.false_eq_true, Bool.not_true, or_self, if_false]

theorem applyReq_badLoad (hk : r.kind = .load) (hb : reqBad s r = true) : applyReq s id r = reqFault s id r cMemErr 0 := by
  simp only [applyReq, hp, ha, hl, hf, hk, hb, Bool.false_eq_true, Bool.not_true, or_self, if_false, if_true]

end

/-- The response of a load that bypassed the buffer and saw no write writes its register. -/
theorem deliver_load {s : State} {id : Nat} {r : Req} (hp : r.peer = false) (hr : r.reads = true) (hb : r.bypass = true)
    (hacq : r.acq = false) (hs : r.saw = []) (hk : r.kind = .load) :
    deliver s id r = writeA (dropReq s id) r.key r.dst
      (if r.sext then sextNat (8 * r.n) r.value else BitVec.ofNat 64 (r.value % 2 ^ (8 * r.n))) := by
  simp only [deliver, opGets, replyValue, hp, hr, hb, hacq, hs, hk, Bool.false_eq_true, Bool.not_true, List.isEmpty_nil,
    reduceCtorEq, false_and, true_or, if_true, if_false]

theorem requestsApply : Rules.RequestsApply := by
  intro s id r h hp ho t tile
  have hrun := memoryRequestApply_request h
  refine ⟨fun ha hl hf => ⟨fun hk hc hout => ?_, fun hk hout hb => ?_, fun hk hby hb => ?_, fun hk hb hclear => ?_,
    fun hk hb => ?_⟩, fun ha hl hr hb hacq hs hk => ?_⟩
  · rwa [applyReq_enters hp ha hl hf ho hk hc hout] at hrun
  · rwa [applyReq_stores hp ha hl hf hk hout hb] at hrun
  · obtain ⟨r', hr', happ, hval⟩ := applyReq_loads (id := id) hp ha hl hf hk hby hb
    exact ⟨_, r', hrun, hr', happ, hval⟩
  · rwa [applyReq_atomic hp ha hl hf hk hb hclear] at hrun
  · rwa [applyReq_badLoad hp ha hl hf hk hb] at hrun
  · rw [Runs, exec_memoryResponse, execMemoryResponse, ← deliver_load hp hr hb hacq hs hk]
    simp [h, ha, hl]

/-! ## Errors -/

/-- A request that has been applied is not applied again. -/
theorem applyReq_applied {r : Req} (ha : r.applied = true) (s : State) (id : Nat) : applyReq s id r = s := by
  simp [applyReq, ha]

theorem cellAt_congr {s t : State} (h : t.cells = s.cells) (k : Nat) : cellAt t k = cellAt s k := by
  rw [cellAt, cellAt, h]

/-- The telemetry record and the device event of an error leave the cells, the requests and memory. -/
theorem postEvent_telemetry (s : State) (out : List OutMsg) (core evt h m l : Nat) :
    let t := postEvent { (freeNum s).2 with outputs := out } core evt h m l
    t.cells = s.cells ∧ t.reqs = s.reqs ∧ t.mem = s.mem := ⟨rfl, rfl, rfl⟩

theorem countAperr_aperr (s : State) (key : Nat) : (cellAt (countAperr s key) key).csr.aperr = satInc (cellAt s key).csr.aperr := by
  simp [countAperr]

theorem requestErrors : Rules.RequestErrors := by
  intro s id r h
  refine ⟨fun hat hrem => ⟨fun ha => ?_, fun ha hret => ?_, fun ha hret hc hp => ?_, fun hlate => ?_⟩, fun hp hat hlate => ?_⟩
  · simp [Runs, execAtomicErrorResponse, h, hat, hrem, ha]
  · simp [Runs, execAtomicErrorResponse, h, hat, hrem, ha, hret, applyReq_applied ha]
  · simp only [Runs, exec_atomicErrorResponse, execAtomicErrorResponse, h, hat, hrem, ha, hret, hc, hp, applyReq_applied ha,
      Bool.not_true, Bool.false_eq_true, or_self, if_false, if_true]
    obtain ⟨hcells, hreqs, hmem⟩ := postEvent_telemetry (countAperr (dropReq s id) r.key) _ harbourCore 6 r.reg 0xD 0
    exact ⟨_, rfl, (congrArg (fun c => c.csr.aperr) (cellAt_congr hcells r.key)).trans (countAperr_aperr ..), hreqs, hmem⟩
  · simp [Runs, execAtomicTimeout, h, hat, hrem, hlate]
  · simp [Runs, execPeerAccessTimeout, h, hat, hp, hlate]

/-! ## The end of an operation -/

/-- The end of an operation that brings no input of a task: its reply, and its token or the fault of a full count. -/
theorem opDone_token {s t : State} {id : Nat} {o : Op} {ok : Bool} (hk : o.kind ≠ .input)
    (ht : addTok (writeA { s with ops := sdel s.ops id } o.key o.dst o.reply) o.key o.kd = (t, ok)) :
    opDone s id o = if ok then t else takeFault t { key := o.key, seq := o.seq, pc := o.pc } { code := cTokOv, engn := true } := by
  simp only [opDone, hk, if_false, ht]

theorem operationsEnd : Rules.OperationsEnd := by
  intro s id o h
  refine ⟨fun hover hk => ?_, fun hlate hq => ?_⟩
  · have hrun : Runs (.engineOpComplete id) s (opDone s id o) := by
      simp only [Runs, exec_engineOpComplete, execEngineOpComplete, h, hover, if_true]
    refine ⟨fun t ht => ?_, fun t ht => ?_⟩
    · rwa [opDone_token hk ht, if_pos rfl] at hrun
    · rwa [opDone_token hk ht, if_neg Bool.false_ne_true] at hrun
  · simp only [Runs, exec_queueWaitTimeout, execQueueWaitTimeout, h, hlate, hq, and_self, if_true]

end Sys2Proof.Machine

open Sys2Proof Sys2Proof.Machine

/-- Settles O38: requests by their kind and what stands in their way, operations by their last unit. -/
theorem requestsAnsweredOrFaulted : Obligations.RequestsAnsweredOrFaulted := ⟨requestsApply, requestErrors, operationsEnd⟩

end

