-- ==== Sys2Proof/Proofs/Tokens.lean ====
section
/-! SUPPORT. The token counts of a cell after a word has consumed what it names (R120, R162, R209). -/

namespace Sys2Proof.Machine

/-- After writes of values that the key alone gives, each key written reads its value. -/
theorem sget_foldl_sset {α : Type} (d : α) (f : Nat → α) (l : List Nat) (m : SMap α) (x : Nat) :
    sget d (l.foldl (fun m n => sset m n (f n)) m) x = if x ∈ l then f x else sget d m x := by
  induction l generalizing m with
  | nil => simp
  | cons n l ih =>
    rw [List.foldl_cons, ih, sget_sset]
    by_cases hl : x ∈ l
    · simp [hl]
    · by_cases hn : x = n
      · simp [hn]
      · simp [hl, hn]

theorem tok_lt (s : State) (key n : Nat) : tok s key n < 2 ^ 16 := BitVec.isLt _

/-- The cell once the tokens that a word names are consumed. -/
def tokensTaken (s : State) (key : Nat) (k : Toks) : Cell :=
  { cellAt s key with
    k := (tokRegs k).foldl (fun m n => sset m n (BitVec.ofNat 16 (tok s key n - demand k n))) (cellAt s key).k }

section
variable {s : State} {key : Nat} {k : Toks}

theorem takeToks_met (h : ∀ n ∈ tokRegs k, demand k n ≤ tok s key n) :
    takeToks s key k = some (setCell s key (tokensTaken s key k)) :=
  if_pos (List.all_eq_true.mpr fun n hn => decide_eq_true (h n hn))

theorem takeToks_short (h : ∃ n ∈ tokRegs k, tok s key n < demand k n) : takeToks s key k = none := by
  obtain ⟨n, hn, hlt⟩ := h
  exact if_neg fun hall => Nat.not_le.mpr hlt (of_decide_eq_true (List.all_eq_true.mp hall n hn))

/-- Each register that the consumer fields name falls by its demand, and no other changes. -/
theorem tok_tokensTaken (s : State) (key : Nat) (k : Toks) (n : Nat) :
    tok (setCell s key (tokensTaken s key k)) key n = if n ∈ tokRegs k then tok s key n - demand k n else tok s key n := by
  rw [tok, cellAt_setCell, if_pos rfl, tokensTaken, sget_foldl_sset]
  split
  · exact (BitVec.toNat_ofNat ..).trans (Nat.mod_eq_of_lt (Nat.lt_of_le_of_lt (Nat.sub_le ..) (tok_lt ..)))
  · rfl

end

end Sys2Proof.Machine

open Sys2Proof Sys2Proof.Machine

/-- Settles O16: the consumption writes each register that the fields name, once all are at their demands. -/
theorem tokensConsumed : Obligations.TokensConsumed := by
  intro s key k
  refine ⟨fun hmet => ⟨_, takeToks_met hmet, fun n hn => ?_, fun n hn => ?_, fun x hx => ?_, rfl, _, rfl⟩, takeToks_short⟩
  · rw [tok_tokensTaken, if_pos hn]
  · rw [tok_tokensTaken, if_neg hn]
  · rw [cellAt_setCell, if_neg hx]

end

