-- ==== Sys2Proof/Proofs/EngineStarts.lean ====
section
/-! SUPPORT. The starts of engine commands by the S space, and the format queue (R120, R211, R212). -/

namespace Sys2Proof.Machine

/-- The operation that ENG starts, with its operands, its token register and the register of its reply. -/
def engOp (s : State) (kind : OpKind) (d a b : BitVec 6) (k : Toks) : Op :=
  { kind := kind, key := 0, seq := .s, reg := 0, pc := 0, ord := 0, va := src s a, vb := src s b, kd := k.kd.toNat, dst := d.toNat }

section
variable {s t : State} {d a b : BitVec 6} {k : Toks} (hd : (issueCtx s).timed = true → d = 0)
  (ht : takeToks (moved s) (issueCtx s).key k = some t)
include hd

/-- A timed word of these has no register of a reply. -/
theorem no_timed_reply : ((issueCtx s).timed && decide (d ≠ 0)) = false := by
  cases h : (issueCtx s).timed
  · rfl
  · simp [hd h]

include ht

/-- ENG of each function starts its operation in the state without its tokens. -/
theorem eng_starts {kind : OpKind} {i : Instr}
    (hi : Issues { spaces := [.s], trap := false, acc := !(peerBase s s.cur a || peerBase s s.cur b) } [d, a, b] s)
    (hfull : (issueCtx s).timed = false → engCount (moved s) (issueCtx s).key < 64) (he : exec i s = engWord kind d a b k s) :
    Runs i s (startOp t (issueCtx s) (engOp s kind d a b k)) := by
  have hroom : (!(issueCtx s).timed && decide (64 ≤ engCount (moved s) (issueCtx s).key)) = false := by
    cases h : (issueCtx s).timed
    · simpa using hfull h
    · rfl
  refine runs_ok hi he ?_
  simp only [no_timed_reply hd, hroom, ht, Bool.false_eq_true, if_false]
  rfl

theorem engJoin_completes {u : State} (hi : Issues { spaces := [.s], trap := false } [d] s)
    (hfree : (issueCtx s).timed = false →
      engCount (moved s) (issueCtx s).key < 64 ∧ anyPendingA (moved s) (issueCtx s).key = false)
    (hu : addTok t (issueCtx s).key k.kd.toNat = (u, true)) : Runs (.engJoin d k) s (landA u (issueCtx s) d 0 1) := by
  have hroom : (!(issueCtx s).timed
      && (decide (64 ≤ engCount (moved s) (issueCtx s).key) || anyPendingA (moved s) (issueCtx s).key)) = false := by
    cases h : (issueCtx s).timed
    · simpa using hfree h
    · rfl
  refine runs_ok hi rfl ?_
  simp only [no_timed_reply hd, hroom, ht, hu, Bool.false_eq_true, if_false, if_true]

end

/-- A cell with one entry more in its FQ. -/
def fqAppended (x : Cell) (v : Word) : Cell := { x with mx := { x.mx with fq := x.mx.fq ++ [v] } }

/-- FPUSH appends to a queue with room: now, or with the latch of a timed stream. -/
theorem fpush_appends {s : State} {a : BitVec 6} (hi : Issues { spaces := [.s], trap := false } [a] s)
    (hc : classOf (issueCtx s).key = 0) (hlen : (cellAt (moved s) (issueCtx s).key).mx.fq.length < 16) :
    Runs (.fpush a) s
      (if (issueCtx s).timed then
        addLatch (moved s) (issueCtx s).key
          { due := (issueCtx s).t + 1, tgt := .fq, val := (src s a).setWidth 2048, seq := (issueCtx s).seq, pc := (issueCtx s).pc }
      else setCell (moved s) (issueCtx s).key (fqAppended (cellAt (moved s) (issueCtx s).key) (src s a))) := by
  refine runs_ok hi rfl ?_
  simp only [hc, Nat.not_le.mpr hlen, ne_eq, not_true, if_false]
  split <;> rfl

end Sys2Proof.Machine

open Sys2Proof Sys2Proof.Machine

/-- Settles O13, word by word. -/
theorem engineCommandsStart : Obligations.EngineCommandsStart := by
  intro s d a b k c m begins
  refine ⟨fun hi hd hfull t ht => ?_, fun hi hd hfree t u ht hu => engJoin_completes hd ht hi hfree hu,
    fun hi hc hlen => ⟨fun hmode => ?_, fun hmode => ?_⟩⟩
  · have hstart := fun kind i => eng_starts (kind := kind) (i := i) hd ht hi hfull
    exact ⟨hstart .tload _ rfl, hstart .tcopy _ rfl, hstart .tstore _ rfl, hstart .tfill _ rfl⟩
  · have hrun := fpush_appends hi hc hlen
    rwa [if_neg (ne_true_of_eq_false hmode)] at hrun
  · have hrun := fpush_appends hi hc hlen
    rwa [if_pos hmode] at hrun

end

