-- ==== Sys2Proof/Proofs/PhasesFences.lean ====
section
/-! SUPPORT. Fences, phases, token waits and SYNCI (R116, R120, R203 to R209, R216). -/

namespace Sys2Proof.Machine

/-! ## FENCE (R116, R206, R207) -/

/-- The state in which the running stream has a fence more that is not complete; asked says whether its completion is
already awaited, next is the cycle that it has to precede. -/
def fenceLeft (s : State) (c : Ctx) (scope next : Nat) (asked : Bool) : State :=
  onStream { s with nextId := s.nextId + 1 } c fun st =>
    { st with fences := st.fences ++ [{ scope := scope, next := next, asked := asked, id := s.nextId, born := s.tick, pc := c.pc }] }

section
variable {s : State} {scope : BitVec 3} (hi : Issues { spaces := [.s], core := true } [] s) (hs : scope.toNat < 5)
include hi hs

theorem fence_elastic (ht : (issueCtx s).timed = false) :
    Runs (.fence scope) s
      (if fenceDone (moved s) (issueCtx s).key (issueCtx s).seq scope.toNat then
        dropSects (onStream (moved s) (issueCtx s) fun st => { st with obs := if 3 ≤ scope.toNat then [] else st.obs }) (issueCtx s).key
      else fenceLeft (moved s) (issueCtx s) scope.toNat 0 true) := by
  refine runs_ok hi rfl ?_
  simp only [Nat.not_le.mpr hs, ht, Bool.false_eq_true, if_false]
  split <;> rfl

theorem fence_timed (ht : (issueCtx s).timed = true) {next : Nat}
    (hn : next = (issueCtx s).t + idleNat (fetchWord (moved s) (issueCtx s).key (issueCtx s).seq)) :
    ((issueCtx s).t + 56 ≤ next → Runs (.fence scope) s (fenceLeft (moved s) (issueCtx s) scope.toNat next false))
    ∧ (next < (issueCtx s).t + 56 → Runs (.fence scope) s (takeFault (moved s) (runner s) { code := 1 })) := by
  subst hn
  refine ⟨fun hroom => runs_ok hi rfl ?_, fun hshort => runs_fault hi rfl ?_⟩
  · simp only [Nat.not_le.mpr hs, ht, Nat.not_lt.mpr hroom, if_false, if_true]
    rfl
  · simp only [Nat.not_le.mpr hs, ht, hshort, if_false, if_true]
    rfl

end

/-! ## SYNCI (R129, R216) -/

/-- A cell whose sequencers have no fetched words; they are there again from period p on. -/
def refetched (c : Cell) (p : Nat) : Cell :=
  { c with ss := c.ss.refetch p, sl := c.sl.refetch p, sc := c.sc.refetch p, sw := c.sw.refetch p }

theorem refetched_pre (c : Cell) (p : Nat) (q : Seq) : ((refetched c p).stream q).pre = [] := by cases q <;> rfl

/-- The state that SYNCI of a cell leaves. -/
def synciDone (s : State) (key : Nat) : State :=
  let u := dropSects { s with freeCtr := s.freeCtr + 1 } key
  setCell u key (refetched (cellAt u key) (s.per + Config.fetchDelay s.freeCtr))

theorem cellAt_synciDone (s : State) {key : Nat} (hk : isCore key = false) :
    cellAt (synciDone s key) key = refetched { cellAt s key with sect := [] } (s.per + Config.fetchDelay s.freeCtr) := by
  rw [synciDone, cellAt_setCell, if_pos rfl, cellAt_dropSects_same _ hk]
  rfl

theorem synci_drops {s : State} (hi : Issues { spaces := [.s], core := true } [] s) (hc : isCore (issueCtx s).key = false) :
    ∃ t, Runs .synci s t ∧ sectsOf t (issueCtx s).key = [] ∧ ∀ q, ((cellAt t (issueCtx s).key).stream q).pre = [] := by
  have hcore : (issueCtx s).core = false := hc
  refine ⟨synciDone (moved s) (issueCtx s).key, runs_ok hi rfl ?_, ?_, fun q => ?_⟩
  · simp only [freeNum, hcore, Bool.false_eq_true, if_false]
    rfl
  · rw [sectsOf, hc, if_neg Bool.false_ne_true, cellAt_synciDone _ hc, refetched]
  · rw [cellAt_synciDone _ hc, refetched_pre]

/-! ## PHASE (R107, R203 to R205) -/

/-- The phase that the running word opens. -/
def phaseOpened (s : State) (c : Ctx) (w : Word) (scope : Nat) : PhasePend :=
  { grp := w, scope := scope, timed := c.timed, at_ := c.t, ep := (cellAt s c.key).ep }

/-- The cell of the running word is in the phase, and counts the next. -/
structure InPhase (s t : State) (c : Ctx) (w : Word) (scope : Nat) : Prop where
  ep : (cellAt t c.key).ep = (cellAt s c.key).ep + 1
  phase : (cellAt t c.key).phase = some (phaseOpened s c w scope)

/-- The state in which the cell of the running word has ended its phase. -/
def phaseEntered (s : State) (c : Ctx) (w : Word) (scope : Nat) : State :=
  setCell s c.key { cellAt s c.key with phase := some (phaseOpened s c w scope), ep := (cellAt s c.key).ep + 1 }

/-- The state in which it has done so in a timed stream, its merge at the end of the phase's latency (R205). -/
def phaseLatched (s : State) (c : Ctx) (w : Word) (scope : Nat) : State :=
  addLatch (phaseEntered s c w scope) c.key { due := c.t + phaseLat scope, tgt := .merge, seq := .s, pc := c.pc }

theorem phaseEntered_inPhase (s : State) (c : Ctx) (w : Word) (scope : Nat) : InPhase s (phaseEntered s c w scope) c w scope := by
  constructor <;> simp [phaseEntered]

theorem InPhase.addLatch {s t : State} {c : Ctx} {w : Word} {scope : Nat} (h : InPhase s t c w scope) (l : Latch) :
    InPhase s (addLatch t c.key l) c w scope := by
  constructor
  · rw [cellAt_addLatch_same]
    exact h.ep
  · rw [cellAt_addLatch_same]
    exact h.phase

theorem InPhase.onStream {s t : State} {c : Ctx} {w : Word} {scope : Nat} (h : InPhase s t c w scope) (hc : isCore c.key = false)
    (f : Stream → Stream) : InPhase s (onStream t c f) c w scope := by
  have hcell : cellAt (Machine.onStream t c f) c.key = (cellAt t c.key).setStream c.seq (f (streamAt t c.key c.seq)) := by
    rw [Machine.onStream, setStreamAt_cell _ _ hc, cellAt_setCell, if_pos rfl]
  constructor
  · rw [hcell, setStream_ep]
    exact h.ep
  · rw [hcell, setStream_phase]
    exact h.phase

/-- The state that a timed PHASE leaves: one that reaches past its cluster has an implied fence, from the merge on (R204, R205). -/
def phaseTimed (s : State) (c : Ctx) (w : Word) (scope : BitVec 3) : State :=
  let u := phaseLatched s c w scope.toNat
  if scope = 1 then u
  else onStream u c fun st =>
    { st with fences := st.fences ++ [{ scope := scope.toNat, next := c.t + idleNat (fetchWord s c.key c.seq), asked := false,
                                        merge := c.t + phaseLat scope.toNat }] }

theorem phaseTimed_inPhase (s : State) {c : Ctx} (w : Word) (scope : BitVec 3) (hc : isCore c.key = false) :
    InPhase s (phaseTimed s c w scope) c w scope.toNat := by
  have hlatched : InPhase s (phaseLatched s c w scope.toNat) c w scope.toNat := (phaseEntered_inPhase ..).addLatch _
  unfold phaseTimed
  split
  · exact hlatched
  · exact hlatched.onStream hc _

section
variable {s : State} {a : BitVec 6} {scope : BitVec 3} {l : List Nat}
  (hi : Issues { spaces := [.s], trap := false, rebuild := false } [a] s)
  (hl : phaseCells (moved s) (issueCtx s).key (src s a) scope.toNat = some l)
include hi hl

/-- A timed PHASE that every other cell of its subgroup issues with it, and that leaves room for its latency. -/
theorem phase_timed (ht : (issueCtx s).timed = true)
    (hroom : (issueCtx s).t + phaseLat scope.toNat ≤
      (issueCtx s).t + idleNat (fetchWord (moved s) (issueCtx s).key (issueCtx s).seq))
    (hmates : ∀ k ∈ l, k ≠ (issueCtx s).key → phaseMate (moved s) (src s a) scope.toNat (issueCtx s).t k = true) :
    Runs (.phase a scope) s (phaseTimed (moved s) (issueCtx s) (src s a) scope) := by
  have hall : (!l.all fun k =>
      decide (k = (issueCtx s).key) || phaseMate (moved s) (src s a) scope.toNat (issueCtx s).t k) = false := by
    rw [Bool.not_eq_false', List.all_eq_true]
    intro k hk
    by_cases hkey : k = (issueCtx s).key
    · simp [hkey]
    · simp [hmates k hk hkey]
  simp only [src] at hl hall
  refine runs_ok hi rfl ?_
  simp only [hl, ht, Nat.not_lt.mpr hroom, hall, phaseTimed, phaseLatched, phaseEntered, phaseOpened, Bool.false_eq_true, if_false,
    if_true]
  rfl

/-- An elastic PHASE of a region in which no other cell has a phase that is pending: it clashes with none. -/
theorem phase_elastic (ht : (issueCtx s).timed = false)
    (hfree : ∀ k ∈ regCells (regAt (moved s) (cellAt (moved s) (issueCtx s).key).reg), k ≠ (issueCtx s).key →
      (cellAt (moved s) k).phase = none) :
    Runs (.phase a scope) s (phaseEntered (moved s) (issueCtx s) (src s a) scope.toNat) := by
  simp only [src] at hl
  refine runs_ok hi rfl ?_
  simp only [hl, ht, phaseEntered, phaseOpened, Bool.false_eq_true, if_false]
  rw [if_neg]
  · rfl
  · rw [List.any_eq_true]
    rintro ⟨k, hk, hclash⟩
    rw [Bool.and_eq_true, decide_eq_true_eq] at hclash
    obtain ⟨hkey, hclash⟩ := hclash
    simp [hfree k hk hkey] at hclash

end

theorem phaseLat_eq (scope : BitVec 3) : phaseLat scope.toNat = if scope = 1 then 16 else 64 := by
  simp [phaseLat, ← BitVec.toNat_inj]

/-! ## TOKW (R209) -/

theorem tokw_takes {s t : State} {k1 k2 k3 : BitVec 5} (hi : Issues { spaces := [.s], trap := false } [] s)
    (ht : takeToks (moved s) (issueCtx s).key { kd := 0, k1 := k1, k2 := k2, k3 := k3 } = some t) :
    Runs (.tokw k1 k2 k3) s t := by
  refine runs_ok hi rfl ?_
  simp only [ht]

end Sys2Proof.Machine

open Sys2Proof Sys2Proof.Machine

/-- Settles O10, word by word and by the mode of the stream. -/
theorem phaseFenceTokens : Obligations.PhaseFenceTokens := by
  intro s a scope k1 k2 k3 c m next
  refine ⟨fun hi => ⟨fun hs => ⟨fun ht hd => ?_, fun ht hd => ?_, fun ht => (fence_timed hi hs ht rfl).1,
      fun ht => (fence_timed hi hs ht rfl).2⟩, fun hc => synci_drops hi hc⟩,
    fun hi l hl htimed helastic hc => ?_, fun hi t ht => tokw_takes hi ht⟩
  · have hrun := fence_elastic hi hs ht
    rwa [if_pos hd] at hrun
  · have hrun := fence_elastic hi hs ht
    rwa [if_neg (ne_true_of_eq_false hd)] at hrun
  · have hphase : ∃ t, Runs (.phase a scope) s t ∧ InPhase m t c (src s a) scope.toNat := by
      cases ht : c.timed
      · exact ⟨_, phase_elastic hi hl ht (helastic ht), phaseEntered_inPhase _ _ _ _⟩
      · obtain ⟨hroom, hmates⟩ := htimed ht
        exact ⟨_, phase_timed hi hl ht ((phaseLat_eq scope).symm ▸ hroom) hmates, phaseTimed_inPhase _ _ _ hc⟩
    obtain ⟨t, hrun, hep, hph⟩ := hphase
    exact ⟨t, hrun, hep, _, hph, rfl, rfl, rfl⟩

end

