-- ==== Sys2Proof/Proofs/LaneWords.lean ====
section
/-! SUPPORT. Lanes of a vector, packed and unpacked, and what a lane word puts into its destination (R269, R272, R273). -/

namespace Sys2Proof.Machine

/-! ## Lanes of a number -/

theorem unpackL_eq_map (w n v : Nat) : unpackL w n v = (List.range n).map fun j => v / 2 ^ (w * j) % 2 ^ w := by
  induction n generalizing v with
  | zero => rfl
  | succ n ih =>
    rw [unpackL, ih, List.range_succ_eq_map, List.map_cons, List.map_map]
    simp [Function.comp_def, Nat.div_div_eq_div_mul, ← Nat.pow_add, Nat.mul_succ, Nat.add_comm]

theorem unpackL_toNat (w n : Nat) (v : BitVec 2048) : unpackL w n v.toNat = (List.range n).map (laneAt w v) :=
  unpackL_eq_map w n v.toNat

theorem getD_unpackL_toNat {w n j : Nat} (v : BitVec 2048) (hj : j < n) : (unpackL w n v.toNat).getD j 0 = laneAt w v j := by
  simp [unpackL_toNat, hj]

theorem packL_lt (w : Nat) (l : List Nat) : packL w l < 2 ^ (w * l.length) := by
  induction l with
  | nil => exact Nat.one_pos
  | cons x l ih =>
    have hx : x % 2 ^ w < 2 ^ w := Nat.mod_lt _ (Nat.two_pow_pos w)
    calc packL w (x :: l) < 2 ^ w * (packL w l + 1) := by rw [packL, Nat.mul_succ]; omega
      _ ≤ 2 ^ w * 2 ^ (w * l.length) := Nat.mul_le_mul_left _ ih
      _ = 2 ^ (w * (x :: l).length) := by rw [← Nat.pow_add, List.length_cons, Nat.mul_succ, Nat.add_comm]

/-- A packed list fits where its lanes fit. -/
theorem packL_mod {w n : Nat} {l : List Nat} (hl : w * l.length ≤ n) : packL w l % 2 ^ n = packL w l :=
  Nat.mod_eq_of_lt ((packL_lt w l).trans_le (Nat.pow_le_pow_right Nat.two_pos hl))

/-- The lanes of a packed list are its members. -/
theorem packL_lane (w : Nat) (l : List Nat) (j : Nat) : packL w l / 2 ^ (w * j) % 2 ^ w = l.getD j 0 % 2 ^ w := by
  induction l generalizing j with
  | nil => simp [packL]
  | cons x l ih =>
    cases j with
    | zero => simp [packL]
    | succ j =>
      have htail : packL w (x :: l) / 2 ^ w = packL w l := by
        rw [packL, Nat.add_mul_div_left _ _ (Nat.two_pow_pos w), Nat.mod_div_self, Nat.zero_add]
      rw [Nat.mul_succ, Nat.add_comm, Nat.pow_add, ← Nat.div_div_eq_div_mul, htail, ih, List.getD_cons_succ]

theorem laneAt_ofNat_packL {w : Nat} {l : List Nat} (hl : w * l.length ≤ 2048) (j : Nat) :
    laneAt w (BitVec.ofNat 2048 (packL w l)) j = l.getD j 0 % 2 ^ w := by
  rw [laneAt, BitVec.toNat_ofNat, packL_mod hl, packL_lane]

/-- Each byte of a lane has the lane's bit in the byte mask. -/
theorem getLsbD_byteMask {w j b : Nat} {lanes : List Bool} (hb : b < w / 8) (hj : j * (w / 8) + b < 256) :
    (byteMask w lanes).getLsbD (j * (w / 8) + b) = lanes.getD j false := by
  rw [byteMask, BitVec.getLsbD_ofNat, decide_eq_true hj, Bool.true_and]
  generalize w / 8 = n at *
  have hbit := congrArg (·.testBit b) (packL_lane n (lanes.map fun x => if x then 2 ^ n - 1 else 0) j)
  simp only [Nat.testBit_mod_two_pow, Nat.testBit_div_two_pow, hb, decide_true, Bool.true_and, Nat.mul_comm n] at hbit
  have hlane : (lanes.map fun x => if x then 2 ^ n - 1 else 0).getD j 0 = if lanes.getD j false then 2 ^ n - 1 else 0 :=
    List.getD_map (l := lanes) (d := false) (f := fun x => if x then 2 ^ n - 1 else 0)
  rw [Nat.add_comm, hbit, hlane]
  cases lanes.getD j false <;> simp [hb]

/-! ## Lane words -/

/-- The lanes of a vector fill it, and have bits of the byte mask to themselves. -/
theorem lanes_fit (sp : Space) (t : BitVec 3) :
    laneW t * (vecBits sp / laneW t) ≤ 2048 ∧ vecBits sp / laneW t ≤ 256 ∧ vecBits sp / laneW t * (laneW t / 8) ≤ 256 := by
  have hw : laneW t = 32 ∨ laneW t = 16 ∨ laneW t = 8 := by unfold laneW; split <;> simp
  have hv : vecBits sp = 2048 ∨ vecBits sp = 512 := by unfold vecBits; split <;> simp
  rcases hw with hw | hw | hw <;> rcases hv with hv | hv <;> rw [hw, hv] <;> decide

theorem getD_map_zipIdx {α β : Type} (l : List α) (F : α × Nat → β) {j : Nat} (hj : j < l.length) (d : α) (e : β) :
    (l.zipIdx.map F).getD j e = F (l.getD j d, j) := by
  simp [List.getD, hj]

/-- R273: a result of one value for each lane goes into the lanes that the mask admits; the others stay, or become 0. -/
theorem landLanes_lanes (sp : Space) (f : VecF) (c : Ctx) (u : State) {res : List Nat} (latency : Nat)
    (hres : res.length = vecBits sp / laneW f.t) :
    ∃ v mask, landLanes sp f (laneW f.t) c u res latency = landVec sp u c f.d v mask latency ∧
      ∀ j < vecBits sp / laneW f.t,
        let on := decide (sp ≠ .vn) || ((cellAt u c.key).readM f.msk.toNat).getLsbD j
        laneAt (laneW f.t) v j = (if on then res.getD j 0 % 2 ^ laneW f.t else 0)
          ∧ ∀ b < laneW f.t / 8,
              mask.getLsbD (j * (laneW f.t / 8) + b) = (on || f.zm == 1 || (fieldQueue sp f.d).isSome) := by
  obtain ⟨hbits, hlanes, hbytes⟩ := lanes_fit sp f.t
  refine ⟨_, _, rfl, fun j hj => ?_⟩
  have hon : (if sp = .vn then (cellAt u c.key).readM f.msk.toNat else BitVec.allOnes 256).getLsbD j
      = (decide (sp ≠ .vn) || ((cellAt u c.key).readM f.msk.toNat).getLsbD j) := by
    by_cases hsp : sp = .vn
    · simp [hsp]
    · rw [if_neg hsp, BitVec.getLsbD_allOnes]
      simp [hsp, show j < 256 by omega]
  refine ⟨?_, fun b hb => ?_⟩
  · rw [laneAt_ofNat_packL (by simpa [hres] using hbits), getD_map_zipIdx res _ (hres ▸ hj) 0, hon]
    split <;> simp
  · have hbyte : (j + 1) * (laneW f.t / 8) ≤ 256 := Nat.le_trans (Nat.mul_le_mul_right _ hj) hbytes
    rw [Nat.succ_mul] at hbyte
    rw [getLsbD_byteMask hb (by omega), getD_map_zipIdx res _ (hres ▸ hj) 0, hon, Bool.or_comm, ← Bool.or_assoc]

/-- A lane word that issues with its operands there has its own effect. -/
theorem runs_lanesWord {sp : Space} {i : Instr} {f : VecF} {n w : Nat} {k : Ctx → State → List (BitVec 2048) → Res} {s u t : State}
    {vs : List (BitVec 2048)} (hi : VecIssues sp (vecSrcs f n) s) (hv : vecReads sp f n w s vs u)
    (he : exec i s = lanesWord sp f n w k s) (hk : k (issueCtx s) u vs = .ok t) : Runs i s t := by
  obtain ⟨hsrc, hdst⟩ := hv
  refine runs_ok hi he ?_
  simp only [hsrc, hdst, Got.then, hk]

/-- R273: a lanewise word of g is the lanewise application of g. -/
theorem laneWord_laneWise {sp : Space} {i : Instr} {f : VecF} {n latency : Nat} {g : List Nat → Nat} {s : State}
    (he : exec i s = laneWord sp f n latency g s) : LaneWise sp i f n latency g s := by
  intro hi vs u hv
  obtain ⟨v, mask, hland, hlanes⟩ := landLanes_lanes sp f (issueCtx s) u latency
    (res := (List.range (vecBits sp / laneW f.t)).map fun j => g (vs.map fun x => laneAt (laneW f.t) x j)) (by simp)
  refine ⟨v, mask, runs_lanesWord hi hv he ?_, fun j hj => ?_⟩
  · rw [← hland]
    refine congrArg (fun l => Res.ok (landLanes sp f (laneW f.t) (issueCtx s) u l latency)) ?_
    refine List.map_congr_left fun j hj => congrArg g ?_
    rw [List.map_map]
    exact List.map_congr_left fun x _ => getD_unpackL_toNat x (List.mem_range.mp hj)
  · simpa [hj] using hlanes j hj

end Sys2Proof.Machine

open Sys2Proof Sys2Proof.Machine

/-- Settles O20, word by word: each is the lanewise word of its operation. -/
theorem floatLanes : Obligations.FloatLanes := fun _ _ =>
  ⟨⟨laneWord_laneWise rfl, laneWord_laneWise rfl, laneWord_laneWise rfl, laneWord_laneWise rfl, laneWord_laneWise rfl,
      laneWord_laneWise rfl, laneWord_laneWise rfl, laneWord_laneWise rfl, laneWord_laneWise rfl, laneWord_laneWise rfl,
      laneWord_laneWise rfl⟩,
    ⟨laneWord_laneWise rfl, laneWord_laneWise rfl, laneWord_laneWise rfl⟩, laneWord_laneWise rfl, laneWord_laneWise rfl⟩

end

