-- ==== Sys2Proof/Proofs/Reductions.lean ====
section
/-! SUPPORT. The reductions of the VN space over the lanes that the mask admits (R144, R288). -/

namespace Sys2Proof.Machine

/-- R288: a reduction puts the value of its admitted lanes into bits 31 to 0 of its destination. -/
theorem redWord_lands {i : Instr} {g : List (Option Nat) → Nat} {f : VecF} {s u : State} {vs : List (BitVec 2048)}
    (hi : VecIssues .vn (vecSrcs f 1) s) (hv : vecReads .vn f 1 (laneW f.t) s vs u) (he : exec i s = redWord g f s) :
    Runs i s (landVec .vn u (issueCtx s) f.d
      (BitVec.ofNat 2048 (g (admitted ((cellAt u (issueCtx s).key).readM f.msk.toNat)
        ((List.range (2048 / laneW f.t)).map (laneAt (laneW f.t) (vs.getD 0 0)))) % 2 ^ 32)) (BitVec.allOnes 256) 7) := by
  refine runs_lanesWord hi hv he ?_
  rw [unpackL_toNat]
  rfl

/-- The value of VREDSUM: the FP32 sum of float lanes, and the sum mod 2^32 of the others. -/
def redSum (f : VecF) (ls : List (Option Nat)) : Nat :=
  if isFloatT f.t then treeSum f.t f.rm.toNat ls
  else ofInt 32 ((treeRed (fun (a b : Int) => a + b) 8 (ls.map fun o => o.map (laneInt (laneW f.t) (f.u == 1)))).getD 0)

theorem execVredsum_eq (f : VecF) (s : State) : execVredsum f s = redWord (redSum f) f s := rfl

theorem redSum_of_float {f : VecF} (h : isFloatT f.t = true) (ls : List (Option Nat)) :
    redSum f ls = treeSum f.t f.rm.toNat ls := if_pos h

theorem redSum_of_int {f : VecF} (h : 4 ≤ f.t.toNat) (ls : List (Option Nat)) :
    redSum f ls =
      ofInt 32 ((treeRed (fun (a b : Int) => a + b) 8 (ls.map fun o => o.map (laneInt (laneW f.t) (f.u == 1)))).getD 0) := by
  have hint : ¬ isFloatT f.t = true := by
    rw [isFloatT, decide_eq_true_eq]
    omega
  exact if_neg hint

end Sys2Proof.Machine

open Sys2Proof Sys2Proof.Machine

/-- Settles O24: VREDSUM by the type of its lanes, and the two extremes. -/
theorem reductionsComplete : Obligations.ReductionsComplete := by
  intro s f vs u hi hv w ls lands
  have hsum : lands (.vredsum f) (redSum f ls) := redWord_lands hi hv (execVredsum_eq f s)
  refine ⟨fun ht => ?_, fun ht => ?_, fun ht => ?_, redWord_lands (g := redExt true f) hi hv rfl,
    redWord_lands (g := redExt false f) hi hv rfl⟩
  · rw [redSum_of_float (by rw [ht]; rfl), ht] at hsum
    exact hsum
  · rwa [redSum_of_int ht] at hsum
  · rwa [redSum_of_float ht] at hsum

end

