-- ==== Sys2Proof/Proofs/FloatRoundTrip.lean ====
section
/-! SUPPORT. The values of a float format, and their rounding in it (R131 to R138). -/

namespace Sys2Proof.Machine

/-- The patterns of a format lie as R133 says: above the largest finite one stand the infinity and the NaNs, or, without an
infinity, one NaN alone. -/
def FFmt.Laid (f : FFmt) : Prop := f.maxF + 1 = if f.hasInf then (2 ^ f.eb - 1) * 2 ^ f.m else 2 ^ (f.m + f.eb) - 1

theorem laid_of_format {f : FFmt} (h : f = fp32 ∨ f = bf16 ∨ f = e4m3 ∨ f = e5m2) : f.Laid := by
  rcases h with rfl | rfl | rfl | rfl <;> rfl

/-! ## Fields of a pattern -/

section
variable (f : FFmt) (x : Nat)

/-- The sign, the biased exponent and the fraction of a pattern (R133). -/
def FFmt.signOf : Bool := decide (x / 2 ^ (f.m + f.eb) % 2 = 1)
def FFmt.expOf : Nat := x / 2 ^ f.m % 2 ^ f.eb
def FFmt.fracOf : Nat := x % 2 ^ f.m

theorem fracOf_lt : f.fracOf x < 2 ^ f.m := Nat.mod_lt _ (Nat.two_pow_pos _)

theorem expOf_lt : f.expOf x < 2 ^ f.eb := Nat.mod_lt _ (Nat.two_pow_pos _)

/-- Exponent and fraction are the pattern without its sign. -/
theorem expOf_fracOf : f.expOf x * 2 ^ f.m + f.fracOf x = x % 2 ^ (f.m + f.eb) := by
  rw [FFmt.expOf, FFmt.fracOf, Nat.pow_add, Nat.mod_mul]
  ring

variable {x} in
/-- A pattern is its fields. -/
theorem pattern_eq (hx : x < 2 ^ (1 + f.eb + f.m)) : f.sgn (f.signOf x) + (f.expOf x * 2 ^ f.m + f.fracOf x) = x := by
  have hsign : x / 2 ^ (f.m + f.eb) < 2 := by
    rw [Nat.div_lt_iff_lt_mul (Nat.two_pow_pos _), ← Nat.pow_succ']
    exact hx.trans_eq (congrArg _ (by omega))
  have hsgn : f.sgn (f.signOf x) = 2 ^ (f.m + f.eb) * (x / 2 ^ (f.m + f.eb)) := by
    unfold FFmt.sgn FFmt.signOf
    rcases Nat.le_one_iff_eq_zero_or_eq_one.mp (Nat.le_of_lt_succ hsign) with h | h <;> simp [h]
  rw [hsgn, expOf_fracOf, Nat.div_add_mod]

variable {f x}

/-- Of the patterns that are no infinity and no NaN, none is above the largest finite one. -/
theorem magnitude_le_maxF (hf : f.Laid) (hinf : ¬ (f.hasInf = true ∧ f.expOf x = 2 ^ f.eb - 1))
    (hnan : ¬ ((!f.hasInf) = true ∧ f.expOf x = 2 ^ f.eb - 1 ∧ f.fracOf x = 2 ^ f.m - 1)) :
    f.expOf x * 2 ^ f.m + f.fracOf x ≤ f.maxF := by
  have hm := fracOf_lt f x
  have he := expOf_lt f x
  have hcarry : ∀ n, f.expOf x + 1 ≤ n → (f.expOf x + 1) * 2 ^ f.m ≤ n * 2 ^ f.m := fun n => Nat.mul_le_mul_right _
  simp only [Nat.succ_mul] at hcarry
  unfold FFmt.Laid at hf
  cases h : f.hasInf
  · simp only [h, Bool.false_eq_true, if_false, Bool.not_false, true_and] at hf hnan
    have hpow : 2 ^ (f.m + f.eb) = (2 ^ f.eb - 1) * 2 ^ f.m + 2 ^ f.m := by
      rw [← Nat.succ_mul, Nat.pow_add, Nat.mul_comm]
      congr 1
      omega
    by_cases htop : f.expOf x = 2 ^ f.eb - 1
    · have hfrac : f.fracOf x ≠ 2 ^ f.m - 1 := fun h => hnan ⟨htop, h⟩
      rw [htop]
      omega
    · have := hcarry (2 ^ f.eb - 1) (by omega)
      omega
  · simp only [h, true_and, if_true] at hf hinf
    have := hcarry (2 ^ f.eb - 1) (by omega)
    omega

/-- R133: what is no NaN is an infinity, or a finite value whose pattern is not above the largest one. -/
theorem dec_cases (hf : f.Laid) (hnan : (f.dec x).isNan = false) :
    (f.hasInf = true ∧ f.expOf x = 2 ^ f.eb - 1 ∧ f.fracOf x = 0 ∧ f.dec x = .inf (f.signOf x))
    ∨ f.expOf x * 2 ^ f.m + f.fracOf x ≤ f.maxF
      ∧ ((f.expOf x = 0 ∧ f.dec x = .fin (f.signOf x) (f.fracOf x) (f.emin - f.m))
        ∨ (0 < f.expOf x ∧ f.dec x = .fin (f.signOf x) (f.fracOf x + 2 ^ f.m) ((f.expOf x : Int) - f.bias - f.m))) := by
  have hdec : f.dec x =
      if f.hasInf ∧ f.expOf x = 2 ^ f.eb - 1 then (if f.fracOf x = 0 then .inf (f.signOf x) else .nan)
      else if !f.hasInf ∧ f.expOf x = 2 ^ f.eb - 1 ∧ f.fracOf x = 2 ^ f.m - 1 then .nan
      else if f.expOf x = 0 then .fin (f.signOf x) (f.fracOf x) (f.emin - f.m)
      else .fin (f.signOf x) (f.fracOf x + 2 ^ f.m) ((f.expOf x : Int) - f.bias - f.m) := rfl
  rw [hdec] at hnan ⊢
  split_ifs at hnan ⊢ with hinf hzero hn hexp
  · exact .inl ⟨hinf.1, hinf.2, hzero, rfl⟩
  · cases hnan
  · cases hnan
  · exact .inr ⟨magnitude_le_maxF hf hinf hn, .inl ⟨hexp, rfl⟩⟩
  · exact .inr ⟨magnitude_le_maxF hf hinf hn, .inr ⟨Nat.pos_of_ne_zero hexp, rfl⟩⟩

end

/-! ## Rounding (R138) -/

section
variable {f : FFmt} {m b : Nat} {e : Int} (rm : Nat) (s : Bool)

theorem roundAt_self (m : Nat) (e : Int) : roundAt rm s m e e = m := by
  simp [roundAt]

/-- A value on the grid of its binade rounds to its own pattern b. -/
theorem round_exact (hm : m ≠ 0) (hlt : m < 2 ^ (f.m + 1)) (hgrid : max ((Nat.log2 m : Int) + e) f.emin - f.m = e)
    (hb : (b : Int) = if m < 2 ^ f.m then (m : Int) else (e + f.m + f.bias) * 2 ^ f.m + (m - 2 ^ f.m : Nat))
    (hmax : b ≤ f.maxF) : f.round rm (.fin s m e) = f.sgn s + b := by
  have hmax' : ¬ (f.maxF : Int) < b := by omega
  simp only [FFmt.round, hm, if_false, hgrid, roundAt_self, decide_eq_false (Nat.not_le.mpr hlt), Bool.false_eq_true, ← hb, hmax',
    Int.toNat_natCast]

theorem round_subnormal (hm : m < 2 ^ f.m) (hmax : m ≤ f.maxF) : f.round rm (.fin s m (f.emin - f.m)) = f.sgn s + m := by
  by_cases h0 : m = 0
  · simp [FFmt.round, h0]
  · have hlog : Nat.log2 m < f.m := (Nat.log2_lt h0).mpr hm
    exact round_exact rm s h0 (hm.trans (Nat.pow_lt_pow_succ Nat.one_lt_two)) (by omega) (if_pos hm).symm hmax

theorem round_normal {n : Nat} (hm : m < 2 ^ f.m) (hn : 0 < n) (hmax : n * 2 ^ f.m + m ≤ f.maxF) :
    f.round rm (.fin s (m + 2 ^ f.m) ((n : Int) - f.bias - f.m)) = f.sgn s + (n * 2 ^ f.m + m) := by
  have hlt : m + 2 ^ f.m < 2 ^ (f.m + 1) := by
    rw [Nat.pow_succ]
    omega
  have hne : m + 2 ^ f.m ≠ 0 := by omega
  have hlog : Nat.log2 (m + 2 ^ f.m) = f.m := (Nat.log2_eq_iff hne).mpr ⟨Nat.le_add_left .., hlt⟩
  refine round_exact rm s hne hlt ?_ ?_ hmax
  · rw [hlog, FFmt.emin]
    omega
  · rw [if_neg (by omega), Nat.add_sub_cancel]
    push_cast
    ring

end

/-- R131 to R138: a pattern that is no NaN is the rounding of its value. -/
theorem round_dec {f : FFmt} (hf : f.Laid) (rm : Nat) {x : Nat} (hx : x < 2 ^ (1 + f.eb + f.m)) (hnan : (f.dec x).isNan = false) :
    f.round rm (f.dec x) = x := by
  have hm := fracOf_lt f x
  have hfields := pattern_eq f hx
  rcases dec_cases hf hnan with ⟨hinf, he, h0, hd⟩ | ⟨hmax, ⟨he, hd⟩ | ⟨he, hd⟩⟩
  · rw [he, h0] at hfields
    simpa [hd, FFmt.round, FFmt.infBits, hinf] using hfields
  · rw [he, Nat.zero_mul, Nat.zero_add] at hfields hmax
    rw [hd, round_subnormal rm _ hm hmax, hfields]
  · rw [hd, round_normal rm _ hm he hmax, hfields]

end Sys2Proof.Machine

open Sys2Proof Sys2Proof.Machine

/-- Settles O28: the four formats are laid out as R133 says, and such a format rounds its values to themselves. -/
theorem valuesRoundToThemselves : Obligations.ValuesRoundToThemselves :=
  fun _ hf rm _ _ hx hnan => round_dec (laid_of_format hf) rm hx hnan

end

