-- ==== Sys2Proof/Proofs/Encoding.lean ====
section
/-! PROOF of O51 to O54. Below its IDLE a word is laid out in one of ten formats, and it is the word that the encoder writes
for some field values exactly when each field of the format, cut from the word, has its value (pack*_eq_iff). So both
directions of the round trip compare the same things, field by field: an arm of the decoder reads the operands and asks that
ranges of the word are 0; the encoder writes the operands and 0 into the fields that are left. What remains is that these
ranges cover the same bits (zeroBits_iff). -/

namespace Sys2Proof

/-! ## Ranges of a word -/

theorem extractLsb'_extractLsb' {k lo len s n : Nat} (w : BitVec k) (h : s + n ≤ len) :
    (w.extractLsb' lo len).extractLsb' s n = w.extractLsb' (lo + s) n := by
  ext i hi
  simp [show s + i < len by omega, Nat.add_assoc]

/-- Two fields side by side are a range of the word exactly when each is its part of the range. -/
theorem append_eq_extract {k m n lo : Nat} (w : BitVec k) (x : BitVec m) (y : BitVec n) :
    x ++ y = w.extractLsb' lo (m + n) ↔ x = w.extractLsb' (lo + n) m ∧ y = w.extractLsb' lo n := by
  constructor
  · intro h
    constructor
    · rw [← BitVec.extractLsb'_append_eq_left (a := x) (b := y), h, extractLsb'_extractLsb' _ (by omega)]
    · rw [← BitVec.extractLsb'_append_eq_right (a := x) (b := y), h, extractLsb'_extractLsb' _ (by omega), Nat.add_zero]
  · rintro ⟨rfl, rfl⟩
    exact BitVec.extractLsb'_append_extractLsb'_eq_extractLsb' rfl

theorem append_append_eq_extract {k l m n lo : Nat} (w : BitVec k) (x : BitVec l) (y : BitVec m) (z : BitVec n) :
    x ++ y ++ z = w.extractLsb' lo (l + m + n) ↔
      x = w.extractLsb' (lo + n + m) l ∧ y = w.extractLsb' (lo + n) m ∧ z = w.extractLsb' lo n := by
  rw [append_eq_extract, append_eq_extract, and_assoc]

section
variable {w : Word} {op : BitVec 7}

theorem zeroBits_iff {lo n : Nat} :
    zeroBits w lo n = true ↔ ∀ (k : Nat) (_ : k < 64), lo ≤ k → k < lo + n → w[k] = false := by
  rw [zeroBits, beq_iff_eq, BitVec.eq_of_getLsbD_eq_iff]
  simp only [BitVec.getLsbD_extractLsb']
  constructor
  · intro h k hk h1 h2
    simpa [show k - lo < n by omega, show lo + (k - lo) = k by omega, hk] using h (k - lo) (by omega)
  · intro h k hk
    by_cases hw : lo + k < 64
    · simp [hw, h (lo + k) hw (by omega) (by omega)]
    · simp [hk, BitVec.getLsbD_of_ge w (lo + k) (by omega)]

@[simp] theorem extract_eq_zero {lo n : Nat} : w.extractLsb' lo n = 0#n ↔ zeroBits w lo n = true := by
  rw [zeroBits, beq_iff_eq]; rfl

@[simp] theorem zero_eq_extract {lo n : Nat} : 0#n = w.extractLsb' lo n ↔ zeroBits w lo n = true := by
  rw [eq_comm, extract_eq_zero]

@[simp] theorem zero_eq_fD : 0#6 = fD w ↔ zeroBits w 41 6 = true := zero_eq_extract
@[simp] theorem zero_eq_fA : 0#6 = fA w ↔ zeroBits w 35 6 = true := zero_eq_extract
@[simp] theorem zero_eq_fB : 0#6 = fB w ↔ zeroBits w 29 6 = true := zero_eq_extract
@[simp] theorem zero_eq_fC : 0#6 = fC w ↔ zeroBits w 23 6 = true := zero_eq_extract
@[simp] theorem zero_eq_fFl : 0#2 = fFl w ↔ zeroBits w 20 2 = true := zero_eq_extract
@[simp] theorem zero_eq_fSub : 0#3 = fSub w ↔ zeroBits w 32 3 = true := zero_eq_extract
@[simp] theorem zero_eq_fImm : 0#32 = fImm w ↔ zeroBits w 0 32 = true := zero_eq_extract
@[simp] theorem zero_eq_fDs : 0#3 = fDs w ↔ zeroBits w 44 3 = true := zero_eq_extract
@[simp] theorem zero_eq_fQ : 0#4 = fQ w ↔ zeroBits w 40 4 = true := zero_eq_extract
@[simp] theorem zero_eq_fPa : 0#6 = fPa w ↔ zeroBits w 34 6 = true := zero_eq_extract
@[simp] theorem zero_eq_fPb : 0#6 = fPb w ↔ zeroBits w 28 6 = true := zero_eq_extract
@[simp] theorem zero_eq_fXf : 0#8 = fXf w ↔ zeroBits w 20 8 = true := zero_eq_extract

@[simp] theorem fFl_eq_zero : fFl w = 0#2 ↔ zeroBits w 20 2 = true := extract_eq_zero

@[simp] theorem one_eq_fDs : 1#3 = fDs w ↔ zeroBits w 45 2 = true ∧ w[44] = true := by
  have h1 : 1#1 = w.extractLsb' 44 1 ↔ w[44] = true := by
    rw [eq_comm, BitVec.eq_of_getLsbD_eq_iff]
    simp
  rw [← h1, ← zero_eq_extract]
  exact append_eq_extract w 0#2 1#1

theorem toNat_extract_eq_zero {lo n : Nat} : (w.extractLsb' lo n).toNat = 0 ↔ zeroBits w lo n = true := by
  rw [← extract_eq_zero, ← BitVec.toNat_inj, BitVec.toNat_ofNat, Nat.zero_mod]

/-! ## The formats (R155, R158) -/

/-- OP and body: the word without its IDLE. -/
def bodyOf (w : Word) : BitVec 54 := w.extractLsb' 0 54

theorem encode_eq_some_iff {idle : BitVec 10} {i : Instr} :
    encode idle i = some w ↔ idle = idleOf w ∧ encodeBody i = some (bodyOf w) := by
  have hw (b : BitVec 54) : idle ++ b = w ↔ idle = idleOf w ∧ b = bodyOf w := by
    simpa [idleOf, bodyOf] using append_eq_extract (lo := 0) w idle b
  cases h : encodeBody i <;> simp [encode, h, hw]

@[simp] theorem ofNat_eq_opOf {n : Nat} : BitVec.ofNat 7 n = opOf w ↔ (opOf w).toNat = n % 2 ^ 7 := by
  rw [← BitVec.toNat_inj, BitVec.toNat_ofNat, eq_comm]

@[simp] theorem ofNat_eq_fFn {n : Nat} : BitVec.ofNat 7 n = fFn w ↔ (fFn w).toNat = n % 2 ^ 7 := by
  rw [← BitVec.toNat_inj, BitVec.toNat_ofNat, eq_comm]

@[simp] theorem ofNat_eq_fFnE {n : Nat} : BitVec.ofNat 7 n = fFnE w ↔ (fFnE w).toNat = n % 2 ^ 7 := by
  rw [← BitVec.toNat_inj, BitVec.toNat_ofNat, eq_comm]

theorem toNat_fFn_eq_zero : (fFn w).toNat = 0 ↔ zeroBits w 16 7 = true := toNat_extract_eq_zero
theorem toNat_fFnE_eq_zero : (fFnE w).toNat = 0 ↔ zeroBits w 22 7 = true := toNat_extract_eq_zero

theorem toks_eq_iff {k : Toks} : k = fToks w ↔
    k.kd = w.extractLsb' 15 5 ∧ k.k1 = w.extractLsb' 10 5 ∧ k.k2 = w.extractLsb' 5 5 ∧ k.k3 = w.extractLsb' 0 5 := by
  cases k; simp [fToks]

@[simp] theorem toks_mk_eq_iff {kd k1 k2 k3 : BitVec 5} : (⟨kd, k1, k2, k3⟩ : Toks) = fToks w ↔
    kd = w.extractLsb' 15 5 ∧ k1 = w.extractLsb' 10 5 ∧ k2 = w.extractLsb' 5 5 ∧ k3 = w.extractLsb' 0 5 := toks_eq_iff

@[simp] theorem packG_eq_iff {d a b c fn rm sel use mod} : packG op d a b c fn rm sel use mod = bodyOf w ↔
    op = opOf w ∧ d = fD w ∧ a = fA w ∧ b = fB w ∧ c = fC w ∧ fn = fFn w ∧ rm = w.extractLsb' 14 2 ∧ sel = w.extractLsb' 11 3
      ∧ use = w.extractLsb' 8 3 ∧ mod = w.extractLsb' 0 8 := by
  change _ = w.extractLsb' 0 (7 + 6 + 6 + 6 + 6 + 7 + 2 + 3 + 3 + 8) ↔ _
  simp only [packG, append_eq_extract, and_assoc]
  rfl

@[simp] theorem packI_eq_iff {d a sub imm} : packI op d a sub imm = bodyOf w ↔
    op = opOf w ∧ d = fD w ∧ a = fA w ∧ sub = fSub w ∧ imm = fImm w := by
  change _ = w.extractLsb' 0 (7 + 6 + 6 + 3 + 32) ↔ _
  simp only [packI, append_eq_extract, and_assoc]
  rfl

@[simp] theorem packH_eq_iff {d hi imm} : packH op d hi imm = bodyOf w ↔
    op = opOf w ∧ d = fD w ∧ hi = w.extractLsb' 40 1 ∧ imm = w.extractLsb' 0 40 := by
  change _ = w.extractLsb' 0 (7 + 6 + 1 + 40) ↔ _
  simp only [packH, append_eq_extract, and_assoc]
  rfl

@[simp] theorem packE_eq_iff {d a b fn fl k} : packE op d a b fn fl k = bodyOf w ↔
    op = opOf w ∧ d = fD w ∧ a = fA w ∧ b = fB w ∧ fn = fFnE w ∧ fl = fFl w ∧ k = fToks w := by
  change _ = w.extractLsb' 0 (7 + 6 + 6 + 6 + 7 + 2 + 5 + 5 + 5 + 5) ↔ _
  simp only [packE, append_eq_extract, and_assoc, toks_eq_iff]
  rfl

@[simp] theorem packP_eq_iff {ds q a b xf k} : packP op ds q a b xf k = bodyOf w ↔
    op = opOf w ∧ ds = fDs w ∧ q = fQ w ∧ a = fPa w ∧ b = fPb w ∧ xf = fXf w ∧ k = fToks w := by
  change _ = w.extractLsb' 0 (7 + 3 + 4 + 6 + 6 + 8 + 5 + 5 + 5 + 5) ↔ _
  simp only [packP, append_eq_extract, and_assoc, toks_eq_iff]
  rfl

@[simp] theorem packT_eq_iff {ops x} : packT op ops x = bodyOf w ↔ op = opOf w ∧ ops = fOps w ∧ x = fStamp w := by
  obtain ⟨st, k⟩ := x
  change _ = w.extractLsb' 0 (7 + 11 + 16 + 5 + 5 + 5 + 5) ↔ _
  simp only [packT, append_eq_extract, and_assoc, fStamp, Stamp.mk.injEq, toks_eq_iff]
  rfl

@[simp] theorem packB_eq_iff {a b cnd off} : packB op a b cnd off = bodyOf w ↔
    op = opOf w ∧ a = fD w ∧ b = fA w ∧ cnd = fSub w ∧ off = fImm w := packI_eq_iff

@[simp] theorem packJ_eq_iff {a cnd toff joff jd} : packJ op a cnd toff joff jd = bodyOf w ↔
    op = opOf w ∧ a = fD w ∧ cnd = w.extractLsb' 38 3 ∧ toff = w.extractLsb' 26 12 ∧ joff = w.extractLsb' 14 12
      ∧ jd = w.extractLsb' 0 14 := by
  change _ = w.extractLsb' 0 (7 + 6 + 3 + 12 + 12 + 14) ↔ _
  simp only [packJ, append_eq_extract, and_assoc]
  rfl

@[simp] theorem packL_eq_iff {lvl off n} : packL op lvl off n = bodyOf w ↔
    op = opOf w ∧ lvl = w.extractLsb' 44 3 ∧ off = w.extractLsb' 32 12 ∧ n = fImm w := by
  change _ = w.extractLsb' 0 (7 + 3 + 12 + 32) ↔ _
  simp only [packL, append_eq_extract, and_assoc]
  rfl

@[simp] theorem packN_eq_iff {n} : packN op n = bodyOf w ↔ op = opOf w ∧ zeroBits w 32 15 = true ∧ n = fImm w := by
  change _ = w.extractLsb' 0 (7 + 15 + 32) ↔ _
  simp only [packN, append_eq_extract, and_assoc, ← zero_eq_extract]
  rfl

@[simp] theorem packV_eq_iff {f} : packV op f = bodyOf w ↔ op = opOf w ∧ zeroBits w 8 3 = true ∧ f = fVec w := by
  obtain ⟨d, a, b, c, sub, t, rm, msk, peek, zm, part, sat, u⟩ := f
  change _ = w.extractLsb' 0 (7 + 6 + 6 + 6 + 6 + 4 + 3 + 2 + 3 + 3 + 3 + 1 + 2 + 1 + 1) ↔ _
  simp only [packV, append_eq_extract, and_assoc, fVec, VecF.mk.injEq, ← zero_eq_extract]
  change (_ = opOf w ∧ _ ∧ _ ∧ _ ∧ _ ∧ _ ∧ _ ∧ _ ∧ _ ∧ 0#3 = w.extractLsb' 8 3 ∧ _) ↔ _
  tauto

/-! ## Fields in parts -/

@[simp] theorem encA_eq_iff {n : BitVec 4} {f : BitVec 6} : encA n = f ↔ namesA f = true ∧ n = aReg f := by
  rw [namesA, beq_iff_eq, eq_comm (b := (3 : BitVec 2)), aReg]
  simpa [encA] using append_eq_extract (lo := 0) f 3#2 n

@[simp] theorem encQ8_eq_iff {n : BitVec 3} {f : BitVec 6} : encQ8 n = f ↔ namesQ8 f = true ∧ n = qLow f := by
  rw [namesQ8, beq_iff_eq, eq_comm (b := (5 : BitVec 3)), qLow]
  simpa [encQ8] using append_eq_extract (lo := 0) f 5#3 n

@[simp] theorem encQ0_eq_iff {n : BitVec 3} {f : BitVec 6} : encQ0 n = f ↔ namesQ0 f = true ∧ n = qLow f := by
  rw [namesQ0, beq_iff_eq, eq_comm (b := (4 : BitVec 3)), qLow]
  simpa [encQ0] using append_eq_extract (lo := 0) f 4#3 n

@[simp] theorem fD_2_4 {x : BitVec 2} {y : BitVec 4} : x ++ y = fD w ↔ x = w.extractLsb' 45 2 ∧ y = w.extractLsb' 41 4 :=
  append_eq_extract w x y

@[simp] theorem fFn_1_6 {x : BitVec 1} {y : BitVec 6} : x ++ y = fFn w ↔ x = w.extractLsb' 22 1 ∧ y = w.extractLsb' 16 6 :=
  append_eq_extract w x y

@[simp] theorem fFn_3_4 {x : BitVec 3} {y : BitVec 4} : x ++ y = fFn w ↔ x = w.extractLsb' 20 3 ∧ y = w.extractLsb' 16 4 :=
  append_eq_extract w x y

@[simp] theorem fFn_4_3 {x : BitVec 4} {y : BitVec 3} : x ++ y = fFn w ↔ x = w.extractLsb' 19 4 ∧ y = w.extractLsb' 16 3 :=
  append_eq_extract w x y

@[simp] theorem fFn_5_2 {x : BitVec 5} {y : BitVec 2} : x ++ y = fFn w ↔ x = w.extractLsb' 18 5 ∧ y = w.extractLsb' 16 2 :=
  append_eq_extract w x y

@[simp] theorem fFn_6_1 {x : BitVec 6} {y : BitVec 1} : x ++ y = fFn w ↔ x = w.extractLsb' 17 6 ∧ y = w.extractLsb' 16 1 :=
  append_eq_extract w x y

@[simp] theorem mod_7_1 {x : BitVec 7} {y : BitVec 1} :
    x ++ y = w.extractLsb' 0 8 ↔ x = w.extractLsb' 1 7 ∧ y = w.extractLsb' 0 1 :=
  append_eq_extract w x y

@[simp] theorem fSub_1_2 {x : BitVec 1} {y : BitVec 2} : x ++ y = fSub w ↔ x = w.extractLsb' 34 1 ∧ y = w.extractLsb' 32 2 :=
  append_eq_extract w x y

@[simp] theorem fImm_16_16 {x y : BitVec 16} : x ++ y = fImm w ↔ x = w.extractLsb' 16 16 ∧ y = w.extractLsb' 0 16 :=
  append_eq_extract w x y

@[simp] theorem fImm_20_12 {x : BitVec 20} {y : BitVec 12} :
    x ++ y = fImm w ↔ x = w.extractLsb' 12 20 ∧ y = w.extractLsb' 0 12 :=
  append_eq_extract w x y

@[simp] theorem fImm_26_6 {x : BitVec 26} {y : BitVec 6} : x ++ y = fImm w ↔ x = w.extractLsb' 6 26 ∧ y = w.extractLsb' 0 6 :=
  append_eq_extract w x y

@[simp] theorem fImm_12_8_12 {x : BitVec 12} {y : BitVec 8} {z : BitVec 12} :
    x ++ y ++ z = fImm w ↔ x = w.extractLsb' 20 12 ∧ y = w.extractLsb' 12 8 ∧ z = w.extractLsb' 0 12 :=
  append_append_eq_extract w x y z

@[simp] theorem fFnE_3_4 {x : BitVec 3} {y : BitVec 4} : x ++ y = fFnE w ↔ x = w.extractLsb' 26 3 ∧ y = w.extractLsb' 22 4 :=
  append_eq_extract w x y

@[simp] theorem fFnE_4_3 {x : BitVec 4} {y : BitVec 3} : x ++ y = fFnE w ↔ x = w.extractLsb' 25 4 ∧ y = w.extractLsb' 22 3 :=
  append_eq_extract w x y

@[simp] theorem fFl_1_1 {x y : BitVec 1} : x ++ y = fFl w ↔ x = w.extractLsb' 21 1 ∧ y = w.extractLsb' 20 1 :=
  append_eq_extract w x y

@[simp] theorem fXf_4_4 {x y : BitVec 4} : x ++ y = fXf w ↔ x = w.extractLsb' 24 4 ∧ y = w.extractLsb' 20 4 :=
  append_eq_extract w x y

@[simp] theorem fXf_5_3 {x : BitVec 5} {y : BitVec 3} : x ++ y = fXf w ↔ x = w.extractLsb' 23 5 ∧ y = w.extractLsb' 20 3 :=
  append_eq_extract w x y

@[simp] theorem fXf_2_3_3 {x : BitVec 2} {y z : BitVec 3} :
    x ++ y ++ z = fXf w ↔ x = w.extractLsb' 26 2 ∧ y = w.extractLsb' 23 3 ∧ z = w.extractLsb' 20 3 :=
  append_append_eq_extract w x y z

@[simp] theorem extract_fOps {s n : Nat} (h : s + n ≤ 11) : (fOps w).extractLsb' s n = w.extractLsb' (36 + s) n :=
  extractLsb'_extractLsb' w h

@[simp] theorem fOps_3_8 {x : BitVec 3} {y : BitVec 8} : x ++ y = fOps w ↔ x = w.extractLsb' 44 3 ∧ y = w.extractLsb' 36 8 :=
  append_eq_extract w x y

@[simp] theorem fOps_8_3 {x : BitVec 8} {y : BitVec 3} : x ++ y = fOps w ↔ x = w.extractLsb' 39 8 ∧ y = w.extractLsb' 36 3 :=
  append_eq_extract w x y

@[simp] theorem fOps_3_3_5 {x y : BitVec 3} {z : BitVec 5} :
    x ++ y ++ z = fOps w ↔ x = w.extractLsb' 44 3 ∧ y = w.extractLsb' 41 3 ∧ z = w.extractLsb' 36 5 :=
  append_append_eq_extract w x y z

end

/-! ## The answers of the decoder -/

@[simp] theorem need_eq_ok {b : Bool} {i j : Instr} : need b i = .ok j ↔ b = true ∧ i = j := by
  cases b <;> simp [need]

@[simp] theorem legal_eq_ok {b : Bool} {i j : Instr} : legal b i = .ok j ↔ b = true ∧ i = j := by
  cases b <;> simp [legal]

@[simp] theorem need_ne_unassigned {b : Bool} {i : Instr} : need b i ≠ .error .unassigned := by
  cases b <;> simp [need]

@[simp] theorem legal_ne_unassigned {b : Bool} {i : Instr} : legal b i ≠ .error .unassigned := by
  cases b <;> simp [legal]

/-- The table of a space beside the common rows (R169 to R174). -/
def decodeOwn : Space → Word → Except Reject Instr
  | .s, w => decodeS w
  | .lw, w => decodeLW w
  | .mx, w => decodeMX w
  | .vn, w => decodeVN w
  | .gs, w => decodeGS w
  | .st, w => decodeST w

theorem decodeRaw_eq {sp : Space} {w : Word} : decodeRaw sp w = (decodeCommon w).getD (decodeOwn sp w) := by
  unfold decodeRaw
  cases decodeCommon w <;> cases sp <;> rfl

theorem decode_eq_ok_iff {sp : Space} {w : Word} {i : Instr} :
    decode sp w = .ok i ↔ decodeRaw sp w = .ok i ∧ i.WellFormed := by
  unfold decode
  split <;> simp [*]
  split <;> grind

theorem decode_eq_unassigned_iff {sp : Space} {w : Word} :
    decode sp w = .error .unassigned ↔ decodeRaw sp w = .error .unassigned := by
  unfold decode
  split <;> simp [*]
  split <;> simp

/-! ## The OPs that the tables assign (R167 to R175) -/

theorem decodeCommon_eq_none_iff {w : Word} : decodeCommon w = none ↔ ¬ (1 ≤ (opOf w).toNat ∧ (opOf w).toNat ≤ 9) := by
  unfold decodeCommon
  dsimp only
  split <;> simp [*]
  grind

theorem decodeCommon_ne_unassigned {w : Word} : decodeCommon w ≠ some (.error .unassigned) := by
  unfold decodeCommon
  dsimp only
  split <;> simp

theorem decodeOwn_eq_unassigned_iff {sp : Space} {w : Word} :
    decodeOwn sp w = .error .unassigned ↔ ¬ (10 ≤ (opOf w).toNat ∧ Rules.opsAssigned sp (opOf w).toNat) := by
  cases sp
  all_goals simp only [decodeOwn, decodeS, decodeLW, decodeMX, decodeVN, decodeGS, decodeST, Rules.opsAssigned]
  all_goals repeat' split
  all_goals simp [*]
  all_goals grind

theorem decode_unassigned_iff_not_assigned {sp : Space} {w : Word} :
    decode sp w = .error .unassigned ↔ ¬ Rules.opsAssigned sp (opOf w).toNat := by
  rw [decode_eq_unassigned_iff, decodeRaw_eq]
  by_cases hc : 1 ≤ (opOf w).toNat ∧ (opOf w).toNat ≤ 9
  · obtain ⟨r, hr⟩ := Option.ne_none_iff_exists'.mp (mt decodeCommon_eq_none_iff.mp (not_not.mpr hc))
    have hne : r ≠ .error .unassigned := fun e => decodeCommon_ne_unassigned (e ▸ hr)
    simp [hr, hne, Rules.opsAssigned, hc]
  · rw [decodeCommon_eq_none_iff.mpr hc, Option.getD_none, decodeOwn_eq_unassigned_iff]
    have hz : Rules.opsAssigned sp (opOf w).toNat → 1 ≤ (opOf w).toNat := by
      cases sp <;> simp only [Rules.opsAssigned] <;> omega
    grind

/-! ## A word that decodes is the encoding of its instruction

In each arm of a table the instruction's fields are cut from the word, so the format's fields that it fills agree by
themselves; every other field of the format lies in the ranges that the arm asks to be 0. -/

theorem encodeBody_of_decodeCommon {w : Word} {i : Instr} (h : decodeCommon w = some (.ok i)) :
    encodeBody i = some (bodyOf w) := by
  unfold decodeCommon at h
  dsimp only at h
  repeat' split at h
  all_goals simp at *
  all_goals try casesm* _ ∧ _
  all_goals subst_vars
  all_goals unfold encodeBody
  all_goals simp [*]
  all_goals grind [zeroBits_iff, toNat_fFn_eq_zero, toNat_fFnE_eq_zero]

theorem encodeBody_of_decodeS {w : Word} {i : Instr} (h : decodeS w = .ok i) : encodeBody i = some (bodyOf w) := by
  unfold decodeS at h
  dsimp only at h
  repeat' split at h
  all_goals simp at *
  all_goals try casesm* _ ∧ _
  all_goals subst_vars
  all_goals unfold encodeBody
  all_goals simp [*]
  all_goals grind [zeroBits_iff, toNat_fFn_eq_zero, toNat_fFnE_eq_zero]

theorem encodeBody_of_decodeOwn {sp : Space} {w : Word} {i : Instr} (hns : sp ≠ .s) (h : decodeOwn sp w = .ok i) :
    encodeBody i = some (bodyOf w) := by
  cases sp
  all_goals simp only [decodeOwn, decodeLW, decodeMX, decodeVN, decodeGS, decodeST] at h
  case s => contradiction
  all_goals repeat' split at h
  all_goals simp at *
  all_goals try casesm* _ ∧ _
  all_goals subst_vars
  all_goals unfold encodeBody
  all_goals simp [*]
  all_goals grind [zeroBits_iff, toNat_fFn_eq_zero, toNat_fFnE_eq_zero]

theorem encodeBody_of_decodeRaw {sp : Space} {w : Word} {i : Instr} (h : decodeRaw sp w = .ok i) :
    encodeBody i = some (bodyOf w) := by
  rw [decodeRaw_eq] at h
  cases hc : decodeCommon w with
  | some r =>
    rw [hc, Option.getD_some] at h
    exact encodeBody_of_decodeCommon (h ▸ hc)
  | none =>
    rw [hc, Option.getD_none] at h
    by_cases hns : sp = .s
    · subst hns
      exact encodeBody_of_decodeS h
    · exact encodeBody_of_decodeOwn hns h

/-! ## The encoding of an instruction decodes to it

The encoding fixes OP and so the arm; the operands are the word's own fields, and each range that the arm asks to be 0
is made of fields that the encoder filled with 0. The S space is taken in three ranges of OP. -/

theorem decodeCommon_of_encodeBody {w : Word} {i : Instr} (hs : spaceOf i = none) (h : encodeBody i = some (bodyOf w)) :
    decodeCommon w = some (.ok i) := by
  cases i
  all_goals try (cases hs; done)
  all_goals unfold encodeBody at h
  all_goals simp at h
  all_goals unfold decodeCommon
  all_goals simp [h]
  all_goals grind [zeroBits_iff, toNat_fFn_eq_zero, toNat_fFnE_eq_zero, need_eq_ok, legal_eq_ok]

theorem decodeS_of_encodeBody_low {w : Word} {i : Instr} (hop : (opOf w).toNat < 0x38) (hs : spaceOf i = some .s)
    (h : encodeBody i = some (bodyOf w)) : decodeS w = .ok i := by
  cases i
  all_goals try (cases hs; done)
  all_goals unfold encodeBody at h
  all_goals simp at h
  all_goals try omega
  all_goals unfold decodeS
  all_goals simp [h]
  all_goals grind [zeroBits_iff, toNat_fFn_eq_zero, toNat_fFnE_eq_zero, need_eq_ok]

theorem decodeS_of_encodeBody_mid {w : Word} {i : Instr} (hop : 0x38 ≤ (opOf w).toNat) (hop' : (opOf w).toNat < 0x50)
    (hs : spaceOf i = some .s) (h : encodeBody i = some (bodyOf w)) : decodeS w = .ok i := by
  cases i
  all_goals try (cases hs; done)
  all_goals unfold encodeBody at h
  all_goals simp at h
  all_goals try omega
  all_goals unfold decodeS
  all_goals simp [h]
  all_goals grind [zeroBits_iff, toNat_fFn_eq_zero, toNat_fFnE_eq_zero, need_eq_ok]

theorem decodeS_of_encodeBody_high {w : Word} {i : Instr} (hop : 0x50 ≤ (opOf w).toNat) (hs : spaceOf i = some .s)
    (h : encodeBody i = some (bodyOf w)) : decodeS w = .ok i := by
  cases i
  all_goals try (cases hs; done)
  all_goals unfold encodeBody at h
  all_goals simp at h
  all_goals try omega
  all_goals unfold decodeS
  all_goals simp [h]
  all_goals grind [zeroBits_iff, toNat_fFn_eq_zero, toNat_fFnE_eq_zero, need_eq_ok]

theorem decodeS_of_encodeBody {w : Word} {i : Instr} (hs : spaceOf i = some .s) (h : encodeBody i = some (bodyOf w)) :
    decodeS w = .ok i := by
  rcases Nat.lt_or_ge (opOf w).toNat 0x38 with hlow | hmid
  · exact decodeS_of_encodeBody_low hlow hs h
  · rcases Nat.lt_or_ge (opOf w).toNat 0x50 with hmid' | hhigh
    · exact decodeS_of_encodeBody_mid hmid hmid' hs h
    · exact decodeS_of_encodeBody_high hhigh hs h

theorem decodeVN_of_encodeBody {w : Word} {i : Instr} (hs : spaceOf i = some .vn) (h : encodeBody i = some (bodyOf w)) :
    decodeVN w = .ok i := by
  cases i
  all_goals try (cases hs; done)
  all_goals unfold encodeBody at h
  all_goals simp at h
  all_goals unfold decodeVN
  all_goals simp [h]

/-- The words of the other four spaces. -/
theorem decodeOwn_of_encodeBody_other {sp : Space} {w : Word} {i : Instr} (hns : sp ≠ .s) (hnv : sp ≠ .vn)
    (hs : spaceOf i = some sp) (h : encodeBody i = some (bodyOf w)) : decodeOwn sp w = .ok i := by
  cases i
  all_goals cases hs
  all_goals try contradiction
  all_goals unfold encodeBody at h
  all_goals simp at h
  all_goals simp only [decodeOwn, decodeLW, decodeMX, decodeGS, decodeST, h]
  all_goals simp [h]
  all_goals grind [zeroBits_iff, toNat_fFn_eq_zero, toNat_fFnE_eq_zero, need_eq_ok, legal_eq_ok]

theorem decodeOwn_of_encodeBody {sp : Space} {w : Word} {i : Instr} (hs : spaceOf i = some sp)
    (h : encodeBody i = some (bodyOf w)) : decodeOwn sp w = .ok i := by
  by_cases hns : sp = .s
  · subst hns
    exact decodeS_of_encodeBody hs h
  · by_cases hnv : sp = .vn
    · subst hnv
      exact decodeVN_of_encodeBody hs h
    · exact decodeOwn_of_encodeBody_other hns hnv hs h

theorem decodeRaw_of_encodeBody {sp : Space} {w : Word} {i : Instr} (hs : spaceOf i = some sp ∨ spaceOf i = none)
    (h : encodeBody i = some (bodyOf w)) : decodeRaw sp w = .ok i := by
  rw [decodeRaw_eq]
  rcases hs with hs | hs
  · have hown := decodeOwn_of_encodeBody hs h
    have hop : 10 ≤ (opOf w).toNat := by
      have hne := mt (decodeOwn_eq_unassigned_iff (sp := sp) (w := w)).mpr (by simp [hown])
      exact (not_not.mp hne).1
    rw [decodeCommon_eq_none_iff.mpr (by omega), Option.getD_none, hown]
  · rw [decodeCommon_of_encodeBody hs h, Option.getD_some]

end Sys2Proof

namespace Sys2Proof.Machine

theorem execUnassignedOpcode_of_issues {s : State} {w : Word}
    (h : Issues { core := true, start := true } [] { s with curWord := w }) :
    execUnassignedOpcode w s =
      .next (takeFault (moved { s with curWord := w }) (runner { s with curWord := w }) { code := 1 }) :=
  word_of_issues h _

end Sys2Proof.Machine

open Sys2Proof Sys2Proof.Machine

/-- Settles O52: each arm of the decoder asks for no more than the fields that the encoder fills. -/
theorem encodingRoundTrip : Obligations.EncodingRoundTrip := by
  intro idle i w sp hwf he hsp
  obtain ⟨hidle, hbody⟩ := encode_eq_some_iff.mp he
  exact ⟨decode_eq_ok_iff.mpr ⟨decodeRaw_of_encodeBody hsp hbody, hwf⟩, hidle.symm⟩

/-- Settles O53: each arm of the decoder reads or asks to be 0 every field that the encoder fills. -/
theorem decodedWordsEncode : Obligations.DecodedWordsEncode := by
  intro sp w i h
  obtain ⟨hraw, hwf⟩ := decode_eq_ok_iff.mp h
  exact ⟨hwf, encode_eq_some_iff.mpr ⟨rfl, encodeBody_of_decodeRaw hraw⟩⟩

/-- Settles O51: the last arm of each table is reached by the OPs outside it, and the word that names no instruction has
the illegal-instruction fault as its effect. -/
theorem unassignedWords : Obligations.UnassignedWords := by
  refine ⟨fun _ _ => decode_unassigned_iff_not_assigned, fun _ _ h => execUnassignedOpcode_of_issues h,
    fun s key q r hp hi hd hr hb he his => ?_⟩
  obtain ⟨-, hrej, -⟩ := stepRunsTheWord s key q hp hi hd hr
  exact (hrej r hb he).trans (execUnassignedOpcode_of_issues his)

/-- Settles O54, by evaluation of the decoder. -/
theorem wordsDecode : Obligations.WordsDecode :=
  ⟨by decide, by decide, by decide, by decide, by decide, by decide, by decide, by decide, fun sp => by cases sp <;> decide⟩

end

