-- ==== Sys2Proof/Proofs/TileWords.lean ====
section
/-! SUPPORT. The issue of tile commands at an engine that holds no other command (R163, R249 to R264). -/

namespace Sys2Proof.Machine

theorem runs_okFault {i : Instr} {lg : Legal} {regs : List (BitVec 6)} {body : Ctx → State → Res} {s t : State} {f : Flt}
    (hi : Issues lg regs s) (he : exec i s = word lg regs body s) (hb : body (issueCtx s) (moved s) = .okFault t f) :
    Runs i s (takeFault t (runner s) f) := by
  rw [Runs, he, word_of_issues hi, hb]
  rfl

/-! ## The engine, its format queue and its tokens -/

/-- The matrix engine runs no load, no compute command and no strip. -/
def MxQuiet (m : MxState) : Prop := m.mloads = [] ∧ m.strips = [] ∧ m.mmas = []

theorem mxPending_quiet {m : MxState} (h : MxQuiet m) : mxPending m = false := by
  obtain ⟨hl, hs, hm⟩ := h
  simp [mxPending, hl, hs, hm]

theorem mxReads_quiet {x : Cell} (h : MxQuiet x.mx) (q : Nat) : mxReads x q = false := by
  obtain ⟨-, hs, hm⟩ := h
  simp [mxReads, hs, hm]

theorem mxWrites_quiet {x : Cell} (h : MxQuiet x.mx) (q : Nat) : mxWrites x q = false := by
  obtain ⟨-, hs, -⟩ := h
  simp [mxWrites, hs]

theorem tileBusy_quiet {x : Cell} (h : MxQuiet x.mx) (hl : x.lat = []) (t : Nat) : tileBusy x t = false := by
  obtain ⟨-, hs, hm⟩ := h
  simp [tileBusy, hs, hm, hl]

theorem popFq_eq {s : State} {key : Nat} {w : Word} {rest : List Word} (h : (cellAt s key).mx.fq = w :: rest) :
    popFq s key = setMx s key fun y => { y with fq := rest } := by
  simp [popFq, setMx, h]

theorem takeToks_mx {s t : State} {key : Nat} {k : Toks} (h : takeToks s key k = some t) :
    (cellAt t key).mx = (cellAt s key).mx := by
  unfold takeToks at h
  split at h <;> cases h
  simp

theorem takeToks_per {s t : State} {key : Nat} {k : Toks} (h : takeToks s key k = some t) : t.per = s.per := by
  unfold takeToks at h
  split at h <;> cases h
  rfl

theorem stripEnts_length (m : MxState) (t strip : Nat) (b16 : Bool) :
    (stripEnts m t strip b16).length = if b16 then 4 else 8 := by
  cases b16 <;> simp [stripEnts]

section
variable {s t u : State} {x : Stamp} {i : Instr} {w : Word} {rest : List Word}

/-! ## Words without a format word -/

variable {ill wait : Ctx → State → Bool} {k : Ctx → State → Res}

/-- Such a word, with its stamp and its tokens, completes as its body does. -/
theorem runs_mxWord (hi : Issues { spaces := [.mx] } [] s) (he : exec i s = mxWord x ill wait k s)
    (hx : stampOk (issueCtx s) x = true) (hill : ill (issueCtx s) (moved s) = false)
    (hw : wait (issueCtx s) (moved s) = false) (hp : mxPending (cellAt (moved s) (issueCtx s).key).mx = false)
    (ht : takeToks (moved s) (issueCtx s).key x.toks = some u) (hk : k (issueCtx s) u = .ok t) : Runs i s t := by
  refine runs_ok hi he ?_
  simp [hx, hill, hw, hp, ht, withToks_some _ ht, hk]

/-- One whose stamp fails is illegal in an elastic stream and misses the schedule in a timed one. -/
theorem mxWord_badStamp (hi : Issues { spaces := [.mx] } [] s) (he : exec i s = mxWord x ill wait k s)
    (hx : stampOk (issueCtx s) x = false) (hill : ill (issueCtx s) (moved s) = false) :
    Runs i s (takeFault (moved s) (runner s) { code := if (issueCtx s).timed then 2 else 1 }) := by
  refine runs_fault hi he ?_
  cases hm : (issueCtx s).timed <;> simp [hx, hill, hm, illegal, stampFault, cIllegal, cSched]

/-! ## Tile commands -/

variable {tile q : BitVec 3} {mmas : Bool}

/-- MLOAD with a sound load word and source at a quiet engine begins its load. -/
theorem mload_begins {h : BankHdr} (hi : Issues { spaces := [.mx] } [] s)
    (hq : MxQuiet (cellAt (moved s) (issueCtx s).key).mx) (hx : stampOk (issueCtx s) x = true)
    (hfq : (cellAt (moved s) (issueCtx s).key).mx.fq = w :: rest) (hw : loadWordOk w = some h)
    (hal : bits w 45 29 % 32 = 0) (hin : bits w 45 29 + loadBytes h ≤ 131072)
    (hecc : spadBad (moved s) (issueCtx s).key (bits w 45 29) (loadBytes h) = false)
    (hel : (issueCtx s).timed = false → (takeToks (moved s) (issueCtx s).key x.toks).isSome = true)
    (ht : takeToks (popFq (moved s) (issueCtx s).key) (issueCtx s).key x.toks = some u) :
    Runs (.mload tile x) s (setMx { u with nextId := u.nextId + 1 } (issueCtx s).key fun y =>
      { y with mloads := y.mloads ++
          [{ land := (if (issueCtx s).timed then (issueCtx s).t else (moved s).per) + 8 + (loadBytes h + 255) / 256,
             per := !(issueCtx s).timed, t := tile.toNat, hdr := h, bset := bits w 20 19,
             bytes := spadBytes (moved s) (issueCtx s).key (issueCtx s).key (bits w 45 29) (loadBytes h),
             kd := x.toks.kd.toNat, ord := u.nextId, pc := (issueCtx s).pc }] }) := by
  have ⟨hl, _, hm⟩ := hq
  have hwait : (!(issueCtx s).timed && (takeToks (moved s) (issueCtx s).key x.toks).isNone) = false := by
    cases hmode : (issueCtx s).timed
    · simpa using hel hmode
    · rfl
  refine runs_ok hi rfl ?_
  simp [hx, hfq, hw, hl, hm, mxPending_quiet hq, hwait, hal, Nat.not_lt.mpr hin, hecc, popToks, ht, afterPop, fresh]

theorem mload_malformed (hi : Issues { spaces := [.mx] } [] s) (hx : stampOk (issueCtx s) x = true)
    (hfq : (cellAt (moved s) (issueCtx s).key).mx.fq = w :: rest) (hw : loadWordOk w = none)
    (hel : (issueCtx s).timed = false → mxPending (cellAt (moved s) (issueCtx s).key).mx = false
      ∧ (takeToks (moved s) (issueCtx s).key x.toks).isSome = true) :
    Runs (.mload tile x) s (takeFault (popFq (moved s) (issueCtx s).key) (runner s) { code := 4 }) := by
  have hwait : (!(issueCtx s).timed && (mxPending (cellAt (moved s) (issueCtx s).key).mx
      || (takeToks (moved s) (issueCtx s).key x.toks).isNone)) = false := by
    cases hmode : (issueCtx s).timed
    · simpa using hel hmode
    · rfl
  refine runs_okFault hi rfl ?_
  simp [hx, hfq, hw, hwait, cFormat]

theorem mload_badStamp (hi : Issues { spaces := [.mx] } [] s) (hmode : (issueCtx s).timed = true)
    (hx : stampOk (issueCtx s) x = false) (hfq : (cellAt (moved s) (issueCtx s).key).mx.fq = w :: rest) :
    Runs (.mload tile x) s (takeFault (popFq (moved s) (issueCtx s).key) (runner s) { code := 2 }) := by
  refine runs_okFault hi rfl ?_
  cases hw : loadWordOk w <;> simp [hx, hfq, hw, hmode, stampFault, afterPop, cSched]

/-- The queue of A is one that the stream consumes, of the kind that its mode asks for. -/
def aQueueOk (s : State) (q : BitVec 3) : Prop :=
  consumer (moved s) (issueCtx s) (8 + q.toNat) = true
    ∧ (qFeed (moved s) (issueCtx s).key (8 + q.toNat)).kind = if (issueCtx s).timed then QKind.sched else QKind.mem

theorem mmaWord_badStamp (hi : Issues { spaces := [.mx] } [] s) (he : exec i s = mmaWord mmas q x s) (hq : aQueueOk s q)
    (hmode : (issueCtx s).timed = true) (hx : stampOk (issueCtx s) x = false)
    (hfq : (cellAt (moved s) (issueCtx s).key).mx.fq = w :: rest) :
    Runs i s (takeFault (popFq (moved s) (issueCtx s).key) (runner s) { code := 2 }) := by
  obtain ⟨hc, hk⟩ := hq
  refine runs_okFault hi he ?_
  simp [hc, hk, hx, hfq, hmode, stampFault, afterPop, cSched]

/-- The command that a compute word with its headers begins. -/
def begunMma (s : State) (mmas : Bool) (q : BitVec 3) (x : Stamp) (ord af wa k nsc b : Nat) (h : BankHdr) : MmaRun :=
  let c := issueCtx s
  let mx := (cellAt (moved s) c.key).mx
  { start := (if c.timed then c.t else (moved s).per), per := !c.timed, ord := ord, pc := c.pc, q := 8 + q.toNat, mmas := mmas,
    cem := mx.cem, afmt := af, wa := wa, k := k, nsc := nsc, bset := b, rp := wa * (if mx.cem = 0 then 1 else h.p),
    m := (if mmas = true ∧ mx.cem ≠ 0 then 8 / h.nl else 1), next := 0, rows := [], nland := 0, kd := x.toks.kd.toNat }

/-- MMA or MMAS with a sound compute word and its headers at a quiet engine begins. -/
theorem mmaWord_begins {af wa k nsc b : Nat} {h : BankHdr} (hi : Issues { spaces := [.mx] } [] s)
    (he : exec i s = mmaWord mmas q x s) (hq : aQueueOk s q) (hx : stampOk (issueCtx s) x = true)
    (hfq : (cellAt (moved s) (issueCtx s).key).mx.fq = w :: rest)
    (hw : compWordOk w mmas = some (af, wa, k, nsc, b))
    (hh : headersOk (cellAt (moved s) (issueCtx s).key).mx (cellAt (moved s) (issueCtx s).key).mx.cem b k nsc mmas = some h)
    (hquiet : MxQuiet (cellAt (moved s) (issueCtx s).key).mx) (hlat : (cellAt (moved s) (issueCtx s).key).lat = [])
    (hel : (issueCtx s).timed = false → (takeToks (moved s) (issueCtx s).key x.toks).isSome = true)
    (ht : takeToks (popFq (moved s) (issueCtx s).key) (issueCtx s).key x.toks = some u) :
    Runs i s (setMx { u with nextId := u.nextId + 1 } (issueCtx s).key fun y =>
      { y with mmas := y.mmas ++ [begunMma s mmas q x u.nextId af wa k nsc b h] }) := by
  obtain ⟨hc, hk⟩ := hq
  have ⟨hl, _, hm⟩ := hquiet
  refine runs_ok hi he ?_
  simp [hc, hk, hx, hfq, hw, hh, hl, hm, mxPending_quiet hquiet, tileBusy_quiet hquiet hlat, mxReads_quiet hquiet,
    popToks, ht, afterPop, fresh, begunMma]
  exact fun hmode => Option.isSome_iff_ne_none.mp (hel hmode)

end

/-! ## MSEL, ZCLR and the strips -/

/-- The state in which a strip of a queue and a tile has begun. -/
def begunStrip (s u : State) (x : Stamp) (q t : BitVec 3) (st : BitVec 5) (kind count : Nat)
    (ents : List (BitVec 2048)) : State :=
  setMx { u with nextId := u.nextId + 1 } (issueCtx s).key fun y =>
    { y with strips := y.strips ++
        [{ kind := kind, start := (if (issueCtx s).timed then (issueCtx s).t else (moved s).per), per := !(issueCtx s).timed,
           ord := u.nextId, pc := (issueCtx s).pc, q := 8 + q.toNat, t := t.toNat, s := st.toNat, ch := 0, next := 0,
           count := count, ents := ents, kd := x.toks.kd.toNat }] }

section
variable {s u v : State} {x : Stamp} (hi : Issues { spaces := [.mx] } [] s)
  (hquiet : MxQuiet (cellAt (moved s) (issueCtx s).key).mx) (hlat : (cellAt (moved s) (issueCtx s).key).lat = [])
  (ht : takeToks (moved s) (issueCtx s).key x.toks = some u) (hx : stampOk (issueCtx s) x = true)
include hi hquiet ht hx

theorem msel_selects {mask : BitVec 8} (hk : x.toks.kd = 0) :
    Runs (.msel mask x) s
      (if (issueCtx s).timed then
        addLatch u (issueCtx s).key
          { due := (issueCtx s).t + 1, tgt := .cem, val := mask.setWidth 2048, seq := (issueCtx s).seq, pc := (issueCtx s).pc }
      else setMx u (issueCtx s).key fun y => { y with cem := mask }) :=
  runs_mxWord hi rfl hx (by simp [hk]) rfl (mxPending_quiet hquiet) ht rfl

include hlat

theorem zclr_clears {mask : BitVec 8} (hmode : (issueCtx s).timed = false)
    (hv : addTok (setMx (healTiles u (issueCtx s).key mask.toNat) (issueCtx s).key fun y =>
      clearPcur (clearTiles y mask.toNat) mask.toNat) (issueCtx s).key x.toks.kd.toNat = (v, true)) :
    Runs (.zclr mask x) s v :=
  runs_mxWord hi rfl hx rfl (by simp [tileBusy_quiet hquiet hlat]) (mxPending_quiet hquiet) ht (by simp [hmode, hv])

theorem zclr_latches {mask : BitVec 8} (hmode : (issueCtx s).timed = true) :
    Runs (.zclr mask x) s (addTokAt
      (addLatch (addLatch u (issueCtx s).key { due := (issueCtx s).t + 1, tgt := .zclr mask.toNat, seq := (issueCtx s).seq,
                                               pc := (issueCtx s).pc }) (issueCtx s).key
        { due := (issueCtx s).t + 1, tgt := .pcur mask.toNat, seq := (issueCtx s).seq, pc := (issueCtx s).pc })
      (issueCtx s) x.toks.kd.toNat ((issueCtx s).t + 1)) :=
  runs_mxWord hi rfl hx rfl (by simp [tileBusy_quiet hquiet hlat]) (mxPending_quiet hquiet) ht (by simp [hmode])


variable {q t : BitVec 3} {st : BitVec 5}

/-- ZRD and ZRD.B16 read their entries as they begin. -/
theorem zrdWord_begins {i : Instr} {b16 : Bool} (he : exec i s = zrdWord b16 q t st x s)
    (hq : stripQueueOk (moved s) (issueCtx s) (8 + q.toNat) true = true)
    (hz : zBad (cellAt u (issueCtx s).key) t.toNat (4 * st.toNat) 4 = false) :
    Runs i s (begunStrip s u x q t st 0 (if b16 then 4 else 8)
      (stripEnts (cellAt (moved s) (issueCtx s).key).mx t.toNat st.toNat b16)) :=
  runs_mxWord hi he hx (by simp [hq]) (by simp [tileBusy_quiet hquiet hlat, mxWrites_quiet hquiet]) (mxPending_quiet hquiet) ht
    (by simp [hz, fresh, stripEnts_length, takeToks_mx ht, takeToks_per ht, begunStrip])

theorem zwr_begins (hq : stripQueueOk (moved s) (issueCtx s) (8 + q.toNat) false = true) :
    Runs (.zwr q t st x) s (begunStrip s u x q t st 1 8 []) :=
  runs_mxWord hi rfl hx (by simp [hq]) (by simp [tileBusy_quiet hquiet hlat, mxReads_quiet hquiet]) (mxPending_quiet hquiet) ht
    (by simp [fresh, takeToks_per ht, begunStrip])

end

/-- ZPUSH and ZPUSH.B16 send the entries of their strip, one cycle after another. -/
theorem zpushWord_sends {s u : State} {x : Stamp} {i : Instr} {b16 : Bool} {t : BitVec 3} {ch : BitVec 8} {z : Chan}
    {dest : Nat} (hi : Issues { spaces := [.mx], elastic := false } [] s) (he : exec i s = zpushWord b16 t ch x s)
    (hx : stampOk (issueCtx s) x = true) (hch : chanOf (moved s) (issueCtx s).key ch.toNat = some z)
    (hd : chanDest (moved s) (issueCtx s).key z = some dest) (hqb : qBits z.q = 2048)
    (hz : zBad (cellAt (moved s) (issueCtx s).key) t.toNat
      (4 * (sget 0 (cellAt (moved s) (issueCtx s).key).mx.pcur t.toNat % 32)) 4 = false)
    (ht : takeToks (moved s) (issueCtx s).key x.toks = some u) :
    let c := issueCtx s
    let mx := (cellAt (moved s) c.key).mx
    let es := stripEnts mx t.toNat (sget 0 mx.pcur t.toNat % 32) b16
    Runs i s (addTokAt
      (addLatch (es.zipIdx.foldl (fun v p => sendChan v c.key dest z p.1 false (c.t + 2 + p.2)) u) c.key
        { due := c.t + 1, tgt := .pcurStep t.toNat, seq := c.seq, pc := c.pc })
      c x.toks.kd.toNat
      (c.t + 1 + (if b16 then 4 else 8) + pushLat c.key dest (decide ((cellAt (moved s) c.key).ldie = z.ldie)))) := by
  refine runs_ok hi he ?_
  simp only [hch, hd, hqb, hx, withToks_some _ ht, hz, stripEnts_length, ne_eq, not_true, Bool.not_true,
    Bool.false_eq_true, if_false]

end Sys2Proof.Machine

open Sys2Proof Sys2Proof.Machine

theorem tileCommandsBegin : Rules.TileCommandsBegin := by
  intro s t q x w rest hi c m mx now popped quiet hfq
  have hpop : popFq m c.key = popped := popFq_eq hfq
  rw [← hpop]
  refine ⟨fun h u hw hx hq hal hin hecc hel ht => mload_begins hi hq (decide_eq_true hx) hfq hw hal hin hecc hel ht,
    fun hw hx hel => mload_malformed hi (decide_eq_true hx) hfq hw hel, fun hmode hx => ?_,
    fun mmas af wa k nsc b h u hw hh hx hq hlat hc hk hel ht => ?_⟩
  · have hbad : stampOk c x = false := by simpa [stampOk, hmode] using hx
    refine ⟨mload_badStamp hi hmode hbad hfq, fun hc hk => ?_⟩
    have hq : aQueueOk s q := ⟨hc, by rw [hk, if_pos hmode]⟩
    exact ⟨mmaWord_badStamp hi rfl hq hmode hbad hfq, mmaWord_badStamp hi rfl hq hmode hbad hfq⟩
  · have he : exec (if mmas then .mmas q x else .mma q x) s = mmaWord mmas q x s := by cases mmas <;> rfl
    exact mmaWord_begins hi he ⟨hc, hk⟩ (decide_eq_true hx) hfq hw hh hq hlat hel ht

theorem tileStrips : Rules.TileStrips := by
  intro s mask ch q t st x c m mx stampGood now
  refine ⟨fun hi u ht hl hs hm hlat => ?_, fun hi hx z dest u b16 hch hd hqb hz ht => ?_⟩
  · have hq : MxQuiet mx := ⟨hl, hs, hm⟩
    refine ⟨fun hx hk => ?_, fun hx hk => ?_, fun hx hmode v hv => ?_, fun hx hmode => ?_, fun hx hk => ?_⟩
    · have hrun := msel_selects (mask := mask) hi hq ht (decide_eq_true hx) hk
      exact ⟨fun hmode => by rwa [if_neg (ne_true_of_eq_false hmode)] at hrun, fun hmode => by rwa [if_pos hmode] at hrun⟩
    · exact mxWord_badStamp hi rfl (decide_eq_false hx) (by simp [hk])
    · exact zclr_clears hi hq hlat ht (decide_eq_true hx) hmode hv
    · exact zclr_latches hi hq hlat ht (decide_eq_true hx) hmode
    · intro strip
      refine ⟨fun hp hz => ?_, fun hc => ?_⟩
      · have hqok : stripQueueOk m c (8 + q.toNat) true = true := by simp [stripQueueOk, hp, hk]
        exact ⟨zrdWord_begins hi hq hlat ht (decide_eq_true hx) (b16 := false) rfl hqok hz,
          zrdWord_begins hi hq hlat ht (decide_eq_true hx) (b16 := true) rfl hqok hz⟩
      · have hqok : stripQueueOk m c (8 + q.toNat) false = true := by simp [stripQueueOk, hc, hk]
        exact zwr_begins hi hq hlat ht (decide_eq_true hx) hqok
  · have he : exec (if b16 then .zpushB16 t ch x else .zpush t ch x) s = zpushWord b16 t ch x s := by cases b16 <;> rfl
    exact zpushWord_sends hi he (decide_eq_true hx) hch hd hqb hz ht

/-- Settles O32, word by word. -/
theorem tileCommandsRun : Obligations.TileCommandsRun := ⟨tileCommandsBegin, tileStrips⟩

end

