-- ==== Sys2Proof/Proofs/ScalarArithmetic.lean ====
section
/-! SUPPORT. The scalar computations: each function of words as arithmetic on its operands, and the landing of its value
(R182 to R188). -/

namespace Sys2Proof.Machine

/-! ## Functions of words -/

theorem mul_eq_ofInt (x y : Word) : x * y = BitVec.ofInt 64 (x.toInt * y.toInt) := by
  rw [BitVec.ofInt_mul, BitVec.ofInt_toInt, BitVec.ofInt_toInt]

/-- The upper half of a 128-bit product is its quotient by 2 ^ 64, rounded down. -/
theorem extractLsb'_ofInt_upper (p : Int) : (BitVec.ofInt 128 p).extractLsb' 64 64 = BitVec.ofInt 64 (p / 2 ^ 64) := by
  apply BitVec.eq_of_toNat_eq
  simp only [BitVec.extractLsb'_toNat, BitVec.toNat_ofInt, Nat.shiftRight_eq_div_pow]
  omega

theorem mulhW_eq_ofInt (x y : Word) : mulhW x y = BitVec.ofInt 64 (x.toInt * y.toInt / 2 ^ 64) := by
  rw [mulhW, ← extractLsb'_ofInt_upper, BitVec.ofInt_mul]
  rfl

theorem mulhuW_eq_ofNat (x y : Word) : mulhuW x y = BitVec.ofNat 64 (x.toNat * y.toNat / 2 ^ 64) := by
  have hx : x.toNat < 2 ^ 64 := x.isLt
  have hy : y.toNat < 2 ^ 64 := y.isLt
  have hlt : x.toNat * y.toNat < 2 ^ 128 := (Nat.mul_lt_mul'' hx hy : _ < 2 ^ 64 * 2 ^ 64)
  apply BitVec.eq_of_toNat_eq
  simp only [mulhuW, BitVec.extractLsb'_toNat, BitVec.toNat_mul, BitVec.toNat_setWidth, BitVec.toNat_ofNat,
    Nat.shiftRight_eq_div_pow]
  rw [Nat.mod_eq_of_lt (Nat.lt_trans hx (by decide)), Nat.mod_eq_of_lt (Nat.lt_trans hy (by decide)), Nat.mod_eq_of_lt hlt]

theorem sdivW_eq_tdiv (x y : Word) : sdivW x y = if y = 0 then -1 else BitVec.ofInt 64 (x.toInt.tdiv y.toInt) := by
  refine if_congr Iff.rfl rfl (BitVec.eq_of_toInt_eq ?_)
  rw [BitVec.toInt_sdiv, BitVec.toInt_ofInt]

theorem sremW_eq_tmod (x y : Word) : sremW x y = if y = 0 then x else BitVec.ofInt 64 (x.toInt.tmod y.toInt) := by
  rw [← BitVec.toInt_srem, BitVec.ofInt_toInt]
  rfl

theorem udivW_eq_div (x y : Word) : udivW x y = if y = 0 then -1 else BitVec.ofNat 64 (x.toNat / y.toNat) := by
  rw [← BitVec.udiv_def]
  rfl

theorem uremW_eq_mod (x y : Word) : uremW x y = if y = 0 then x else BitVec.ofNat 64 (x.toNat % y.toNat) := by
  refine if_congr Iff.rfl rfl (BitVec.eq_of_toNat_eq ?_)
  rw [BitVec.toNat_umod, BitVec.toNat_ofNat, Nat.mod_eq_of_lt (Nat.lt_of_le_of_lt (Nat.mod_le _ _) x.isLt)]

theorem shiftLeft_eq_ofNat (x : Word) (n : Nat) : x <<< n = BitVec.ofNat 64 (x.toNat * 2 ^ n) := by
  apply BitVec.eq_of_toNat_eq
  rw [BitVec.toNat_shiftLeft, BitVec.toNat_ofNat, Nat.shiftLeft_eq]

theorem ushiftRight_eq_ofNat (x : Word) (n : Nat) : x >>> n = BitVec.ofNat 64 (x.toNat / 2 ^ n) := by
  rw [← Nat.shiftRight_eq_div_pow, ← BitVec.toNat_ushiftRight, BitVec.ofNat_toNat, BitVec.setWidth_eq]

theorem sshiftRight_eq_ofInt (x : Word) (n : Nat) : x.sshiftRight n = BitVec.ofInt 64 (x.toInt / 2 ^ n) := by
  rw [BitVec.sshiftRight, Int.shiftRight_eq_div_pow]
  rfl

theorem rotateRight_of_lt (x : Word) {n : Nat} (h : n < 64) : x.rotateRight n = x >>> n ||| x <<< (64 - n) := by
  rw [BitVec.rotateRight_def, Nat.mod_eq_of_lt h]

theorem ite_slt_eq_min (x y : Word) : (if x.slt y then x else y) = BitVec.ofInt 64 (min x.toInt y.toInt) := by
  by_cases h : x.toInt < y.toInt
  · rw [if_pos (BitVec.slt_iff_toInt_lt.mpr h), min_eq_left h.le, BitVec.ofInt_toInt]
  · rw [if_neg (mt BitVec.slt_iff_toInt_lt.mp h), min_eq_right (not_lt.mp h), BitVec.ofInt_toInt]

theorem ite_slt_eq_max (x y : Word) : (if x.slt y then y else x) = BitVec.ofInt 64 (max x.toInt y.toInt) := by
  by_cases h : x.toInt < y.toInt
  · rw [if_pos (BitVec.slt_iff_toInt_lt.mpr h), max_eq_right h.le, BitVec.ofInt_toInt]
  · rw [if_neg (mt BitVec.slt_iff_toInt_lt.mp h), max_eq_left (not_lt.mp h), BitVec.ofInt_toInt]

theorem ite_ult_eq_min (x y : Word) : (if x.ult y then x else y) = BitVec.ofNat 64 (min x.toNat y.toNat) := by
  by_cases h : x.toNat < y.toNat
  · rw [if_pos (BitVec.ult_iff_toNat_lt.mpr h), min_eq_left h.le, BitVec.ofNat_toNat, BitVec.setWidth_eq]
  · rw [if_neg (mt BitVec.ult_iff_toNat_lt.mp h), min_eq_right (not_lt.mp h), BitVec.ofNat_toNat, BitVec.setWidth_eq]

theorem ite_ult_eq_max (x y : Word) : (if x.ult y then y else x) = BitVec.ofNat 64 (max x.toNat y.toNat) := by
  by_cases h : x.toNat < y.toNat
  · rw [if_pos (BitVec.ult_iff_toNat_lt.mpr h), max_eq_right h.le, BitVec.ofNat_toNat, BitVec.setWidth_eq]
  · rw [if_neg (mt BitVec.ult_iff_toNat_lt.mp h), max_eq_left (not_lt.mp h), BitVec.ofNat_toNat, BitVec.setWidth_eq]

theorem boolW_slt (x y : Word) : boolW (x.slt y) = if x.toInt < y.toInt then 1 else 0 := by
  rw [boolW, BitVec.slt_eq_decide]
  exact if_congr decide_eq_true_iff rfl rfl

theorem boolW_ult (x y : Word) : boolW (x.ult y) = if x.toNat < y.toNat then 1 else 0 := by
  rw [boolW, BitVec.ult_eq_decide]
  exact if_congr decide_eq_true_iff rfl rfl

theorem toNat_append_eq_add {m n : Nat} (x : BitVec m) (y : BitVec n) : (x ++ y).toNat = x.toNat * 2 ^ n + y.toNat := by
  rw [BitVec.toNat_append, ← Nat.shiftLeft_add_eq_or_of_lt y.isLt, Nat.shiftLeft_eq]

/-- The low n bits of a word are its remainder by 2 ^ n. -/
theorem toNat_extractLsb'_low (x : Word) (n : Nat) : (x.extractLsb' 0 n).toNat = x.toNat % 2 ^ n := by
  rw [BitVec.extractLsb'_toNat, Nat.shiftRight_zero]

theorem tensor_append_index (x y : Word) :
    x.extractLsb' 0 16 ++ y.extractLsb' 0 48 = BitVec.ofNat 64 (x.toNat % 2 ^ 16 * 2 ^ 48 + y.toNat % 2 ^ 48) := by
  rw [← toNat_extractLsb'_low, ← toNat_extractLsb'_low, ← toNat_append_eq_add, BitVec.ofNat_toNat, BitVec.setWidth_eq]

theorem long_append_low (li : BitVec 40) (x : Word) :
    li ++ x.extractLsb' 0 24 = BitVec.ofNat 64 (li.toNat * 2 ^ 24 + x.toNat % 2 ^ 24) := by
  rw [← toNat_extractLsb'_low, ← toNat_append_eq_add, BitVec.ofNat_toNat, BitVec.setWidth_eq]

theorem toInt_immW (imm : BitVec 32) : (immW imm).toInt = imm.toInt := BitVec.toInt_signExtend_of_le (by decide)

/-! ## Bit counts (R184) -/

/-- The bits that clzAux counts are 0, and the next one below them is 1. -/
theorem clzAux_spec (w : Word) (n : Nat) : clzAux w n ≤ n ∧ (∀ k, n - clzAux w n ≤ k → k < n → w.getLsbD k = false)
    ∧ (clzAux w n < n → w.getLsbD (n - 1 - clzAux w n) = true) := by
  induction n with
  | zero => simp [clzAux]
  | succ n ih =>
    obtain ⟨hle, hzero, hone⟩ := ih
    rw [clzAux]
    split
    · next h => exact ⟨Nat.zero_le _, fun k hk hlt => by omega, fun _ => h⟩
    · next h =>
      refine ⟨by omega, fun k hk hlt => ?_, fun hlt => ?_⟩
      · rcases Nat.lt_succ_iff_lt_or_eq.mp hlt with hlt | rfl
        · exact hzero k (by omega) hlt
        · exact eq_false_of_ne_true h
      · rw [show n + 1 - 1 - (1 + clzAux w n) = n - 1 - clzAux w n by omega]
        exact hone (by omega)

/-- The bits that ctzAux counts from bit i on are 0, and the next one above them is 1. -/
theorem ctzAux_spec (w : Word) (i n : Nat) : ctzAux w i n ≤ n ∧ (∀ k < ctzAux w i n, w.getLsbD (i + k) = false)
    ∧ (ctzAux w i n < n → w.getLsbD (i + ctzAux w i n) = true) := by
  induction n generalizing i with
  | zero => simp [ctzAux]
  | succ n ih =>
    obtain ⟨hle, hzero, hone⟩ := ih (i + 1)
    rw [ctzAux]
    split
    · next h => exact ⟨Nat.zero_le _, fun k hk => by omega, fun _ => h⟩
    · next h =>
      refine ⟨by omega, fun k hk => ?_, fun hlt => ?_⟩
      · cases k with
        | zero => exact eq_false_of_ne_true h
        | succ k =>
          rw [show i + (k + 1) = i + 1 + k by omega]
          exact hzero k (by omega)
      · rw [← Nat.add_assoc]
        exact hone (by omega)

theorem popAux_eq_countP (w : Word) (n : Nat) : popAux w n = (List.range n).countP fun k => w.getLsbD k := by
  induction n with
  | zero => rfl
  | succ n ih => rw [popAux, ih, List.range_succ, List.countP_append, List.countP_singleton, Nat.add_comm]

theorem toNat_lt_of_upper_clear {x : Word} {n : Nat} (h : ∀ k, n ≤ k → k < 64 → x.getLsbD k = false) : x.toNat < 2 ^ n := by
  refine Nat.lt_pow_two_of_testBit _ fun k hk => ?_
  by_cases hlt : k < 64
  · exact h k hk hlt
  · exact BitVec.getLsbD_of_ge x k (Nat.not_lt.mp hlt)

/-! ## Words that compute a register (R41, R182) -/

theorem Issues.subset {lg : Legal} {regs regs' : List (BitVec 6)} {s : State} (hi : Issues lg regs s) (h : regs' ⊆ regs) :
    Issues lg regs' s := by
  refine ⟨hi.can, hi.joins, hi.past, hi.legal, fun ht => ⟨?_, (hi.free ht).2⟩⟩
  have hfree := (hi.free ht).1
  rw [List.any_eq_false] at hfree ⊢
  exact fun r hr => hfree r (h hr)

section
variable {i : Instr} {s : State} {d a b : BitVec 6} {n : Nat} {v : Word}

theorem alu3_lands {f : Word → Word → Word} (hi : Issues lgS [d, a, b] s) (he : exec i s = alu3 d a b n f s)
    (hv : f (src s a) (src s b) = v) : Lands i s d v n := by
  subst hv
  exact runs_ok hi he rfl

theorem alu2_lands {f : Word → Word} (hi : Issues lgS [d, a] s) (he : exec i s = alu2 d a n f s) (hv : f (src s a) = v) :
    Lands i s d v n := by
  subst hv
  exact runs_ok hi he rfl

end

theorem scalarBitCounts : Rules.ScalarBitCounts := by
  intro s d a hi x
  have hclz := clzAux_spec x 64
  have hctz := ctzAux_spec x 0 64
  have hl : Lands (.clz d a) s d (BitVec.ofNat 64 (clzAux x 64)) 1 := alu2_lands hi (exec_clz ..) rfl
  have ht : Lands (.ctz d a) s d (BitVec.ofNat 64 (ctzAux x 0 64)) 1 := alu2_lands hi (exec_ctz ..) rfl
  generalize clzAux x 64 = n at hclz hl
  generalize ctzAux x 0 64 = m at hctz ht
  obtain ⟨hn, hupper, hone⟩ := hclz
  obtain ⟨hm, hlower, hlow⟩ := hctz
  simp only [Nat.zero_add] at hlower hlow
  exact ⟨⟨n, hl, hn, toNat_lt_of_upper_clear hupper, hone⟩, ⟨m, ht, hm, hlower, hlow⟩,
    alu2_lands hi (exec_popc ..) (congrArg (BitVec.ofNat 64) (popAux_eq_countP x 64))⟩

theorem scalarImmediateForms : Rules.ScalarImmediateForms := by
  intro s d a imm sh li hi x y n
  have hd : Issues lgS [d] s := hi.subset (by simp)
  refine ⟨alu2_lands hi (exec_addi ..) rfl, alu2_lands hi (exec_andi ..) rfl, alu2_lands hi (exec_ori ..) rfl,
    alu2_lands hi (exec_xori ..) rfl, alu2_lands hi (exec_slti ..) ?_, alu2_lands hi (exec_sltiu ..) (boolW_ult x y),
    alu2_lands hi (exec_muli ..) ?_, alu2_lands hi (exec_slli ..) (shiftLeft_eq_ofNat x n),
    alu2_lands hi (exec_srli ..) (ushiftRight_eq_ofNat x n), alu2_lands hi (exec_srai ..) (sshiftRight_eq_ofInt x n),
    alu2_lands hi (exec_rori ..) (rotateRight_of_lt x sh.isLt), runs_ok hd (exec_li ..) rfl, ?_, ?_⟩
  · rw [← toInt_immW]
    exact boolW_slt x (immW imm)
  · rw [← toInt_immW]
    exact mul_eq_ofInt x (immW imm)
  · rw [BitVec.ofNat_toNat]
    exact runs_ok hd (exec_li ..) rfl
  · rw [← long_append_low]
    exact runs_ok hd (exec_lih ..) rfl

end Sys2Proof.Machine

open Sys2Proof Sys2Proof.Machine

/-- Settles O1: each form is its function of two registers, which is the arithmetic of Table 2. -/
theorem scalarRegisterForms : Obligations.ScalarRegisterForms := by
  intro s d a b hi x y sh
  have hsh : sh < 64 := Nat.mod_lt _ (by decide)
  exact ⟨alu3_lands hi (exec_add ..) rfl, alu3_lands hi (exec_sub ..) rfl, alu3_lands hi (exec_mul ..) (mul_eq_ofInt x y),
    alu3_lands hi (exec_mulh ..) (mulhW_eq_ofInt x y), alu3_lands hi (exec_mulhu ..) (mulhuW_eq_ofNat x y),
    alu3_lands hi (exec_div ..) (sdivW_eq_tdiv x y), alu3_lands hi (exec_divu ..) (udivW_eq_div x y),
    alu3_lands hi (exec_rem ..) (sremW_eq_tmod x y), alu3_lands hi (exec_remu ..) (uremW_eq_mod x y),
    alu3_lands hi (exec_and ..) rfl, alu3_lands hi (exec_or ..) rfl, alu3_lands hi (exec_xor ..) rfl,
    alu3_lands hi (exec_andn ..) rfl, alu3_lands hi (exec_sll ..) (shiftLeft_eq_ofNat x sh),
    alu3_lands hi (exec_srl ..) (ushiftRight_eq_ofNat x sh), alu3_lands hi (exec_sra ..) (sshiftRight_eq_ofInt x sh),
    alu3_lands hi (exec_ror ..) (rotateRight_of_lt x hsh), alu3_lands hi (exec_min ..) (ite_slt_eq_min x y),
    alu3_lands hi (exec_max ..) (ite_slt_eq_max x y), alu3_lands hi (exec_minu ..) (ite_ult_eq_min x y),
    alu3_lands hi (exec_maxu ..) (ite_ult_eq_max x y), alu3_lands hi (exec_slt ..) (boolW_slt x y),
    alu3_lands hi (exec_sltu ..) (boolW_ult x y), alu3_lands hi (exec_tamk ..) (tensor_append_index x y)⟩

/-- Settles O2: bit counts by induction over the bits, immediate forms by the function of their register form. -/
theorem scalarComputes : Obligations.ScalarComputes := ⟨scalarBitCounts, scalarImmediateForms⟩

end

