-- ==== Sys2Proof/Proofs/Transfers.lean ====
section
/-! SUPPORT. Transfers of control, loops, branches to a join, and the words that raise a trap and return from one (R157, R198 to
R202, R215, R354, R449). -/

namespace Sys2Proof.Machine

theorem runs_goto {i : Instr} {lg : Legal} {regs : List (BitVec 6)} {body : Ctx → State → Res} {s t : State} {y : Nat}
    (hi : Issues lg regs s) (he : exec i s = word lg regs body s) (hb : body (issueCtx s) (moved s) = .goto t y) :
    Runs i s (goneTo s t y) := by
  rw [Runs, he, word_of_issues hi, hb]
  rfl

/-! ## Targets (R157) -/

/-- The distances of LOOP and BRT are shorter; the target is the same sum. -/
theorem target_signExtend_short {c : Ctx} {off : BitVec 12} {y : Nat} (hy : (y : Int) = c.pc + 8 * off.toInt)
    (hlt : y < 2 ^ 64) : target c (off.signExtend 64) = y := by
  have hint : (off.signExtend 32).toInt = off.toInt := BitVec.toInt_signExtend_of_le (by decide)
  have hword : off.signExtend 64 = (off.signExtend 32).signExtend 64 := congrArg (BitVec.ofInt 64) hint.symm
  rw [← hint] at hy
  rw [hword, target_signExtend hy hlt]

/-- What lies in an image is read from the boot store and the ROM alone. -/
theorem inImage_congr {s t : State} (hb : t.bslots = s.bslots) (hr : t.rom = s.rom) (c : Ctx) (pc : Nat) :
    inImage t c pc = inImage s c pc := by
  simp only [inImage, coreBody, hb, hr]

theorem inImage_onStream (s : State) (c : Ctx) (f : Stream → Stream) (pc : Nat) :
    inImage (onStream s c f) c pc = inImage s c pc := by
  unfold onStream setStreamAt
  split <;> exact inImage_congr rfl rfl c pc

theorem inImage_landA (s : State) (c : Ctx) (r : BitVec 6) (v : Word) (n pc : Nat) :
    inImage (landA s c r v n) c pc = inImage s c pc := by
  unfold landA
  split
  · split
    · rfl
    · exact inImage_congr rfl rfl c pc
  · unfold writeA
    split
    · rfl
    · split <;> exact inImage_congr rfl rfl c pc

/-! ## Conditions (R164) -/

theorem bv3_cases (x : BitVec 3) : x = 0 ∨ x = 1 ∨ x = 2 ∨ x = 3 ∨ x = 4 ∨ x = 5 ∨ x = 6 ∨ x = 7 := by
  revert x
  decide

theorem condBr_iff (cnd : BitVec 3) (x z : Word) : condBr cnd.toNat x z = true ↔
    (cnd = 0 ∧ x = z) ∨ (cnd = 1 ∧ x ≠ z) ∨ (cnd = 2 ∧ x.toInt < z.toInt) ∨ (cnd = 3 ∧ z.toInt ≤ x.toInt)
      ∨ (cnd = 4 ∧ x.toNat < z.toNat) ∨ (cnd = 5 ∧ z.toNat ≤ x.toNat) := by
  rcases bv3_cases cnd with rfl | rfl | rfl | rfl | rfl | rfl | rfl | rfl <;>
    simp [condBr, BitVec.slt_eq_decide, BitVec.ult_eq_decide]

theorem condBrt_iff (cnd : BitVec 3) (x : Word) : condBrt cnd.toNat x = true ↔
    (cnd = 0 ∧ x.toInt = 0) ∨ (cnd = 1 ∧ x.toInt ≠ 0) ∨ (cnd = 2 ∧ x.toInt < 0) ∨ (cnd = 3 ∧ 0 ≤ x.toInt)
      ∨ (cnd = 4 ∧ 0 < x.toInt) ∨ (cnd = 5 ∧ x.toInt ≤ 0) := by
  have hzero : x = 0#64 ↔ x.toInt = 0 := BitVec.toInt_inj.symm
  rcases bv3_cases cnd with rfl | rfl | rfl | rfl | rfl | rfl | rfl | rfl <;>
    simp [condBrt, BitVec.slt_eq_decide, hzero]

/-! ## Transfers (R198 to R200) -/

theorem controlTransfers : Rules.ControlTransfers := by
  intro s a b cnd off y c hin hlt
  refine ⟨fun hy => ⟨fun hi => ?_, fun hi => ?_, fun hi => ⟨fun ht => ?_, fun hc ht => ?_⟩⟩,
    fun hi => ⟨fun hc hv => ?_, fun v hc hr hv => ?_⟩⟩
  · refine runs_goto hi rfl ?_
    rw [target_signExtend hy hlt]
    exact jumpTo_inImage hin
  · refine runs_goto hi rfl ?_
    rw [target_signExtend hy hlt]
    exact jumpTo_inImage ((inImage_landA ..).trans hin)
  · have hcond : condBr cnd.toNat (src s a) (src s b) = true := (condBr_iff ..).mpr ht
    have hlow : ¬6 ≤ cnd.toNat := by
      rcases ht with ⟨rfl, _⟩ | ⟨rfl, _⟩ | ⟨rfl, _⟩ | ⟨rfl, _⟩ | ⟨rfl, _⟩ | ⟨rfl, _⟩ <;> decide
    refine runs_goto hi rfl ?_
    rw [if_neg hlow, target_signExtend hy hlt]
    exact (if_pos hcond).trans (jumpTo_inImage hin)
  · refine runs_ok hi rfl ?_
    rw [if_neg (Nat.not_le.mpr hc)]
    exact if_neg (mt (condBr_iff cnd (src s a) (src s b)).mp ht)
  · refine runs_goto hi rfl ?_
    have hret : (issueCtx s).timed = false := hc
    simp only [hret, Bool.false_eq_true, if_false]
    exact (congrArg (jumpTo (moved s) (issueCtx s)) hv).trans (jumpTo_inImage hin)
  · refine runs_goto hi rfl ?_
    have hret : (issueCtx s).st.retAt (issueCtx s).t (issueCtx s).pc = some v := hr
    have htimed : (issueCtx s).timed = true := hc
    simp only [htimed, hret, if_true, Option.getD_some, hv]
    exact jumpTo_inImage hin

/-! ## Loops (R202) -/

theorem loopCounts : Rules.LoopCounts := by
  intro s lvl off n y hi hlvl hn c ctr left
  have hok : ¬(4 ≤ lvl.toNat ∨ n = 0) := fun hbad => hbad.elim (Nat.not_le.mpr hlvl) hn
  refine ⟨fun hleft hy hlt hin => ?_, fun hleft => ?_⟩
  · refine runs_goto hi rfl ?_
    have hpass : 0 < (if ctr.act then ctr.cnt else n.toNat - 1) := hleft
    rw [if_neg hok, target_signExtend_short hy hlt]
    exact (if_pos hpass).trans (jumpTo_inImage ((inImage_onStream ..).trans hin))
  · refine runs_ok hi rfl ?_
    have hdone : ¬0 < (if ctr.act then ctr.cnt else n.toNat - 1) := Nat.not_lt.mpr (Nat.le_of_eq hleft)
    rw [if_neg hok]
    exact if_neg hdone

/-! ## Branches to a join (R201) -/

theorem streamAt_moved (s : State) : streamAt (moved s) (issueCtx s).key (issueCtx s).seq =
    (issueCtx s).st.advance (issueNow (touchStart s s.cur) (issueCtx s)) (joinsLeft s) :=
  streamAt_setStreamAt_same ..

theorem branchToJoin : Rules.BranchToJoin := by
  intro s a cnd toff joff jd y j hi c hy hj hylt hjlt hyin hjin hjd hcnd x taken pushed
  have hjoins : (streamAt (moved s) (issueCtx s).key (issueCtx s).seq).joins = joinsLeft s := by rw [streamAt_moved]; rfl
  have hty : target (issueCtx s) (toff.signExtend 64) = y := target_signExtend_short hy hylt
  have htj : target (issueCtx s) (joff.signExtend 64) = j := target_signExtend_short hj hjlt
  have hjin' : inImage (moved s) (issueCtx s) j = true := hjin
  refine ⟨fun hfew => ?_, fun hfull => ?_⟩
  · have hok : ¬(6 ≤ cnd.toNat ∨ jd = 0 ∨ 4 ≤ (joinsLeft s).length ∨ (!inImage (moved s) (issueCtx s) j) = true) := by
      rintro (hbad | hbad | hbad | hbad)
      · exact Nat.not_le.mpr hcnd hbad
      · exact hjd hbad
      · exact Nat.not_le.mpr hfew hbad
      · simp [hjin'] at hbad
    refine ⟨fun ht => runs_goto hi rfl ?_, fun ht => runs_ok hi rfl ?_⟩
    · simp only [hjoins, hty, htj, if_neg hok]
      exact (if_pos ((condBrt_iff ..).mpr ht)).trans (jumpTo_inImage ((inImage_onStream ..).trans hyin))
    · simp only [hjoins, hty, htj, if_neg hok]
      exact if_neg (mt (condBrt_iff ..).mp ht)
  · refine runs_fault hi rfl ?_
    simp only [hjoins, htj]
    exact if_pos (.inr (.inr (.inl hfull)))

/-! ## Traps (R215, R354, R449) -/

/-- A core that takes a fault outside its handler enters the handler (R449). -/
theorem coreAt_takeFault {s : State} {w : Who} (f : Flt) (h : isCore w.key = true)
    (hm : (coreAt s (w.key - coreKey)).mcause.getLsbD 63 = false) :
    coreAt (takeFault s w f) (w.key - coreKey) =
      { coreAt s (w.key - coreKey) with
        mepc := BitVec.ofNat 64 w.pc,
        mcause := BitVec.ofNat 64 (f.code + f.arg.toNat * 65536) ||| 0x8000000000000000,
        st := { (coreAt s (w.key - coreKey)).st with pc := (coreAt s (w.key - coreKey)).mtvec.toNat, since := none } } := by
  rw [takeFault_core s w f h hm, coreAt_setCore, if_pos rfl]

theorem returnFault_core {s : State} {key : Nat} (q : Seq) (hk : isCore key = true)
    (hm : (coreAt s (key - coreKey)).mcause.getLsbD 63 = true) :
    returnFault s key q = some (setCore s (key - coreKey)
      { coreAt s (key - coreKey) with
        mcause := (coreAt s (key - coreKey)).mcause &&& BitVec.ofNat 64 (2 ^ 63 - 1),
        st := { (coreAt s (key - coreKey)).st with pc := (coreAt s (key - coreKey)).mepc.toNat } }) := by
  simp only [returnFault, hk, hm, if_true]
  rfl

/-- A trap stub of a cell with its stream at its end. -/
def stubEnded (s : State) (key : Nat) (q : Seq) : State :=
  setCell s key ((cellAt s key).setStream q { (cellAt s key).stream q with ended := true })

/-- Whether a trap stub of a region still runs. -/
def stubsLeft (s : State) (h : Nat) : Bool :=
  (regCells (regAt s h)).any fun k => (cellAt s k).kept.isSome && !(cellAt s k).ss.ended

theorem returnFault_stub {s : State} {key : Nat} {q : Seq} (hk : isCore key = false)
    (hstub : ((cellAt s key).stream q).stub = .trap) :
    returnFault s key q = some (if stubsLeft (stubEnded s key q) (cellAt s key).reg then stubEnded s key q
      else resumeAfter (stubEnded s key q) (cellAt s key).reg (s.per + (256 - s.frame) + 64)) := by
  rw [returnFault, if_neg (ne_true_of_eq_false hk)]
  refine (if_pos hstub).trans ?_
  exact (apply_ite some (stubsLeft (stubEnded s key q) (cellAt s key).reg = true) _ _).symm

theorem rett_returns {s t : State} (hi : Issues { spaces := [.s], core := true, rebuild := false } [] s)
    (h : returnFault (moved s) (issueCtx s).key (issueCtx s).seq = some t) : Runs .rett s t := by
  refine runs_ok hi rfl ?_
  rw [h]

theorem regAt_resumeAfter_resP (s : State) (h p : Nat) : (regAt (resumeAfter s h p) h).resP = some p := by
  simp [resumeAfter]

/-- A sum of a code and the handler mark of bit 63 is their union. -/
theorem ofNat_or_handlerMark {n : Nat} (h : n < 2 ^ 63) :
    BitVec.ofNat 64 n ||| 0x8000000000000000 = BitVec.ofNat 64 (n + 2 ^ 63) := by
  apply BitVec.eq_of_toNat_eq
  have hor : 2 ^ 63 + n = 2 ^ 63 ||| n := by
    simpa using (Nat.shiftLeft_add_eq_or_of_lt h 1)
  rw [BitVec.toNat_or, BitVec.toNat_ofNat, BitVec.toNat_ofNat, Nat.mod_eq_of_lt (by omega), Nat.mod_eq_of_lt (by omega),
    Nat.or_comm, Nat.add_comm, hor]
  rfl

end Sys2Proof.Machine

open Sys2Proof Sys2Proof.Machine

/-- Settles O3: the target lies in the image, and each word goes there or falls through by its own condition. -/
theorem controlTransfersComplete : Obligations.ControlTransfersComplete := ⟨controlTransfers, loopCounts, branchToJoin⟩

/-- Settles O4: TRAP is the taking of a fault, and RETT the return from one, by the kind of the agent. -/
theorem trapAndReturn : Obligations.TrapAndReturn := by
  intro s code c n m
  refine ⟨fun hi => ?_, fun hi => ⟨fun hk hm => ?_, fun hk hstub => ?_⟩⟩
  · have htrap : Runs (.trap code) s (takeFault m (runner s) { code := 0x20, arg := code }) := runs_fault hi rfl rfl
    refine ⟨htrap, fun hk hm => ?_⟩
    have hcore := coreAt_takeFault (w := runner s) { code := 0x20, arg := code } hk hm
    have hcode : 0x20 + code.toNat * 65536 < 2 ^ 63 := by omega
    exact ⟨_, htrap, congrArg Core.mepc hcore, congrArg (fun x => x.st.pc) hcore,
      (congrArg Core.mcause hcore).trans (ofNat_or_handlerMark hcode)⟩
  · have hcore : ∀ x, coreAt (setCore m n x) n = x := fun x => by rw [coreAt_setCore, if_pos rfl]
    exact ⟨_, rett_returns hi (returnFault_core c.seq hk hm), congrArg (fun x => x.st.pc) (hcore _), congrArg Core.mcause (hcore _)⟩
  · intro e r p more
    have hret := returnFault_stub hk hstub
    refine ⟨fun hmore => rett_returns hi (hret.trans (congrArg some (if_pos hmore))), fun hmore => ⟨?_, regAt_resumeAfter_resP ..⟩⟩
    exact rett_returns hi (hret.trans (congrArg some (if_neg (ne_true_of_eq_false hmore))))

end

