-- ==== Sys2Proof/Proofs/ScratchpadWords.lean ====
section
/-! SUPPORT. The coordinates of a tensor address, the fields of a descriptor, and the scalar accesses to a scratchpad (R83 to R85,
R108, R189 to R192, R364). -/

namespace Sys2Proof.Machine

/-! ## Coordinates (R189, R190) -/

/-- The index of an address wraps at 2 ^ 48. -/
theorem taddr_wrapped (tens : Nat) (i : Int) :
    taddr tens (i % (2 ^ 48 : Nat)).toNat = BitVec.ofNat 64 (tens * 2 ^ 48 + (i % 2 ^ 48).toNat) := by
  have hwrap : (i % (2 ^ 48 : Nat)).toNat % 2 ^ 48 = (i % 2 ^ 48).toNat := by omega
  rw [taddr, hwrap]

theorem tcoord_lands {s : State} {d a b : BitVec 6} {dim : BitVec 3} {ds : Desc}
    (hi : Issues { spaces := [.s], core := true } [d, a, b] s) (hdim : dim.toNat < 5)
    (hds : launchDesc (moved s) (issueCtx s).key (tidOf (src s a)) = some ds) :
    Lands (.tcoord d a b dim) s d
      (BitVec.ofNat 64 (tidOf (src s a) * 2 ^ 48
        + (((idxOf (src s a) : Int) + (src s b).toInt * (prod (ds.ext.take dim.toNat) : Nat)) % 2 ^ 48).toNat)) 3 := by
  refine runs_ok hi rfl ?_
  rw [src] at hds
  simp only [if_neg (Nat.not_le.mpr hdim), hds, taddr_wrapped]
  rfl

theorem tdim_lands {s : State} {d a : BitVec 6} {sel : BitVec 7} {ds : Desc}
    (hi : Issues { spaces := [.s], core := true } [d, a] s) (hsel : tdimSel sel = true)
    (hds : launchDesc (moved s) (issueCtx s).key (tidOf (src s a)) = some ds) :
    Lands (.tdim d a sel) s d (BitVec.ofNat 64 (descField ds sel.toNat)) 3 := by
  refine runs_ok hi rfl ?_
  rw [src] at hds
  simp only [hsel, Bool.not_true, Bool.false_eq_true, if_false, hds]

theorem descField_ext (ds : Desc) {k : Nat} (h : k < 5) : descField ds k = ds.ext.getD k 0 := if_pos h

theorem descField_tile (ds : Desc) {k : Nat} (h : k < 5) : descField ds (8 + k) = ds.tile.getD k 0 := by
  unfold descField
  rw [if_neg (by omega), if_pos (by omega), Nat.add_sub_cancel_left]

/-! ## Accesses to a scratchpad (R83, R84, R108, R191, R192, R364) -/

/-- A word whose access takes place: the watch is raised after it (R364). -/
theorem runs_watched {i : Instr} {lg : Legal} {regs : List (BitVec 6)} {body : Ctx → State → Res} {s t : State} {wr : Bool}
    {ea : Word} {addrs : List Word} (hi : Issues lg regs s) (he : exec i s = word lg regs body s)
    (hb : body (issueCtx s) (moved s) = watched (moved s) (issueCtx s) wr ea addrs (.ok t)) :
    Runs i s (if watchHit (moved s) (issueCtx s).key wr addrs then takeFault t (runner s) { code := 0x22, taddr := ea } else t) := by
  split
  · next hw => exact runs_okFault hi he (hb.trans (if_pos hw))
  · next hw => exact runs_ok hi he (hb.trans (if_neg hw))

section
variable {s : State} {c : Ctx} {base : Word} {imm : BitVec 32} {n o : Nat} (ht : tidOf (scalarEa base imm) = 0xFFFF)
include ht

section
variable {sub : BitVec 3} (hsub : sub ≠ 7) (hn : n = 2 ^ (sub.toNat % 4)) (ho : spOwner s c.key (scalarEa base imm) n = some o)
include hsub hn ho

theorem ldBody_spadBad (d : BitVec 6) (hb : spadBad s o (spOff (scalarEa base imm)) n = true) :
    ldBody false d sub imm base c s =
      accFault c cMemErr (scalarEa base imm) base 0 0 (if o = c.key then 4 else 10 + hops c.key o) := by
  subst hn
  simp only [ldBody, hsub, ht, ho, hb, if_false, if_true, Bool.false_eq_true]

theorem ldBody_spad (d : BitVec 6) (hb : spadBad s o (spOff (scalarEa base imm)) n = false) :
    ldBody false d sub imm base c s =
      watched s c false (scalarEa base imm) (accessAddrs s 0 (scalarEa base imm) n)
        (.ok (landA s c d
          (if sub.toNat < 4 then BitVec.ofNat 64 (ofBytes (spadBytes s c.key o (spOff (scalarEa base imm)) n))
            else sextNat (8 * n) (ofBytes (spadBytes s c.key o (spOff (scalarEa base imm)) n)))
          (if o = c.key then 4 else 10 + hops c.key o))) := by
  subst hn
  simp only [ldBody, hsub, ht, ho, hb, if_false, if_true, Bool.false_eq_true, getLsbD_sx, decide_eq_true_eq, ← Nat.not_lt, ite_not]

end

section
variable {sz : BitVec 2} (hn : n = 2 ^ sz.toNat) (data : Word)
include hn

theorem stBody_spadNone (ho : spOwner s c.key (scalarEa base imm) n = none) :
    stBody false sz imm base data c s = accFault c cAddr (scalarEa base imm) base data 0 1 := by
  subst hn
  simp only [stBody, ht, ho, if_false, if_true, Bool.false_eq_true]

section
variable (ho : spOwner s c.key (scalarEa base imm) n = some o)
  (hb : spadMergeBad s o (spOff (scalarEa base imm)) n = false)
include ho hb

theorem stBody_spadStores {t : State}
    (hs : storeAt (spadHeal s o (spOff (scalarEa base imm)) n) c o (spOff (scalarEa base imm)) (toBytes n data.toNat) 1 = some t) :
    stBody false sz imm base data c s =
      watched s c true (scalarEa base imm) (accessAddrs s 0 (scalarEa base imm) n) (.ok t) := by
  subst hn
  simp only [stBody, ht, ho, hb, hs, if_false, if_true, Bool.false_eq_true]

theorem stBody_spadFull
    (hs : storeAt (spadHeal s o (spOff (scalarEa base imm)) n) c o (spOff (scalarEa base imm)) (toBytes n data.toNat) 1 = none) :
    stBody false sz imm base data c s = .fault { code := cPhaseOv, taddr := scalarEa base imm } := by
  subst hn
  simp only [stBody, ht, ho, hb, hs, if_false, if_true, Bool.false_eq_true]
  rfl

end

end

end

end Sys2Proof.Machine

open Sys2Proof Sys2Proof.Machine

/-- Settles O6: TCOORD by the stride of the dimension, TDIM by the selector. -/
theorem tensorCoordinates : Obligations.TensorCoordinates := by
  intro s d a b dim sel ds x hds
  refine ⟨fun hi hdim => tcoord_lands hi hdim hds, fun hi => ?_⟩
  have hland : ∀ n, sel.toNat = n → tdimSel sel = true → Lands (.tdim d a sel) s d (BitVec.ofNat 64 (descField ds n)) 3 :=
    fun n hn hsel => hn ▸ tdim_lands hi hsel hds
  refine ⟨fun k hk h5 => ?_, fun k hk h5 => ?_, fun h => ?_, fun h => ?_, fun h => ?_, fun h => ?_, fun h => ?_⟩
  · rw [← descField_ext ds h5]
    exact hland k hk (by simp [tdimSel]; omega)
  · rw [← descField_tile ds h5]
    exact hland (8 + k) hk (by simp [tdimSel]; omega)
  · exact hland 16 (congrArg _ h) (by rw [h]; rfl)
  · exact hland 17 (congrArg _ h) (by rw [h]; rfl)
  · exact hland 18 (congrArg _ h) (by rw [h]; rfl)
  · exact hland 19 (congrArg _ h) (by rw [h]; rfl)
  · exact hland 20 (congrArg _ h) (by rw [h]; rfl)

/-- Settles O7: the access takes place where the cell may access the scratchpad and its bits are right; then the watch. -/
theorem scratchpadLoadStore : Obligations.ScratchpadLoadStore := by
  intro s d a sub sz imm o hi c m ea ht
  refine ⟨fun n hsub hn ho hb => ?_, fun n hsub hn ho hb => ?_, fun n t hn ho hb hs => ?_, fun n hn ho => ?_,
    fun n hn ho hb hs => ?_⟩
  · exact runs_fault hi rfl (ldBody_spadBad ht hsub hn ho d hb)
  · exact runs_watched hi rfl (ldBody_spad ht hsub hn ho d hb)
  · exact runs_watched hi rfl (stBody_spadStores ht hn (src s d) ho hb hs)
  · exact runs_fault hi rfl (stBody_spadNone ht hn (src s d) ho)
  · exact runs_fault hi rfl (stBody_spadFull ht hn (src s d) ho hb hs)

end

