-- ==== Sys2Proof/Proofs/WordFields.lean ====
section
/-! SUPPORT. The fields of a word: what each reads once one of them is replaced (R25, R351). -/

namespace Sys2Proof.Machine

section
variable (w : Word) {hi lo : Nat} (v : Nat)

/-- A word with a field replaced: the bits above the field, the new field, and the bits below. -/
theorem putBits_eq_ofNat (h : lo ≤ hi) : putBits w hi lo v = BitVec.ofNat 64
    (2 ^ lo * (2 ^ (hi + 1 - lo) * (w.toNat / 2 ^ (hi + 1)) + v % 2 ^ (hi + 1 - lo)) + w.toNat % 2 ^ lo) := by
  have hpow : 2 ^ (hi + 1) = 2 ^ lo * 2 ^ (hi + 1 - lo) := by rw [← Nat.pow_add]; congr 1; omega
  have hlow := Nat.div_add_mod w.toNat (2 ^ lo)
  have hmid := Nat.div_add_mod (w.toNat / 2 ^ lo) (2 ^ (hi + 1 - lo))
  rw [Nat.div_div_eq_div_mul, ← hpow] at hmid
  have hsum : w.toNat - bits w hi lo * 2 ^ lo = 2 ^ lo * (2 ^ (hi + 1 - lo) * (w.toNat / 2 ^ (hi + 1))) + w.toNat % 2 ^ lo := by
    rw [← hmid, Nat.mul_add] at hlow
    rw [bits, Nat.mul_comm _ (2 ^ lo)]
    omega
  rw [putBits, hsum, Nat.mul_add, Nat.mul_comm (v % _)]
  congr 1
  omega

theorem getLsbD_putBits (h : lo ≤ hi) (hhi : hi < 64) (i : Nat) :
    (putBits w hi lo v).getLsbD i = if lo ≤ i ∧ i ≤ hi then v.testBit (i - lo) else w.getLsbD i := by
  rw [putBits_eq_ofNat w v h, BitVec.getLsbD_ofNat, Nat.testBit_two_pow_mul_add _ (Nat.mod_lt _ (Nat.two_pow_pos _)),
    Nat.testBit_two_pow_mul_add _ (Nat.mod_lt _ (Nat.two_pow_pos _)), Nat.testBit_mod_two_pow, Nat.testBit_mod_two_pow,
    Nat.testBit_div_two_pow]
  by_cases h64 : i < 64
  · by_cases h1 : i < lo
    · simp [h1, h64, Nat.not_le.mpr h1, BitVec.getLsbD]
    · by_cases h2 : i ≤ hi
      · simp [h1, h2, h64, Nat.not_lt.mp h1, show i - lo < hi + 1 - lo by omega]
      · simp [h1, h2, h64, show ¬ i - lo < hi + 1 - lo by omega, show i - lo - (hi + 1 - lo) + (hi + 1) = i by omega, BitVec.getLsbD]
  · simp [h64, show ¬(lo ≤ i ∧ i ≤ hi) by omega, BitVec.getLsbD_of_ge w i (Nat.not_lt.mp h64)]

theorem testBit_bits (i : Nat) : (bits w hi lo).testBit i = (decide (i < hi + 1 - lo) && w.getLsbD (i + lo)) := by
  rw [bits, Nat.testBit_mod_two_pow, Nat.testBit_div_two_pow]
  rfl

/-- A replaced field reads as written, up to its width. -/
theorem bits_putBits_same (h : lo ≤ hi) (hhi : hi < 64) : bits (putBits w hi lo v) hi lo = v % 2 ^ (hi + 1 - lo) := by
  apply Nat.eq_of_testBit_eq
  intro i
  rw [testBit_bits, getLsbD_putBits w v h hhi, Nat.testBit_mod_two_pow]
  by_cases hi' : i < hi + 1 - lo
  · simp [hi', show i + lo ≤ hi by omega]
  · simp [hi']

/-- A field that does not meet the replaced one reads as before. -/
theorem bits_putBits_other (h : lo ≤ hi) (hhi : hi < 64) {hi' lo' : Nat} (hd : hi' < lo ∨ hi < lo') :
    bits (putBits w hi lo v) hi' lo' = bits w hi' lo' := by
  apply Nat.eq_of_testBit_eq
  intro i
  rw [testBit_bits, testBit_bits, getLsbD_putBits w v h hhi]
  by_cases hin : i < hi' + 1 - lo'
  · rw [if_neg (by omega)]
  · simp [hin]

end

end Sys2Proof.Machine
end

