-- ==== Sys2Proof/Proofs/PowerBoot.lean ====
section
/-! SUPPORT. Power, boot, the restarts of cores and the training of modules: what each of these events leaves unchanged (R218, R449,
R452 to R454, R459, R461, R462, R486, R487). -/

namespace Sys2Proof.Machine

/-! ## Power, levels and time (R218, R449, R459, R461, R462) -/

theorem relockEnd_over {s : State} {t : Nat} (hp : s.pauseT = some t) (ht : t ≤ s.tick) :
    Runs .relockEnd s { s with pauseT := none, rails := s.railsT } := by
  simp only [Runs, exec_relockEnd, execRelockEnd, hp, if_pos ht]

theorem thermalTrip_of_nbrs {s : State} {site : BitVec 8} {i j : Nat} (ti tj : BitVec 10) (hs : site.toNat < 20)
    (hn : (sensorNbrs i).contains j = true) :
    Runs (.thermalTrip site (i, ti) (j, tj)) s (if tripHot ti && tripHot tj then powerOff s else s) := by
  have hok : siteOk site.toNat = true := by simp [siteOk, hs]
  have hne : site ≠ 0xFF := fun h => absurd (h ▸ hs) (by decide)
  simp only [Runs, exec_thermalTrip, execThermalTrip, hok, hne, hn, ne_eq, not_false_eq_true, decide_true, Bool.true_and]

theorem clockStretch_counts (s : State) :
    ∃ t, Runs .clockStretch s t ∧ t.stretch = (if s.stretch = 0xFFFFFFFF then s.stretch else s.stretch + 1)
      ∧ t.per = s.per ∧ t.mem = s.mem ∧ s.tick ≤ t.tick := by
  let u : State := { (freeNum s).2 with stretch := if s.stretch = 0xFFFFFFFF then s.stretch else s.stretch + 1 }
  have hticks : ∀ l : List Nat, let t := l.foldl (fun s _ => refTick s) u
      t.stretch = u.stretch ∧ t.per = s.per ∧ t.mem = s.mem ∧ s.tick ≤ t.tick := by
    refine fun l => foldl_keeps (P := fun t : State => t.stretch = u.stretch ∧ t.per = s.per ∧ t.mem = s.mem ∧ s.tick ≤ t.tick)
      (fun t _ h => ?_) l u ⟨rfl, rfl, rfl, Nat.le_refl _⟩
    obtain ⟨hstretch, hper, hmem, htick⟩ := h
    exact ⟨hstretch, hper, hmem, htick.trans (Nat.le_succ t.tick)⟩
  exact ⟨_, rfl, hticks _⟩

/-! ## Cores (R449, R486, R487) -/

theorem coreTrap_enters {s : State} {core : Nat} (code arg : BitVec 16) (hc : core < 9) (hh : (coreAt s core).held = false)
    (hm : (coreAt s core).mcause.getLsbD 63 = false) :
    Runs (.coreTrap core code arg) s (setCore s core
      { coreAt s core with
        mepc := BitVec.ofNat 64 (coreAt s core).st.pc,
        mcause := BitVec.ofNat 64 (code.toNat + arg.toNat * 65536) ||| 0x8000000000000000,
        st := { (coreAt s core).st with pc := (coreAt s core).mtvec.toNat, since := none } }) := by
  have hlive : ¬(9 ≤ core ∨ (coreAt s core).held = true) := by simp [hh, hc]
  simp only [Runs, exec_coreTrap, execCoreTrap, if_neg hlive, coreFault, hm, Bool.false_eq_true, if_false]

/-- One core of those that restart is held, and no answer reaches it. -/
def holdCore (s : State) (n : Nat) : State :=
  setCore (muteCore s n) n { coreAt (muteCore s n) n with held := true, rst := 0 }

theorem holdCore_held (s : State) (n m : Nat) : (coreAt (holdCore s n) m).held = (decide (m = n) || (coreAt s m).held) := by
  have hmute : (coreAt (muteCore s n) m).held = (coreAt s m).held := by
    rw [muteCore, coreAt_setCore]
    split
    · next h => rw [h]
    · rfl
  by_cases h : m = n
  · simp [holdCore, h]
  · simp [holdCore, h, hmute]

theorem foldl_holdCore_held (l : List Nat) (s : State) {n : Nat} (h : n ∈ l ∨ (coreAt s n).held = true) :
    (coreAt (l.foldl holdCore s) n).held = true := by
  induction l generalizing s with
  | nil => exact h.resolve_left List.not_mem_nil
  | cons m l ih =>
    refine ih _ ?_
    rw [holdCore_held]
    rcases h with h | h
    · rcases List.mem_cons.mp h with rfl | h
      · exact .inr (by simp)
      · exact .inl h
    · exact .inr (by simp [h])

theorem restartCores_holds (s : State) (slot : Nat) :
    (restartCores s slot).rstT = some s.tick ∧ (restartCores s slot).pref = s.pref
      ∧ ∀ n < 7, (coreAt (restartCores s slot) n).held = true := by
  have hrest : ((List.range 7).foldl holdCore s).tick = s.tick ∧ ((List.range 7).foldl holdCore s).pref = s.pref := by
    refine foldl_keeps (P := fun t : State => t.tick = s.tick ∧ t.pref = s.pref) (fun t n h => ?_) _ _ ⟨rfl, rfl⟩
    exact h
  have hheld : ∀ n < 7, (coreAt ((List.range 7).foldl holdCore s) n).held = true := fun n hn =>
    foldl_holdCore_held _ s (.inl (List.mem_range.mpr hn))
  have heq : restartCores s slot = (let u := (List.range 7).foldl holdCore s
      measImage { u with rstT := some u.tick, watchT := some u.tick } 1 (some slot)) := rfl
  rw [heq]
  generalize (List.range 7).foldl holdCore s = u at hrest hheld
  exact ⟨congrArg some hrest.1, hrest.2, hheld⟩

theorem coreRestart_restarts {s : State} {i : Nat} (hp : bootPick s 2 = some i) (hb : s.boot = false) (hr : s.recovery = false) :
    Runs .coreRestart s (restartCores s i) := by
  simp [Runs, execCoreRestart, hp, hb, hr]

theorem harbourRollback_restarts {s : State} (hw : watchTripped s = true)
    (hv : verifies (slotBytes s (bootSlot 2 (1 - sget 0 s.pref 2 % 2))) 2 = true) :
    Runs .harbourRollback s (restartCores { s with pref := sset s.pref 2 (1 - sget 0 s.pref 2 % 2), fresh := true }
      (bootSlot 2 (1 - sget 0 s.pref 2 % 2))) := by
  simp only [Runs, exec_harbourRollback, execHarbourRollback, hw, hv, Bool.not_true, Bool.false_eq_true, if_false, if_true]

/-! ## Training (R453) -/

theorem moduleAt_trainedModule {s : State} {site m : Nat} (ok : Bool) :
    (moduleAt (trainedModule s site m ok) site m).trn = ok ∧ (moduleAt (trainedModule s site m ok) site m).up = ok := by
  unfold trainedModule
  dsimp only
  split
  · simp [moduleAt, setPreg]
  · simp [moduleAt]

theorem moduleTrain_next {s : State} {site : BitVec 8} {m : Nat} (ok : Bool) (hb : s.boot = false) (hr : s.retrain = none)
    (hn : nextModule s = some (site.toNat, m)) (hm : m + 1 < moduleCount site.toNat) (hs : site.toNat < 20) :
    Runs (.moduleTrain site m ok) s (trainedModule s site.toNat m ok) := by
  have hcount : moduleCount site.toNat ≤ 16 := by
    rw [moduleCount, if_pos hs]
    split <;> decide
  have h30 : m ≠ 30 := by omega
  have h31 : ¬31 ≤ m := by omega
  have hlast : m + 1 ≠ moduleCount site.toNat := Nat.ne_of_lt hm
  simp only [Runs, exec_moduleTrain, execModuleTrain, hb, hr, hn, h30, h31, hs, hlast, Bool.false_eq_true, if_false, if_true,
    false_and]

/-! ## Boot (R452, R454) -/

/-- t is s but for what the boot shows and measures: the mix, the privileged registers, the measurements, the level table, the
mode of recovery and the strata marked failed. -/
structure BootFrame (s t : State) : Prop where
  rest : { t with mixa := s.mixa, mixb := s.mixb, mixc := s.mixc, mixd := s.mixd, pregs := s.pregs, meas := s.meas,
                  lvls := s.lvls, recovery := s.recovery, failedS := s.failedS } = s

theorem BootFrame.refl (s : State) : BootFrame s s := ⟨rfl⟩

theorem BootFrame.trans {s t u : State} (h : BootFrame s t) (g : BootFrame t u) : BootFrame s u where
  rest :=
    have e := congrArg
      (fun x : State => { x with mixa := s.mixa, mixb := s.mixb, mixc := s.mixc, mixd := s.mixd, pregs := s.pregs, meas := s.meas,
                                 lvls := s.lvls, recovery := s.recovery, failedS := s.failedS }) g.rest
    e.trans h.rest

/-- What is read from none of those reads as before. -/
theorem BootFrame.get {α : Type} {s t : State} (h : BootFrame s t) (f : State → α)
    (hf : f { t with mixa := s.mixa, mixb := s.mixb, mixc := s.mixc, mixd := s.mixd, pregs := s.pregs, meas := s.meas,
                     lvls := s.lvls, recovery := s.recovery, failedS := s.failedS } = f t) : f t = f s :=
  hf.symm.trans (congrArg f h.rest)

theorem BootFrame.foldl {α : Type} {f : State → α → State} (hf : ∀ s a, BootFrame s (f s a)) (l : List α) (s : State) :
    BootFrame s (l.foldl f s) :=
  foldl_keeps (P := BootFrame s) (fun _ _ h => h.trans (hf ..)) l s (.refl s)

theorem clearStrat_bootFrame (s : State) (i : Nat) : BootFrame s (clearStrat s i) := ⟨rfl⟩

theorem clearSite_bootFrame (s : State) (site : Nat) : BootFrame s (clearSite s site) := by
  unfold clearSite
  split
  · exact ⟨rfl⟩
  · split
    · refine .trans (t := { s with mixb := putBits s.mixb (8 * (site - 12) + 2) (8 * (site - 12) + 1) 0 }) ⟨rfl⟩ ?_
      refine .foldl (fun u k => ?_) _ _
      exact ⟨rfl⟩
    · exact ⟨rfl⟩

theorem slack0Back_bootFrame (s : State) : BootFrame s (slack0Back s) := by
  refine .foldl (fun u p => ?_) _ _
  exact ⟨rfl⟩

theorem measExtend_bootFrame (s : State) (n : Nat) (d : BitVec 512) : BootFrame s (measExtend s n d) := ⟨rfl⟩

theorem measImage_bootFrame (s : State) (n : Nat) (slot : Option Nat) : BootFrame s (measImage s n slot) := measExtend_bootFrame ..

/-- Boot takes the marks of the failed-site list (R454). -/
def bootMarked (s : State) (sites strata : List Nat) : State :=
  strata.foldl clearStrat (sites.foldl clearSite { s with failed := sites, failedS := strata })

theorem bootMarked_bootFrame (s : State) (sites strata : List Nat) :
    BootFrame { s with failed := sites } (bootMarked s sites strata) := by
  have hmark : BootFrame { s with failed := sites } { s with failed := sites, failedS := strata } := ⟨rfl⟩
  exact (hmark.trans (.foldl clearSite_bootFrame _ _)).trans (.foldl clearStrat_bootFrame _ _)

/-- Boot measures the harbour image, or goes into recovery without one (R452). -/
def bootHarbour (s : State) : State :=
  match bootPick s 2 with
  | some i => measImage s 1 (some i)
  | none => { s with recovery := true }

theorem bootHarbour_bootFrame (s : State) : BootFrame s (bootHarbour s) := by
  unfold bootHarbour
  split
  · exact measImage_bootFrame ..
  · exact ⟨rfl⟩

/-- Boot measures the power controller's image, which gives the level table (R452, R458). -/
def bootPower (s : State) : State :=
  match bootPick s 3 with
  | some i =>
    let s := measImage s 2 (some i)
    let l := imgLevels (slotBytes s i)
    if levelsGood l then { s with lvls := l } else s
  | none => s

theorem bootPower_bootFrame (s : State) : BootFrame s (bootPower s) := by
  unfold bootPower
  split
  · next i _ =>
    refine (measImage_bootFrame s 2 (some i)).trans ?_
    dsimp only
    split
    · exact ⟨rfl⟩
    · exact .refl _
  · exact .refl _

/-- Boot measures its images and the failed-site list (R451, R452). -/
def bootMeasured (s : State) : State :=
  let s := bootPower (bootHarbour (measImage s 0 (bootPick s 1)))
  measExtend s 3 (sha512 s.flist)

theorem bootMeasured_bootFrame (s : State) : BootFrame s (bootMeasured s) :=
  (((measImage_bootFrame ..).trans (bootHarbour_bootFrame _)).trans (bootPower_bootFrame _)).trans (measExtend_bootFrame ..)

/-- The end of boot: the cores but the lighthouse's are held, level 0 is set, an ebb is due, and the watch of R487 runs where the
harbour image is fresh. -/
def bootDone (s : State) : State :=
  let t := { bootCores s with
    boot := false, ebbDue := some s.tick, rails := railsOf s 0, railsT := railsOf s 0, clk := varOf s 0 }
  { t with watchT := if freshBoot t then some t.tick else none, fresh := false }

/-- The sites that boot takes as failed: those of an authentic list, otherwise every one but S0 (R454). -/
def bootSites (s : State) : List Nat :=
  if listGood s.flist s.ftag then ((s.flist.filter markOk).map (·.toNat)).filter (· < 0x80) else allSites

/-- The strata that boot takes as failed (R454). -/
def bootStrata (s : State) : List Nat :=
  if listGood s.flist s.ftag then (((s.flist.filter markOk).map (·.toNat)).filter (0x80 ≤ ·)).map (· - 0x80) else []

/-- The steps of boot, in their order. What an image or a list must be to verify plays no part. -/
theorem powerOnReset_eq {s : State} (hb : s.boot = true) : Runs .powerOnReset s
    (bootDone (bootMeasured (bootMarked (slack0Back (packageReset s)) (bootSites (slack0Back (packageReset s)))
      (bootStrata (slack0Back (packageReset s)))))) := by
  have hon : ¬(s.power && !s.boot) = true := by simp [hb]
  rw [Runs, exec_powerOnReset, execPowerOnReset, if_neg hon]
  generalize slack0Back (packageReset s) = v
  unfold bootDone bootMeasured bootPower bootHarbour bootMarked bootSites bootStrata
  generalize listGood = good
  generalize bootPick = pick
  generalize measImage = image
  generalize measExtend = extend
  generalize bootCores = cores
  generalize freshBoot = fresh
  generalize levelsGood = levels
  rfl

theorem powerOnReset_boots {s : State} (hb : s.boot = true) :
    ∃ u, Runs .powerOnReset s (bootDone u) ∧ BootFrame { packageReset s with failed := bootSites s } u := by
  refine ⟨_, powerOnReset_eq hb, ?_⟩
  have hback := slack0Back_bootFrame (packageReset s)
  have hsites : bootSites (slack0Back (packageReset s)) = bootSites s := hback.get bootSites rfl
  rw [hsites]
  refine .trans ⟨?_⟩ ((bootMarked_bootFrame ..).trans (bootMeasured_bootFrame _))
  exact congrArg (fun x : State => { x with failed := bootSites s }) hback.rest

theorem powerAndBoot : Rules.PowerAndBoot := by
  intro s
  refine ⟨⟨rfl, rfl, rfl, rfl, rfl⟩, fun rail hr => congrArg Host.Outcome.next (if_pos hr),
    fun site i j ti tj hs hn => ⟨fun hi hj => ?_, fun hcool => ?_⟩, fun hb => ?_, fun hl => congrArg Host.Outcome.next (if_pos hl),
    fun hf => congrArg Host.Outcome.next (if_pos hf), fun t hp ht => relockEnd_over hp ht, clockStretch_counts s,
    fun core code arg hc hh hm => ⟨_, coreTrap_enters code arg hc hh hm, ?_⟩, fun i hp hb hr => ?_, fun hw => ?_,
    fun site m ok hb hr hn hm hs => ⟨_, moduleTrain_next ok hb hr hn hm hs, moduleAt_trainedModule ok⟩⟩
  · have htrip := thermalTrip_of_nbrs (s := s) ti tj hs hn
    rwa [if_pos (by simp [tripHot, hi, hj])] at htrip
  · have htrip := thermalTrip_of_nbrs (s := s) ti tj hs hn
    rwa [if_neg (by simp only [tripHot, Bool.and_eq_true, decide_eq_true_eq]; omega)] at htrip
  · obtain ⟨u, hrun, hu⟩ := powerOnReset_boots hb
    refine ⟨_, hrun, rfl, hu.get State.bslots rfl, hu.get State.regions rfl, ?_, fun hg => ?_, fun hg => ?_⟩
    · exact congrArg Core.held ((coreAt_setCore ..).trans (if_pos rfl))
    · exact (hu.get State.failed rfl).trans (if_pos hg)
    · exact (hu.get State.failed rfl).trans (if_neg (ne_true_of_eq_false hg))
  · simp only [coreAt_setCore, if_true, and_self]
  · obtain ⟨hrst, _, hheld⟩ := restartCores_holds s i
    exact ⟨_, coreRestart_restarts hp hb hr, hrst, hheld⟩
  · intro o hv
    obtain ⟨hrst, hpref, _⟩ := restartCores_holds { s with pref := sset s.pref 2 o, fresh := true } (bootSlot 2 o)
    refine ⟨_, harbourRollback_restarts hw hv, ?_, hrst⟩
    exact (congrArg (fun l => sget 0 l 2) hpref).trans (sget_sset_same ..)

end Sys2Proof.Machine
end

