-- ==== Sys2Proof/Proofs/FleetEvents.lean ====
section
/-! SUPPORT. The loss of modules and reach links, sensors, walk limits and ebbs: what the mix and the privileged registers show (R27,
R454, R462 to R465, R479 to R483). -/

namespace Sys2Proof.Machine

/-! ## What leaves the mix and the privileged registers -/

/-- The mix and the privileged registers of t are those of s. -/
structure SitesKept (s t : State) : Prop where
  mixa : t.mixa = s.mixa
  mixd : t.mixd = s.mixd
  pregs : t.pregs = s.pregs

theorem SitesKept.refl (s : State) : SitesKept s s := ⟨rfl, rfl, rfl⟩

theorem SitesKept.trans {s t u : State} (h : SitesKept s t) (g : SitesKept t u) : SitesKept s u :=
  ⟨g.mixa.trans h.mixa, g.mixd.trans h.mixd, g.pregs.trans h.pregs⟩

theorem SitesKept.foldl {α : Type} {f : State → α → State} (hf : ∀ s a, SitesKept s (f s a)) (l : List α) (s : State) :
    SitesKept s (l.foldl f s) :=
  foldl_keeps (P := SitesKept s) (fun _ _ h => h.trans (hf ..)) l s (.refl s)

theorem CellFrame.sitesKept {k : Nat} {s t : State} (h : CellFrame k s t) : SitesKept s t :=
  ⟨have e := congrArg State.mixa h.rest; e, have e := congrArg State.mixd h.rest; e, have e := congrArg State.pregs h.rest; e⟩

theorem HomeFrame.sitesKept {s t : State} (h : HomeFrame s t) : SitesKept s t :=
  ⟨h.get State.mixa rfl, h.get State.mixd rfl, h.get State.pregs rfl⟩

theorem SitesKept.preg {s t : State} (h : SitesKept s t) (i n : Nat) : preg t i n = preg s i n := by
  rw [Machine.preg, Machine.preg, h.pregs]

theorem spadPut_sitesKept (s : State) (y off : Nat) (b : Byte) : SitesKept s (spadPut s y off b) := by
  unfold spadPut
  split <;> exact ⟨rfl, rfl, rfl⟩

theorem collEnd_sitesKept (s : State) (id : Nat) (o : Op) (status fail : Nat) : SitesKept s (collEnd s id o status fail) := by
  refine SitesKept.trans (t := putStatus s o.key o.coll.desc (statusWord status fail o.coll.round)) ?_ ⟨rfl, rfl, rfl⟩
  exact .foldl (fun _ _ => spadPut_sitesKept ..) _ _

theorem endAll_sitesKept (s : State) (l : List (Nat × Op)) (status : Nat) : SitesKept s (endAll s l status) :=
  .foldl (fun _ _ => collEnd_sitesKept ..) _ _

theorem peerUnpin_sitesKept (s : State) (p : Nat × Nat × Nat × Nat × Nat) : SitesKept s (peerUnpin s p) :=
  .foldl (fun _ _ => (pinTile_homeFrame ..).sitesKept) _ _

theorem pkgLost_sitesKept (s : State) (pkg : Nat) : SitesKept s (pkgLost s pkg) := by
  unfold pkgLost
  dsimp only
  have hpins := SitesKept.foldl peerUnpin_sitesKept (s.peers.filter fun p => decide (p.1 = pkg))
    { s with peers := s.peers.filter (fun p => decide (p.1 ≠ pkg)), pinq := s.pinq.filter fun x => decide (x.1.1 ≠ pkg) }
  exact ⟨hpins.mixa, hpins.mixd, hpins.pregs⟩

/-! ## The loss of a module or a stratum (R27, R454) -/

/-- A cell of a lost site or stratum is no core. -/
theorem isCore_of_lostCell {site m k : Nat} (hs : site < 20) (h : lostCell site m k = true) : isCore k = false := by
  have hslot : slotOf k = site := by
    unfold lostCell at h
    split at h
    · exact (of_decide_eq_true h).1
    · rw [lostSites, if_pos hs, List.contains_iff_mem, List.mem_singleton] at h
      exact h
  unfold slotOf at hslot
  unfold isCore
  rw [decide_eq_false_iff_not, coreKey]
  split at hslot <;> omega

/-- A region that halts for a lost die does so at a cell of its own (R27, R349). -/
theorem linkHalt_sitesKept {s : State} {lost : Nat → Bool} (hl : ∀ k, lost k = true → isCore k = false) :
    SitesKept s (linkHalt s lost) := by
  refine .foldl (fun u p => ?_) _ _
  dsimp only
  split
  case h_6 => exact .refl u
  all_goals
    split
    · next k hk =>
      have hrounds : SitesKept u (linkRounds u p.1 lost) := endAll_sitesKept ..
      refine hrounds.trans ?_
      split
      · exact ((CellFrame.setReg _ _ _).trans (recordFault_cellFrame _ _ _ _ _ k)).sitesKept
      · exact (takeFault_cellFrame _ _ _ (hl k (List.find?_some hk))).sitesKept
    · exact .refl u

theorem phyLinkLoss_halts {site : BitVec 8} (hs : site.toNat < 20) (s : State) (m : Nat) :
    ∃ u, SitesKept s u ∧ Runs (.phyLinkLoss site m) s (lossUpdate u site.toNat m) := by
  have hok : ¬((!siteOk site.toNat) = true ∨ site.toNat = 0xFF) := by simp [siteOk, hs]; omega
  refine ⟨linkHalt s (lostCell site.toNat m), linkHalt_sitesKept fun k => isCore_of_lostCell hs, ?_⟩
  rw [Runs, exec_phyLinkLoss, execPhyLinkLoss, if_neg hok]

/-- The mix is four words, and an update raises the generation in the first alone. -/
theorem mixUpdate_rest (s : State) : (mixUpdate s).mixc = s.mixc ∧ (mixUpdate s).mixd = s.mixd
    ∧ (mixUpdate s).pregs = s.pregs ∧ (mixUpdate s).modules = s.modules := by
  unfold mixUpdate
  generalize putBits s.mixa 63 60 (bits s.mixa 63 60 + 1) = w
  exact ⟨rfl, rfl, rfl, rfl⟩

/-- A stratum marked failed shows 0b11. -/
theorem roleOf_clearStrat (s : State) {i : Nat} (h : i < 32) : roleOf (mixUpdate (clearStrat s i)) i = 3 := by
  rw [roleOf, (mixUpdate_rest _).1, clearStrat, bits_putBits_same _ _ (by omega) (by omega), show 2 * i + 1 + 1 - 2 * i = 2 by omega]
  rfl

/-- An update of the mix raises its generation (R25). -/
theorem mixUpdate_gen (s : State) : bits (mixUpdate s).mixa 63 60 = (bits s.mixa 63 60 + 1) % 16 :=
  bits_putBits_same _ _ (by decide) (by decide)

/-- The loss of a site's module clears the site's bit (R454); a number beyond its modules stands for the whole site. -/
theorem lossUpdate_site {u : State} {site m : Nat} (hs : site < 20) (hn : lostStratum site m = none) : lossUpdate u site m =
    mixUpdate { (if m < moduleCount site then onModule u site m Module.hurt else siteLost u site) with
      mixd := putBits (if m < moduleCount site then onModule u site m Module.hurt else siteLost u site).mixd site site 0 } := by
  have hsw : ¬(0x20 ≤ site ∧ 31 ≤ m) := by omega
  simp only [lossUpdate, hn, lostSites, if_pos hs, if_neg hsw, List.foldl_cons, List.foldl_nil]

theorem moduleLoss : Rules.ModuleLoss := by
  intro s site m hs
  obtain ⟨u, hu, hrun⟩ := phyLinkLoss_halts hs s m
  refine ⟨fun j hj => ⟨_, hrun, ?_⟩, fun hnone => ⟨_, hrun, ?_, fun hm => ?_⟩⟩
  · have hrange : 12 ≤ site.toNat ∧ m - 16 = j ∧ m < 20 := by
      unfold lostStratum at hj
      split at hj
      · next h => exact ⟨h.1, Option.some.inj hj, h.2.2.2⟩
      · cases hj
    have hloss : lossUpdate u site.toNat m = mixUpdate (clearStrat u (4 * (site.toNat - 12) + j)) := by
      simp only [lossUpdate, hj]
    rw [hloss, mixUpdate_gen, ← hu.mixa]
    exact ⟨roleOf_clearStrat u (by omega), rfl⟩
  · rw [lossUpdate_site hs hnone, (mixUpdate_rest _).2.1, getLsbD_putBits _ _ (Nat.le_refl _) (by omega),
      if_pos ⟨Nat.le_refl _, Nat.le_refl _⟩, Nat.zero_testBit]
  · rw [lossUpdate_site hs hnone]
    simp [moduleAt, mixUpdate_rest, hm, onModule, Module.hurt]

/-! ## Reach links (R464, R465) -/

/-- RLSTAT of a link that goes down: it names no peer, and counts one more time down. -/
def rlstatDown (w : Word) : Word :=
  putBits (putBits (putBits (putBits w 0 0 0) 11 8 0) 31 16 0xFFFF) 63 56 (if bits w 63 56 = 255 then 255 else bits w 63 56 + 1)

theorem getLsbD_rlstatDown (w : Word) : (rlstatDown w).getLsbD 0 = false := by
  unfold rlstatDown
  rw [getLsbD_putBits _ _ (by decide) (by decide), getLsbD_putBits _ _ (by decide) (by decide),
    getLsbD_putBits _ _ (by decide) (by decide), getLsbD_putBits _ _ (by decide) (by decide)]
  rfl

theorem bits_rlstatDown (w : Word) : bits (rlstatDown w) 31 16 = 0xFFFF := by
  unfold rlstatDown
  rw [bits_putBits_other _ _ (by decide) (by decide) (by decide), bits_putBits_same _ _ (by decide) (by decide)]
  rfl

/-- A reach link that goes down, as RLSTAT and the mix show it; what was in flight on it is lost. -/
def reachDownShown (s : State) (j : Nat) : State :=
  mixUpdate { setPreg s (0x20 + j / 4) (0x80 + j % 4) (rlstatDown (preg s (0x20 + j / 4) (0x80 + j % 4))) with
    mixd := putBits s.mixd (28 + j) (28 + j) 0, conns := sdel s.conns (1000 + j), reqs := linkLost s.reqs j }

theorem preg_reachDownShown (s : State) (j : Nat) : preg (reachDownShown s j) (0x20 + j / 4) (0x80 + j % 4) =
    rlstatDown (preg s (0x20 + j / 4) (0x80 + j % 4)) := by
  have hpregs : (reachDownShown s j).pregs = _ := (mixUpdate_rest _).2.2.1
  rw [preg, hpregs]
  exact preg_setPreg_same ..

theorem mixd_reachDownShown (s : State) {j : Nat} (hj : j < 16) : (reachDownShown s j).mixd.getLsbD (28 + j) = false := by
  rw [reachDownShown, (mixUpdate_rest _).2.1, getLsbD_putBits _ _ (Nat.le_refl _) (by omega),
    if_pos ⟨Nat.le_refl _, Nat.le_refl _⟩, Nat.zero_testBit]

theorem reachLinkDown_shows {s : State} {j : Nat} (hj : j < 16)
    (hup : (preg s (0x20 + j / 4) (0x80 + j % 4)).getLsbD 0 = true) :
    ∃ t, Runs (.reachLinkDown j) s t ∧ (preg t (0x20 + j / 4) (0x80 + j % 4)).getLsbD 0 = false
      ∧ bits (preg t (0x20 + j / 4) (0x80 + j % 4)) 31 16 = 0xFFFF ∧ t.mixd.getLsbD (28 + j) = false := by
  have hlink : ¬(16 ≤ j ∨ (!(preg s (0x20 + j / 4) (0x80 + j % 4)).getLsbD 0) = true) := by simp [hup]; omega
  let w := preg s (0x20 + j / 4) (0x80 + j % 4)
  let pkg := bits w 31 16
  let v := reachDownShown s j
  let e := if decide (linkTo s pkg = some j) then endAll v (roundsWith v pkg) 4 else v
  let t := if (linkTo e pkg).isNone then pkgLost e pkg else e
  have hrun : Runs (.reachLinkDown j) s t := congrArg Host.Outcome.next (if_neg hlink)
  have he : SitesKept v e := by
    unfold e
    split
    · exact endAll_sitesKept ..
    · exact .refl v
  have ht : SitesKept v t := by
    refine he.trans ?_
    unfold t
    split
    · exact pkgLost_sitesKept ..
    · exact .refl e
  refine ⟨t, hrun, ?_⟩
  rw [ht.preg, ht.mixd, preg_reachDownShown]
  exact ⟨getLsbD_rlstatDown w, bits_rlstatDown w, mixd_reachDownShown s hj⟩

/-! ## Sensors and walk limits (R463, R479) -/

theorem sensorEvaluation_cool {s : State} {l : List (Nat × List (BitVec 10))} (ht : s.sensT + 100000 ≤ s.tick)
    (hl : ∀ p ∈ l, dieRead p = true → tripDie p.2 = false) :
    ∃ t, Runs (.sensorEvaluation l) s t ∧ t.sensT = s.tick ∧ t.mem = s.mem ∧ t.regions = s.regions := by
  have hcool : ¬(l.any fun p => dieRead p && tripDie p.2) = true := by
    rw [List.any_eq_true]
    rintro ⟨p, hp, hhot⟩
    obtain ⟨hr, htrip⟩ := Bool.and_eq_true_iff.mp hhot
    exact Bool.false_ne_true ((hl p hp hr).symm.trans htrip)
  refine ⟨_, congrArg Host.Outcome.next ((if_neg (Nat.not_lt.mpr ht)).trans (if_neg hcool)), ?_⟩
  dsimp only
  split
  · unfold setForce
    split <;> exact ⟨rfl, rfl, rfl⟩
  · exact ⟨rfl, rfl, rfl⟩

theorem sensorEvaluation_hot {s : State} {l : List (Nat × List (BitVec 10))} (ht : s.sensT + 100000 ≤ s.tick)
    {p : Nat × List (BitVec 10)} (hp : p ∈ l) (hr : dieRead p = true) (htrip : tripDie p.2 = true) :
    Runs (.sensorEvaluation l) s (powerOff s) := by
  have hhot : (l.any fun p => dieRead p && tripDie p.2) = true := List.any_eq_true.mpr ⟨p, hp, by simp [hr, htrip]⟩
  exact congrArg Host.Outcome.next ((if_neg (Nat.not_lt.mpr ht)).trans (if_pos hhot))

/-- The evaluation of one stack, 100,000 ticks after its last (R479). -/
def wlimStack (s : State) (i : Nat) (t : Option (BitVec 10)) : State :=
  if (sget {} s.hbt i).evT.all (fun e => decide (e + 100000 ≤ s.tick)) then
    { s with hbt := sset s.hbt i (wlimOne (sget {} s.hbt i) s.tick t) }
  else s

theorem wlimStack_first {s : State} {i : Nat} (t : Option (BitVec 10)) (h : (sget {} s.hbt i).evT = none) :
    wlimStack s i t = { s with hbt := sset s.hbt i (wlimOne (sget {} s.hbt i) s.tick t) } :=
  if_pos (by rw [h]; rfl)

theorem wlimEvaluation_stacks (s : State) {base : Nat} (t0 t1 : Option (BitVec 10)) (hb : base < 8) :
    Runs (.wlimEvaluation base t0 t1) s (wlimStack (wlimStack s (2 * base) t0) (2 * base + 1) t1) :=
  congrArg Host.Outcome.next (if_neg (Nat.not_le.mpr hb))

/-- Stacks that have had no evaluation are evaluated now. -/
theorem wlimEvaluation_first {s : State} {base : Nat} (t0 t1 : Option (BitVec 10)) (hb : base < 8)
    (hfirst : ∀ k < 2, (sget {} s.hbt (2 * base + k)).evT = none) :
    Runs (.wlimEvaluation base t0 t1) s { s with
      hbt := sset (sset s.hbt (2 * base) (wlimOne (sget {} s.hbt (2 * base)) s.tick t0)) (2 * base + 1)
        (wlimOne (sget {} s.hbt (2 * base + 1)) s.tick t1) } := by
  have hother : ∀ x, sget {} (sset s.hbt (2 * base) x) (2 * base + 1) = sget {} s.hbt (2 * base + 1) := fun x =>
    sget_sset_other _ _ _ (by omega)
  have h0 : (sget {} s.hbt (2 * base)).evT = none := hfirst 0 (by decide)
  have hrun := wlimEvaluation_stacks s t0 t1 hb
  rw [wlimStack_first t0 h0, wlimStack_first t1 ((congrArg Hbt.evT (hother _)).trans (hfirst 1 (by decide))),
    hother] at hrun
  exact hrun

/-! ## Ebbs (R483) -/

theorem askYield_running {s : State} {h : Nat} (hs : (regAt s h).stage = .running) (hy : (regAt s h).ypend = false) :
    (regAt (askYield s h) h).ypend = true := by
  simp [askYield, hs, hy]

theorem fieldsW_three (i j k a b c : Nat) :
    fieldsW [(i, a), (j, b), (k, c)] = BitVec.ofNat 64 (0 + a * 2 ^ i + b * 2 ^ j + c * 2 ^ k) := rfl

/-- A field of 32 bits at bit 0 is the low half. -/
theorem extractLsb'_fieldsW_low (v : BitVec 32) (a b : Nat) :
    (fieldsW [(0, v.toNat), (32, a), (48, b)]).extractLsb' 0 32 = v := by
  apply BitVec.eq_of_toNat_eq
  rw [fieldsW_three, BitVec.extractLsb'_toNat, BitVec.toNat_ofNat, Nat.shiftRight_zero]
  omega

theorem erosPut_slack (s : State) (n r : Nat) (v : BitVec 32) :
    (preg (erosPut s n r v) n (0xC0 + r)).extractLsb' 0 32 = v := by
  have hp : preg (erosPut s n r v) n (0xC0 + r) = _ := preg_setPreg_same ..
  rw [hp, extractLsb'_fieldsW_low]

theorem erosPut_other (s : State) {n r i j : Nat} (v : BitVec 32) (h : i * 4096 + (0xC0 + j) ≠ n * 4096 + (0xC0 + r)) :
    preg (erosPut s n r v) i (0xC0 + j) = preg s i (0xC0 + j) := by
  unfold erosPut
  exact preg_setPreg_other _ _ h

/-- An ebb's measurement of one die. -/
def ebbDie (l : List (Nat × List (BitVec 32))) (s t : State) (n : Nat) : State :=
  (List.range 4).foldl (fun t r => erosPut t n r (measured s l n r)) t

/-- A register that holds the value measured on its rail goes on holding it. -/
theorem erosPut_keeps {l : List (Nat × List (BitVec 32))} {s t : State} {n r i j : Nat} (hr : r < 4) (hj : j < 4)
    (h : (preg t i (0xC0 + j)).extractLsb' 0 32 = measured s l i j) :
    (preg (erosPut t n r (measured s l n r)) i (0xC0 + j)).extractLsb' 0 32 = measured s l i j := by
  by_cases hsame : i = n ∧ j = r
  · obtain ⟨rfl, rfl⟩ := hsame
    exact erosPut_slack ..
  · rw [erosPut_other _ _ (by omega)]
    exact h

/-- What one element of a list brings about, and every element keeps, holds after the fold. -/
theorem foldl_reaches {α β : Type} {P : α → Prop} {f : α → β → α} {b : β} {l : List β} (hb : b ∈ l) (hset : ∀ a, P (f a b))
    (hkeep : ∀ a, ∀ c ∈ l, P a → P (f a c)) (a : α) : P (l.foldl f a) := by
  induction l generalizing a with
  | nil => cases hb
  | cons c l ih =>
    have hrest : ∀ a, ∀ d ∈ l, P a → P (f a d) := fun a d hd => hkeep a d (List.mem_cons_of_mem _ hd)
    rw [List.foldl_cons]
    rcases List.mem_cons.mp hb with rfl | hb
    · exact List.foldlRecOn l f (hset a) fun a ha d hd => hrest a d hd ha
    · exact ih hb hrest _

theorem ebbDie_sets (l : List (Nat × List (BitVec 32))) (s t : State) (n : Nat) {r : Nat} (hr : r < 4) :
    (preg (ebbDie l s t n) n (0xC0 + r)).extractLsb' 0 32 = measured s l n r :=
  foldl_reaches (P := fun u => (preg u n (0xC0 + r)).extractLsb' 0 32 = measured s l n r) (List.mem_range.mpr hr)
    (fun _ => erosPut_slack ..) (fun _ _ hc h => erosPut_keeps (List.mem_range.mp hc) hr h) t

theorem ebbDie_keeps {l : List (Nat × List (BitVec 32))} {s t : State} {n i j : Nat} (hj : j < 4)
    (h : (preg t i (0xC0 + j)).extractLsb' 0 32 = measured s l i j) :
    (preg (ebbDie l s t n) i (0xC0 + j)).extractLsb' 0 32 = measured s l i j :=
  List.foldlRecOn (motive := fun u => (preg u i (0xC0 + j)).extractLsb' 0 32 = measured s l i j) _ _ h
    fun _ hu _ hr => erosPut_keeps (List.mem_range.mp hr) hj hu

theorem ebbDie_mem (l : List (Nat × List (BitVec 32))) (s t : State) (n : Nat) : (ebbDie l s t n).mem = t.mem := by
  refine foldl_keeps (P := fun u : State => u.mem = t.mem) (fun u r h => ?_) _ _ rfl
  exact h

theorem ebb_measures {s : State} (hf : ebbFree s = true) (l : List (Nat × List (BitVec 32))) :
    ∃ t, Runs (.ebb l) s t ∧ t.ebbDue = none ∧ t.ebbT = s.tick ∧ t.mem = s.mem
      ∧ ∀ n < 20, siteFitted s n = true → ∀ r < 4, (preg t n (0xC0 + r)).extractLsb' 0 32 = measured s l n r := by
  have hrun : ¬(s.ebbRun.isNone && !ebbFree s) = true := by simp [hf]
  have hmem : ((fittedDies s).foldl (ebbDie l s) s).mem = s.mem :=
    foldl_keeps (P := fun u : State => u.mem = s.mem) (fun _ _ h => (ebbDie_mem ..).trans h) _ _ rfl
  refine ⟨_, congrArg Host.Outcome.next (if_neg hrun), rfl, rfl, hmem, fun n hn hfit r hr => ?_⟩
  have hdie : n ∈ fittedDies s := by simp [fittedDies, hfit, hn]
  exact foldl_reaches (P := fun u => (preg u n (0xC0 + r)).extractLsb' 0 32 = measured s l n r) hdie
    (fun u => ebbDie_sets l s u n hr) (fun _ _ _ h => ebbDie_keeps hr h) s

theorem fleetEvents : Rules.FleetEvents := by
  intro s
  refine ⟨fun l ht => ⟨sensorEvaluation_cool ht, fun p hp hr htrip => sensorEvaluation_hot ht hp hr htrip⟩,
    fun base t0 t1 hb hfirst => ⟨_, wlimEvaluation_first t0 t1 hb hfirst, ?_⟩, fun hf => congrArg Host.Outcome.next (if_pos hf),
    fun hl r hr hs hy => ?_, fun hf l => ebb_measures hf l, fun j hj hup => reachLinkDown_shows hj hup⟩
  · simp
  · refine ⟨_, congrArg Host.Outcome.next (if_pos hl), ?_⟩
    rw [hr]
    exact askYield_running hs hy

end Sys2Proof.Machine

open Sys2Proof Sys2Proof.Machine

/-- Settles O49: each event does what its condition allows; what a loss or a link shows, by the frames of what comes before. -/
theorem powerBootAndFleetEvents : Obligations.PowerBootAndFleetEvents := ⟨powerAndBoot, moduleLoss, fleetEvents⟩

end

