-- ==== Sys2Proof/Proofs/AccessWords.lean ====
section
/-! SUPPORT. The words of the load and write sequencers that start access operations and write descriptor registers, and the frame
of their issue (R120, R219 to R238). -/

namespace Sys2Proof.Machine

/-! ## What the issue of a word comes to -/

theorem issueCtx_key (s : State) : (issueCtx s).key = s.cur := ctxAt_touchStart_key s

theorem issueCtx_seq (s : State) : (issueCtx s).seq = s.curSeq :=
  have e := congrArg State.curSeq (touchStart_cellFrame s s.cur).rest
  e

theorem touchStart_nextId (s : State) (k : Nat) : (touchStart s k).nextId = s.nextId := by
  unfold touchStart
  dsimp only
  repeat' split
  all_goals rfl

theorem setStreamAt_nextId (s : State) (k : Nat) (q : Seq) (st : Stream) : (setStreamAt s k q st).nextId = s.nextId := by
  unfold setStreamAt
  split <;> rfl

/-- Every state that an answer goes on with has a property. -/
def Res.Goes (P : State → Prop) : Res → Prop
  | .ok t => P t
  | .goto t _ => P t
  | .fault _ => True
  | .okFault t _ => P t
  | .wait => True

theorem Res.goes_ite {P : State → Prop} {p : Prop} [Decidable p] {r x : Res} (hr : r.Goes P) (hx : x.Goes P) :
    (if p then r else x).Goes P := by
  split
  · exact hr
  · exact hx

theorem watched_goes {P : State → Prop} {s : State} {c : Ctx} {wr : Bool} {ea : Word} {addrs : List Word} {t : State} (h : P t) :
    (watched s c wr ea addrs (.ok t)).Goes P :=
  Res.goes_ite h h

theorem tokShort_goes {P : State → Prop} (c : Ctx) : (tokShort c).Goes P :=
  Res.goes_ite trivial trivial

theorem withToks_goes {P : State → Prop} {s : State} {c : Ctx} {k : Toks} {f : State → Res}
    (h : ∀ t, takeToks s c.key k = some t → (f t).Goes P) : (withToks s c k f).Goes P := by
  unfold withToks
  split
  · exact h _ ‹_›
  · exact tokShort_goes c

theorem orFault_goes {P : State → Prop} {code : Nat} {ta : Word} {r : Res} (h : r.Goes P) : (orFault code ta r).Goes P :=
  Res.goes_ite h trivial

theorem gated_goes {P : State → Prop} {k : Toks} {full : Ctx → State → Bool} {f : Ctx → State → Res} {c : Ctx} {s : State}
    (h : (f c s).Goes P) : (gated k full f c s).Goes P :=
  Res.goes_ite trivial h

/-- What a cell's word leaves whatever it comes to: a property of the state before it that frames of the cell keep, and that its
body gives in a state such as its issue makes. -/
theorem word_goes {P : State → Prop} {lg : Legal} {regs : List (BitVec 6)} {body : Ctx → State → Res} {s t : State}
    (hc : isCore s.cur = false) (hs : P s) (hP : ∀ {u v}, P u → CellFrame s.cur u v → P v)
    (hbody : ∀ u, CellFrame s.cur s u → u.nextId = s.nextId → (body (issueCtx s) u).Goes P)
    (h : word lg regs body s = .next t) : P t := by
  have hk := issueCtx_key s
  have hcore : isCore (issueCtx s).key = false := hk ▸ hc
  have hstart := touchStart_cellFrame s s.cur
  have hstream (u : State) (st : Stream) : CellFrame s.cur u (setStreamAt u (issueCtx s).key (issueCtx s).seq st) :=
    hk ▸ setStreamAt_cellFrame _ st hcore
  have hfault (u : State) (pc : Nat) (w : Word) (f : Flt) :
      CellFrame s.cur u (takeFault u { key := (issueCtx s).key, seq := (issueCtx s).seq, pc := pc, word := w } f) :=
    hk ▸ takeFault_cellFrame u { key := (issueCtx s).key, seq := (issueCtx s).seq, pc := pc, word := w } f hcore
  have hgoes (st : Stream) : (body (issueCtx s) (setStreamAt (touchStart s s.cur) (issueCtx s).key (issueCtx s).seq st)).Goes P :=
    hbody _ (hstart.trans (hstream _ st)) ((setStreamAt_nextId ..).trans (touchStart_nextId ..))
  cases h
  obtain h | ⟨js, f, h⟩ | h | ⟨js, ⟨t, ht, h⟩ | ⟨t, pc, ht, h⟩ | ⟨t, f, ht, h⟩⟩ := runWord_cases lg regs body s
  · rwa [h]
  · rw [h]; exact hP hs ((hstart.trans (hstream _ _)).trans (hfault _ _ _ f))
  · rw [h]; exact hP hs (hstream s _)
  · rw [h]; exact (congrArg (Res.Goes P) ht).mp (hgoes _)
  · rw [h]; exact hP ((congrArg (Res.Goes P) ht).mp (hgoes _)) (hstream t _)
  · rw [h]; exact hP ((congrArg (Res.Goes P) ht).mp (hgoes _)) (hfault t _ _ f)

/-! ## The frame of an access word -/

/-- What is read from neither the regions, the next name nor the cells reads as before. -/
theorem CellFrame.get {α : Type} {k : Nat} {s t : State} (h : CellFrame k s t) (f : State → α)
    (hf : f { t with regions := s.regions, nextId := s.nextId, cells := s.cells } = f t) : f t = f s :=
  hf.symm.trans (congrArg f h.rest)

/-- So does what is read in the cell from none of the fields that cell names. -/
theorem CellFrame.getCell {α : Type} {k : Nat} {s t : State} (h : CellFrame k s t) (f : Cell → α)
    (hf : f { cellAt t k with ss := (cellAt s k).ss, sl := (cellAt s k).sl, sc := (cellAt s k).sc, sw := (cellAt s k).sw,
                              task := (cellAt s k).task, shadow := (cellAt s k).shadow, lat := (cellAt s k).lat } = f (cellAt t k)) :
    f (cellAt t k) = f (cellAt s k) :=
  hf.symm.trans (congrArg f h.cell)

/-- t is s but for what the issue of a word of cell k may change (CellFrame), the tokens that the word names, the words of the
descriptor register w of its sequencer q, and the operation n. -/
structure AccessStep (k : Nat) (q : Seq) (ks : Toks) (w : Option (BitVec 3)) (n : Nat) (s t : State) : Prop where
  rest : { t with regions := s.regions, nextId := s.nextId, cells := s.cells, ops := s.ops } = s
  ops : ∀ id ≠ n, sfind t.ops id = sfind s.ops id
  cells : ∀ j ≠ k, cellAt t j = cellAt s j
  cell : { cellAt t k with ss := (cellAt s k).ss, sl := (cellAt s k).sl, sc := (cellAt s k).sc, sw := (cellAt s k).sw,
                           task := (cellAt s k).task, shadow := (cellAt s k).shadow, lat := (cellAt s k).lat, k := (cellAt s k).k,
                           dl := (cellAt s k).dl, dw := (cellAt s k).dw } = cellAt s k
  toks : ∀ m, m ∉ tokRegs ks → tok t k m = tok s k m
  desc : ∀ p d, ((p = .w ↔ q = .w) → ∀ e ∈ w, d ≠ e.toNat) → readDesc t k p d = readDesc s k p d

section
variable {k : Nat} {q : Seq} {ks : Toks} {w : Option (BitVec 3)} {n : Nat} {s t u : State}

theorem AccessStep.trans (h : AccessStep k q ks w n s t) (g : AccessStep k q ks w n t u) : AccessStep k q ks w n s u where
  rest := by
    have h1 := h.rest
    rw [← g.rest] at h1
    exact h1
  ops id hid := (g.ops id hid).trans (h.ops id hid)
  cells j hj := (g.cells j hj).trans (h.cells j hj)
  cell := by
    have h1 := h.cell
    rw [← g.cell] at h1
    exact h1
  toks m hm := (g.toks m hm).trans (h.toks m hm)
  desc p d hd := (g.desc p d hd).trans (h.desc p d hd)

/-- A cell's tokens and descriptor registers are as before under its frame. -/
theorem AccessStep.of_frame (h : CellFrame k s t) : AccessStep k q ks w n s t :=
  have hops : t.ops = s.ops := h.get State.ops rfl
  have hk : (cellAt t k).k = (cellAt s k).k := h.getCell Cell.k rfl
  have hl : (cellAt t k).dl = (cellAt s k).dl := h.getCell Cell.dl rfl
  have hw : (cellAt t k).dw = (cellAt s k).dw := h.getCell Cell.dw rfl
  { rest := by rw [← hops]; exact h.rest
    ops := fun id _ => congrArg (sfind · id) hops
    cells := h.cells
    cell := by rw [← hk, ← hl, ← hw]; exact h.cell
    toks := fun m _ => by rw [tok, tok, hk]
    desc := fun p d _ => by rw [readDesc, readDesc, hl, hw] }

theorem AccessStep.refl : AccessStep k q ks w n s s := .of_frame (.refl k s)

/-- What is read from no field that rest names reads as before. -/
theorem AccessStep.get {α : Type} (h : AccessStep k q ks w n s t) (f : State → α)
    (hf : f { t with regions := s.regions, nextId := s.nextId, cells := s.cells, ops := s.ops } = f t) : f t = f s :=
  hf.symm.trans (congrArg f h.rest)

/-- So does what is read in the cell from none of the fields that cell names. -/
theorem AccessStep.getCell {α : Type} (h : AccessStep k q ks w n s t) (f : Cell → α)
    (hf : f { cellAt t k with ss := (cellAt s k).ss, sl := (cellAt s k).sl, sc := (cellAt s k).sc, sw := (cellAt s k).sw,
                              task := (cellAt s k).task, shadow := (cellAt s k).shadow, lat := (cellAt s k).lat,
                              k := (cellAt s k).k, dl := (cellAt s k).dl, dw := (cellAt s k).dw } = f (cellAt t k)) :
    f (cellAt t k) = f (cellAt s k) :=
  hf.symm.trans (congrArg f h.cell)

theorem takeToks_accessStep (h : takeToks s k ks = some t) : AccessStep k q ks w n s t := by
  by_cases hmet : ∀ m ∈ tokRegs ks, demand ks m ≤ tok s k m
  · rw [takeToks_met hmet] at h
    obtain rfl := Option.some.inj h
    exact
      { rest := rfl
        ops := fun _ _ => rfl
        cells := fun j hj => by rw [cellAt_setCell, if_neg hj]
        cell := by rw [cellAt_setCell, if_pos rfl]; rfl
        toks := fun m hm => by rw [tok_tokensTaken, if_neg hm]
        desc := fun p d _ => by rw [readDesc, readDesc, cellAt_setCell, if_pos rfl]; rfl }
  · rw [takeToks_short (by simpa using hmet)] at h
    cases h

/-- Only the name that the next operation takes is new. -/
theorem startOp_accessStep {c : Ctx} (o : Op) (hn : s.nextId = n) : AccessStep k q ks w n s (startOp s c o) where
  rest := rfl
  ops _ hid := (sfind_sset ..).trans (if_neg (hn ▸ hid))
  cells _ _ := rfl
  cell := rfl
  toks _ _ := rfl
  desc _ _ _ := rfl

theorem takeToks_nextId (h : takeToks s k ks = some t) : t.nextId = s.nextId := by
  obtain ⟨l, rfl⟩ := takeToks_setCell h
  rfl

/-- A write of word i of a descriptor register leaves every other one of the cell (R219). -/
theorem readDesc_writeDesc_other {wseq : Bool} {d e i : Nat} {p : Seq} (v : Word) (hi : i < 8)
    (h : (p = .w ↔ wseq = true) → e ≠ d) :
    readDesc (writeDesc s k wseq d i v) k p e = readDesc s k p e := by
  have hother (hne : e ≠ d) (m : SMap Word) :
      (List.range 8).map (fun j => sget 0 (sset m (d * 8 + i) v) (e * 8 + j)) = (List.range 8).map fun j => sget 0 m (e * 8 + j) :=
    List.map_congr_left fun j hj => sget_sset_other _ _ _ (by have := List.mem_range.mp hj; omega)
  rw [readDesc, readDesc, writeDesc, cellAt_setCell, if_pos rfl]
  cases wseq <;> by_cases hp : p = .w
  · simp only [hp, Bool.false_eq_true, if_false, if_true]
  · simpa only [hp, Bool.false_eq_true, if_false] using hother (h (by simp [hp])) _
  · simpa only [hp, if_true] using hother (h (by simp [hp])) _
  · simp only [hp, if_false, if_true]

theorem writeDesc_accessStep {ds : BitVec 3} {i : Nat} (v : Word) (hi : i < 8) :
    AccessStep k q ks (some ds) n s (writeDesc s k (decide (q = .w)) ds.toNat i v) where
  rest := rfl
  ops _ _ := rfl
  cells j hj := by rw [writeDesc, cellAt_setCell, if_neg hj]
  cell := by
    rw [writeDesc, cellAt_setCell, if_pos rfl]
    split <;> rfl
  toks m _ := by
    rw [tok, tok, writeDesc, cellAt_setCell, if_pos rfl]
    split <;> rfl
  desc p d hd := readDesc_writeDesc_other v hi fun hp => hd (by simpa using hp) ds rfl

/-- The words written to a descriptor register: by latches of a timed stream, now otherwise. -/
theorem landDesc_accessStep {c : Ctx} {ds : BitVec 3} {ws : List (Nat × Word)} (latency : Nat) (hk : c.key = k) (hq : c.seq = q)
    (hws : ∀ p ∈ ws, p.1 < 8) : AccessStep k q ks (some ds) n s (landDesc s c ds.toNat ws latency) := by
  subst hk hq
  refine List.foldlRecOn ws _ .refl fun u hu p hp => hu.trans ?_
  split
  · exact .of_frame (addLatch_cellFrame ..)
  · exact writeDesc_accessStep _ (hws p hp)

end

/-! ## The words, one body at a time -/

/-- Once its tokens are taken, an operation starts under the next name. -/
theorem startAcc_goes {ks : Toks} {w : Option (BitVec 3)} {n : Nat} {s u : State} {c : Ctx}
    (hu : AccessStep c.key c.seq ks w n s u) (hn : u.nextId = n) (o : Op) :
    (startAcc u c ks o).Goes (AccessStep c.key c.seq ks w n s) :=
  withToks_goes fun _ ht => (hu.trans (takeToks_accessStep ht)).trans (startOp_accessStep _ ((takeToks_nextId ht).trans hn))

section
variable {ks : Toks} {ds : BitVec 3} {n : Nat} {s u : State} {c : Ctx} (hu : AccessStep c.key c.seq ks (some ds) n s u)
include hu

theorem landDesc_goes {ws : List (Nat × Word)} (latency : Nat) (hws : ∀ p ∈ ws, p.1 < 8) :
    (Res.ok (landDesc u c ds.toNat ws latency)).Goes (AccessStep c.key c.seq ks (some ds) n s) :=
  hu.trans (landDesc_accessStep latency rfl rfl hws)

theorem dldBody_goes (a : Word) : (dldBody ds a c u).Goes (AccessStep c.key c.seq ks (some ds) n s) :=
  Res.goes_ite trivial (Res.goes_ite trivial (watched_goes (landDesc_goes hu 4 (by simp))))

end

/-- The frame of an access word, whatever its issue comes to. -/
theorem exec_accessStep {i : Instr} {k : Toks} {w : Option (BitVec 3)} {s t : State} (hi : Rules.accessWord i = some (k, w))
    (hc : isCore s.cur = false) (h : exec i s = .next t) : AccessStep s.cur s.curSeq k w s.nextId s t := by
  have hkeep {lg : Legal} {regs : List (BitVec 6)} {body : Ctx → State → Res} (hw : exec i s = word lg regs body s)
      (hbody : ∀ u, AccessStep (issueCtx s).key (issueCtx s).seq k w s.nextId s u → u.nextId = s.nextId →
        (body (issueCtx s) u).Goes (AccessStep (issueCtx s).key (issueCtx s).seq k w s.nextId s)) :
      AccessStep s.cur s.curSeq k w s.nextId s t := by
    rw [issueCtx_key, issueCtx_seq] at hbody
    exact word_goes hc .refl (fun hu hv => hu.trans (.of_frame hv)) (fun u hu => hbody u (.of_frame hu)) (hw.symm.trans h)
  cases i <;> simp only [Rules.accessWord, Option.some.injEq, Prod.mk.injEq, reduceCtorEq] at hi <;> obtain ⟨rfl, rfl⟩ := hi
  case dset ds a j k =>
    exact hkeep rfl fun u hu _ => withToks_goes fun t ht =>
      landDesc_goes (hu.trans (takeToks_accessStep ht)) 1 (by simpa using j.isLt)
  case dclr ds k =>
    exact hkeep rfl fun u hu _ => withToks_goes fun t ht => landDesc_goes (hu.trans (takeToks_accessStep ht)) 1 (by simp)
  case dld ds a k =>
    exact hkeep rfl fun u hu _ => withToks_goes fun t ht => dldBody_goes (hu.trans (takeToks_accessStep ht)) _
  case rdq ds q k =>
    exact hkeep rfl fun u hu hn => gated_goes (Res.goes_ite trivial (orFault_goes (Res.goes_ite trivial (Res.goes_ite trivial
      (startAcc_goes hu hn _)))))
  case wrq ds q k =>
    exact hkeep rfl fun u hu hn => gated_goes (Res.goes_ite trivial (orFault_goes (Res.goes_ite trivial (startAcc_goes hu hn _))))
  case rds ds a k => exact hkeep rfl fun u hu hn => gated_goes (orFault_goes (Res.goes_ite trivial (startAcc_goes hu hn _)))
  case wrs ds a k => exact hkeep rfl fun u hu hn => gated_goes (orFault_goes (Res.goes_ite trivial (startAcc_goes hu hn _)))
  case cpy ds dt k =>
    exact hkeep rfl fun u hu hn => gated_goes (orFault_goes (orFault_goes (Res.goes_ite trivial (startAcc_goes hu hn _))))
  case pref ds k => exact hkeep rfl fun u hu hn => gated_goes (orFault_goes (startAcc_goes hu hn _))
  case gath ds q a b xf k =>
    exact hkeep rfl fun u hu hn => gated_goes (Res.goes_ite trivial (orFault_goes (Res.goes_ite trivial (startAcc_goes hu hn _))))
  case scat ds q a b xf k =>
    exact hkeep rfl fun u hu hn => gated_goes (Res.goes_ite trivial (orFault_goes (Res.goes_ite trivial (startAcc_goes hu hn _))))

/-- The registers of a cell are among what an access word leaves. -/
theorem AccessStep.readA {k : Nat} {q : Seq} {ks : Toks} {w : Option (BitVec 3)} {n : Nat} {s t : State}
    (h : AccessStep k q ks w n s t) (r : Nat) : readA t k r = readA s k r := by
  have hcore : ∀ j, coreAt t j = coreAt s j := fun j => h.get (coreAt · j) rfl
  have ha : (cellAt t k).a = (cellAt s k).a := h.getCell Cell.a rfl
  rw [Machine.readA, Machine.readA, hcore, ha]

/-- Of the load and the write sequencer, each is told by whether it is the write sequencer. -/
theorem seq_eq_of_w_iff {p q : Seq} (hp : p = .l ∨ p = .w) (hq : q = .l ∨ q = .w) (h : p = .w ↔ q = .w) : p = q := by
  obtain rfl | rfl := hp
  · exact (hq.resolve_right fun hw => nomatch h.mpr hw).symm
  · exact (h.mp rfl).symm

theorem accessWordFrame : Rules.AccessWordFrame := by
  intro s t i k w hi hc h
  have hf := exec_accessStep hi hc h
  have hdesc : ∀ q d, (q ≠ s.curSeq ∨ ∀ e ∈ w, d ≠ e.toNat) → d < 8 → (q = .l ∨ q = .w) → (s.curSeq = .l ∨ s.curSeq = .w) →
      readDesc t s.cur q d = readDesc s s.cur q d := fun q d hd _ hq hseq =>
    hf.desc q d fun hsame => hd.resolve_left fun hne => hne (seq_eq_of_w_iff hq hseq hsame)
  exact ⟨⟨fun a => hf.get (memByte · a) rfl, hf.get State.tens rfl, hf.get State.tt rfl, hf.get State.pregs rfl,
      hf.get State.cores rfl, hf.get State.queues rfl, hf.get State.records rfl, hf.cells⟩,
    hf.get State.reqs rfl, hf.ops, hf.readA, hf.toks, hdesc, hf.getCell Cell.v rfl, hf.getCell Cell.m rfl, hf.getCell Cell.q rfl,
    hf.getCell Cell.spad rfl, hf.getCell Cell.pwb rfl, hf.getCell Cell.inb rfl, hf.getCell Cell.csr rfl, hf.getCell Cell.mx rfl,
    hf.getCell Cell.gs rfl, hf.getCell Cell.fifo rfl⟩

/-! ## The words that write descriptor registers -/

/-- A word that only needs its tokens goes on in the state without them. -/
theorem runs_withToks {i : Instr} {lg : Legal} {regs : List (BitVec 6)} {k : Toks} {f : Ctx → State → State → Res} {s t u : State}
    (hi : Issues lg regs s) (he : exec i s = word lg regs (fun c m => withToks m c k (f c m)) s)
    (ht : takeToks (moved s) (issueCtx s).key k = some t) (hf : f (issueCtx s) (moved s) t = .ok u) : Runs i s u :=
  runs_ok hi he ((withToks_some _ ht).trans hf)

theorem dldBody_loads {ds : BitVec 3} {a : Word} {c : Ctx} {s : State} (ht : tidOf a = 0xFFFF) (hx : spIdx a = cidxOf c.key)
    (h8 : spOff a % 8 = 0) (hsz : spOff a + 64 ≤ spadSize c.key) (hbad : spadBad s c.key (spOff a) 64 = false)
    (hw : watchHit s c.key false (spadAddrs c.key (spOff a) 64) = false) :
    dldBody ds a c s = .ok (landDesc s c ds.toNat
      ((List.range 8).map fun j => (j, BitVec.ofNat 64 (ofBytes (spadBytes s c.key c.key (spOff a + 8 * j) 8)))) 4) := by
  simp only [dldBody, ht, hx, h8, hbad, Nat.not_lt.mpr hsz, ne_eq, not_true, or_self, Bool.false_eq_true, if_false]
  exact watched_unhit hw _

/-! ## The words that start operations -/

theorem orFault_zero {code : Nat} {ta : Word} {r : Res} (h : code = 0) : orFault code ta r = r := if_pos h

theorem gated_open {s t : State} {c : Ctx} {k : Toks} {full : Ctx → State → Bool} {f : Ctx → State → Res}
    (ht : takeToks s c.key k = some t) (h : c.timed = false → full c s = false) : gated k full f c s = f c s := by
  cases hc : c.timed
  · simp [gated, hc, h hc, ht]
  · simp [gated, hc]

/-- A packed range of no bytes is one of no elements (R102). -/
theorem packedBytes_eq_zero {count ebits : Nat} : packedBytes count ebits = 0 ↔ count * ebits = 0 := by
  unfold packedBytes
  omega

/-- The scratchpad holds the packed range, which no bytes need. -/
theorem packedRange_fits {s : State} {key count ebits : Nat} {x : Word}
    (h : count * ebits = 0 ∨ tidOf x = 0xFFFF ∧ (spOwner s key x ((count * ebits + 7) / 8)).isSome = true) :
    ¬(packedBytes count ebits ≠ 0 ∧ (tidOf x ≠ 0xFFFF ∨ (spOwner s key x (packedBytes count ebits)).isNone = true)) := by
  rintro ⟨hne, hout⟩
  obtain h0 | ⟨htid, hown⟩ := h
  · exact hne (packedBytes_eq_zero.mpr h0)
  · exact hout.elim (absurd htid) (ne_true_of_eq_false (Option.isNone_eq_false_iff.mpr hown))

/-- An access word that has its tokens, and whose stream has room, starts the operation that its checks let through. -/
theorem access_starts {i : Instr} {s t : State} {regs : List (BitVec 6)} {k : Toks} {f : Ctx → State → Res} {o : Op}
    (hi : Issues lgLW regs s) (ht : takeToks (moved s) (issueCtx s).key k = some t)
    (hroom : (issueCtx s).timed = false → accFull (issueCtx s) (moved s) = false)
    (he : exec i s = word lgLW regs (gated k accFull f) s)
    (hf : f (issueCtx s) (moved s) = withToks (moved s) (issueCtx s) k fun u => .ok (startOp u (issueCtx s) o)) :
    Runs i s (startOp t (issueCtx s) o) :=
  runs_ok hi he ((gated_open ht hroom).trans (hf.trans (withToks_some _ ht)))

theorem accessWordsBegin : Rules.AccessWordsBegin := by
  intro s ds dt w q a b xf k c m ctx ws wt n x y op t ht
  refine ⟨fun hi => runs_withToks hi rfl ht rfl, fun hi => runs_withToks hi rfl ht rfl,
    fun hi htid hidx h8 hsz hbad hw => runs_withToks hi rfl ht (dldBody_loads htid hidx h8 hsz hbad hw),
    fun hroom hchk => ⟨fun hi hp hwide hsched => ?_, fun hi hp hbits => ?_, fun hi hrange => ?_, fun hi hchk' hcount hbits => ?_,
      fun hi => access_starts hi ht hroom rfl (orFault_zero hchk)⟩,
    fun hi z hz hroom hrow h7 => ⟨fun hp hmem hwide => ?_, fun hp h3 hfmt hbits => ?_⟩⟩
  · have hown : ¬(decide ((qFeed m c.key n).kind = .sched)
        && !(c.timed && decide (tidOf (dw ws 0) = 0xFFFF ∧ spIdx (dw ws 0) = cidxOf c.key))) = true := by
      simpa using hsched
    exact access_starts hi ht hroom rfl ((if_neg (Bool.not_not_eq.mpr hp)).trans ((orFault_zero hchk).trans
      ((if_neg (ne_true_of_eq_false hwide)).trans (if_neg hown))))
  · exact access_starts hi ht hroom rfl ((if_neg (Bool.not_not_eq.mpr hp)).trans ((orFault_zero hchk).trans
      (if_neg (Nat.not_lt.mpr hbits))))
  · have hstart := fun kind i (he : exec i s = packWord kind ds a k s) =>
      access_starts (o := { op kind with va := x }) hi ht hroom he ((orFault_zero hchk).trans (if_neg (packedRange_fits hrange)))
    exact ⟨hstart .rds _ rfl, hstart .wrs _ rfl⟩
  · have hsame : ¬(patCount ws ≠ patCount wt ∨ patBits m ctx ws ≠ patBits m ctx wt) := by simp [hcount, hbits]
    exact access_starts hi ht hroom rfl ((orFault_zero hchk).trans ((orFault_zero hchk').trans (if_neg hsame)))
  · subst hz
    have hrole : ¬((!producer m c n) = true ∨ (qFeed m c.key n).kind ≠ .mem ∨ (xf.extractLsb' 4 3).toNat = 7) :=
      not_or.mpr ⟨Bool.not_not_eq.mpr hp, not_or.mpr ⟨not_not.mpr hmem, h7⟩⟩
    exact access_starts hi ht hroom rfl ((if_neg hrole).trans ((orFault_zero hrow).trans (if_neg (ne_true_of_eq_false hwide))))
  · subst hz
    have hrole : ¬((!consumer m c n) = true ∨ (xf.extractLsb' 4 3).toNat = 7 ∨ (xf.extractLsb' 2 2).toNat = 3) :=
      not_or.mpr ⟨Bool.not_not_eq.mpr hp, not_or.mpr ⟨h7, h3⟩⟩
    have hwidth : ¬((!scatFmtOk m ctx x (xf.extractLsb' 2 2).toNat) = true
        ∨ qBits n < scatBits m ctx x (xf.extractLsb' 2 2).toNat (xf.extractLsb' 4 3).toNat) :=
      not_or.mpr ⟨Bool.not_not_eq.mpr hfmt, Nat.not_lt.mpr hbits⟩
    exact access_starts hi ht hroom rfl ((if_neg hrole).trans ((orFault_zero hrow).trans (if_neg hwidth)))

end Sys2Proof.Machine

open Sys2Proof Sys2Proof.Machine

/-- Settles O17: each word starts what its checks let through; its frame is that of its issue, of the tokens it takes and of what
it writes or starts. -/
theorem accessWords : Obligations.AccessWords := ⟨accessWordsBegin, accessWordFrame⟩

end

