-- ==== Sys2Proof/Proofs/MatrixEvents.lean ====
section
/-! SUPPORT. The events of a matrix engine with one command of their kind under way (R253, R256 to R263). -/

namespace Sys2Proof.Machine

/-! ## Queues and the matrix state of a cell under each other's updates -/

@[simp] theorem qEnts_setQ_same (s : State) (key q : Nat) (l : List QEntry) : qEnts (setQ s key q l) key q = l := by
  simp [qEnts, setQ]

@[simp] theorem mx_setQ (s : State) (key q : Nat) (l : List QEntry) : (cellAt (setQ s key q l) key).mx = (cellAt s key).mx := by
  simp [setQ]

@[simp] theorem qEnts_setMx (s : State) (key q : Nat) (f : MxState → MxState) : qEnts (setMx s key f) key q = qEnts s key q :=
  qEnts_setCell s key q _ rfl

@[simp] theorem mx_setMx_same (s : State) (key : Nat) (f : MxState → MxState) :
    (cellAt (setMx s key f) key).mx = f (cellAt s key).mx := by
  simp [setMx]

@[simp] theorem qEnts_addLatch (s : State) (key q : Nat) (l : Latch) : qEnts (addLatch s key l) key q = qEnts s key q := by
  simp [qEnts, cellAt_addLatch_same]

@[simp] theorem mx_addLatch (s : State) (key : Nat) (l : Latch) : (cellAt (addLatch s key l) key).mx = (cellAt s key).mx := by
  simp [cellAt_addLatch_same]

/-- A command without KD adds no token as it completes. -/
@[simp] theorem tokenFor_zero (s : State) (key : Nat) (w : Who) : tokenFor s key 0 w = s := rfl

/-- The only element of a list is the first that a test admits. -/
theorem findAt_single {α : Type} {p : α → Bool} {x : α} (h : p x = true) : findAt p [x] = some (0, x) := by
  simp [findAt, h]

/-! ## The take of a row -/

section
variable {s : State} {key : Nat} {r : MmaRun} {x : TakenRow} {xs : List TakenRow}

/-- A take that finds too few entries in a timed stream is a schedule miss: no further row is taken (log 87). -/
theorem mmaTake_missing (hm : (cellAt s key).mx.mmas = [r]) (hd : takeDue s key r = true)
    (hfew : (qEnts s key r.q).length < r.epr) (hp : r.per = false) :
    mmaTake s key = takeFault
      (setMx s key fun m => { m with mmas := if r.rows = [] then [] else [{ r with next := 128 }] }) (whoC key r.pc)
      { code := cSched } := by
  simp only [mmaTake, hm, findAt_single hd, if_pos hfew, hp, Bool.false_eq_true, if_false, setMx, List.isEmpty_iff,
    List.eraseIdx_cons_zero, List.set_cons_zero]

/-- A take with its entries removes them from the queue and adds its row to those taken. -/
theorem mmaTake_row (hm : (cellAt s key).mx.mmas = [r]) (hd : takeDue s key r = true)
    (hent : r.epr ≤ (qEnts s key r.q).length) :
    qEnts (mmaTake s key) key r.q = (qEnts s key r.q).drop r.epr
      ∧ ∃ r', (cellAt (mmaTake s key) key).mx.mmas = [r'] ∧ r'.next = r.next + 1 ∧ r'.rows.length = r.rows.length + 1 := by
  simp only [mmaTake, hm, findAt_single hd, if_neg (Nat.not_lt.mpr hent)]
  split
  all_goals
    simp only [qEnts_addLatch, qEnts_setMx, qEnts_setQ_same, mx_addLatch, mx_setMx_same, mx_setQ, hm, List.set_cons_zero]
    exact ⟨rfl, _, rfl, rfl, List.length_append⟩

/-! ## The landing of a row -/

/-- A contribution is to the tiles alone. -/
theorem addRow_mmas (m : MxState) (t row b wa : Nat) (ga : List (Option (Int × List Int))) :
    (addRow m t row b wa ga).mmas = m.mmas := rfl

theorem contribute_mmas (m : MxState) (r : MmaRun) (x : TakenRow) : (contribute m r x).mmas = m.mmas :=
  foldl_keeps (P := fun m' : MxState => m'.mmas = m.mmas) (fun _ _ h => by split <;> exact h) _ _ rfl

/-- A row that reads a word in error ends its command, whose token is then not added (R266, log 87). -/
theorem mmaLand_bad (hm : (cellAt s key).mx.mmas = [r]) (hr : r.rows = x :: xs) (hd : rowDue s key r = true)
    (hb : r.bad (cellAt s key) x.row = true) :
    mmaLand s key (rowDue s key) = takeFault
      (setCell s key { (cellAt s key).noKd r with mx := { (cellAt s key).mx with mmas := [] } }) (whoC key r.pc)
      { code := cMemErr, engn := true } := by
  simp only [mmaLand, hm, findAt_single hd, hr, hb, if_true, List.eraseIdx_cons_zero]

/-- Any other row is added to its tiles and leaves the command, which is over when no row is left to take or to land. -/
theorem mmaLand_row (hm : (cellAt s key).mx.mmas = [r]) (hr : r.rows = x :: xs) (hd : rowDue s key r = true)
    (hb : r.bad (cellAt s key) x.row = false) :
    (cellAt (mmaLand s key (rowDue s key)) key).mx = { contribute (cellAt s key).mx r x with
      mmas := if ({ r with rows := xs, nland := r.nland + 1 } : MmaRun).active then [{ r with rows := xs, nland := r.nland + 1 }]
        else [] } := by
  simp only [mmaLand, hm, findAt_single hd, hr, hb, Bool.false_eq_true, if_false, contribute_mmas, cellAt_setCell, if_true,
    List.set_cons_zero, List.eraseIdx_cons_zero]

end

/-! ## The landing of a load -/

section
variable {s : State} {key : Nat} {l : MloadRun}

/-- A load that expands writes the planes that it names, free of errors, after the headers that it overlaps are invalid. -/
theorem mloadLand_expands {m' : MxState} (hm : (cellAt s key).mx.mloads = [l]) (hd : loadDue s key l = true)
    (he : expandB (invalidate { (cellAt s key).mx with mloads := [] } l.t l.bset l.hdr.p) l = some m') :
    mloadLand s key = tokenFor
      (setCell s key { (cellAt s key).heal 3 (fun n => let k0 := 128 * (4 * l.t + l.bset)
          decide (k0 ≤ n ∧ n < k0 + 128 * l.hdr.p ∧ n % 128 < if l.hdr.sparse then l.hdr.k / 2 else l.hdr.k)) with mx := m' })
      key l.kd (whoC key l.pc) := by
  simp only [mloadLand, hm, findAt_single hd, List.eraseIdx_cons_zero, he]

/-- One that does not expand leaves those headers invalid and faults. -/
theorem mloadLand_malformed (hm : (cellAt s key).mx.mloads = [l]) (hd : loadDue s key l = true)
    (he : expandB (invalidate { (cellAt s key).mx with mloads := [] } l.t l.bset l.hdr.p) l = none) :
    mloadLand s key = takeFault
      (setCell s key { cellAt s key with mx := invalidate { (cellAt s key).mx with mloads := [] } l.t l.bset l.hdr.p })
      (whoC key l.pc) { code := cFormat } := by
  simp only [mloadLand, hm, findAt_single hd, List.eraseIdx_cons_zero, he]

end

/-! ## The entries of a strip -/

section
variable {s : State} {key : Nat} {x : StripRun}

/-- A ZRD without KD delivers its next entry into a queue with room. -/
theorem stripStep_delivers (hm : (cellAt s key).mx.strips = [x]) (hd : stripDue s key x = true) (hk : x.kind = 0)
    (hroom : (qEnts s key x.q).length < qCap x.q) (hkd : x.kd = 0) :
    qEnts (stripStep s key) key x.q = qEnts s key x.q ++ [{ data := x.ents.getD x.next 0, mark := false }] := by
  simp only [stripStep, hm, findAt_single hd, hk, if_true, if_neg (Nat.not_le.mpr hroom), hkd, tokenFor_zero, ite_self,
    qEnts_setMx, qEnts_setQ_same]

/-- A ZWR takes the oldest entry of its queue. -/
theorem stripStep_takes {e : QEntry} {es : List QEntry} (hm : (cellAt s key).mx.strips = [x]) (hd : stripDue s key x = true)
    (hk : x.kind ≠ 0) (hq : qEnts s key x.q = e :: es) (he : e.mark = false) : qEnts (stripStep s key) key x.q = es := by
  simp only [stripStep, hm, findAt_single hd, if_neg hk, hq, he, Bool.false_eq_true, if_false]
  split <;> simp

end

end Sys2Proof.Machine

open Sys2Proof Sys2Proof.Machine

/-- Settles O37, event by event. -/
theorem matrixRowsAndStripsLand : Obligations.MatrixRowsAndStripsLand := by
  intro s key
  refine ⟨fun r hm hd => ⟨fun hfew hp => ?_, fun hent => ?_⟩, fun r x xs hm hr hd hb => ?_, fun r x xs hm hr hd hb => ?_,
    fun l hm hd => ⟨fun m' he => ?_, fun he => ?_⟩, fun x hm hd => ⟨fun hk hroom hkd => ?_, fun e es hk hq he => ?_⟩⟩
  · exact runs_of_eq rfl (mmaTake_missing hm hd hfew hp)
  · exact ⟨_, rfl, mmaTake_row hm hd hent⟩
  · exact runs_of_eq rfl (mmaLand_bad hm hr hd hb)
  · refine ⟨_, rfl, ?_⟩
    rw [mmaLand_row hm hr hd hb]
    exact ⟨rfl, (ite_eq_or_eq _ _ _).symm⟩
  · exact runs_of_eq rfl (mloadLand_expands hm hd he)
  · exact runs_of_eq rfl (mloadLand_malformed hm hd he)
  · exact ⟨_, rfl, stripStep_delivers hm hd hk hroom hkd⟩
  · exact ⟨_, rfl, stripStep_takes hm hd hk hq he⟩

end

