-- ==== Sys2Proof/Proofs/IntegerLanes.lean ====
section
/-! SUPPORT. The integers of a lane, their reduction and shifts, and lane functions that agree on lanes (R131, R269, R280 to
R282). -/

namespace Sys2Proof.Machine

theorem laneAt_lt (w : Nat) (v : BitVec 2048) (j : Nat) : laneAt w v j < 2 ^ w := Nat.mod_lt _ (Nat.two_pow_pos w)

/-- Functions that agree on lanes describe the same lanewise word. -/
theorem LaneWise.congr {sp : Space} {i : Instr} {f : VecF} {n latency : Nat} {g g' : List Nat → Nat} {s : State}
    (h : LaneWise sp i f n latency g s)
    (hg : ∀ l, (∀ k, l.getD k 0 < 2 ^ laneW f.t) → g l % 2 ^ laneW f.t = g' l % 2 ^ laneW f.t) :
    LaneWise sp i f n latency g' s := by
  intro hi vs u hv
  obtain ⟨v, mask, hrun, hlanes⟩ := h hi vs u hv
  refine ⟨v, mask, hrun, fun j hj => ⟨(hlanes j hj).1.trans ?_, (hlanes j hj).2⟩⟩
  rw [hg]
  intro k
  rw [List.getD_eq_getElem?_getD, List.getElem?_map]
  cases vs[k]? with
  | none => exact Nat.two_pow_pos _
  | some x => exact laneAt_lt _ x j

/-! ## The integers of a lane (R131, R282) -/

theorem sintNat_eq_toInt (w x : Nat) : sintNat w x = (BitVec.ofNat w x).toInt := by
  rw [BitVec.toInt_eq_toNat_cond, BitVec.toNat_ofNat, sintNat]
  cases w with
  | zero => simp [Nat.mod_one]
  | succ w =>
    rw [Nat.add_sub_cancel, Nat.pow_succ]
    split <;> split <;> omega

theorem laneInt_eq {w x : Nat} (u : BitVec 1) (hx : x < 2 ^ w) :
    laneInt w (u == 1) x = if u = 1 then (x : Int) else (BitVec.ofNat w x).toInt := by
  by_cases hu : u = 1 <;> simp [laneInt, hu, sintNat_eq_toInt, Nat.mod_eq_of_lt hx]

theorem satI_eq_max_min {lo hi : Int} (h : lo ≤ hi) (i : Int) : satI lo hi i = max lo (min hi i) := by
  unfold satI
  split <;> [skip; split] <;> omega

theorem laneReduce_eq (w : Nat) (sat u : BitVec 1) (i : Int) :
    laneReduce w (sat == 1) (u == 1) i =
      ((if sat = 1 then max (if u = 1 then 0 else -(2 ^ (w - 1))) (min (if u = 1 then 2 ^ w - 1 else 2 ^ (w - 1) - 1) i) else i)
        % 2 ^ w).toNat := by
  have hw := Int.pow_pos (n := 2) (m := w) (by decide)
  have hw' := Int.pow_pos (n := 2) (m := w - 1) (by decide)
  have hrange : laneLo w (u == 1) ≤ laneHi w (u == 1) := by
    unfold laneLo laneHi
    split <;> push_cast <;> omega
  rw [laneReduce, satI_eq_max_min hrange, ofInt, laneLo, laneHi]
  push_cast
  simp only [beq_iff_eq]

/-- R282: an integer word of two lanes, with the integers of its lanes and their reduction to a lane. -/
theorem vi2_laneWise {i : Instr} {f : VecF} {latency : Nat} {g : Int → Int → Int} {s : State} {int : Nat → Int}
    {out : Int → Nat}
    (hint : ∀ x < 2 ^ laneW f.t, laneInt (laneW f.t) (f.u == 1) x = int x)
    (hout : ∀ i, laneReduce (laneW f.t) (f.sat == 1) (f.u == 1) i = out i) (he : exec i s = vi2 f latency g s) :
    LaneWise .vn i f 2 latency (fun l => out (g (int (l.getD 0 0)) (int (l.getD 1 0)))) s := by
  refine LaneWise.congr (g := fun l => laneReduce (laneW f.t) (f.sat == 1) (f.u == 1)
    (g (laneInt (laneW f.t) (f.u == 1) (arg l 0)) (laneInt (laneW f.t) (f.u == 1) (arg l 1)))) (laneWord_laneWise he) fun l hl => ?_
  simp only [arg, hint _ (hl _), hout]

/-! ## Shifts (R281) -/

/-- R281: a shift word of two lanes. -/
theorem shift_laneWise {i : Instr} {f : VecF} {kind : Nat} {g : Nat → Nat → Nat} {s : State}
    (hg : ∀ x y, laneShift (laneW f.t) kind x y % 2 ^ laneW f.t = g x y % 2 ^ laneW f.t)
    (he : exec i s = laneWord .vn f 2 2 (fun l => laneShift (laneW f.t) kind (arg l 0) (arg l 1)) s) :
    LaneWise .vn i f 2 2 (fun l => g (l.getD 0 0) (l.getD 1 0)) s :=
  LaneWise.congr (laneWord_laneWise he) fun _ _ => hg _ _

theorem laneShift_left (w x y : Nat) : laneShift w 0 x y % 2 ^ w = (if w ≤ y then 0 else x * 2 ^ y) % 2 ^ w := by
  change (if w ≤ y then 0 else x * 2 ^ y % 2 ^ w) % 2 ^ w = _
  split
  · rfl
  · exact Nat.mod_mod _ _

theorem laneShift_sra (w x y : Nat) :
    laneShift w 2 x y = ((BitVec.ofNat w x).toInt / 2 ^ min y w % 2 ^ w).toNat := by
  simp [laneShift, ofInt, sintNat_eq_toInt]

end Sys2Proof.Machine

open Sys2Proof Sys2Proof.Machine

/-- Settles O21, word by word: each is the lanewise word of its function. -/
theorem specialFunctionLanes : Obligations.SpecialFunctionLanes := fun _ _ =>
  ⟨laneWord_laneWise rfl, laneWord_laneWise rfl, laneWord_laneWise rfl, laneWord_laneWise rfl, laneWord_laneWise rfl,
    laneWord_laneWise rfl, laneWord_laneWise rfl, laneWord_laneWise rfl⟩

/-- Settles O22: logic as it stands, shifts by their count, arithmetic by the integers of the lanes. -/
theorem integerLanes : Obligations.IntegerLanes := by
  intro s f w x y int lo hi out
  have hint : ∀ x < 2 ^ w, laneInt w (f.u == 1) x = int x := fun _ => laneInt_eq f.u
  have hout : ∀ i, laneReduce w (f.sat == 1) (f.u == 1) i = out i := laneReduce_eq w f.sat f.u
  refine ⟨laneWord_laneWise rfl, laneWord_laneWise rfl, laneWord_laneWise rfl, laneWord_laneWise rfl, ?_, ?_, ?_, ?_⟩
  · exact shift_laneWise (laneShift_left w) rfl
  · exact shift_laneWise (kind := 1) (fun _ _ => rfl) rfl
  · exact shift_laneWise (fun x y => congrArg (· % _) (laneShift_sra w x y)) rfl
  · exact ⟨vi2_laneWise hint hout rfl, vi2_laneWise hint hout rfl, vi2_laneWise hint hout rfl, vi2_laneWise hint hout rfl,
      vi2_laneWise hint hout rfl⟩

end

