-- ==== Sys2Proof/Proofs/VectorMemory.lean ====
section
/-! SUPPORT. The vector accesses to a scratchpad (R83, R293, R325). -/

namespace Sys2Proof.Machine

/-- A word issues where one issues that waits for more registers. -/
theorem Issues.of_subset {lg : Legal} {regs regs' : List (BitVec 6)} {s : State} (h : Issues lg regs s)
    (hsub : ∀ r ∈ regs', r ∈ regs) : Issues lg regs' s := by
  refine ⟨h.can, h.joins, h.past, h.legal, fun ht => ⟨?_, (h.free ht).2⟩⟩
  have hfree := (h.free ht).1
  rw [List.any_eq_false] at hfree ⊢
  exact fun r hr => hfree r (hsub r hr)

section
variable {s : State} {c : Ctx} {sp : Space} {base : Word} {imm : BitVec 32}

theorem vecAddr_aligned {n align o : Nat} (ht : tidOf base = 0xFFFF) (ha : spOff (scalarEa base imm) % align = 0)
    (ho : spOwner s c.key (scalarEa base imm) n = some o) : vecAddr s c.key base imm n align = some (scalarEa base imm, o) := by
  rw [scalarEa] at *
  simp only [vecAddr, ht, ha, ho, ne_eq, not_true, or_self, if_false]

theorem vecAddr_misaligned {n align : Nat} (ha : spOff (scalarEa base imm) % align ≠ 0) :
    vecAddr s c.key base imm n align = none :=
  if_pos (.inr ha)

/-- R293: a load of a misaligned address is an access fault. -/
theorem vldBody_misaligned (d : BitVec 6) (ha : spOff (scalarEa base imm) % (if sp = .vn then 32 else 64) ≠ 0) :
    vldBody sp d imm base c s = accFault c cAddr (scalarEa base imm) base 0 0 4 := by
  simp only [vldBody, vecAddr_misaligned ha]
  rfl

section
variable {o : Nat} (ht : tidOf base = 0xFFFF) (ha : spOff (scalarEa base imm) % (if sp = .vn then 32 else 64) = 0)
  (ho : spOwner s c.key (scalarEa base imm) (vecBits sp / 8) = some o)
include ht ha ho

section
variable {d : BitVec 6} (hd : dstReady sp s c d = .ok ())
include hd

/-- R83: a load of bits in error faults. -/
theorem vldBody_spadBad (hb : spadBad s o (spOff (scalarEa base imm)) (vecBits sp / 8) = true) :
    vldBody sp d imm base c s =
      accFault c cMemErr (scalarEa base imm) base 0 0 (if o = c.key then 4 else 10 + hops c.key o) := by
  simp only [vldBody, vecAddr_aligned ht ha ho, hd, Got.then, hb, if_true]

theorem vldBody_loads (hb : spadBad s o (spOff (scalarEa base imm)) (vecBits sp / 8) = false)
    (hw : watchHit s c.key false (accessAddrs s 0 (scalarEa base imm) (vecBits sp / 8)) = false) :
    vldBody sp d imm base c s = .ok (landVec sp s c d
      (BitVec.ofNat 2048 (ofBytes (spadBytes s c.key o (spOff (scalarEa base imm)) (vecBits sp / 8)))) (fullMask sp)
      (if o = c.key then 4 else 10 + hops c.key o)) := by
  simp only [vldBody, vecAddr_aligned ht ha ho, hd, Got.then, hb, Bool.false_eq_true, if_false, watched_unhit hw]

end

theorem vstBody_stores {v : BitVec 2048} {t : State}
    (hw : watchHit s c.key true (accessAddrs s 0 (scalarEa base imm) (vecBits sp / 8)) = false)
    (hs : storeAt (spadHeal s o (spOff (scalarEa base imm)) (vecBits sp / 8)) c o (spOff (scalarEa base imm))
      (toBytes (vecBits sp / 8) v.toNat) 1 = some t) : vstBody sp imm base v c s = .ok t := by
  simp only [vstBody, vecAddr_aligned ht ha ho, hs, watched_unhit hw]

end

end

end Sys2Proof.Machine

open Sys2Proof Sys2Proof.Machine

/-- Settles O26: loads by the bits that they read and by the alignment of their address, stores by their data. -/
theorem vectorMemoryWords : Obligations.VectorMemoryWords := by
  intro s d a imm sp o ld st hword hi c m base ea n ht ho
  have hld : exec ld s = vldWord sp d a imm s := by obtain ⟨rfl, rfl, -⟩ | ⟨rfl, rfl, -⟩ := hword <;> rfl
  have hst : exec st s = vstWord sp d a imm s := by obtain ⟨rfl, -, rfl⟩ | ⟨rfl, -, rfl⟩ := hword <;> rfl
  have hi' : Issues { spaces := [sp] } [BitVec.ofNat 6 (a.toNat - 48)] s := hi.of_subset (by simp)
  refine ⟨fun ha => ⟨fun hd hb => ?_, fun hd hb hw => ?_, fun v t hv hw hs => ?_⟩, fun ha => ?_⟩
  · exact runs_fault hi' hld (vldBody_spadBad ht ha ho hd hb)
  · exact runs_ok hi' hld (vldBody_loads ht ha ho hd hb hw)
  · have hread := congrArg (Got.then · c fun p => vstBody sp imm base p.1 c p.2) hv
    exact runs_ok hi hst (hread.trans (vstBody_stores ht ha ho hw hs))
  · exact runs_fault hi' hld (vldBody_misaligned d ha)

end

