-- ==== Sys2Proof/Proofs/MaskWords.lean ====
section
/-! SUPPORT. Masks as packed bits, and the words that write them or choose by them (R270, R278, R279, R300, R301). -/

namespace Sys2Proof.Machine

/-! ## Masks -/

/-- The mask of the lanes, of n, that satisfy p. -/
def maskOf (n : Nat) (p : Nat → Bool) : BitVec 256 :=
  BitVec.ofNat 256 (packL 1 (((List.range n).map p).map fun x => if x then 1 else 0))

theorem getLsbD_maskOf (n : Nat) (p : Nat → Bool) {j : Nat} (hj : j < 256) :
    (maskOf n p).getLsbD j = (decide (j < n) && p j) := by
  have hlane := packL_lane 1 (((List.range n).map p).map fun x => if x then 1 else 0) j
  rw [Nat.one_mul, Nat.pow_one] at hlane
  rw [maskOf, BitVec.getLsbD_ofNat, decide_eq_true hj, Bool.true_and, Nat.testBit_eq_decide_div_mod_eq, hlane]
  by_cases hjn : j < n
  · cases hp : p j <;> simp [hjn, hp]
  · simp [hjn]

/-! ## The lanes of two vectors side by side -/

theorem zip_zipIdx_lanes {α : Type} (w n : Nat) (v v' : BitVec 2048) (F : (Nat × Nat) × Nat → α) :
    ((unpackL w n v.toNat).zip (unpackL w n v'.toNat)).zipIdx.map F =
      (List.range n).map fun j => F ((laneAt w v j, laneAt w v' j), j) := by
  refine List.ext_getElem (by simp [unpackL_toNat]) fun j h1 h2 => ?_
  simp [unpackL_toNat]

/-- A vector packed from one value for each lane has these values, as far as they fit. -/
theorem laneAt_packed {w n j : Nat} (g : Nat → Nat) (hn : w * n ≤ 2048) (hj : j < n) :
    laneAt w (BitVec.ofNat 2048 (packL w ((List.range n).map g))) j = g j % 2 ^ w := by
  rw [laneAt_ofNat_packL (by simpa using hn)]
  simp [hj]

section
variable {s u : State} {f : VecF} {vs : List (BitVec 2048)}

/-! ## Comparisons and selections (R278, R279) -/

section
variable (hi : VecIssues .vn (vecSrcs f 2) s)
  (hv : readSrcs .vn (laneW f.t) (issueCtx s) (moved s) (vecSrcs f 2) = .ok (vs, u))
include hi hv

theorem vcmpWord_lands {i : Instr} {kind : Nat} (he : exec i s = vcmpWord kind f s) :
    Runs i s (landM u (issueCtx s) f.d.toNat
      (maskOf (2048 / laneW f.t) fun j => ((cellAt u (issueCtx s).key).readM f.msk.toNat).getLsbD j
        && laneCmp f.t (f.u == 1) kind (laneAt (laneW f.t) (vs.getD 0 0) j) (laneAt (laneW f.t) (vs.getD 1 0) j)) 2) := by
  refine runs_ok hi he ?_
  simp only [hv, Got.then, zip_zipIdx_lanes]
  rfl

theorem vsel_lands (hd : dstReady .vn (moved s) (issueCtx s) f.d = .ok ()) :
    Runs (.vsel f) s (landVec .vn u (issueCtx s) f.d
      (BitVec.ofNat 2048 (packL (laneW f.t) ((List.range (2048 / laneW f.t)).map fun j =>
        if ((cellAt u (issueCtx s).key).readM f.msk.toNat).getLsbD j then laneAt (laneW f.t) (vs.getD 0 0) j
        else laneAt (laneW f.t) (vs.getD 1 0) j))) (BitVec.allOnes 256) 2) := by
  refine runs_lanesWord hi ⟨hv, hd⟩ (exec_vsel f s) ?_
  simp only [zip_zipIdx_lanes]
  rfl

end

/-! ## VMSET (R300) -/

theorem vmset_ofLanes (hsub : f.sub.toNat ≠ 2) (hi : VecIssues .vn (vecSrcs f 1) s)
    (hv : readSrcs .vn (laneW f.t) (issueCtx s) (moved s) (vecSrcs f 1) = .ok (vs, u)) :
    Runs (.vmset f) s (landM u (issueCtx s) f.d.toNat (maskOf (2048 / laneW f.t) fun j =>
      if f.sub.toNat = 0 then decide (laneAt (laneW f.t) (vs.getD 0 0) j ≠ 0)
      else decide (2 ^ (laneW f.t - 1) ≤ laneAt (laneW f.t) (vs.getD 0 0) j)) 2) := by
  refine runs_ok (regs := if f.sub.toNat = 2 then [BitVec.ofNat 6 (f.a.toNat - 48)] else aFields .vn (vecSrcs f 1))
    (by rwa [if_neg hsub]) rfl ?_
  simp only [if_neg hsub, hv, Got.then, unpackL_toNat, List.map_map]
  simp only [maskOf, List.map_map, Function.comp_def]

theorem vmset_ofCount (hsub : f.sub.toNat = 2) (hi : Issues { spaces := [.vn] } [BitVec.ofNat 6 (f.a.toNat - 48)] s) :
    Runs (.vmset f) s (landM (moved s) (issueCtx s) f.d.toNat (maskOf (2048 / laneW f.t) fun j =>
      decide (j < (readA (moved s) (issueCtx s).key (f.a.toNat - 48)).toNat)) 2) :=
  runs_ok (regs := if f.sub.toNat = 2 then [BitVec.ofNat 6 (f.a.toNat - 48)] else aFields .vn (vecSrcs f 1))
    (by rwa [if_pos hsub]) rfl (if_pos hsub)

/-! ## VMCNT (R301) -/

theorem vmcnt_lands (hi : Issues { spaces := [.vn] } [] s) (hd : dstReady .vn (moved s) (issueCtx s) f.d = .ok ()) :
    Runs (.vmcnt f) s (landVec .vn (moved s) (issueCtx s) f.d
      (BitVec.ofNat 2048 ((List.range (2048 / laneW f.t)).countP fun j =>
        ((cellAt (moved s) (issueCtx s).key).readM f.a.toNat).getLsbD j)) (BitVec.allOnes 256) 2) := by
  refine runs_ok hi rfl ?_
  simp only [hd, Got.then, List.countP_eq_length_filter]
  rfl

end

end Sys2Proof.Machine

open Sys2Proof Sys2Proof.Machine

/-- Settles O23: the masks of comparisons and of VMSET bit by bit, VSEL lane by lane, mask logic and VMCNT as they stand. -/
theorem masksAndSelects : Obligations.MasksAndSelects := by
  intro s f c m w n k writes
  have hwrites {i : Instr} {u : State} {latency : Nat} {p : Nat → Bool} (h : Runs i s (landM u c k (maskOf n p) latency)) :
      writes i u latency p := ⟨_, h, fun _ hj => getLsbD_maskOf n p hj⟩
  refine ⟨fun hi vs u hv => ?_, fun hi vs u hv => ⟨fun hsub => ?_, fun hsub => ?_⟩, fun hi hsub => ?_,
    fun hi => ⟨?_, ?_, ?_, vmcnt_lands hi⟩⟩
  · intro on cmp
    have hcmp {i : Instr} {kind : Nat} (he : exec i s = vcmpWord kind f s) : writes i u 2 (cmp kind) :=
      hwrites (vcmpWord_lands hi hv he)
    refine ⟨hcmp (exec_vcmpeq f s), hcmp (exec_vcmpne f s), hcmp (exec_vcmplt f s), hcmp (exec_vcmple f s),
      fun hd => ⟨_, vsel_lands hi hv hd, fun j hj => ?_⟩⟩
    refine (laneAt_packed _ (lanes_fit .vn f.t).1 hj).trans ?_
    rw [← apply_ite (laneAt (laneW f.t) · j)]
    exact Nat.mod_eq_of_lt (laneAt_lt _ _ _)
  · have hrun := vmset_ofLanes (by rw [hsub]; decide) hi hv
    simp only [hsub] at hrun
    exact hwrites hrun
  · have hrun := vmset_ofLanes (by rw [hsub]; decide) hi hv
    simp only [hsub] at hrun
    exact hwrites hrun
  · exact hwrites (vmset_ofCount (congrArg BitVec.toNat hsub) hi)
  · exact runs_ok hi rfl rfl
  · exact runs_ok hi rfl rfl
  · exact runs_ok hi rfl rfl

end

