-- ==== Sys2Proof/Proofs/QuantiseNormalise.lean ====
section
/-! SUPPORT. The dot product, quantisation and normalisation words over the lanes of their sources (R151, R273, R294 to R299). -/

namespace Sys2Proof.Machine

/-! ## Lists of lanes -/

theorem zipIdx_map_range {α β : Type} (n : Nat) (g : Nat → α) (F : α × Nat → β) :
    ((List.range n).map g).zipIdx.map F = (List.range n).map fun j => F (g j, j) :=
  List.ext_getElem (by simp) fun j h1 h2 => by simp

theorem getD_map_range {α : Type} (g : Nat → α) {n j : Nat} (hj : j < n) (d : α) : ((List.range n).map g).getD j d = g j := by
  simp [hj]

/-- A stretch of a list of one value for each index. -/
theorem take_drop_map_range {α : Type} (g : Nat → α) {a k n : Nat} (h : a + k ≤ n) :
    (((List.range n).map g).drop a).take k = (List.range k).map fun e => g (a + e) :=
  List.ext_getElem (by simp; omega) fun e h1 h2 => by simp

/-- The members of lists of one length, one list after the other. -/
theorem getD_flatten {α : Type} {k : Nat} (hk : 0 < k) (d : α) (ls : List (List α)) (hls : ∀ l ∈ ls, l.length = k)
    (j : Nat) :
    ls.flatten.getD j d = (ls.getD (j / k) []).getD (j % k) d := by
  induction ls generalizing j with
  | nil => simp
  | cons l ls ih =>
    obtain ⟨hl, htail⟩ := List.forall_mem_cons.mp hls
    rw [List.flatten_cons]
    by_cases hj : j < k
    · rw [List.getD_append _ _ _ _ (hl ▸ hj), Nat.div_eq_of_lt hj, Nat.mod_eq_of_lt hj, List.getD_cons_zero]
    · have hle : k ≤ j := Nat.not_lt.mp hj
      rw [List.getD_append_right _ _ _ _ (hl ▸ hle), hl, ih htail, Nat.div_eq_sub_div hk hle, Nat.mod_eq_sub_mod hle,
        List.getD_cons_succ]

/-- R273: one value for each lane of a VN word goes into the lanes that the mask admits; the others stay, or become 0. -/
theorem landLanes_vn (f : VecF) (c : Ctx) (u : State) (g : Nat → Nat) (latency : Nat) :
    ∃ v mask, landLanes .vn f (laneW f.t) c u ((List.range (2048 / laneW f.t)).map g) latency
        = landVec .vn u c f.d v mask latency ∧
      ∀ j < 2048 / laneW f.t,
        let on := ((cellAt u c.key).readM f.msk.toNat).getLsbD j
        laneAt (laneW f.t) v j = (if on then g j % 2 ^ laneW f.t else 0)
          ∧ ∀ b < laneW f.t / 8,
              mask.getLsbD (j * (laneW f.t / 8) + b) = (on || f.zm == 1 || (fieldQueue .vn f.d).isSome) := by
  obtain ⟨v, mask, hland, hlanes⟩ :=
    landLanes_lanes .vn f c u latency (res := (List.range (2048 / laneW f.t)).map g) (by simp [vecBits])
  refine ⟨v, mask, hland, fun j hj => ?_⟩
  have hlane := hlanes j hj
  simpa [hj] using hlane

theorem laneW_cases (t : BitVec 3) : laneW t = 32 ∨ laneW t = 16 ∨ laneW t = 8 := by
  unfold laneW
  split <;> simp

/-! ## The halves of a vector (R295) -/

section
variable {q c : Nat} (hq : q < 2 ^ 1024)
include hq

theorem getLsbD_halves (i : Nat) : (BitVec.ofNat 2048 (q + c * 2 ^ 1024)).getLsbD i =
    (decide (i < 2048) && if i < 1024 then q.testBit i else c.testBit (i - 1024)) := by
  rw [BitVec.getLsbD_ofNat, Nat.add_comm, Nat.mul_comm, Nat.testBit_two_pow_mul_add _ hq]

theorem laneAt_lowHalf {w j : Nat} (hj : w * (j + 1) ≤ 1024) :
    laneAt w (BitVec.ofNat 2048 (q + c * 2 ^ 1024)) j = q / 2 ^ (w * j) % 2 ^ w := by
  rw [Nat.mul_succ] at hj
  refine Nat.eq_of_testBit_eq fun i => ?_
  rw [laneAt, Nat.testBit_mod_two_pow, Nat.testBit_mod_two_pow, Nat.testBit_div_two_pow, Nat.testBit_div_two_pow,
    BitVec.testBit_toNat, getLsbD_halves hq]
  by_cases hi : i < w
  · simp [hi, show i + w * j < 1024 by omega, show i + w * j < 2048 by omega]
  · simp [hi]

theorem laneAt_highHalf {b : Nat} (hb : b < 128) :
    laneAt 8 (BitVec.ofNat 2048 (q + c * 2 ^ 1024)) (128 + b) = c / 2 ^ (8 * b) % 2 ^ 8 := by
  refine Nat.eq_of_testBit_eq fun i => ?_
  rw [laneAt, Nat.testBit_mod_two_pow, Nat.testBit_mod_two_pow, Nat.testBit_div_two_pow, Nat.testBit_div_two_pow,
    BitVec.testBit_toNat, getLsbD_halves hq]
  by_cases hi : i < 8
  · simp [hi, show i + 8 * (128 + b) < 2048 by omega, show ¬ i + 8 * (128 + b) < 1024 by omega,
      show i + 8 * (128 + b) - 1024 = i + 8 * b by omega]
  · simp [hi]

end

/-- Byte i of the high half is byte 128 + i of the vector. -/
theorem getD_unpackL_highHalf (v : BitVec 2048) {i k : Nat} (hi : i < k) :
    (unpackL 8 k (v.toNat / 2 ^ 1024)).getD i 0 = laneAt 8 v (128 + i) := by
  rw [unpackL_eq_map, laneAt, Nat.mul_add, Nat.pow_add, ← Nat.div_div_eq_div_mul]
  simp [hi]

theorem ofInt_zero (w : Nat) : ofInt w 0 = 0 := by simp [ofInt]

theorem ofInt_mod (w : Nat) (i : Int) : ofInt w i % 2 ^ w = ofInt w i := by
  have hpos : (0 : Int) < (2 ^ w : Nat) := Int.natCast_pos.mpr (Nat.two_pow_pos w)
  refine Nat.mod_eq_of_lt ((Int.toNat_lt (Int.emod_nonneg i hpos.ne')).mpr (Int.emod_lt_of_pos i hpos))

/-! ## DOT16 (R294) -/

/-- The width of an output of DOT16. -/
def dotW (f : VecF) : Nat := if f.t.getLsbD 2 then 16 else 32

/-- Output j of DOT16. -/
def dotOut (f : VecF) (vs : List (BitVec 2048)) (j : Nat) : Nat :=
  dot16 (if f.t.getLsbD 2 then bf16 else fp32) f.rm.toNat ((List.range 16).map fun e =>
    ((if f.t.getLsbD 0 then e5m2 else e4m3).dec (laneAt 8 (vs.getD 0 0) (16 * j + e)),
     (if f.t.getLsbD 1 then e5m2 else e4m3).dec (laneAt 8 (vs.getD 1 0) (16 * j + e))))

section
variable {s u : State} {f : VecF} {vs : List (BitVec 2048)}

theorem dot16_lands (hi : VecIssues .vn (vecSrcs f 2) s) (hv : vecReads .vn f 2 8 s vs u) :
    Runs (.dot16 f) s (landVec .vn u (issueCtx s) f.d
      (BitVec.ofNat 2048 (packL (dotW f) ((List.range 16).map fun j =>
        if ((cellAt u (issueCtx s).key).readM f.msk.toNat).getLsbD j then dotOut f vs j else 0)))
      (byteMask (dotW f) (((List.range 16).map fun j => f.zm == 1 || (fieldQueue .vn f.d).isSome
        || ((cellAt u (issueCtx s).key).readM f.msk.toNat).getLsbD j) ++ List.replicate (2048 / dotW f - 16) true)) 6) := by
  refine runs_lanesWord hi hv (exec_dot16 f s) ?_
  have houts : (List.range 16).map (fun g => dot16 (if f.t.getLsbD 2 then bf16 else fp32) f.rm.toNat
      ((((((unpackL 8 256 (vs.getD 0 0).toNat).map (if f.t.getLsbD 0 then e5m2 else e4m3).dec).zip
        ((unpackL 8 256 (vs.getD 1 0).toNat).map (if f.t.getLsbD 1 then e5m2 else e4m3).dec)).drop (16 * g)).take 16)))
      = (List.range 16).map (dotOut f vs) := by
    refine List.map_congr_left fun g hg => ?_
    have hg' := List.mem_range.mp hg
    rw [unpackL_toNat, unpackL_toNat, List.map_map, List.map_map, List.zip_map', take_drop_map_range _ (by omega)]
    rfl
  simp only [houts, zipIdx_map_range]
  rfl

theorem dotW_cases (f : VecF) : dotW f = 16 ∨ dotW f = 32 := by
  unfold dotW
  split <;> simp

/-- Lane j of the outputs: they lie in lanes 0 to 15, and every lane above is written with 0. -/
theorem dot16_lane (f : VecF) (zm q : Bool) (on : Nat → Bool) (out : Nat → Nat) {j : Nat} (hj : j < 2048 / dotW f) :
    laneAt (dotW f) (BitVec.ofNat 2048 (packL (dotW f) ((List.range 16).map fun j => if on j then out j else 0))) j
        = (if j < 16 ∧ on j = true then out j % 2 ^ dotW f else 0)
      ∧ ∀ b < dotW f / 8,
        (byteMask (dotW f) (((List.range 16).map fun j => zm || q || on j) ++ List.replicate (2048 / dotW f - 16) true)).getLsbD
          (j * (dotW f / 8) + b) = (decide (16 ≤ j) || on j || zm || q) := by
  have hw := dotW_cases f
  refine ⟨?_, fun b hb => ?_⟩
  · rw [laneAt_ofNat_packL (by rcases hw with hw | hw <;> simp [hw])]
    by_cases h16 : j < 16
    · cases hon : on j <;> simp [h16, hon]
    · simp [h16]
  · rw [getLsbD_byteMask hb (by rcases hw with hw | hw <;> rw [hw] at hj hb ⊢ <;> omega)]
    by_cases h16 : j < 16
    · rw [List.getD_append _ _ _ _ (by simpa using h16)]
      rw [getD_map_range _ h16, decide_eq_false (Nat.not_le.mpr h16), Bool.false_or]
      ac_rfl
    · have hle := Nat.not_lt.mp h16
      rw [List.getD_append_right _ _ _ _ (by simpa using hle)]
      simp [hle, show j - 16 < 2048 / dotW f - 16 by omega]

/-! ## VQUANT (R151, R295) -/

theorem quantTry_length (xs : List (Bool × Nat × Int)) (lo hi c : Int) : (quantTry xs lo hi c).1.length = xs.length := by
  simp [quantTry]

/-- A block has an integer for each of its elements. -/
theorem vquant_length (xs : List FNum) (lo hi d : Int) : (vquant xs lo hi d).1.length = xs.length := by
  unfold vquant
  dsimp only
  split
  · simp
  · next hfin =>
    split
    · simp
    · dsimp only
      split <;> split <;> rw [quantTry_length] <;> exact not_not.mp hfin

/-- Block b of a source, quantised. -/
def quantBlock (f : VecF) (v : BitVec 2048) (b : Nat) : List Int × Nat :=
  vquant (((((List.range (2048 / laneW f.t)).map (laneAt (laneW f.t) v)).drop (32 * b)).take 32).map (laneFmt f.t).dec)
    (quantTarget f.sub).1 (quantTarget f.sub).2.1 (quantTarget f.sub).2.2.1

theorem quantBlock_length (f : VecF) (v : BitVec 2048) {b : Nat} (hb : b < 2048 / laneW f.t / 32) :
    (quantBlock f v b).1.length = 32 := by
  rw [quantBlock, vquant_length]
  simp
  omega

/-- The result of VQUANT: the integers of the blocks in the low half, their scale codes in the high half. -/
def quantVec (f : VecF) (v : BitVec 2048) : BitVec 2048 :=
  BitVec.ofNat 2048
    (packL (quantTarget f.sub).2.2.2
        (((List.range (2048 / laneW f.t / 32)).flatMap fun b => (quantBlock f v b).1).map (ofInt (quantTarget f.sub).2.2.2))
      + packL 8 ((List.range (2048 / laneW f.t / 32)).map fun b => (quantBlock f v b).2) * 2 ^ 1024)

theorem execVquant_eq (f : VecF) (s : State) : execVquant f s = lanesWord .vn f 1 (laneW f.t)
    (fun c s vs => .ok (landVec .vn s c f.d (quantVec f (vs.getD 0 0)) (BitVec.allOnes 256) 10)) s := by
  unfold execVquant quantVec quantBlock
  rcases quantTarget f.sub with ⟨lo, hi, d, eb⟩
  simp only [unpackL_toNat, blocks32, List.map_map, List.flatMap_map, Function.comp_def, ← List.map_drop, ← List.map_take,
    fullMask, if_true]

theorem vquant_lands (hi : VecIssues .vn (vecSrcs f 1) s) (hv : vecReads .vn f 1 (laneW f.t) s vs u) :
    Runs (.vquant f) s (landVec .vn u (issueCtx s) f.d (quantVec f (vs.getD 0 0)) (BitVec.allOnes 256) 10) :=
  runs_lanesWord hi hv ((exec_vquant f s).trans (execVquant_eq f s)) rfl

theorem quantTarget_bits (sub : BitVec 4) : (quantTarget sub).2.2.2 = 4 ∨ (quantTarget sub).2.2.2 = 8 := by
  unfold quantTarget
  split <;> simp

/-- The vectors of 64 or 128 lanes are those of FP32 and BF16. -/
theorem floatLanes_count {t : BitVec 3} (ht : t.toNat < 2) : 2048 / laneW t = 64 ∨ 2048 / laneW t = 128 := by
  obtain h | h : t.toNat = 0 ∨ t.toNat = 1 := by omega
  · simp [laneW, h]
  · simp [laneW, h]

section
variable (hn : 2048 / laneW f.t = 64 ∨ 2048 / laneW f.t = 128) (v : BitVec 2048)
include hn

/-- The integers of the blocks fit into the low half. -/
theorem quantInts_lt : packL (quantTarget f.sub).2.2.2
    (((List.range (2048 / laneW f.t / 32)).flatMap fun b => (quantBlock f v b).1).map (ofInt (quantTarget f.sub).2.2.2))
      < 2 ^ 1024 := by
  refine (packL_lt _ _).trans_le (Nat.pow_le_pow_right Nat.two_pos ?_)
  rw [List.length_map, List.length_flatMap, List.map_congr_left (g := fun _ => 32)
    fun b hb => quantBlock_length f v (List.mem_range.mp hb), List.map_const', List.sum_replicate, List.length_range]
  rcases hn with hn | hn <;> rcases quantTarget_bits f.sub with he | he <;> rw [hn, he] <;> decide

/-- Byte b of the high half is the scale code of block b. -/
theorem quantVec_code {b : Nat} (hb : b < 2048 / laneW f.t / 32) :
    laneAt 8 (quantVec f v) (128 + b) = (quantBlock f v b).2 % 256 := by
  rw [quantVec, laneAt_highHalf (quantInts_lt hn v) (by omega), packL_lane, getD_map_range _ hb]
  rfl

/-- Element j is integer j % 32 of block j / 32. -/
theorem quantVec_lane {j : Nat} (hj : j < 2048 / laneW f.t) :
    laneAt (quantTarget f.sub).2.2.2 (quantVec f v) j =
      ofInt (quantTarget f.sub).2.2.2 ((quantBlock f v (j / 32)).1.getD (j % 32) 0) := by
  have hb : j / 32 < 2048 / laneW f.t / 32 := by omega
  have hlens : ∀ l ∈ (List.range (2048 / laneW f.t / 32)).map fun b => (quantBlock f v b).1, l.length = 32 := by
    simpa using fun b => quantBlock_length f v
  have hfit : (quantTarget f.sub).2.2.2 * (j + 1) ≤ 1024 := by
    rcases quantTarget_bits f.sub with he | he <;> rw [he] <;> omega
  have hblock : ((List.range (2048 / laneW f.t / 32)).map fun b => (quantBlock f v b).1).getD (j / 32) []
      = (quantBlock f v (j / 32)).1 := getD_map_range _ hb []
  have hget := getD_flatten (by decide) (0 : Int) _ hlens j
  rw [quantVec, laneAt_lowHalf (quantInts_lt hn v) hfit, packL_lane, List.flatMap_def, ← ofInt_zero (quantTarget f.sub).2.2.2,
    List.getD_map, hget, hblock, ofInt_mod]

end

/-! ## VDEQ (R296) -/

/-- Element j of A under the target of VDEQ, and the scale code of its block. -/
def deqElem (f : VecF) (v : BitVec 2048) (j : Nat) : Nat := laneAt (quantTarget f.sub).2.2.2 v j
def deqCode (v : BitVec 2048) (j : Nat) : Nat := laneAt 8 v (128 + j / 32)

/-- Lane j of the result of VDEQ. -/
def deqLane (f : VecF) (v : BitVec 2048) (j : Nat) : Nat :=
  if deqCode v j = 0xFF then (laneFmt f.t).nan
  else (laneFmt f.t).round f.rm.toNat (.fin (decide (sintNat (quantTarget f.sub).2.2.2 (deqElem f v j) < 0))
    (sintNat (quantTarget f.sub).2.2.2 (deqElem f v j)).natAbs ((deqCode v j : Int) - 127))

/-- INT3 elements are sign-extended containers (R132): bit 3 repeats bit 2. -/
def int3Ok (f : VecF) (v : BitVec 2048) : Prop :=
  f.sub = 0 → ∀ j < 2048 / laneW f.t, deqElem f v j / 8 % 2 = deqElem f v j / 4 % 2

theorem vdeq_lands (hi : VecIssues .vn (vecSrcs f 1) s) (hv : vecReads .vn f 1 8 s vs u) (hok : int3Ok f (vs.getD 0 0)) :
    Runs (.vdeq f) s (landLanes .vn f (laneW f.t) (issueCtx s) u
      ((List.range (2048 / laneW f.t)).map (deqLane f (vs.getD 0 0))) 4) := by
  have hblock : 2048 / laneW f.t % 32 = 0 := by rcases laneW_cases f.t with hw | hw | hw <;> rw [hw]
  have hcodes {j : Nat} (hj : j < 2048 / laneW f.t) :
      (unpackL 8 (2048 / laneW f.t / 32) ((vs.getD 0 0).toNat / 2 ^ 1024)).getD (j / 32) 0 = deqCode (vs.getD 0 0) j :=
    getD_unpackL_highHalf _ (by omega)
  have he := exec_vdeq f s
  unfold execVdeq at he
  unfold int3Ok deqElem at hok
  unfold deqLane deqElem
  generalize quantTarget f.sub = target at he hok ⊢
  obtain ⟨lo, up, d, eb⟩ := target
  have hwell : ¬(f.sub = 0 ∧ ((unpackL eb (2048 / laneW f.t) (vs.getD 0 0).toNat).any
      fun x => decide (x / 8 % 2 ≠ x / 4 % 2)) = true) := by
    rintro ⟨h0, hany⟩
    obtain ⟨x, hx, hne⟩ := List.any_eq_true.mp hany
    rw [unpackL_toNat] at hx
    obtain ⟨j, hj, rfl⟩ := List.mem_map.mp hx
    exact of_decide_eq_true hne (hok h0 j (List.mem_range.mp hj))
  refine runs_lanesWord hi hv he ?_
  dsimp only
  rw [if_neg hwell, unpackL_toNat, zipIdx_map_range]
  refine congrArg (fun l => Res.ok (landLanes .vn f (laneW f.t) (issueCtx s) u l 4)) (List.map_congr_left fun j hj => ?_)
  rw [hcodes (List.mem_range.mp hj)]

/-! ## VNMEAN, VNVAR and VNAPPLY (R297 to R299) -/

/-- R297: the mean of the admitted lanes. -/
theorem vnmean_lands (hi : VecIssues .vn (vecSrcs f 1) s) (hv : vecReads .vn f 1 (laneW f.t) s vs u) :
    let ls := admitted ((cellAt u (issueCtx s).key).readM f.msk.toNat)
      ((List.range (2048 / laneW f.t)).map (laneAt (laneW f.t) (vs.getD 0 0)))
    Runs (.vnmean f) s (landVec .vn u (issueCtx s) f.d
      (splat32 (meanOf (treeSum f.t 0 ls) (ls.filter Option.isSome).length)) (BitVec.allOnes 256) 9) := by
  intro ls
  refine runs_lanesWord hi hv (exec_vnmean f s) ?_
  rw [unpackL_toNat]
  rfl

/-- Only the admitted lanes count, whatever becomes of their values. -/
theorem length_filter_isSome_map {α β : Type} (g : α → β) (ls : List (Option α)) :
    ((ls.map fun o => o.map g).filter Option.isSome).length = (ls.filter Option.isSome).length := by
  rw [List.filter_map, List.length_map]
  simp [Function.comp_def]

/-- R298: the mean of the squared distances of the admitted lanes from the mean in lane 0 of B. -/
theorem vnvar_lands (hi : VecIssues .vn (vecSrcs f 2) s) (hv : vecReads .vn f 2 (laneW f.t) s vs u) :
    let mu := fp32Lane0 u (issueCtx s) f.b (vs.getD 1 0)
    let sq := (admitted ((cellAt u (issueCtx s).key).readM f.msk.toNat)
      ((List.range (2048 / laneW f.t)).map (laneAt (laneW f.t) (vs.getD 0 0)))).map fun o => o.map fun x =>
        f32mul (f32sub (cvtFF (laneFmt f.t) fp32 0 false x) mu) (f32sub (cvtFF (laneFmt f.t) fp32 0 false x) mu)
    Runs (.vnvar f) s (landVec .vn u (issueCtx s) f.d
      (splat32 (meanOf (treeSum 0 0 sq) (sq.filter Option.isSome).length)) (BitVec.allOnes 256) 10) := by
  intro mu sq
  refine runs_lanesWord hi hv (exec_vnvar f s) ?_
  rw [length_filter_isSome_map, unpackL_toNat]
  rfl

/-- R299: the distance of each lane from the mean in lane 0 of B, times lane 0 of C. -/
theorem vnapply_lands (hi : VecIssues .vn (vecSrcs f 3) s) (hv : vecReads .vn f 3 (laneW f.t) s vs u) :
    let mu := fp32Lane0 u (issueCtx s) f.b (vs.getD 1 0)
    let r := fp32Lane0 u (issueCtx s) f.c (vs.getD 2 0)
    Runs (.vnapply f) s (landLanes .vn f (laneW f.t) (issueCtx s) u
      (((List.range (2048 / laneW f.t)).map (laneAt (laneW f.t) (vs.getD 0 0))).map fun x =>
        (laneFmt f.t).round 0 (FNum.mul (fp32.dec (f32sub (cvtFF (laneFmt f.t) fp32 0 false x) mu)) (fp32.dec r))) 5) := by
  refine runs_lanesWord hi hv (exec_vnapply f s) ?_
  rw [unpackL_toNat]

end

end Sys2Proof.Machine

open Sys2Proof Sys2Proof.Machine

/-- Settles O27, word by word: DOT16 by its sixteen outputs, VQUANT and VDEQ by blocks of 32, the others by their admitted lanes. -/
theorem dotQuantiseNormalise : Obligations.DotQuantiseNormalise := by
  intro s f vs u c w n lanes adm splat lane0 mean
  have hlane0 : ∀ g v, fp32Lane0 u (issueCtx s) g v = lane0 g v := fun g v => by
    simp only [fp32Lane0, lane0]
    cases opd .vn g <;> rfl
  refine ⟨fun hi hv => ?_, fun hi hv ht => ?_, fun hi hv => ?_, fun hi hv _ => ?_, fun hi hv => ?_⟩
  · exact ⟨_, _, dot16_lands hi hv, fun j hj => dot16_lane f (f.zm == 1) (fieldQueue .vn f.d).isSome
      (fun j => ((cellAt u c.key).readM f.msk.toNat).getLsbD j) (dotOut f vs) hj⟩
  · have hn := floatLanes_count ht
    exact ⟨_, vquant_lands hi hv, vnmean_lands hi hv, fun b hb => quantVec_code hn _ hb,
      fun j hj => (quantVec_lane hn _ hj).trans (by rw [quantBlock, Nat.mul_comm])⟩
  · intro eb x code hok
    obtain ⟨v, mask, hland, hlanes⟩ := landLanes_vn f c u (deqLane f (vs.getD 0 0)) 4
    exact ⟨v, mask, hland ▸ vdeq_lands hi hv hok, hlanes⟩
  · have hrun := vnvar_lands hi hv
    simp only [hlane0] at hrun
    exact hrun
  · have hrun := vnapply_lands hi hv
    simp only [hlane0] at hrun
    exact hrun

end

