-- ==== Sys2Proof/Proofs/LaneMoves.lean ====
section
/-! SUPPORT. Permutation, rotation, moves, conversion, index and immediate words (R273, R283, R289 to R292, R324). -/

namespace Sys2Proof.Machine

/-- R272: a word with a lane index in B has its own effect where it issues with its operands there. -/
theorem runs_lanesOver {fs : List (BitVec 6 × Bool)} {sp : Space} {i : Instr} {f : VecF} {n w : Nat}
    {k : Ctx → State → List (BitVec 2048) → Res} {s u t : State} {vs : List (BitVec 2048)} (hi : VecIssues sp fs s)
    (hv : vecReads sp f n w s vs u) (he : exec i s = lanesOver fs sp f n w k s) (hk : k (issueCtx s) u vs = .ok t) :
    Runs i s t := by
  obtain ⟨hsrc, hdst⟩ := hv
  refine runs_ok hi he ?_
  simp only [hsrc, hdst, Got.then, hk]

/-- A lane beyond the last one reads as 0. -/
theorem getD_unpackL (w n : Nat) (v : BitVec 2048) (j : Nat) :
    (unpackL w n v.toNat).getD j 0 = if j < n then laneAt w v j else 0 := by
  split
  · next hj => exact getD_unpackL_toNat v hj
  · next hj => simp [unpackL_toNat, hj]

/-- A vector has lanes. -/
theorem lanes_pos (sp : Space) (t : BitVec 3) : 0 < vecBits sp / laneW t := by
  have hv : vecBits sp = 2048 ∨ vecBits sp = 512 := by unfold vecBits; split <;> simp
  rcases laneW_cases t with hw | hw | hw <;> rcases hv with hv | hv <;> rw [hw, hv] <;> decide

theorem mod_lanes_lt (sp : Space) (x : Nat) (t : BitVec 3) : x % (vecBits sp / laneW t) < vecBits sp / laneW t :=
  Nat.mod_lt _ (lanes_pos sp t)

theorem vnIndex_lt (x : Nat) (t : BitVec 3) : x % (2048 / laneW t) < 2048 / laneW t := mod_lanes_lt .vn x t

section
variable {s u : State} {f : VecF} {vs : List (BitVec 2048)}

/-! ## VPERM, VBCAST, VROT, VIDX and VLI (R289, R290, R292) -/

theorem vperm_lands (hi : VecIssues .vn (vecSrcs f 2) s) (hv : vecReads .vn f 2 (laneW f.t) s vs u) :
    Runs (.vperm f) s (landLanes .vn f (laneW f.t) (issueCtx s) u ((List.range (2048 / laneW f.t)).map fun j =>
      if laneAt (laneW f.t) (vs.getD 1 0) j < 2048 / laneW f.t
      then laneAt (laneW f.t) (vs.getD 0 0) (laneAt (laneW f.t) (vs.getD 1 0) j) else 0) 3) := by
  refine runs_lanesWord hi hv (exec_vperm f s) ?_
  rw [unpackL_toNat _ _ (vs.getD 1 0)]
  simp only [List.map_map, Function.comp_def, getD_unpackL]

section
variable (hi : VecIssues .vn (indexSrcs f) s) (hv : vecReads .vn f 1 (laneW f.t) s vs u)
include hi hv

theorem vbcast_lands : Runs (.vbcast f) s (landLanes .vn f (laneW f.t) (issueCtx s) u ((List.range (2048 / laneW f.t)).map fun _ =>
    laneAt (laneW f.t) (vs.getD 0 0) ((readA u (issueCtx s).key (f.b.toNat - 48)).toNat % (2048 / laneW f.t))) 2) := by
  have he := exec_vbcast f s
  unfold execVbcast at he
  refine runs_lanesOver hi hv he ?_
  simp only [getD_unpackL, vnIndex_lt, if_true, List.map_const', List.length_range]

theorem vrot_lands : Runs (.vrot f) s (landLanes .vn f (laneW f.t) (issueCtx s) u ((List.range (2048 / laneW f.t)).map fun j =>
    if f.sub.toNat = 1 then
      (if j + (readA u (issueCtx s).key (f.b.toNat - 48)).toNat % (2048 / laneW f.t) < 2048 / laneW f.t then
        laneAt (laneW f.t) (vs.getD 0 0) (j + (readA u (issueCtx s).key (f.b.toNat - 48)).toNat % (2048 / laneW f.t)) else 0)
    else laneAt (laneW f.t) (vs.getD 0 0)
      ((j + (readA u (issueCtx s).key (f.b.toNat - 48)).toNat % (2048 / laneW f.t)) % (2048 / laneW f.t))) 3) := by
  have he := exec_vrot f s
  unfold execVrot at he
  refine runs_lanesOver hi hv he ?_
  simp only [getD_unpackL, vnIndex_lt, if_true]

end

theorem vidx_lands (hi : Issues { spaces := [.vn] } [BitVec.ofNat 6 (f.a.toNat - 48)] s)
    (hd : dstReady .vn (moved s) (issueCtx s) f.d = .ok ()) :
    Runs (.vidx f) s (landLanes .vn f (laneW f.t) (issueCtx s) (moved s) ((List.range (2048 / laneW f.t)).map fun j =>
      (j + (readA (moved s) (issueCtx s).key (f.a.toNat - 48)).toNat) % 2 ^ laneW f.t) 2) := by
  refine runs_ok hi (exec_vidx f s) ?_
  simp only [hd, Got.then]

theorem vli_lands {d : BitVec 6} {t : BitVec 3} (imm : BitVec 32) (hi : Issues { spaces := [.vn] } [] s)
    (hd : dstReady .vn (moved s) (issueCtx s) d = .ok ()) :
    Runs (.vli d t imm) s (landVec .vn (moved s) (issueCtx s) d
      (BitVec.ofNat 2048 (packL (laneW t) (List.replicate (2048 / laneW t) imm.toNat))) (BitVec.allOnes 256) 2) := by
  refine runs_ok hi (exec_vli d t imm s) ?_
  simp only [hd, Got.then]
  rfl

/-! ## Lanes that receive nothing (R273, R283) -/

/-- R273, R283: a lane j that the mask admits and that receives a value, where p j, takes it, r j; the others stay, or become 0. -/
theorem landLanesO_lanes (sp : Space) (f : VecF) (c : Ctx) (u : State) {g : Nat → Option Nat} {p : Nat → Bool} {r : Nat → Nat}
    (hg : ∀ j, (g j).map (· % 2 ^ laneW f.t) = if p j then some (r j) else none) (latency : Nat) :
    ∃ v mask, landLanesO sp f (laneW f.t) c u ((List.range (vecBits sp / laneW f.t)).map g) latency
        = landVec sp u c f.d v mask latency ∧
      ∀ j < vecBits sp / laneW f.t,
        let on := (decide (sp ≠ .vn) || ((cellAt u c.key).readM f.msk.toNat).getLsbD j) && p j
        laneAt (laneW f.t) v j = (if on then r j else 0)
          ∧ ∀ b < laneW f.t / 8,
              mask.getLsbD (j * (laneW f.t / 8) + b) = (on || f.zm == 1 || (fieldQueue sp f.d).isSome) := by
  obtain ⟨hbits, hlanes, hbytes⟩ := lanes_fit sp f.t
  refine ⟨_, _, rfl, fun j hj => ?_⟩
  have hon : (govMask sp u c.key f).getLsbD j = (decide (sp ≠ .vn) || ((cellAt u c.key).readM f.msk.toNat).getLsbD j) := by
    unfold govMask
    by_cases hsp : sp = .vn
    · simp [hsp]
    · rw [if_neg hsp, BitVec.getLsbD_allOnes]
      simp [hsp, show j < 256 by omega]
  have hsome : (g j).isSome = p j := by
    rw [← Option.isSome_map (f := (· % 2 ^ laneW f.t)), hg]
    cases p j <;> rfl
  have hval : (g j).getD 0 % 2 ^ laneW f.t = if p j then r j else 0 := by
    have hmod : (g j).getD 0 % 2 ^ laneW f.t = ((g j).map (· % 2 ^ laneW f.t)).getD 0 := by cases g j <;> simp
    rw [hmod, hg]
    cases p j <;> rfl
  refine ⟨?_, fun b hb => ?_⟩
  · rw [zipIdx_map_range, laneAt_packed _ hbits hj, hon]
    dsimp only
    rw [apply_ite (· % 2 ^ laneW f.t), hval, Nat.zero_mod]
    simp only [Bool.and_eq_true, ite_and]
  · have hbyte : (j + 1) * (laneW f.t / 8) ≤ 256 := Nat.le_trans (Nat.mul_le_mul_right _ hj) hbytes
    rw [Nat.succ_mul] at hbyte
    rw [getLsbD_byteMask hb (by omega), zipIdx_map_range, getD_map_range _ hj, hon, hsome]
    ac_rfl

/-! ## VMOV and GMOV (R291, R324) -/

/-- The field names a queue of 64-bit entries. -/
def namesWordQueue (sp : Space) (g : BitVec 6) : Bool :=
  match fieldQueue sp g with
  | some q => decide (q < 8)
  | none => false

theorem namesWordQueue_of_lt {sp : Space} {g : BitVec 6} {x : Nat} (hg : opd sp g = .q x) (hx : x < 8) :
    namesWordQueue sp g = true := by
  simp [namesWordQueue, fieldQueue, hg, hx]

theorem namesWordQueue_of_ge {sp : Space} {g : BitVec 6} (hg : ∀ x, opd sp g = .q x → 8 ≤ x) :
    namesWordQueue sp g = false := by
  unfold namesWordQueue fieldQueue
  cases h : opd sp g with
  | q x => exact decide_eq_false (Nat.not_lt.mpr (hg x h))
  | _ => rfl

/-- A move extracts a lane into a queue of words, inserts an entry of such a queue, or copies. -/
theorem movWord_eq (sp : Space) (f : VecF) (latency : Nat) (s : State) : movWord sp f latency s =
    if namesWordQueue sp f.d then
      lanesOver (indexSrcs f) sp f 1 (laneW f.t) (fun c s vs => .ok (landVec sp s c f.d
        (BitVec.ofNat 2048 ((unpackL (laneW f.t) (vecBits sp / laneW f.t) (vs.getD 0 0).toNat).getD
          ((readA s c.key (f.b.toNat - 48)).toNat % (vecBits sp / laneW f.t)) 0)) (fullMask sp) latency)) s
    else if namesWordQueue sp f.a then
      lanesOver (indexSrcs f) sp f 1 (laneW f.t) (fun c s vs => .ok (landLanesO sp f (laneW f.t) c s
        ((List.range (vecBits sp / laneW f.t)).map fun j =>
          if j = (readA s c.key (f.b.toNat - 48)).toNat % (vecBits sp / laneW f.t) then some ((vs.getD 0 0).toNat % 2 ^ laneW f.t)
          else none) latency)) s
    else laneWord sp f 1 latency (fun l => l.getD 0 0) s := rfl

/-- What lane j receives where x enters lane k alone. -/
def insertAt (w k x j : Nat) : Option Nat := if j = k then some (x % 2 ^ w) else none

theorem insertAt_mod (w k x j : Nat) :
    (insertAt w k x j).map (· % 2 ^ w) = if decide (j = k) then some (x % 2 ^ w) else none := by
  unfold insertAt
  by_cases h : j = k <;> simp [h]

section
variable {sp : Space} {i : Instr} (he : exec i s = movWord sp f 2 s)
include he

theorem mov_extracts {x : Nat} (hi : VecIssues sp (indexSrcs f) s) (hv : vecReads sp f 1 (laneW f.t) s vs u)
    (hd : opd sp f.d = .q x) (hx : x < 8) :
    Runs i s (landVec sp u (issueCtx s) f.d (BitVec.ofNat 2048 (laneAt (laneW f.t) (vs.getD 0 0)
      ((readA u (issueCtx s).key (f.b.toNat - 48)).toNat % (vecBits sp / laneW f.t)))) (fullMask sp) 2) := by
  rw [movWord_eq, if_pos (namesWordQueue_of_lt hd hx)] at he
  refine runs_lanesOver hi hv he ?_
  rw [getD_unpackL_toNat _ (mod_lanes_lt sp _ f.t)]

theorem mov_inserts {x : Nat} (hi : VecIssues sp (indexSrcs f) s) (hv : vecReads sp f 1 (laneW f.t) s vs u)
    (hd : ∀ y, opd sp f.d = .q y → 8 ≤ y) (ha : opd sp f.a = .q x) (hx : x < 8) :
    Runs i s (landLanesO sp f (laneW f.t) (issueCtx s) u ((List.range (vecBits sp / laneW f.t)).map
      (insertAt (laneW f.t) ((readA u (issueCtx s).key (f.b.toNat - 48)).toNat % (vecBits sp / laneW f.t))
        (vs.getD 0 0).toNat)) 2) := by
  rw [movWord_eq, if_neg (ne_true_of_eq_false (namesWordQueue_of_ge hd)), if_pos (namesWordQueue_of_lt ha hx)] at he
  exact runs_lanesOver hi hv he rfl

theorem mov_copies (hd : ∀ x, opd sp f.d = .q x → 8 ≤ x) (ha : ∀ x, opd sp f.a = .q x → 8 ≤ x) :
    LaneWise sp i f 1 2 (fun l => l.getD 0 0) s := by
  rw [movWord_eq, if_neg (ne_true_of_eq_false (namesWordQueue_of_ge hd)),
    if_neg (ne_true_of_eq_false (namesWordQueue_of_ge ha))] at he
  exact laneWord_laneWise he

end

/-! ## VCVT and GVCVT (R283, R324) -/

/-- The source lane that lane j of nd takes in a conversion of ns lanes. -/
def cvtFrom (ns nd part j : Nat) : Option Nat :=
  if nd < ns then some (part * nd + j) else if part * ns ≤ j ∧ j < part * ns + ns then some (j - part * ns) else none

theorem cvtFrom_lt {ns nd part j x : Nat} (hp : part < max ns nd / min ns nd) (hj : j < nd) (h : cvtFrom ns nd part j = some x) :
    x < ns := by
  unfold cvtFrom at h
  split at h
  · next hlt =>
    rw [max_eq_left hlt.le, min_eq_right hlt.le] at hp
    have hfit : (part + 1) * nd ≤ ns := (Nat.mul_le_mul_right nd hp).trans (Nat.div_mul_le_self ns nd)
    rw [Nat.succ_mul] at hfit
    have := Option.some.inj h
    omega
  · split at h
    · have := Option.some.inj h
      omega
    · cases h

/-- The lanes of a conversion, each by the source lane that it takes. -/
theorem cvtFrom_map {ns nd part j : Nat} {src lane : Nat → Nat} (hp : part < max ns nd / min ns nd) (hj : j < nd)
    (hsrc : ∀ x < ns, src x = lane x) :
    (if ns ≤ nd then if part * ns ≤ j ∧ j < part * ns + ns then some (src (j - part * ns)) else none
      else some (src (part * nd + j)))
      = (cvtFrom ns nd part j).map lane := by
  have hlt := fun x => cvtFrom_lt (x := x) hp hj
  unfold cvtFrom at hlt ⊢
  by_cases hn : nd < ns
  · rw [if_pos hn] at hlt ⊢
    rw [if_neg (Nat.not_le.mpr hn), hsrc _ (hlt _ rfl), Option.map_some]
  · rw [if_neg hn] at hlt ⊢
    rw [if_pos (Nat.not_lt.mp hn)]
    split
    · next hin => rw [hsrc _ (hlt _ (if_pos hin)), Option.map_some]
    · rfl

/-- The type that a conversion reads. -/
def cvtType (f : VecF) : BitVec 3 := f.sub.extractLsb' 0 3

/-- What lane j receives from a source of a conversion. -/
def cvtResult (sp : Space) (f : VecF) (v : BitVec 2048) (j : Nat) : Option Nat :=
  (cvtFrom (vecBits sp / laneW (cvtType f)) (vecBits sp / laneW f.t) f.part.toNat j).map fun x =>
    cvtLane f.t (cvtType f) f.rm.toNat (f.sat == 1) (f.u == 1) (laneAt (laneW (cvtType f)) v x)

theorem cvtResult_mod (sp : Space) (f : VecF) (v : BitVec 2048) (j : Nat) :
    let from_ := cvtFrom (vecBits sp / laneW (cvtType f)) (vecBits sp / laneW f.t) f.part.toNat j
    (cvtResult sp f v j).map (· % 2 ^ laneW f.t) = if from_.isSome then
      some (cvtLane f.t (cvtType f) f.rm.toNat (f.sat == 1) (f.u == 1) (laneAt (laneW (cvtType f)) v (from_.getD 0))
        % 2 ^ laneW f.t)
    else none := by
  unfold cvtResult
  cases cvtFrom (vecBits sp / laneW (cvtType f)) (vecBits sp / laneW f.t) f.part.toNat j <;> rfl

theorem cvt_lands {sp : Space} {i : Instr} (he : exec i s = cvtWord sp f 3 s) (hi : VecIssues sp (vecSrcs f 1) s)
    (hv : vecReads sp f 1 (laneW (cvtType f)) s vs u)
    (hp : f.part.toNat < max (vecBits sp / laneW (cvtType f)) (vecBits sp / laneW f.t)
      / min (vecBits sp / laneW (cvtType f)) (vecBits sp / laneW f.t)) :
    Runs i s (landLanesO sp f (laneW f.t) (issueCtx s) u
      ((List.range (vecBits sp / laneW f.t)).map (cvtResult sp f (vs.getD 0 0))) 3) := by
  unfold cvtWord at he
  refine runs_lanesWord hi hv he ((if_neg (Nat.not_le.mpr hp)).trans ?_)
  refine congrArg (fun l => Res.ok (landLanesO sp f (laneW f.t) (issueCtx s) u l 3)) (List.map_congr_left fun j hj => ?_)
  exact cvtFrom_map hp (List.mem_range.mp hj) fun x hx => congrArg (cvtLane _ _ _ _ _) (getD_unpackL_toNat _ hx)

end

/-! ## The words together -/

theorem laneMoves : Rules.LaneMoves := by
  intro s f c w n k lands
  refine ⟨⟨fun vs u hi hv => vperm_lands hi hv, fun vs u hi hv hk => ?_, fun hd => ⟨fun hi => vidx_lands hi hd,
    fun hi imm => vli_lands imm hi hd⟩⟩, fun vs u sp i hword hv => ?_, fun vs u sp i hword hi => ?_⟩
  · have hrot := vrot_lands hi hv
    refine ⟨hk ▸ vbcast_lands hi hv, fun hsub => ?_, fun hsub => ?_⟩
    · rw [hsub, hk] at hrot
      exact hrot
    · rw [hsub, hk] at hrot
      exact hrot
  · have he : exec i s = movWord sp f 2 s := by obtain ⟨rfl, rfl⟩ | ⟨rfl, rfl⟩ := hword <;> rfl
    refine ⟨fun x hi hd hx => mov_extracts he hi hv hd hx, fun x hi hd ha hx => ?_, mov_copies he⟩
    obtain ⟨v, mask, hland, hlanes⟩ := landLanesO_lanes sp f c u (insertAt_mod w
      ((readA u c.key (f.b.toNat - 48)).toNat % (vecBits sp / w)) (vs.getD 0 0).toNat) 2
    exact ⟨v, mask, hland ▸ mov_inserts he hi hv hd ha hx, hlanes⟩
  · intro ts ws ns nd part cv from_ hv hp
    have he : exec i s = cvtWord sp f 3 s := by obtain ⟨rfl, rfl⟩ | ⟨rfl, rfl⟩ := hword <;> rfl
    obtain ⟨v, mask, hland, hlanes⟩ := landLanesO_lanes sp f c u (cvtResult_mod sp f (vs.getD 0 0)) 3
    exact ⟨v, mask, hland ▸ cvt_lands he hi hv hp, hlanes⟩

end Sys2Proof.Machine
end

