-- ==== Sys2Proof/Proofs/LaneWordFrame.lean ====
section
/-! SUPPORT. The frame of a lane word: what the reads of its sources and the write of its destination leave (R161, R272, R273). -/

namespace Sys2Proof.Machine

/-- t is s but for what the issue of a word of cell k may change (CellFrame), the vector register that D names and the queues that
the fields of the word name. -/
structure LaneStep (k : Nat) (sp : Space) (f : VecF) (s t : State) : Prop where
  rest : { t with regions := s.regions, nextId := s.nextId, cells := s.cells } = s
  cells : ∀ j ≠ k, cellAt t j = cellAt s j
  cell : { cellAt t k with ss := (cellAt s k).ss, sl := (cellAt s k).sl, sc := (cellAt s k).sc, sw := (cellAt s k).sw,
                           task := (cellAt s k).task, shadow := (cellAt s k).shadow, lat := (cellAt s k).lat,
                           v := (cellAt s k).v, q := (cellAt s k).q } = cellAt s k
  vecs : ∀ r, opd sp f.d ≠ .v r → readV t k r = readV s k r
  queues : ∀ n, (∀ g ∈ [f.a, f.b, f.c, f.d], fieldQueue sp g ≠ some n) → qEnts t k n = qEnts s k n

section
variable {k : Nat} {sp : Space} {f : VecF} {s t u : State}

theorem LaneStep.trans (h : LaneStep k sp f s t) (g : LaneStep k sp f t u) : LaneStep k sp f s u where
  rest := by
    have h1 := h.rest
    rw [← g.rest] at h1
    exact h1
  cells j hj := (g.cells j hj).trans (h.cells j hj)
  cell := by
    have h1 := h.cell
    rw [← g.cell] at h1
    exact h1
  vecs r hr := (g.vecs r hr).trans (h.vecs r hr)
  queues n hn := (g.queues n hn).trans (h.queues n hn)

theorem LaneStep.of_frame (h : CellFrame k s t) : LaneStep k sp f s t where
  rest := h.rest
  cells := h.cells
  cell := by
    have hv : (cellAt t k).v = (cellAt s k).v := h.getCell Cell.v rfl
    have hq : (cellAt t k).q = (cellAt s k).q := h.getCell Cell.q rfl
    rw [← hv, ← hq]
    exact h.cell
  vecs r _ := h.getCell (fun c => sget 0 c.v r) rfl
  queues n _ := h.getCell (fun c => sget [] c.q n) rfl

theorem LaneStep.refl : LaneStep k sp f s s := .of_frame (.refl k s)

/-- What is read from neither the regions, the next name nor the cells reads as before. -/
theorem LaneStep.get {α : Type} (h : LaneStep k sp f s t) (g : State → α)
    (hg : g { t with regions := s.regions, nextId := s.nextId, cells := s.cells } = g t) : g t = g s :=
  hg.symm.trans (congrArg g h.rest)

/-- So does what is read in the cell from none of the fields that cell names. -/
theorem LaneStep.getCell {α : Type} (h : LaneStep k sp f s t) (g : Cell → α)
    (hg : g { cellAt t k with ss := (cellAt s k).ss, sl := (cellAt s k).sl, sc := (cellAt s k).sc, sw := (cellAt s k).sw,
                              task := (cellAt s k).task, shadow := (cellAt s k).shadow, lat := (cellAt s k).lat,
                              v := (cellAt s k).v, q := (cellAt s k).q } = g (cellAt t k)) : g (cellAt t k) = g (cellAt s k) :=
  hg.symm.trans (congrArg g h.cell)

/-- The registers of a cell are among what a lane word leaves. -/
theorem LaneStep.readA (h : LaneStep k sp f s t) (r : Nat) : readA t k r = readA s k r := by
  have hcore : ∀ j, coreAt t j = coreAt s j := fun j => h.get (coreAt · j) rfl
  have ha : (cellAt t k).a = (cellAt s k).a := h.getCell Cell.a rfl
  rw [Machine.readA, Machine.readA, hcore, ha]

/-! ## Writes of queues and vector registers -/

theorem setQ_laneStep {g : BitVec 6} {n : Nat} (hg : g ∈ [f.a, f.b, f.c, f.d]) (hn : fieldQueue sp g = some n) (l : List QEntry) :
    LaneStep k sp f s (setQ s k n l) where
  rest := rfl
  cells j hj := by rw [setQ, cellAt_setCell, if_neg hj]
  cell := by rw [setQ, cellAt_setCell, if_pos rfl]
  vecs r _ := by rw [readV, readV, setQ, cellAt_setCell, if_pos rfl]
  queues m hm := by
    have hne : m ≠ n := fun h => hm g hg (h ▸ hn)
    rw [qEnts, qEnts, setQ, cellAt_setCell, if_pos rfl]
    exact sget_sset_other _ _ _ hne

theorem writeV_laneStep {r : Nat} (hd : opd sp f.d = .v r) (v : BitVec 2048) (mask : BitVec 256) :
    LaneStep k sp f s (writeV s k r v mask) where
  rest := rfl
  cells j hj := by rw [writeV, cellAt_setCell, if_neg hj]
  cell := by rw [writeV, cellAt_setCell, if_pos rfl]
  vecs m hm := by
    have hne : m ≠ r := fun h => hm (h ▸ hd)
    rw [readV, readV, writeV, cellAt_setCell, if_pos rfl]
    exact sget_sset_other _ _ _ hne
  queues m _ := by rw [qEnts, qEnts, writeV, cellAt_setCell, if_pos rfl]

/-- The write of D: a latch in a timed stream, the register or the queue itself otherwise. -/
theorem landVec_laneStep (c : Ctx) (v : BitVec 2048) (mask : BitVec 256) (latency : Nat) :
    LaneStep c.key sp f s (landVec sp s c f.d v mask latency) := by
  unfold landVec
  split
  · next r hd =>
    unfold landV
    split
    · exact .of_frame (addLatch_cellFrame ..)
    · exact writeV_laneStep hd v mask
  · next n hd =>
    unfold landQ
    split
    · exact .of_frame (addLatch_cellFrame ..)
    · exact setQ_laneStep (g := f.d) (by simp) (by simp only [fieldQueue, hd]) _
  · exact .refl

/-! ## Reads of sources -/

theorem readSrc_laneStep {w : Nat} {c : Ctx} {g : BitVec 6} {pk : Bool} {v : BitVec 2048} (hg : g ∈ [f.a, f.b, f.c, f.d])
    (h : readSrc sp w s c g pk = .ok (v, t)) : LaneStep c.key sp f s t := by
  unfold readSrc takeEntry at h
  split at h
  · cases h; exact .refl
  · next n hn =>
    split at h
    · next e u he =>
      cases h
      split at he
      · cases he
      · split at he
        · cases he
        · split at he
          · cases he
          · split at he
            · cases he; exact .refl
            · cases he; exact setQ_laneStep hg (by simp only [fieldQueue, hn]) _
    · cases h
    · cases h
  · cases h; exact .refl
  · cases h

theorem readSrcs_laneStep {w : Nat} {c : Ctx} {fs : List (BitVec 6 × Bool)} {vs : List (BitVec 2048)}
    (hfs : ∀ p ∈ fs, p.1 ∈ [f.a, f.b, f.c, f.d]) (h : readSrcs sp w c s fs = .ok (vs, t)) : LaneStep c.key sp f s t := by
  induction fs generalizing s vs with
  | nil => cases h; exact .refl
  | cons p fs ih =>
    obtain ⟨hp, htail⟩ := List.forall_mem_cons.mp hfs
    unfold readSrcs at h
    split at h
    · next v u hu =>
      split at h
      · next vs' t' ht => cases h; exact (readSrc_laneStep hp hu).trans (ih htail ht)
      · cases h
      · cases h
    · cases h
    · cases h

theorem vecSrcs_fields (n : Nat) : ∀ p ∈ vecSrcs f n, p.1 ∈ [f.a, f.b, f.c, f.d] := by
  intro p hp
  have hmem := List.mem_of_mem_take hp
  simp only [List.mem_cons, List.not_mem_nil, or_false] at hmem
  rcases hmem with rfl | rfl | rfl <;> simp

/-! ## The issue of a lane word -/

theorem Res.Goes.imp {P Q : State → Prop} {r : Res} (h : r.Goes P) (hPQ : ∀ t, P t → Q t) : r.Goes Q := by
  cases r with
  | ok t => exact hPQ t h
  | goto t pc => exact hPQ t h
  | fault x => trivial
  | okFault t x => exact hPQ t h
  | wait => trivial

theorem Got.then_goes {α : Type} {P : State → Prop} {g : Got α} {c : Ctx} {b : α → Res}
    (h : ∀ a, g = .ok a → (b a).Goes P) : (g.then c b).Goes P := by
  cases g with
  | ok a => exact h a rfl
  | ill => trivial
  | short => exact Res.goes_ite trivial trivial

section
variable {i : Instr} (hc : isCore s.cur = false) (h : exec i s = .next t)
include hc h

/-- A word of the cell whose body is a lane step is one, whatever its issue comes to. -/
theorem word_laneStep {lg : Legal} {regs : List (BitVec 6)} {body : Ctx → State → Res} (he : exec i s = word lg regs body s)
    (hb : ∀ c u, (body c u).Goes (LaneStep c.key sp f u)) : LaneStep s.cur sp f s t := by
  refine word_goes hc .refl (fun hu hv => hu.trans (.of_frame hv)) (fun u hu _ => ?_) (he.symm.trans h)
  exact (hb (issueCtx s) u).imp fun v hv => (LaneStep.of_frame hu).trans (issueCtx_key s ▸ hv)

/-- So is one that reads its sources and finds its destination ready before its effect. -/
theorem srcWord_laneStep {lg : Legal} {regs : List (BitVec 6)} {n w : Nat}
    {b : Ctx → State → List (BitVec 2048) × State → Unit → Res}
    (he : exec i s = word lg regs
      (fun c u => (readSrcs sp w c u (vecSrcs f n)).then c fun p => (dstReady sp u c f.d).then c (b c u p)) s)
    (hb : ∀ c u vs v x, (b c u (vs, v) x).Goes (LaneStep c.key sp f v)) : LaneStep s.cur sp f s t :=
  word_laneStep hc h he fun c u => Got.then_goes fun ⟨vs, v⟩ hv => Got.then_goes fun x _ =>
    (hb c u vs v x).imp fun _ => (readSrcs_laneStep (vecSrcs_fields n) hv).trans

/-- So is one that reads no source. -/
theorem dstWord_laneStep {lg : Legal} {regs : List (BitVec 6)} {b : Ctx → State → Unit → Res}
    (he : exec i s = word lg regs (fun c u => (dstReady sp u c f.d).then c (b c u)) s)
    (hb : ∀ c u x, (b c u x).Goes (LaneStep c.key sp f u)) : LaneStep s.cur sp f s t :=
  word_laneStep hc h he fun c u => Got.then_goes fun x _ => hb c u x

theorem movWord_laneStep {latency : Nat} (he : exec i s = movWord sp f latency s) : LaneStep s.cur sp f s t := by
  rw [movWord_eq] at he
  split at he
  · exact srcWord_laneStep hc h he fun c _ _ _ _ => landVec_laneStep c ..
  · split at he
    · exact srcWord_laneStep hc h he fun c _ _ _ _ => landVec_laneStep c ..
    · exact srcWord_laneStep hc h he fun c _ _ _ _ => landVec_laneStep c ..

end

/-- The frame of a lane word, whatever its issue comes to. -/
theorem exec_laneStep {i : Instr} (hi : Rules.laneWordOf i = some (sp, f)) (hc : isCore s.cur = false) (h : exec i s = .next t) :
    LaneStep s.cur sp f s t := by
  cases i <;> simp only [Rules.laneWordOf, Option.some.injEq, Prod.mk.injEq, reduceCtorEq] at hi <;> obtain ⟨rfl, rfl⟩ := hi
  case vmov f | gmov f => exact movWord_laneStep hc h rfl
  case vidx f | vmcnt f => exact dstWord_laneStep hc h rfl fun c _ _ => landVec_laneStep c ..
  case vcvt f | gvcvt f | vdeq f =>
    exact srcWord_laneStep hc h rfl fun c _ _ _ _ => Res.goes_ite trivial (landVec_laneStep c ..)
  all_goals exact srcWord_laneStep hc h rfl fun c _ _ _ _ => landVec_laneStep c ..

end

theorem laneWordFrame : Rules.LaneWordFrame := by
  intro s t i sp f hi hc h
  have hf := exec_laneStep hi hc h
  exact ⟨⟨fun a => hf.get (memByte · a) rfl, hf.get State.tens rfl, hf.get State.tt rfl, hf.get State.pregs rfl,
      hf.get State.cores rfl, hf.get State.queues rfl, hf.get State.records rfl, hf.cells⟩,
    hf.get State.reqs rfl, hf.get State.ops rfl, hf.readA, hf.vecs, hf.queues, hf.getCell Cell.m rfl, hf.getCell Cell.k rfl,
    hf.getCell Cell.spad rfl, hf.getCell Cell.pwb rfl, hf.getCell Cell.inb rfl, hf.getCell Cell.dl rfl, hf.getCell Cell.dw rfl,
    hf.getCell Cell.csr rfl, hf.getCell Cell.mx rfl, hf.getCell Cell.gs rfl, hf.getCell Cell.fifo rfl⟩

end Sys2Proof.Machine

open Sys2Proof Sys2Proof.Machine

/-- Settles O25: the words move lanes as each says, and a lane word is the step of its cell that its fields allow. -/
theorem laneMovesComplete : Obligations.LaneMovesComplete := ⟨laneMoves, laneWordFrame⟩

end

