-- ==== Sys2Proof/Proofs/GatherCommands.lean ====
section
/-! SUPPORT. The starts of the commands of a gather cell, and the mixing words (R304, R305, R312 to R325). -/

namespace Sys2Proof.Machine

/-! ## The start of a command -/

/-- A command word that has its tokens, and whose unit has room, starts the operation that its checks let through (R120, R305). -/
theorem cmd_starts {i : Instr} {lg : Legal} {regs : List (BitVec 6)} {k : Toks} {full : Ctx → State → Bool}
    {f : Ctx → State → Res} {s t : State} {o : Op} (hi : Issues lg regs s)
    (ht : takeToks (moved s) (issueCtx s).key k = some t) (hroom : full (issueCtx s) (moved s) = false)
    (he : exec i s = word lg regs (gated k full f) s)
    (hf : f (issueCtx s) (moved s) = withToks (moved s) (issueCtx s) k fun u => .ok (startOp u (issueCtx s) o)) :
    Runs i s (startOp t (issueCtx s) o) :=
  runs_ok hi he ((gated_open ht fun _ => hroom).trans (hf.trans (withToks_some _ ht)))

theorem cmdFull_of_lt {n : Nat} {p : OpKind → Bool} {c : Ctx} {s : State} (h : kindCount s c.key p < n) : cmdFull n p c s = false :=
  decide_eq_false (Nat.not_le.mpr h)

section
variable {s t : State} {a b : BitVec 4} {mk : BitVec 1} {k : Toks} (ht : takeToks (moved s) (issueCtx s).key k = some t)
include ht

/-! ## The grammar engine (R312 to R316) -/

/-- GSET of each selector. -/
theorem gset_starts {i : Instr} {fn : Nat} (hi : Issues lgGs [a.setWidth 6] s) (he : exec i s = gsetWord fn a k s) :
    Runs i s (startOp t (issueCtx s)
      { newOp .gset with kd := k.kd.toNat, fn := fn, va := aReg (moved s) (issueCtx s).key a }) :=
  cmd_starts hi ht rfl he rfl

/-- GRULE waits for no unit. -/
theorem grule_starts (hi : Issues lgGs [a.setWidth 6] s) :
    Runs (.grule a k) s (startOp t (issueCtx s)
      { newOp .grule with kd := k.kd.toNat, va := aReg (moved s) (issueCtx s).key a }) :=
  runs_withToks hi rfl ht rfl

section
variable {q : BitVec 3} (hq : memDst (moved s) (issueCtx s) (8 + q.toNat) = true)
include hq

theorem grow_starts (hi : Issues lgGs [a.setWidth 6, b.setWidth 6] s) :
    Runs (.grow q a b mk k) s (startOp t (issueCtx s)
      { newOp .grow with kd := k.kd.toNat, q := 8 + q.toNat, va := aReg (moved s) (issueCtx s).key a,
                         vb := aReg (moved s) (issueCtx s).key b, mark := mk == 1 }) :=
  cmd_starts hi ht rfl rfl (if_neg (Bool.not_not_eq.mpr hq))

theorem gseg_starts {qs : BitVec 3} (hi : Issues lgGs [b.setWidth 6] s)
    (hqs : consumer (moved s) (issueCtx s) (8 + qs.toNat) = true) (hne : q ≠ qs) :
    Runs (.gseg q qs b mk k) s (startOp t (issueCtx s)
      { newOp .gseg with kd := k.kd.toNat, q := 8 + q.toNat, q2 := 8 + qs.toNat,
                         vb := aReg (moved s) (issueCtx s).key b, mark := mk == 1 }) :=
  have hroles : ¬((!memDst (moved s) (issueCtx s) (8 + q.toNat)) = true
      ∨ (!consumer (moved s) (issueCtx s) (8 + qs.toNat)) = true ∨ q = qs) :=
    not_or.mpr ⟨Bool.not_not_eq.mpr hq, not_or.mpr ⟨Bool.not_not_eq.mpr hqs, hne⟩⟩
  cmd_starts hi ht rfl rfl (if_neg hroles)

end

section
variable (hi : Issues lgGs [a.setWidth 6, b.setWidth 6] s)
include hi

/-! ## The access path (R317, R318) -/

section
variable {dsc : Desc} (hroom : kindCount (moved s) (issueCtx s).key OpKind.isPath < 16)
  (hd : descFor (moved s) (ctxOf (moved s) (issueCtx s).key) (tidOf (aReg (moved s) (issueCtx s).key a)) = some dsc)
include hroom hd

theorem gload_starts (hfmt : dsc.fmt < 2) (hzero : bits (aReg (moved s) (issueCtx s).key b) 63 51 = 0)
    (hfit : bits (aReg (moved s) (issueCtx s).key b) 50 32 + bits (aReg (moved s) (issueCtx s).key b) 31 0
      ≤ spadSize (issueCtx s).key) :
    Runs (.gload a b k) s (startOp t (issueCtx s)
      { newOp .gload with kd := k.kd.toNat, va := aReg (moved s) (issueCtx s).key a,
                          vb := aReg (moved s) (issueCtx s).key b }) := by
  refine cmd_starts hi ht (cmdFull_of_lt hroom) rfl ?_
  have hform : ¬(bits (aReg (moved s) (issueCtx s).key b) 63 51 ≠ 0 ∨ 2 ≤ dsc.fmt) :=
    not_or.mpr ⟨not_not.mpr hzero, Nat.not_le.mpr hfmt⟩
  simp only [hd, if_neg hform, if_neg (Nat.not_lt.mpr hfit)]
  rfl

theorem gscat_starts {qs : BitVec 3} (hfmt : dsc.fmt = 14) (htid : tidOf (aReg (moved s) (issueCtx s).key a) ≠ 0xFFFF)
    (hqs : consumer (moved s) (issueCtx s) (8 + qs.toNat) = true) :
    Runs (.gscat qs a b k) s (startOp t (issueCtx s)
      { newOp .gscat with kd := k.kd.toNat, q2 := 8 + qs.toNat, va := aReg (moved s) (issueCtx s).key a,
                          vb := aReg (moved s) (issueCtx s).key b,
                          lim := (cellAt (moved s) (issueCtx s).key).gs.batchB,
                          bar := (cellAt (moved s) (issueCtx s).key).gs.gsbar }) := by
  refine cmd_starts hi ht (cmdFull_of_lt hroom) rfl ?_
  simp only [hqs, Bool.not_true, Bool.false_eq_true, if_false, if_neg htid, hd, hfmt, ne_eq, not_true]
  rfl

end

/-! ## The walk port (R321, R322) -/

/-- A walk of either kind starts with the walk descriptor that GSET left. -/
theorem walk_starts {i : Instr} {kind : OpKind} {q : BitVec 3} {ws : List Word}
    (hws : (cellAt (moved s) (issueCtx s).key).gs.gwalk = some ws)
    (hfmt : walkFmtOk (moved s) (ctxOf (moved s) (issueCtx s).key) (dw ws 0) = .ok ())
    (hq : memDst (moved s) (issueCtx s) q.toNat = true)
    (hroom : kindCount (moved s) (issueCtx s).key OpKind.isWalk < 64) (he : exec i s = walkWord kind q a b mk k s) :
    Runs i s (startOp t (issueCtx s)
      { newOp kind with kd := k.kd.toNat, q := q.toNat, va := aReg (moved s) (issueCtx s).key a,
                        vb := aReg (moved s) (issueCtx s).key b, ds := ws, mark := mk == 1 }) := by
  refine cmd_starts hi ht (cmdFull_of_lt hroom) he ?_
  simp only [hq, Bool.not_true, Bool.false_eq_true, if_false, hws, hfmt]
  rfl

end

end

/-! ## The mixing words (R320, R325) -/

section
variable {s : State} {d : BitVec 6} {a b : BitVec 4} (hd : dstReady .gs (moved s) (issueCtx s) d = .ok ())
include hd

theorem gidx_lands (hi : Issues { spaces := [.gs] } [a.setWidth 6, b.setWidth 6] s) :
    Runs (.gidx d a b) s (gidxLand (moved s) (issueCtx s) d
      (m64 (aReg (moved s) (issueCtx s).key a) (aReg (moved s) (issueCtx s).key b))) :=
  runs_ok hi rfl (congrArg (Got.then · _ _) hd)

/-- A bound of 32 bits, 0 included, lets GIDX.BD through. -/
theorem gidxBd_lands {e : BitVec 4} (hi : Issues { spaces := [.gs] } [a.setWidth 6, b.setWidth 6, e.setWidth 6] s)
    (hn : (aReg (moved s) (issueCtx s).key e).toNat < 2 ^ 32) :
    Runs (.gidxBd d a b e) s (gidxLand (moved s) (issueCtx s) d
      (bounded (m64 (aReg (moved s) (issueCtx s).key a) (aReg (moved s) (issueCtx s).key b))
        (aReg (moved s) (issueCtx s).key e).toNat)) := by
  have hhigh : bits (aReg (moved s) (issueCtx s).key e) 63 32 = 0 := by
    rw [bits, Nat.div_eq_of_lt hn, Nat.zero_mod]
  exact runs_ok hi rfl ((if_neg (not_not.mpr hhigh)).trans (congrArg (Got.then · _ _) hd))

end

theorem bounded_of_ne_zero (h : Word) {n : Nat} (hn : n ≠ 0) : bounded h n = BitVec.ofNat 64 (h.toNat / 2 ^ 32 * n / 2 ^ 32) :=
  if_neg hn

end Sys2Proof.Machine

open Sys2Proof Sys2Proof.Machine

/-- Settles O29, word by word. -/
theorem gatherCommandsBegin : Obligations.GatherCommandsBegin := by
  intro s q qs a b e d mk k c m x y op issues
  refine ⟨fun _ t ht => ⟨fun hi => ?_, fun hq => ⟨grow_starts ht hq, gseg_starts ht hq⟩, fun hi dsc hd hroom => ⟨?_, ?_⟩,
    fun hi ws hws hfmt hq hroom => ?_⟩, fun hd => ⟨gidx_lands hd, fun hi hne hn => ?_⟩⟩
  · have hset := fun fn i => gset_starts (fn := fn) (i := i) ht hi
    exact ⟨hset 0 _ rfl, hset 1 _ rfl, hset 2 _ rfl, hset 3 _ rfl, grule_starts ht hi⟩
  · exact gload_starts ht hi hroom hd
  · exact gscat_starts ht hi hroom hd
  · have hwalk := fun kind i => walk_starts (kind := kind) (i := i) (mk := mk) ht hi hws hfmt hq hroom
    exact ⟨hwalk .walk _ rfl, hwalk .sample _ rfl⟩
  · have hpos : (Machine.aReg m c.key e).toNat ≠ 0 := BitVec.toNat_ne_iff_ne.mpr hne
    have hrun := gidxBd_lands hd hi hn
    rwa [bounded_of_ne_zero _ hpos] at hrun

end

