-- ==== Sys2Proof/Proofs/BankCommands.lean ====
section
/-! SUPPORT. The starts of the bank operations of a stratum cell (R329 to R334). -/

namespace Sys2Proof.Machine

section
variable {s t : State} {k : Toks} {dsc : Desc}

/-- R330: a bank word starts its operation where its checks lead to the start and the tensor and the count pass. -/
theorem bank_starts {i : Instr} {regs : List (BitVec 6)} {x : Word} {f : Ctx → State → Res} {o o' : Op}
    {fmtOk : Nat → Bool} {cntOk : Bool}
    (ht : takeToks (moved s) (issueCtx s).key k = some t)
    (hroom : kindCount (moved s) (issueCtx s).key OpKind.isBank < 16)
    (hd : descFor (moved s) (ctxOf (moved s) (issueCtx s).key) (tidOf x) = some dsc)
    (hi : Issues lgSt regs s) (he : exec i s = word lgSt regs (gated k (cmdFull 16 OpKind.isBank) f) s)
    (hf : f (issueCtx s) (moved s) = bankStart (moved s) (issueCtx s) k x fmtOk cntOk o)
    (ho : { o with kd := k.kd.toNat } = o') (hfmt : fmtOk dsc.fmt = true) (hcnt : cntOk = true) :
    Runs i s (startOp t (issueCtx s) o') := by
  subst ho
  refine cmd_starts hi ht (cmdFull_of_lt hroom) he (hf.trans ?_)
  simp only [bankStart, hd, hfmt, hcnt]
  rfl

/-- R332: BCPY between tensors of one format and one tile extent. -/
theorem bcpy_starts {a b : BitVec 4} {dy : Desc} (ht : takeToks (moved s) (issueCtx s).key k = some t)
    (hroom : kindCount (moved s) (issueCtx s).key OpKind.isBank < 16)
    (hd : descFor (moved s) (ctxOf (moved s) (issueCtx s).key) (tidOf (aReg (moved s) (issueCtx s).key a)) = some dsc)
    (hi : Issues lgSt [a.setWidth 6, b.setWidth 6] s)
    (hdy : descFor (moved s) (ctxOf (moved s) (issueCtx s).key) (tidOf (aReg (moved s) (issueCtx s).key b)) = some dy)
    (hfmt : dsc.fmt = dy.fmt) (htile : dsc.tile = dy.tile) :
    Runs (.bcpy a b k) s (startOp t (issueCtx s)
      { newOp .bcpy with kd := k.kd.toNat, va := aReg (moved s) (issueCtx s).key a,
                         vb := aReg (moved s) (issueCtx s).key b }) := by
  refine bank_starts (fmtOk := fun _ => true) (cntOk := decide (dsc.fmt = dy.fmt ∧ dsc.tile = dy.tile))
    (o := { newOp .bcpy with va := aReg (moved s) (issueCtx s).key a, vb := aReg (moved s) (issueCtx s).key b })
    ht hroom hd hi rfl ?_ rfl rfl (decide_eq_true ⟨hfmt, htile⟩)
  simp only [hd, hdy]

end

/-- R333: BAMO of less than 8 admits INT64, or INT32 and FP32. -/
theorem bamoFmt_of_lt {op d64 fmt : Nat} (hop : op < 8) (h1 : d64 = 1 → fmt = 6) (h0 : d64 ≠ 1 → fmt = 4 ∨ fmt = 5) :
    bamoFmt op d64 fmt = true := by
  rw [bamoFmt, if_neg (Nat.ne_of_lt hop)]
  split
  · next h => exact decide_eq_true (h1 h)
  · next h => exact decide_eq_true (h0 h)

/-- R334: BRED of less than 3 admits the format 12. -/
theorem bredFmt_of_lt {op fmt : Nat} (hop : op < 3) (hfmt : fmt = 12) : bredFmt op fmt = true := by
  subst hfmt
  interval_cases op <;> rfl

theorem bits_high_eq_zero {y : Word} (h : y.toNat < 2 ^ 32) : bits y 63 32 = 0 := by
  rw [bits, Nat.div_eq_of_lt h, Nat.zero_mod]

end Sys2Proof.Machine

open Sys2Proof Sys2Proof.Machine

/-- Settles O30, word by word. -/
theorem bankCommandsBegin : Obligations.BankCommandsBegin := by
  intro s q a b op4 op3 mk d64 k dsc hi c m x y op _ hroom hd t ht
  refine ⟨fun hfmt hn => ⟨fun hq => ?_, fun hq => ?_⟩, ?_, fun dy hdy hf htile => ?_,
    fun hq => ⟨fun hop h1 h0 => ?_, ?_⟩, fun hq hn hfmt => ?_⟩
  · exact bank_starts ht hroom hd hi rfl (if_neg (Bool.not_not_eq.mpr hq)) rfl (decide_eq_true hfmt)
      (decide_eq_true (bits_high_eq_zero hn))
  · exact bank_starts ht hroom hd hi rfl (if_neg (Bool.not_not_eq.mpr hq)) rfl (decide_eq_true hfmt)
      (decide_eq_true (bits_high_eq_zero hn))
  · exact bank_starts ht hroom hd hi rfl rfl rfl rfl rfl
  · exact bcpy_starts ht hroom hd hi hdy hf htile
  · have hlegal : ¬((!consumer m c (8 + q.toNat)) = true ∨ 8 < op4.toNat ∨ op4.toNat = 8 ∧ d64 = 1) := by
      simp only [hq, Bool.not_true, Bool.false_eq_true, false_or]; omega
    refine bank_starts ht hroom hd hi rfl (if_neg hlegal) rfl (bamoFmt_of_lt hop ?_ ?_) rfl
    · exact fun h => h1 (BitVec.eq_of_toNat_eq h)
    · exact fun h => h0 (by bv_omega)
  · rintro rfl rfl hfmt
    have hlegal : ¬((!consumer m c (8 + q.toNat)) = true ∨ 8 < (8#4).toNat ∨ (8#4).toNat = 8 ∧ 0#1 = 1) := by simp [hq]
    exact bank_starts ht hroom hd hi rfl (if_neg hlegal) rfl (decide_eq_true hfmt) rfl
  · have hop : op3.toNat ≤ 4 := by bv_omega
    have hlegal : ¬((!memDst m c q.toNat) = true ∨ 4 < op3.toNat) := by
      simp only [hq, Bool.not_true, Bool.false_eq_true, false_or, Nat.not_lt, hop]
    refine bank_starts ht hroom hd hi rfl (if_neg hlegal) rfl ?_ (decide_eq_true hn)
    obtain ⟨hlt, h⟩ | ⟨rfl, h⟩ | ⟨rfl, h⟩ := hfmt
    · exact bredFmt_of_lt hlt h
    · exact decide_eq_true h
    · exact decide_eq_true h

end

