-- ==== Sys2Proof/Proofs/VerticalFifo.lean ====
section
/-! SUPPORT. The words of the vertical register FIFOs (R337 to R341). -/

namespace Sys2Proof.Machine

/-- R338: the answer of VFPUSHN on a FIFO in a period: PUSHED, FULL or GATED. -/
def Fifo.answer (f : Fifo) (per : Nat) : Nat := if f.closing ∨ f.gated then 2 else if f.free per = 0 then 1 else 0

section
variable {f : Fifo} {per : Nat}

theorem Fifo.answer_shut (h : f.closing = true ∨ f.gated = true) : f.answer per = 2 := if_pos h

theorem Fifo.not_shut (hcl : f.closing = false) (hg : f.gated = false) : ¬(f.closing = true ∨ f.gated = true) := by
  simp [hcl, hg]

theorem Fifo.answer_full (hcl : f.closing = false) (hg : f.gated = false) (hf : f.free per = 0) : f.answer per = 1 :=
  (if_neg (f.not_shut hcl hg)).trans (if_pos hf)

theorem Fifo.answer_room (hcl : f.closing = false) (hg : f.gated = false) (hf : f.free per ≠ 0) : f.answer per = 0 :=
  (if_neg (f.not_shut hcl hg)).trans (if_neg hf)

theorem Fifo.present_eq_countP (f : Fifo) (per : Nat) : f.present per = f.ents.countP fun e => decide (e.due ≤ per) :=
  List.countP_eq_length_filter.symm

end

section
variable {s : State} {d a : BitVec 6}

section
variable {t : State} {v : BitVec 2048} (hi : Issues lgSt (aFields .st [(a, false)]) s)
  (hlive : portLive (moved s) (issueCtx s).key (upPort (issueCtx s).key) = true)
include hi hlive

/-- R338: VFPUSH into a FIFO with a free slot that is neither closing nor gated. -/
theorem vfpush_runs (hr : readSrc .st 32 (moved s) (issueCtx s) a false = .ok (v, t))
    (hcl : (fifoAt (moved s) ((issueCtx s).key + 16)).closing = false)
    (hg : (fifoAt (moved s) ((issueCtx s).key + 16)).gated = false)
    (hfree : (fifoAt (moved s) ((issueCtx s).key + 16)).free (moved s).per ≠ 0) :
    Runs (.vfpush a) s
      (setFifo t ((issueCtx s).key + 16) ((fifoAt (moved s) ((issueCtx s).key + 16)).push (moved s).per v)) := by
  have hroom : ¬((fifoAt (moved s) ((issueCtx s).key + 16)).closing = true ∨
      (fifoAt (moved s) ((issueCtx s).key + 16)).gated = true ∨
      (fifoAt (moved s) ((issueCtx s).key + 16)).free (moved s).per = 0) := by
    simp [hcl, hg, hfree]
  refine runs_ok hi rfl ((if_neg (Bool.not_not_eq.mpr hlive)).trans ?_)
  simp only [hr, Got.then, if_neg hroom]

/-- R338: VFPUSHN gives its answer, and only a PUSHED one takes the source and appends. -/
theorem vfpushn_runs {n : Nat} (hans : (fifoAt (moved s) ((issueCtx s).key + 16)).answer (moved s).per = n)
    (hr : readSrc .st 32 (moved s) (issueCtx s) a (decide (n ≠ 0)) = .ok (v, t))
    (hd : dstReady .st (moved s) (issueCtx s) d = .ok ()) :
    Runs (.vfpushn d a) s (landVec .st
      (if n = 0 then
        setFifo t ((issueCtx s).key + 16) ((fifoAt (moved s) ((issueCtx s).key + 16)).push (moved s).per v) else t)
      (issueCtx s) d (BitVec.ofNat 2048 n) (fullMask .st) 1) := by
  subst hans
  refine runs_ok hi rfl ((if_neg (Bool.not_not_eq.mpr hlive)).trans ?_)
  refine (congrArg (Got.then · _ _) hr).trans ?_
  simp only [Got.then, hd]
  rfl

end

/-- R338: VFPOP takes the oldest entry once it is present. -/
theorem vfpop_runs {e : FEntry} {es : List FEntry} (hi : Issues lgSt [] s)
    (hlive : portLive (moved s) (issueCtx s).key (downPort (issueCtx s).key) = true)
    (hd : dstReady .st (moved s) (issueCtx s) d = .ok ()) (hes : (fifoAt (moved s) (issueCtx s).key).ents = e :: es)
    (hdue : e.due ≤ (moved s).per) :
    Runs (.vfpop d) s (landVec .st
      (setFifo (moved s) (issueCtx s).key
        { fifoAt (moved s) (issueCtx s).key with
          ents := es, frees := (fifoAt (moved s) (issueCtx s).key).frees ++ [(moved s).per + 2] })
      (issueCtx s) d (e.data.setWidth 2048) (fullMask .st) 1) := by
  refine runs_ok hi rfl ((if_neg (Bool.not_not_eq.mpr hlive)).trans ?_)
  simp only [hd, Got.then, hes, if_neg (Nat.not_lt.mpr hdue)]

/-- R338: VFCNT gives the port word of its port. -/
theorem vfcnt_runs {p : BitVec 1} (hi : Issues { spaces := [.st] } [] s)
    (hlive : portLive (moved s) (issueCtx s).key
      (if p == 1 then downPort (issueCtx s).key else upPort (issueCtx s).key) = true)
    (hd : dstReady .st (moved s) (issueCtx s) d = .ok ()) :
    Runs (.vfcnt d p) s (landVec .st (moved s) (issueCtx s) d (BitVec.ofNat 2048
      (portWord (moved s) (if p == 1 then (issueCtx s).key else (issueCtx s).key + 16) (p == 1))) (fullMask .st) 1) :=
  runs_ok hi rfl ((if_neg (Bool.not_not_eq.mpr hlive)).trans (congrArg (Got.then · _ _) hd))

end

end Sys2Proof.Machine

open Sys2Proof Sys2Proof.Machine

/-- Settles O31, word by word. -/
theorem verticalFifo : Obligations.VerticalFifo := by
  intro s d a p c m up down
  refine ⟨fun hi _ hlive => ⟨fun v t hr hcl hg hfree => ?_, fun v t hr hd => ⟨fun hcl hg hfull => ?_, fun hshut => ?_⟩⟩,
    fun hi hlive hd e es hes hdue => vfpop_runs hi hlive hd hes hdue, fun hi hd => ⟨?_, ?_⟩⟩
  · exact ⟨vfpush_runs hi hlive hr hcl hg hfree, fun hd => vfpushn_runs hi hlive (Fifo.answer_room hcl hg hfree) hr hd⟩
  · exact vfpushn_runs hi hlive (Fifo.answer_full hcl hg hfull) hr hd
  · exact vfpushn_runs hi hlive (Fifo.answer_shut hshut) hr hd
  · rintro rfl hlive
    exact vfcnt_runs hi hlive hd
  · rintro rfl hlive
    have hrun := vfcnt_runs (p := 1) hi hlive hd
    simp only [portWord, Fifo.present_eq_countP] at hrun
    exact hrun

end

