-- ==== Sys2Proof/Proofs/CollectiveRounds.lean ====
section
/-! SUPPORT. What the start and the end of a round write, and what they leave (R342 to R346, R348, R349). -/

namespace Sys2Proof.Machine

/-! ## The operations of a package -/

/-- The operation that the start of o adds (R120). -/
def startedOp (s : State) (c : Ctx) (o : Op) : Op :=
  { o with key := c.key, seq := c.seq, reg := (cellAt s c.key).reg, pc := c.pc, ord := s.nextId,
           t0 := s.tick, born := s.tick, due := s.per + Config.accessPeriods }

theorem startOp_ops (s : State) (c : Ctx) (o : Op) : (startOp s c o).ops = sset s.ops s.nextId (startedOp s c o) := rfl

/-- A key above all others goes to the end of a sparse map. -/
theorem sset_above {α : Type} {m : SMap α} {x : Nat} (v : α) (h : ∀ p ∈ m, p.1 < x) : sset m x v = m ++ [(x, v)] := by
  induction m with
  | nil => rfl
  | cons p m ih =>
    obtain ⟨hp, hm⟩ := List.forall_mem_cons.mp h
    rw [sset, if_neg (by omega), if_neg (by omega), ih hm, List.cons_append]

/-! ## Word 3 of a group descriptor (R343) -/

/-- The word lies in the memory of a cell, or of a core. -/
theorem putStatus_rest (s : State) (key off : Nat) (w : Word) :
    { putStatus s key off w with cells := s.cells, cores := s.cores } = s := by
  refine foldl_keeps (P := fun t => { t with cells := s.cells, cores := s.cores } = s) (fun t p ht => ?_) _ s rfl
  unfold spadPut
  split <;> exact ht

theorem putStatus_ops (s : State) (key off : Nat) (w : Word) : (putStatus s key off w).ops = s.ops :=
  have e := congrArg State.ops (putStatus_rest s key off w); e

theorem putStatus_pregs (s : State) (key off : Nat) (w : Word) : (putStatus s key off w).pregs = s.pregs :=
  have e := congrArg State.pregs (putStatus_rest s key off w); e

theorem spadPut_spad_congr {s t : State} {y off : Nat} {b : Byte} (h : (cellAt s y).spad = (cellAt t y).spad) :
    (cellAt (spadPut s y off b) y).spad = (cellAt (spadPut t y off b) y).spad := by
  unfold spadPut
  split <;> simp [h]

/-- The scratchpad after the write depends on the scratchpad before it alone. -/
theorem putStatus_spad_congr {s t : State} {key : Nat} (off : Nat) (w : Word)
    (h : (cellAt s key).spad = (cellAt t key).spad) :
    (cellAt (putStatus s key off w) key).spad = (cellAt (putStatus t key off w) key).spad := by
  unfold putStatus
  generalize (toBytes 8 w.toNat).zipIdx = l
  induction l generalizing s t with
  | nil => exact h
  | cons p l ih => exact ih (spadPut_spad_congr h)

/-! ## The end of a round -/

theorem collEnd_ops (s : State) (id : Nat) (o : Op) (status fail : Nat) :
    (collEnd s id o status fail).ops = sset s.ops id { o with units := true } := by
  rw [collEnd, putStatus_ops]

theorem endRounds_find {x status : Nat} {l : List ((Nat × Op) × Nat)} (h : ∀ p ∈ l, p.1.1 ≠ x) (s : State) :
    sfind (l.foldl (fun s p => collEnd s p.1.1 p.1.2 status p.2) s).ops x = sfind s.ops x := by
  induction l generalizing s with
  | nil => rfl
  | cons p l ih =>
    obtain ⟨hp, hl⟩ := List.forall_mem_cons.mp h
    rw [List.foldl_cons, ih hl, collEnd_ops, sfind_sset, if_neg hp.symm]

theorem holdMsg_ops (s : State) (h : HeldMsg) : (holdMsg s h).ops = s.ops := by
  unfold holdMsg
  split
  · rfl
  · dsimp only
    split <;> rfl

theorem sendPkg_ops (s : State) (pkg typ : Nat) (data : List Word) (bytes : List Byte) :
    (sendPkg s pkg typ data bytes).ops = s.ops := by
  unfold sendPkg
  split
  · rfl
  · unfold sendOn
    dsimp only
    split <;> rfl

/-- R349: a stop ends the member's round, and others of the round alone. -/
theorem collStop_find {s : State} {id x : Nat} {o : Op} (status : Nat)
    (hx : ∀ p ∈ roundOps s o.coll.gid o.coll.round, p.1 ≠ id → p.1 ≠ x) :
    sfind (collStop s id o status).ops x = if x = id then some { o with units := true } else sfind s.ops x := by
  unfold collStop
  dsimp only
  have hsent {u : State} (l : List Nat) (data : List Word) :
      (l.foldl (fun s p => sendPkg s p 104 data []) u).ops = u.ops :=
    foldl_keeps (P := fun t => t.ops = u.ops) (fun t p ht => (sendPkg_ops ..).trans ht) l u rfl
  rw [hsent, holdMsg_ops, endRounds_find, collEnd_ops, sfind_sset]
  intro p hp
  obtain ⟨q, hq, rfl⟩ := List.mem_map.mp hp
  obtain ⟨hq, hne⟩ := List.mem_filter.mp hq
  exact hx q hq (of_decide_eq_true hne).1

/-! ## Group descriptors (R343, R344) -/

/-- What passes a check has not failed it. -/
theorem of_ite_error {p : Prop} [Decidable p] {e : Nat} {x : Except Nat Coll} {g : Coll}
    (h : (if p then .error e else x) = Except.ok g) : x = .ok g := by
  split at h
  · cases h
  · exact h

theorem groupDesc_ok {s : State} {key : Nat} {a : Word} {g : Coll} (h : groupDesc s key a = .ok g) :
    g.desc = spOff a ∧ g.memb.length = g.nmemb := by
  unfold groupDesc at h
  obtain rfl := Except.ok.inj (of_ite_error (of_ite_error (of_ite_error (of_ite_error (of_ite_error h)))))
  exact ⟨rfl, by simp only [List.length_map, spadWords, List.length_range]⟩

/-- The first member, with its rank, of another package without a link (R349, R465). -/
def unlinked (s : State) (g : Coll) : Option ((Nat × Nat × Nat × Nat) × Nat) :=
  g.memb.zipIdx.find? fun p => !localMember s g.scope p.1 && (linkTo s p.1.1).isNone

section
variable {s t : State} {g : Coll}

theorem unlinked_congr (h : t.pregs = s.pregs) : unlinked t g = unlinked s g := by
  have hreg : preg t = preg s := by
    funext i n
    rw [preg, preg, h]
  unfold unlinked localMember pkgOwn linkTo
  rw [hreg]

theorem unlinked_none (h : unlinked s g = none) {p : Nat × Nat × Nat × Nat} (hp : p ∈ g.memb)
    (hloc : localMember s g.scope p = false) : (linkTo s p.1).isSome = true := by
  obtain ⟨i, hi, rfl⟩ := List.getElem_of_mem hp
  have hno := List.find?_eq_none.mp h _ (List.mk_mem_zipIdx_iff_getElem?.mpr (List.getElem?_eq_getElem hi))
  simpa [hloc, Option.isSome_iff_ne_none] using hno

theorem unlinked_some {q : (Nat × Nat × Nat × Nat) × Nat} (h : unlinked s g = some q) :
    q.1 ∈ g.memb ∧ q.2 < g.memb.length ∧ localMember s g.scope q.1 = false ∧ linkTo s q.1.1 = none := by
  have hmem := List.mem_of_find?_eq_some h
  have hq := List.find?_some h
  simp only [Bool.and_eq_true, Bool.not_eq_true', Option.isNone_iff_eq_none] at hq
  exact ⟨List.fst_mem_of_mem_zipIdx hmem, List.snd_lt_of_mem_zipIdx hmem, hq⟩

end

end Sys2Proof.Machine
end

