-- ==== Sys2Proof/Proofs/CollectiveWords.lean ====
section
/-! SUPPORT. The COLL words: the start of a round, and COLL.AB (R342 to R349, R465). -/

namespace Sys2Proof.Machine

/-! ## The start of a round -/

/-- The operation of a round at a member (R342, R346). -/
def roundOp (kind op fmt root : Nat) (ws wt : List Word) (k : Toks) (g : Coll) : Op :=
  { newOp .coll with
    kd := k.kd.toNat, ds := ws, dt := wt, bar := if decide (kind ≠ 3 ∨ g.rank = root) then patBar ws else patBar wt
    coll := { g with kind := kind, op := op, fmt := fmt, root := if kind = 3 then root else 0,
                     count := (collCounts kind g.nmemb root g.rank (patCount ws) (patCount wt)).1 } }

/-- R343, R348: word 3 of the descriptor shows the round outstanding, and the cell knows its members. -/
def showRound (u : State) (key : Nat) (g : Coll) : State :=
  let v := putStatus u key g.desc (statusWord 0xFF 0xFFFF g.round)
  let cl := cellAt v key
  setCell v key { cl with rnds := sset cl.rnds g.gid g.round, rmem := sset cl.rmem g.gid (localKeys v cl.reg g) }

/-- The state in which a round has started at a member. -/
def roundStarted (t : State) (c : Ctx) (o : Op) : State := showRound (startOp t c o) c.key o.coll

/-- R349, R465: a round with a member that no link reaches ends with LINK. -/
def endUnlinked (u : State) (id : Nat) (g : Coll) : Res :=
  match unlinked u g, sfind u.ops id with
  | some p, some o => .ok (collEnd u id o 4 p.2)
  | _, _ => .ok u

theorem endUnlinked_none {u : State} {g : Coll} (id : Nat) (h : unlinked u g = none) : endUnlinked u id g = .ok u := by
  simp only [endUnlinked, h]

theorem endUnlinked_some {u : State} {id : Nat} {g : Coll} {p : (Nat × Nat × Nat × Nat) × Nat} {o : Op}
    (h : unlinked u g = some p) (ho : sfind u.ops id = some o) : endUnlinked u id g = .ok (collEnd u id o 4 p.2) := by
  simp only [endUnlinked, h, ho]

section
variable {s t : State} {a : BitVec 6} {k : Toks} {g : Coll}

/-- The parameters of a COLL word at its issue are sound (R343 to R346). -/
structure SoundRound (m : State) (c : Ctx) (kind fmt root : Nat) (ws wt : List Word) (g : Coll) : Prop where
  src : kind ≠ 3 ∨ g.rank = root → patCheck m c.key (ctxOf m c.key) ws = 0 ∧ collFmtOk m (ctxOf m c.key) fmt ws = true
  dst : patCheck m c.key (ctxOf m c.key) wt = 0
  fmt : collFmtOk m (ctxOf m c.key) fmt wt = true
  cnt : (collCounts kind g.nmemb root g.rank (patCount ws) (patCount wt)).2 = true

/-- R348: a cell has fewer than 4 rounds outstanding, and none on the descriptor. -/
structure RoundRoom (m : State) (key desc : Nat) : Prop where
  few : (m.ops.filter fun p => decide (p.2.key = key ∧ p.2.kind = .coll) && !p.2.units).length < 4
  free : ∀ p ∈ m.ops, p.2.key = key → p.2.kind = .coll → p.2.units = false → p.2.coll.desc ≠ desc

theorem RoundRoom.noWait {m : State} {key desc : Nat} (h : RoundRoom m key desc) :
    ¬(4 ≤ (m.ops.filter fun p => decide (p.2.key = key ∧ p.2.kind = .coll) && !p.2.units).length ∨
      ((m.ops.filter fun p => decide (p.2.key = key ∧ p.2.kind = .coll) && !p.2.units).any
        fun p => decide (p.2.coll.desc = desc)) = true) := by
  refine not_or.mpr ⟨Nat.not_le.mpr h.few, fun hany => ?_⟩
  obtain ⟨p, hp, hdesc⟩ := List.any_eq_true.mp hany
  obtain ⟨hmem, hp⟩ := List.mem_filter.mp hp
  simp only [Bool.and_eq_true, decide_eq_true_eq, Bool.not_eq_true'] at hp
  obtain ⟨⟨hkey, hkind⟩, hout⟩ := hp
  exact h.free p hmem hkey hkind hout (of_decide_eq_true hdesc)

/-- A COLL word whose checks pass starts its round. -/
theorem coll_begins {i : Instr} {kind root : Nat} {ds dt op : BitVec 3} {fmt : BitVec 2} {b : BitVec 6} {ws wt : List Word}
    {u : State} (hi : Issues lgColl [a, b] s) (he : exec i s = collWord kind ds dt op fmt a b k s)
    (hg : groupDesc (moved s) (issueCtx s).key (src s a) = .ok g) (hroom : accFull (issueCtx s) (moved s) = false)
    (ht : takeToks (moved s) (issueCtx s).key k = some t) (hroot : (src s b).toNat = root)
    (hws : readDesc (moved s) (issueCtx s).key (issueCtx s).seq ds.toNat = ws)
    (hwt : readDesc (moved s) (issueCtx s).key (issueCtx s).seq dt.toNat = wt)
    (hok : SoundRound (moved s) (issueCtx s) kind fmt.toNat root ws wt g)
    (hfree : RoundRoom (moved s) (issueCtx s).key g.desc)
    {o : Op} (ho : roundOp kind op.toNat fmt.toNat root ws wt k g = o)
    (hu : endUnlinked (roundStarted t (issueCtx s) o) t.nextId o.coll = .ok u) : Runs i s u := by
  subst hroot hws hwt ho
  refine runs_ok hi he ((gated_open ht fun _ => hroom).trans (Eq.trans ?_ hu))
  have hsrc : (if decide (kind ≠ 3 ∨ g.rank = (src s b).toNat) = true then
      patCheck (moved s) (issueCtx s).key (ctxOf (moved s) (issueCtx s).key)
        (readDesc (moved s) (issueCtx s).key (issueCtx s).seq ds.toNat) else 0) = 0 := by
    split
    · next h => exact (hok.src (of_decide_eq_true h)).1
    · rfl
  have hfmt : (decide (kind ≠ 3 ∨ g.rank = (src s b).toNat)
      && !collFmtOk (moved s) (ctxOf (moved s) (issueCtx s).key) fmt.toNat
        (readDesc (moved s) (issueCtx s).key (issueCtx s).seq ds.toNat)) = false := by
    cases hr : decide (kind ≠ 3 ∨ g.rank = (src s b).toNat)
    · rfl
    · rw [(hok.src (of_decide_eq_true hr)).2]
      rfl
  have hgo : groupDesc (moved s) (issueCtx s).key (readA (moved s) (issueCtx s).key a.toNat) = .ok g := hg
  simp only [hgo]
  refine (orFault_zero hsrc).trans ((orFault_zero hok.dst).trans ((if_neg ?_).trans ((if_neg hfree.noWait).trans ?_)))
  · have hcnt := hok.cnt
    have hdst := hok.fmt
    unfold src at hfmt hcnt
    simp only [hfmt, hdst, hcnt]
    decide
  · simp only [startAcc, withToks_some _ ht]
    rfl

end

/-! ## The round started -/

section
variable {s t : State} {c : Ctx} {k : Toks} (o : Op)

theorem roundStarted_ops (t : State) (c : Ctx) : (roundStarted t c o).ops = sset t.ops t.nextId (startedOp t c o) :=
  putStatus_ops (startOp t c o) ..

theorem roundStarted_find (t : State) (c : Ctx) : sfind (roundStarted t c o).ops t.nextId = some (startedOp t c o) := by
  rw [roundStarted_ops, sfind_sset, if_pos rfl]

section
variable (ht : takeToks s c.key k = some t)
include ht

theorem roundStarted_unlinked : unlinked (roundStarted t c o) o.coll = unlinked s o.coll := by
  obtain ⟨l, rfl⟩ := takeToks_setCell ht
  exact unlinked_congr (putStatus_pregs (startOp _ c o) ..)

theorem roundStarted_spad :
    (cellAt (roundStarted t c o) c.key).spad
      = (cellAt (putStatus s c.key o.coll.desc (statusWord 0xFF 0xFFFF o.coll.round)) c.key).spad := by
  rw [roundStarted, showRound, cellAt_setCell, if_pos rfl]
  exact putStatus_spad_congr _ _ (takeToks_cell ht Cell.spad (fun _ _ => rfl) c.key)

end

end

/-! ## COLL.AB (R349) -/

section
variable {s t : State} {a : BitVec 6} {k : Toks} {g : Coll}

/-- The operation of a COLL.AB on a descriptor. -/
def abortOp (k : Toks) (g : Coll) : Op := { newOp .coll with kd := k.kd.toNat, coll := { g with kind := 5 }, units := true }

/-- The round outstanding on a descriptor of a cell. -/
def roundOn (s : State) (key desc : Nat) : Option (Nat × Op) :=
  s.ops.find? fun p => decide (p.2.key = key ∧ p.2.kind = .coll ∧ p.2.coll.kind < 5 ∧ p.2.coll.desc = desc) && !p.2.units

/-- R349: the round outstanding on a descriptor ends with ABORTED. -/
def endRoundOn (s : State) (key desc : Nat) : Res :=
  match roundOn s key desc with
  | some (id, o) => .ok (collStop s id o 2)
  | none => .ok s

theorem endRoundOn_none {s : State} {key desc : Nat} (h : roundOn s key desc = none) : endRoundOn s key desc = .ok s := by
  simp only [endRoundOn, h]

theorem endRoundOn_some {s : State} {key desc id : Nat} {o : Op} (h : roundOn s key desc = some (id, o)) :
    endRoundOn s key desc = .ok (collStop s id o 2) := by
  simp only [endRoundOn, h]

theorem collAb_completes {u : State} (hi : Issues lgColl [a] s) (hg : groupDesc (moved s) (issueCtx s).key (src s a) = .ok g)
    (hroom : accFull (issueCtx s) (moved s) = false) (ht : takeToks (moved s) (issueCtx s).key k = some t)
    (hu : endRoundOn (startOp t (issueCtx s) (abortOp k g)) (issueCtx s).key g.desc = .ok u) : Runs (.collAb a k) s u := by
  refine runs_ok hi rfl ((gated_open ht fun _ => hroom).trans (Eq.trans ?_ hu))
  have hgo : groupDesc (moved s) (issueCtx s).key (readA (moved s) (issueCtx s).key a.toNat) = .ok g := hg
  simp only [hgo, startAcc, withToks_some _ ht]
  rfl

section
variable {m : State} {c : Ctx} (ht : takeToks m c.key k = some t) (hids : ∀ p ∈ m.ops, p.1 < m.nextId)
include ht hids

/-- The operation of the COLL.AB itself comes after all others. -/
theorem abort_ops : (startOp t c (abortOp k g)).ops = m.ops ++ [(m.nextId, startedOp t c (abortOp k g))] := by
  rw [startOp_ops, takeToks_nextId ht]
  obtain ⟨l, rfl⟩ := takeToks_setCell ht
  exact sset_above _ hids

/-- The COLL.AB is no round on its descriptor. -/
theorem abort_roundOn (desc : Nat) : roundOn (startOp t c (abortOp k g)) c.key desc = roundOn m c.key desc := by
  have hself : ¬(startedOp t c (abortOp k g)).coll.kind < 5 := Nat.lt_irrefl 5
  unfold roundOn
  rw [abort_ops ht hids, List.find?_append, List.find?_cons_of_neg (by simp [hself]), List.find?_nil, Option.or_none]

/-- Nor is it one of the rounds of a group. -/
theorem abort_roundOps {gid round : Nat} {p : Nat × Op} (hp : p ∈ roundOps (startOp t c (abortOp k g)) gid round) :
    p ∈ m.ops := by
  unfold roundOps at hp
  rw [abort_ops ht hids, List.mem_filter, List.mem_append, List.mem_singleton] at hp
  obtain ⟨hmem | rfl, hround⟩ := hp
  · exact hmem
  · have hself : ¬(startedOp t c (abortOp k g)).coll.kind < 5 := Nat.lt_irrefl 5
    simp [hself] at hround

end

/-- R349: COLL.AB is over as it starts, and the round outstanding on its descriptor with it. -/
theorem collAb_ends (hi : Issues lgColl [a] s) (hg : groupDesc (moved s) (issueCtx s).key (src s a) = .ok g)
    (hroom : accFull (issueCtx s) (moved s) = false) (ht : takeToks (moved s) (issueCtx s).key k = some t)
    (hids : ∀ p ∈ (moved s).ops, p.1 < (moved s).nextId) :
    ∃ u o, Runs (.collAb a k) s u ∧ sfind u.ops (moved s).nextId = some o ∧ o.kind = .coll ∧ o.coll.kind = 5
      ∧ o.units = true ∧ ∀ id r, roundOn (moved s) (issueCtx s).key g.desc = some (id, r) →
        ∃ e, sfind u.ops id = some e ∧ e.units = true := by
  have hstart : sfind (startOp t (issueCtx s) (abortOp k g)).ops (moved s).nextId
      = some (startedOp t (issueCtx s) (abortOp k g)) := by
    rw [startOp_ops, takeToks_nextId ht, sfind_sset, if_pos rfl]
  have hon := abort_roundOn (g := g) ht hids g.desc
  cases hround : roundOn (moved s) (issueCtx s).key g.desc with
  | none =>
    exact ⟨_, _, collAb_completes hi hg hroom ht (endRoundOn_none (hon.trans hround)), hstart, rfl, rfl, rfl,
      fun _ _ h => nomatch h⟩
  | some p =>
    obtain ⟨id, r⟩ := p
    have hlt : id < (moved s).nextId := hids _ (List.mem_of_find?_eq_some hround)
    refine ⟨_, startedOp t (issueCtx s) (abortOp k g),
      collAb_completes hi hg hroom ht (endRoundOn_some (hon.trans hround)), ?_, rfl, rfl, rfl, ?_⟩
    · rw [collStop_find 2 fun p hp _ => (hids p (abort_roundOps ht hids hp)).ne, if_neg hlt.ne']
      exact hstart
    · rintro _ _ ⟨⟩
      refine ⟨{ r with units := true }, ?_, rfl⟩
      rw [collStop_find 2 fun _ _ hne => hne, if_pos rfl]

end

end Sys2Proof.Machine

open Sys2Proof Sys2Proof.Machine

/-- Settles O33: a COLL word of any kind starts its round as coll_begins says, and COLL.AB ends one. -/
theorem collectiveWords : Obligations.CollectiveWords := by
  intro s ds dt op fmt a b k g kind i hkind c m ctx ws wt root hg _ hroom htok hids
  obtain ⟨t, ht⟩ := Option.isSome_iff_exists.mp htok
  obtain ⟨hdesc, hmemb⟩ := groupDesc_ok hg
  refine ⟨fun hi hsrc hdst hfmt hcnt hfew hone => ?_, fun hi => ?_⟩
  · have hword : ∃ op' : BitVec 3, exec i s = collWord kind ds dt op' fmt a (if kind = 3 then b else 0) k s := by
      obtain ⟨rfl, rfl⟩ | ⟨rfl, rfl⟩ | ⟨rfl, rfl⟩ | ⟨rfl, rfl⟩ | ⟨rfl, rfl⟩ := hkind <;> exact ⟨_, rfl⟩
    obtain ⟨op', he⟩ := hword
    have hroot : (src s (if kind = 3 then b else 0)).toNat = root := by
      dsimp only [root]
      split <;> rfl
    have hroot' : (if kind = 3 then root else 0) = root := by
      dsimp only [root]
      split <;> rfl
    let o := roundOp kind op'.toNat fmt.toNat root ws wt k g
    have hspad := roundStarted_spad o ht
    have hlost : unlinked (roundStarted t c o) o.coll = unlinked m g := roundStarted_unlinked o ht
    have hrun {u : State} := coll_begins (u := u) (o := o) hi he hg hroom ht hroot rfl rfl ⟨hsrc, hdst, hfmt, hcnt⟩
      ⟨hfew, hone⟩ rfl
    cases hl : unlinked m g with
    | none =>
      refine ⟨roundStarted t c o, startedOp t c o, hrun (endUnlinked_none _ (hlost.trans hl)), ?_, rfl, rfl, rfl, rfl, rfl,
        hroot', rfl, rfl, rfl, fun _ => ⟨rfl, hspad⟩, fun p hp hloc hlink => ?_⟩
      · rw [← takeToks_nextId ht]
        exact roundStarted_find o t c
      · have hsome := unlinked_none hl hp hloc
        simp [hlink] at hsome
    | some q =>
      obtain ⟨hq, hrank, hloc, hlink⟩ := unlinked_some hl
      refine ⟨collEnd (roundStarted t c o) t.nextId (startedOp t c o) 4 q.2, { startedOp t c o with units := true },
        hrun (endUnlinked_some (hlost.trans hl) (roundStarted_find o t c)), ?_, rfl, rfl, rfl, rfl, rfl,
        hroot', rfl, rfl, rfl, fun hall => ?_, fun _ _ _ _ => ⟨rfl, q.2, hmemb ▸ hrank, putStatus_spad_congr _ _ hspad⟩⟩
      · rw [collEnd_ops, sfind_sset, if_pos (takeToks_nextId ht).symm]
      · have hno := hall _ hq
        simp [hloc, hlink] at hno
  · rw [← hdesc]
    exact collAb_ends hi hg hroom ht hids

end

