-- ==== Sys2Proof/Proofs/CollectiveMessages.lean ====
section
/-! SUPPORT. The messages of other packages about rounds, and the ends of rounds (R347 to R349, R474, R475). -/

namespace Sys2Proof.Machine

/-! ## The parameters and parts of a partial -/

/-- R348: the round at a member has other parameters than a partial names. -/
def differsFrom (m : CollMsg) (p : Nat × Op) : Bool :=
  !decide (p.2.coll.kind = m.kind.toNat ∧ p.2.coll.op = m.op.toNat ∧ p.2.coll.fmt = m.fmt.toNat ∧ p.2.coll.count = m.count
    ∧ p.2.coll.nmemb = m.nmemb ∧ p.2.coll.root = m.root)

/-- R494: the parts of a partial that are contributions of its own package, another than this one. -/
def ownParts (s : State) (m : CollMsg) (o : Op) : List (Nat × List Word) :=
  m.parts.filter fun q => match o.coll.memb[q.1]? with
    | some x => decide (x.1 = m.pkg) && decide (x.1 ≠ pkgOwn s)
    | none => false

/-- A round takes the contributions of a partial. -/
def takePartial (m : CollMsg) (s : State) (p : Nat × Op) : State :=
  { s with ops := sset s.ops p.1 (addParts p.2 (ownParts s m p.2)) }

/-- R348, R494: a partial ends the rounds with other parameters, and the others take its contributions. -/
theorem partialTo_eq (s : State) (m : CollMsg) (l : List (Nat × Op)) :
    partialTo s m l =
      (l.filter fun p => !differsFrom m p).foldl (takePartial m) (endAll s (l.filter (differsFrom m)) 3) := rfl

theorem partialTo_same {s : State} {m : CollMsg} {p : Nat × Op} (h : differsFrom m p = false) :
    partialTo s m [p] = takePartial m s p := by
  simp only [partialTo_eq, List.filter, h]
  rfl

theorem partialTo_differs {s : State} {m : CollMsg} {p : Nat × Op} (h : differsFrom m p = true) :
    partialTo s m [p] = collEnd s p.1 p.2 3 (failRank s p.2) := by
  simp only [partialTo_eq, List.filter, h]
  rfl

theorem ownParts_eq_parts {s : State} {m : CollMsg} {o : Op} (hpkg : m.pkg ≠ pkgOwn s)
    (hparts : ∀ p ∈ m.parts, (o.coll.memb[p.1]?).map (·.1) = some m.pkg) : ownParts s m o = m.parts := by
  refine List.filter_eq_self.mpr fun p hp => ?_
  obtain ⟨x, hx, hxp⟩ := Option.map_eq_some_iff.mp (hparts p hp)
  simp [hx, hxp, hpkg]

/-! ## The arrival of a message -/

section
variable {s : State} {h : HeldMsg}

theorem holdMsg_unawaited (ha : roundAwaited s h.msg.gid.toNat h.msg.round.toNat h.reg = false) : holdMsg s h = s :=
  if_pos (congrArg not ha)

theorem holdMsg_awaited (ha : roundAwaited s h.msg.gid.toNat h.msg.round.toNat h.reg = true) :
    holdMsg s h = if heldBytes (s.held ++ [h]) ≤ 65536 then { s with held := s.held ++ [h] } else s :=
  if_neg (Bool.not_not_eq.mpr ha)

/-- A partial that reaches no round. -/
theorem collPartial_reachesNone {m : CollMsg} (hl : msgOps s { at_ := s.tick, ab := false, msg := m } = []) :
    Runs (.collPartial m) s (holdMsg s { at_ := s.tick, ab := false, msg := m }) := by
  refine congrArg Host.Outcome.next ?_
  simp only [msgArrive, hl]
  rfl

section
variable {m : CollMsg} {id : Nat} {o : Op} (hl : msgOps s { at_ := s.tick, ab := false, msg := m } = [(id, o)])
include hl

/-- A partial that reaches one round is held for the members that it has not reached. -/
theorem collPartial_reachesOne :
    Runs (.collPartial m) s (holdMsg (partialTo s m [(id, o)]) { at_ := s.tick, ab := false, msg := m, got := [o.key] }) := by
  refine congrArg Host.Outcome.next ?_
  simp only [msgArrive, hl]
  rfl

theorem collPartial_adds (hsame : differsFrom m (id, o) = false) (hpkg : m.pkg ≠ pkgOwn s)
    (hparts : ∀ p ∈ m.parts, (o.coll.memb[p.1]?).map (·.1) = some m.pkg) :
    Runs (.collPartial m) s (holdMsg { s with ops := sset s.ops id (addParts o m.parts) }
      { at_ := s.tick, ab := false, msg := m, got := [o.key] }) := by
  have hrun := collPartial_reachesOne hl
  rwa [partialTo_same hsame, takePartial, ownParts_eq_parts hpkg hparts] at hrun

theorem collPartial_mismatch (hdiff : differsFrom m (id, o) = true) :
    Runs (.collPartial m) s
      (holdMsg (collEnd s id o 3 (failRank s o)) { at_ := s.tick, ab := false, msg := m, got := [o.key] }) := by
  have hrun := collPartial_reachesOne hl
  rwa [partialTo_differs hdiff] at hrun

end

theorem collAbort_ends {pkg : Nat} {gid : BitVec 16} {round : BitVec 32} {id : Nat} {o : Op}
    (hl : msgOps s { at_ := s.tick, ab := true, msg := abortMsg pkg gid round } = [(id, o)]) :
    Runs (.collAbort pkg gid round) s (holdMsg (collEnd s id o 2 (failRank s o))
      { at_ := s.tick, ab := true, msg := abortMsg pkg gid round, got := [o.key] }) := by
  refine congrArg Host.Outcome.next ?_
  simp only [msgArrive, hl]
  rfl

end

/-! ## The ends of rounds -/

section
variable {s : State} {id : Nat} {o : Op} (ho : sfind s.ops id = some o)
include ho

theorem collRoundTimeout_stops (hk : o.kind = .coll) (hc : o.coll.kind < 5) (hu : o.units = false)
    (hlate : o.born + o.coll.tout ≤ s.tick) : Runs (.collRoundTimeout id) s (collStop s id o 1) := by
  refine congrArg Host.Outcome.next ?_
  simp only [ho]
  exact if_pos ⟨hk, hc, congrArg not hu, hlate⟩

/-- A full round writes its result along dt, and ends where that is done. -/
theorem collRoundEnd_writes (hfull : collFull o = true) (hlive : opLive s o = true) :
    Runs (.collRoundEnd id) s
      (match collWrite { s with freeCtr := s.freeCtr + 1 } id o (collResult s.freeCtr o.coll).zipIdx with
        | .error (c, a) => opFault { s with freeCtr := s.freeCtr + 1 } id o c a
        | .ok u => collEnd u id o 0 0xFFFF) := by
  refine congrArg Host.Outcome.next ?_
  simp only [ho, hfull, hlive]
  rfl

end

end Sys2Proof.Machine

open Sys2Proof Sys2Proof.Machine

/-- Settles O50, event by event. -/
theorem collectiveRoundsEnd : Obligations.CollectiveRoundsEnd := by
  intro s
  refine ⟨fun m => ⟨fun hl ha => ⟨fun hfit => ?_, fun hfull => ?_⟩, fun hl ha => ?_,
    fun id o hl => ⟨fun hsame hpkg hparts => ?_, fun hdiff => ?_⟩⟩, fun pkg gid round id o => collAbort_ends,
    fun id o ho hk hc hu hlate => collRoundTimeout_stops ho hk hc hu hlate,
    fun id o ho hfull hlive => ⟨fun u hw => ?_, fun c a hw => ?_⟩, rfl⟩
  · have hrun := collPartial_reachesNone hl
    rwa [holdMsg_awaited ha, if_pos hfit] at hrun
  · have hrun := collPartial_reachesNone hl
    rwa [holdMsg_awaited ha, if_neg (Nat.not_le.mpr hfull)] at hrun
  · have hrun := collPartial_reachesNone hl
    rwa [holdMsg_unawaited ha] at hrun
  · exact collPartial_adds hl (congrArg not (decide_eq_true hsame)) hpkg hparts
  · exact collPartial_mismatch hl (congrArg not (decide_eq_false hdiff))
  · have hrun := collRoundEnd_writes ho hfull hlive
    rwa [hw] at hrun
  · have hrun := collRoundEnd_writes ho hfull hlive
    rwa [hw] at hrun

end

