-- ==== Sys2Proof/Proofs/Mailboxes.lean ====
section
/-! SUPPORT. The mailboxes of the cores: the words that send, receive and wait, the events that deliver, and the time-outs
(R352, R353, R448). -/

namespace Sys2Proof.Machine

/-! ## Room and delivery -/

theorem mailRoom_of_lt {s : State} {k : Nat} (h : (coreAt s k).mbox.length < 64) : mailRoom s k = true := decide_eq_true h

theorem mailRoom_of_full {s : State} {k : Nat} (h : 64 ≤ (coreAt s k).mbox.length) : mailRoom s k = false :=
  decide_eq_false (Nat.not_lt.mpr h)

/-- The oldest message goes first where its core has room. -/
theorem firstRoom_head {s : State} {k : Nat} {w : Word} (l : List (Nat × Word)) (h : (coreAt s k).mbox.length < 64) :
    firstRoom s ((k, w) :: l) = some (0, k, w) := if_pos (mailRoom_of_lt h)

theorem deviceEvent_enters {s : State} {k : Nat} {w : Word} {l : List (Nat × Word)} (hq : s.devq = (k, w) :: l)
    (hroom : (coreAt s k).mbox.length < 64) (hrst : s.rstT = none) :
    Runs .deviceEventDeliver s (mailPut { s with devq := l } k w) := by
  simp [Runs, exec_deviceEventDeliver, execDeviceEventDeliver, hq, firstRoom_head l hroom, hrst]

theorem lighthouseAnswer_enters {s : State} {k : Nat} {w : Word} {l : List (Nat × Word)} (hq : s.lhans = (k, w) :: l)
    (hroom : (coreAt s k).mbox.length < 64) : Runs .lighthouseAnswerDeliver s (mailPut { s with lhans := l } k w) := by
  simp [Runs, exec_lighthouseAnswerDeliver, execLighthouseAnswerDeliver, hq, firstRoom_head l hroom]

/-! ## MBOXS, MBOXR and MWAIT (R352) -/

section
variable {s : State} {d a b : BitVec 6}

section
variable (hi : Issues { mgmt := true } [d, a, b] s)
include hi

/-- A core number that names another core. -/
theorem mboxs_toCore (h1 : 1 ≤ bits (src s a) 7 0) (h9 : bits (src s a) 7 0 ≤ 9)
    (hme : bits (src s a) 7 0 ≠ (issueCtx s).key - coreKey + 1) :
    Runs (.mboxs d a b) s
      (if mailRoom (moved s) (bits (src s a) 7 0 - 1) then
        landA (mailPut (moved s) (bits (src s a) 7 0 - 1)
          (mailWord (ident ((issueCtx s).key - coreKey)) (src s b).toNat)) (issueCtx s) d 0 1
      else landA (moved s) (issueCtx s) d 1 1) := by
  have hcore : ¬(bits (src s a) 7 0 = 0 ∨ 9 < bits (src s a) 7 0 ∨
      bits (src s a) 7 0 = ident ((issueCtx s).key - coreKey)) := by unfold ident; omega
  exact runs_ok hi rfl ((if_neg hcore).trans (apply_ite Res.ok _ _ _).symm)

/-- One that names none. -/
theorem mboxs_toNone (h : bits (src s a) 7 0 = 0 ∨ 9 < bits (src s a) 7 0 ∨
    bits (src s a) 7 0 = (issueCtx s).key - coreKey + 1) : Lands (.mboxs d a b) s d 2 1 := runs_ok hi rfl (if_pos h)

end

section
variable (hi : Issues { mgmt := true } [d] s)
include hi

theorem mboxr_takes {w : Word} {l : List Word} (h : (coreAt (moved s) ((issueCtx s).key - coreKey)).mbox = w :: l) :
    Runs (.mboxr d) s (landA (setCore (moved s) ((issueCtx s).key - coreKey)
      { coreAt (moved s) ((issueCtx s).key - coreKey) with mbox := l }) (issueCtx s) d w 1) := by
  refine runs_ok hi rfl ?_
  simp only [h]

theorem mboxr_empty (h : (coreAt (moved s) ((issueCtx s).key - coreKey)).mbox = []) : Lands (.mboxr d) s d 0 1 := by
  refine runs_ok hi rfl ?_
  simp only [h]

end

theorem mwait_ends {n : BitVec 32} (hi : Issues { mgmt := true } [] s)
    (h : (coreAt (moved s) ((issueCtx s).key - coreKey)).mbox ≠ []) : Runs (.mwait n) s (moved s) :=
  runs_ok hi rfl (if_pos (by simpa using h))

end

/-! ## Time-outs (R351, R352) -/

theorem mwait_timesOut {s : State} {k : Nat} {n : BitVec 32} (hnext : coreNext s k = some (.mwait n)) (hn : n ≠ 0)
    (hbox : (coreAt s k).mbox = []) (hlate : coreWaited s k n.toNat = true) :
    Runs (.mwaitTimeout k) s
      (setCore s k { coreAt s k with st := (coreAt s k).st.advance s.per (coreAt s k).st.joins }) := by
  refine congrArg Host.Outcome.next ?_
  simp only [hnext]
  exact if_pos ⟨hn, List.isEmpty_iff.mpr hbox, hlate⟩

theorem pcsrr_timesOut {s : State} {k : Nat} {e : BitVec 6} {site : BitVec 8} {reg : BitVec 12}
    (hnext : coreNext s k = some (.pcsrr e site reg)) (hlate : coreWaited s k 200000 = true) :
    Runs (.pcsrrTimeout k) s (coreFault s k (coreAt s k).st.pc { code := 15 }) := by
  simp [Runs, exec_pcsrrTimeout, execPcsrrTimeout, hnext, hlate, cLink]

end Sys2Proof.Machine

open Sys2Proof Sys2Proof.Machine

/-- Settles O15, word by word and event by event. -/
theorem mailboxWordsExchange : Obligations.MailboxWordsExchange := by
  intro s d a b n c m me id
  refine ⟨fun hi => ⟨fun h1 h9 hme hroom => ?_, fun h1 h9 hme hfull => ?_, mboxs_toNone hi⟩,
    fun hi => ⟨fun w l h => mboxr_takes hi h, mboxr_empty hi⟩, mwait_ends,
    fun k w l hq hroom hrst => deviceEvent_enters hq hroom hrst, fun k w l hq hroom => lighthouseAnswer_enters hq hroom,
    fun k => mwait_timesOut, fun k e site reg => pcsrr_timesOut⟩
  · have hrun := mboxs_toCore hi h1 h9 hme
    rwa [if_pos (mailRoom_of_lt hroom)] at hrun
  · have hrun := mboxs_toCore hi h1 h9 hme
    rwa [if_neg (ne_true_of_eq_false (mailRoom_of_full hfull))] at hrun

end

