-- ==== Sys2Proof/Proofs/Faults.lean ====
section
/-! SUPPORT. A fault of a cell's stream: it is recorded and raises the halt line, or ends an elastic stream (R354 to R358). -/

namespace Sys2Proof.Machine

/-! ## What a fault without a shadow access comes to -/

/-- A fault of a counted stream, or outside the class "ends", ends no stream. -/
theorem endsStream_eq_false {st : Stream} {code : Nat} (hc : st.counted = true ∨ endsClass code = false) :
    (!st.counted && endsClass code) = false := by
  rcases hc with hc | hc <;> simp [hc]

section
variable {s : State} {w : Who} {f : Flt} (hk : isCore w.key = false) (hst : ((cellAt s w.key).stream w.seq).stub = .none)
include hk hst

/-- A fault that ends no stream is recorded; the first one of a region raises its halt line. -/
theorem takeFault_first (hc : ((cellAt s w.key).stream w.seq).counted = true ∨ endsClass f.code = false) (hsh : f.shadow = none)
    (hd : (regAt s (cellAt s w.key).reg).haltD = none) :
    takeFault s w f = raiseHalt (recordFault s (cellAt s w.key).reg w f false) (cellAt s w.key).reg w.cyc := by
  simp only [takeFault, hk, hst, endsStream_eq_false hc, hd, addShadow, hsh, Bool.false_eq_true, if_false, reduceCtorEq, or_self]

/-- One detected after D is recorded, and leaves the halt as it is. -/
theorem takeFault_later (hc : ((cellAt s w.key).stream w.seq).counted = true ∨ endsClass f.code = false) (hsh : f.shadow = none)
    {d : Nat} (hd : (regAt s (cellAt s w.key).reg).haltD = some d) (hlate : d < w.cyc.getD (regAt s (cellAt s w.key).reg).tide) :
    takeFault s w f = recordFault s (cellAt s w.key).reg w f false := by
  simp only [takeFault, hk, hst, endsStream_eq_false hc, hd, hsh, if_neg (Nat.not_le.mpr hlate), Option.isSome_none, Bool.and_false, Bool.false_and,
    Bool.false_eq_true, if_false, reduceCtorEq, or_self]

/-- A fault of the class "ends" in an elastic stream ends it (R355). -/
theorem takeFault_ends (hc : ((cellAt s w.key).stream w.seq).counted = false) (he : endsClass f.code = true) :
    takeFault s w f = endElastic s w f.code := by
  simp only [takeFault, hk, hst, hc, he, Bool.not_false, Bool.and_self, Bool.false_eq_true, if_false, if_true, reduceCtorEq, or_self]

end

/-! ## The halt line, the list of faults, and the end of a stream -/

/-- The halt line of a region whose TIDE goes on stops it 64 cycles later (R356). -/
theorem raiseHalt_running {s : State} {h : Nat} (hd : (regAt s h).haltD = none) (hs : (regAt s h).started = true)
    (hf : (regAt s h).frozen = false) (hw : (regAt s h).swait = none) :
    raiseHalt s h none = setReg s h { regAt s h with haltD := some (regAt s h).tide, haltH := (regAt s h).tide + 64 } := by
  simp only [raiseHalt, hd, hs, hf, hw, Option.isSome_none, Bool.false_and, Bool.not_true, Bool.false_eq_true, if_false]

theorem regAt_setReg_same (s : State) (h : Nat) (r : Region) : regAt (setReg s h r) h = r := (regAt_setReg s h h r).trans (if_pos rfl)

theorem regAt_recordFault (s : State) (h : Nat) (w : Who) (f : Flt) (sh : Bool) :
    regAt (recordFault s h w f sh) h = { regAt s h with faults := (regAt s h).faults ++ [faultRec s h w f sh] } :=
  regAt_setReg_same s h _

theorem recordFault_rest (s : State) (h : Nat) (w : Who) (f : Flt) (sh : Bool) :
    (recordFault s h w f sh).cells = s.cells ∧ (recordFault s h w f sh).mem = s.mem := ⟨rfl, rfl⟩

/-- A stream without a task ends with the code, and its region keeps the line as it is. -/
theorem endElastic_stream {s : State} {w : Who} {code : Nat} (ht : ((cellAt s w.key).stream w.seq).task = false)
    (hf : ((cellAt s w.key).stream w.seq).fcode = 0) :
    (cellAt (endElastic s w code) w.key).stream w.seq = ((cellAt s w.key).stream w.seq).stop code
      ∧ (regAt (endElastic s w code) (cellAt s w.key).reg).haltD = (regAt s (cellAt s w.key).reg).haltD := by
  simp only [endElastic, ht, hf, ne_eq, not_true_eq_false, Bool.false_eq_true, if_false]
  refine ⟨?_, ?_⟩
  · rw [cellAt_setCell, if_pos rfl, setStream_stream_same]
  · change (sget ({} : Region) (sset s.regions _ _) _).haltD = _
    rw [sget_sset_same]

end Sys2Proof.Machine

open Sys2Proof Sys2Proof.Machine

/-- Settles O40, by what each kind of fault comes to. -/
theorem faultsHaltOrEnd : Obligations.FaultsHaltOrEnd := by
  intro s w f hk c st r hst
  refine ⟨fun hc hsh hd hs hf hw hcyc => ?_, fun hc hsh d hd hlate hcyc => ?_, fun hc he ht hf => ?_⟩
  · intro t
    have hreg := regAt_recordFault s c.reg w f false
    have ht : t = raiseHalt (recordFault s c.reg w f false) c.reg none := hcyc ▸ takeFault_first hk hst hc hsh hd
    rw [raiseHalt_running (by rw [hreg]; exact hd) (by rw [hreg]; exact hs) (by rw [hreg]; exact hf) (by rw [hreg]; exact hw), hreg] at ht
    rw [ht, regAt_setReg, if_pos rfl]
    refine ⟨rfl, rfl, ?_, rfl, rfl⟩
    have hd' : (faultRec s c.reg w f false).d = r.tide := by simp only [faultRec, hcyc, Option.getD_none]; exact if_pos hs
    simp only [faultRec] at hd' ⊢
    rw [hd']
  · intro t
    have ht : t = recordFault s c.reg w f false := takeFault_later hk hst hc hsh hd (by rw [hcyc]; exact hlate)
    rw [ht, regAt_recordFault]
    exact ⟨hd, rfl, by simp [r], recordFault_rest s c.reg w f false⟩
  · intro t
    have ht' : t = endElastic s w f.code := takeFault_ends hk hst hc he
    obtain ⟨hstream, hhalt⟩ := endElastic_stream (code := f.code) ht hf
    rw [ht', hstream]
    exact ⟨rfl, rfl, hhalt⟩

end

