-- ==== Sys2Proof/Proofs/RegionStops.lean ====
section
/-! SUPPORT. A region that stops without a save area, in a state whose records name its slot twice (R361, R433). -/

namespace Sys2Proof.Machine

/-- A fault that no trap stub takes. -/
def illegalWordFault : FaultRec :=
  { d := 0, ldie := 0, row := 0, col := 0, seq := .s, engn := false, code := cIllegal, applied := 0, pc := 0, taddr := 0, arg := 0,
    shadow := false, ord := 0 }

/-- A running region without cells whose stop is due: its context has no save area, so that no record of it can be written. -/
def stoppingRegion : Region :=
  { handle := 1, stage := .running, haltD := some 0, stopP := some 0, faults := [illegalWordFault] }

/-- A state that lists the region's slot twice among its records: R433 takes one of them away. -/
def slotListedTwice : State :=
  let rec0 := recOf (setReg State.reset 1 stoppingRegion) 1 1 0 0 0 none 0 0
  { setReg State.reset 1 stoppingRegion with records := [(slotKey 0 0, rec0), (slotKey 0 0, rec0)] }

/-- The hypotheses of the stop of a region that leaves no record. -/
theorem slotListedTwice_stops :
    let u := stopWork slotListedTwice 1
    let r := regAt u 1
    stopDue slotListedTwice (regAt slotListedTwice 1) = true ∧ (regAt slotListedTwice 1).stage = .running ∧ r.ending = false
      ∧ r.forced = false ∧ firstFault r.faults = some illegalWordFault ∧ haltRecoverable u r illegalWordFault = false
      ∧ (putRecord u 1 (recOf u 1 1 illegalWordFault.code 0 0 (some illegalWordFault) (r.faults.length - 1) illegalWordFault.d)).2 = false :=
  ⟨rfl, rfl, rfl, rfl, rfl, rfl, rfl⟩

/-- The stop of a running region. -/
theorem regionStop_running {s : State} {h : Nat} (hd : stopDue s (regAt s h) = true) (hs : (regAt s h).stage = .running) :
    Runs (.regionStop h) s (stopRegion s h) := by
  simp only [Runs, exec_regionStop, execRegionStop, hd, hs, Bool.not_true, Bool.false_eq_true, if_false]

/-- After the stop the other record stands in the slot. -/
theorem slotListedTwice_keepsRecord :
    (sfind (stopRegion slotListedTwice 1).records (slotKey (regAt (stopWork slotListedTwice 1) 1).ctx
      (regAt (stopWork slotListedTwice 1) 1).slot)).isSome = true := rfl

end Sys2Proof.Machine

open Sys2Proof Sys2Proof.Machine

/-- Refutes O41: a record that cannot be written is taken from its slot once, and no hypothesis says that the state lists the slot
once. `slotListedTwice` lists it twice; its region halts, and a record still stands in the slot. -/
theorem not_regionsStopWithRecords : ¬ Obligations.RegionsStopWithRecords := by
  rintro ⟨hstops, _⟩
  obtain ⟨hdue, hrun, hend, hforced, hfirst, hrec, hput⟩ := slotListedTwice_stops
  obtain ⟨_, hlost, _⟩ := hstops slotListedTwice 1 illegalWordFault hdue hrun hend hforced hfirst
  obtain ⟨t, ht, -, -, hnone⟩ := hlost hrec hput
  have hstop : stopRegion slotListedTwice 1 = t := Host.Outcome.next.inj ((regionStop_running hdue hrun).symm.trans ht)
  have hsome := slotListedTwice_keepsRecord
  rw [hstop, hnone] at hsome
  exact Bool.false_ne_true hsome

end

