-- ==== Sys2Proof/Proofs/Yields.lean ====
section
/-! SUPPORT. Saves at slack points, and the ways back to running (R367, R373 to R375, R493). -/

namespace Sys2Proof.Machine

/-! ## What leaves the regions and their records -/

/-- The slots hold the same records in both states. -/
def SameRecords (s t : State) : Prop := t.records = s.records

theorem SameRecords.ofHome {s t : State} (h : HomeFrame s t) : SameRecords s t := h.get State.records rfl

theorem SameRecords.foldl {α : Type} {f : State → α → State} (hf : ∀ s a, SameRecords s (f s a)) (l : List α) (s : State) :
    SameRecords s (l.foldl f s) :=
  foldl_keeps (P := SameRecords s) (fun _ _ h => (hf ..).trans h) l s rfl

theorem setQueue_sameRecords (s : State) (n : Nat) (q : HQueue) : SameRecords s (setQueue s n q) := by
  unfold setQueue
  dsimp only
  split
  · rfl
  · exact (hostPut_homeFrame ..).get State.records rfl

theorem sendOn_sameRecords (s : State) (conn : Nat) (c : Conn) (typ qnum : Nat) (data : List Word) (bytes : List Byte) :
    SameRecords s (sendOn s conn c typ qnum data bytes) := by
  unfold sendOn
  dsimp only
  split <;> rfl

theorem sendHost_sameRecords (s : State) (conn typ qnum : Nat) (data : List Word) (bytes : List Byte) :
    SameRecords s (sendHost s conn typ qnum data bytes) := by
  unfold sendHost
  split
  · rfl
  · exact sendOn_sameRecords ..

theorem sendPkg_sameRecords (s : State) (pkg typ : Nat) (data : List Word) (bytes : List Byte) :
    SameRecords s (sendPkg s pkg typ data bytes) := by
  unfold sendPkg
  split
  · rfl
  · exact sendOn_sameRecords ..

theorem complete_sameRecords (s : State) (c : CmdRef) (status handle fcode disc slot : Nat) :
    SameRecords s (complete s c status handle fcode disc slot) := by
  unfold complete
  split
  · rfl
  · dsimp only
    generalize hput : hostPut s _ _ _ = p
    have hp : SameRecords s p := .ofHome (hput ▸ hostPut_homeFrame ..)
    split
    · exact (sendHost_sameRecords ..).trans ((setQueue_sameRecords ..).trans hp)
    · exact (setQueue_sameRecords ..).trans hp

theorem completeOpt_rest (s : State) (c : Option CmdRef) (status handle fcode disc slot : Nat) :
    (completeOpt s c status handle fcode disc slot).regions = s.regions ∧ SameRecords s (completeOpt s c status handle fcode disc slot) := by
  unfold completeOpt
  split
  · exact ⟨(complete_rest ..).1, complete_sameRecords ..⟩
  · exact ⟨rfl, rfl⟩

theorem unpinLease_sameRecords (s : State) (ctx : Nat) (l : Lease) (refused : Bool) : SameRecords s (unpinLease s ctx l refused) := by
  unfold unpinLease
  split
  · split
    · split
      · rfl
      · exact sendPkg_sameRecords ..
    · rfl
  · exact .foldl (fun _ _ => .ofHome (pinTile_homeFrame ..)) _ _

theorem releaseLeases_sameRecords (s : State) (h : Nat) : SameRecords s (releaseLeases s h) := by
  unfold releaseLeases
  dsimp only
  split
  · rfl
  · exact SameRecords.foldl (fun _ _ => unpinLease_sameRecords ..) _ _

theorem freeCells_sameRecords (s : State) (h : Nat) : SameRecords s (freeCells s h) := by
  have hplanes : SameRecords s ((regAt s h).psites.foldl unload s) := .foldl (f := unload) (fun _ _ => rfl) _ _
  refine Eq.trans ?_ hplanes
  refine SameRecords.foldl (f := fun s k => if (cellAt s k).reg = h then setCell (dropWork s k) k (cellAt s k).idle else s) (fun u k => ?_) _ _
  split <;> rfl

/-- A record that could be written stands in the region's slot (R433). -/
theorem putRecord_stands {s : State} {h : Nat} {rec : StopRec} (hok : (putRecord s h rec).2 = true) :
    sfind (putRecord s h rec).1.records (slotKey (regAt s h).ctx (regAt s h).slot) = some rec := by
  simp only [putRecord] at hok ⊢
  rw [if_pos hok, sfind_sset, if_pos rfl]

/-! ## The save of a yield (R373, R374, R493) -/

/-- What the record of a yield at a slack point holds: the cells as their slack-table entries say, and no operations (R374). -/
def yieldRec (u : State) (h t slix : Nat) : StopRec :=
  let rec0 := recOf u h 3 0 0 slix none 0 t
  { rec0 with hcyc := t, ops := [], cells := rec0.cells.map fun p => (p.1, slackCell p.2 (cellEntry (regAt u h) p.2)) }

/-- A save whose record stands releases the cells; the region waits, parked or for the scheduler. -/
theorem yieldEnd_saved (s : State) (h : Nat) :
    ((regAt (yieldEnd s h 3 true true) h).stage = .leases ∨ (regAt (yieldEnd s h 3 true true) h).stage = .parked)
      ∧ (regAt (yieldEnd s h 3 true true) h).resume = 3 ∧ (yieldEnd s h 3 true true).records = s.records := by
  have hfreed : SameRecords s (freeCells (releaseLeases s h) h) := (freeCells_sameRecords ..).trans (releaseLeases_sameRecords ..)
  unfold yieldEnd
  simp only [Bool.not_true, Bool.false_eq_true, if_false]
  generalize freeCells (releaseLeases s h) h = v at hfreed
  have hreg : ∀ (q : Region) (c : Option CmdRef) (slot : Nat),
      regAt (postEvent (completeOpt (setReg v h q) c stOk h 0 0 slot) harbourCore 5 h 3 0) h = q := fun q c slot =>
    (congrArg (fun l => sget ({} : Region) l h) (completeOpt_rest (setReg v h q) c stOk h 0 0 slot).1).trans (regAt_setReg_same v h q)
  rw [hreg]
  refine ⟨?_, rfl, (completeOpt_rest ..).2.trans hfreed⟩
  dsimp only
  split
  · exact .inr rfl
  · exact .inl rfl

section
variable {s : State} {h t slix : Nat}

/-- Cells that are empty are saved. -/
theorem saveYield_empty (he : ∀ k ∈ regCells (regAt (landAllStop s h) h), yieldBad (landAllStop s h) k = false) :
    let u := mergeRegion (settle (landAllStop s h) h) h
    saveYield s h t slix =
      yieldEnd (putRecord u h (yieldRec u h t slix)).1 h 3 (putRecord u h (yieldRec u h t slix)).2 true := by
  have hnone : (regCells (regAt (landAllStop s h) h)).filter (yieldBad (landAllStop s h)) = [] :=
    List.filter_eq_nil_iff.mpr fun k hk => by simp [he k hk]
  simp only [saveYield, hnone]
  rfl

/-- Each cell that is not empty raises SLACK_STATE, and nothing is saved. -/
theorem saveYield_bad {k : Nat} {ks : List Nat}
    (hb : (regCells (regAt (landAllStop s h) h)).filter (yieldBad (landAllStop s h)) = k :: ks) :
    saveYield s h t slix = (k :: ks).foldl
      (fun s k => takeFault s { key := k, seq := .s, pc := (cellAt s k).ss.pc } { code := cSlackState }) (landAllStop s h) := by
  simp only [saveYield, hb]

end

/-- A yield is saved once its wait is over, in a region with timed streams and in one without. -/
theorem yieldSave_runs {s : State} {h : Nat} (timed : Bool)
    (hd : (if timed then slackSaveDue s (regAt s h) else elasticSaveDue s (regAt s h)) = true) :
    Runs (if timed then .slackSave h else .elasticYieldSave h) s
      (saveYield s h (regAt s h).tide (if timed then (regAt s h).lastix.toNat else firstHeld s (regAt s h))) := by
  cases timed <;> exact congrArg Host.Outcome.next (if_pos hd)

theorem yieldsSave : Rules.YieldsSave := by
  intro s h timed hd r i slix v u rec0 rec1
  have hrun := yieldSave_runs timed hd
  refine ⟨fun he hput => ?_, fun k ks hb => ?_⟩
  · rw [saveYield_empty he] at hrun
    have hok : (putRecord u h (yieldRec u h r.tide slix)).2 = true := hput
    change Runs i s (yieldEnd (putRecord u h (yieldRec u h r.tide slix)).1 h 3 (putRecord u h (yieldRec u h r.tide slix)).2 true) at hrun
    rw [hok] at hrun
    obtain ⟨hstage, hres, hrecs⟩ := yieldEnd_saved (putRecord u h (yieldRec u h r.tide slix)).1 h
    refine ⟨_, rec1, hrun, hstage, hres, ?_, rfl, rfl, rfl, rfl⟩
    rw [hrecs]
    exact putRecord_stands hput
  · rwa [saveYield_bad hb] at hrun

/-! ## The resumptions (R367, R375) -/

theorem regAt_congr {s t : State} (h : t.regions = s.regions) (n : Nat) : regAt t n = regAt s n :=
  congrArg (fun l => sget ({} : Region) l n) h

/-- A fold of cell writes leaves the regions. -/
theorem foldl_setCell_regions (l : List Nat) (f : State → Nat → Cell) (s : State) :
    (l.foldl (fun s k => setCell s k (f s k)) s).regions = s.regions := by
  refine foldl_keeps (P := fun t : State => t.regions = s.regions) (fun _ _ h => ?_) l s rfl
  exact h

/-- The sector buffer of an agent is dropped; no region and no shadow list changes. -/
theorem dropSects_rest (s : State) (k : Nat) :
    (dropSects s k).regions = s.regions ∧ ∀ j, (cellAt (dropSects s k) j).shadow = (cellAt s j).shadow := by
  unfold dropSects overtake setSects
  dsimp only
  split
  · exact ⟨rfl, fun _ => rfl⟩
  · refine ⟨rfl, fun j => ?_⟩
    change (cellAt (setCell s k { cellAt s k with sect := [] }) j).shadow = _
    rw [cellAt_setCell]
    split
    · next hj => rw [hj]
    · rfl

/-- Cells that go on from a stop d periods ago. -/
def resumeCells (s : State) (l : List Nat) (d : Nat) : State :=
  l.foldl (fun s k => setCell (dropSects s k) k ((cellAt s k).resumeAt d)) s

theorem resumeCells_rest (s : State) (l : List Nat) (d : Nat) :
    (resumeCells s l d).regions = s.regions ∧ ∀ j, (cellAt (resumeCells s l d) j).shadow = (cellAt s j).shadow := by
  refine foldl_keeps (P := fun t : State => t.regions = s.regions ∧ ∀ j, (cellAt t j).shadow = (cellAt s j).shadow)
    (fun t k ht => ?_) l s ⟨rfl, fun _ => rfl⟩
  obtain ⟨hr, hsh⟩ := ht
  obtain ⟨hdr, hdsh⟩ := dropSects_rest t k
  refine ⟨hdr.trans hr, fun j => ?_⟩
  rw [cellAt_setCell]
  split
  · next hj => exact hj ▸ hsh j
  · exact (hdsh j).trans (hsh j)

/-- Without shadow accesses there is nothing to perform again. -/
theorem redoAll_regions {s : State} {h : Nat} (hs : ∀ k ∈ regCells (regAt s h), (cellAt s k).shadow = []) :
    (redoAll s h).regions = s.regions := by
  refine (List.foldlRecOn (motive := fun t : State =>
    t.regions = s.regions ∧ ∀ k ∈ regCells (regAt s h), (cellAt t k).shadow = []) _ _ ⟨rfl, hs⟩ fun t ht k hk => ?_).1
  obtain ⟨hr, hsh⟩ := ht
  rw [hsh k hk, List.foldl_nil]
  refine ⟨hr, fun j hj => ?_⟩
  rw [cellAt_setCell]
  split
  · rfl
  · exact hsh j hj

/-- The region runs again, at the TIDE it stopped at and without its halt. -/
theorem regAt_runAgain (s : State) (h : Nat) :
    let r := regAt (runAgain s h) h
    r.stage = .running ∧ r.tide = (regAt s h).tide ∧ r.haltD = none ∧ r.faults = [] ∧ r.dies = (regAt s h).dies := by
  unfold runAgain
  dsimp only
  rw [regAt_setReg_same]
  exact ⟨rfl, rfl, rfl, rfl, rfl⟩

/-- A region without shadow accesses resumes. -/
theorem regAt_resumeRun {s : State} {h p : Nat} (hs : ∀ k ∈ regCells (regAt s h), (cellAt s k).shadow = []) :
    let r := regAt (resumeRun s h p) h
    r.stage = .running ∧ r.tide = (regAt s h).tide ∧ r.haltD = none ∧ r.faults = [] := by
  obtain ⟨hr, hsh⟩ := resumeCells_rest s (regCells (regAt s h)) (s.per - p)
  let u := resumeCells s (regCells (regAt s h)) (s.per - p)
  let v : State := { u with ops := u.ops.map fun p => if p.2.reg = h then (p.1, { p.2 with t0 := u.tick, due := u.per + 1 }) else p }
  have hv : regAt v h = regAt s h := regAt_congr (t := v) hr h
  obtain ⟨hstage, htide, hhalt, hfaults, hdies⟩ := regAt_runAgain v h
  have hcells : regCells (regAt (runAgain v h) h) = regCells (regAt s h) := by rw [regCells, hdies, hv, regCells]
  have hredo : (redoAll (runAgain v h) h).regions = (runAgain v h).regions := redoAll_regions fun k hk =>
    (hsh k).trans (hs k (hcells ▸ hk))
  have heq : regAt (resumeRun s h p) h = regAt (runAgain v h) h := regAt_congr hredo h
  intro r
  rw [show r = _ from heq, htide, hv]
  exact ⟨hstage, rfl, hhalt, hfaults⟩

/-- The period of a resumption is fixed (R367). -/
theorem regAt_resumeAfter (s : State) (h p : Nat) : regAt (resumeAfter s h p) h = { regAt s h with resP := some p } := by
  unfold resumeAfter
  dsimp only
  rw [regAt_setReg_same, regAt_congr (foldl_setCell_regions ..)]

/-- Steps 4 and 5 of R375. -/
theorem regAt_slackRun (s : State) (h : Nat) :
    let r := regAt (slackRun s h) h
    r.stage = .running ∧ r.slackd = 0 ∧ r.tide = (regAt s h).tide ∧ r.haltD = none := by
  unfold slackRun
  dsimp only
  rw [regAt_setReg_same]
  generalize hu : List.foldl _ s _ = u
  have hreg : regAt u h = regAt s h := regAt_congr (hu ▸ foldl_setCell_regions ..) h
  obtain ⟨hstage, htide, hhalt, -, -⟩ := regAt_runAgain u h
  exact ⟨hstage, rfl, htide.trans (congrArg Region.tide hreg), hhalt⟩

theorem slackResume_runs {s : State} {h : Nat} (hd : slackDue s (regAt s h) = true) :
    Runs (.slackResume h) s (if (regAt s h).stage = .rebuild then rebuildEnd s h else slackRun s h) := by
  simp only [Runs, exec_slackResume, execSlackResume, hd, Bool.not_true, Bool.false_eq_true, if_false]

/-- Step 3 of R375, where every cell is as R375 asks. -/
theorem rebuildEnd_good {s : State} {h : Nat} (hg : (regCells (regAt s h)).find? (rebuildBad s) = none) :
    rebuildEnd s h = resumeAfter (setReg (unrebuild s h) h { regAt (unrebuild s h) h with stage := .resuming }) h
      (if hasTimed (unrebuild s h) (regAt s h) then boundaryAfter (unrebuild s h) 64 else (unrebuild s h).per) := by
  simp only [rebuildEnd, hg]

theorem resumptions : Rules.Resumptions := by
  intro s h
  refine ⟨fun hd hs => ?_, fun hd hst hg => ?_, fun hd hst => ?_⟩
  · exact ⟨_, congrArg Host.Outcome.next (if_pos hd), regAt_resumeRun hs⟩
  · have hrun := slackResume_runs hd
    rw [if_pos hst, rebuildEnd_good hg] at hrun
    refine ⟨_, hrun, ?_⟩
    rw [regAt_resumeAfter, regAt_setReg_same]
    exact ⟨rfl, Option.some_ne_none _⟩
  · have hrun := slackResume_runs hd
    rw [if_neg (by simp [hst])] at hrun
    exact ⟨_, hrun, regAt_slackRun s h⟩

end Sys2Proof.Machine

open Sys2Proof Sys2Proof.Machine

/-- Settles O42: saves by whether a cell is not empty, resumptions by what the region does next. -/
theorem yieldsAndResumptions : Obligations.YieldsAndResumptions := ⟨yieldsSave, resumptions⟩

end

