-- ==== Sys2Proof/Proofs/HostMessages.lean ====
section
/-! SUPPORT. The host's messages, their transport, and the consumption of commands (R412 to R420, R440). -/

namespace Sys2Proof.Machine

/-! ## A sequenced message that arrives in order (R414, R415) -/

/-- A message that is neither a HELLO nor an ACK. -/
def sequencedAsk : HostAsk → Bool
  | .hello .. | .ack .. => false
  | _ => true

section
variable {s : State} {m : HostHdr} {c : Conn}

theorem recvHost_up {x : HostMsg} (hb : s.boot = false) (hr : s.rstT = none) : recvHost s x = recvNow s x := by
  simp [recvHost, hb, hr]

/-- A message whose sequence number the connection expects is applied, and lets no held one follow. -/
theorem recvSeq_next {x : HostMsg} (hn : c.rx = x.hdr.seq.toNat) (hh : c.held = []) :
    recvSeq s c x = applyHost (setConn s x.hdr.conn
      { (if c.gen = 1 then c else { c with ackT := some (c.ackT.getD s.tick) }) with rx := (c.rx + 1) % 2 ^ 32 }) x := by
  have hahead : (x.hdr.seq.toNat + 2 ^ 32 - c.rx) % 2 ^ 32 = 0 := by omega
  unfold recvSeq
  dsimp only
  rw [if_pos hahead]
  by_cases hg : c.gen = 1
  · simp only [if_pos hg, hh]
    rfl
  · simp only [if_neg hg, hh]
    rfl

/-- The reserved bits of the header are 0. -/
theorem zeros_of_hdr {a : HostAsk} (hf : m.flags = 0) (hm : m.mbz = 0) : HostMsg.zeros { hdr := m, ask := a } = true := by
  simp [HostMsg.zeros, hf, hm]

theorem recvNow_sequenced {a : HostAsk} (ha : sequencedAsk a = true) (hc : sfind s.conns m.conn = some c) (hg : c.gen = m.gen.toNat)
    (hf : m.flags = 0) (hm : m.mbz = 0) :
    recvNow s { hdr := m, ask := a } = recvSeq s (if c.gen = 1 then c else ackUpTo c s.tick m.ack.toNat) { hdr := m, ask := a } := by
  have hz : ¬(!HostMsg.zeros { hdr := m, ask := a }) = true := by simp [zeros_of_hdr hf hm]
  have hg' : ¬c.gen ≠ m.gen.toNat := not_not_intro hg
  cases a
  case hello | ack => simp [sequencedAsk] at ha
  all_goals
    unfold recvNow
    rw [if_neg hz]
    simp only [hc, if_neg hg']

/-- A message in order is applied in the state in which its connection has counted it. -/
theorem recvHost_inOrder {a : HostAsk} (h : InOrder s m c) (ha : sequencedAsk a = true) :
    recvHost s { hdr := m, ask := a } = applyHost (taken s m c) { hdr := m, ask := a } := by
  obtain ⟨⟨hb, hr, -⟩, hc, hg, ⟨hf, hm⟩, hn, hh⟩ := h
  rw [recvHost_up hb hr, recvNow_sequenced ha hc hg hf hm]
  by_cases h1 : c.gen = 1
  · rw [if_pos h1, recvSeq_next (x := { hdr := m, ask := a }) hn hh, taken, if_pos h1, if_pos h1]
  · have h1' : (ackUpTo c s.tick m.ack.toNat).gen ≠ 1 := h1
    rw [if_neg h1, recvSeq_next (x := { hdr := m, ask := a }) (c := ackUpTo c s.tick m.ack.toNat) hn hh, taken, if_neg h1, if_neg h1']
    rfl

end

/-! ## Requests on a queue of the connection (R416, R419, R440) -/

/-- The connection is as it was but for its count and its acknowledgement, and the queue is its own. -/
theorem taken_conn {s : State} {m : HostHdr} {c : Conn} : (connAt (taken s m c) m.conn).gen = c.gen := by
  unfold taken
  rw [connAt_setConn, if_pos rfl]
  dsimp only
  split <;> rfl

theorem ownQueue_taken {s : State} {m : HostHdr} {c : Conn} {q : HQueue} (hq : queueAt s m.qnum.toNat = some q)
    (ho : q.conn = m.conn) : ownQueue (taken s m c) m.conn m.qnum.toNat = some q := by
  have hq' : queueAt (taken s m c) m.qnum.toNat = some q := hq
  simp only [ownQueue, hq', if_pos ho]

section
variable {u : State} {m : HostHdr} {q : HQueue} (hr : u.recovery = false) (hq : ownQueue u m.conn m.qnum.toNat = some q)
include hr hq

theorem regWrHost_qtail (v : Word) :
    regWrHost u m 0 v = sendResp (putTail u m.qnum.toNat q v) m.conn m.seq.toNat 0 0 [] := by
  simp only [regWrHost, hr, hq, Bool.false_eq_true, if_false]

theorem regWrHost_qprog (v : Word) : regWrHost u m 1 v = sendResp u m.conn m.seq.toNat 3 0 [] := by
  simp only [regWrHost, hr, hq, Bool.false_eq_true, if_false]

theorem regWrHost_qctl (v : Word) :
    regWrHost u m 2 v = sendResp (putCtl u m.qnum.toNat q v) m.conn m.seq.toNat 0 0 [] := by
  simp only [regWrHost, hr, hq, Bool.false_eq_true, if_false]

theorem regRdHost_value (reg : Nat) : regRdHost u m reg = sendResp u m.conn m.seq.toNat 0 (queueReg q reg) [] := by
  simp only [regRdHost, hr, hq, Bool.false_eq_true, if_false]

theorem memCtx_queue (a : Word) : memCtx u m a = some (some q.ctx) := by
  simp only [memCtx, hr, hq, Bool.false_eq_true, if_false, Option.map_some]

theorem memWrHost_checked {a : Word} {bs : List Byte} (hl : 8 + bs.length ≤ payloadMax (connAt u m.conn).gen) :
    memWrHost u m a bs =
      if hostRange u q.ctx a bs.length ≠ 0 then sendResp u m.conn m.seq.toNat (hostRange u q.ctx a bs.length) 0 []
      else if bootRefused u q.ctx a bs.length then sendResp u m.conn m.seq.toNat 4 0 []
      else sendResp (hostCount (hostWrite u q.ctx a bs) q.ctx a bs.length) m.conn m.seq.toNat 0 0 [] := by
  simp only [memWrHost, memCtx_queue hr hq]
  exact if_neg (Nat.not_lt.mpr hl)

theorem memRdHost_reads {a k : Word} (hl : k.toNat ≤ payloadMax (connAt u m.conn).gen) (hh : hostRange u q.ctx a k.toNat = 0) :
    memRdHost u m a k =
      sendResp (hostCount u q.ctx a k.toNat) m.conn m.seq.toNat 0 0 (hostRead u q.ctx a k.toNat) := by
  have hmax : payloadMax (connAt u m.conn).gen ≤ 8192 := by
    unfold payloadMax
    split <;> decide
  have hlow : bits k 31 0 = k.toNat := by unfold bits; omega
  have hhigh : bits k 63 32 = 0 := by unfold bits; omega
  simp only [memRdHost, memCtx_queue hr hq, hlow, hhigh, hh, if_neg (Nat.not_lt.mpr hl), ne_eq, not_true_eq_false, if_false]

end

/-- The tail of a queue that is switched in (R420). -/
theorem queueAt_putTail {s : State} {n : Nat} {q : HQueue} (v : Word) (hl : q.live = true) :
    queueAt (putTail s n q v) n = some (if overrun { q with tail := v.setWidth 16 } then
      { q with tail := v.setWidth 16, err := true, errc := 1 } else { q with tail := v.setWidth 16 }) := by
  have hput : putTail s n q v = setQueue s n (if overrun { q with tail := v.setWidth 16 } then
      { q with tail := v.setWidth 16, err := true, errc := 1 } else { q with tail := v.setWidth 16 }) := if_pos hl
  rw [hput, queueAt_setQueue, if_pos rfl]

theorem hostRequests : Rules.HostRequests := by
  intro s m c q hin hq ho u n ans
  have hr : u.recovery = false := hin.up.2.2
  have hown : ownQueue u m.conn m.qnum.toNat = some q := ownQueue_taken hq ho
  have hgen : (connAt u m.conn).gen = c.gen := taken_conn
  have hrun : ∀ a, sequencedAsk a = true → Host.Outcome.next (recvHost s { hdr := m, ask := a }) =
      (Host.Outcome.next (applyHost u { hdr := m, ask := a }) : Out) := fun a ha => congrArg _ (recvHost_inOrder hin ha)
  refine ⟨fun v => ⟨?_, fun hl ho => ?_, fun hl ho => ?_⟩, fun v => ⟨?_, ?_, ?_⟩, fun reg => ?_, fun a bs hl hh hb => ?_,
    fun a bs hl hh => ?_, fun a k hl hh => ?_⟩
  · exact (hrun (.regwr 0 v) rfl).trans (congrArg _ (regWrHost_qtail hr hown v))
  · rw [queueAt_putTail v hl, if_neg (ne_true_of_eq_false ho)]
  · rw [queueAt_putTail v hl, if_pos ho]
  · exact (hrun (.regwr 2 v) rfl).trans (congrArg _ (regWrHost_qctl hr hown v))
  · exact (hrun (.regwr 2 v) rfl).trans (congrArg _ (regWrHost_qctl hr hown v))
  · exact (hrun (.regwr 1 v) rfl).trans (congrArg _ (regWrHost_qprog hr hown v))
  · exact (hrun (.regrd reg.toNat) rfl).trans (congrArg _ (regRdHost_value hr hown reg.toNat))
  · have hw := memWrHost_checked hr hown (a := a) (bs := bs) (hgen ▸ hl)
    rw [if_neg (not_not_intro hh), if_neg (ne_true_of_eq_false hb)] at hw
    exact (hrun (.memwr a bs) rfl).trans (congrArg _ hw)
  · have hw := memWrHost_checked hr hown (a := a) (bs := bs) (hgen ▸ hl)
    rw [if_pos hh] at hw
    exact (hrun (.memwr a bs) rfl).trans (congrArg _ hw)
  · exact (hrun (.memrd a k) rfl).trans (congrArg _ (memRdHost_reads hr hown (hgen ▸ hl) hh))

/-! ## Transport (R412 to R416) -/

/-- An ACK reaches a connection of generation 2 (R416). -/
theorem ack_received {s : State} {m : HostHdr} {c : Conn} (l : List Bool) (hb : s.boot = false) (hr : s.rstT = none)
    (hf : m.flags = 0) (hm : m.mbz = 0) (hc : sfind s.conns m.conn = some c) (hg : c.gen = m.gen.toNat) (h2 : c.gen = 2) :
    Runs (.ack m l) s (setConn s m.conn (ackUpTo c s.tick m.ack.toNat)) := by
  have hz := zeros_of_hdr (a := .ack l) hf hm
  have hgen : (ackUpTo c s.tick m.ack.toNat).gen ≠ 3 := by
    have h2' : (ackUpTo c s.tick m.ack.toNat).gen = 2 := h2
    omega
  have hrecv : recvAck s c m l = setConn s m.conn (ackUpTo c s.tick m.ack.toNat) := congrArg (setConn s m.conn) (if_neg hgen)
  simp only [Runs, exec_ack, execAck, recvHost_up hb hr, recvNow, hz, hc, hg.symm, h2, hrecv]
  rfl

/-- A message that is sent on a connection leaves its generation and receipt count, and goes out. -/
theorem sendOn_sends (s : State) (n : Nat) (c : Conn) (typ q : Nat) (data : List Word) (bytes : List Byte) :
    ∃ x, sfind (sendOn s n c typ q data bytes).conns n = some x ∧ x.gen = c.gen ∧ x.rx = c.rx
      ∧ (sendOn s n c typ q data bytes).outputs.length = s.outputs.length + 1 ∧ (sendOn s n c typ q data bytes).mem = s.mem := by
  unfold sendOn
  dsimp only
  split
  · exact ⟨_, (sfind_sset ..).trans (if_pos rfl), rfl, rfl, List.length_append, rfl⟩
  · exact ⟨_, (sfind_sset ..).trans (if_pos rfl), rfl, rfl, List.length_append, rfl⟩

theorem adminQueue_rest (s : State) (n : Nat) :
    (adminQueue s n).conns = s.conns ∧ (adminQueue s n).outputs = s.outputs ∧ (adminQueue s n).mem = s.mem := by
  unfold adminQueue
  split <;> exact ⟨rfl, rfl, rfl⟩

/-- A HELLO whose generations meet those of the package sets up its connection anew (R412, R416). -/
theorem helloHost_connects {s : State} {n gen seq : Nat} {w0 w1 : Word} (h0 : bits w0 63 8 = 0) (h1 : bits w1 63 32 = 0)
    (hc : (sfind s.conns n).isSome = true) (hmeet : Nat.max 1 (bits w0 3 0) ≤ Nat.min 3 (bits w0 7 4)) :
    ∃ c, sfind (helloHost s n gen seq w0 w1).conns n = some c ∧ c.gen = Nat.min 3 (bits w0 7 4) ∧ c.rx = bits w1 31 0
      ∧ (helloHost s n gen seq w0 w1).outputs.length = s.outputs.length + 1 ∧ (helloHost s n gen seq w0 w1).mem = s.mem := by
  have hnone : (sfind s.conns n).isNone = false := Option.isNone_eq_false_iff.mpr hc
  have hzero : ¬(bits w0 63 8 ≠ 0 ∨ bits w1 63 32 ≠ 0) := by simp [h0, h1]
  have hroom : ¬((sfind s.conns n).isNone = true ∧ 64 ≤ (s.conns.filter fun p => !isReach p.1).length) := by simp [hnone]
  unfold helloHost
  simp only [if_neg hzero, if_neg hroom, if_neg (Nat.not_lt.mpr hmeet)]
  let c : Conn := { gen := Nat.min 3 (bits w0 7 4), rx := bits w1 31 0 }
  have hadmin : ∀ v : State, v = (if (setConn s n c).recovery then setConn s n c else adminQueue (setConn s n c) n) →
      sfind v.conns n = some c ∧ v.outputs = s.outputs ∧ v.mem = s.mem := by
    rintro v rfl
    have hset : sfind (setConn s n c).conns n = some c := (sfind_sset ..).trans (if_pos rfl)
    obtain ⟨hconns, hout, hmem⟩ := adminQueue_rest (setConn s n c) n
    split
    · exact ⟨hset, rfl, rfl⟩
    · exact ⟨hconns ▸ hset, hout, hmem⟩
  generalize hv : (if (setConn s n c).recovery then setConn s n c else adminQueue (setConn s n c) n) = v
  obtain ⟨hconn, hout, hmem⟩ := hadmin v hv.symm
  obtain ⟨x, hx, hgen, hrx, hlen, hmem'⟩ := sendOn_sends v n c tHello 0
    [BitVec.ofNat 64 (Nat.min 3 (bits w0 7 4) + Nat.min 3 (bits w0 7 4) * 16), BitVec.ofNat 64 ((connAt v n).tx + 1)] []
  simp only [sendHost, hconn]
  exact ⟨x, hx, hgen, hrx, hout ▸ hlen, hmem'.trans hmem⟩

theorem hello_connects {s : State} {m : HostHdr} {w0 w1 : Word} (hb : s.boot = false) (hr : s.rstT = none)
    (hf : m.flags = 0) (hm : m.mbz = 0) (hlo : 1 ≤ m.gen.toNat) (hhi : m.gen.toNat ≤ 3) (hn : m.conn < 1000) :
    Runs (.hello m w0 w1) s (helloHost s m.conn m.gen.toNat m.seq.toNat w0 w1) := by
  have hz := zeros_of_hdr (a := .hello w0 w1) hf hm
  have hreach : isReach m.conn = false := decide_eq_false (by omega)
  simp only [Runs, exec_hello, execHello, recvHost_up hb hr, recvNow, hz, helloMsg, hreach, hlo, hhi, Bool.not_true,
    Bool.false_eq_true, if_false, and_self, if_true]

/-- A receipt is acknowledged (R416). -/
theorem ackTimer_acknowledges {s : State} {n : Nat} {c : Conn} (hc : sfind s.conns n = some c) (hd : ackDue s c = true) :
    Runs (.ackTimer n) s
      { setConn s n { c with ackT := none } with
        outputs := s.outputs ++ [{ conn := n, gen := c.gen, seq := c.tx, typ := 7, ack := if c.gen < 2 then 0 else c.rx, sentT := s.tick }] } := by
  simp only [Runs, exec_ackTimer, execAckTimer, hc, hd, if_true, sendHost]
  rfl

/-- A message without its acknowledgement is sent again on a host's connection (R416). -/
theorem messageResend_sends {s : State} {n : Nat} {seq : BitVec 32} {c : Conn} {x : OutMsg} (hn : n < 1000)
    (hc : sfind s.conns n = some c) (hu : c.unack = [x]) (hx : x.seq = seq.toNat) (hlate : x.sentT + 100000 ≤ s.tick) :
    Runs (.messageResend n seq) s
      { setConn s n { c with ackT := none, unack := [{ x with sentT := s.tick, ack := c.rx }] } with
        outputs := s.outputs ++ [{ x with sentT := s.tick, ack := c.rx }] } := by
  have hreach : isReach n = false := decide_eq_false (by omega)
  simp [Runs, execMessageResend, hc, hu, hx, hlate, countRetx, hreach]

/-- A frame that is not the package's changes nothing but a count of telemetry (R412, R413). -/
theorem dropCount_rest (s : State) (n : Nat) : (dropCount s n).conns = s.conns ∧ (dropCount s n).queues = s.queues
    ∧ (dropCount s n).mem = s.mem ∧ (dropCount s n).outputs.length = s.outputs.length + 1 :=
  ⟨rfl, rfl, rfl, List.length_append⟩

/-- A frame of another EtherType, of IPv4 or for another UDP port. -/
def frameOfOthers (f : Frame) : Prop :=
  match f.encap with
  | .ether t _ => t ≠ 0x9A4C
  | .udp6 p _ _ => p ≠ 41812
  | .ipv4 => True

theorem claexFrame_ofOthers {s : State} {f : Frame} (hb : s.boot = false) (hg : f.good = true) (ho : frameOfOthers f) :
    Runs (.claexFrameDrop f) s (dropCount s 0) := by
  have hup : ¬(s.boot || !f.good) = true := by simp [hb, hg]
  refine congrArg Host.Outcome.next ((if_neg hup).trans ?_)
  split
  · rfl
  · unfold frameOfOthers at ho
    cases he : f.encap with
    | ether t src => rw [he] at ho; exact if_neg ho
    | udp6 p src sp => rw [he] at ho; exact if_neg ho
    | ipv4 => rfl

theorem hostPort_changes {s : State} {up : Bool} (h : s.mixd.getLsbD 44 ≠ up) :
    Runs (.hostPortLinkChange up) s (mixUpdate { s with mixd := putBits s.mixd 44 44 (if up then 1 else 0) }) :=
  congrArg Host.Outcome.next (if_neg h)

theorem getLsbD_hostPort (s : State) (up : Bool) :
    (mixUpdate { s with mixd := putBits s.mixd 44 44 (if up then 1 else 0) }).mixd.getLsbD 44 = up := by
  rw [(mixUpdate_rest _).2.1, getLsbD_putBits _ _ (Nat.le_refl _) (by decide), if_pos ⟨Nat.le_refl _, Nat.le_refl _⟩]
  cases up <;> rfl

theorem hostTransport : Rules.HostTransport := by
  intro s
  refine ⟨fun m w0 w1 hb hr hf hm hlo hhi hn h0 h1 hc hmeet => ?_, fun m c l => ack_received l,
    fun n c => ackTimer_acknowledges, fun n seq c x => messageResend_sends,
    fun n seq st v hn => ?_, fun n q w0 w1 hq => ?_, fun f hb hg ho => ?_, fun up hup => ?_⟩
  · obtain ⟨c, hconn⟩ := helloHost_connects (gen := m.gen.toNat) (seq := m.seq.toNat) h0 h1 hc hmeet
    exact ⟨_, c, hello_connects hb hr hf hm hlo hhi hn, hconn⟩
  · exact congrArg Host.Outcome.next (if_neg (ne_true_of_eq_false hn))
  · simp only [Runs, exec_event, execEvent, hq]
  · exact ⟨_, claexFrame_ofOthers hb hg ho, dropCount_rest s 0⟩
  · exact ⟨_, hostPort_changes hup, getLsbD_hostPort s up, mixUpdate_gen _⟩

/-! ## Consumption (R420) -/

/-- The command of a ring that can be read, its words given. -/
def ringCommand (n : Nat) (w : List Word) : Cmd :=
  { queue := n, w0 := w.getD 0 0, w1 := w.getD 1 0, w2 := w.getD 2 0, w3 := w.getD 3 0, w4 := w.getD 4 0, w5 := w.getD 5 0,
    w6 := w.getD 6 0, w7 := w.getD 7 0 }

section
variable {s : State} {n : Nat} {q : HQueue} (hq : queueAt s n = some q) (hd : consumeDue q = true)
include hq hd

theorem commandConsume_error (hr : hostRange s q.ctx (byteAfter s q.ctx q.ring (64 * (q.cons.toNat % 2 ^ q.lg))) 64 ≠ 0) :
    Runs (.commandConsume n) s (setQueue s n { q with err := true, errc := 2 }) := by
  simp only [Runs, exec_commandConsume, execCommandConsume, hq, hd, Bool.not_true, Bool.false_eq_true, if_false, if_pos hr]

theorem commandConsume_takes {a : Word} (ha : a = byteAfter s q.ctx q.ring (64 * (q.cons.toNat % 2 ^ q.lg)))
    (hr : hostRange s q.ctx a 64 = 0) :
    let u := setQueue (hostCount s q.ctx a 64) n { q with cons := q.cons + 1 }
    let c := ringCommand n (wordsOf 8 (hostRead s q.ctx a 64))
    Runs (.commandConsume n) s (if knownOpc c.opc then { u with cmds := u.cmds ++ [c] } else answer u c stBadCmd 0) := by
  subst ha
  simp only [Runs, exec_commandConsume, execCommandConsume, hq, hd, Bool.not_true, Bool.false_eq_true, if_false, hr, ne_eq,
    not_true_eq_false]
  rfl

end

theorem commandsConsumed : Rules.CommandsConsumed := by
  intro s n q hq hd a w c u
  refine ⟨fun hr hk => ?_, fun hr hk => ?_, commandConsume_error hq hd⟩
  · exact (commandConsume_takes hq hd rfl hr).trans (congrArg _ (if_pos hk))
  · exact (commandConsume_takes hq hd rfl hr).trans (congrArg _ (if_neg (ne_true_of_eq_false hk)))

end Sys2Proof.Machine

open Sys2Proof Sys2Proof.Machine

/-- Settles O43: requests in order, transport by the kind of message or timer, and consumption by what the ring holds. -/
theorem hostMessagesAnswered : Obligations.HostMessagesAnswered := ⟨hostRequests, hostTransport, commandsConsumed⟩

end

