-- ==== Sys2Proof/Proofs/Migrations.lean ====
section
/-! SUPPORT. The switchover of a migration whose tile's context has no table space (R436, R444). -/

namespace Sys2Proof.Machine

theorem sendPkg_pregs (s : State) (pkg typ : Nat) (data : List Word) (bytes : List Byte) :
    (sendPkg s pkg typ data bytes).pregs = s.pregs := by
  unfold sendPkg
  split
  · rfl
  · unfold sendOn
    dsimp only
    split <;> rfl

theorem tagBank_pregs (s : State) (f : Word) (o : Option (Nat × Nat × Nat)) : (tagBank s f o).pregs = s.pregs := by
  unfold tagBank
  split
  · rfl
  · split <;> rfl

/-- The switchover of a tile whose sectors are all copied: its entry, the forwarding entry, and the peers that are told (R444, R470). -/
def switched (s : State) (m : Migr) : State :=
  let e := entryOf s m.ctx m.tens m.tile
  let old := mkEntry 0 0 (bits e 20 18) (bits e 23 21) (bits e 43 24) 0
  let pk := if (exported s m.ctx m.tens).isSome then linkedPkgs s else []
  pk.foldl (fun s p => sendPkg s p 101 [old] [])
    (setEntry { tagBank s e none with migs := [], fwds := s.fwds ++ [{ old := old, new := m.dest, pend := pk }] }
      m.ctx m.tens m.tile (entPlace e 1 m.dest))

theorem switchover_copied {s : State} {m : Migr} (hm : s.migs = [m]) (hp : 4 ≤ m.pass)
    (hdone : ∀ j < 2048, sget false m.done j = true) : Runs (.switchover 0) s (switched s m) := by
  have hget : s.migs[0]? = some m := by rw [hm]; rfl
  have hleft : (List.range 2048).filter (fun k => !sget false m.done k) = [] :=
    List.filter_eq_nil_iff.mpr fun k hk => by simp [hdone k (List.mem_range.mp hk)]
  have herase : s.migs.eraseIdx 0 = [] := by rw [hm]; rfl
  simp only [Runs, exec_switchover, execSwitchover, hget, hleft, herase, if_neg (Nat.not_lt.mpr hp), List.any_nil, List.foldl_nil,
    Bool.false_eq_true, if_false, switched]

theorem switched_pregs (s : State) (m : Migr) : (switched s m).pregs = s.pregs := by
  unfold switched
  refine foldl_keeps (P := fun t : State => t.pregs = s.pregs) (fun _ _ h => (sendPkg_pregs ..).trans h) _ _ ?_
  exact ((setEntry_homeFrame ..).get State.pregs rfl).trans (tagBank_pregs ..)

/-- A tile of a context without a table space has no entry, before and after. -/
theorem entryOf_switched_noTable {s : State} {m : Migr} (hts : tsOf s m.ctx = 0) :
    entryOf (switched s m) m.ctx m.tens m.tile = 0 := by
  have hpreg : preg (switched s m) 0x20 (0x403 + 4 * m.ctx) = preg s 0x20 (0x403 + 4 * m.ctx) := by
    rw [preg, switched_pregs, preg]
  have hts' : tsOf (switched s m) m.ctx = 0 := by rw [tsOf, hpreg, ← tsOf, hts]
  exact if_pos hts'

theorem sget_map_true (l : List Nat) {j : Nat} (h : j ∈ l) : sget false (l.map fun k => (k, true)) j = true := by
  induction l with
  | nil => cases h
  | cons k l ih =>
    rw [List.map_cons, sget]
    split
    · rfl
    · next hk => exact ih ((List.mem_cons.mp h).resolve_left (Ne.symm hk))

/-- A migration past its four passes, with every sector copied. -/
def copiedMigration : Migr :=
  { ctx := 0, tens := 1, tile := 0, dest := 0, done := (List.range 2048).map fun k => (k, true), pass := 4, next := 0 }

theorem copiedMigration_done {j : Nat} (hj : j < 2048) : sget false copiedMigration.done j = true := by
  have hmem : j ∈ List.range 2048 := List.mem_range.mpr hj
  unfold copiedMigration
  generalize List.range 2048 = l at hmem ⊢
  exact sget_map_true l hmem

/-- A state in which the tile's context has no table space any more: its CTBL names none (R436). -/
def tableGone : State := { State.reset with migs := [copiedMigration] }

end Sys2Proof.Machine

open Sys2Proof Sys2Proof.Machine

/-- Refutes O46: the last clause of its migrations asks for an entry in the new frame whatever the context of the tile is. Where the
context's CTBL has come to name no table space while the copy ran, as in `tableGone`, the tile has no entry, and the switchover makes
none (R436, log 92). -/
theorem not_tileTableOperations : ¬ Obligations.TileTableOperations := by
  rintro ⟨_, _, hmigr⟩
  obtain ⟨_, _, _, hswitch⟩ := hmigr tableGone copiedMigration rfl
  have hdone : ∀ j < 2048, sget false copiedMigration.done j = true := fun _ => copiedMigration_done
  obtain ⟨t, ht, -, hentry, -⟩ := hswitch (Nat.le_refl 4) hdone
  have heq : switched tableGone copiedMigration = t :=
    Host.Outcome.next.inj ((switchover_copied rfl (Nat.le_refl 4) hdone).symm.trans ht)
  rw [← heq, entryOf_switched_noTable (by decide)] at hentry
  revert hentry
  decide

end

