-- ==== Sys2Proof/Proofs/Lighthouse.lean ====
section
/-! SUPPORT. What the lighthouse core answers (R448, R451, R452, R454, R455, R459 to R461). -/

namespace Sys2Proof.Machine

/-! ## A request and its capability (R448) -/

section
variable {s : State} {r : LhReq} {cap : Nat} (req : Nat) (f : State → Nat × State)

theorem lhServe_denied (h : (coreAt s r.core).caps.getLsbD cap = false) : lhServe s r req cap f = lhAnswer s r req 1 0 :=
  if_neg (ne_true_of_eq_false h)

theorem lhServe_granted (h : (coreAt s r.core).caps.getLsbD cap = true) :
    lhServe s r req cap f = lhAnswer (f s).2 r req (f s).1 0 :=
  if_pos h

/-- A request whose function's answer is known. -/
theorem lhServe_eq {st : Nat} {t : State} (h : (coreAt s r.core).caps.getLsbD cap = true) (hf : f s = (st, t)) :
    lhServe s r req cap f = lhAnswer t r req st 0 := by
  rw [lhServe_granted req f h, hf]

end

/-- A site code below 20 is assigned, and names a site or a stratum of one. -/
theorem siteOk_of_lt {site : Nat} (h : site < 20) : siteOk site = true := by simp [siteOk, h]

theorem named_of_lt {site : Nat} (h : site < 20) : ¬((!siteOk site) = true ∨ site = 0xFF) := by
  rw [siteOk_of_lt h]
  rintro (hno | hwhole)
  · cases hno
  · omega

/-! ## The failed-site list (R454) -/

/-- What saving the marks of u, in one update of the mix (R25), leaves: the list in the boot store, and of the mix the rest. -/
structure MarksSaved (u t : State) : Prop where
  failed  : t.failed = u.failed
  failedS : t.failedS = u.failedS
  flist   : t.flist = markBytes u.failed u.failedS
  gen     : bits t.mixa 63 60 = (bits u.mixa 63 60 + 1) % 16
  mixa    : ∀ {hi lo : Nat}, hi < 60 → bits t.mixa hi lo = bits u.mixa hi lo
  mixb    : t.mixb = u.mixb
  mixc    : t.mixc = u.mixc
  modules : t.modules = u.modules

/-- An update of the mix changes MIXA alone. -/
theorem mixUpdate_field {α : Type} (g : State → α) (hg : ∀ (s : State) (w : Word), g { s with mixa := w } = g s) (s : State) :
    g (mixUpdate s) = g s :=
  hg s _

/-- Saving the marks changes the list and its code alone. -/
theorem saveMarks_field {α : Type} (g : State → α) (hg : ∀ (s : State) l c, g { s with flist := l, ftag := c } = g s) (s : State) :
    g (saveMarks s) = g s :=
  hg s _ _

theorem saveMarks_flist (s : State) : (saveMarks s).flist = markBytes s.failed s.failedS := rfl

/-- What neither the marks' bytes nor MIXA is a part of. -/
theorem marks_field {α : Type} (g : State → α) (hm : ∀ (s : State) (w : Word), g { s with mixa := w } = g s)
    (hl : ∀ (s : State) l c, g { s with flist := l, ftag := c } = g s) (s : State) : g (saveMarks (mixUpdate s)) = g s :=
  (saveMarks_field g hl _).trans (mixUpdate_field g hm s)

theorem mixUpdate_mixa (s : State) {hi lo : Nat} (h : hi < 60) : bits (mixUpdate s).mixa hi lo = bits s.mixa hi lo :=
  bits_putBits_other _ _ (by decide) (by decide) (.inl h)

theorem marksSaved_saveMarks (u : State) : MarksSaved u (saveMarks (mixUpdate u)) where
  failed := marks_field State.failed (fun _ _ => rfl) (fun _ _ _ => rfl) u
  failedS := marks_field State.failedS (fun _ _ => rfl) (fun _ _ _ => rfl) u
  flist := (saveMarks_flist _).trans (mixUpdate_field (fun s => markBytes s.failed s.failedS) (fun _ _ => rfl) u)
  gen := (congrArg (bits · 63 60) (saveMarks_field State.mixa (fun _ _ _ => rfl) _)).trans (mixUpdate_gen u)
  mixa := fun h => (congrArg (bits · _ _) (saveMarks_field State.mixa (fun _ _ _ => rfl) _)).trans (mixUpdate_mixa u h)
  mixb := marks_field State.mixb (fun _ _ => rfl) (fun _ _ _ => rfl) u
  mixc := marks_field State.mixc (fun _ _ => rfl) (fun _ _ _ => rfl) u
  modules := marks_field State.modules (fun _ _ => rfl) (fun _ _ _ => rfl) u

/-- Whether low-water service goes on concerns neither the marks nor the mix (R456). -/
theorem MarksSaved.lowWater {u t : State} (h : MarksSaved u t) : MarksSaved u (lowWater t) :=
  ⟨h.failed, h.failedS, h.flist, h.gen, h.mixa, h.mixb, h.mixc, h.modules⟩

theorem clearSite_failedS (s : State) (site : Nat) : (clearSite s site).failedS = s.failedS := by
  unfold clearSite
  split
  · rfl
  · split
    · refine foldl_keeps (P := fun t : State => t.failedS = s.failedS) (fun _ _ h => ?_) _ _ rfl
      exact h
    · rfl

/-- The cells of a stratum are cells, and nothing else is cleared with them (R30). -/
theorem clearStratum_field {α : Type} (g : State → α) (hg : ∀ (s : State) c, g { s with cells := c } = g s) (s : State) (i : Nat) :
    g (clearStratum s i) = g s :=
  foldl_keeps (P := fun t : State => g t = g s) (fun _ _ h => (hg _ _).trans h) _ _ rfl

/-! ## A site that is good again (R454) -/

theorem trn_untrain (s : State) (site : Nat) {m : Nat} (hm : m < moduleCount site) : (moduleAt (untrain s site) site m).trn = false := by
  refine foldl_reaches (P := fun l : SMap Module => (sget {} l (site * 64 + m)).trn = false) (List.mem_range.mpr hm) (fun l => ?_)
    (fun l n _ h => ?_) s.modules
  · rw [sget_sset_same]
  · rw [sget_sset]
    split
    · rfl
    · exact h

/-- The mix shows a site GOOD = 1 and TRN = 0, and of a switch die FITTED = 1 and SWTRN = 0. -/
def goodMix (s : State) (site : Nat) : State :=
  if site < 12 then { s with mixa := putBits s.mixa (5 * site + 4) (5 * site + 3) 1 }
  else if site < 20 then { s with mixb := putBits s.mixb (8 * (site - 12) + 2) (8 * (site - 12) + 1) 1 }
  else { s with mixd := putBits (putBits s.mixd (site - 0x20 + 20) (site - 0x20 + 20) 1) (site - 0x20 + 24) (site - 0x20 + 24) 0 }

/-- What shows in neither word of the mix is as before. -/
theorem goodMix_field {α : Type} (g : State → α) (ha : ∀ (s : State) w, g { s with mixa := w } = g s)
    (hb : ∀ (s : State) w, g { s with mixb := w } = g s) (hd : ∀ (s : State) w, g { s with mixd := w } = g s) (s : State) (site : Nat) :
    g (goodMix s site) = g s := by
  unfold goodMix
  split
  · exact ha s _
  · split
    · exact hb s _
    · exact hd s _

theorem goodMix_gen (s : State) (site : Nat) : bits (goodMix s site).mixa 63 60 = bits s.mixa 63 60 := by
  unfold goodMix
  split
  · exact bits_putBits_other _ _ (by omega) (by omega) (.inr (by omega))
  · split <;> rfl

theorem goodMix_a (s : State) {site : Nat} (h : site < 12) : bits (goodMix s site).mixa (5 * site + 4) (5 * site + 3) = 1 := by
  rw [goodMix, if_pos h]
  exact (bits_putBits_same _ _ (by omega) (by omega)).trans (by rw [show 5 * site + 4 + 1 - (5 * site + 3) = 2 by omega]; rfl)

theorem goodMix_b (s : State) {site : Nat} (h : 12 ≤ site) (hlt : site < 20) :
    bits (goodMix s site).mixb (8 * (site - 12) + 2) (8 * (site - 12) + 1) = 1 := by
  rw [goodMix, if_neg (by omega), if_pos hlt]
  exact (bits_putBits_same _ _ (by omega) (by omega)).trans
    (by rw [show 8 * (site - 12) + 2 + 1 - (8 * (site - 12) + 1) = 2 by omega]; rfl)

/-! ## MARKFAIL and CLEARFAIL of a site (R454) -/

section
variable {s : State} {r : LhReq} {site : Nat} (hcap : (coreAt s r.core).caps.getLsbD 1 = true) (hs : argBits r 7 0 = site)
  (hlt : site < 20) (h8 : argBits r 8 8 = 0)
include hcap hs hlt h8

/-- MARKFAIL of a site that nothing keeps. -/
theorem markfail_free (hb : boundTo s site none = false ∨ lnkOk s site = false)
    (hm : site < 12 ∨ mapCount s (site - 12) = 0 ∨ lnkOk s site = false) (hf : s.failed.contains site = false) :
    ∃ u, Runs (.markfail r) s (lhAnswer u r 1 0 0) ∧ u.failed = s.failed ++ [site] ∧ u.flist = markBytes (s.failed ++ [site]) s.failedS := by
  have hst : decide (argBits r 8 8 = 1) = false := by simp [h8]
  have hbad := named_of_lt hlt
  have hbusy : ¬(boundTo s site none && lnkOk s site) = true := by rcases hb with h | h <;> simp [h]
  have hmapped : ¬(decide (12 ≤ site ∧ site < 20) && decide (mapCount s (site - 12) ≠ 0) && lnkOk s site) = true := by
    rcases hm with h | h | h
    · simp [Nat.not_le.mpr h]
    · simp [h]
    · simp [h]
  let v := clearSite { s with failed := s.failed ++ [site] } site
  have hsaved : MarksSaved v (lowWater (saveMarks (mixUpdate v))) := (marksSaved_saveMarks v).lowWater
  have hfailed : v.failed = s.failed ++ [site] := (clearSite_bootFrame _ site).get State.failed rfl
  have hstrata : v.failedS = s.failedS := clearSite_failedS _ site
  refine ⟨_, congrArg Host.Outcome.next (lhServe_eq 1 _ hcap (t := lowWater (saveMarks (mixUpdate v))) ?_), hsaved.failed.trans hfailed,
    hsaved.flist.trans (by rw [hfailed, hstrata])⟩
  simp only [hs, hst, hf, Bool.false_eq_true, false_and, or_false, if_false, Bool.not_false, Bool.true_and, if_neg hbad, if_neg hbusy,
    if_neg hmapped, v]

/-- CLEARFAIL of a site: of one without a mark nothing changes. -/
theorem clearfail_site : Runs (.clearfail r) s (if s.failed.contains site then
      lhAnswer (lowWater (saveMarks (mixUpdate (goodMix (untrain { s with failed := s.failed.filter (· ≠ site) } site) site)))) r 2 0 0
    else lhAnswer s r 2 0 0) := by
  have hst : decide (argBits r 8 8 = 1) = false := by simp [h8]
  have hbad := named_of_lt hlt
  refine congrArg Host.Outcome.next ((lhServe_granted 2 _ hcap).trans ?_)
  simp only [hs, hst, Bool.false_eq_true, false_and, or_false, if_false, if_neg hbad]
  cases s.failed.contains site <;> rfl

theorem clearfail_unmarked (hf : s.failed.contains site = false) : Runs (.clearfail r) s (lhAnswer s r 2 0 0) := by
  have hrun := clearfail_site hcap hs hlt h8
  rwa [if_neg (ne_true_of_eq_false hf)] at hrun

/-- CLEARFAIL of a site that is marked. -/
theorem clearfail_marked (hf : s.failed.contains site = true) :
    ∃ u, Runs (.clearfail r) s (lhAnswer u r 2 0 0) ∧ u.failed = s.failed.filter (· ≠ site)
      ∧ u.flist = markBytes u.failed s.failedS ∧ bits u.mixa 63 60 = (bits s.mixa 63 60 + 1) % 16
      ∧ (site < 12 → bits u.mixa (5 * site + 4) (5 * site + 3) = 1)
      ∧ (12 ≤ site → bits u.mixb (8 * (site - 12) + 2) (8 * (site - 12) + 1) = 1)
      ∧ ∀ m < moduleCount site, (moduleAt u site m).trn = false := by
  let t := untrain { s with failed := s.failed.filter (· ≠ site) } site
  have hsaved : MarksSaved (goodMix t site) (lowWater (saveMarks (mixUpdate (goodMix t site)))) := (marksSaved_saveMarks _).lowWater
  have hfailed : (goodMix t site).failed = s.failed.filter (· ≠ site) :=
    goodMix_field State.failed (fun _ _ => rfl) (fun _ _ => rfl) (fun _ _ => rfl) t site
  have hstrata : (goodMix t site).failedS = s.failedS :=
    goodMix_field State.failedS (fun _ _ => rfl) (fun _ _ => rfl) (fun _ _ => rfl) t site
  have hmodules : (goodMix t site).modules = t.modules :=
    goodMix_field State.modules (fun _ _ => rfl) (fun _ _ => rfl) (fun _ _ => rfl) t site
  have hrun := clearfail_site hcap hs hlt h8
  rw [if_pos hf] at hrun
  refine ⟨_, hrun, hsaved.failed.trans hfailed, ?flist, ?gen, fun h => ?a, fun h => ?b, fun m hm => ?trn⟩
  case flist => rw [hsaved.flist, hsaved.failed, hstrata]
  case gen => rw [hsaved.gen, goodMix_gen]; rfl
  case a => exact (hsaved.mixa (by omega)).trans (goodMix_a t h)
  case b => exact (congrArg (bits · _ _) hsaved.mixb).trans (goodMix_b t h hlt)
  case trn =>
    rw [moduleAt, hsaved.modules, hmodules]
    exact trn_untrain _ site hm

end

/-! ## CLEARFAIL of a stratum (R454) -/

/-- A stratum of a base that is good shows memory-only with empty cells; of another base it goes on showing 0b11. -/
def memoryAgain (s : State) (site i : Nat) : State :=
  if s.mixb.getLsbD (8 * (site - 12) + 1) then clearStratum { s with mixc := putBits s.mixc (2 * i + 1) (2 * i) 0 } i else s

theorem memoryAgain_field {α : Type} (g : State → α) (hc : ∀ (s : State) c, g { s with cells := c } = g s)
    (hm : ∀ (s : State) w, g { s with mixc := w } = g s) (s : State) (site i : Nat) : g (memoryAgain s site i) = g s := by
  unfold memoryAgain
  split
  · exact (clearStratum_field g hc _ i).trans (hm s _)
  · rfl

theorem roleOf_memoryAgain (s : State) (site : Nat) {i : Nat} (h : i < 32) :
    roleOf (memoryAgain s site i) i = if s.mixb.getLsbD (8 * (site - 12) + 1) then 0 else roleOf s i := by
  unfold memoryAgain
  split
  · exact (clearStratum_field (roleOf · i) (fun _ _ => rfl) _ i).trans
      ((bits_putBits_same _ _ (by omega) (by omega)).trans (Nat.zero_mod _))
  · rfl

theorem clearfail_stratum {s : State} {r : LhReq} {site i : Nat} (hcap : (coreAt s r.core).caps.getLsbD 1 = true)
    (hs : argBits r 7 0 = site) (h12 : 12 ≤ site) (hlt : site < 20) (h8 : argBits r 8 8 = 1)
    (hi : i = 4 * (site - 12) + argBits r 10 9) (hf : s.failedS.contains i = true) :
    ∃ u, Runs (.clearfail r) s (lhAnswer u r 2 0 0) ∧ u.failedS = s.failedS.filter (· ≠ i)
      ∧ u.flist = markBytes s.failed u.failedS ∧ bits u.mixa 63 60 = (bits s.mixa 63 60 + 1) % 16
      ∧ roleOf u i = (if s.mixb.getLsbD (8 * (site - 12) + 1) then 0 else roleOf s i) := by
  have h32 : i < 32 := by
    have hk : argBits r 10 9 < 2 ^ (10 + 1 - 9) := bits_lt ..
    omega
  have hbad : ¬((!siteOk site) = true ∨ site = 0xFF ∨ (site < 12 ∨ 20 ≤ site)) := fun h =>
    (or_assoc.mpr h).elim (named_of_lt hlt) (by omega)
  let t : State := { s with failedS := s.failedS.filter (· ≠ i) }
  have hsaved := marksSaved_saveMarks (memoryAgain t site i)
  have hstrata : (memoryAgain t site i).failedS = t.failedS := memoryAgain_field State.failedS (fun _ _ => rfl) (fun _ _ => rfl) t site i
  have hsites : (memoryAgain t site i).failed = t.failed := memoryAgain_field State.failed (fun _ _ => rfl) (fun _ _ => rfl) t site i
  have hmix : (memoryAgain t site i).mixa = t.mixa := memoryAgain_field State.mixa (fun _ _ => rfl) (fun _ _ => rfl) t site i
  refine ⟨_, congrArg Host.Outcome.next (lhServe_eq 2 _ hcap (t := saveMarks (mixUpdate (memoryAgain t site i))) ?run),
    hsaved.failedS.trans hstrata, ?flist, ?gen, ?role⟩
  case run =>
    simp only [hs, h8, ← hi, hf, decide_true, true_and, if_neg hbad, Bool.not_true, Bool.false_eq_true, if_false, if_true]
    rfl
  case flist => rw [hsaved.flist, hsaved.failedS, hsites]
  case gen => rw [hsaved.gen, hmix]
  case role =>
    rw [roleOf, hsaved.mixc]
    exact roleOf_memoryAgain t site h32

/-! ## RETRAIN, SETBOOT and QUOTE (R451, R452, R455) -/

theorem retrain_denied {s : State} {r : LhReq} (h : (coreAt s r.core).caps.getLsbD 1 = false) :
    Runs (.retrain r) s (lhAnswer s r 6 1 0) :=
  congrArg Host.Outcome.next (if_pos (by rw [h]; rfl))

theorem retrain_begins {s : State} {r : LhReq} {site : Nat} (hcap : (coreAt s r.core).caps.getLsbD 1 = true)
    (hs : argBits r 7 0 = site) (hlt : site < 20) (hf : s.failed.contains site = false) (hb : boundTo s site none = false)
    (hn : s.retrain = none) : Runs (.retrain r) s { s with retrain := some (r, 0) } := by
  have hbad : ¬((!siteOk site) = true ∨ site = 0xFF ∨ s.failed.contains site = true) := fun h =>
    (or_assoc.mpr h).elim (named_of_lt hlt) (ne_true_of_eq_false hf)
  have hbusy : ¬(boundTo s site none = true ∨ s.retrain.isSome = true) := by simp [hb, hn]
  refine congrArg Host.Outcome.next ?_
  simp only [hs, hcap, Bool.not_true, Bool.false_eq_true, if_false, if_neg hbad, if_neg hbusy]

/-- SETBOOT that does not take effect at once prefers a slot whose image verifies. -/
theorem setboot_later {s : State} {r : LhReq} {kind slot : Nat} (hcap : (coreAt s r.core).caps.getLsbD 1 = true)
    (hk : argBits r 1 0 = kind) (hsl : argBits r 2 2 = slot) (hnow : argBits r 3 3 = 0) (h0 : kind ≠ 0)
    (hv : verifies (slotBytes s (bootSlot kind slot)) kind = true) :
    ∃ u, Runs (.setboot r) s (lhAnswer u r 7 0 0) ∧ u.pref = sset s.pref kind slot ∧ u.regions = s.regions := by
  have hbad : ¬(kind = 0 ∨ (kind = 1 ∧ decide (argBits r 3 3 = 1) = true)) := by simp [h0, hnow]
  refine ⟨{ s with pref := sset s.pref kind slot, fresh := s.fresh || (decide (sget 0 s.pref kind % 2 ≠ slot) && decide (kind = 2)) },
    congrArg Host.Outcome.next (lhServe_eq 7 _ hcap ?_), rfl, rfl⟩
  have hlater : (!decide (argBits r 3 3 = 1)) = true := by simp [hnow]
  simp only [hk, hsl, if_neg hbad, hv, Bool.not_true, Bool.false_eq_true, if_false, if_pos hlater]

theorem quote_answers {s : State} {r : LhReq} (hcap : (coreAt s r.core).caps.getLsbD 1 = true) :
    ∃ u, Runs (.quote r) s (lhAnswer u r 8 0 0) ∧ u.meas = s.meas :=
  ⟨_, congrArg Host.Outcome.next (lhServe_granted 8 _ hcap), rfl⟩

/-! ## GRANT, HBEAT and MARGIN (R459 to R461) -/

/-- A level whose clock differs takes effect with the relock pause (R218). -/
theorem setLevel_relocks {s : State} {n : Nat} (hv : varOf s n ≠ s.clk) : (setLevel s n).grant = BitVec.ofNat 3 n
    ∧ (setLevel s n).clk = varOf s n ∧ (setLevel s n).pauseT = some (s.tick + 400) ∧ (setLevel s n).armed = s.armed := by
  rw [setLevel, if_neg hv]
  exact ⟨rfl, rfl, rfl, rfl⟩

theorem levelNow_timed {s : State} (h : anyTimed s = true) : levelNow s = s := if_neg (by simp [h])

theorem levelNow_idle {s : State} (h : anyTimed s = false) (hf : s.force = false) (ha : s.armed ≠ s.grant) :
    levelNow s = setLevel s s.armed.toNat :=
  if_pos (by simp [h, hf, ha])

section
variable {s : State} {r : LhReq} {n : Nat} (hcap : (coreAt s r.core).caps.getLsbD 0 = true) (hn : argBits r 2 0 = n)

/-- Whether a grant of level n asks for more than low-water service, the sensors or the compute strata allow (R459). -/
def LevelLimited (s : State) (n : Nat) : Prop :=
  ((s.loww = true ∨ s.capn = true) ∧ varOf s n ≠ 2) ∨ ∃ m < 8, roleLimit (varOf s n) < computeCount s m

include hcap

theorem grant_frozen (h : s.frozenP = true) : Runs (.grant r) s (lhAnswer s r 3 4 0) :=
  congrArg Host.Outcome.next (lhServe_eq 3 _ hcap (if_pos h))

include hn

theorem grant_limited (h : s.frozenP = false) (hl : LevelLimited s n) : Runs (.grant r) s (lhAnswer s r 3 3 0) := by
  refine congrArg Host.Outcome.next (lhServe_eq 3 _ hcap ?_)
  simp only [h, hn, Bool.false_eq_true, if_false]
  rcases hl with ⟨hmode, hv⟩ | ⟨m, hm, hlt⟩
  · exact if_pos (by simpa [hv] using hmode)
  · split
    · rfl
    · exact if_pos (List.any_eq_true.mpr ⟨m, List.mem_range.mpr hm, decide_eq_true hlt⟩)

/-- A grant that nothing limits: with the clock as it stays the rails move at once, otherwise the level is armed. -/
theorem grant_allowed (h : s.frozenP = false) (hl : ¬LevelLimited s n) : Runs (.grant r) s (lhAnswer
    (if varOf s n = s.clk then { setLevel s n with armed := BitVec.ofNat 3 n } else levelNow { s with armed := BitVec.ofNat 3 n })
    r 3 0 0) := by
  have hmode : ¬((s.loww || s.capn) && decide (varOf s n ≠ 2)) = true := fun e => hl (.inl (by simpa using e))
  have hroom : ¬((List.range 8).any fun m => decide (roleLimit (varOf s n) < computeCount s m)) = true := fun e =>
    have ⟨m, hm, hlt⟩ := List.any_eq_true.mp e
    hl (.inr ⟨m, List.mem_range.mp hm, of_decide_eq_true hlt⟩)
  refine congrArg Host.Outcome.next ((lhServe_granted 3 _ hcap).trans ?_)
  simp only [h, hn, Bool.false_eq_true, if_false, if_neg hmode, if_neg hroom]
  split <;> rfl

theorem grant_rails (h : s.frozenP = false) (hl : ¬LevelLimited s n) (hv : varOf s n = s.clk) : Runs (.grant r) s
    (lhAnswer { s with grant := BitVec.ofNat 3 n, armed := BitVec.ofNat 3 n, railsT := railsOf s n, rails := railsOf s n } r 3 0 0) := by
  have hrun := grant_allowed hcap hn h hl
  rw [if_pos hv, setLevel, if_pos hv] at hrun
  exact hrun

theorem grant_armed (h : s.frozenP = false) (hl : ¬LevelLimited s n) (hv : varOf s n ≠ s.clk) (ht : anyTimed s = true) :
    Runs (.grant r) s (lhAnswer { s with armed := BitVec.ofNat 3 n } r 3 0 0) := by
  have hrun := grant_allowed hcap hn h hl
  rw [if_neg hv, levelNow_timed (s := { s with armed := BitVec.ofNat 3 n }) ht] at hrun
  exact hrun

theorem grant_relocks (h : s.frozenP = false) (hl : ¬LevelLimited s n) (hv : varOf s n ≠ s.clk) (ht : anyTimed s = false)
    (hf : s.force = false) (hg : s.grant ≠ BitVec.ofNat 3 n) :
    ∃ u, Runs (.grant r) s (lhAnswer u r 3 0 0) ∧ u.grant = BitVec.ofNat 3 n ∧ u.armed = u.grant ∧ u.clk = varOf s n
      ∧ u.pauseT = some (s.tick + 400) := by
  have hrun := grant_allowed hcap hn h hl
  have hlt : n < 2 ^ (2 + 1 - 0) := hn ▸ bits_lt ..
  have harm : (BitVec.ofNat 3 n).toNat = n := Nat.mod_eq_of_lt hlt
  rw [if_neg hv, levelNow_idle (s := { s with armed := BitVec.ofNat 3 n }) ht hf hg.symm] at hrun
  dsimp only at hrun
  rw [harm] at hrun
  obtain ⟨hgrant, hclk, hpause, harmed⟩ := setLevel_relocks (s := { s with armed := BitVec.ofNat 3 n }) hv
  exact ⟨_, hrun, hgrant, harmed.trans hgrant.symm, hclk, hpause⟩

end

theorem hbeat_restarts {s : State} {r : LhReq} (hcap : (coreAt s r.core).caps.getLsbD 0 = true) :
    Runs (.hbeat r) s (lhAnswer { s with frozenP := false, hbT := some s.tick } r 4 0 0) :=
  congrArg Host.Outcome.next (lhServe_granted 4 _ hcap)

/-- MARGIN within its range and, in every level, within the fused limits. -/
theorem margin_fits {s : State} {r : LhReq} {rail : Nat} {mv : Int} (hcap : (coreAt s r.core).caps.getLsbD 0 = true)
    (hr : argBits r 1 0 = rail) (hm : sintNat 8 (argBits r 9 2) = mv) (hlo : -25 ≤ mv) (hhi : mv ≤ 50)
    (hfit : ∀ w ∈ s.lvls, (Config.fusedLow rail : Int) ≤ (lvlRail w rail : Int) + mv
      ∧ (lvlRail w rail : Int) + mv ≤ (Config.fusedHigh rail : Int)) :
    Runs (.margin r) s (lhAnswer { s with mrg := s.mrg.set rail mv } r 5 0 0) := by
  refine congrArg Host.Outcome.next (lhServe_eq 5 _ hcap ?_)
  have hall : (s.lvls.all fun w => decide ((Config.fusedLow rail : Int) ≤ (lvlRail w rail : Int) + mv
      ∧ (lvlRail w rail : Int) + mv ≤ (Config.fusedHigh rail : Int))) = true :=
    List.all_eq_true.mpr fun w hw => decide_eq_true (hfit w hw)
  simp only [hr, hm, hall]
  exact if_neg (by simp [Int.not_lt.mpr hlo, Int.not_lt.mpr hhi])

end Sys2Proof.Machine

open Sys2Proof Sys2Proof.Machine

/-- Settles O48: a request is served by its function when the sender has the capability, and each function's answer is known once
its checks are passed; marks and mix are saved by one lemma, what a level leaves by another. -/
theorem lighthouseAnswers : Obligations.LighthouseAnswers := by
  unfold Obligations.LighthouseAnswers
  intro s r site
  refine ⟨fun h => ⟨?_, ?_, retrain_denied h, ?_, ?_⟩, fun h => ⟨?_, ?_, ?_⟩, fun hcap => ⟨?free, ?unmarked, ?marked, ?stratum, ?retrain,
    ?setboot, quote_answers hcap⟩, fun hcap => ⟨?grant, hbeat_restarts hcap, ?margin⟩⟩
  iterate 7 exact congrArg Host.Outcome.next (lhServe_denied _ _ h)
  case free => exact fun hlt h8 => markfail_free hcap rfl hlt h8
  case unmarked => exact fun hlt h8 => clearfail_unmarked hcap rfl hlt h8
  case marked => exact fun hlt h8 => clearfail_marked hcap rfl hlt h8
  case stratum => exact fun h12 hlt h8 i => clearfail_stratum hcap rfl h12 hlt h8
  case retrain => exact fun hlt => retrain_begins hcap rfl hlt
  case setboot => exact fun kind slot hk hs hnow => setboot_later hcap hk hs hnow
  case grant =>
    exact ⟨grant_frozen hcap, grant_limited hcap rfl, grant_rails hcap rfl, grant_armed hcap rfl, grant_relocks hcap rfl⟩
  case margin => exact fun ⟨hlo, hhi, hfit⟩ => margin_fits hcap rfl rfl hlo hhi hfit
end

