-- ==== Sys2Proof/Proofs/Peers.lean ====
section
/-! SUPPORT. Pins, requests and invalidations of other packages, and what homes answer (R441, R468 to R470, R472). -/

namespace Sys2Proof.Machine

/-! ## Pins that another package asks for (R441, R468) -/

/-- What is sent to a package changes its connection and what goes out. -/
theorem sendPkg_field {α : Type} (g : State → α) (hg : ∀ (s : State) c o, g { s with conns := c, outputs := o } = g s) (s : State)
    (pkg typ : Nat) (data : List Word) (bytes : List Byte) : g (sendPkg s pkg typ data bytes) = g s := by
  unfold sendPkg
  split
  · rfl
  · unfold sendOn
    dsimp only
    split
    · exact hg s _ _
    · exact hg s _ _

section
variable {s : State} {ctx tens first count : Nat} (pkg : Nat)

theorem pinHeld_false (h : ∀ i < count, roleHeld s (entryOf s ctx tens (first + i)) = false) :
    pinHeld s (pkg, ctx, tens, first, count) = false := by
  rw [pinHeld, peerTiles, List.any_map, List.any_eq_false]
  exact fun i hi => ne_true_of_eq_false (h i (List.mem_range.mp hi))

theorem pinHeld_true {i : Nat} (hi : i < count) (h : roleHeld s (entryOf s ctx tens (first + i)) = true) :
    pinHeld s (pkg, ctx, tens, first, count) = true := by
  rw [pinHeld, peerTiles, List.any_map, List.any_eq_true]
  exact ⟨i, List.mem_range.mpr hi, h⟩

end

section
variable {s : State} {pkg ctx tens first count : Nat} {kind : BitVec 2} (hk : kind ≠ 0)
include hk

/-- A request for pins waits, or is answered at once. -/
theorem peerPinRequest_next : Runs (.peerPinRequest pkg ctx tens first count kind) s
    (if pinHeld s (pkg, ctx, tens, first, count) then { s with pinq := s.pinq ++ [((pkg, ctx, tens, first, count), kind)] }
     else pinAnswer s (pkg, ctx, tens, first, count) kind) :=
  congrArg Host.Outcome.next (if_neg hk)

theorem peerPinRequest_waits (h : pinHeld s (pkg, ctx, tens, first, count) = true) :
    Runs (.peerPinRequest pkg ctx tens first count kind) s
      { s with pinq := s.pinq ++ [((pkg, ctx, tens, first, count), kind)] } := by
  have hrun := peerPinRequest_next (s := s) (pkg := pkg) (ctx := ctx) (tens := tens) (first := first) (count := count) hk
  rwa [if_pos h] at hrun

theorem peerPinRequest_answered (h : pinHeld s (pkg, ctx, tens, first, count) = false) :
    Runs (.peerPinRequest pkg ctx tens first count kind) s (pinAnswer s (pkg, ctx, tens, first, count) kind) := by
  have hrun := peerPinRequest_next (s := s) (pkg := pkg) (ctx := ctx) (tens := tens) (first := first) (count := count) hk
  rwa [if_neg (ne_true_of_eq_false h)] at hrun

end

/-! ## Requests of another package (R469) -/

/-- The frame that a request names is the tile's, or one that is forwarded to it. -/
def LiveFrame (s : State) (r : PeerReq) (e : Word) : Prop :=
  entState e ≠ 0 ∧ (frameOf r.frame = frameOf e ∨ ∃ x ∈ s.fwds, frameOf x.old = frameOf r.frame)

theorem liveFrame_iff (s : State) (r : PeerReq) (e : Word) :
    (decide (entState e ≠ 0) && (decide (frameOf r.frame = frameOf e) || s.fwds.any fun f => decide (frameOf f.old = frameOf r.frame)))
      = true ↔ LiveFrame s r e := by
  simp [LiveFrame]

/-- The answer to a request for a tile. -/
def peerReply (r : PeerReq) (s : State) (st : Nat) (bs : List Byte) : State :=
  sendPkg s r.pkg 108 [BitVec.ofNat 64 r.ctx, BitVec.ofNat 64 r.tens, BitVec.ofNat 64 r.tile, BitVec.ofNat 64 st] bs

/-- A package has pinned the tile that its request names. -/
def peerPinned (s : State) (r : PeerReq) : Bool :=
  s.peers.any fun p => decide (p.1 = r.pkg ∧ p.2.1 = r.ctx ∧ p.2.2.1 = r.tens) && (peerTiles p).contains r.tile

section
variable {s : State} {r : PeerReq} (hx : (exported s r.ctx r.tens).isSome = true) (hp : peerPinned s r = true)
include hx hp

theorem peerRequest_entry (ha : asksEntry r = true) :
    Runs (.peerRequest r) s (peerReply r s 0 (toBytes 8 (entryOf s r.ctx r.tens r.tile).toNat)) := by
  have hnone : (exported s r.ctx r.tens).isNone = false := by simpa using hx
  refine congrArg Host.Outcome.next ((if_neg ?_).trans (if_pos ha))
  exact ne_true_of_eq_false (by rw [hnone]; exact congrArg (!·) hp)

/-- A request that names an operation is answered by the state of its frame. -/
theorem peerRequest_next (ha : asksEntry r = false) :
    Runs (.peerRequest r) s
      (if !(decide (entState (entryOf s r.ctx r.tens r.tile) ≠ 0)
          && (decide (frameOf r.frame = frameOf (entryOf s r.ctx r.tens r.tile))
              || s.fwds.any fun f => decide (frameOf f.old = frameOf r.frame))) then peerReply r s 1 []
       else if sectorBad s (entryOf s r.ctx r.tens r.tile) r.off then peerReply r s 2 []
       else peerReply r (hotSample (peerApply s r).1 r.ctx r.tens r.tile) 0 (peerApply s r).2) := by
  have hnone : (exported s r.ctx r.tens).isNone = false := by simpa using hx
  refine congrArg Host.Outcome.next ((if_neg ?_).trans (if_neg (ne_true_of_eq_false ha)))
  exact ne_true_of_eq_false (by rw [hnone]; exact congrArg (!·) hp)

theorem peerRequest_applied (ha : asksEntry r = false) (hl : LiveFrame s r (entryOf s r.ctx r.tens r.tile))
    (hb : sectorBad s (entryOf s r.ctx r.tens r.tile) r.off = false) :
    Runs (.peerRequest r) s (peerReply r (hotSample (peerApply s r).1 r.ctx r.tens r.tile) 0 (peerApply s r).2) := by
  have hrun := peerRequest_next hx hp ha
  rwa [(liveFrame_iff ..).mpr hl, if_neg (by decide), if_neg (ne_true_of_eq_false hb)] at hrun

theorem peerRequest_stale (ha : asksEntry r = false) (hl : ¬LiveFrame s r (entryOf s r.ctx r.tens r.tile)) :
    Runs (.peerRequest r) s (peerReply r s 1 []) := by
  have hrun := peerRequest_next hx hp ha
  rwa [eq_false_of_ne_true (mt (liveFrame_iff ..).mp hl), Bool.not_false, if_pos rfl] at hrun

end

/-! ## STALE_FRAME, invalidations and their answers (R469, R470) -/

theorem staleFrame_next {s : State} {id : Nat} {r : Req} (hr : sfind s.reqs id = some r) (hp : r.peer = true) (ha : r.applied = true)
    (hl : r.lost = false) : Runs (.staleFrame id) s
      (if 7 ≤ r.stales then reqFault (dropPtc s r.ctx (tidOf r.addr) (reqSectors s r).1) id r cLink 0
       else setReq (dropPtc s r.ctx (tidOf r.addr) (reqSectors s r).1) id
         { r with applied := false, out := 0, stales := r.stales + 1, due := s.per + 1 }) := by
  simp only [Runs, exec_staleFrame, execStaleFrame, hr, hp, ha, hl, Bool.not_false, Bool.and_self, Bool.not_true, Bool.false_eq_true,
    if_false]
  rfl

/-- A tensor, as its home is known, is of a package. -/
def ofPackage (pkg : Nat) : Option (Nat × Nat × Nat) → Bool
  | some (p, _, _) => decide (p = pkg)
  | none => false

/-- A cached translation of a package's tile, as its invalidation finds it. -/
def cachedFor (s : State) (pkg k : Nat) : Bool := ofPackage pkg (peerOf s (k / 2 ^ 48 % 256) (k / 2 ^ 32 % 2 ^ 16))

theorem cachedFor_of_peerOf {s : State} {pkg k : Nat} {x : Nat × Nat × Nat}
    (h : peerOf s (k / 2 ^ 48 % 256) (k / 2 ^ 32 % 2 ^ 16) = some x) (hx : x.1 = pkg) : cachedFor s pkg k = true :=
  (congrArg (ofPackage pkg) h).trans (decide_eq_true hx)

/-- The caches without what an invalidation drops. -/
def uncached (s : State) (pkg : Nat) (frame : Word) : State :=
  { s with ptc := s.ptc.filter fun p => !(cachedFor s pkg p.1 && decide (frameOf p.2 = frameOf frame)) }

theorem peerInvalidation_drops (s : State) (pkg : Nat) (frame : Word) :
    Runs (.peerInvalidation pkg frame) s (sendPkg (uncached s pkg frame) pkg 109 [frame] []) := by
  rw [Runs, exec_peerInvalidation]
  unfold execPeerInvalidation uncached cachedFor
  generalize peerOf s = home
  rfl

theorem mem_uncached {s : State} {pkg : Nat} {frame : Word} {p : Nat × Word} (h : p ∈ (uncached s pkg frame).ptc) :
    p ∈ s.ptc ∧ (cachedFor s pkg p.1 = true → frameOf p.2 ≠ frameOf frame) := by
  obtain ⟨hmem, hdrop⟩ := List.mem_filter.mp h
  exact ⟨hmem, fun hc hf => by simp [hc, hf] at hdrop⟩

theorem invalidationAck_lowers {s : State} {pkg : Nat} {frame : Word} {x : Fwd} (hf : s.fwds = [x]) (hx : frameOf x.old = frameOf frame) :
    Runs (.invalidationAck pkg frame) s { s with fwds := [{ x with pend := x.pend.erase pkg }] } := by
  simp only [Runs, exec_invalidationAck, execInvalidationAck, hf, List.map_cons, List.map_nil, if_pos hx]

/-! ## Leases at other packages (R468) -/

theorem peerLeaseTimeout_refuses {s : State} {h : Nat} {r : Region} (hr : sfind s.regions h = some r) (hs : r.stage = .leases)
    (ha : r.askT ≠ none) : Runs (.peerLeaseTimeout h) s (refuseRun s h stLease) := by
  simp only [Runs, exec_peerLeaseTimeout, execPeerLeaseTimeout, hr]
  exact congrArg Host.Outcome.next (if_pos ⟨hs, Option.isSome_iff_ne_none.mpr ha⟩)

/-- A home answers the one request of the one region. -/
theorem resp_home {s : State} {h i conn : Nat} {r : Region} {seq : BitVec 32} (st : BitVec 8) (v : Word) (hr : s.regions = [(h, r)])
    (ha : r.asks = [(i, conn, seq.toNat, 0)]) (hc : isReach conn = true) (hs : r.stage = .leases) :
    Runs (.resp conn seq st v) s
      (let t := setReg s h { r with asks := [(i, conn, seq.toNat, if st.toNat = 0 then 1 else 2)] }
       if st.toNat ≠ 0 then refuseRun t h stLease else t) := by
  simp only [Runs, exec_resp, execResp, hc, if_true, homeAnswer, hr, ha, List.find?_cons, List.any_cons, and_self, decide_true,
    Bool.true_or, List.map_cons, List.map_nil, hs, and_true]

/-- R441, R468 to R470, R472: what other packages ask for, and what they answer. -/
theorem otherPackages : Rules.OtherPackages := by
  intro s
  refine ⟨?pins, ?waits, ?requests, ?stale, ?invalidation, fun _ _ _ => invalidationAck_lowers,
    fun _ _ => peerLeaseTimeout_refuses, ?answers⟩
  case pins =>
    intro pkg ctx tens first count kind hk hfree
    have hrun := peerPinRequest_answered hk (pinHeld_false pkg hfree)
    exact ⟨fun h => Eq.trans hrun (congrArg Host.Outcome.next (if_pos h)),
      fun h => Eq.trans hrun (congrArg Host.Outcome.next (if_neg (ne_true_of_eq_false h)))⟩
  case waits => exact fun pkg ctx tens first count kind i hk hi h => peerPinRequest_waits hk (pinHeld_true pkg hi h)
  case requests =>
    intro r hx hp
    refine ⟨peerRequest_entry hx hp, fun ha hst hframe => peerRequest_applied hx hp ha ⟨hst, hframe⟩,
      fun ha hno => peerRequest_stale hx hp ha ?_⟩
    rintro ⟨hst, hframe⟩
    rcases hno with h | ⟨htile, hfwd⟩
    · exact hst h
    · rcases hframe with h | ⟨x, hx, h⟩
      · exact htile h
      · exact hfwd x hx h
  case stale =>
    intro id r hr hp ha hl
    have hrun := staleFrame_next hr hp ha hl
    refine ⟨fun h => ?_, fun h => ?_⟩
    · rwa [if_neg (Nat.not_le.mpr h)] at hrun
    · rwa [if_pos h] at hrun
  case invalidation =>
    intro pkg frame
    have hptc : (sendPkg (uncached s pkg frame) pkg 109 [frame] []).ptc = (uncached s pkg frame).ptc :=
      sendPkg_field State.ptc (fun _ _ _ => rfl) _ _ _ _ _
    refine ⟨_, peerInvalidation_drops s pkg frame, fun p hp => ?_, sendPkg_field State.mem (fun _ _ _ => rfl) _ _ _ _ _,
      sendPkg_field State.tt (fun _ _ _ => rfl) _ _ _ _ _, fun p hp x hx hpkg => ?_⟩
    · exact (mem_uncached ((congrArg (p ∈ ·) hptc).mp hp)).1
    · exact (mem_uncached ((congrArg (p ∈ ·) hptc).mp hp)).2 (cachedFor_of_peerOf hx hpkg)
  case answers =>
    intro h r i conn seq st v hr ha hc hs
    have hrun := resp_home st v hr ha hc hs
    refine ⟨fun h0 => ?_, fun h0 => ?_⟩
    · have hz : st.toNat = 0 := congrArg BitVec.toNat h0
      rwa [if_pos hz, if_neg (not_not.mpr hz)] at hrun
    · have hne : st.toNat ≠ 0 := fun e => h0 (BitVec.eq_of_toNat_eq e)
      rwa [if_neg hne, if_pos hne] at hrun

end Sys2Proof.Machine
end

