-- ==== Sys2Proof/Proofs/StratumRoles.lean ====
section
/-! SUPPORT. The gates of strata and changes of their role (R340, R446). -/

namespace Sys2Proof.Machine

/-! ## The FIFOs into a stratum (R340) -/

section
variable {s : State} {i : Nat} {f : Fifo → Fifo}

/-- Changing the FIFOs into a stratum changes cells alone. -/
theorem onFifos_field {α : Type} (g : State → α) (hg : ∀ (s : State) c, g { s with cells := c } = g s) (s : State) (i : Nat)
    (f : Fifo → Fifo) : g (onFifos s i f) = g s :=
  foldl_keeps (P := fun t : State => g t = g s) (fun _ _ h => (hg _ _).trans h) _ _ rfl

/-- A FIFO into the stratum is changed once. -/
theorem fifo_onFifos (idem : ∀ x, f (f x) = f x) {k : Nat} (hk : k ∈ stratumCells i) :
    (cellAt (onFifos s i f) k).fifo = f (cellAt s k).fifo := by
  have hcell := cellAt_foldl (g := fun s k => setCell s k { cellAt s k with fifo := f (cellAt s k).fifo })
    (f := fun c => { c with fifo := f c.fifo }) (P := fun _ => True) (fun s k j _ => cellAt_setCell ..) (fun _ _ _ => trivial)
    (fun c => congrArg (fun x => { c with fifo := x }) (idem c.fifo)) (stratumCells i) (s := s) trivial k
  rw [onFifos, hcell, if_pos hk]

end

/-- A FIFO whose stratum is asked for its gate, and one whose stratum is gated. -/
def Fifo.close (f : Fifo) : Fifo := { f with closing := true }

def Fifo.gate (f : Fifo) : Fifo := { f with closing := false, gated := true }

theorem gateAsk_eq (s : State) (core i : Nat) : gateAsk s core i = onFifos { s with gates := s.gates ++ [(core, i)] } i Fifo.close := rfl

theorem gateAsk_gates (s : State) (core i : Nat) : (gateAsk s core i).gates = s.gates ++ [(core, i)] :=
  onFifos_field State.gates (fun _ _ => rfl) _ i Fifo.close

theorem gateAsk_closes (s : State) (core : Nat) {i k : Nat} (hk : k ∈ stratumCells i) : (cellAt (gateAsk s core i) k).fifo.closing = true := by
  rw [gateAsk_eq, fifo_onFifos (f := Fifo.close) (fun _ => rfl) hk, Fifo.close]

theorem gateRequest_asks {s : State} (core : Nat) {i : Nat} (hi : i < 32) (hg : (s.gates.any fun g => decide (g.2 = i)) = false) :
    Runs (.gateRequest core i) s (gateAsk s core i) := by
  refine congrArg Host.Outcome.next (if_neg ?_)
  simp [hg, hi]

/-- The FIFOs of a stratum whose gate is applied. -/
def gatedFifos (s : State) (i : Nat) : State :=
  onFifos { s with gates := s.gates.filter fun g => decide (g.2 ≠ i) } i Fifo.gate

/-- A change of the stratum's role to memory-only knows of its gate (R446). -/
def changeGated (s : State) (i : Nat) : State :=
  { s with role := s.role.map fun r => if r.strat = i ∧ r.role = 0 then { r with gated := true } else r }

theorem gateApply_next {s : State} {i : Nat} (h : gateReady s i = true) :
    ∃ core, Runs (.gateApply i) s (postEvent (changeGated (gatedFifos s i) i) core 1 0 0 i) := by
  have hready : ¬(!gateReady s i) = true := by simp [h]
  exact ⟨_, congrArg Host.Outcome.next (if_neg hready)⟩

theorem gatedFifos_gates (s : State) (i : Nat) : ((gatedFifos s i).gates.any fun g => decide (g.2 = i)) = false := by
  have hgates : (gatedFifos s i).gates = s.gates.filter fun g => decide (g.2 ≠ i) :=
    onFifos_field State.gates (fun _ _ => rfl) _ i Fifo.gate
  rw [hgates, List.any_filter, List.any_eq_false]
  simp

theorem gatedFifos_fifo (s : State) {i k : Nat} (hk : k ∈ stratumCells i) :
    (cellAt (gatedFifos s i) k).fifo.gated = true ∧ (cellAt (gatedFifos s i) k).fifo.closing = false := by
  rw [gatedFifos, fifo_onFifos (f := Fifo.gate) (fun _ => rfl) hk]
  exact ⟨rfl, rfl⟩

/-- A stratum that is empty is gated, and the core that asked is told (R340). -/
theorem gateApply_gates {s : State} {i : Nat} (h : gateReady s i = true) :
    ∃ t, Runs (.gateApply i) s t ∧ (t.gates.any fun g => decide (g.2 = i)) = false
      ∧ (∀ k ∈ stratumCells i, (cellAt t k).fifo.gated = true ∧ (cellAt t k).fifo.closing = false)
      ∧ t.devq.length = s.devq.length + 1 := by
  obtain ⟨core, hrun⟩ := gateApply_next h
  have hdevq : (gatedFifos s i).devq = s.devq := onFifos_field State.devq (fun _ _ => rfl) _ i Fifo.gate
  have hgates := gatedFifos_gates s i
  have hfifo : ∀ k ∈ stratumCells i, _ := fun _ => gatedFifos_fifo s
  generalize gatedFifos s i = u at hrun hdevq hgates hfifo
  exact ⟨_, hrun, hgates, hfifo, List.length_append.trans (congrArg (·.length + 1) hdevq)⟩

/-! ## The role that the mix shows (R446) -/

/-- Showing a role changes the first and the third word of the mix. -/
theorem setRole_field {α : Type} (g : State → α) (ha : ∀ (s : State) w, g { s with mixa := w } = g s)
    (hc : ∀ (s : State) w, g { s with mixc := w } = g s) (s : State) (i r : Nat) : g (setRole s i r) = g s :=
  (mixUpdate_field g ha _).trans (hc s _)

theorem roleOf_setRole (s : State) {i r : Nat} (hi : i < 32) (hr : r < 4) :
    roleOf (setRole s i r) i = if stratumMarked s i ∨ roleOf s i = 3 then 3 else r := by
  rw [setRole, roleOf, (mixUpdate_rest _).1]
  refine (bits_putBits_same _ _ (by omega) (by omega)).trans ?_
  rw [show 2 * i + 1 + 1 - 2 * i = 2 by omega]
  split
  · rfl
  · exact Nat.mod_eq_of_lt hr

/-- The change of a stratum's role, while the cells of strata change. -/
structure SameChange (s t : State) : Prop where
  role : t.role = s.role
  srst : t.srst = s.srst
  mixc : t.mixc = s.mixc

theorem SameChange.roleOf {s t : State} (h : SameChange s t) (i : Nat) : roleOf t i = roleOf s i :=
  congrArg (bits · (2 * i + 1) (2 * i)) h.mixc

theorem onFifos_sameChange (s : State) (i : Nat) (f : Fifo → Fifo) : SameChange s (onFifos s i f) :=
  ⟨onFifos_field State.role (fun _ _ => rfl) .., onFifos_field State.srst (fun _ _ => rfl) ..,
    onFifos_field State.mixc (fun _ _ => rfl) ..⟩

theorem clearStratum_sameChange (s : State) (i : Nat) : SameChange s (clearStratum s i) :=
  ⟨clearStratum_field State.role (fun _ _ => rfl) .., clearStratum_field State.srst (fun _ _ => rfl) ..,
    clearStratum_field State.mixc (fun _ _ => rfl) ..⟩

theorem gateAsk_sameChange (s : State) (core i : Nat) : SameChange s (gateAsk s core i) :=
  have h := onFifos_sameChange { s with gates := s.gates ++ [(core, i)] } i Fifo.close
  ⟨h.role, h.srst, h.mixc⟩

/-! ## A change begins, is abandoned, ends (R446) -/

/-- The change that a core begins, before its gate is asked for. -/
def changing (core : Nat) (s : State) (i tgt : Nat) : State :=
  setRole { s with srst := srstWord 0xFF i 1, role := some { strat := i, role := tgt, step := 1, core := core } } i 2

theorem changing_shows (core : Nat) {s : State} {i : Nat} (tgt : Nat) (hi : i < 32) (hm : stratumMarked s i = false) (hc : roleOf s i < 2) :
    (changing core s i tgt).role = some { strat := i, role := tgt, step := 1, core := core }
      ∧ (changing core s i tgt).srst = srstWord 0xFF i 1 ∧ roleOf (changing core s i tgt) i = 2 := by
  refine ⟨setRole_field State.role (fun _ _ => rfl) (fun _ _ => rfl) _ _ _, setRole_field State.srst (fun _ _ => rfl) (fun _ _ => rfl) _ _ _,
    (roleOf_setRole _ hi (by decide)).trans (if_neg ?_)⟩
  rintro (h | h)
  · exact Bool.false_ne_true (hm.symm.trans h)
  · exact absurd (h.symm.trans_lt hc) (by decide)

theorem roleStart_begins (core : Nat) {s : State} {v : Word} (hn : s.role = none) (hc : roleOf s (bits v 4 0) < 2)
    (ht : roleOf s (bits v 4 0) ≠ bits v 5 5) (hroom : bits v 5 5 = 0 ∨ computeCount s (bits v 4 0 / 4) + 1 ≤ roleRoom s) :
    roleStart core s v = if bits v 5 5 = 0 then gateAsk (changing core s (bits v 4 0) (bits v 5 5)) core (bits v 4 0)
      else changing core s (bits v 4 0) (bits v 5 5) := by
  have hsame : ¬(roleOf s (bits v 4 0) = 3 ∨ roleOf s (bits v 4 0) = 2 ∨ roleOf s (bits v 4 0) = bits v 5 5 ∨ s.role.isSome = true) := by
    rintro (h | h | h | h)
    · omega
    · omega
    · exact ht h
    · simp [hn] at h
  have hfits : ¬(bits v 5 5 = 1 ∧ roleRoom s < computeCount s (bits v 4 0 / 4) + 1) := by omega
  exact (if_neg hsame).trans (if_neg hfits)

theorem roleChangeStart_begins {s : State} {v : Word} (hn : s.role = none) (hc : roleOf s (bits v 4 0) < 2)
    (ht : roleOf s (bits v 4 0) ≠ bits v 5 5) (hm : stratumMarked s (bits v 4 0) = false)
    (hroom : bits v 5 5 = 0 ∨ computeCount s (bits v 4 0 / 4) + 1 ≤ roleRoom s) :
    ∃ t r, Runs (.roleChangeStart v) s t ∧ t.role = some r ∧ r.strat = bits v 4 0 ∧ r.role = bits v 5 5 ∧ r.step = 1
      ∧ t.srst = srstWord 0xFF (bits v 4 0) 1 ∧ roleOf t (bits v 4 0) = 2 := by
  have hi : bits v 4 0 < 2 ^ (4 + 1 - 0) := bits_lt ..
  obtain ⟨hrole, hsrst, hshows⟩ := changing_shows (askingCore s) (bits v 5 5) hi hm hc
  have hrun : Runs (.roleChangeStart v) s _ := congrArg Host.Outcome.next (roleStart_begins (askingCore s) hn hc ht hroom)
  split at hrun
  · have hgate := gateAsk_sameChange (changing (askingCore s) s (bits v 4 0) (bits v 5 5)) (askingCore s) (bits v 4 0)
    exact ⟨_, _, hrun, hgate.role.trans hrole, rfl, rfl, rfl, hgate.srst.trans hsrst, (hgate.roleOf _).trans hshows⟩
  · exact ⟨_, _, hrun, hrole, rfl, rfl, rfl, hsrst, hshows⟩

theorem roleBack_shows (s : State) {r : RoleChg} (status : Nat) (hi : r.strat < 32) :
    (roleBack s r status).role = none ∧ (roleBack s r status).srst = srstWord status r.strat 0
      ∧ roleOf (roleBack s r status) r.strat = if stratumMarked s r.strat ∨ roleOf s r.strat = 3 then 3 else 1 - r.role :=
  ⟨setRole_field State.role (fun _ _ => rfl) (fun _ _ => rfl) _ _ _, setRole_field State.srst (fun _ _ => rfl) (fun _ _ => rfl) _ _ _,
    roleOf_setRole _ hi (by omega)⟩

/-- The gate that a change to memory-only asked for, undone (R446). -/
def ungate (s : State) (r : RoleChg) : State :=
  let s := { s with gates := s.gates.filter fun g => decide (g.2 ≠ r.strat) }
  if r.gated then clearStratum s r.strat else onFifos s r.strat fun f => { f with closing := false }

theorem ungate_sameChange (s : State) (r : RoleChg) : SameChange s (ungate s r) := by
  unfold ungate
  dsimp only
  split
  · have h := clearStratum_sameChange { s with gates := s.gates.filter fun g => decide (g.2 ≠ r.strat) } r.strat
    exact ⟨h.role, h.srst, h.mixc⟩
  · have h := onFifos_sameChange { s with gates := s.gates.filter fun g => decide (g.2 ≠ r.strat) } r.strat
      fun f => { f with closing := false }
    exact ⟨h.role, h.srst, h.mixc⟩

theorem roleAbort_back {s : State} {r : RoleChg} (hr : s.role = some r) (h1 : r.step = 1) :
    roleAbort s = if r.role = 0 then ungate (roleBack s r 4) r else roleBack s r 4 := by
  unfold roleAbort
  rw [hr]
  exact if_neg (not_not.mpr h1)

theorem roleChangeAbort_back {s : State} {r : RoleChg} (hr : s.role = some r) (h1 : r.step = 1) (hi : r.strat < 32) :
    ∃ t, Runs .roleChangeAbort s t ∧ t.role = none ∧ t.srst = srstWord 4 r.strat 0
      ∧ roleOf t r.strat = if stratumMarked s r.strat ∨ roleOf s r.strat = 3 then 3 else 1 - r.role := by
  obtain ⟨hrole, hsrst, hshows⟩ := roleBack_shows s 4 hi
  have hrun : Runs .roleChangeAbort s _ := congrArg Host.Outcome.next (roleAbort_back hr h1)
  split at hrun
  · have hgate := ungate_sameChange (roleBack s r 4) r
    exact ⟨_, hrun, hgate.role.trans hrole, hgate.srst.trans hsrst, (hgate.roleOf _).trans hshows⟩
  · exact ⟨_, hrun, hrole, hsrst, hshows⟩

/-- Zeroing frames changes memory alone. -/
theorem zeroFrames_field {α : Type} (g : State → α) (hg : ∀ (s : State) m b, g { s with mem := m, bad := b } = g s) (l : List Word)
    (s : State) : g (l.foldl zeroFrame s) = g s :=
  foldl_keeps (P := fun t : State => g t = g s) (fun _ _ h => (hg _ _ _).trans h) l s rfl

theorem roleDrainDone_memory {s : State} {r : RoleChg} (hr : s.role = some r) (h1 : r.step = 1) (hi : r.strat < 32)
    (hd : drainDone s r = true) (h0 : r.role = 0) :
    ∃ t, Runs .roleDrainDone s t ∧ t.role = none ∧ t.srst = srstWord 0 r.strat 0
      ∧ roleOf t r.strat = if stratumMarked s r.strat ∨ roleOf s r.strat = 3 then 3 else 0 := by
  let u := (affected r.strat).foldl zeroFrame s
  have hmarked : stratumMarked u r.strat = stratumMarked s r.strat := zeroFrames_field (stratumMarked · r.strat) (fun _ _ _ => rfl) ..
  have hshown : roleOf u r.strat = roleOf s r.strat := zeroFrames_field (roleOf · r.strat) (fun _ _ _ => rfl) ..
  refine ⟨setRole { u with role := none, srst := srstWord 0 r.strat 0 } r.strat 0, ?_,
    setRole_field State.role (fun _ _ => rfl) (fun _ _ => rfl) _ _ _, setRole_field State.srst (fun _ _ => rfl) (fun _ _ => rfl) _ _ _, ?_⟩
  · simp only [Runs, exec_roleDrainDone, execRoleDrainDone, hr, h1, hd, h0]
    rfl
  · rw [roleOf_setRole _ hi (by decide), ← hmarked, ← hshown]
    rfl

/-- R340, R446: gates and changes of role. -/
theorem gatesAndRoles : Rules.GatesAndRoles := by
  intro s
  refine ⟨fun core i hi hg => ?_, fun i => gateApply_gates, fun _ => roleChangeStart_begins, fun r hr h1 h2 hi => ?_⟩
  · exact ⟨_, gateRequest_asks core hi hg, gateAsk_gates s core i, fun _ => gateAsk_closes s core⟩
  · exact ⟨roleChangeAbort_back hr h1 hi, roleDrainDone_memory hr h1 hi⟩

end Sys2Proof.Machine

open Sys2Proof Sys2Proof.Machine

/-- Settles O47: what other packages ask for and answer, and what gates and changes of role leave. -/
theorem peersGatesAndRoles : Obligations.PeersGatesAndRoles := ⟨otherPackages, gatesAndRoles⟩
end
